-- ==== Sys2Proof/Word.lean ====
section
/-! DEFINITION. The words and numbers of the Cinjoral 1608: bytes, Shop Clock ticks, send serials, the numbered
places of its tables, and the sets that the part sends as bit masks (11.2). -/

namespace Sys2Proof

/-- One byte of a link frame. -/
abbrev Byte := BitVec 8

/-- A Shop Clock value: a 32-bit count of 0.1 s ticks that wraps (1.6.1, R177). -/
abbrev Tick := BitVec 32

/-- A send serial: 16 bits, wrapping (R83, R91). -/
abbrev Serial := BitVec 16

/-- Press ports P0 to P15. -/
abbrev PortId := Fin 16

/-- Spool queues Q0 to Q7. -/
abbrev QueueId := Fin 8

/-- Job slots 0 to 255 (R1). -/
abbrev SlotId := Fin 256

/-- Page records 0 to 4,095 (R51). -/
abbrev RecordId := Fin 4096

/-- Alert slots 0 to 31 (R144). -/
abbrev AlertId := Fin 32

/-- Accounts 0 to 127 (R132). -/
abbrev AccountId := Fin 128

/-- Media classes 0 to 7. -/
abbrev Media := Fin 8

/-- A subset of Q0–Q7 and EXT: bit k is Qk, bit 8 is EXT (11.2). -/
abbrev MarkSet := BitVec 9

/-- A set of press ports: bit p is port Pp (11.2). -/
abbrev PortSet := BitVec 16

/-- A set of media classes: bit m is media class m (11.2). -/
abbrev MediaSet := BitVec 8

/-- A set of alert kinds: bit k − 1 stands for kind k (11.4). -/
abbrev KindSet := BitVec 7

/-- A printer's reason set: bit 0 MEDIA_OUT, 1 COVER_OPEN, 2 SUPPLY_OUT (11.4). -/
abbrev ReasonSet := BitVec 3

end Sys2Proof
end

