-- ==== Sys2Proof/Config.lean ====
section
/-! DEFINITION. What the part fixes once and for all: its capacities (1.5, R176), its fixed timer lengths, and the
three values that the manual leaves open, as constants without a body. -/

namespace Sys2Proof.Config

/-- The revision code of the part this manual describes (R176). -/
def revision : Nat := 3

/-- Places of the host request inbox (1.5, R168). -/
def inboxPlaces : Nat := 16

/-- Places of the reply queue (1.5, R170). -/
def replyPlaces : Nat := 16

/-- Blocks of the page store (R50). -/
def blockCount : Nat := 65536

/-- Bytes in one block (R50). -/
def blockBytes : Nat := 1024

/-- The greatest page length in bytes (R53 step 7). -/
def maxPageBytes : Nat := 16777216

/-- The most data bytes of one PAGE_DATA (R53 step 5). -/
def maxDataBytes : Nat := 4096

/-- The top of every 24-bit count: faces, allowances, sheets (R125, R140). -/
def maxCount : Nat := 16777215

/-- The top of a 12-digit charge accumulator (R121). -/
def maxCharge : Nat := 999999999999

/-- A port meter holds 9 decimal digits and wraps at this modulus (R124). -/
def meterModulus : Nat := 1000000000

/-- The press silence that loses a link, 3.0 s (R88). -/
def silenceTicks : Tick := 30

/-- The probe interval, 1.0 s (R85). -/
def probeTicks : Tick := 10

/-- Rounds a dispatch pass is given before the model stops it. Every round but the last grants a port, and a pass
grants far fewer than this (log entry 12). -/
def passFuel : Nat := 512

/-- FREE VALUE. R80 says that the decisions of one round are made in no order among themselves: the ports of the
`n`-th decided round are decided in rising order of `decisionKey n p`, which nothing constrains (log entry 11). -/
opaque decisionKey : Nat → Nat → Nat

/-- FREE VALUE. Chapter 11 gives QUERY_ALERTS an escalation expiry tick also for a stopped timer and does not say
what it then holds (log entry 13). -/
opaque stoppedExpiry : Nat → Nat → Tick

/-- FREE VALUE. R183 says that the page-data frame on the link is completed when a send is stopped, and leaves open how
many have gone out by then: `framesSent p n` at port `p` when `n` messages stand in the press log. Every send logs its
OFFER and no reset empties the log, so no two stopped sends share their arguments (log entry 22). -/
opaque framesSent : Nat → Nat → Nat

end Sys2Proof.Config
end

