-- ==== Sys2Proof/Syntax.lean ====
section
/-! DEFINITION. The commands of the Cinjoral 1608: one constructor per row of spec/opcode_table.json.

A request row is the HLI's TAKING of that request (R169): its operands are the tag and the body of the frame at the
head of the inbox, the kind being the row's own. A row about a press port names the port. A printer message carries
its payload fields as they stand on the press link (11.6). -/

namespace Sys2Proof

/-- The operations and events of the part, each whole and indivisible (95_what_each_step_holds.md). -/
inductive Instr where
  -- Job Table requests (R2, R3, R14, R15, R19 to R21, R53, R60)
  | admitJob (tag : Byte) (body : List Byte)
  | pageData (tag : Byte) (body : List Byte)
  | pageDiscard (tag : Byte) (body : List Byte)
  | closeJob (tag : Byte) (body : List Byte)
  | cancelJob (tag : Byte) (body : List Byte)
  | moveJob (tag : Byte) (body : List Byte)
  | retryJob (tag : Byte) (body : List Byte)
  | queryJob (tag : Byte) (body : List Byte)
  -- Queue Controller requests (R29, R33, R37, R47, R48)
  | queueMode (tag : Byte) (body : List Byte)
  | queueDispatch (tag : Byte) (body : List Byte)
  | queueOptions (tag : Byte) (body : List Byte)
  | mark (tag : Byte) (body : List Byte)
  | queryQueue (tag : Byte) (body : List Byte)
  -- Route Table requests (R69, R70, R72, R73)
  | rowWrite (tag : Byte) (body : List Byte)
  | memberSet (tag : Byte) (body : List Byte)
  | memberClear (tag : Byte) (body : List Byte)
  | routeSet (tag : Byte) (body : List Byte)
  | routeStep (tag : Byte) (body : List Byte)
  -- Press Port requests (R105, R106, R108, R109)
  | portService (tag : Byte) (body : List Byte)
  | portReset (tag : Byte) (body : List Byte)
  | portMeters (tag : Byte) (body : List Byte)
  | queryPort (tag : Byte) (body : List Byte)
  -- Meter Unit requests (R112, R113)
  | tariffWrite (tag : Byte) (body : List Byte)
  | tariffRead (tag : Byte) (body : List Byte)
  -- Account Table requests (R139 to R142)
  | accountSet (tag : Byte) (body : List Byte)
  | accountCredit (tag : Byte) (body : List Byte)
  | accountClose (tag : Byte) (body : List Byte)
  | queryAccount (tag : Byte) (body : List Byte)
  -- Alert Unit requests (R155, R160, R164)
  | alertAck (tag : Byte) (body : List Byte)
  | alertRelease (tag : Byte) (body : List Byte)
  | queryAlerts (tag : Byte) (body : List Byte)
  -- Part requests (R66, R178 to R180)
  | setTimers (tag : Byte) (body : List Byte)
  | queryStore (tag : Byte) (body : List Byte)
  | queryPart (tag : Byte) (body : List Byte)
  | restart (tag : Byte) (body : List Byte)
  /-- a taken request whose kind is not in the catalogue (R169 step 1) -/
  | unknownKindRequest (kind : Byte) (tag : Byte) (body : List Byte)
  -- the Host Link Interface (R166 to R173, R176, R180)
  /-- bytes read from the host link, as many as the host has sent (R166) -/
  | hostFrameReceived (bytes : List Byte)
  | frameBoundary
  | restartReset
  | startIntervalEnd
  | powerOn
  | resetPin
  -- the finishing line (R45, R46)
  | finishingMarkEdge
  | markPulseEnd
  -- timers (R75, R85, R86, R88, R101, R103, R159)
  | starveTimerExpiry (port : PortId)
  | setupTimerExpiry (port : PortId)
  | escalationTimerExpiry (slot : AlertId)
  /-- the Shop Clock reaches the reroute tick of this job's exclusion -/
  | rerouteTick (slot : SlotId)
  | probeDue (port : PortId)
  | pressSilence (port : PortId)
  | rateWindowClose (port : PortId)
  | sendEnd (port : PortId)
  | dispatchPass
  -- printer messages (R84, 11.6)
  /-- `caps` bits: 0 colour, 1 duplex, 2 FAST-capable, 3 path-clear -/
  | ident (port : PortId) (classCode caps mediaSet loaded depth : Byte)
  | rateEcho (port : PortId)
  | status (port : PortId) (reasons : Byte)
  | taken (port : PortId) (serial : Serial)
  | sheet (port : PortId) (serial : Serial)
  | aborted (port : PortId) (serial : Serial)
  | refuse (port : PortId) (serial : Serial) (reason : Byte)
  | jam (port : PortId) (location : Byte) (serialPresent : Byte) (serial : Serial)
  | cleared (port : PortId)
  | pressCancel (port : PortId)
  | setupDone (port : PortId) (media : Byte)
  /-- bytes read from the printer whose frames are discarded (R84) -/
  | pressFrameDiscarded (port : PortId) (bytes : List Byte)
  | shopClockTick
  | markPulseHighEnd
  deriving DecidableEq, Repr

end Sys2Proof
end

