-- ==== Sys2Proof/WellFormed.lean ====
section
/-! DEFINITION. Which commands can occur on the part's links at all. A body is at most 4,104 bytes, because the length
field of a frame is at most 4,106 and counts the kind and the tag (11.1). -/

namespace Sys2Proof

/-- The request kinds of the catalogue of 9.4, with the codes of 11.3. -/
def catalogue : List Byte :=
  [0x01, 0x02, 0x03, 0x04, 0x05, 0x06, 0x07, 0x08, 0x10, 0x11, 0x12, 0x13, 0x14, 0x20, 0x21, 0x22, 0x23, 0x24,
   0x30, 0x31, 0x32, 0x33, 0x40, 0x41, 0x50, 0x51, 0x52, 0x53, 0x60, 0x61, 0x62, 0x70, 0x71, 0x72, 0x73]

/-- The body fits a host frame (11.1). -/
def bodyFits (body : List Byte) : Bool := body.length ≤ 4104

/-- The command can occur: its body fits a frame, an unknown kind is outside the catalogue, and a run of received
bytes is not empty. -/
def Instr.wellFormed : Instr → Bool
  | .admitJob _ b | .pageData _ b | .pageDiscard _ b | .closeJob _ b | .cancelJob _ b | .moveJob _ b
  | .retryJob _ b | .queryJob _ b | .queueMode _ b | .queueDispatch _ b | .queueOptions _ b | .mark _ b
  | .queryQueue _ b | .rowWrite _ b | .memberSet _ b | .memberClear _ b | .routeSet _ b | .routeStep _ b
  | .portService _ b | .portReset _ b | .portMeters _ b | .queryPort _ b | .tariffWrite _ b
  | .tariffRead _ b | .accountSet _ b | .accountCredit _ b | .accountClose _ b | .queryAccount _ b
  | .alertAck _ b | .alertRelease _ b | .queryAlerts _ b | .setTimers _ b | .queryStore _ b
  | .queryPart _ b | .restart _ b => bodyFits b
  | .unknownKindRequest k _ b => bodyFits b && !catalogue.contains k
  | .hostFrameReceived bytes => !bytes.isEmpty
  | .pressFrameDiscarded _ bytes => !bytes.isEmpty
  | .frameBoundary | .restartReset | .startIntervalEnd | .powerOn | .resetPin | .finishingMarkEdge
  | .markPulseEnd | .starveTimerExpiry _ | .setupTimerExpiry _ | .escalationTimerExpiry _ | .rerouteTick _
  | .probeDue _ | .pressSilence _ | .rateWindowClose _ | .sendEnd _ | .dispatchPass | .ident _ _ _ _ _ _
  | .rateEcho _ | .status _ _ | .taken _ _ | .sheet _ _ | .aborted _ _ | .refuse _ _ _ | .jam _ _ _ _
  | .cleared _ | .pressCancel _ | .setupDone _ _ | .shopClockTick | .markPulseHighEnd => true

end Sys2Proof
end

