-- ==== Sys2Proof/Decode.lean ====
section
/-! DEFINITION. Which command a word or a request frame spells. No row of spec/opcode_table.json gives bits, so
`decodeTableWord` spells none. The kind codes of 11.3 do name a command for every request frame: `requestCommand`
is the table of 11.3, and `Instr.requestKind` is its inverse. -/

namespace Sys2Proof

/-- No row of the table gives bits: no word spells a command. -/
def decodeTableWord (_nbits _w : Nat) : Option Instr := none

/-- The command by which the HLI takes a request frame of this kind, tag and body: the kind codes of 11.3, every
other kind being unknown (R169 step 1). -/
def requestCommand (kind tag : Byte) (body : List Byte) : Instr :=
  if kind = 0x01 then .admitJob tag body
  else if kind = 0x02 then .pageData tag body
  else if kind = 0x03 then .pageDiscard tag body
  else if kind = 0x04 then .closeJob tag body
  else if kind = 0x05 then .cancelJob tag body
  else if kind = 0x06 then .moveJob tag body
  else if kind = 0x07 then .retryJob tag body
  else if kind = 0x08 then .queryJob tag body
  else if kind = 0x10 then .queueMode tag body
  else if kind = 0x11 then .queueDispatch tag body
  else if kind = 0x12 then .queueOptions tag body
  else if kind = 0x13 then .mark tag body
  else if kind = 0x14 then .queryQueue tag body
  else if kind = 0x20 then .rowWrite tag body
  else if kind = 0x21 then .memberSet tag body
  else if kind = 0x22 then .memberClear tag body
  else if kind = 0x23 then .routeSet tag body
  else if kind = 0x24 then .routeStep tag body
  else if kind = 0x30 then .portService tag body
  else if kind = 0x31 then .portReset tag body
  else if kind = 0x32 then .portMeters tag body
  else if kind = 0x33 then .queryPort tag body
  else if kind = 0x40 then .tariffWrite tag body
  else if kind = 0x41 then .tariffRead tag body
  else if kind = 0x50 then .accountSet tag body
  else if kind = 0x51 then .accountCredit tag body
  else if kind = 0x52 then .accountClose tag body
  else if kind = 0x53 then .queryAccount tag body
  else if kind = 0x60 then .alertAck tag body
  else if kind = 0x61 then .alertRelease tag body
  else if kind = 0x62 then .queryAlerts tag body
  else if kind = 0x70 then .setTimers tag body
  else if kind = 0x71 then .queryStore tag body
  else if kind = 0x72 then .queryPart tag body
  else if kind = 0x73 then .restart tag body
  else .unknownKindRequest kind tag body

/-- The kind, tag and body of the request frame that a request command takes; none for the events (11.3). -/
def Instr.requestFrame : Instr → Option (Byte × Byte × List Byte)
  | .admitJob t b => some (0x01, t, b)
  | .pageData t b => some (0x02, t, b)
  | .pageDiscard t b => some (0x03, t, b)
  | .closeJob t b => some (0x04, t, b)
  | .cancelJob t b => some (0x05, t, b)
  | .moveJob t b => some (0x06, t, b)
  | .retryJob t b => some (0x07, t, b)
  | .queryJob t b => some (0x08, t, b)
  | .queueMode t b => some (0x10, t, b)
  | .queueDispatch t b => some (0x11, t, b)
  | .queueOptions t b => some (0x12, t, b)
  | .mark t b => some (0x13, t, b)
  | .queryQueue t b => some (0x14, t, b)
  | .rowWrite t b => some (0x20, t, b)
  | .memberSet t b => some (0x21, t, b)
  | .memberClear t b => some (0x22, t, b)
  | .routeSet t b => some (0x23, t, b)
  | .routeStep t b => some (0x24, t, b)
  | .portService t b => some (0x30, t, b)
  | .portReset t b => some (0x31, t, b)
  | .portMeters t b => some (0x32, t, b)
  | .queryPort t b => some (0x33, t, b)
  | .tariffWrite t b => some (0x40, t, b)
  | .tariffRead t b => some (0x41, t, b)
  | .accountSet t b => some (0x50, t, b)
  | .accountCredit t b => some (0x51, t, b)
  | .accountClose t b => some (0x52, t, b)
  | .queryAccount t b => some (0x53, t, b)
  | .alertAck t b => some (0x60, t, b)
  | .alertRelease t b => some (0x61, t, b)
  | .queryAlerts t b => some (0x62, t, b)
  | .setTimers t b => some (0x70, t, b)
  | .queryStore t b => some (0x71, t, b)
  | .queryPart t b => some (0x72, t, b)
  | .restart t b => some (0x73, t, b)
  | .unknownKindRequest k t b => some (k, t, b)
  | .hostFrameReceived _ | .frameBoundary | .restartReset | .startIntervalEnd | .powerOn | .resetPin
  | .finishingMarkEdge | .markPulseEnd | .starveTimerExpiry _ | .setupTimerExpiry _
  | .escalationTimerExpiry _ | .rerouteTick _ | .probeDue _ | .pressSilence _ | .rateWindowClose _
  | .sendEnd _ | .dispatchPass | .ident _ _ _ _ _ _ | .rateEcho _ | .status _ _ | .taken _ _ | .sheet _ _
  | .aborted _ _ | .refuse _ _ _ | .jam _ _ _ _ | .cleared _ | .pressCancel _ | .setupDone _ _
  | .pressFrameDiscarded _ _ | .shopClockTick | .markPulseHighEnd => none

end Sys2Proof
end

