-- ==== Sys2Proof/Machine/Types.lean ====
section
/-! DEFINITION. The records of the part's ten blocks, field by field as the chapters list them. -/

namespace Sys2Proof.Machine

/-- Colour class of a page (11.4). -/
inductive Colour where
  | mono | spot | full
  deriving DecidableEq, Repr

/-- Job states (R1, 11.4). -/
inductive JobState where
  | free | waiting | active | starved | handed | done | cancelling | error
  deriving DecidableEq, Repr

/-- Why a WAITING job waits (R1, R4). -/
inductive WaitReason where
  | new | hold | marks | allowance | route | jam | starved | halt | drain
  deriving DecidableEq, Repr

/-- The job event flags (R22). -/
inductive JobFlag where
  | handed | done | cancelled | atPress | error | allowanceStop | rerouted | proofDone | starved
  deriving DecidableEq, Repr

/-- The port a job is kept off after a stop alert, and its reroute tick (R1, R75). -/
structure Exclusion where
  port : PortId
  tick : Tick
  deriving DecidableEq, Repr

/-- A job record (R1). -/
structure Job where
  generation : Byte
  state : JobState
  /-- absent in every state but WAITING -/
  reason : Option WaitReason
  queue : QueueId
  account : AccountId
  stream : Bool
  rush : Bool
  /-- notify DOUBLE; no is SINGLE -/
  double : Bool
  copies : Nat
  finishing : Nat
  waitSet : MarkSet
  giveSet : MarkSet
  closed : Bool
  started : Bool
  proofRun : Bool
  /-- page 1 first; `none` is a freed place -/
  pages : List (Option RecordId)
  filling : Option RecordId
  cursorCopy : Nat
  /-- page index, 1 to one more than the number of places -/
  cursorPage : Nat
  feedPort : Option PortId
  exclusion : Option Exclusion
  needsMedia : MediaSet
  needsColour : Bool
  needsDuplex : Bool
  portsUsed : PortSet
  sheets : Nat
  faces : Nat
  proofFaces : Nat
  copiesDone : Nat
  proofsDone : Nat
  /-- mills, at most 999,999,999,999 -/
  charge : Nat
  saturated : Bool
  /-- bit numbers as in 11.4 -/
  flags : BitVec 9
  noticeOwed : Bool
  admitted : Tick
  refuseReason : Byte
  deriving DecidableEq, Repr

/-- Queue modes (R25). -/
inductive QueueMode where
  | disabled | load | run | halt
  deriving DecidableEq, Repr

/-- Dispatch states (R25). -/
inductive DispatchState where
  | hold | step | free | proof
  deriving DecidableEq, Repr

/-- A queue record (R25). -/
structure Queue where
  list : List SlotId
  mode : QueueMode
  dispatch : DispatchState
  rotate : Bool
  reroute : Bool
  received : MarkSet
  deriving DecidableEq, Repr

/-- Where the finishing-line mark output's pulse former stands (R45). -/
inductive PulsePhase where
  | idle | high | gap
  deriving DecidableEq, Repr

/-- The finishing-line mark output (R45). -/
structure MarkLine where
  /-- owed pulses, 0 to 255 -/
  owed : Nat
  phase : PulsePhase
  /-- the end of the pulse on the line lowers `owed`; no for a pulse that was on the line at a RESTART -/
  counted : Bool
  deriving DecidableEq, Repr

/-- Page record states (R52). -/
inductive PageState where
  | free | filling | sealed
  deriving DecidableEq, Repr

/-- A page record (R51). -/
structure PageRecord where
  state : PageState
  owner : Option SlotId
  media : Media
  /-- 1 or 2 -/
  sides : Nat
  colour : Colour
  length : Nat
  /-- block numbers, first byte in the first block -/
  chain : List Nat
  place : Option Nat
  sheeted : Nat
  deriving DecidableEq, Repr

/-- A queue's ring: start S, end E, current row C, pinned (R71). -/
structure Ring where
  first : Nat
  last : Nat
  current : Nat
  pinned : Bool
  deriving DecidableEq, Repr

/-- Kinds of a proposal (R79). -/
inductive ProposalKind where
  | proofStart | firstRealStart | reclaim
  deriving DecidableEq, Repr

/-- A proposal of the Press Claim Arbiter's table (R79). -/
structure Proposal where
  slot : SlotId
  generation : Byte
  port : PortId
  row : Nat
  kind : ProposalKind
  /-- the queue's dispatch state, options or ring have been written since the examination (R81) -/
  written : Bool
  deriving DecidableEq, Repr

/-- Link states (R83). -/
inductive LinkState where
  | down | probing | rating | up
  deriving DecidableEq, Repr

/-- Why a DOWN link is down (R83, R89). -/
inductive DownCause where
  | fault | hold
  deriving DecidableEq, Repr

/-- Link rates (R83). -/
inductive Rate where
  | base | fast
  deriving DecidableEq, Repr

/-- The service state of a port, derived by R90. -/
inductive ServiceState where
  | closed | ready | feeding | setup | offline | stopped
  deriving DecidableEq, Repr

/-- What a printer declared in its last IDENT (R83). -/
structure Ident where
  classCode : Byte
  colour : Bool
  duplex : Bool
  media : MediaSet
  /-- declared depth W, 1 to 8 -/
  depth : Nat
  fastCapable : Bool
  deriving DecidableEq, Repr

/-- States of a send entry (R91). -/
inductive EntryState where
  | streaming | aborting | taken
  deriving DecidableEq, Repr

/-- A send entry of a port's window (R91). -/
structure SendEntry where
  serial : Serial
  job : SlotId
  place : Nat
  copy : Nat
  faces : Nat
  colour : Colour
  state : EntryState
  ended : Bool
  deriving DecidableEq, Repr

/-- One set of six port meters, each 0 to 999,999,999 (R107). -/
structure MeterSet where
  taken : Nat
  sheets : Nat
  mono : Nat
  spot : Nat
  full : Nat
  spoiled : Nat
  deriving DecidableEq, Repr

/-- Port event flags (R109). -/
inductive PortFlag where
  | attached | detached | rate
  deriving DecidableEq, Repr

/-- The phases in which a link's bytes are read (R166, R84). -/
inductive CheckerPhase where
  | hunting | length | body
  deriving DecidableEq, Repr

/-- A frame checker: its phase and the bytes read since the start byte (R166, R84). -/
structure Checker where
  phase : CheckerPhase
  got : List Byte
  deriving DecidableEq, Repr

/-- A press port's record (R83), with its receiver (R84), its rate window (R86) and its send in progress (R93). -/
structure Port where
  link : LinkState
  downCause : Option DownCause
  rate : Rate
  ident : Option Ident
  /-- effective depth, 1 to 8 -/
  depth : Nat
  loaded : Media
  inService : Bool
  holdAsked : Bool
  /-- empty means ONLINE -/
  status : ReasonSet
  feedOwner : Option SlotId
  releaseOwed : Bool
  /-- the awaited media class of a setup hold -/
  setup : Option Media
  stallReported : Bool
  /-- oldest first -/
  window : List SendEntry
  nextSerial : Serial
  /-- the expiry tick while running -/
  starveTimer : Option Tick
  setupTimer : Option Tick
  lastHeard : Tick
  probeDue : Tick
  lifetime : MeterSet
  period : MeterSet
  flags : BitVec 3
  noticeOwed : Bool
  receiver : Checker
  /-- the echoes counted while the rate window is open (R86) -/
  rateWindow : Option Nat
  /-- the serial of the send in progress (R93) -/
  sending : Option Serial
  deriving DecidableEq, Repr

/-- What a port puts on its press link (5.2, 11.6). -/
inductive PressMessage where
  | probe
  | rateOffer
  | offer (serial : Serial) (slot : Byte) (copy : Byte) (attr : Byte) (length : Nat)
  | pageData (serial : Serial) (bytes : List Byte)
  | pageEnd (serial : Serial)
  | abort (serial : Serial)
  | setup (media : Media)
  deriving DecidableEq, Repr

/-- A rate entry that is not BLANK: front and back rate in mills (R111). -/
structure RatePair where
  front : Nat
  back : Nat
  deriving DecidableEq, Repr

/-- A tariff page: 24 rate entries, entry `3 × media + colour code`, and surcharges 1 to 3; `none` is BLANK (R111). -/
structure TariffPage where
  rates : Vector (Option RatePair) 24
  surcharges : Vector (Option Nat) 3
  deriving DecidableEq, Repr

/-- An account record (R132). -/
structure Account where
  enabled : Bool
  unmetered : Bool
  /-- tariff group 0 to 7 -/
  group : Fin 8
  /-- tenths of a percent, 0 to 1000 -/
  discount : Nat
  allowance : Nat
  reserved : Nat
  periodFaces : Nat
  periodCharge : Nat
  saturated : Bool
  deriving DecidableEq, Repr

/-- The kinds of alert (8.2, 11.4). -/
inductive AlertKind where
  | jam | orderFault | linkLost | mediaOut | coverOpen | supplyOut | setupStall
  deriving DecidableEq, Repr

/-- Alert event flags (R163). -/
inductive AlertFlag where
  | raised | escalated | closed
  deriving DecidableEq, Repr

/-- A job handle as an alert lists it (R152). -/
structure Handle where
  slot : SlotId
  generation : Byte
  deriving DecidableEq, Repr

/-- An alert slot (R144). -/
structure AlertSlot where
  /-- State OPEN; no is CLEAR -/
  isOpen : Bool
  primary : Option AlertKind
  additional : KindSet
  standing : KindSet
  location : Byte
  raised : Tick
  level : Nat
  acknowledged : Bool
  attendant : Bool
  hostReleased : Bool
  repeats : Nat
  affected : List Handle
  /-- the escalation timer's expiry tick while it runs -/
  timer : Option Tick
  flags : BitVec 3
  noticeOwed : Bool
  deriving DecidableEq, Repr

/-- A port lamp (R161). -/
inductive Lamp where
  | off | steady | slow | fast
  deriving DecidableEq, Repr

/-- Result codes (1.6.7, 11.2). -/
inductive ResultCode where
  | ok | clamped | busy | frame | kind | range | stale | state | full | queueClosed | account | storeFull
  | pageLimit
  deriving DecidableEq, Repr

/-- A request frame in the inbox (R168). -/
structure Request where
  kind : Byte
  tag : Byte
  body : List Byte
  deriving DecidableEq, Repr

/-- A finished frame of the part: a reply, whose body begins with its result code, or a notice (11.1, 11.2). -/
structure HostFrame where
  kind : Byte
  tag : Byte
  body : List Byte
  deriving DecidableEq, Repr

/-- The notice sources (R172). -/
inductive Source where
  | job (slot : SlotId)
  | alert (slot : AlertId)
  | port (port : PortId)
  | part
  deriving DecidableEq, Repr

/-- Start causes (R176). -/
inductive StartCause where
  | power | pin | restart
  deriving DecidableEq, Repr

/-- The five timer settings (R178). -/
structure TimerSettings where
  /-- ticks -/
  starve : Nat
  /-- seconds -/
  setupStall : Nat
  escalation1 : Nat
  escalation2 : Nat
  reroute : Nat
  deriving DecidableEq, Repr

end Sys2Proof.Machine
end

