-- ==== Sys2Proof/Machine/Reset.lean ====
section
/-! DEFINITION. The values that the records take after a power-on or a reset-pin reset: the last columns of R1, R25,
R51, R83, R132 and R144, and R45, R71, R111 and R178. -/

namespace Sys2Proof.Machine

/-- A FREE job slot of generation `g` (R1). -/
def Job.freeSlot (g : Byte) : Job where
  generation := g
  state := .free
  reason := none
  queue := 0
  account := 0
  stream := false
  rush := false
  double := false
  copies := 1
  finishing := 0
  waitSet := 0
  giveSet := 0
  closed := false
  started := false
  proofRun := false
  pages := []
  filling := none
  cursorCopy := 1
  cursorPage := 1
  feedPort := none
  exclusion := none
  needsMedia := 0
  needsColour := false
  needsDuplex := false
  portsUsed := 0
  sheets := 0
  faces := 0
  proofFaces := 0
  copiesDone := 0
  proofsDone := 0
  charge := 0
  saturated := false
  flags := 0
  noticeOwed := false
  admitted := 0
  refuseReason := 0

/-- A queue after any reset (R25, R49). -/
def Queue.initial : Queue where
  list := []
  mode := .disabled
  dispatch := .hold
  rotate := true
  reroute := false
  received := 0

/-- The mark output after power-on: low, idle, nothing owed (R45). -/
def MarkLine.initial : MarkLine where
  owed := 0
  phase := .idle
  counted := true

/-- A FREE page record (R51). -/
def PageRecord.freeRecord : PageRecord where
  state := .free
  owner := none
  media := 0
  sides := 1
  colour := .mono
  length := 0
  chain := []
  place := none
  sheeted := 0

/-- A ring after power-on (R71). -/
def Ring.initial : Ring where
  first := 0
  last := 0
  current := 0
  pinned := false

/-- A meter set at 0 (R107). -/
def MeterSet.zero : MeterSet where
  taken := 0
  sheets := 0
  mono := 0
  spot := 0
  full := 0
  spoiled := 0

/-- A frame checker that hunts for a start byte (R166, R84). -/
def Checker.hunt : Checker where
  phase := .hunting
  got := []

/-- A press port after power-on (R83). Probe due is 0, the tick at which the next PROBE, the one of entering PROBING,
is sent (R85; log entry 6). -/
def Port.initial : Port where
  link := .probing
  downCause := none
  rate := .base
  ident := none
  depth := 1
  loaded := 0
  inService := true
  holdAsked := false
  status := 0
  feedOwner := none
  releaseOwed := false
  setup := none
  stallReported := false
  window := []
  nextSerial := 0
  starveTimer := none
  setupTimer := none
  lastHeard := 0
  probeDue := 0
  lifetime := .zero
  period := .zero
  flags := 0
  noticeOwed := false
  receiver := .hunt
  rateWindow := none
  sending := none

/-- A group page after power-on: all BLANK (R111). -/
def TariffPage.blank : TariffPage where
  rates := Vector.replicate 24 none
  surcharges := Vector.replicate 3 none

/-- The standing page after power-on: all rates and surcharges 0 (R111). -/
def TariffPage.standing : TariffPage where
  rates := Vector.replicate 24 (some { front := 0, back := 0 })
  surcharges := Vector.replicate 3 (some 0)

/-- Accounts 1 to 127 after power-on (R132). -/
def Account.initial : Account where
  enabled := false
  unmetered := false
  group := 0
  discount := 0
  allowance := 0
  reserved := 0
  periodFaces := 0
  periodCharge := 0
  saturated := false

/-- Account 0 after power-on (R132). -/
def Account.house : Account :=
  { Account.initial with enabled := true, unmetered := true, group := 7 }

/-- An alert slot after power-on (R144). -/
def AlertSlot.clear : AlertSlot where
  isOpen := false
  primary := none
  additional := 0
  standing := 0
  location := 0
  raised := 0
  level := 1
  acknowledged := false
  attendant := false
  hostReleased := false
  repeats := 0
  affected := []
  timer := none
  flags := 0
  noticeOwed := false

/-- The timer settings after power-on (R178). -/
def TimerSettings.defaults : TimerSettings where
  starve := 20
  setupStall := 30
  escalation1 := 60
  escalation2 := 180
  reroute := 20

/-- The free pool after any reset that rebuilds it: every block, in block order (R50, R67). -/
def fullPool : List Nat := List.range Config.blockCount

end Sys2Proof.Machine
end

