-- ==== Sys2Proof/Machine/Bytes.lean ====
section
/-! DEFINITION. Byte order, packed decimal, the frame check and the byte-by-byte reading of frames: 1.6.3, 1.6.4,
R166, R84 and 11.1. -/

namespace Sys2Proof.Machine

/-- The `k` low bytes of `n`, most significant byte first (1.6.4). -/
def beBytes : Nat → Nat → List Byte
  | 0, _ => []
  | k + 1, n => BitVec.ofNat 8 (n / 256 ^ k) :: beBytes k n

/-- The number that bytes spell, most significant byte first (1.6.4). -/
def beValue (bs : List Byte) : Nat := bs.foldl (fun n b => n * 256 + b.toNat) 0

/-- Packed decimal in `k` bytes, most significant digit first (1.6.3). -/
def bcdBytes : Nat → Nat → List Byte
  | 0, _ => []
  | k + 1, n => BitVec.ofNat 8 (n / 100 ^ k / 10 % 10 * 16 + n / 100 ^ k % 10) :: bcdBytes k n

/-- Both nibbles of a byte are digits (1.6.3). -/
def digitsOk (b : Byte) : Bool := b.toNat / 16 ≤ 9 && b.toNat % 16 ≤ 9

/-- The number that packed-decimal bytes spell (1.6.3). -/
def bcdValue (bs : List Byte) : Nat := bs.foldl (fun n b => n * 100 + (b.toNat / 16 * 10 + b.toNat % 16)) 0

/-- A yes/no byte (11.2). -/
def yesNo (b : Bool) : Byte := if b then 1 else 0

/-- Byte `i` of a body. -/
def byteAt (body : List Byte) (i : Nat) : Byte := body.getD i 0

/-- The two bytes of a body at `i`, most significant first. -/
def wordAt (body : List Byte) (i : Nat) : Nat := (byteAt body i).toNat * 256 + (byteAt body (i + 1)).toNat

/-- One bit step of the check: polynomial 0x1021, no reflection (R166). -/
def crcShift (c : BitVec 16) : BitVec 16 := if c.msb then (c <<< 1) ^^^ 0x1021 else c <<< 1

/-- The check carried over one more byte (R166). -/
def crcByte (c : BitVec 16) (b : Byte) : BitVec 16 :=
  let c0 := c ^^^ ((b.setWidth 16) <<< 8)
  crcShift (crcShift (crcShift (crcShift (crcShift (crcShift (crcShift (crcShift c0)))))))

/-- The check of a frame: CRC-16, starting value 0xFFFF, no final inversion (R166). -/
def crc16 (bs : List Byte) : BitVec 16 := bs.foldl crcByte 0xFFFF

/-- A frame on either kind of link: start byte, length, content, and check over length and content (11.1, 11.6). -/
def frameBytes (start : Byte) (content : List Byte) : List Byte :=
  let covered := beBytes 2 content.length ++ content
  start :: (covered ++ beBytes 2 (crc16 covered).toNat)

/-- The bytes of one of the part's frames on the host link (11.1). -/
def HostFrame.bytes (f : HostFrame) : List Byte := frameBytes 0x5A (f.kind :: f.tag :: f.body)

/-- What a frame checker finds when it has read a frame's last byte (R166, R84). -/
inductive CheckerEvent where
  /-- a length outside the link's range -/
  | impossibleLength
  /-- the check computed differs from the check received -/
  | badCheck
  /-- a frame whose check agrees, with what stands between its length and its check -/
  | arrived (content : List Byte)
  deriving DecidableEq, Repr

/-- What one link's checker looks for: its start byte and its possible lengths (R166, R84). -/
structure LinkShape where
  start : Byte
  minLength : Nat
  maxLength : Nat
  deriving DecidableEq, Repr

/-- The host link: start byte 0x5A, lengths 2 to 4,106 (R166). -/
def hostShape : LinkShape where
  start := 0x5A
  minLength := 2
  maxLength := 4106

/-- A press link: start byte 0xC3, lengths 1 to 1,027 (R84). -/
def pressShape : LinkShape where
  start := 0xC3
  minLength := 1
  maxLength := 1027

/-- A checker reads one byte (R166). -/
def Checker.read (shape : LinkShape) (c : Checker) (b : Byte) : Checker × Option CheckerEvent :=
  match c.phase with
  | .hunting => if b = shape.start then ({ phase := .length, got := [] }, none) else (c, none)
  | .length =>
    let got := c.got ++ [b]
    if got.length < 2 then ({ c with got := got }, none)
    else if beValue got < shape.minLength || shape.maxLength < beValue got then (.hunt, some .impossibleLength)
    else ({ phase := .body, got := got }, none)
  | .body =>
    let got := c.got ++ [b]
    let covered := 2 + beValue (got.take 2)
    if got.length < covered + 2 then ({ c with got := got }, none)
    else if crc16 (got.take covered) = BitVec.ofNat 16 (beValue (got.drop covered)) then
      (.hunt, some (.arrived ((got.take covered).drop 2)))
    else (.hunt, some .badCheck)

/-- The size that a press-link kind's payload must have, for every kind of 11.6; `none` for a kind not listed. -/
def pressPayloadFits (kind : Byte) (n : Nat) : Bool :=
  if kind = 0x01 ∨ kind = 0x02 ∨ kind = 0x82 ∨ kind = 0x89 ∨ kind = 0x8A then n == 0
  else if kind = 0x03 then n == 9
  else if kind = 0x04 then 3 ≤ n && n ≤ 1026
  else if kind = 0x05 ∨ kind = 0x06 ∨ kind = 0x84 ∨ kind = 0x85 ∨ kind = 0x86 then n == 2
  else if kind = 0x07 ∨ kind = 0x83 ∨ kind = 0x8B then n == 1
  else if kind = 0x81 then n == 5
  else if kind = 0x87 then n == 3
  else if kind = 0x88 then n == 4
  else true

/-- The bytes of a message that a port sends (11.6). -/
def PressMessage.bytes (m : PressMessage) : List Byte :=
  frameBytes 0xC3 <| match m with
    | .probe => [0x01]
    | .rateOffer => [0x02]
    | .offer serial slot copy attr length =>
      0x03 :: (beBytes 2 serial.toNat ++ [slot, copy, attr] ++ beBytes 4 length)
    | .pageData serial bytes => 0x04 :: (beBytes 2 serial.toNat ++ bytes)
    | .pageEnd serial => 0x05 :: beBytes 2 serial.toNat
    | .abort serial => 0x06 :: beBytes 2 serial.toNat
    | .setup media => [0x07, BitVec.ofNat 8 media.val]

end Sys2Proof.Machine
end

