-- ==== Sys2Proof/Machine/Sets.lean ====
section
/-! DEFINITION. Sets sent as bit masks, and the codes and bit numbers of Chapter 11's enumerated values. -/

namespace Sys2Proof.Machine

/-- Member `i` is in the set. -/
def hasBit {n : Nat} (s : BitVec n) (i : Nat) : Bool := s.getLsbD i

/-- The set with member `i` added. -/
def addBit {n : Nat} (s : BitVec n) (i : Nat) : BitVec n := s ||| BitVec.twoPow n i

/-- The set with member `i` taken away. -/
def dropBit {n : Nat} (s : BitVec n) (i : Nat) : BitVec n := s &&& ~~~(BitVec.twoPow n i)

/-- The members of `s` that are not in `t`. -/
def minusBits {n : Nat} (s t : BitVec n) : BitVec n := s &&& ~~~t

/-- Every member of `s` is in `t`. -/
def subBits {n : Nat} (s t : BitVec n) : Bool := minusBits s t == 0

/-- The bit of EXT in a mark set (11.2). -/
def extBit : Nat := 8

/-- Colour class codes (11.4). -/
def Colour.code : Colour → Nat
  | .mono => 0
  | .spot => 1
  | .full => 2

/-- The colour class of a code (11.4). -/
def Colour.ofCode (n : Nat) : Option Colour :=
  if n = 0 then some .mono else if n = 1 then some .spot else if n = 2 then some .full else none

/-- Job state codes (11.4). -/
def JobState.code : JobState → Nat
  | .free => 0
  | .waiting => 1
  | .active => 2
  | .starved => 3
  | .handed => 4
  | .done => 5
  | .cancelling => 6
  | .error => 7

/-- Wait reason codes; absent is 0 (11.4). -/
def WaitReason.code : Option WaitReason → Nat
  | none => 0
  | some .new => 1
  | some .hold => 2
  | some .marks => 3
  | some .allowance => 4
  | some .route => 5
  | some .jam => 6
  | some .starved => 7
  | some .halt => 8
  | some .drain => 9

/-- Bit numbers of the job event flags (11.4). -/
def JobFlag.bit : JobFlag → Nat
  | .handed => 0
  | .done => 1
  | .cancelled => 2
  | .atPress => 3
  | .error => 4
  | .allowanceStop => 5
  | .rerouted => 6
  | .proofDone => 7
  | .starved => 8

/-- Bit numbers of the port event flags (11.4). -/
def PortFlag.bit : PortFlag → Nat
  | .attached => 0
  | .detached => 1
  | .rate => 2

/-- Bit numbers of the alert event flags (11.4). -/
def AlertFlag.bit : AlertFlag → Nat
  | .raised => 0
  | .escalated => 1
  | .closed => 2

/-- Bit number of an alert kind in a kind set: kind code less 1 (11.4). -/
def AlertKind.bit : AlertKind → Nat
  | .jam => 0
  | .orderFault => 1
  | .linkLost => 2
  | .mediaOut => 3
  | .coverOpen => 4
  | .supplyOut => 5
  | .setupStall => 6

/-- Alert kind codes; absent is 0 (11.4). -/
def AlertKind.code : Option AlertKind → Nat
  | none => 0
  | some k => k.bit + 1

/-- Queue mode codes (11.4). -/
def QueueMode.code : QueueMode → Nat
  | .disabled => 0
  | .load => 1
  | .run => 2
  | .halt => 3

/-- The queue mode of a code (11.4). -/
def QueueMode.ofCode (n : Nat) : Option QueueMode :=
  if n = 0 then some .disabled else if n = 1 then some .load else if n = 2 then some .run
  else if n = 3 then some .halt else none

/-- Dispatch state codes (11.4). -/
def DispatchState.code : DispatchState → Nat
  | .hold => 0
  | .step => 1
  | .free => 2
  | .proof => 3

/-- The dispatch state of a code (11.4). -/
def DispatchState.ofCode (n : Nat) : Option DispatchState :=
  if n = 0 then some .hold else if n = 1 then some .step else if n = 2 then some .free
  else if n = 3 then some .proof else none

/-- Link state codes (11.4). -/
def LinkState.code : LinkState → Nat
  | .down => 0
  | .probing => 1
  | .rating => 2
  | .up => 3

/-- Down cause codes; absent is 0 (11.4). -/
def DownCause.code : Option DownCause → Nat
  | none => 0
  | some .fault => 1
  | some .hold => 2

/-- Rate codes (11.4). -/
def Rate.code : Rate → Nat
  | .base => 0
  | .fast => 1

/-- Service state codes (11.4). -/
def ServiceState.code : ServiceState → Nat
  | .closed => 0
  | .ready => 1
  | .feeding => 2
  | .setup => 3
  | .offline => 4
  | .stopped => 5

/-- Send entry state codes (11.4). -/
def EntryState.code : EntryState → Nat
  | .streaming => 0
  | .aborting => 1
  | .taken => 2

/-- Start cause codes (11.4). -/
def StartCause.code : StartCause → Nat
  | .power => 1
  | .pin => 2
  | .restart => 3

/-- Result codes (11.2). -/
def ResultCode.code : ResultCode → Byte
  | .ok => 0x00
  | .clamped => 0x01
  | .busy => 0x02
  | .frame => 0x03
  | .kind => 0x04
  | .range => 0x05
  | .stale => 0x06
  | .state => 0x07
  | .full => 0x08
  | .queueClosed => 0x09
  | .account => 0x0A
  | .storeFull => 0x0B
  | .pageLimit => 0x0C

/-- The stop slot of a port: slot 2 × p (R144). -/
def stopSlot (p : PortId) : AlertId := ⟨2 * p.val, by omega⟩

/-- The wait slot of a port: slot 2 × p + 1 (R144). -/
def waitSlot (p : PortId) : AlertId := ⟨2 * p.val + 1, by omega⟩

end Sys2Proof.Machine
end

