-- ==== Sys2Proof/Machine/State.lean ====
section
/-! DEFINITION. The state of the part: every record of its ten blocks, the Host Link Interface's stores, the Shop
Clock, and the queue of commands that wait. All of it is plain data. -/

namespace Sys2Proof.Machine

/-- Nothing the part is asked or told stops it: no command faults. The type has no constructor. -/
inductive Fault where
  deriving DecidableEq, Repr

/-- Why a command has no meaning. -/
inductive Refusal where
  /-- raised by `exec` for a command that the model has not reached; safe. No arm raises it. -/
  | notModelled (mnemonic : String)
  deriving DecidableEq, Repr

/-- The state of the Cinjoral 1608. -/
structure State where
  -- Host Link Interface (Chapter 9)
  /-- the frame checker of the inbound host link (R166) -/
  checker : Checker
  /-- arrived requests, oldest first (R168) -/
  inbox : List Request
  /-- replies not yet sent, oldest first (R170) -/
  replies : List HostFrame
  /-- sources that owe a notice, in the order in which they began to (R172) -/
  notices : List Source
  /-- the frame that the outbound link is sending; none while it is idle (R171) -/
  onLink : Option HostFrame
  /-- the start interval runs (R176) -/
  startInterval : Bool
  /-- the part's START event flag (R176) -/
  startFlag : Bool
  /-- the part's Notice owed (R172, R176) -/
  partOwed : Bool
  /-- the start cause of the last start (R176) -/
  startCause : StartCause
  /-- a RESTART has been taken and its reset has not been made (R180) -/
  restarting : Bool
  -- Job Table (Chapter 1)
  jobs : Vector Job 256
  -- Queue Controller (Chapter 2)
  queues : Vector Queue 8
  markLine : MarkLine
  -- Page Store (Chapter 3)
  pages : Vector PageRecord 4096
  /-- free blocks, head first (R50) -/
  freePool : List Nat
  /-- the bytes of the stacked DRAM, byte `1024 × block + offset`, in canonical form -/
  dram : List Host.Cell
  -- Route Table and Press Claim Arbiter (Chapter 4)
  rows : Vector PortSet 64
  rings : Vector Ring 8
  /-- the proposal table (R79) -/
  proposals : Vector (Option Proposal) 8
  passInProgress : Bool
  passOwed : Bool
  -- Press Ports (Chapter 5)
  ports : Vector Port 16
  /-- the model's own: what the ports have put on their press links, oldest first (log entry 7) -/
  pressLog : List (PortId × PressMessage)
  -- Meter Unit and Account Table (Chapters 6 and 7)
  tariffs : Vector TariffPage 8
  accounts : Vector Account 128
  -- Alert Unit (Chapter 8)
  alerts : Vector AlertSlot 32
  /-- the open-alert list, oldest first (R145) -/
  openAlerts : List AlertId
  -- Shop Clock and timer settings (9.7)
  clock : Tick
  timers : TimerSettings
  /-- the model's own: how many free values have been drawn (log entries 11 and 13) -/
  freeCount : Nat
  /-- the commands that wait, first in, first out -/
  pending : List Instr
  deriving DecidableEq, Repr

/-- The part right after power-on: R1, R25, R45, R50, R51, R68, R71, R79, R83, R111, R132, R144, R168, R170, R172,
R176 to R178. No command waits. -/
def State.reset : State where
  checker := .hunt
  inbox := []
  replies := []
  notices := [.part]
  onLink := none
  startInterval := true
  startFlag := true
  partOwed := true
  startCause := .power
  restarting := false
  jobs := Vector.replicate 256 (Job.freeSlot 0)
  queues := Vector.replicate 8 .initial
  markLine := .initial
  pages := Vector.replicate 4096 .freeRecord
  freePool := fullPool
  dram := []
  rows := Vector.replicate 64 0
  rings := Vector.replicate 8 .initial
  proposals := Vector.replicate 8 none
  passInProgress := false
  passOwed := false
  ports := Vector.replicate 16 .initial
  pressLog := []
  tariffs := (Vector.replicate 8 .blank).set 7 .standing
  accounts := (Vector.replicate 128 .initial).set 0 .house
  alerts := Vector.replicate 32 .clear
  openAlerts := []
  clock := 0
  timers := .defaults
  freeCount := 0
  pending := []

end Sys2Proof.Machine
end

