-- ==== Sys2Proof/Machine/Ops.lean ====
section
/-! DEFINITION. The named operations over the state's tables: one update per table, the asks for a dispatch pass,
what is derived from the records (service state, lamps, alarm), and the DRAM's bytes. -/

namespace Sys2Proof.Machine

-- ## One update per table

/-- The job record of slot `j` becomes `f` of itself. -/
def State.updJob (j : SlotId) (f : Job → Job) (s : State) : State :=
  { s with jobs := s.jobs.set j.val (f s.jobs[j]) }

/-- The queue record of queue `q` becomes `f` of itself. -/
def State.updQueue (q : QueueId) (f : Queue → Queue) (s : State) : State :=
  { s with queues := s.queues.set q.val (f s.queues[q]) }

/-- Queue `q`'s ring becomes `f` of itself. -/
def State.updRing (q : QueueId) (f : Ring → Ring) (s : State) : State :=
  { s with rings := s.rings.set q.val (f s.rings[q]) }

/-- Queue `q`'s place in the proposal table becomes `f` of itself. -/
def State.updProposal (q : QueueId) (f : Option Proposal → Option Proposal) (s : State) : State :=
  { s with proposals := s.proposals.set q.val (f s.proposals[q]) }

/-- Page record `r` becomes `f` of itself. -/
def State.updPage (r : RecordId) (f : PageRecord → PageRecord) (s : State) : State :=
  { s with pages := s.pages.set r.val (f s.pages[r]) }

/-- Port `p`'s record becomes `f` of itself. -/
def State.updPort (p : PortId) (f : Port → Port) (s : State) : State :=
  { s with ports := s.ports.set p.val (f s.ports[p]) }

/-- Account `a`'s record becomes `f` of itself. -/
def State.updAccount (a : AccountId) (f : Account → Account) (s : State) : State :=
  { s with accounts := s.accounts.set a.val (f s.accounts[a]) }

/-- Alert slot `a` becomes `f` of itself. -/
def State.updAlert (a : AlertId) (f : AlertSlot → AlertSlot) (s : State) : State :=
  { s with alerts := s.alerts.set a.val (f s.alerts[a]) }

/-- Every record of a table becomes `f` of itself. -/
def mapTable {α : Type} {n : Nat} (f : α → α) (v : Vector α n) : Vector α n :=
  ⟨⟨v.toArray.toList.map f⟩, by simp⟩

/-- Port `p` puts a message on its press link (log entry 7). -/
def State.press (p : PortId) (m : PressMessage) (s : State) : State :=
  { s with pressLog := s.pressLog ++ [(p, m)] }

/-- Port `p` puts messages on its press link, in order. -/
def State.pressAll (p : PortId) (ms : List PressMessage) (s : State) : State :=
  { s with pressLog := s.pressLog ++ ms.map (fun m => (p, m)) }

-- ## Asks for a dispatch pass

/-- A pass is asked for: it begins, or is owed when one is in progress (R79). -/
def State.ask (s : State) : State :=
  if s.passInProgress then { s with passOwed := true } else { s with passInProgress := true }

/-- Queue `q` asks for a pass if it is in RUN (R39). -/
def State.askIfRun (q : QueueId) (s : State) : State :=
  if s.queues[q].mode = .run then s.ask else s

/-- The Account Table's ask: made if any queue is in RUN (R138). -/
def State.askIfAnyRun (s : State) : State :=
  if (List.finRange 8).any (fun q => s.queues[q].mode == .run) then s.ask else s

-- ## What the records give

/-- The service state of a port: the first line of R90 that holds. -/
def State.service (s : State) (p : PortId) : ServiceState :=
  if s.alerts[stopSlot p].isOpen then .stopped
  else if s.ports[p].status ≠ 0 then .offline
  else if s.ports[p].setup.isSome then .setup
  else if s.ports[p].feedOwner.isSome then .feeding
  else if !s.ports[p].inService then .closed
  else .ready

/-- A port is claimable: its link is UP and its service state READY (R74). -/
def State.claimable (s : State) (p : PortId) : Bool :=
  s.ports[p].link == .up && s.service p == .ready

/-- A port that is now claimable makes the arbiter make a pass (R74). -/
def State.askIfClaimable (p : PortId) (s : State) : State :=
  if s.claimable p then s.ask else s

/-- The level that a slot shows on its port's lamp: 0 when CLEAR (R161). -/
def AlertSlot.lampLevel (a : AlertSlot) : Nat := if a.isOpen then a.level else 0

/-- The lamp of port `p`: the highest level among its open slots (R161). -/
def State.lamp (s : State) (p : PortId) : Lamp :=
  let level := max s.alerts[stopSlot p].lampLevel s.alerts[waitSlot p].lampLevel
  if level = 0 then .off else if level = 1 then .steady else if level = 2 then .slow else .fast

/-- A slot drives the shop alarm: OPEN, unacknowledged and at level 3 (R162). -/
def AlertSlot.sounds (a : AlertSlot) : Bool := a.isOpen && !a.acknowledged && a.level == 3

/-- The shop alarm output is asserted (R162). -/
def State.alarm (s : State) : Bool := (List.finRange 32).any (fun a => s.alerts[a].sounds)

/-- The finishing-line mark output is high (R45). -/
def State.markOutput (s : State) : Bool := s.markLine.phase == .high

/-- Port `p`'s window holds an entry of job `j`. -/
def State.holdsEntry (s : State) (p : PortId) (j : SlotId) : Bool :=
  s.ports[p].window.any (fun e => e.job == j)

/-- The port whose window holds entries of job `j`, if any (R76 condition 4). -/
def State.entryPort (s : State) (j : SlotId) : Option PortId :=
  (List.finRange 16).find? (fun p => s.holdsEntry p j)

/-- Job `j` has window entries. -/
def State.hasEntries (s : State) (j : SlotId) : Bool := (s.entryPort j).isSome

/-- An entry is STREAMING or ABORTING: not yet settled by the printer. -/
def SendEntry.unsettled (e : SendEntry) : Bool := e.state != .taken

/-- Job `j` has a STREAMING or ABORTING entry (R9). -/
def State.hasUnsettled (s : State) (j : SlotId) : Bool :=
  (List.finRange 16).any (fun p => s.ports[p].window.any (fun e => e.job == j && e.unsettled))

/-- The job holds a feed or has a window entry: what keeps a queue from being drained (R31, R48). -/
def State.busyJob (s : State) (j : SlotId) : Bool := s.jobs[j].feedPort.isSome || s.hasEntries j

/-- A queue is drained (R31). -/
def State.drained (s : State) (q : QueueId) : Bool := s.queues[q].list.all (fun j => !s.busyJob j)

/-- The cursor stands past the end of the page list (R1). -/
def Job.pastEnd (j : Job) : Bool := j.pages.length < j.cursorPage

/-- The final copy: copy 1 in a proof run, copy Copies otherwise (R6). -/
def Job.finalCopy (j : Job) : Nat := if j.proofRun then 1 else j.copies

/-- The job is sent out: Closed, with its cursor past the end of its final copy (R6). -/
def Job.sentOut (j : Job) : Bool := j.closed && j.pastEnd && j.cursorCopy == j.finalCopy

/-- The job is never-started: Started and Proof run are both no (R27). -/
def Job.neverStarted (j : Job) : Bool := !j.started && !j.proofRun

/-- The sealed page record at a place of a job's list; none at a freed place or past the end. -/
def Job.pageAt (j : Job) (place : Nat) : Option RecordId :=
  if place = 0 then none else (j.pages[place - 1]?).join

/-- The page the cursor stands on: the sendable next page, if any (R6). -/
def Job.nextPage (j : Job) : Option RecordId := j.pageAt j.cursorPage

/-- The account can reserve `f` more faces: unmetered, or within the allowance (R134). -/
def Account.canReserve (a : Account) (f : Nat) : Bool := a.unmetered || a.reserved + f ≤ a.allowance

-- ## The bytes of the DRAM

/-- What a byte of the DRAM reads that nothing has written. The store never reads one for a page (R50); DESIGN
CHOICE, log entry 8. -/
def dramDefault : Byte := 0

/-- One byte of the DRAM. -/
def dramRead : List Host.Cell → Nat → Byte
  | [], _ => dramDefault
  | (a, b) :: rest, k => if a = k then b else dramRead rest k

/-- One byte of the DRAM is written; the list keeps its canonical form. -/
def dramWrite : List Host.Cell → Nat → Byte → List Host.Cell
  | [], k, v => if v = dramDefault then [] else [(k, v)]
  | (a, b) :: rest, k, v =>
    if k < a then (if v = dramDefault then (a, b) :: rest else (k, v) :: (a, b) :: rest)
    else if k = a then (if v = dramDefault then rest else (k, v) :: rest)
    else (a, b) :: dramWrite rest k v

/-- Every address of the list is above `k`, in rising order, and no listed byte is what an unlisted one reads as. -/
def dramAbove : Nat → List Host.Cell → Bool
  | _, [] => true
  | k, (a, b) :: rest => k < a + 1 && b != dramDefault && dramAbove (a + 1) rest

/-- The canonical form of the DRAM: addresses strictly rising, no listed default. -/
def dramWf (m : List Host.Cell) : Bool := dramAbove 0 m

/-- The DRAM address of byte `k` of a page whose chain is `chain` (R51, R61). -/
def byteAddress (chain : List Nat) (k : Nat) : Nat :=
  chain.getD (k / Config.blockBytes) 0 * Config.blockBytes + k % Config.blockBytes

/-- Bytes are written into a page's blocks from byte `k` of the page on (R55). -/
def writePage (chain : List Nat) : Nat → List Byte → List Host.Cell → List Host.Cell
  | _, [], m => m
  | k, b :: rest, m => writePage chain (k + 1) rest (dramWrite m (byteAddress chain k) b)

/-- A page's bytes, in the order the host sent them (R61). -/
def readPage (chain : List Nat) (length : Nat) (m : List Host.Cell) : List Byte :=
  (List.range length).map (fun k => dramRead m (byteAddress chain k))

/-- The blocks that a length needs: the length divided by 1,024, rounded up (R51). -/
def blocksFor (length : Nat) : Nat := (length + (Config.blockBytes - 1)) / Config.blockBytes

end Sys2Proof.Machine
end

