-- ==== Sys2Proof/Machine/Flags.lean ====
section
/-! DEFINITION. Event flags and the notices they owe (R22, R109, R163, R172), and the counts, meters and charge
accumulators with their limits (R10, R121, R124, R125). -/

namespace Sys2Proof.Machine

-- ## Event flags and owed notices

/-- A source joins the tail of the notice queue (R172). -/
def State.joinNotices (src : Source) (s : State) : State := { s with notices := s.notices ++ [src] }

/-- A job event flag is set; a job whose Notice owed is no joins the notice queue (R22). -/
def State.flagJob (j : SlotId) (f : JobFlag) (s : State) : State :=
  let s1 := s.updJob j (fun r => { r with flags := addBit r.flags f.bit, noticeOwed := true })
  if s.jobs[j].noticeOwed then s1 else s1.joinNotices (.job j)

/-- A port event flag is set; a port whose Notice owed is no joins the notice queue (R109). -/
def State.flagPort (p : PortId) (f : PortFlag) (s : State) : State :=
  let s1 := s.updPort p (fun r => { r with flags := addBit r.flags f.bit, noticeOwed := true })
  if s.ports[p].noticeOwed then s1 else s1.joinNotices (.port p)

/-- An alert event flag is set; a slot whose Notice owed is no joins the notice queue (R163). -/
def State.flagAlert (a : AlertId) (f : AlertFlag) (s : State) : State :=
  let s1 := s.updAlert a (fun r => { r with flags := addBit r.flags f.bit, noticeOwed := true })
  if s.alerts[a].noticeOwed then s1 else s1.joinNotices (.alert a)

-- ## Limits

/-- A 24-bit count that stops at its limit (R125). -/
def countTo (n k : Nat) : Nat := min (n + k) Config.maxCount

/-- A one-byte count that stops at 255 (R1, R144). -/
def byteCount (n : Nat) : Nat := min (n + 1) 255

/-- A charge accumulator takes a net charge and stops at its top (R121). -/
def accumulate (total net : Nat) : Nat := min (total + net) Config.maxCharge

/-- The addition saturates the accumulator: it stands at its top afterwards (R121). -/
def saturates (total net : Nat) : Bool := accumulate total net == Config.maxCharge

/-- A meter takes a count; the carry out of the ninth digit is dropped (R124). -/
def meterAdd (m k : Nat) : Nat := (m + k) % Config.meterModulus

/-- A meter set counts the faces of a taken page (R107). -/
def MeterSet.countTaken (faces : Nat) (m : MeterSet) : MeterSet := { m with taken := meterAdd m.taken faces }

/-- A meter set counts a sheet of a colour class (R107). -/
def MeterSet.countSheet (colour : Colour) (faces : Nat) (m : MeterSet) : MeterSet :=
  match colour with
  | .mono => { m with sheets := meterAdd m.sheets 1, mono := meterAdd m.mono faces }
  | .spot => { m with sheets := meterAdd m.sheets 1, spot := meterAdd m.spot faces }
  | .full => { m with sheets := meterAdd m.sheets 1, full := meterAdd m.full faces }

/-- A meter set counts the faces of a spoiled page (R107). -/
def MeterSet.countSpoiled (faces : Nat) (m : MeterSet) : MeterSet :=
  { m with spoiled := meterAdd m.spoiled faces }

/-- Both sets of a port's meters count together (R107). -/
def Port.count (f : MeterSet → MeterSet) (r : Port) : Port :=
  { r with lifetime := f r.lifetime, period := f r.period }

end Sys2Proof.Machine
end

