-- ==== Sys2Proof/Machine/Operands.lean ====
section
/-! DEFINITION. The operand fields of request bodies and of printer messages (11.2, 11.3, 11.6), and the encoding
checks that the HLI makes at step 2 of R169 (R182): the body's size, the bits marked 0, and the yes/no bytes. -/

namespace Sys2Proof.Machine

/-- The job slot of a handle's first byte: every value names a slot (R2). -/
def slotOf (b : Byte) : SlotId := ⟨b.toNat, b.isLt⟩

/-- A queue number 0–7. -/
def queueOf (b : Byte) : Option QueueId := if h : b.toNat < 8 then some ⟨b.toNat, h⟩ else none

/-- A port number 0–15. -/
def portOf (b : Byte) : Option PortId := if h : b.toNat < 16 then some ⟨b.toNat, h⟩ else none

/-- A row number 0–63. -/
def rowOf (b : Byte) : Option (Fin 64) := if h : b.toNat < 64 then some ⟨b.toNat, h⟩ else none

/-- An account number 0–127. -/
def accountOf (b : Byte) : Option AccountId := if h : b.toNat < 128 then some ⟨b.toNat, h⟩ else none

/-- An alert slot number 0–31. -/
def alertOf (b : Byte) : Option AlertId := if h : b.toNat < 32 then some ⟨b.toNat, h⟩ else none

/-- A media class 0–7. -/
def mediaOf (b : Byte) : Option Media := if h : b.toNat < 8 then some ⟨b.toNat, h⟩ else none

/-- A tariff page number or tariff group 0–7. -/
def groupOf (b : Byte) : Option (Fin 8) := if h : b.toNat < 8 then some ⟨b.toNat, h⟩ else none

/-- No bit from bit `n` on is set in the byte (R182). -/
def zeroFrom (n : Nat) (b : Byte) : Bool := b >>> n == 0

/-- A yes/no byte holds 0 or 1 (R182). -/
def isYesNo (b : Byte) : Bool := b.toNat ≤ 1

/-- The mark set of the two bytes at `i`. -/
def marksAt (body : List Byte) (i : Nat) : MarkSet := BitVec.ofNat 9 (wordAt body i)

/-- Bits 9–15 of the mark set at `i` are 0 (11.2, R182). -/
def marksOk (body : List Byte) (i : Nat) : Bool := zeroFrom 1 (byteAt body i)

/-- The member of a MARK sender: 0–7 for Q0–Q7, 8 for EXT (11.4). -/
def senderOf (b : Byte) : Option Nat := if b.toNat ≤ 8 then some b.toNat else none

/-- A page attribute byte that step 5 of R53 accepts: bits 6–7 are 0 and the colour is 0, 1 or 2. -/
def attrOk (b : Byte) : Bool := zeroFrom 6 b && (Colour.ofCode (b.toNat / 16)).isSome

/-- The media class of a page attribute byte: bits 0–2 (11.2). -/
def attrMedia (b : Byte) : Media := ⟨b.toNat % 8, by omega⟩

/-- The sides of a page attribute byte: bit 3 (11.2). -/
def attrSides (b : Byte) : Nat := if b.getLsbD 3 then 2 else 1

/-- The colour class of a page attribute byte: bits 4–5 (11.2). -/
def attrColour (b : Byte) : Colour := (Colour.ofCode (b.toNat / 16 % 4)).getD .mono

/-- The page attribute byte of a page record (11.2). -/
def PageRecord.attr (r : PageRecord) : Byte :=
  BitVec.ofNat 8 (r.media.val + (if r.sides = 2 then 8 else 0) + 16 * r.colour.code)

/-- A tariff item: a rate entry by its key, or a surcharge by its code (R112). -/
inductive TariffItem where
  | rate (key : Fin 24)
  | surcharge (index : Fin 3)
  deriving DecidableEq, Repr

/-- The key of a rate entry: media class and colour class (R111). -/
def rateKey (media : Media) (colour : Colour) : Fin 24 :=
  ⟨3 * media.val + colour.code, by cases colour <;> simp [Colour.code] <;> omega⟩

/-- The three bytes of a tariff item: type 0 and a key, or type 1 and a code 1–3 (11.3); none outside step 1 of
R112. -/
def itemOf (type a b : Byte) : Option TariffItem :=
  if type = 0 then
    match mediaOf a, Colour.ofCode b.toNat with
    | some m, some c => some (.rate (rateKey m c))
    | _, _ => none
  else if type = 1 then
    if h : 1 ≤ a.toNat ∧ a.toNat ≤ 3 then some (.surcharge ⟨a.toNat - 1, by omega⟩) else none
  else none

/-- The four bytes of a body at `i`. -/
def fourAt (body : List Byte) (i : Nat) : List Byte := (body.drop i).take 4

/-- A rate or amount: all nibbles are digits and the first is 0 (R112 step 2). -/
def amountOk (bs : List Byte) : Bool := bs.all digitsOk && (bs.headD 0).toNat < 16

/-- A body of exactly `n` bytes (11.3). -/
def sized (n : Nat) (body : List Byte) : Bool := body.length == n

/-- ADMIT: 9 bytes; options bits 3–7 and the sets' bits 9–15 are 0. -/
def admitOk (body : List Byte) : Bool :=
  sized 9 body && zeroFrom 3 (byteAt body 2) && marksOk body 5 && marksOk body 7

/-- PAGE_DATA: 4 bytes or more; flags bits 2–7 are 0. -/
def pageDataOk (body : List Byte) : Bool := 4 ≤ body.length && zeroFrom 2 (byteAt body 2)

/-- QUEUE_OPTIONS: 2 bytes; options bits 2–7 are 0. -/
def queueOptionsOk (body : List Byte) : Bool := sized 2 body && zeroFrom 2 (byteAt body 1)

/-- PORT_SERVICE: 3 bytes; the hold flag is yes/no. -/
def portServiceOk (body : List Byte) : Bool := sized 3 body && isYesNo (byteAt body 2)

/-- PORT_METERS: 2 bytes; the close flag is yes/no. -/
def portMetersOk (body : List Byte) : Bool := sized 2 body && isYesNo (byteAt body 1)

/-- TARIFF_WRITE: 13 bytes; BLANK is yes/no. -/
def tariffWriteOk (body : List Byte) : Bool := sized 13 body && isYesNo (byteAt body 4)

/-- ACCOUNT_SET: 8 bytes; flags bits 2–7 are 0. -/
def accountSetOk (body : List Byte) : Bool := sized 8 body && zeroFrom 2 (byteAt body 1)

end Sys2Proof.Machine
end

