-- ==== Sys2Proof/Machine/Charge.lean ====
section
/-! DEFINITION. The charge computer (R114 to R123): lookups with their fallback to the standing page, the gross, the
discount and the net of a sheet, and the accumulators that take it. -/

namespace Sys2Proof.Machine

/-- The standing page, page 7 (R111). -/
def standingPage : Fin 8 := 7

/-- A rate lookup: the group's entry, or where that is BLANK the standing page's (R114). -/
def State.lookupRate (s : State) (group : Fin 8) (key : Fin 24) : RatePair :=
  match s.tariffs[group].rates[key] with
  | some r => r
  | none => (s.tariffs[standingPage].rates[key]).getD { front := 0, back := 0 }

/-- A surcharge lookup, with its own fallback (R115). -/
def State.lookupSurcharge (s : State) (group : Fin 8) (k : Fin 3) : Nat :=
  match s.tariffs[group].surcharges[k] with
  | some n => n
  | none => (s.tariffs[standingPage].surcharges[k]).getD 0

/-- An entry's sheet ends a copy set: the job is Closed and the page is the last place of its list (R10 step 3). -/
def Job.endsCopySet (j : Job) (place : Nat) : Bool := j.closed && place == j.pages.length

/-- The surcharge S of a sheet: looked up when the finishing code is 1 to 3 and the sheet ends a copy set, 0
otherwise (R118). -/
def State.surchargeOf (s : State) (group : Fin 8) (finishing : Nat) (endsSet : Bool) : Nat :=
  if h : endsSet = true ∧ 1 ≤ finishing ∧ finishing ≤ 3 then s.lookupSurcharge group ⟨finishing - 1, by omega⟩
  else 0

/-- The gross charge of a sheet: front, the back too when duplex, and the surcharge (R119). -/
def grossCharge (r : RatePair) (sides surcharge : Nat) : Nat :=
  r.front + (if sides = 2 then r.back else 0) + surcharge

/-- The discount of a sheet: the nearest whole mill, an exact half up (R120). -/
def discountOf (gross d : Nat) : Nat := (gross * d + 500) / 1000

/-- The net charge of a sheet (R120). -/
def netCharge (gross d : Nat) : Nat := gross - discountOf gross d

/-- The media class of an entry's page (R117); a freed place reads as a FREE record's media. -/
def State.entryMedia (s : State) (e : SendEntry) : Media :=
  match s.jobs[e.job].pageAt e.place with
  | some r => s.pages[r].media
  | none => PageRecord.freeRecord.media

/-- The net charge of an entry's sheet from the inputs at the start of the sheet event (R117 to R120). -/
def State.sheetNet (s : State) (e : SendEntry) : Nat :=
  let job := s.jobs[e.job]
  let account := s.accounts[job.account]
  let rates := s.lookupRate account.group (rateKey (s.entryMedia e) e.colour)
  let surcharge := s.surchargeOf account.group job.finishing (job.endsCopySet e.place)
  netCharge (grossCharge rates e.faces surcharge) account.discount

/-- A job's Charge takes a net (R122). -/
def Job.addCharge (net : Nat) (j : Job) : Job :=
  { j with charge := accumulate j.charge net, saturated := j.saturated || saturates j.charge net }

/-- An account's period takes a sheet of `faces` faces and this net (R123, R125). -/
def Account.addSheet (net faces : Nat) (a : Account) : Account :=
  { a with
    periodCharge := accumulate a.periodCharge net
    saturated := a.saturated || saturates a.periodCharge net
    periodFaces := countTo a.periodFaces faces }

/-- The reservation of a sheet's faces is converted into use; an unmetered account keeps its allowance (R136). -/
def Account.convert (faces : Nat) (a : Account) : Account :=
  { a with
    reserved := a.reserved - faces
    allowance := if a.unmetered then a.allowance else a.allowance - faces }

/-- Faces are reserved (R134). -/
def Account.reserve (faces : Nat) (a : Account) : Account := { a with reserved := a.reserved + faces }

/-- Faces reserved for an entry that leaves without a sheet are released (R137). -/
def Account.release (faces : Nat) (a : Account) : Account := { a with reserved := a.reserved - faces }

end Sys2Proof.Machine
end

