-- ==== Sys2Proof/Machine/Layout.lean ====
section
/-! DEFINITION. The bodies of replies and notices, byte by byte (11.2 to 11.5). -/

namespace Sys2Proof.Machine

/-- A one-byte binary field. -/
def u8 (n : Nat) : Byte := BitVec.ofNat 8 n

/-- A tick field (11.2). -/
def tickBytes (t : Tick) : List Byte := beBytes 4 t.toNat

/-- An optional port field: 0xFF when absent (11.2). -/
def optPortByte : Option PortId → Byte
  | none => 0xFF
  | some p => u8 p.val

/-- A charge field: 12 packed digits (11.2). -/
def chargeBytes (n : Nat) : List Byte := bcdBytes 6 n

/-- A meter field: 10 packed digits (11.2). -/
def meterBytes (n : Nat) : List Byte := bcdBytes 5 n

/-- A rate or amount field: 8 packed digits (11.2). -/
def amountBytes (n : Nat) : List Byte := bcdBytes 4 n

/-- A set of flags packed from bit 0 on (11.5). -/
def bitsByte (bs : List Bool) : Byte := bs.foldr (fun b acc => acc * 2 + (if b then 1 else 0)) 0

/-- The 35 bytes of a job notice, with this refuse reason (11.5). -/
def State.jobNotice (s : State) (j : SlotId) (refuseReason : Byte) : List Byte :=
  let r := s.jobs[j]
  [u8 j.val, r.generation] ++ beBytes 2 r.flags.toNat
    ++ [u8 r.state.code, u8 (WaitReason.code r.reason), u8 r.queue.val, u8 r.cursorCopy]
    ++ beBytes 2 r.cursorPage
    ++ [optPortByte r.feedPort, optPortByte (r.exclusion.map (·.port))]
    ++ tickBytes ((r.exclusion.map (·.tick)).getD 0)
    ++ beBytes 3 r.sheets ++ beBytes 3 r.faces ++ beBytes 3 r.proofFaces
    ++ [u8 r.copiesDone, u8 r.proofsDone] ++ chargeBytes r.charge ++ [yesNo r.saturated, refuseReason]

/-- The 55 bytes of a QUERY_JOB reply (11.5, R21). -/
def State.jobReply (s : State) (j : SlotId) : List Byte :=
  let r := s.jobs[j]
  s.jobNotice j r.refuseReason
    ++ [u8 r.account.val, bitsByte [r.stream, r.rush, r.double], u8 r.copies, u8 r.finishing]
    ++ beBytes 2 r.waitSet.toNat ++ beBytes 2 r.giveSet.toNat
    ++ [bitsByte [r.closed, r.started, r.proofRun]] ++ beBytes 2 r.pages.length
    ++ [yesNo r.filling.isSome, r.needsMedia, bitsByte [r.needsColour, r.needsDuplex]]
    ++ beBytes 2 r.portsUsed.toNat ++ tickBytes r.admitted

/-- The 15 + 2n bytes of an alert slot, with this event flags byte (11.5). -/
def State.alertBytes (s : State) (a : AlertId) (flags : Byte) : List Byte :=
  let r := s.alerts[a]
  [u8 a.val, flags, yesNo r.isOpen, u8 (AlertKind.code r.primary), r.additional.setWidth 8,
    r.standing.setWidth 8, r.location] ++ tickBytes r.raised
    ++ [u8 r.level, bitsByte [r.acknowledged, r.attendant, r.hostReleased], u8 r.repeats, u8 r.affected.length]
    ++ r.affected.flatMap (fun h => [u8 h.slot.val, h.generation])

/-- The class code, capability, media set and W bytes of an Ident: 0 when absent (11.5). -/
def identBytes : Option Ident → List Byte
  | none => [0, 0, 0, 0]
  | some i => [i.classCode, bitsByte [i.colour, i.duplex, i.fastCapable], i.media, u8 i.depth]

/-- The 13 bytes of a port notice (11.5). -/
def State.portNotice (s : State) (p : PortId) : List Byte :=
  let r := s.ports[p]
  [u8 p.val, r.flags.setWidth 8, u8 r.link.code, u8 (DownCause.code r.downCause), u8 r.rate.code, u8 r.depth,
    yesNo r.ident.isSome] ++ identBytes r.ident ++ [u8 (s.service p).code, u8 r.loaded.val]

/-- The five timer settings in the layout of offsets 22 to 30 of the START notice (11.5). -/
def TimerSettings.bytes (t : TimerSettings) : List Byte :=
  u8 t.starve :: (beBytes 2 t.setupStall ++ beBytes 2 t.escalation1 ++ beBytes 2 t.escalation2
    ++ beBytes 2 t.reroute)

/-- The 31 bytes of the START notice (11.5, R176). -/
def State.startNotice (s : State) : List Byte :=
  u8 s.startCause.code :: (beBytes 2 Config.revision ++ tickBytes s.clock ++ [16, 8] ++ beBytes 2 256
    ++ beBytes 2 4096 ++ beBytes 4 65536 ++ [64, 128, 32, 16, 16] ++ s.timers.bytes)

/-- The 20 bytes of an account record (11.5). -/
def Account.bytes (a : Account) : List Byte :=
  [bitsByte [a.enabled, a.unmetered], u8 a.group.val] ++ beBytes 2 a.discount ++ beBytes 3 a.allowance
    ++ beBytes 3 a.reserved ++ beBytes 3 a.periodFaces ++ chargeBytes a.periodCharge ++ [yesNo a.saturated]

/-- The four bytes of a ring: S, E, C, pinned (11.5). -/
def Ring.bytes (r : Ring) : List Byte := [u8 r.first, u8 r.last, u8 r.current, yesNo r.pinned]

/-- The 13 + 4n bytes of a QUERY_QUEUE reply (11.5, R48). -/
def State.queueReply (s : State) (q : QueueId) : List Byte :=
  let r := s.queues[q]
  [u8 r.mode.code, u8 r.dispatch.code, bitsByte [r.rotate, r.reroute]] ++ beBytes 2 r.received.toNat
    ++ beBytes 2 r.list.length ++ beBytes 2 (r.list.filter (fun j => s.busyJob j)).length ++ s.rings[q].bytes
    ++ r.list.flatMap (fun j => [u8 j.val, s.jobs[j].generation, u8 s.jobs[j].state.code,
        u8 (WaitReason.code s.jobs[j].reason)])

/-- A meter set: taken, sheets, MONO, SPOT, FULL, spoiled, 5 bytes each (11.5). -/
def MeterSet.bytes (m : MeterSet) : List Byte :=
  meterBytes m.taken ++ meterBytes m.sheets ++ meterBytes m.mono ++ meterBytes m.spot ++ meterBytes m.full
    ++ meterBytes m.spoiled

/-- A running mark and an expiry tick, 0 when stopped (11.5). -/
def timerBytes : Option Tick → List Byte
  | none => 0 :: tickBytes 0
  | some t => 1 :: tickBytes t

/-- The 11 bytes of a send entry (11.5). -/
def State.entryBytes (s : State) (e : SendEntry) : List Byte :=
  beBytes 2 e.serial.toNat ++ [u8 e.job.val, s.jobs[e.job].generation] ++ beBytes 2 e.place
    ++ [u8 e.copy, u8 e.faces, u8 e.colour.code, u8 e.state.code, yesNo e.ended]

/-- The bytes of a QUERY_PORT reply (11.5, R109), at the listed offsets: 31 + 11n of them, though the heading counts
41 + 11n (log entry 16). -/
def State.portReply (s : State) (p : PortId) : List Byte :=
  let r := s.ports[p]
  [u8 r.link.code, u8 (DownCause.code r.downCause), u8 r.rate.code, u8 r.depth, yesNo r.ident.isSome]
    ++ identBytes r.ident
    ++ [bitsByte [r.inService, r.holdAsked, r.releaseOwed], u8 (s.service p).code, r.status.setWidth 8,
        u8 r.loaded.val, yesNo r.feedOwner.isSome]
    ++ (match r.feedOwner with | none => [0, 0] | some j => [u8 j.val, s.jobs[j].generation])
    ++ [(match r.setup with | none => 0xFF | some m => u8 m.val), yesNo r.stallReported]
    ++ beBytes 2 r.nextSerial.toNat ++ [u8 r.window.length] ++ r.window.flatMap s.entryBytes
    ++ timerBytes r.starveTimer ++ timerBytes r.setupTimer

/-- The page records in a state. -/
def State.recordsIn (s : State) (st : PageState) : List PageRecord :=
  s.pages.toArray.toList.filter (fun r => r.state == st)

/-- The blocks chained to a list of records. -/
def chainedBlocks (rs : List PageRecord) : Nat := (rs.map (fun r => r.chain.length)).sum

/-- The 18 bytes of a QUERY_STORE reply (11.5, R66). -/
def State.storeReply (s : State) : List Byte :=
  beBytes 4 s.freePool.length ++ beBytes 2 (s.recordsIn .free).length ++ beBytes 2 (s.recordsIn .filling).length
    ++ beBytes 2 (s.recordsIn .sealed).length ++ beBytes 4 (chainedBlocks (s.recordsIn .filling))
    ++ beBytes 4 (chainedBlocks (s.recordsIn .sealed))

/-- The FREE job slots (R179). -/
def State.freeSlots (s : State) : Nat := (s.jobs.toArray.toList.filter (fun r => r.state == .free)).length

/-- The 22 bytes of a QUERY_PART reply; the inbox and the reply queue stand as they are without the request and
without its reply (11.5, R179). -/
def State.partReply (s : State) : List Byte :=
  beBytes 2 Config.revision ++ [u8 s.startCause.code] ++ tickBytes s.clock ++ s.timers.bytes
    ++ beBytes 2 s.freeSlots ++ beBytes 2 s.notices.length ++ [u8 s.inbox.length, u8 s.replies.length]

/-- The 9 bytes of a tariff item's value (11.5): BLANK, first value, second value. -/
def rateBytes : Option RatePair → List Byte
  | none => 1 :: (amountBytes 0 ++ amountBytes 0)
  | some r => 0 :: (amountBytes r.front ++ amountBytes r.back)

/-- The 9 bytes of a surcharge's value (11.5): the second value is 0. -/
def surchargeBytes : Option Nat → List Byte
  | none => 1 :: (amountBytes 0 ++ amountBytes 0)
  | some n => 0 :: (amountBytes n ++ amountBytes 0)

end Sys2Proof.Machine
end

