-- ==== Sys2Proof/Machine/Store.lean ====
section
/-! DEFINITION. The Page Store's operations (Chapter 3): records and blocks taken and freed, data appended, pages
sealed, and the bytes read out for a send. -/

namespace Sys2Proof.Machine

/-- The lowest-numbered FREE page record (R51). -/
def State.lowestFreeRecord (s : State) : Option RecordId :=
  (List.finRange 4096).find? (fun r => s.pages[r].state == .free)

/-- A record becomes FREE; its blocks join the tail of the free pool in chain order (R50, R51). -/
def State.freePage (r : RecordId) (s : State) : State :=
  { s.updPage r (fun _ => .freeRecord) with freePool := s.freePool ++ s.pages[r].chain }

/-- The page at a place of job `j`'s list is freed, and the place becomes a freed place (R62). -/
def State.freePlace (j : SlotId) (place : Nat) (s : State) : State :=
  match s.jobs[j].pageAt place with
  | none => s
  | some r => (s.freePage r).updJob j (fun x => { x with pages := x.pages.set (place - 1) none })

/-- Every page that job `j` still holds is freed: sealed pages in place order, then the filling page (R65). -/
def State.freeJobPages (j : SlotId) (s : State) : State :=
  (s.jobs[j].pages.filterMap id ++ s.jobs[j].filling.toList).foldl (fun t r => t.freePage r) s

/-- A page is begun for job `j` in record `r` with the attributes of the frame (R54). -/
def State.beginPage (j : SlotId) (r : RecordId) (attr : Byte) (s : State) : State :=
  (s.updPage r (fun _ => { PageRecord.freeRecord with
      state := .filling, owner := some j, media := attrMedia attr, sides := attrSides attr,
      colour := attrColour attr })).updJob j (fun x => { x with filling := some r })

/-- Data are appended to a filling record: the unused bytes of its last block first, then new blocks from the head of
the free pool (R55). -/
def State.appendData (r : RecordId) (data : List Byte) (s : State) : State :=
  let old := s.pages[r]
  let more := blocksFor (old.length + data.length) - old.chain.length
  let chain := old.chain ++ s.freePool.take more
  { s.updPage r (fun x => { x with length := x.length + data.length, chain := chain }) with
    freePool := s.freePool.drop more
    dram := writePage chain old.length data s.dram }

/-- A sealed page's attributes are folded into its job's Needs (R58). -/
def Job.foldNeeds (page : PageRecord) (x : Job) : Job :=
  { x with
    needsMedia := addBit x.needsMedia page.media.val
    needsColour := x.needsColour || page.colour != .mono
    needsDuplex := x.needsDuplex || page.sides == 2 }

/-- The filling record `r` of job `j` is sealed and joins the page list as its last place (R56 steps 1 to 3). -/
def State.sealPage (j : SlotId) (r : RecordId) (s : State) : State :=
  (s.updPage r (fun x => { x with state := .sealed, place := some (s.jobs[j].pages.length + 1) })).updJob j
    (fun x => Job.foldNeeds s.pages[r] { x with pages := x.pages ++ [some r], filling := none })

/-- A page's bytes as an offer reads them (R61). -/
def State.readOut (s : State) (r : RecordId) : List Byte :=
  readPage s.pages[r].chain s.pages[r].length s.dram

/-- The page-data messages of a page: 1,024 bytes each and a last one holding what remains (R183). -/
def pageDataMessages (serial : Serial) (bytes : List Byte) : List PressMessage :=
  (List.range (blocksFor bytes.length)).map
    (fun i => .pageData serial ((bytes.drop (i * Config.blockBytes)).take Config.blockBytes))

end Sys2Proof.Machine
end

