-- ==== Sys2Proof/Machine/HostLink.lean ====
section
/-! DEFINITION. The Host Link Interface (Chapter 9): the taking of a request and its one reply, frames received, frame
boundaries, notices composed, and the retirement of a slot. -/

namespace Sys2Proof.Machine

-- ## Taking a request

/-- How a request is judged at step 3 of R169: refused with a code, or carried out with a state, a code and the fields
of its reply. -/
inductive Judged where
  | refused (code : ResultCode)
  | done (state : State) (code : ResultCode) (fields : List Byte)

/-- A reply joins the tail of the reply queue (R170). -/
def State.placeReply (f : HostFrame) (s : State) : State := { s with replies := s.replies ++ [f] }

/-- A reply: the request's kind and tag, the result code, and the fields (11.2). -/
def replyFrame (kind tag : Byte) (code : ResultCode) (fields : List Byte) : HostFrame where
  kind := kind
  tag := tag
  body := code.code :: fields

/-- The HLI takes this request now: it is the oldest in the inbox, a reply place is free (R169), and no RESTART has been
taken (R180). -/
def State.takes (s : State) (kind tag : Byte) (body : List Byte) : Bool :=
  !s.restarting && s.replies.length < Config.replyPlaces
    && s.inbox.head? == some { kind := kind, tag := tag, body := body }

/-- The taken request leaves the inbox (R169). -/
def State.popInbox (s : State) : State := { s with inbox := s.inbox.tail }

/-- The taking of a request of a kind of the catalogue (R169): step 2's size and encoding check, then the owner's rule,
and one reply. A request that the HLI does not take now changes nothing (log entry 1). -/
def State.request (kind tag : Byte) (body : List Byte) (encoded : Bool) (judge : State → Judged) (s : State) :
    State :=
  if s.takes kind tag body then
    if encoded then
      match judge s.popInbox with
      | .refused c => s.popInbox.placeReply (replyFrame kind tag c [])
      | .done t c fields => t.placeReply (replyFrame kind tag c fields)
    else s.popInbox.placeReply (replyFrame kind tag .range [])
  else s

/-- A request carried out with the reply OK and these fields. -/
def ok (s : State) (fields : List Byte) : Judged := .done s .ok fields

/-- The two handle checks of R2: STALE for another generation, RANGE for a slot that is FREE. -/
def State.handleRefusal (s : State) (slot generation : Byte) : Option ResultCode :=
  if generation ≠ s.jobs[slotOf slot].generation then some .stale
  else if s.jobs[slotOf slot].state = .free then some .range
  else none

/-- A request that names its job by the handle at the start of its body (R2). -/
def State.withHandle (s : State) (body : List Byte) (f : SlotId → Judged) : Judged :=
  match s.handleRefusal (byteAt body 0) (byteAt body 1) with
  | some c => .refused c
  | none => f (slotOf (byteAt body 0))

/-- A request whose field is outside its range is refused RANGE. -/
def orRange {α : Type} (x : Option α) (f : α → Judged) : Judged :=
  match x with
  | none => .refused .range
  | some a => f a

-- ## Frames received

/-- A FRAME or BUSY reply: made if the reply queue has a free place (R167, R168). -/
def State.placeIfRoom (f : HostFrame) (s : State) : State :=
  if s.replies.length < Config.replyPlaces then s.placeReply f else s

/-- A frame has arrived outside the start interval (R168). -/
def State.arrive (kind tag : Byte) (body : List Byte) (s : State) : State :=
  if s.inbox.length < Config.inboxPlaces then
    { s with inbox := s.inbox ++ [{ kind := kind, tag := tag, body := body }] }
  else s.placeIfRoom (replyFrame kind tag .busy [])

/-- What the frame checker finds is acted on; in the start interval and after a RESTART has been taken nothing is
(R166, R168, R176, R180). -/
def State.checkerEvent (e : CheckerEvent) (s : State) : State :=
  if s.startInterval || s.restarting then s
  else match e with
    | .impossibleLength | .badCheck => s.placeIfRoom (replyFrame 0 0 .frame [])
    | .arrived content => s.arrive (byteAt content 0) (byteAt content 1) (content.drop 2)

/-- The frame checker reads one byte of the host link (R166). -/
def State.hostByte (b : Byte) (s : State) : State :=
  let r := s.checker.read hostShape b
  let t := { s with checker := r.1 }
  match r.2 with
  | none => t
  | some e => t.checkerEvent e

/-- The frame checker reads bytes in the order in which they come (R166). -/
def State.hostBytes (bytes : List Byte) (s : State) : State := bytes.foldl (fun t b => t.hostByte b) s

-- ## Frame boundaries

/-- A slot retires (R23): its pages are freed (R65), it leaves its queue's list, and it is FREE with its generation one
higher. -/
def State.retire (j : SlotId) (s : State) : State :=
  let s1 := s.freeJobPages j
  let s2 := s1.updQueue s.jobs[j].queue (fun q => { q with list := q.list.filter (fun k => k != j) })
  s2.updJob j (fun x => Job.freeSlot (x.generation + 1))

/-- The flags carry DONE or CANCELLED: the notice retires its slot (R23). -/
def retires (flags : BitVec 9) : Bool := hasBit flags JobFlag.done.bit || hasBit flags JobFlag.cancelled.bit

/-- A job notice is composed: flags cleared, nothing owed, and the refuse reason back to 0 if ERROR was carried
(R22, R173, R174). -/
def Job.reported (x : Job) : Job :=
  { x with
    flags := 0
    noticeOwed := false
    refuseReason := if hasBit x.flags JobFlag.error.bit then 0 else x.refuseReason }

/-- The refuse reason that a job notice carries: 0 without ERROR (R174). -/
def Job.noticeReason (x : Job) : Byte := if hasBit x.flags JobFlag.error.bit then x.refuseReason else 0

/-- The notice of a source as it stands (R173 to R176). -/
def State.notice (s : State) (src : Source) : HostFrame :=
  match src with
  | .job j => { kind := 0xF0, tag := 0, body := s.jobNotice j s.jobs[j].noticeReason }
  | .alert a => { kind := 0xF1, tag := 0, body := s.alertBytes a (s.alerts[a].flags.setWidth 8) }
  | .port p => { kind := 0xF2, tag := 0, body := s.portNotice p }
  | .part => { kind := 0xF3, tag := 0, body := s.startNotice }

/-- What composing a source's notice does to the source: its flags are cleared and it owes nothing; a job notice with
DONE or CANCELLED retires the slot (R173). -/
def State.reported (src : Source) (s : State) : State :=
  match src with
  | .job j =>
    if retires s.jobs[j].flags then (s.updJob j Job.reported).retire j else s.updJob j Job.reported
  | .alert a => s.updAlert a (fun x => { x with flags := 0, noticeOwed := false })
  | .port p => s.updPort p (fun x => { x with flags := 0, noticeOwed := false })
  | .part => { s with startFlag := false, partOwed := false }

/-- The outbound arbiter's choice at a frame boundary (R171). -/
def State.boundary (s : State) : State :=
  match s.replies with
  | f :: rest => { s with replies := rest, onLink := some f }
  | [] =>
    if s.restarting then { s with onLink := none }
    else match s.notices with
      | [] => { s with onLink := none }
      | src :: rest => State.reported src { s with notices := rest, onLink := some (s.notice src) }

/-- The START notice is on the link in the start interval. Its end is START_INTERVAL_END (R176). -/
def State.startOnLink (s : State) : Bool :=
  s.startInterval && (match s.onLink with | none => false | some f => f.kind == 0xF3)

/-- The RESTART's reply is on the link, the last one of the queue. Its end is RESTART_RESET (R180). -/
def State.restartOnLink (s : State) : Bool := s.restarting && s.replies.isEmpty && s.onLink.isSome

/-- HOST_FRAME_RECEIVED: bytes come in on the host link (R166 to R168). -/
def execHostFrameReceived (bytes : List Byte) (s : State) : Host.Outcome State Fault Refusal :=
  .next (s.hostBytes bytes)

/-- FRAME_BOUNDARY (R171). The boundaries at which START_INTERVAL_END or RESTART_RESET is due are theirs, and here
nothing happens (log entry 1). -/
def execFrameBoundary (s : State) : Host.Outcome State Fault Refusal :=
  .next (if s.startOnLink || s.restartOnLink then s else s.boundary)

/-- START_INTERVAL_END: the last byte of the START notice has been sent (R176). -/
def execStartIntervalEnd (s : State) : Host.Outcome State Fault Refusal :=
  .next (if s.startOnLink then { s with startInterval := false, onLink := none } else s)

/-- UNKNOWN_KIND_REQUEST: a taken request whose kind is not in the catalogue is refused KIND (R169 step 1). -/
def execUnknownKindRequest (kind tag : Byte) (body : List Byte) (s : State) : Host.Outcome State Fault Refusal :=
  .next (if s.takes kind tag body && !catalogue.contains kind then
      s.popInbox.placeReply (replyFrame kind tag .kind [])
    else s)

end Sys2Proof.Machine
end

