-- ==== Sys2Proof/Machine/AccountRequests.lean ====
section
/-! DEFINITION. The Meter Unit's and the Account Table's requests: TARIFF_WRITE, TARIFF_READ (6.2), ACCOUNT_SET,
ACCOUNT_CREDIT, ACCOUNT_CLOSE and QUERY_ACCOUNT (7.3). -/

namespace Sys2Proof.Machine

-- ## TARIFF_WRITE and TARIFF_READ

/-- The item of the three bytes at offset 1 of a tariff request (11.3). -/
def tariffItemOf (body : List Byte) : Option TariffItem := itemOf (byteAt body 1) (byteAt body 2) (byteAt body 3)

/-- The values of a TARIFF_WRITE that are read hold digits, each beginning with 0 (R112 step 2). -/
def tariffValuesOk (item : TariffItem) (body : List Byte) : Bool :=
  match item with
  | .rate _ => amountOk (fourAt body 5) && amountOk (fourAt body 9)
  | .surcharge _ => amountOk (fourAt body 5)

/-- One item of a page takes the value of a TARIFF_WRITE as a whole (R112). -/
def TariffPage.write (item : TariffItem) (blank : Bool) (body : List Byte) (x : TariffPage) : TariffPage :=
  match item with
  | .rate k =>
    let value := if blank then none else some { front := bcdValue (fourAt body 5), back := bcdValue (fourAt body 9) }
    { x with rates := x.rates.set k.val value }
  | .surcharge k =>
    let value := if blank then none else some (bcdValue (fourAt body 5))
    { x with surcharges := x.surcharges.set k.val value }

/-- An item of a page as a reply carries it (11.5). -/
def TariffPage.itemBytes (item : TariffItem) (x : TariffPage) : List Byte :=
  match item with
  | .rate k => rateBytes x.rates[k]
  | .surcharge k => surchargeBytes x.surcharges[k]

/-- An item as a lookup for a page resolves it (R113 to R115). -/
def State.resolvedBytes (s : State) (g : Fin 8) (item : TariffItem) : List Byte :=
  match item with
  | .rate k => rateBytes (some (s.lookupRate g k))
  | .surcharge k => surchargeBytes (some (s.lookupSurcharge g k))

/-- Tariff page `g` becomes `f` of itself. -/
def State.updTariff (g : Fin 8) (f : TariffPage → TariffPage) (s : State) : State :=
  { s with tariffs := s.tariffs.set g.val (f s.tariffs[g]) }

/-- TARIFF_WRITE's checks in order and its effect (R112). -/
def judgeTariffWrite (body : List Byte) (s : State) : Judged :=
  orRange (groupOf (byteAt body 0)) fun g => orRange (tariffItemOf body) fun item =>
    let blank := byteAt body 4 == 1
    if blank = false ∧ tariffValuesOk item body = false then .refused .range
    else if blank = true ∧ g = standingPage then .refused .range
    else
      let t := s.updTariff g (TariffPage.write item blank body)
      ok t (t.tariffs[g].itemBytes item)

/-- TARIFF_WRITE (R112). -/
def execTariffWrite (tag : Byte) (body : List Byte) (s : State) : Host.Outcome State Fault Refusal :=
  .next (s.request 0x40 tag body (tariffWriteOk body) (judgeTariffWrite body))

/-- TARIFF_READ's check and its reply: the item as stored and as resolved (R113). -/
def judgeTariffRead (body : List Byte) (s : State) : Judged :=
  orRange (groupOf (byteAt body 0)) fun g => orRange (tariffItemOf body) fun item =>
    ok s (s.tariffs[g].itemBytes item ++ s.resolvedBytes g item)

/-- TARIFF_READ (R113). -/
def execTariffRead (tag : Byte) (body : List Byte) (s : State) : Host.Outcome State Fault Refusal :=
  .next (s.request 0x41 tag body (sized 4 body) (judgeTariffRead body))

-- ## ACCOUNT_SET

/-- The three-byte count at offset `i` of a body. -/
def countAt (body : List Byte) (i : Nat) : Nat := beValue ((body.drop i).take 3)

/-- The five fields that ACCOUNT_SET writes; the allowance is at least the reservation (R139). -/
def Account.written (group : Fin 8) (body : List Byte) (x : Account) : Account :=
  { x with
    enabled := (byteAt body 1).getLsbD 0
    unmetered := (byteAt body 1).getLsbD 1
    group := group
    discount := wordAt body 3
    allowance := max (countAt body 5) x.reserved }

/-- The headroom has risen, or the account has become unmetered (R138). -/
def Account.rose (before after : Account) : Bool :=
  before.allowance < after.allowance || (after.unmetered && !before.unmetered)

/-- Account `a` is written; a pass is asked for where R138 says so. -/
def State.writeAccount (a : AccountId) (f : Account → Account) (s : State) : State :=
  let t := s.updAccount a f
  if s.accounts[a].rose (f s.accounts[a]) then t.askIfAnyRun else t

/-- ACCOUNT_SET's checks in order and its effect (R139). -/
def judgeAccountSet (body : List Byte) (s : State) : Judged :=
  orRange (accountOf (byteAt body 0)) fun a => orRange (groupOf (byteAt body 2)) fun g =>
    if 1000 < wordAt body 3 then .refused .range
    else
      let after := s.accounts[a].written g body
      .done (s.writeAccount a (Account.written g body))
        (if countAt body 5 < s.accounts[a].reserved then .clamped else .ok) after.bytes

/-- ACCOUNT_SET (R139). -/
def execAccountSet (tag : Byte) (body : List Byte) (s : State) : Host.Outcome State Fault Refusal :=
  .next (s.request 0x50 tag body (accountSetOk body) (judgeAccountSet body))

-- ## ACCOUNT_CREDIT, ACCOUNT_CLOSE and QUERY_ACCOUNT

/-- A credit is added to the allowance, to at most 16,777,215 (R140). -/
def Account.credit (n : Nat) (x : Account) : Account :=
  { x with allowance := min (x.allowance + n) Config.maxCount }

/-- ACCOUNT_CREDIT's check and its effect (R140). -/
def judgeAccountCredit (body : List Byte) (s : State) : Judged :=
  orRange (accountOf (byteAt body 0)) fun a =>
    .done (s.writeAccount a (Account.credit (countAt body 1)))
      (if Config.maxCount < s.accounts[a].allowance + countAt body 1 then .clamped else .ok)
      (s.accounts[a].credit (countAt body 1)).bytes

/-- ACCOUNT_CREDIT (R140). -/
def execAccountCredit (tag : Byte) (body : List Byte) (s : State) : Host.Outcome State Fault Refusal :=
  .next (s.request 0x51 tag body (sized 4 body) (judgeAccountCredit body))

/-- The period is closed: faces, charge and SATURATED return to 0 and no (R141). -/
def Account.closePeriod (x : Account) : Account :=
  { x with periodFaces := 0, periodCharge := 0, saturated := false }

/-- ACCOUNT_CLOSE's check and its effect; the reply carries the record as it stood (R141). -/
def judgeAccountClose (body : List Byte) (s : State) : Judged :=
  orRange (accountOf (byteAt body 0)) fun a => ok (s.updAccount a Account.closePeriod) s.accounts[a].bytes

/-- ACCOUNT_CLOSE (R141). -/
def execAccountClose (tag : Byte) (body : List Byte) (s : State) : Host.Outcome State Fault Refusal :=
  .next (s.request 0x52 tag body (sized 1 body) (judgeAccountClose body))

/-- QUERY_ACCOUNT reads the record (R142). -/
def judgeQueryAccount (body : List Byte) (s : State) : Judged :=
  orRange (accountOf (byteAt body 0)) fun a => ok s s.accounts[a].bytes

/-- QUERY_ACCOUNT (R142). -/
def execQueryAccount (tag : Byte) (body : List Byte) (s : State) : Host.Outcome State Fault Refusal :=
  .next (s.request 0x53 tag body (sized 1 body) (judgeQueryAccount body))

end Sys2Proof.Machine
end

