-- ==== Sys2Proof/Machine/Feed.lean ====
section
/-! DEFINITION. Marks, completion, feeds and offers: what the Job Table, the Queue Controller and a press port do
together as a job moves (R6 to R16, R44, R45, R89, R92, R93, R96, R101, R103, R104). -/

namespace Sys2Proof.Machine

/-- Seconds of a timer setting as ticks (R177). -/
def secondTicks (n : Nat) : Tick := BitVec.ofNat 32 (10 * n)

-- ## Marks

/-- A mark of member `m` reaches queue `q`: kept in RUN and HALT, absorbed if it is there, discarded otherwise. A RUN
queue that gains it asks for a pass (R42, R39). -/
def State.giveMark (q : QueueId) (m : Nat) (s : State) : State :=
  if s.queues[q].mode = .run ∨ s.queues[q].mode = .halt then
    if hasBit s.queues[q].received m then s
    else (s.updQueue q (fun x => { x with received := addBit x.received m })).askIfRun q
  else s

/-- An idle mark output that owes a pulse begins one (R45). -/
def MarkLine.begin (m : MarkLine) : MarkLine :=
  if m.phase = .idle ∧ 0 < m.owed then { m with phase := .high, counted := true } else m

/-- A give to EXT: one more pulse is owed, to at most 255, and an idle line begins it (R44, R45). -/
def MarkLine.owe (m : MarkLine) : MarkLine := MarkLine.begin { m with owed := min (m.owed + 1) 255 }

/-- The give set of a job that becomes DONE is delivered (R44). -/
def State.deliverGives (j : SlotId) (s : State) : State :=
  let own := s.jobs[j].queue
  let give := s.jobs[j].giveSet
  let s1 := (List.finRange 8).foldl
    (fun t q => if hasBit give q.val && q != own then t.giveMark q own.val else t) s
  if hasBit give extBit then { s1 with markLine := s1.markLine.owe } else s1

-- ## A job's state

/-- A job becomes WAITING with a reason, and its queue asks for a pass if it is in RUN (R4, R39). -/
def State.makeWaiting (j : SlotId) (r : WaitReason) (s : State) : State :=
  (s.updJob j (fun x => { x with state := .waiting, reason := some r })).askIfRun s.jobs[j].queue

/-- A job takes a state other than WAITING; its wait reason becomes absent (R4). -/
def Job.enter (st : JobState) (x : Job) : Job := { x with state := st, reason := none }

/-- A HANDED job outside a proof run becomes DONE (R11). -/
def State.becomeDone (j : SlotId) (s : State) : State :=
  ((s.updJob j (Job.enter .done)).deliverGives j).flagJob j .done

/-- A HANDED job in a proof run completes its proof (R12). -/
def State.completeProof (j : SlotId) (s : State) : State :=
  ((s.updJob j (fun x => { x with
      proofRun := false, cursorCopy := 1, cursorPage := 1, proofsDone := byteCount x.proofsDone })).flagJob j
    .proofDone).makeWaiting j .hold

/-- A HANDED job with no entries left is DONE, or has completed its proof (R9, R11, R12). -/
def State.completeJob (j : SlotId) (s : State) : State :=
  if s.jobs[j].proofRun then s.completeProof j else s.becomeDone j

/-- What follows when an entry of job `j` has left its window by a sheet: with no entries left, a HANDED job
completes (R10 step 5), a CANCELLING job is CANCELLED (R16), and a WAITING job of a RUN queue asks for a pass (R181). -/
def State.afterSheet (j : SlotId) (s : State) : State :=
  if s.hasEntries j then s
  else match s.jobs[j].state with
    | .handed => s.completeJob j
    | .cancelling => s.flagJob j .cancelled
    | .waiting => s.askIfRun s.jobs[j].queue
    | _ => s

/-- The same when an entry has left without a sheet (R16, R181). -/
def State.afterRemoval (j : SlotId) (s : State) : State :=
  if s.hasEntries j then s
  else match s.jobs[j].state with
    | .cancelling => s.flagJob j .cancelled
    | .waiting => s.askIfRun s.jobs[j].queue
    | _ => s

/-- The cursor is set to the earlier of its position and (copy, place), ordered by copy and then by page index; a
CANCELLING job keeps its cursor (R13). -/
def Job.rewind (copy place : Nat) (x : Job) : Job :=
  if x.state = .cancelling then x
  else if copy < x.cursorCopy ∨ (copy = x.cursorCopy ∧ place < x.cursorPage) then
    { x with cursorCopy := copy, cursorPage := place }
  else x

/-- The offer of the page at the cursor moves the cursor on (R6). -/
def Job.advance (x : Job) : Job :=
  if x.pages.length < x.cursorPage + 1 ∧ x.closed = true ∧ x.proofRun = false ∧ x.cursorCopy < x.copies then
    { x with cursorCopy := x.cursorCopy + 1, cursorPage := 1 }
  else { x with cursorPage := x.cursorPage + 1 }

/-- The reserved faces of an entry that leaves without a sheet are released; the headroom rises (R137, R138). -/
def State.releaseFaces (e : SendEntry) (s : State) : State :=
  (s.updAccount s.jobs[e.job].account (Account.release e.faces)).askIfAnyRun

-- ## A port's window and feed

/-- The entry that a send in progress is sending. -/
def Port.sendingEntry (x : Port) : Option SendEntry :=
  match x.sending with
  | none => none
  | some n => x.window.find? (fun e => e.serial == n)

/-- The page record of an entry's page, while it is held. -/
def State.entryRecord (s : State) (e : SendEntry) : Option RecordId := s.jobs[e.job].pageAt e.place

/-- The page-data messages of entry `e`'s page, in the order in which a send puts them on the link (R93, R183). -/
def State.entryData (s : State) (e : SendEntry) : List PressMessage :=
  match s.entryRecord e with
  | none => []
  | some r => pageDataMessages e.serial (s.readOut r)

/-- The page data that port `p`'s send in progress has put on the link if it is stopped now: the page's first frames,
the one on the link being completed. How many is a FREE VALUE (R183; log entry 22). -/
def State.stoppedData (s : State) (p : PortId) : List PressMessage :=
  match s.ports[p].sendingEntry with
  | none => []
  | some e => (s.entryData e).take (Config.framesSent p.val s.pressLog.length)

/-- No send is in progress at the port. -/
def Port.stopSend (x : Port) : Port := { x with sending := none }

/-- Port `p`'s send in progress stops, if there is one: the frame on the link is completed, and no further page data and
no PAGE_END follow (R183). -/
def State.stopSend (p : PortId) (s : State) : State := (s.pressAll p (s.stoppedData p)).updPort p Port.stopSend

/-- Port `p`'s send in progress stops if it is the send of entry `e` (R93, R97). -/
def State.stopSendOf (p : PortId) (e : SendEntry) (s : State) : State :=
  if s.ports[p].sending = some e.serial then s.stopSend p else s

/-- Entry `e` leaves its window. -/
def Port.dropEntry (e : SendEntry) (x : Port) : Port := { x with window := x.window.erase e }

/-- Entry `e` leaves port `p`'s window; a send of it that is in progress stops (R93, R97). -/
def State.dropEntry (p : PortId) (e : SendEntry) (s : State) : State :=
  (s.stopSendOf p e).updPort p (Port.dropEntry e)

/-- The feed is released: Feed owner becomes absent, the starve timer stops and Release owed becomes no (R104). -/
def Port.dropFeed (x : Port) : Port := { x with feedOwner := none, starveTimer := none, releaseOwed := false }

/-- Port `p`'s feed, held by job `j`, is released on both sides (R8, R104). -/
def State.releaseFeed (p : PortId) (j : SlotId) (s : State) : State :=
  (s.updPort p Port.dropFeed).updJob j (fun x => { x with feedPort := none })

/-- A link goes DOWN. A DOWN link keeps no timers of the link; leaving UP sets DETACHED (R89). -/
def State.goDown (p : PortId) (c : DownCause) (s : State) : State :=
  let s1 := s.updPort p (fun x => { x with link := .down, downCause := some c, rateWindow := none, sending := none })
  if s.ports[p].link = .up then s1.flagPort p .detached else s1

/-- The four conditions of a held-down link hold together, and the link is not DOWN already (R89). -/
def Port.holdsDown (x : Port) : Bool :=
  x.holdAsked && !x.inService && x.feedOwner.isNone && x.setup.isNone && x.window.isEmpty && x.link != .down

/-- The hold test of R89. -/
def State.holdTest (p : PortId) (s : State) : State :=
  if s.ports[p].holdsDown then s.goDown p .hold else s

/-- What follows a released feed at the port: claimable if READY with its link UP, and the hold test (R104). -/
def State.feedReleased (p : PortId) (s : State) : State := (s.askIfClaimable p).holdTest p

/-- The port aborts its STREAMING entry, if it has one: its data stop unless it is ended, the entry becomes ABORTING, and
ABORT is sent behind the completed frame (R96, R183). -/
def State.abortStreaming (p : PortId) (s : State) : State :=
  match s.ports[p].window.find? (fun e => e.state == .streaming) with
  | none => s
  | some e =>
    ((if e.ended then s else s.stopSend p).updPort p (fun x => { x with
      window := x.window.map (fun y => if y.state = .streaming then { y with state := .aborting } else y) })).press p
      (.abort e.serial)

/-- The test of R9: an ACTIVE, STARVED or WAITING job that is sent out and has no STREAMING or ABORTING entry becomes
HANDED and releases its feed, and with no entries left it completes. -/
def State.handedTest (j : SlotId) (s : State) : State :=
  let job := s.jobs[j]
  if (job.state = .active ∨ job.state = .starved ∨ job.state = .waiting) ∧ job.sentOut = true
      ∧ s.hasUnsettled j = false then
    let s1 := s.updJob j (Job.enter .handed)
    let s2 := match job.feedPort with
      | none => s1
      | some p => (s1.releaseFeed p j).feedReleased p
    let s3 := if job.double then s2.flagJob j .handed else s2
    if s3.hasEntries j then s3 else s3.completeJob j
  else s

/-- Job `j` is cancelled (R15): CANCELLING, its feed released, its STREAMING entry aborted, and CANCELLED at once if
it has no entries. -/
def State.cancelJob (j : SlotId) (s : State) : State :=
  let s1 := s.updJob j (Job.enter .cancelling)
  let s2 := match s.jobs[j].feedPort with
    | none => s1
    | some p => ((s1.releaseFeed p j).abortStreaming p).feedReleased p
  if s2.hasEntries j then s2 else s2.flagJob j .cancelled

-- ## Offers

/-- The printer's Ident covers one page (R92 step 5). -/
def Ident.covers (i : Ident) (page : PageRecord) : Bool :=
  (page.colour == .mono || i.colour) && (page.sides != 2 || i.duplex) && hasBit i.media page.media.val

/-- An offer of record `r`, the page at job `j`'s cursor, its faces being reserved (R93). -/
def State.offer (p : PortId) (j : SlotId) (r : RecordId) (s : State) : State :=
  let job := s.jobs[j]
  let page := s.pages[r]
  let serial := s.ports[p].nextSerial
  let entry : SendEntry :=
    { serial := serial, job := j, place := job.cursorPage, copy := job.cursorCopy, faces := page.sides,
      colour := page.colour, state := .streaming, ended := false }
  ((s.updPort p (fun x => { x with
      window := x.window ++ [entry], nextSerial := x.nextSerial + 1, sending := some serial })).updJob j
    Job.advance).press p (.offer serial (BitVec.ofNat 8 j.val) (BitVec.ofNat 8 job.cursorCopy) page.attr page.length)

/-- A setup hold for media `m` begins: SETUP is sent and the setup timer starts (R101). -/
def State.beginSetup (p : PortId) (m : Media) (s : State) : State :=
  (s.updPort p (fun x => { x with
    setup := some m, stallReported := false
    setupTimer := some (s.clock + secondTicks s.timers.setupStall) })).press p (.setup m)

/-- An ACTIVE owner with nothing sendable becomes STARVED, and the starve timer starts (R7, R103). -/
def State.starve (p : PortId) (j : SlotId) (s : State) : State :=
  (s.updJob j (Job.enter .starved)).updPort p
    (fun x => { x with starveTimer := some (s.clock + BitVec.ofNat 32 s.timers.starve) })

/-- Steps 4 to 8 of an offer attempt, for the record `r` at the cursor of the ACTIVE feed owner `j` (R92). -/
def State.offerPage (p : PortId) (j : SlotId) (r : RecordId) (s : State) : State :=
  let page := s.pages[r]
  if s.ports[p].depth ≤ s.ports[p].window.length then s
  else if (s.ports[p].ident.map (fun i => i.covers page)).getD false = false then
    ((s.releaseFeed p j).makeWaiting j .route).feedReleased p
  else if s.ports[p].loaded ≠ page.media then s.beginSetup p page.media
  else if s.accounts[s.jobs[j].account].canReserve page.sides then
    (s.updAccount s.jobs[j].account (Account.reserve page.sides)).offer p j r
  else (((s.releaseFeed p j).makeWaiting j .allowance).flagJob j .allowanceStop).feedReleased p

/-- Steps 1 and 2 of an offer attempt hold (R92). -/
def State.mayOffer (s : State) (p : PortId) : Bool :=
  s.ports[p].link == .up && s.ports[p].inService && s.service p == .feeding
    && !s.ports[p].window.any SendEntry.unsettled && s.ports[p].sending.isNone

/-- An offer attempt of port `p` (R92). -/
def State.offerAttempt (p : PortId) (s : State) : State :=
  match s.ports[p].feedOwner with
  | none => s
  | some j =>
    if s.mayOffer p then
      if s.jobs[j].state = .active ∧ s.jobs[j].sentOut = false then
        match s.jobs[j].nextPage with
        | none => s.starve p j
        | some r => s.offerPage p j r
      else s
    else s

/-- A STARVED job whose next page is now sendable becomes ACTIVE; its port stops the starve timer and makes an offer
attempt (R7, R92). -/
def State.wake (j : SlotId) (s : State) : State :=
  if s.jobs[j].state = .starved ∧ s.jobs[j].nextPage.isSome then
    match s.jobs[j].feedPort with
    | none => s
    | some p =>
      ((s.updJob j (Job.enter .active)).updPort p (fun x => { x with starveTimer := none })).offerAttempt p
  else s

-- ## The sheet event

/-- Step 1 of R10: the job's Sheets, Faces and, in a proof run, Proof faces. -/
def Job.countSheet (faces : Nat) (x : Job) : Job :=
  { x with
    sheets := countTo x.sheets 1
    faces := countTo x.faces faces
    proofFaces := if x.proofRun then countTo x.proofFaces faces else x.proofFaces }

/-- Step 2 of R10: outside a proof run the page's sheeted-copy count rises, and a Closed job's page whose count
reaches Copies is freed (R62). -/
def State.countPage (e : SendEntry) (s : State) : State :=
  let job := s.jobs[e.job]
  if job.proofRun then s
  else match job.pageAt e.place with
    | none => s
    | some r =>
      let s1 := s.updPage r (fun x => { x with sheeted := x.sheeted + 1 })
      if job.closed ∧ s.pages[r].sheeted + 1 = job.copies then s1.freePlace e.job e.place else s1

/-- Steps 3 and 4 of R10 on the job's record: Copies completed and the charge. -/
def Job.chargeSheet (endsSet : Bool) (net : Nat) (x : Job) : Job :=
  Job.addCharge net { x with copiesDone := if endsSet ∧ x.proofRun = false then x.copiesDone + 1 else x.copiesDone }

/-- A sheet event for entry `e` of port `p` (R95, R10, R126): a send of it stops (R93), and then the port's meters, the
job's counts, the page, the charge and the account, and the entry's leaving with what follows it. -/
def State.sheetEvent (p : PortId) (e : SendEntry) (s : State) : State :=
  let net := s.sheetNet e
  let endsSet := s.jobs[e.job].endsCopySet e.place
  let s1 := (s.stopSendOf p e).updPort p (Port.count (MeterSet.countSheet e.colour e.faces))
  let s2 := s1.updJob e.job (Job.countSheet e.faces)
  let s3 := s2.countPage e
  let s4 := s3.updJob e.job (Job.chargeSheet endsSet net)
  let s5 := s4.updAccount s.jobs[e.job].account (fun a => Account.convert e.faces (Account.addSheet net e.faces a))
  (s5.updPort p (Port.dropEntry e)).afterSheet e.job

end Sys2Proof.Machine
end

