-- ==== Sys2Proof/Machine/Alerts.lean ====
section
/-! DEFINITION. The Alert Unit (Chapter 8): slots opened, merged and closed, the settlement of a window, the jobs of a
stop, the attendant's side, and wait conditions. -/

namespace Sys2Proof.Machine

/-- A slot opens with this primary kind, these additional kinds and standing conditions, and this location; it joins
the tail of the open-alert list, RAISED is set and the escalation timer starts (R145, R146, R157, R159). -/
def State.openSlot (a : AlertId) (primary : AlertKind) (additional standing : KindSet) (location : Byte)
    (s : State) : State :=
  State.flagAlert a .raised
    { s.updAlert a (fun x => { x with
        isOpen := true, primary := some primary, additional := additional, standing := standing,
        location := location, raised := s.clock, level := 1, acknowledged := false, attendant := false,
        hostReleased := false, repeats := 0, affected := [],
        timer := some (s.clock + secondTicks s.timers.escalation1) }) with
      openAlerts := s.openAlerts ++ [a] }

/-- A slot closes: CLEAR, its escalation timer stopped, out of the open-alert list, CLOSED set (R156, R158). -/
def State.closeSlot (a : AlertId) (s : State) : State :=
  State.flagAlert a .closed
    { s.updAlert a (fun x => { x with isOpen := false, timer := none }) with
      openAlerts := s.openAlerts.filter (fun b => b != a) }

/-- A stop condition merges into an open slot (R147). -/
def AlertSlot.merge (k : AlertKind) (location : Byte) (x : AlertSlot) : AlertSlot :=
  { x with
    additional := if x.primary = some k then x.additional else addBit x.additional k.bit
    repeats := byteCount x.repeats
    attendant := false
    location := if k = .jam then location else x.location }

/-- A stop condition opens port `p`'s stop slot, or merges into it (R146, R147). -/
def State.raiseStop (p : PortId) (k : AlertKind) (location : Byte) (s : State) : State :=
  if s.alerts[stopSlot p].isOpen then
    (s.updAlert (stopSlot p) (AlertSlot.merge k location)).flagAlert (stopSlot p) .raised
  else s.openSlot (stopSlot p) k 0 0 (if k = .jam then location else 0)

/-- The entries that a JAM's last-delivered serial confirms: the TAKEN entry it names and every older one, oldest
first (R149). -/
def confirmedEntries (window : List SendEntry) (serial : Option Serial) : List SendEntry :=
  match serial with
  | none => []
  | some n =>
    match window.findIdx? (fun e => e.serial == n && e.state == .taken) with
    | none => []
    | some i => window.take (i + 1)

/-- The confirmed entries are carried out as sheet events one by one (R127, R149). -/
def State.confirm (p : PortId) (es : List SendEntry) (s : State) : State :=
  es.foldl (fun t e => t.sheetEvent p e) s

/-- One entry is settled without a sheet: a TAKEN one is spoiled and counted, and its reservation is released
(R150, R106). -/
def State.settleEntry (p : PortId) (e : SendEntry) (s : State) : State :=
  (if e.state = .taken then s.updPort p (Port.count (MeterSet.countSpoiled e.faces)) else s).releaseFaces e

/-- The window is settled: its entries oldest first, after which it is empty and no send is in progress
(R150, R106). -/
def State.settleWindow (p : PortId) (s : State) : State :=
  (s.ports[p].window.foldl (fun t e => t.settleEntry p e) s).updPort p
    (fun x => { x with window := [], sending := none })

/-- The jobs of a list of entries, in the order in which their oldest entries stand. -/
def entryJobs (es : List SendEntry) : List SlotId :=
  (es.map (·.job)).foldl (fun js j => if js.contains j then js else js ++ [j]) []

/-- The jobs stopped at a port: those of its entries, in window order, and the feed owner without entries last
(R151). -/
def stoppedJobs (es : List SendEntry) (owner : Option SlotId) : List SlotId :=
  match owner with
  | none => entryJobs es
  | some j => if (entryJobs es).contains j then entryJobs es else entryJobs es ++ [j]

/-- Job `j`'s cursor is rewound to its oldest entry among those removed (R13). -/
def State.rewindTo (j : SlotId) (es : List SendEntry) (s : State) : State :=
  match es.find? (fun e => e.job == j) with
  | none => s
  | some e => s.updJob j (Job.rewind e.copy e.place)

/-- The feed of port `p` is released if job `j` holds it. -/
def State.releaseIfOwner (p : PortId) (j : SlotId) (s : State) : State :=
  if s.ports[p].feedOwner = some j then s.releaseFeed p j else s

/-- The reroute tick set by a stop alert now (R75, R151). -/
def State.rerouteAt (s : State) : Tick := s.clock + secondTicks s.timers.reroute

/-- Step 3 of R151: the state of a stopped job. -/
def State.stopState (j : SlotId) (s : State) : State :=
  match s.jobs[j].state with
  | .active | .starved | .waiting | .handed => s.makeWaiting j .jam
  | .cancelling => if s.hasEntries j then s else s.flagJob j .cancelled
  | .error | .free | .done => s

/-- Step 4 of R151: the exclusion of a stopped job. -/
def State.excludeJob (p : PortId) (j : SlotId) (s : State) : State :=
  s.updJob j (fun x => { x with exclusion := some { port := p, tick := s.rerouteAt } })

/-- Step 5 of R151: REROUTED, if the job's queue has REROUTE on. -/
def State.flagReroute (j : SlotId) (s : State) : State :=
  if s.queues[s.jobs[j].queue].reroute then s.flagJob j .rerouted else s

/-- A handle joins a slot's affected-job list, unless it is there (R152). -/
def AlertSlot.list (h : Handle) (x : AlertSlot) : AlertSlot :=
  { x with affected := if x.affected.contains h then x.affected else x.affected ++ [h] }

/-- Step 6 of R151: the job joins the affected-job list of port `p`'s stop slot. -/
def State.listAffected (p : PortId) (j : SlotId) (s : State) : State :=
  s.updAlert (stopSlot p) (AlertSlot.list { slot := j, generation := s.jobs[j].generation })

/-- One job stopped by port `p`'s alert is dealt with, steps 1 to 6 of R151; `es` are the entries removed. -/
def State.stopJob (p : PortId) (es : List SendEntry) (j : SlotId) (s : State) : State :=
  (((((s.releaseIfOwner p j).rewindTo j es).stopState j).excludeJob p j).flagReroute j).listAffected p j

/-- R150 and R151: the window is settled, and then each stopped job is dealt with. -/
def State.settleStop (p : PortId) (s : State) : State :=
  (stoppedJobs s.ports[p].window s.ports[p].feedOwner).foldl (fun t j => t.stopJob p s.ports[p].window j)
    (s.settleWindow p)

/-- A stop condition reaches the Alert Unit (8.3): the slot opens or merges, the confirmed entries are sheet events, the
window is settled, and the stopped jobs are dealt with. -/
def State.stopCondition (p : PortId) (k : AlertKind) (location : Byte) (serial : Option Serial) (s : State) :
    State :=
  ((s.raiseStop p k location).confirm p (confirmedEntries s.ports[p].window serial)).settleStop p

/-- A job loses an exclusion that names port `p` (R156). -/
def Job.dropExclusion (p : PortId) (x : Job) : Job :=
  if x.exclusion.map (·.port) = some p then { x with exclusion := none } else x

/-- Every job whose exclusion names port `p` loses it; exclusions removed ask for a pass (R156). -/
def State.dropExclusions (p : PortId) (s : State) : State :=
  if (List.finRange 256).any (fun j => s.jobs[j].exclusion.map (·.port) == some p) then
    { s with jobs := mapTable (Job.dropExclusion p) s.jobs }.ask
  else s

/-- Port `p`'s stop alert closes (R156). The exclusions removed ask for a pass, and so does the port if it is now
claimable. -/
def State.closeStop (p : PortId) (s : State) : State :=
  ((s.closeSlot (stopSlot p)).dropExclusions p).askIfClaimable p

/-- The attendant side of port `p`'s open stop alert is given; with the host side it closes (R153, R154). -/
def State.confirmAttendant (p : PortId) (s : State) : State :=
  let s1 := s.updAlert (stopSlot p) (fun x => { x with attendant := true })
  if s.alerts[stopSlot p].hostReleased then s1.closeStop p else s1

/-- Every kind of the alert is JAM (R153). -/
def AlertSlot.onlyJam (a : AlertSlot) : Bool :=
  a.primary == some .jam && subBits a.additional (addBit 0 AlertKind.jam.bit)

/-- The first of the wait kinds of a set, in the order MEDIA_OUT, COVER_OPEN, SUPPLY_OUT, SETUP_STALL (R157). -/
def firstWaitKind (ks : KindSet) : AlertKind :=
  if hasBit ks AlertKind.mediaOut.bit then .mediaOut
  else if hasBit ks AlertKind.coverOpen.bit then .coverOpen
  else if hasBit ks AlertKind.supplyOut.bit then .supplyOut
  else .setupStall

/-- The standing conditions after one event: the withdrawn ones leave and the raised ones join (R157, R158). -/
def AlertSlot.stand (added removed : KindSet) (x : AlertSlot) : AlertSlot :=
  { x with standing := minusBits x.standing removed ||| added }

/-- Conditions that were not standing are taken into an open wait alert: one repeat (R157). -/
def AlertSlot.repeatWith (fresh : KindSet) (x : AlertSlot) : AlertSlot :=
  let kinds := x.additional ||| fresh
  { x with
    additional := match x.primary with
      | none => kinds
      | some k => dropBit kinds k.bit
    repeats := byteCount x.repeats }

/-- An open wait alert takes conditions that were not standing, if there are any (R157). -/
def State.repeatWait (a : AlertId) (fresh : KindSet) (s : State) : State :=
  if fresh = 0 then s else (s.updAlert a (AlertSlot.repeatWith fresh)).flagAlert a .raised

/-- A wait alert without standing conditions closes (R158). -/
def State.closeIfClear (a : AlertId) (s : State) : State :=
  if s.alerts[a].standing = 0 then s.closeSlot a else s

/-- One event of port `p`'s wait slot, adding and removing conditions together (R157, R158). -/
def State.waitEvent (p : PortId) (added removed : KindSet) (s : State) : State :=
  if s.alerts[waitSlot p].isOpen then
    ((s.updAlert (waitSlot p) (AlertSlot.stand added removed)).repeatWait (waitSlot p)
      (minusBits added s.alerts[waitSlot p].standing)).closeIfClear (waitSlot p)
  else if added = 0 then s
  else s.openSlot (waitSlot p) (firstWaitKind added) (dropBit added (firstWaitKind added).bit) added 0

/-- The wait kinds of a printer's reasons: MEDIA_OUT, COVER_OPEN, SUPPLY_OUT (8.2, 11.4). -/
def reasonKinds (r : ReasonSet) : KindSet := (r.setWidth 7) <<< AlertKind.mediaOut.bit

/-- The kind set of SETUP_STALL alone. -/
def stallKind : KindSet := addBit 0 AlertKind.setupStall.bit

end Sys2Proof.Machine
end

