-- ==== Sys2Proof/Machine/AlertRequests.lean ====
section
/-! DEFINITION. The Alert Unit's requests, ALERT_ACK, ALERT_RELEASE and QUERY_ALERTS (Chapter 8), and the Part's
requests, SET_TIMERS, QUERY_STORE, QUERY_PART and RESTART (Chapters 3 and 9). -/

namespace Sys2Proof.Machine

-- ## ALERT_ACK

/-- An open slot is acknowledged and its escalation timer stops (R160). -/
def State.acknowledge (a : AlertId) (s : State) : State :=
  s.updAlert a (fun x => { x with acknowledged := true, timer := none })

/-- ALERT_ACK's checks and its effect (R160). -/
def judgeAlertAck (body : List Byte) (s : State) : Judged :=
  orRange (alertOf (byteAt body 0)) fun a =>
    if s.alerts[a].isOpen then ok (s.acknowledge a) ((s.acknowledge a).alertBytes a 0) else .refused .state

/-- ALERT_ACK (R160). -/
def execAlertAck (tag : Byte) (body : List Byte) (s : State) : Host.Outcome State Fault Refusal :=
  .next (s.request 0x60 tag body (sized 1 body) (judgeAlertAck body))

-- ## ALERT_RELEASE

/-- The port of an alert slot (R144). -/
def alertPort (a : AlertId) : PortId := ⟨a.val / 2, by omega⟩

/-- The slot is its port's stop slot (R144). -/
def isStopSlot (a : AlertId) : Bool := a.val % 2 == 0

/-- The host side of port `p`'s stop alert is given; with the attendant side it closes (R155). -/
def State.hostRelease (p : PortId) (s : State) : State :=
  let s1 := s.updAlert (stopSlot p) (fun x => { x with hostReleased := true })
  if s.alerts[stopSlot p].attendant then s1.closeStop p else s1

/-- ALERT_RELEASE's checks and its effect (R155). -/
def judgeAlertRelease (body : List Byte) (s : State) : Judged :=
  orRange (alertOf (byteAt body 0)) fun a =>
    if isStopSlot a = true ∧ s.alerts[a].isOpen = true then
      let t := s.hostRelease (alertPort a)
      ok t (t.alertBytes a 0)
    else .refused .state

/-- ALERT_RELEASE (R155). -/
def execAlertRelease (tag : Byte) (body : List Byte) (s : State) : Host.Outcome State Fault Refusal :=
  .next (s.request 0x61 tag body (sized 1 body) (judgeAlertRelease body))

-- ## QUERY_ALERTS

/-- A slot's escalation timer in QUERY_ALERTS: expiry tick, then running mark. A stopped timer's expiry tick is a free
value, the `n`-th one drawn (log entry 13). -/
def State.escalationBytes (s : State) (n : Nat) (a : AlertId) : List Byte :=
  match s.alerts[a].timer with
  | none => tickBytes (Config.stoppedExpiry n a.val) ++ [0]
  | some t => tickBytes t ++ [1]

/-- The fields of a QUERY_ALERTS reply (R164, 11.5). -/
def State.alertsReply (s : State) : List Byte :=
  [yesNo s.alarm, u8 s.openAlerts.length]
    ++ s.openAlerts.flatMap (fun a => s.alertBytes a 0 ++ s.escalationBytes s.freeCount a)

/-- QUERY_ALERTS reads the open alerts (R164); the model's own count of free values drawn advances (log entry 13). -/
def judgeQueryAlerts (s : State) : Judged := ok { s with freeCount := s.freeCount + 1 } s.alertsReply

/-- QUERY_ALERTS (R164). -/
def execQueryAlerts (tag : Byte) (body : List Byte) (s : State) : Host.Outcome State Fault Refusal :=
  .next (s.request 0x62 tag body (sized 0 body) judgeQueryAlerts)

-- ## SET_TIMERS

/-- A value written at the limit of its range (R178). -/
def clampTo (lo hi n : Nat) : Nat := max lo (min n hi)

/-- The five settings that a SET_TIMERS sends (11.3). -/
def TimerSettings.sent (body : List Byte) : TimerSettings where
  starve := (byteAt body 0).toNat
  setupStall := wordAt body 1
  escalation1 := wordAt body 3
  escalation2 := wordAt body 5
  reroute := wordAt body 7

/-- The five settings within their ranges (R178). -/
def TimerSettings.clamped (t : TimerSettings) : TimerSettings where
  starve := clampTo 1 255 t.starve
  setupStall := clampTo 5 600 t.setupStall
  escalation1 := clampTo 10 3600 t.escalation1
  escalation2 := clampTo 10 3600 t.escalation2
  reroute := clampTo 0 3600 t.reroute

/-- SET_TIMERS's effect (R178). -/
def judgeSetTimers (body : List Byte) (s : State) : Judged :=
  let t := (TimerSettings.sent body).clamped
  .done { s with timers := t } (if t = TimerSettings.sent body then .ok else .clamped) t.bytes

/-- SET_TIMERS (R178). -/
def execSetTimers (tag : Byte) (body : List Byte) (s : State) : Host.Outcome State Fault Refusal :=
  .next (s.request 0x70 tag body (sized 9 body) (judgeSetTimers body))

-- ## QUERY_STORE, QUERY_PART and RESTART

/-- QUERY_STORE (R66). -/
def execQueryStore (tag : Byte) (body : List Byte) (s : State) : Host.Outcome State Fault Refusal :=
  .next (s.request 0x71 tag body (sized 0 body) (fun t => ok t t.storeReply))

/-- QUERY_PART (R179). -/
def execQueryPart (tag : Byte) (body : List Byte) (s : State) : Host.Outcome State Fault Refusal :=
  .next (s.request 0x72 tag body (sized 0 body) (fun t => ok t t.partReply))

/-- A taken RESTART: no further request is taken, and the inbox is discarded (R180). -/
def State.restart (s : State) : State := { s with restarting := true, inbox := [] }

/-- RESTART (R180). -/
def execRestart (tag : Byte) (body : List Byte) (s : State) : Host.Outcome State Fault Refusal :=
  .next (s.request 0x73 tag body (sized 0 body) (fun t => ok t.restart []))

end Sys2Proof.Machine
end

