-- ==== Sys2Proof/Machine/Arbiter.lean ====
section
/-! DEFINITION. Dispatch (2.7, Chapter 4): the tests of R38, the ring search, the dispatch examination, and the Press
Claim Arbiter's rounds, decisions and grants. -/

namespace Sys2Proof.Machine

-- ## Which ports a job may claim

/-- The reroute tick has come: the clock less the tick, modulo 2^32, is below 2^31 (R75). -/
def Exclusion.hasCome (x : Exclusion) (clock : Tick) : Bool := (clock - x.tick).toNat < 2147483648

/-- A printer's Ident covers a job's Needs (R76 condition 2). -/
def Ident.coversNeeds (i : Ident) (x : Job) : Bool :=
  (!x.needsColour || i.colour) && (!x.needsDuplex || i.duplex) && subBits x.needsMedia i.media

/-- The job's exclusion, if any, lets it claim port `p` (R76 condition 3). -/
def State.exclusionAllows (s : State) (p : PortId) (j : SlotId) : Bool :=
  match s.jobs[j].exclusion with
  | none => true
  | some x => x.port != p && s.queues[s.jobs[j].queue].reroute && x.hasCome s.clock

/-- The job's window entries, if any, stand at port `p` (R76 condition 4). -/
def State.entriesAllow (s : State) (p : PortId) (j : SlotId) : Bool :=
  match s.entryPort j with
  | none => true
  | some e => e == p

/-- Port `p` is eligible for job `j` (R76). -/
def State.eligible (s : State) (p : PortId) (j : SlotId) : Bool :=
  s.claimable p && (s.ports[p].ident.map (fun i => i.coversNeeds s.jobs[j])).getD false
    && s.exclusionAllows p j && s.entriesAllow p j

-- ## The ring search

/-- The port set of row `n` (R68). -/
def State.rowSet (s : State) (n : Nat) : PortSet := (s.rows[n]?).getD 0

/-- The rows that a search tries, in order (R77). -/
def Ring.searchRows (r : Ring) : List Nat :=
  if r.pinned then [r.current]
  else (List.range (r.last + 1 - r.current)).map (fun k => r.current + k)
    ++ (List.range (r.current - r.first)).map (fun k => r.first + k)

/-- The lowest-numbered port of row `n` that is eligible for job `j` (R77). -/
def State.rowPort (s : State) (j : SlotId) (n : Nat) : Option PortId :=
  (List.finRange 16).find? (fun p => hasBit (s.rowSet n) p.val && s.eligible p j)

/-- The port that job `j` of queue `q` would claim, with the row used (R77). -/
def State.ringSearch (s : State) (q : QueueId) (j : SlotId) : Option (PortId × Nat) :=
  s.rings[q].searchRows.findSome? (fun n => (s.rowPort j n).map (fun p => (p, n)))

-- ## The dispatch examination

/-- The dispatch state permits a job (R34). -/
def DispatchState.permits (d : DispatchState) (x : Job) : Bool :=
  match d with
  | .hold => !x.neverStarted
  | .step | .free => true
  | .proof => !x.neverStarted || x.closed

/-- The kind of a proposal of job `x` under dispatch state `d` (R79). -/
def DispatchState.kindOf (d : DispatchState) (x : Job) : ProposalKind :=
  if x.neverStarted = false then .reclaim else if d = .proof then .proofStart else .firstRealStart

/-- What the examination finds for one job. -/
inductive Verdict where
  /-- the job keeps its reason -/
  | passedOver
  /-- the job takes this wait reason -/
  | waits (r : WaitReason)
  | proposes (p : Proposal)
  deriving DecidableEq, Repr

/-- Test 8 of R38: the port that holds the job's entries, if any, is claimable. -/
def State.drainOk (s : State) (j : SlotId) : Bool :=
  match s.entryPort j with
  | none => true
  | some p => s.claimable p

/-- Tests 2 to 9 of R38 for job `j` of the list of queue `q`, in their order. -/
def State.examineJob (s : State) (q : QueueId) (j : SlotId) : Verdict :=
  let x := s.jobs[j]
  let d := s.queues[q].dispatch
  if x.state ≠ .waiting ∨ d.permits x = false ∨ (x.closed || x.stream) = false then .passedOver
  else match x.nextPage with
    | none => .passedOver
    | some page =>
      if d.kindOf x = .firstRealStart ∧ subBits x.waitSet s.queues[q].received = false then .waits .marks
      else if s.accounts[x.account].canReserve s.pages[page].sides = false then .waits .allowance
      else if s.drainOk j = false then .waits .drain
      else match s.ringSearch q j with
        | none => .waits .route
        | some (p, row) =>
          .proposes
            { slot := j, generation := x.generation, port := p, row := row, kind := d.kindOf x, written := false }

/-- The walk down a queue's list: reasons are written until a job passes every test (R39). -/
def State.walk (q : QueueId) : List SlotId → State → State × Option Proposal
  | [], s => (s, none)
  | j :: rest, s =>
    match s.examineJob q j with
    | .passedOver => walk q rest s
    | .waits r => walk q rest (s.updJob j (fun x => { x with reason := some r }))
    | .proposes p => (s, some p)

/-- The dispatch examination of queue `q`: a queue in RUN puts at most one proposal in its place, a queue in any other
mode none (R39, R80). -/
def State.examine (q : QueueId) (s : State) : State :=
  if s.queues[q].mode = .run then
    let found := State.walk q s.queues[q].list s
    found.1.updProposal q (fun _ => found.2)
  else s.updProposal q (fun _ => none)

-- ## Decisions and grants

/-- The checks on a proposal of queue `q` when its port is decided (R81). -/
def State.proposalPasses (s : State) (q : QueueId) (p : Proposal) : Bool :=
  s.queues[q].mode == .run && s.jobs[p.slot].state == .waiting && s.jobs[p.slot].generation == p.generation
    && s.queues[q].list.contains p.slot && !p.written && hasBit (s.rowSet p.row) p.port.val
    && s.eligible p.port p.slot

/-- The proposal that wins port `p`: the one of the lowest-numbered queue among those that pass (R81). -/
def State.winner (s : State) (p : PortId) : Option (QueueId × Proposal) :=
  (List.finRange 8).findSome? fun q =>
    match s.proposals[q] with
    | none => none
    | some x => if x.port = p ∧ s.proposalPasses q x then some (q, x) else none

/-- What a grant makes of the job (R5). -/
def Job.claim (p : PortId) (k : ProposalKind) (x : Job) : Job :=
  { x with
    state := .active
    reason := none
    feedPort := some p
    portsUsed := addBit x.portsUsed p.val
    started := x.started || k == .firstRealStart
    proofRun := x.proofRun || k == .proofStart }

/-- What a grant makes of the queue (R40, R43). -/
def Queue.claim (waitSet : MarkSet) (k : ProposalKind) (x : Queue) : Queue :=
  match k with
  | .firstRealStart =>
    { x with
      received := minusBits x.received waitSet
      dispatch := if x.dispatch = .step then .hold else x.dispatch }
  | .proofStart => { x with dispatch := .hold }
  | .reclaim => x

/-- The ring rotates at a grant by the row used (R78). -/
def Ring.rotate (rotateOn : Bool) (used : Nat) (r : Ring) : Ring :=
  if r.pinned = false ∧ rotateOn = true then
    { r with current := if used = r.last then r.first else used + 1 }
  else r

/-- A grant of its port to the proposal `x` of queue `q` (R82), and the offer attempt that the grant of a feed makes
(R92). -/
def State.grant (q : QueueId) (x : Proposal) (s : State) : State :=
  let s1 := s.updPort x.port (fun r => { r with feedOwner := some x.slot })
  let s2 := s1.updJob x.slot (Job.claim x.port x.kind)
  let s3 := s2.updQueue q (Queue.claim s.jobs[x.slot].waitSet x.kind)
  let s4 := s3.updRing q (Ring.rotate s.queues[q].rotate x.row)
  (s4.updProposal q (fun _ => none)).offerAttempt x.port

/-- Port `p` is decided (R81). -/
def State.decide (p : PortId) (s : State) : State :=
  match s.winner p with
  | none => s
  | some (q, x) => s.grant q x

-- ## Rounds and passes

/-- The queues with a proposal in the table. -/
def State.proposers (s : State) : List QueueId := (List.finRange 8).filter (fun q => s.proposals[q].isSome)

/-- Some proposal of the table names port `p`. -/
def State.named (s : State) (p : PortId) : Bool :=
  (List.finRange 8).any (fun q => s.proposals[q].map (·.port) == some p)

/-- A port is put into a list in rising order of a key. -/
def insertByKey (key : PortId → Nat) (p : PortId) : List PortId → List PortId
  | [] => [p]
  | a :: rest => if key p ≤ key a then p :: a :: rest else a :: insertByKey key p rest

/-- A list of ports in rising order of a key. -/
def sortByKey (key : PortId → Nat) (ps : List PortId) : List PortId := ps.foldr (insertByKey key) []

/-- The order in which a round decides the ports named: a free value (R80; log entry 11). -/
def State.decisionOrder (s : State) : List PortId :=
  sortByKey (fun p => Config.decisionKey s.freeCount p.val) ((List.finRange 16).filter s.named)

/-- A queue that was granted or lost in a round asks for a pass (R39), which the pass in progress leaves owed (R79), and
examines its list again (R80). -/
def State.examineAgain (q : QueueId) (s : State) : State := (s.askIfRun q).examine q

/-- One round (R80): every port named is decided, the places of the queues granted or lost are emptied, and those
queues examine again. -/
def State.round (s : State) : State :=
  let decided := s.decisionOrder.foldl (fun t p => t.decide p) { s with freeCount := s.freeCount + 1 }
  let emptied := s.proposers.foldl (fun t q => t.updProposal q (fun _ => none)) decided
  s.proposers.foldl (fun t q => t.examineAgain q) emptied

/-- Rounds until one begins with no proposal in the table (R80; log entry 12 on the bound). -/
def State.rounds : Nat → State → State
  | 0, s => s
  | n + 1, s => if s.proposers.isEmpty then s else State.rounds n s.round

/-- A dispatch pass (R80): the first round's examinations, and then the rounds. -/
def State.pass (s : State) : State :=
  State.rounds Config.passFuel ((List.finRange 8).foldl (fun t q => t.examine q) s)

/-- The end of a pass: an owed pass begins, or none is in progress (R79, R80). -/
def State.endPass (s : State) : State :=
  if s.passOwed then { s with passOwed := false } else { s with passInProgress := false }

/-- A write of queue `q`'s dispatch state, options or ring marks its standing proposal (R81). -/
def State.markWritten (q : QueueId) (s : State) : State :=
  s.updProposal q (fun x => x.map (fun p => { p with written := true }))

/-- DISPATCH_PASS: the pass in progress runs from its first round to its end (R80). While none is in progress there is
nothing to run (log entry 1). -/
def execDispatchPass (s : State) : Host.Outcome State Fault Refusal :=
  .next (if s.passInProgress then s.pass.endPass else s)

end Sys2Proof.Machine
end

