-- ==== Sys2Proof/Machine/JobRequests.lean ====
section
/-! DEFINITION. The Job Table's requests: ADMIT, PAGE_DATA, PAGE_DISCARD, CLOSE_JOB, CANCEL_JOB, MOVE_JOB, RETRY_JOB and
QUERY_JOB (Chapters 1 and 3). -/

namespace Sys2Proof.Machine

-- ## ADMIT

/-- The lowest-numbered FREE slot (R3). -/
def State.lowestFreeSlot (s : State) : Option SlotId :=
  (List.finRange 256).find? (fun j => s.jobs[j].state == .free)

/-- Where an admitted job joins its queue's list: the tail, or with RUSH directly in front of the first never-started
job (R27). -/
def State.admitPlace (s : State) (rush : Bool) (j : SlotId) (list : List SlotId) : List SlotId :=
  if rush then
    list.takeWhile (fun k => !s.jobs[k].neverStarted) ++ j :: list.dropWhile (fun k => !s.jobs[k].neverStarted)
  else list ++ [j]

/-- The record of an admitted job (R3): the fields of the request, every other field as in a FREE slot. -/
def Job.fromAdmit (q : QueueId) (a : AccountId) (body : List Byte) (clock : Tick) (x : Job) : Job :=
  { Job.freeSlot x.generation with
    state := .waiting
    reason := some .new
    queue := q
    account := a
    stream := (byteAt body 2).getLsbD 0
    rush := (byteAt body 2).getLsbD 1
    double := (byteAt body 2).getLsbD 2
    copies := (byteAt body 3).toNat
    finishing := (byteAt body 4).toNat
    waitSet := marksAt body 5
    giveSet := marksAt body 7
    admitted := clock }

/-- A taken ADMIT: slot `j` holds the new job, which joins its queue's list; the queue asks for a pass (R3, R26, R39). -/
def State.admitJob (j : SlotId) (q : QueueId) (a : AccountId) (body : List Byte) (s : State) : State :=
  ((s.updQueue q (fun x => { x with list := s.admitPlace ((byteAt body 2).getLsbD 1) j x.list })).updJob j
    (Job.fromAdmit q a body s.clock)).askIfRun q

/-- ADMIT's checks in order and its effect (R3). -/
def judgeAdmit (body : List Byte) (s : State) : Judged :=
  match s.lowestFreeSlot with
  | none => .refused .full
  | some j => orRange (queueOf (byteAt body 0)) fun q =>
    if s.queues[q].mode = .disabled then .refused .queueClosed
    else match accountOf (byteAt body 1) with
      | none => .refused .account
      | some a =>
        if s.accounts[a].enabled = false then .refused .account
        else if (byteAt body 3).toNat < 1 ∨ 99 < (byteAt body 3).toNat ∨ 3 < (byteAt body 4).toNat then
          .refused .range
        else if hasBit (marksAt body 5) q.val then .refused .range
        else ok (s.admitJob j q a body) [u8 j.val, s.jobs[j].generation]

/-- ADMIT (R3). -/
def execAdmit (tag : Byte) (body : List Byte) (s : State) : Host.Outcome State Fault Refusal :=
  .next (s.request 0x01 tag body (admitOk body) (judgeAdmit body))

-- ## PAGE_DATA

/-- Step 5 of R56: a page has joined job `j`'s list. -/
def State.afterSeal (j : SlotId) (s : State) : State :=
  match s.jobs[j].state with
  | .starved => s.wake j
  | .active => (match s.jobs[j].feedPort with | none => s | some p => s.offerAttempt p)
  | .waiting => s.askIfRun s.jobs[j].queue
  | _ => s

/-- A taken PAGE_DATA for the record `r` that is or becomes job `j`'s filling page: begun with FIRST, data added,
sealed with LAST (R54, R55, R56). -/
def State.pageData (j : SlotId) (r : RecordId) (first last : Bool) (attr : Byte) (data : List Byte) (s : State) :
    State :=
  let s1 := if first then s.beginPage j r attr else s
  let s2 := s1.appendData r data
  if last then (s2.sealPage j r).afterSeal j else s2

/-- The four reply fields of a taken PAGE_DATA; `t` is the state after it (R57). -/
def pageDataReply (length : Nat) (last : Bool) (place : Nat) (t : State) : List Byte :=
  beBytes 4 length ++ [yesNo last] ++ beBytes 2 (if last then place else 0) ++ beBytes 4 t.freePool.length

/-- Steps 5, 7 and 8 of R53 and the effect, for record `r` holding `old` bytes in `chained` blocks so far. -/
def State.judgeData (s : State) (j : SlotId) (r : RecordId) (first last : Bool) (attr : Byte) (data : List Byte)
    (old chained : Nat) : Judged :=
  if Config.maxPageBytes < old + data.length then .refused .pageLimit
  else if s.freePool.length < blocksFor (old + data.length) - chained then .refused .storeFull
  else
    let t := s.pageData j r first last attr data
    ok t (pageDataReply (old + data.length) last (s.jobs[j].pages.length + 1) t)

/-- PAGE_DATA's checks in order and its effect (R53). -/
def judgePageData (body : List Byte) (s : State) : Judged :=
  s.withHandle body fun j =>
    let x := s.jobs[j]
    let first := (byteAt body 2).getLsbD 0
    let last := (byteAt body 2).getLsbD 1
    let data := body.drop 4
    if x.state = .done ∨ x.state = .cancelling then .refused .state
    else if x.closed then .refused .state
    else if first = x.filling.isSome then .refused .state
    else if Config.maxDataBytes < data.length ∨ (first = true ∧ attrOk (byteAt body 3) = false) then .refused .range
    else match x.filling with
      | some r => s.judgeData j r false last (byteAt body 3) data s.pages[r].length s.pages[r].chain.length
      | none =>
        match s.lowestFreeRecord with
        | none => .refused .pageLimit
        | some r => s.judgeData j r true last (byteAt body 3) data 0 0

/-- PAGE_DATA (R53 to R57). -/
def execPageData (tag : Byte) (body : List Byte) (s : State) : Host.Outcome State Fault Refusal :=
  .next (s.request 0x02 tag body (pageDataOk body) (judgePageData body))

-- ## PAGE_DISCARD

/-- Job `j`'s filling page `r` is dropped (R60). -/
def State.discardPage (j : SlotId) (r : RecordId) (s : State) : State :=
  (s.freePage r).updJob j (fun x => { x with filling := none })

/-- PAGE_DISCARD's checks and its effect (R60). -/
def judgePageDiscard (body : List Byte) (s : State) : Judged :=
  s.withHandle body fun j =>
    if s.jobs[j].state = .done ∨ s.jobs[j].state = .cancelling then .refused .state
    else match s.jobs[j].filling with
      | none => .refused .state
      | some r => ok (s.discardPage j r) (beBytes 4 (s.discardPage j r).freePool.length)

/-- PAGE_DISCARD (R60). -/
def execPageDiscard (tag : Byte) (body : List Byte) (s : State) : Host.Outcome State Fault Refusal :=
  .next (s.request 0x03 tag body (sized 2 body) (judgePageDiscard body))

-- ## CLOSE_JOB

/-- CLOSE_JOB's checks of its own: the job is DONE or CANCELLING, already Closed, filling a page, or without pages
(R14). -/
def Job.closeRefused (x : Job) : Bool :=
  x.state == .done || x.state == .cancelling || x.closed || x.filling.isSome || x.pages.isEmpty

/-- Steps 1 and 2 of R14 on the record: Closed, and the cursor crosses from the end of its copy to the next. -/
def Job.close (x : Job) : Job :=
  if x.pastEnd = true ∧ x.cursorCopy < x.copies ∧ x.proofRun = false then
    { x with closed := true, cursorCopy := x.cursorCopy + 1, cursorPage := 1 }
  else { x with closed := true }

/-- The place holds a page whose sheeted-copy count equals Copies (R63). -/
def State.fullySheeted (s : State) (j : SlotId) (place : Nat) : Bool :=
  match s.jobs[j].pageAt place with
  | none => false
  | some r => s.pages[r].sheeted == s.jobs[j].copies

/-- Step 3 of R14: every page already sheeted in every copy is freed, in place order (R63). -/
def State.freeSheeted (j : SlotId) (s : State) : State :=
  (List.range s.jobs[j].pages.length).foldl
    (fun t i => if t.fullySheeted j (i + 1) then t.freePlace j (i + 1) else t) s

/-- A taken CLOSE_JOB (R14). A WAITING job's queue asks for a pass (R39). -/
def State.closeJob (j : SlotId) (s : State) : State :=
  let s1 := (((s.updJob j Job.close).wake j).freeSheeted j).handedTest j
  if s.jobs[j].state = .waiting then s1.askIfRun s.jobs[j].queue else s1

/-- CLOSE_JOB's checks and its effect (R14). -/
def judgeCloseJob (body : List Byte) (s : State) : Judged :=
  s.withHandle body fun j => if s.jobs[j].closeRefused then .refused .state else ok (s.closeJob j) []

/-- CLOSE_JOB (R14). -/
def execCloseJob (tag : Byte) (body : List Byte) (s : State) : Host.Outcome State Fault Refusal :=
  .next (s.request 0x04 tag body (sized 2 body) (judgeCloseJob body))

-- ## CANCEL_JOB

/-- CANCEL_JOB's checks and its effect (R15). -/
def judgeCancelJob (body : List Byte) (s : State) : Judged :=
  s.withHandle body fun j =>
    if s.jobs[j].state = .done ∨ s.jobs[j].state = .cancelling then .refused .state else ok (s.cancelJob j) []

/-- CANCEL_JOB (R15). -/
def execCancelJob (tag : Byte) (body : List Byte) (s : State) : Host.Outcome State Fault Refusal :=
  .next (s.request 0x05 tag body (sized 2 body) (judgeCancelJob body))

-- ## MOVE_JOB

/-- A position of MOVE_JOB (R20). -/
inductive Position where
  | head | tail
  | after (slot : SlotId)
  deriving DecidableEq, Repr

/-- The target list with job `j` put in; `list` no longer holds it (R20). -/
def Position.place (pos : Position) (j : SlotId) (list : List SlotId) : List SlotId :=
  match pos with
  | .head => j :: list
  | .tail => list ++ [j]
  | .after k => list.takeWhile (fun x => x != k) ++ k :: j :: (list.dropWhile (fun x => x != k)).tail

/-- A taken MOVE_JOB (R20); the target queue asks for a pass if it is in RUN (R39). -/
def State.moveJob (j : SlotId) (q : QueueId) (pos : Position) (s : State) : State :=
  let s1 := s.updQueue s.jobs[j].queue (fun x => { x with list := x.list.filter (fun k => k != j) })
  let s2 := s1.updQueue q (fun x => { x with list := pos.place j x.list })
  (s2.updJob j (fun x => { x with queue := q })).askIfRun q

/-- Steps 3 to 5 of R20 for a target and then the effect at a position. -/
def State.judgeMove (s : State) (j : SlotId) (q : QueueId) (position : Judged) : Judged :=
  if s.jobs[j].state ≠ .waiting then .refused .state
  else if s.queues[q].mode = .disabled then .refused .queueClosed
  else if hasBit s.jobs[j].waitSet q.val then .refused .range
  else position

/-- Steps 6 and 7 of R20: the second handle, and the second job's place in the target list. -/
def State.judgeAfter (s : State) (j : SlotId) (q : QueueId) (slot generation : Byte) : Judged :=
  match s.handleRefusal slot generation with
  | some c => .refused c
  | none =>
    if slotOf slot ∈ s.queues[q].list ∧ slotOf slot ≠ j then ok (s.moveJob j q (.after (slotOf slot))) []
    else .refused .range

/-- MOVE_JOB's checks in order and its effect (R20). -/
def judgeMoveJob (body : List Byte) (s : State) : Judged :=
  s.withHandle body fun j => orRange (queueOf (byteAt body 2)) fun q =>
    if byteAt body 3 = 0 then s.judgeMove j q (ok (s.moveJob j q .head) [])
    else if byteAt body 3 = 1 then s.judgeMove j q (ok (s.moveJob j q .tail) [])
    else if byteAt body 3 = 2 then s.judgeMove j q (s.judgeAfter j q (byteAt body 4) (byteAt body 5))
    else .refused .range

/-- MOVE_JOB (R20). -/
def execMoveJob (tag : Byte) (body : List Byte) (s : State) : Host.Outcome State Fault Refusal :=
  .next (s.request 0x06 tag body (sized 6 body) (judgeMoveJob body))

-- ## RETRY_JOB and QUERY_JOB

/-- RETRY_JOB's check and its effect (R19). -/
def judgeRetryJob (body : List Byte) (s : State) : Judged :=
  s.withHandle body fun j =>
    if s.jobs[j].state = .error then ok (s.makeWaiting j .new) [] else .refused .state

/-- RETRY_JOB (R19). -/
def execRetryJob (tag : Byte) (body : List Byte) (s : State) : Host.Outcome State Fault Refusal :=
  .next (s.request 0x07 tag body (sized 2 body) (judgeRetryJob body))

/-- QUERY_JOB reads the record (R21). -/
def judgeQueryJob (body : List Byte) (s : State) : Judged :=
  s.withHandle body fun j => ok s (s.jobReply j)

/-- QUERY_JOB (R21). -/
def execQueryJob (tag : Byte) (body : List Byte) (s : State) : Host.Outcome State Fault Refusal :=
  .next (s.request 0x08 tag body (sized 2 body) (judgeQueryJob body))

end Sys2Proof.Machine
end

