-- ==== Sys2Proof/Machine/Links.lean ====
section
/-! DEFINITION. A press port's link, setup hold and faults (5.2, 5.6, 5.7): PROBING, bring-up, UP, link loss, order
faults, and the end of a setup hold. -/

namespace Sys2Proof.Machine

/-- The link goes to PROBING, from any link state: one PROBE is sent and Probe due is set 1.0 s on. The receiver hunts
when the link leaves DOWN; elsewhere a partly read frame stays partly read (R84, R85, R166). Leaving UP sets DETACHED
(R88, R106). -/
def State.enterProbing (p : PortId) (s : State) : State :=
  let s1 := (s.updPort p (fun x => { x with
    link := .probing, downCause := none, rateWindow := none
    receiver := if x.link = .down then .hunt else x.receiver
    probeDue := s.clock + Config.probeTicks })).press p .probe
  if s.ports[p].link = .up then s1.flagPort p .detached else s1

/-- A standing SETUP_STALL is withdrawn (R158). -/
def State.withdrawStall (p : PortId) (s : State) : State := s.waitEvent p 0 stallKind

/-- A setup hold ends: Setup becomes absent, the setup timer stops and a standing SETUP_STALL is withdrawn (R88, R102).
Stall reported, which speaks of the present hold, becomes no (R83; log entry 14). -/
def State.endSetup (p : PortId) (s : State) : State :=
  if s.ports[p].setup.isSome then
    (s.updPort p (fun x => { x with setup := none, setupTimer := none, stallReported := false })).withdrawStall p
  else s

/-- The link comes UP (R87). -/
def State.comeUp (p : PortId) (rate : Rate) (depth : Nat) (s : State) : State :=
  ((s.updPort p (fun x => { x with
    link := .up, downCause := none, rate := rate, depth := depth, lastHeard := s.clock, rateWindow := none })).flagPort p
    .attached).askIfClaimable p

/-- The effective depth of a BASE link: the smaller of W and 2 (R85, R86). -/
def baseDepth (w : Nat) : Nat := min w 2

/-- The declared depth W of a port's Ident. -/
def Port.declaredDepth (x : Port) : Nat := (x.ident.map (·.depth)).getD 1

/-- Bring-up begins from an IDENT (R85): the Ident and the loaded media are taken, the path-clear value goes to the
Alert Unit (R154), and the link goes to RATING or comes UP. -/
def State.bringUp (p : PortId) (i : Ident) (loaded : Media) (pathClear : Bool) (s : State) : State :=
  let s1 := s.updPort p (fun x => { x with ident := some i, loaded := loaded, rateWindow := none })
  let s2 := if pathClear && s1.alerts[stopSlot p].isOpen then s1.confirmAttendant p else s1
  if i.fastCapable then
    (s2.updPort p (fun x => { x with link := .rating, lastHeard := s.clock, rateWindow := some 0 })).press p .rateOffer
  else s2.comeUp p .base (baseDepth i.depth)

/-- Port `p` loses its link (R88): the send stops, the setup hold ends, the link goes to PROBING, and LINK_LOST is handed
to the Alert Unit. -/
def State.linkLoss (p : PortId) (s : State) : State :=
  (((s.stopSend p).endSetup p).enterProbing p).stopCondition p .linkLost 0 none

/-- An order fault at port `p` (R98): the send stops, the setup hold ends, the link goes DOWN with cause FAULT, and
ORDER_FAULT is handed to the Alert Unit. -/
def State.orderFault (p : PortId) (s : State) : State :=
  (((s.stopSend p).endSetup p).goDown p .fault).stopCondition p .orderFault 0 none

/-- A SETUP_STALL condition is handed to the Alert Unit, and Stall reported becomes yes (R101, R102). -/
def State.reportStall (p : PortId) (s : State) : State :=
  (s.updPort p (fun x => { x with stallReported := true, setupTimer := none })).waitEvent p stallKind 0

/-- A port asks for a pass when an event has made it claimable that it was not `before` (R74). -/
def State.askIfBecame (p : PortId) (s before : State) : State :=
  if before.claimable p then s else s.askIfClaimable p

/-- A frame from the printer is heard: in RATING or UP it sets Last heard; the receiver hunts for the next (R84). -/
def State.hear (p : PortId) (s : State) : State :=
  s.updPort p (fun x => { x with
    lastHeard := if x.link = .rating ∨ x.link = .up then s.clock else x.lastHeard
    receiver := .hunt })

/-- A printer message that has arrived whole with a good check (R84): not heard on a DOWN link, heard otherwise, and
then discarded unless its fields are within their values and the link state takes its kind. -/
def State.pressMessage (p : PortId) (fieldsOk : Bool) (taken : LinkState → Bool) (act : State → State)
    (s : State) : State :=
  if s.ports[p].link = .down then s
  else if fieldsOk && taken s.ports[p].link then act (s.hear p)
  else s.hear p

/-- The kinds taken only on a link that is UP (R84). -/
def takenUp (l : LinkState) : Bool := l == .up

/-- IDENT is taken in PROBING, RATING and UP (R84). -/
def takenIdent (l : LinkState) : Bool := l != .down

/-- RATE_ECHO is taken in RATING only (R84). -/
def takenEcho (l : LinkState) : Bool := l == .rating

end Sys2Proof.Machine
end

