-- ==== Sys2Proof/Machine/PortRequests.lean ====
section
/-! DEFINITION. The Press Ports' requests: PORT_SERVICE, PORT_RESET, PORT_METERS and QUERY_PORT (5.9 to 5.11). -/

namespace Sys2Proof.Machine

-- ## PORT_SERVICE

/-- Port `p`'s feed is released with cause PORT_SERVICE out: its job becomes WAITING/ROUTE (R8, R105). -/
def State.serviceRelease (p : PortId) (j : SlotId) (s : State) : State :=
  ((s.releaseFeed p j).makeWaiting j .route).feedReleased p

/-- PORT_SERVICE out (R105): out of service, with the hold flag; a held feed is released at once, or owed while an entry
is STREAMING. -/
def State.serviceOut (p : PortId) (hold : Bool) (s : State) : State :=
  let s1 := s.updPort p (fun x => { x with inService := false, holdAsked := hold })
  let s2 := match s.ports[p].feedOwner with
    | none => s1
    | some j =>
      if s.ports[p].window.any (fun e => e.state == EntryState.streaming) then
        s1.updPort p (fun x => { x with releaseOwed := true })
      else s1.serviceRelease p j
  s2.holdTest p

/-- PORT_SERVICE in (R105). A repeated in changes nothing. -/
def State.serviceIn (p : PortId) (s : State) : State :=
  if s.ports[p].inService then s
  else
    let s1 := s.updPort p (fun x => { x with inService := true, holdAsked := false, releaseOwed := false })
    let s2 := if s.ports[p].link = .down ∧ s.ports[p].downCause = some .hold then s1.enterProbing p else s1
    (s2.offerAttempt p).askIfBecame p s

/-- The reply of PORT_SERVICE: service state and link state after it (R105). -/
def State.serviceReply (s : State) (p : PortId) : List Byte := [u8 (s.service p).code, u8 s.ports[p].link.code]

/-- PORT_SERVICE's checks and its effect (R105): direction 0 is out, 1 is in. -/
def judgePortService (body : List Byte) (s : State) : Judged :=
  orRange (portOf (byteAt body 0)) fun p =>
    if byteAt body 1 = 0 then
      let t := s.serviceOut p (byteAt body 2 == 1)
      ok t (t.serviceReply p)
    else if byteAt body 1 = 1 then ok (s.serviceIn p) ((s.serviceIn p).serviceReply p)
    else .refused .range

/-- PORT_SERVICE (R105). -/
def execPortService (tag : Byte) (body : List Byte) (s : State) : Host.Outcome State Fault Refusal :=
  .next (s.request 0x30 tag body (portServiceOk body) (judgePortService body))

-- ## PORT_RESET

/-- Step 3 of R106 for a job without the feed that had entries at the port. -/
def State.resetJob (j : SlotId) (s : State) : State :=
  match s.jobs[j].state with
  | .waiting | .handed => s.makeWaiting j .route
  | .cancelling => if s.hasEntries j then s else s.flagJob j .cancelled
  | _ => s

/-- Steps 1 and 2 of R106: the send and the setup hold end, the window is settled, and its jobs are rewound. -/
def State.resetWindow (p : PortId) (s : State) : State :=
  let s1 := (s.stopSend p).endSetup p
  let es := s1.ports[p].window
  (entryJobs es).foldl (fun t j => t.rewindTo j es) (s1.settleWindow p)

/-- Step 3 of R106: the feed is released, and the other jobs that had entries here change by their states. R106 names no
order among those other jobs. DESIGN CHOICE (log entry 29, unsafe): they come in the order of their oldest entries
(`entryJobs`), seen only in the order in which CANCELLED notices of several CANCELLING jobs join the notice queue. -/
def State.resetJobs (p : PortId) (es : List SendEntry) (owner : Option SlotId) (s : State) : State :=
  let s1 := match owner with
    | none => s
    | some j => s.serviceRelease p j
  ((entryJobs es).filter (fun j => owner != some j)).foldl (fun t j => t.resetJob j) s1

/-- PORT_RESET of port `p` (R106). Its receiver hunts, as after every reset (R84, 1.6.8). R166 says that the HLI's frame
checker hunts after every kind of reset, and 1.6.8 counts PORT_RESET, which acts on one press port, as a kind. DEDUCED
(log entry 30, unsafe): the frame checker and the other ports' receivers stay as they stand. -/
def State.portReset (p : PortId) (s : State) : State :=
  let s1 := (s.resetWindow p).resetJobs p s.ports[p].window s.ports[p].feedOwner
  (s1.updPort p (fun x => { x with holdAsked := false, downCause := none, receiver := .hunt })).enterProbing p

/-- PORT_RESET's check and its effect (R106). -/
def judgePortReset (body : List Byte) (s : State) : Judged :=
  orRange (portOf (byteAt body 0)) fun p => ok (s.portReset p) []

/-- PORT_RESET (R106). -/
def execPortReset (tag : Byte) (body : List Byte) (s : State) : Host.Outcome State Fault Refusal :=
  .next (s.request 0x31 tag body (sized 1 body) (judgePortReset body))

-- ## PORT_METERS and QUERY_PORT

/-- The period set is set to 0 when the close flag is given (R108). -/
def State.closeMeters (p : PortId) (close : Bool) (s : State) : State :=
  if close then s.updPort p (fun x => { x with period := .zero }) else s

/-- PORT_METERS's check and its effect (R108): both sets as they stood. -/
def judgePortMeters (body : List Byte) (s : State) : Judged :=
  orRange (portOf (byteAt body 0)) fun p =>
    ok (s.closeMeters p (byteAt body 1 == 1)) (s.ports[p].lifetime.bytes ++ s.ports[p].period.bytes)

/-- PORT_METERS (R108). -/
def execPortMeters (tag : Byte) (body : List Byte) (s : State) : Host.Outcome State Fault Refusal :=
  .next (s.request 0x32 tag body (portMetersOk body) (judgePortMeters body))

/-- QUERY_PORT reads the port (R109). -/
def judgeQueryPort (body : List Byte) (s : State) : Judged :=
  orRange (portOf (byteAt body 0)) fun p => ok s (s.portReply p)

/-- QUERY_PORT (R109). -/
def execQueryPort (tag : Byte) (body : List Byte) (s : State) : Host.Outcome State Fault Refusal :=
  .next (s.request 0x33 tag body (sized 1 body) (judgeQueryPort body))

end Sys2Proof.Machine
end

