-- ==== Sys2Proof/Machine/PressMessages.lean ====
section
/-! DEFINITION. What the printers send (R84, 5.6, 5.7): one meaning for each message of 11.6, and the frames that are
discarded. A message command stands for a whole frame with a good check that has just arrived (log entry 5). -/

namespace Sys2Proof.Machine

-- ## IDENT and RATE_ECHO

/-- The Ident of a message: a W of 0 is taken as 1 and a W above 8 as 8 (R85). -/
def identOf (classCode caps mediaSet depth : Byte) : Ident where
  classCode := classCode
  colour := caps.getLsbD 0
  duplex := caps.getLsbD 1
  media := mediaSet
  depth := max 1 (min depth.toNat 8)
  fastCapable := caps.getLsbD 2

/-- A taken IDENT (R85, R86): on a link that is UP it is first a link loss (R88). -/
def State.identTaken (p : PortId) (i : Ident) (loaded : Media) (pathClear : Bool) (s : State) : State :=
  ((if s.ports[p].link = .up then s.linkLoss p else s).bringUp p i loaded pathClear).holdTest p

/-- IDENT: capability bits 4–7 are 0 and the loaded media is 0–7 (R183). -/
def execIdent (p : PortId) (classCode caps mediaSet loaded depth : Byte) (s : State) :
    Host.Outcome State Fault Refusal :=
  .next (match mediaOf loaded with
    | none => s.pressMessage p false takenIdent id
    | some m => s.pressMessage p (zeroFrom 4 caps) takenIdent
        (State.identTaken p (identOf classCode caps mediaSet depth) m (caps.getLsbD 3)))

/-- A taken RATE_ECHO: the third one in the window brings the link UP at FAST with depth W (R86). -/
def State.echoTaken (p : PortId) (s : State) : State :=
  match s.ports[p].rateWindow with
  | none => s
  | some n =>
    if n + 1 < 3 then s.updPort p (fun x => { x with rateWindow := some (n + 1) })
    else (s.comeUp p .fast s.ports[p].declaredDepth).holdTest p

/-- RATE_ECHO (R86). -/
def execRateEcho (p : PortId) (s : State) : Host.Outcome State Fault Refusal :=
  .next (s.pressMessage p true takenEcho (State.echoTaken p))

-- ## STATUS

/-- A taken STATUS (R99): a different set replaces the printer status and is one event of the wait slot; a return to
ONLINE makes an offer attempt and may make the port claimable. -/
def State.statusTaken (p : PortId) (r : ReasonSet) (s : State) : State :=
  let old := s.ports[p].status
  if r = old then s
  else
    let s1 := (s.updPort p (fun x => { x with status := r })).waitEvent p (reasonKinds (minusBits r old))
      (reasonKinds (minusBits old r))
    if r = 0 then (s1.offerAttempt p).askIfBecame p s else s1

/-- STATUS: bits 3–7 of the reason set are 0 (R183). -/
def execStatus (p : PortId) (reasons : Byte) (s : State) : Host.Outcome State Fault Refusal :=
  .next (s.pressMessage p (zeroFrom 3 reasons) takenUp (State.statusTaken p (reasons.setWidth 3)))

-- ## TAKEN, SHEET, ABORTED and REFUSE

/-- The window entry with this serial in one of these states. -/
def Port.entryWith (x : Port) (serial : Serial) (inState : SendEntry → Bool) : Option SendEntry :=
  x.window.find? (fun e => e.serial == serial && inState e)

/-- A report of a printer's page progress: discarded on a STOPPED port before the order check; an order fault when it
names no entry of the state it needs (R98). -/
def State.report (p : PortId) (entry : Option SendEntry) (act : SendEntry → State → State) (s : State) : State :=
  if s.service p = .stopped then s
  else match entry with
    | none => (s.orderFault p).holdTest p
    | some e => act e s

/-- The entry becomes TAKEN, and the port's taken faces count it (R94). -/
def Port.takeEntry (e : SendEntry) (x : Port) : Port :=
  Port.count (MeterSet.countTaken e.faces)
    { x with window := x.window.map (fun y => if y.serial = e.serial then { y with state := .taken } else y) }

/-- PORT_SERVICE out's owed release, when the job still holds the feed (R94, R105). -/
def State.owedRelease (p : PortId) (j : SlotId) (s : State) : State :=
  if s.ports[p].releaseOwed = true ∧ s.ports[p].feedOwner = some j then s.serviceRelease p j else s

/-- A passed TAKEN (R94): the test of R9, the owed release, an offer attempt. -/
def State.takenPassed (p : PortId) (e : SendEntry) (s : State) : State :=
  (((((s.updPort p (Port.takeEntry e)).handedTest e.job).owedRelease p e.job).offerAttempt p)).holdTest p

/-- TAKEN (R94). -/
def execTaken (p : PortId) (serial : Serial) (s : State) : Host.Outcome State Fault Refusal :=
  .next (s.pressMessage p true takenUp
    (fun t => t.report p (t.ports[p].entryWith serial SendEntry.unsettled) (State.takenPassed p)))

/-- The oldest entry of the window when it is TAKEN and has this serial (R95). -/
def Port.sheetEntry (x : Port) (serial : Serial) : Option SendEntry :=
  match x.window with
  | [] => none
  | e :: _ => if e.serial = serial ∧ e.state = .taken then some e else none

/-- A passed SHEET: the sheet event, an offer attempt and the hold test (R95). -/
def State.sheetPassed (p : PortId) (e : SendEntry) (s : State) : State :=
  ((s.sheetEvent p e).offerAttempt p).holdTest p

/-- SHEET (R95). -/
def execSheet (p : PortId) (serial : Serial) (s : State) : Host.Outcome State Fault Refusal :=
  .next (s.pressMessage p true takenUp
    (fun t => t.report p (t.ports[p].sheetEntry serial) (State.sheetPassed p)))

/-- The entry is ABORTING. -/
def SendEntry.isAborting (e : SendEntry) : Bool := e.state == .aborting

/-- The ABORTING entry is removed (R96): its faces are released, its job is rewound, and an offer attempt follows. -/
def State.abortedPassed (p : PortId) (e : SendEntry) (s : State) : State :=
  let s1 := (s.releaseFaces e).dropEntry p e
  (((s1.updJob e.job (Job.rewind e.copy e.place)).afterRemoval e.job).offerAttempt p).holdTest p

/-- ABORTED (R96). -/
def execAborted (p : PortId) (serial : Serial) (s : State) : Host.Outcome State Fault Refusal :=
  .next (s.pressMessage p true takenUp
    (fun t => t.report p (t.ports[p].entryWith serial SendEntry.isAborting) (State.abortedPassed p)))

/-- A refused job's record: ERROR with the reason (R18). -/
def Job.refuse (reason : Byte) (x : Job) : Job := { Job.enter .error x with refuseReason := reason }

/-- A passed REFUSE of the STREAMING entry (R97, R18). -/
def State.refusePassed (p : PortId) (reason : Byte) (e : SendEntry) (s : State) : State :=
  let s1 := (s.releaseFaces e).dropEntry p e
  let s2 := (s1.updJob e.job (Job.rewind e.copy e.place)).releaseIfOwner p e.job
  ((((s2.updJob e.job (Job.refuse reason)).flagJob e.job .error).feedReleased p).offerAttempt p).holdTest p

/-- REFUSE: for the STREAMING entry by R97, for the ABORTING entry as ABORTED (R96). -/
def execRefuse (p : PortId) (serial : Serial) (reason : Byte) (s : State) : Host.Outcome State Fault Refusal :=
  .next (s.pressMessage p true takenUp
    (fun t => t.report p (t.ports[p].entryWith serial SendEntry.unsettled)
      (fun e u => if e.isAborting then u.abortedPassed p e else u.refusePassed p reason e)))

-- ## JAM, CLEARED and PRESS_CANCEL

/-- A taken JAM: the send stops, and the stop condition goes to the Alert Unit (R100, 8.3); a setup hold goes on. -/
def State.jamTaken (p : PortId) (location : Byte) (serial : Option Serial) (s : State) : State :=
  ((s.stopSend p).stopCondition p .jam location serial).holdTest p

/-- JAM: the serial-present byte is 0 or 1, and with 0 the serial is not read (R183). -/
def execJam (p : PortId) (location serialPresent : Byte) (serial : Serial) (s : State) :
    Host.Outcome State Fault Refusal :=
  .next (s.pressMessage p (isYesNo serialPresent) takenUp
    (State.jamTaken p location (if serialPresent = 1 then some serial else none)))

/-- A taken CLEARED: the attendant side of an open stop alert whose kinds are all JAM (R153). -/
def State.clearedTaken (p : PortId) (s : State) : State :=
  if s.alerts[stopSlot p].isOpen = true ∧ s.alerts[stopSlot p].onlyJam = true then s.confirmAttendant p else s

/-- CLEARED (R153). -/
def execCleared (p : PortId) (s : State) : Host.Outcome State Fault Refusal :=
  .next (s.pressMessage p true takenUp (State.clearedTaken p))

/-- The job that a PRESS_CANCEL cancels: the feed owner, or the job of the newest entry (R17). -/
def Port.cancelTarget (x : Port) : Option SlotId :=
  match x.feedOwner with
  | some j => some j
  | none => x.window.getLast?.map (·.job)

/-- A taken PRESS_CANCEL (R17). A DONE or FREE slot holds no feed and no entry (R11, R23) and is left as it is. -/
def State.cancelTaken (p : PortId) (s : State) : State :=
  match s.ports[p].cancelTarget with
  | none => s
  | some j =>
    match s.jobs[j].state with
    | .done | .free => s
    | .cancelling => s.flagJob j .atPress
    | .waiting | .active | .starved | .handed | .error => (s.cancelJob j).flagJob j .atPress

/-- PRESS_CANCEL (R17, R100). -/
def execPressCancel (p : PortId) (s : State) : Host.Outcome State Fault Refusal :=
  .next (s.pressMessage p true takenUp (State.cancelTaken p))

-- ## SETUP_DONE

/-- The hold ends with a SETUP_DONE: an offer attempt when the feed is held, a claimable port when it was released, and
the hold test (R102). -/
def State.setupEnds (p : PortId) (s : State) : State := (((s.endSetup p).offerAttempt p).askIfBecame p s).holdTest p

/-- The hold goes on with another media class loaded: the setup timer stops, and SETUP_STALL is handed on unless it has
been (R102). -/
def State.wrongMedia (p : PortId) (s : State) : State :=
  if s.ports[p].stallReported then s.updPort p (fun x => { x with setupTimer := none }) else s.reportStall p

/-- A taken SETUP_DONE (R102): the loaded media in every case, and the hold by its table. -/
def State.setupTaken (p : PortId) (m : Media) (s : State) : State :=
  let s1 := s.updPort p (fun x => { x with loaded := m })
  match s.ports[p].setup with
  | none => s1
  | some awaited =>
    if s.ports[p].feedOwner.isNone ∨ m = awaited then s1.setupEnds p else s1.wrongMedia p

/-- SETUP_DONE: the media class is 0–7 (R183). -/
def execSetupDone (p : PortId) (media : Byte) (s : State) : Host.Outcome State Fault Refusal :=
  .next (match mediaOf media with
    | none => s.pressMessage p false takenUp id
    | some m => s.pressMessage p true takenUp (State.setupTaken p m))

-- ## Frames that are discarded

/-- A checker reads bytes; what it finds, in order (R84). -/
def Checker.readAll (shape : LinkShape) : Checker → List Byte → Checker × List CheckerEvent
  | c, [] => (c, [])
  | c, b :: rest =>
    let r := c.read shape b
    let more := Checker.readAll shape r.1 rest
    (more.1, r.2.toList ++ more.2)

/-- The frame is heard: its check agreed and its length fits its kind (R84). -/
def heardFrame (e : CheckerEvent) : Option (List Byte) :=
  match e with
  | .impossibleLength | .badCheck => none
  | .arrived content => if pressPayloadFits (byteAt content 0) (content.length - 1) then some content else none

/-- The fields of a heard frame are within their values (R84, R183). -/
def fieldsWithin (content : List Byte) : Bool :=
  let kind := byteAt content 0
  if kind = 0x81 then zeroFrom 4 (byteAt content 2) && (mediaOf (byteAt content 4)).isSome
  else if kind = 0x83 then zeroFrom 3 (byteAt content 1)
  else if kind = 0x88 then isYesNo (byteAt content 2)
  else if kind = 0x8B then (mediaOf (byteAt content 1)).isSome
  else true

/-- The link state takes the kind (R84). -/
def LinkState.takesKind (l : LinkState) (kind : Byte) : Bool :=
  match l with
  | .down => false
  | .probing => kind == 0x81
  | .rating => kind == 0x81 || kind == 0x82
  | .up => 0x81 ≤ kind.toNat && kind.toNat ≤ 0x8B && kind != 0x82

/-- A heard frame is taken and not discarded (R84). -/
def LinkState.takesFrame (l : LinkState) (content : List Byte) : Bool :=
  fieldsWithin content && l.takesKind (byteAt content 0)

/-- Frames are discarded (R84): the receiver stands where the bytes leave it, and a frame that was heard sets Last heard
in RATING and UP. -/
def Port.discard (clock : Tick) (bytes : List Byte) (x : Port) : Port :=
  let r := x.receiver.readAll pressShape bytes
  let heard := (r.2.filterMap heardFrame).isEmpty == false
  { x with
    receiver := r.1
    lastHeard := if heard && (x.link == .rating || x.link == .up) then clock else x.lastHeard }

/-- None of the frames that these bytes complete is taken: they are all discarded. -/
def Port.discardsAll (bytes : List Byte) (x : Port) : Bool :=
  ((x.receiver.readAll pressShape bytes).2.filterMap heardFrame).all (fun f => !x.link.takesFrame f)

/-- PRESS_FRAME_DISCARDED (R84). A DOWN link does not hear. Bytes that complete a frame that is taken are no such event,
and here they change nothing (log entry 5). -/
def execPressFrameDiscarded (p : PortId) (bytes : List Byte) (s : State) : Host.Outcome State Fault Refusal :=
  .next (if s.ports[p].link = .down ∨ s.ports[p].discardsAll bytes = false then s
    else s.updPort p (Port.discard s.clock bytes))

end Sys2Proof.Machine
end

