-- ==== Sys2Proof/Machine/QueueRequests.lean ====
section
/-! DEFINITION. The Queue Controller's requests: QUEUE_MODE, QUEUE_DISPATCH, QUEUE_OPTIONS, MARK and QUERY_QUEUE
(Chapter 2). -/

namespace Sys2Proof.Machine

-- ## QUEUE_MODE

/-- One job of a queue that enters HALT: an ACTIVE or STARVED one gives up its feed and its STREAMING entry is aborted
(R30). -/
def State.haltJob (j : SlotId) (s : State) : State :=
  if s.jobs[j].state = .active ∨ s.jobs[j].state = .starved then
    let s1 := s.updJob j (fun x => { x with state := .waiting, reason := some .halt })
    match s.jobs[j].feedPort with
    | none => s1
    | some p => ((s1.releaseFeed p j).abortStreaming p).feedReleased p
  else s

/-- A queue enters HALT (R30). R30 speaks of each of its jobs and of no order among them; here they give up their feeds
in the order of the queue's list, which the order of the ABORTs in the press log shows (DESIGN CHOICE, log entry
28). -/
def State.enterHalt (q : QueueId) (s : State) : State :=
  s.queues[q].list.foldl (fun t j => t.haltJob j) (s.updQueue q (fun x => { x with mode := .halt }))

/-- A queue enters RUN and asks for a pass (R29). -/
def State.enterRun (q : QueueId) (s : State) : State := (s.updQueue q (fun x => { x with mode := .run })).ask

/-- A queue enters LOAD or DISABLED, and its marks are lost (R32, R42). -/
def State.enterClosed (q : QueueId) (m : QueueMode) (s : State) : State :=
  s.updQueue q (fun x => { x with mode := m, received := 0 })

/-- The table of R29 for a change of queue `q` to another mode. -/
def State.changeMode (s : State) (q : QueueId) (m : QueueMode) : Judged :=
  match s.queues[q].mode, m with
  | .disabled, .load | .load, .disabled => ok (s.enterClosed q m) []
  | .disabled, .run | .load, .run | .halt, .run => ok (s.enterRun q) []
  | .run, .halt => ok (s.enterHalt q) []
  | .halt, .disabled | .halt, .load => if s.drained q then ok (s.enterClosed q m) [] else .refused .state
  | .disabled, .halt | .load, .halt | .run, .disabled | .run, .load => .refused .state
  | .disabled, .disabled | .load, .load | .run, .run | .halt, .halt => ok s []

/-- QUEUE_MODE's checks and its effect (R29). -/
def judgeQueueMode (body : List Byte) (s : State) : Judged :=
  orRange (queueOf (byteAt body 0)) fun q =>
    orRange (QueueMode.ofCode (byteAt body 1).toNat) fun m => s.changeMode q m

/-- QUEUE_MODE (R29). -/
def execQueueMode (tag : Byte) (body : List Byte) (s : State) : Host.Outcome State Fault Refusal :=
  .next (s.request 0x10 tag body (sized 2 body) (judgeQueueMode body))

-- ## QUEUE_DISPATCH and QUEUE_OPTIONS

/-- A queue's dispatch state is written; a proposal standing is marked, and a queue in RUN asks (R33, R81). -/
def State.writeDispatch (q : QueueId) (d : DispatchState) (s : State) : State :=
  ((s.updQueue q (fun x => { x with dispatch := d })).markWritten q).askIfRun q

/-- QUEUE_DISPATCH's checks and its effect (R33). -/
def judgeQueueDispatch (body : List Byte) (s : State) : Judged :=
  orRange (queueOf (byteAt body 0)) fun q =>
    orRange (DispatchState.ofCode (byteAt body 1).toNat) fun d => ok (s.writeDispatch q d) []

/-- QUEUE_DISPATCH (R33). -/
def execQueueDispatch (tag : Byte) (body : List Byte) (s : State) : Host.Outcome State Fault Refusal :=
  .next (s.request 0x11 tag body (sized 2 body) (judgeQueueDispatch body))

/-- A queue's options are written; a proposal standing is marked, and a queue in RUN asks (R37, R81). -/
def State.writeOptions (q : QueueId) (rotate reroute : Bool) (s : State) : State :=
  ((s.updQueue q (fun x => { x with rotate := rotate, reroute := reroute })).markWritten q).askIfRun q

/-- QUEUE_OPTIONS's check and its effect (R37): bit 0 is ROTATE and bit 1 REROUTE. -/
def judgeQueueOptions (body : List Byte) (s : State) : Judged :=
  orRange (queueOf (byteAt body 0)) fun q =>
    ok (s.writeOptions q ((byteAt body 1).getLsbD 0) ((byteAt body 1).getLsbD 1)) []

/-- QUEUE_OPTIONS (R37). -/
def execQueueOptions (tag : Byte) (body : List Byte) (s : State) : Host.Outcome State Fault Refusal :=
  .next (s.request 0x12 tag body (queueOptionsOk body) (judgeQueueOptions body))

-- ## MARK and QUERY_QUEUE

/-- MARK's checks in order and its effect (R47); the reply carries the received set. -/
def judgeMark (body : List Byte) (s : State) : Judged :=
  orRange (queueOf (byteAt body 0)) fun q => orRange (senderOf (byteAt body 1)) fun m =>
    if m = q.val then .refused .range
    else if s.queues[q].mode = .run ∨ s.queues[q].mode = .halt then
      ok (s.giveMark q m) (beBytes 2 (s.giveMark q m).queues[q].received.toNat)
    else .refused .state

/-- MARK (R47). -/
def execMark (tag : Byte) (body : List Byte) (s : State) : Host.Outcome State Fault Refusal :=
  .next (s.request 0x13 tag body (sized 2 body) (judgeMark body))

/-- QUERY_QUEUE reads the queue (R48). -/
def judgeQueryQueue (body : List Byte) (s : State) : Judged :=
  orRange (queueOf (byteAt body 0)) fun q => ok s (s.queueReply q)

/-- QUERY_QUEUE (R48). -/
def execQueryQueue (tag : Byte) (body : List Byte) (s : State) : Host.Outcome State Fault Refusal :=
  .next (s.request 0x14 tag body (sized 1 body) (judgeQueryQueue body))

end Sys2Proof.Machine
end

