-- ==== Sys2Proof/Machine/Resets.lean ====
section
/-! DEFINITION. The resets of the whole part: POWER_ON, RESET_PIN (1.6.8, R176) and RESTART_RESET (R180), block by
block. -/

namespace Sys2Proof.Machine

-- ## Power-on and the reset pin

/-- The page data that port `p`'s send in progress has put on its link, if it is stopped now, with the port. -/
def State.cutSend (s : State) (p : PortId) : List (PortId × PressMessage) := (s.stoppedData p).map (fun m => (p, m))

/-- Every block takes its power-on values, with this start cause. The bytes of the DRAM stay (R50). So do the commands
that wait and the model's own records (log entries 2, 7, 11); what the sends in progress had put on the links joins the
press log (log entry 22). -/
def State.coldStart (cause : StartCause) (s : State) : State :=
  { State.reset with
    startCause := cause
    dram := s.dram
    pressLog := s.pressLog ++ (List.finRange 16).flatMap s.cutSend
    freeCount := s.freeCount
    pending := s.pending }

/-- POWER_ON (R176). -/
def execPowerOn (s : State) : Host.Outcome State Fault Refusal := .next (s.coldStart .power)

/-- RESET_PIN: a low level on the reset input, with the effect of a power-on (1.6.8, R176). -/
def execResetPin (s : State) : Host.Outcome State Fault Refusal := .next (s.coldStart .pin)

-- ## The reset of a RESTART, block by block

/-- A job slot at a RESTART (R24). -/
def Job.restart (x : Job) : Job :=
  if x.state = .free then Job.freeSlot x.generation else Job.freeSlot (x.generation + 1)

/-- The mark output at a RESTART: nothing is owed, and the end of a pulse on the line does not change the count
(R45). -/
def MarkLine.restart (m : MarkLine) : MarkLine := { m with owed := 0, counted := false }

/-- A port's meters count the faces of the TAKEN entries of its window as spoiled (R110). -/
def Port.spoilWindow (x : Port) : Port :=
  (x.window.filter (fun e => e.state == .taken)).foldl (fun y e => y.count (MeterSet.countSpoiled e.faces)) x

/-- A press port at a RESTART: its meters with the window spoiled, Last heard, and otherwise a fresh PROBING port whose
first PROBE goes out now (R110, R85). -/
def Port.restart (clock : Tick) (x : Port) : Port :=
  { Port.initial with
    lifetime := x.spoilWindow.lifetime
    period := x.spoilWindow.period
    lastHeard := x.lastHeard
    probeDue := clock + Config.probeTicks }

/-- An account at a RESTART (R143). -/
def Account.restart (x : Account) : Account := { x with reserved := 0 }

/-- The reset of a RESTART: the Job Table (R24), the Queue Controller (R49, R45), the Page Store (R67), the arbiter
(R79), the Press Ports (R110), the Account Table (R143), the Alert Unit (R165), and the HLI (R180, R176). Rows, rings,
tariff pages, timer settings and the Shop Clock are kept. -/
def State.restartReset (s : State) : State :=
  { s with
    checker := .hunt
    inbox := []
    replies := []
    notices := [.part]
    onLink := none
    startInterval := true
    startFlag := true
    partOwed := true
    startCause := .restart
    restarting := false
    jobs := mapTable Job.restart s.jobs
    queues := Vector.replicate 8 .initial
    markLine := s.markLine.restart
    pages := Vector.replicate 4096 .freeRecord
    freePool := fullPool
    proposals := Vector.replicate 8 none
    passInProgress := false
    passOwed := false
    ports := mapTable (Port.restart s.clock) s.ports
    pressLog := s.pressLog ++ (List.finRange 16).flatMap (fun p => s.cutSend p ++ [(p, .probe)])
    accounts := mapTable Account.restart s.accounts
    alerts := Vector.replicate 32 .clear
    openAlerts := [] }

/-- RESTART_RESET: the last byte of the RESTART's reply has been sent (R180). -/
def execRestartReset (s : State) : Host.Outcome State Fault Refusal :=
  .next (if s.restartOnLink then s.restartReset else s)

end Sys2Proof.Machine
end

