-- ==== Sys2Proof/Machine/RouteRequests.lean ====
section
/-! DEFINITION. The Route Table's requests: ROW_WRITE, MEMBER_SET, MEMBER_CLEAR, ROUTE_SET and ROUTE_STEP
(Chapter 4). -/

namespace Sys2Proof.Machine

/-- Row `n` becomes `f` of itself, and the arbiter makes a pass (R69, R70). -/
def State.writeRow (n : Fin 64) (f : PortSet → PortSet) (s : State) : State :=
  { s with rows := s.rows.set n.val (f s.rows[n]) }.ask

/-- The two bytes of a row's set in a reply. -/
def State.rowReply (s : State) (n : Fin 64) : List Byte := beBytes 2 s.rows[n].toNat

/-- ROW_WRITE's check and its effect (R69). -/
def judgeRowWrite (body : List Byte) (s : State) : Judged :=
  orRange (rowOf (byteAt body 0)) fun n =>
    let t := s.writeRow n (fun _ => BitVec.ofNat 16 (wordAt body 1))
    ok t (t.rowReply n)

/-- ROW_WRITE (R69). -/
def execRowWrite (tag : Byte) (body : List Byte) (s : State) : Host.Outcome State Fault Refusal :=
  .next (s.request 0x20 tag body (sized 3 body) (judgeRowWrite body))

/-- MEMBER_SET's checks and its effect (R70). -/
def judgeMemberSet (body : List Byte) (s : State) : Judged :=
  orRange (rowOf (byteAt body 0)) fun n => orRange (portOf (byteAt body 1)) fun p =>
    let t := s.writeRow n (fun x => addBit x p.val)
    ok t (t.rowReply n)

/-- MEMBER_SET (R70). -/
def execMemberSet (tag : Byte) (body : List Byte) (s : State) : Host.Outcome State Fault Refusal :=
  .next (s.request 0x21 tag body (sized 2 body) (judgeMemberSet body))

/-- MEMBER_CLEAR's checks and its effect (R70). -/
def judgeMemberClear (body : List Byte) (s : State) : Judged :=
  orRange (rowOf (byteAt body 0)) fun n => orRange (portOf (byteAt body 1)) fun p =>
    let t := s.writeRow n (fun x => dropBit x p.val)
    ok t (t.rowReply n)

/-- MEMBER_CLEAR (R70). -/
def execMemberClear (tag : Byte) (body : List Byte) (s : State) : Host.Outcome State Fault Refusal :=
  .next (s.request 0x22 tag body (sized 2 body) (judgeMemberClear body))

/-- A queue's ring is written: a standing proposal is marked, and the arbiter makes a pass (R72, R73, R81). -/
def State.writeRing (q : QueueId) (r : Ring) (s : State) : State :=
  ((s.updRing q (fun _ => r)).markWritten q).ask

/-- The ring that a ROUTE_SET asks for: POINT 0, PIN 1, UNPIN 2; none for another action (R72, 11.4). -/
def Ring.asked (r : Ring) (first last current : Nat) (action : Byte) : Option Ring :=
  if action = 0 then some { first := first, last := last, current := current, pinned := r.pinned }
  else if action = 1 then some { first := first, last := last, current := current, pinned := true }
  else if action = 2 then some { first := first, last := last, current := r.current, pinned := false }
  else none

/-- A ring's bounds hold: S ≤ C ≤ E, E at most 63 (R71). -/
def Ring.ordered (r : Ring) : Bool := r.first ≤ r.last && r.last ≤ 63 && r.first ≤ r.current && r.current ≤ r.last

/-- ROUTE_SET's checks and its effect (R72): all three refusals are RANGE. -/
def judgeRouteSet (body : List Byte) (s : State) : Judged :=
  orRange (queueOf (byteAt body 0)) fun q =>
    orRange (s.rings[q].asked (byteAt body 1).toNat (byteAt body 2).toNat (byteAt body 3).toNat (byteAt body 4))
      fun r => if r.ordered then ok (s.writeRing q r) r.bytes else .refused .range

/-- ROUTE_SET (R72). -/
def execRouteSet (tag : Byte) (body : List Byte) (s : State) : Host.Outcome State Fault Refusal :=
  .next (s.request 0x23 tag body (sized 5 body) (judgeRouteSet body))

/-- The ring stepped: NEXT 0, PREV 1; none for another direction (R73, 11.4). -/
def Ring.stepped (r : Ring) (direction : Byte) : Option Ring :=
  if direction = 0 then some { r with current := if r.current = r.last then r.first else r.current + 1 }
  else if direction = 1 then some { r with current := if r.current = r.first then r.last else r.current - 1 }
  else none

/-- ROUTE_STEP's checks and its effect (R73). -/
def judgeRouteStep (body : List Byte) (s : State) : Judged :=
  orRange (queueOf (byteAt body 0)) fun q =>
    orRange (s.rings[q].stepped (byteAt body 1)) fun r => ok (s.writeRing q r) r.bytes

/-- ROUTE_STEP (R73). -/
def execRouteStep (tag : Byte) (body : List Byte) (s : State) : Host.Outcome State Fault Refusal :=
  .next (s.request 0x24 tag body (sized 2 body) (judgeRouteStep body))

end Sys2Proof.Machine
end

