-- ==== Sys2Proof/Machine/TimerEvents.lean ====
section
/-! DEFINITION. What happens by itself: the finishing line's edge and pulses (R45, R46), the Shop Clock and the timers
that expire at its ticks (R177), the rate window, and the end of a send. An expiry falls at the tick at which the clock
equals its expiry tick; at any other tick, and with the timer stopped, nothing happens (log entry 1). -/

namespace Sys2Proof.Machine

-- ## The finishing line

/-- The rising edge of the mark input is one mark of EXT for every queue (R46). -/
def State.markEdge (s : State) : State := (List.finRange 8).foldl (fun t q => t.giveMark q extBit) s

/-- FINISHING_MARK_EDGE: discarded in the start interval (R46, R176). -/
def execFinishingMarkEdge (s : State) : Host.Outcome State Fault Refusal :=
  .next (if s.startInterval then s else s.markEdge)

/-- The high part of the pulse ends (R45). -/
def MarkLine.highEnd (m : MarkLine) : MarkLine := if m.phase = .high then { m with phase := .gap } else m

/-- The pulse ends with its low gap: the count falls by one, and an owed pulse begins (R45). -/
def MarkLine.pulseEnd (m : MarkLine) : MarkLine :=
  if m.phase = .gap then
    MarkLine.begin { owed := if m.counted then m.owed - 1 else m.owed, phase := .idle, counted := true }
  else m

/-- MARK_PULSE_HIGH_END (R45). -/
def execMarkPulseHighEnd (s : State) : Host.Outcome State Fault Refusal :=
  .next { s with markLine := s.markLine.highEnd }

/-- MARK_PULSE_END (R45). -/
def execMarkPulseEnd (s : State) : Host.Outcome State Fault Refusal :=
  .next { s with markLine := s.markLine.pulseEnd }

-- ## The Shop Clock

/-- SHOP_CLOCK_TICK: the clock rises by one and wraps (R177). -/
def execShopClockTick (s : State) : Host.Outcome State Fault Refusal := .next { s with clock := s.clock + 1 }

-- ## Timers of the clock

/-- Port `p`'s starve timer expires: the feed is released, and the job is WAITING/STARVED with STARVED flagged
(R7, R103). -/
def State.starveExpiry (p : PortId) (s : State) : State :=
  match s.ports[p].feedOwner with
  | none => s
  | some j => (((s.releaseFeed p j).makeWaiting j .starved).flagJob j .starved).feedReleased p

/-- STARVE_TIMER_EXPIRY (R103). -/
def execStarveTimerExpiry (p : PortId) (s : State) : Host.Outcome State Fault Refusal :=
  .next (if s.ports[p].starveTimer = some s.clock then s.starveExpiry p else s)

/-- SETUP_TIMER_EXPIRY: SETUP_STALL is handed to the Alert Unit, and the hold goes on (R101). -/
def execSetupTimerExpiry (p : PortId) (s : State) : Host.Outcome State Fault Refusal :=
  .next (if s.ports[p].setupTimer = some s.clock then s.reportStall p else s)

/-- The level after an expiry, and the timer: level 2 runs on with the E2 setting, level 3 stops it (R159). -/
def AlertSlot.escalate (next : Tick) (x : AlertSlot) : AlertSlot :=
  if x.level = 1 then { x with level := 2, timer := some next } else { x with level := 3, timer := none }

/-- Slot `a`'s escalation timer expires on an open, unacknowledged alert (R159). -/
def State.escalate (a : AlertId) (s : State) : State :=
  (s.updAlert a (AlertSlot.escalate (s.clock + secondTicks s.timers.escalation2))).flagAlert a .escalated

/-- ESCALATION_TIMER_EXPIRY (R159). -/
def execEscalationTimerExpiry (a : AlertId) (s : State) : Host.Outcome State Fault Refusal :=
  .next (if s.alerts[a].isOpen = true ∧ s.alerts[a].acknowledged = false ∧ s.alerts[a].timer = some s.clock then
      s.escalate a
    else s)

/-- REROUTE_TICK: the clock reaches the reroute tick of job `j`'s exclusion, and a pass is asked for (R75). -/
def execRerouteTick (j : SlotId) (s : State) : Host.Outcome State Fault Refusal :=
  .next (if s.jobs[j].exclusion.map (·.tick) = some s.clock then s.ask else s)

/-- The next PROBE of a PROBING port (R85). -/
def State.probe (p : PortId) (s : State) : State :=
  (s.updPort p (fun x => { x with probeDue := s.clock + Config.probeTicks })).press p .probe

/-- PROBE_DUE (R85). -/
def execProbeDue (p : PortId) (s : State) : Host.Outcome State Fault Refusal :=
  .next (if s.ports[p].link = .probing ∧ s.ports[p].probeDue = s.clock then s.probe p else s)

/-- The link is in RATING or UP and has heard nothing for 3.0 s (R88). -/
def Port.silent (clock : Tick) (x : Port) : Bool :=
  (x.link == .rating || x.link == .up) && clock == x.lastHeard + Config.silenceTicks

/-- PRESS_SILENCE: the link is lost (R88), and the hold test is made (R89). -/
def execPressSilence (p : PortId) (s : State) : Host.Outcome State Fault Refusal :=
  .next (if s.ports[p].silent s.clock then (s.linkLoss p).holdTest p else s)

-- ## The port's own timing

/-- The rate window closes with fewer than three echoes: BASE, UP, and RATE flagged (R86). -/
def State.rateWindowClose (p : PortId) (s : State) : State :=
  ((s.comeUp p .base (baseDepth s.ports[p].declaredDepth)).flagPort p .rate).holdTest p

/-- RATE_WINDOW_CLOSE (R86). -/
def execRateWindowClose (p : PortId) (s : State) : Host.Outcome State Fault Refusal :=
  .next (if s.ports[p].link = .rating ∧ s.ports[p].rateWindow.isSome = true then s.rateWindowClose p else s)

/-- What the send of entry `e` has put on the press link behind its OFFER: the page's data and PAGE_END (R93, R183). -/
def State.sentMessages (s : State) (e : SendEntry) : List PressMessage := s.entryData e ++ [.pageEnd e.serial]

/-- The send of entry `e` ends with its PAGE_END: Ended becomes yes, and the port makes an offer attempt (R92, R93). -/
def State.sendEnd (p : PortId) (e : SendEntry) (s : State) : State :=
  ((s.pressAll p (s.sentMessages e)).updPort p (fun x => { x with
    window := x.window.map (fun y => if y.serial = e.serial then { y with ended := true } else y)
    sending := none })).offerAttempt p

/-- SEND_END (R93). -/
def execSendEnd (p : PortId) (s : State) : Host.Outcome State Fault Refusal :=
  .next (match s.ports[p].sendingEntry with | none => s | some e => s.sendEnd p e)

end Sys2Proof.Machine
end

