-- ==== Sys2Proof/Machine/Dispatch.lean ====
section
/-! DEFINITION. Which meaning each command has: one arm per constructor of Instr. -/

namespace Sys2Proof.Machine

/-- The effect of a command on everything but the queue of waiting commands. -/
def exec (i : Instr) (s : State) : Host.Outcome State Fault Refusal :=
  match i with
  | .admitJob tag body => Sys2Proof.Machine.execAdmit tag body s
  | .pageData tag body => Sys2Proof.Machine.execPageData tag body s
  | .pageDiscard tag body => Sys2Proof.Machine.execPageDiscard tag body s
  | .closeJob tag body => Sys2Proof.Machine.execCloseJob tag body s
  | .cancelJob tag body => Sys2Proof.Machine.execCancelJob tag body s
  | .moveJob tag body => Sys2Proof.Machine.execMoveJob tag body s
  | .retryJob tag body => Sys2Proof.Machine.execRetryJob tag body s
  | .queryJob tag body => Sys2Proof.Machine.execQueryJob tag body s
  | .queueMode tag body => Sys2Proof.Machine.execQueueMode tag body s
  | .queueDispatch tag body => Sys2Proof.Machine.execQueueDispatch tag body s
  | .queueOptions tag body => Sys2Proof.Machine.execQueueOptions tag body s
  | .mark tag body => Sys2Proof.Machine.execMark tag body s
  | .queryQueue tag body => Sys2Proof.Machine.execQueryQueue tag body s
  | .rowWrite tag body => Sys2Proof.Machine.execRowWrite tag body s
  | .memberSet tag body => Sys2Proof.Machine.execMemberSet tag body s
  | .memberClear tag body => Sys2Proof.Machine.execMemberClear tag body s
  | .routeSet tag body => Sys2Proof.Machine.execRouteSet tag body s
  | .routeStep tag body => Sys2Proof.Machine.execRouteStep tag body s
  | .portService tag body => Sys2Proof.Machine.execPortService tag body s
  | .portReset tag body => Sys2Proof.Machine.execPortReset tag body s
  | .portMeters tag body => Sys2Proof.Machine.execPortMeters tag body s
  | .queryPort tag body => Sys2Proof.Machine.execQueryPort tag body s
  | .tariffWrite tag body => Sys2Proof.Machine.execTariffWrite tag body s
  | .tariffRead tag body => Sys2Proof.Machine.execTariffRead tag body s
  | .accountSet tag body => Sys2Proof.Machine.execAccountSet tag body s
  | .accountCredit tag body => Sys2Proof.Machine.execAccountCredit tag body s
  | .accountClose tag body => Sys2Proof.Machine.execAccountClose tag body s
  | .queryAccount tag body => Sys2Proof.Machine.execQueryAccount tag body s
  | .alertAck tag body => Sys2Proof.Machine.execAlertAck tag body s
  | .alertRelease tag body => Sys2Proof.Machine.execAlertRelease tag body s
  | .queryAlerts tag body => Sys2Proof.Machine.execQueryAlerts tag body s
  | .setTimers tag body => Sys2Proof.Machine.execSetTimers tag body s
  | .queryStore tag body => Sys2Proof.Machine.execQueryStore tag body s
  | .queryPart tag body => Sys2Proof.Machine.execQueryPart tag body s
  | .restart tag body => Sys2Proof.Machine.execRestart tag body s
  | .unknownKindRequest kind tag body => Sys2Proof.Machine.execUnknownKindRequest kind tag body s
  | .hostFrameReceived bytes => Sys2Proof.Machine.execHostFrameReceived bytes s
  | .frameBoundary => Sys2Proof.Machine.execFrameBoundary s
  | .restartReset => Sys2Proof.Machine.execRestartReset s
  | .startIntervalEnd => Sys2Proof.Machine.execStartIntervalEnd s
  | .powerOn => Sys2Proof.Machine.execPowerOn s
  | .resetPin => Sys2Proof.Machine.execResetPin s
  | .finishingMarkEdge => Sys2Proof.Machine.execFinishingMarkEdge s
  | .markPulseEnd => Sys2Proof.Machine.execMarkPulseEnd s
  | .starveTimerExpiry port => Sys2Proof.Machine.execStarveTimerExpiry port s
  | .setupTimerExpiry port => Sys2Proof.Machine.execSetupTimerExpiry port s
  | .escalationTimerExpiry slot => Sys2Proof.Machine.execEscalationTimerExpiry slot s
  | .rerouteTick slot => Sys2Proof.Machine.execRerouteTick slot s
  | .probeDue port => Sys2Proof.Machine.execProbeDue port s
  | .pressSilence port => Sys2Proof.Machine.execPressSilence port s
  | .rateWindowClose port => Sys2Proof.Machine.execRateWindowClose port s
  | .sendEnd port => Sys2Proof.Machine.execSendEnd port s
  | .dispatchPass => Sys2Proof.Machine.execDispatchPass s
  | .ident port cc caps ms loaded depth => Sys2Proof.Machine.execIdent port cc caps ms loaded depth s
  | .rateEcho port => Sys2Proof.Machine.execRateEcho port s
  | .status port reasons => Sys2Proof.Machine.execStatus port reasons s
  | .taken port serial => Sys2Proof.Machine.execTaken port serial s
  | .sheet port serial => Sys2Proof.Machine.execSheet port serial s
  | .aborted port serial => Sys2Proof.Machine.execAborted port serial s
  | .refuse port serial reason => Sys2Proof.Machine.execRefuse port serial reason s
  | .jam port location present serial => Sys2Proof.Machine.execJam port location present serial s
  | .cleared port => Sys2Proof.Machine.execCleared port s
  | .pressCancel port => Sys2Proof.Machine.execPressCancel port s
  | .setupDone port media => Sys2Proof.Machine.execSetupDone port media s
  | .pressFrameDiscarded port bytes => Sys2Proof.Machine.execPressFrameDiscarded port bytes s
  | .shopClockTick => Sys2Proof.Machine.execShopClockTick s
  | .markPulseHighEnd => Sys2Proof.Machine.execMarkPulseHighEnd s

end Sys2Proof.Machine
end

