-- ==== Sys2Proof/Safety.lean ====
section
/-! DEFINITION. The terms in which claims are made: the parts of the state and what keeps them, what a taken request
leaves, and the properties of the part that every step keeps. -/

namespace Sys2Proof.Safety

open Sys2Proof.Machine

-- ## Frames

/-- The parts of the state: one for each of its fields. -/
inductive Part where
  | checker | inbox | replies | notices | onLink | startInterval | startFlag | partOwed | startCause | restarting
  | jobs | queues | markLine | pages | freePool | dram | rows | rings | proposals | passInProgress | passOwed
  | ports | pressLog | tariffs | accounts | alerts | openAlerts | clock | timers | freeCount | pending
  deriving DecidableEq, Repr

/-- A part reads the same in two states. -/
def Part.same (s t : State) : Part → Prop
  | .checker => t.checker = s.checker
  | .inbox => t.inbox = s.inbox
  | .replies => t.replies = s.replies
  | .notices => t.notices = s.notices
  | .onLink => t.onLink = s.onLink
  | .startInterval => t.startInterval = s.startInterval
  | .startFlag => t.startFlag = s.startFlag
  | .partOwed => t.partOwed = s.partOwed
  | .startCause => t.startCause = s.startCause
  | .restarting => t.restarting = s.restarting
  | .jobs => t.jobs = s.jobs
  | .queues => t.queues = s.queues
  | .markLine => t.markLine = s.markLine
  | .pages => t.pages = s.pages
  | .freePool => t.freePool = s.freePool
  | .dram => t.dram = s.dram
  | .rows => t.rows = s.rows
  | .rings => t.rings = s.rings
  | .proposals => t.proposals = s.proposals
  | .passInProgress => t.passInProgress = s.passInProgress
  | .passOwed => t.passOwed = s.passOwed
  | .ports => t.ports = s.ports
  | .pressLog => t.pressLog = s.pressLog
  | .tariffs => t.tariffs = s.tariffs
  | .accounts => t.accounts = s.accounts
  | .alerts => t.alerts = s.alerts
  | .openAlerts => t.openAlerts = s.openAlerts
  | .clock => t.clock = s.clock
  | .timers => t.timers = s.timers
  | .freeCount => t.freeCount = s.freeCount
  | .pending => t.pending = s.pending

/-- Every part but the ones listed reads the same in `t` as in `s`. -/
def KeepsAllBut (parts : List Part) (s t : State) : Prop := ∀ x, x ∉ parts → x.same s t

/-- Every job record but that of slot `j` is the same. -/
def OtherJobsSame (j : SlotId) (s t : State) : Prop := ∀ k, k ≠ j → t.jobs[k] = s.jobs[k]

/-- Every queue record but that of queue `q` is the same. -/
def OtherQueuesSame (q : QueueId) (s t : State) : Prop := ∀ k, k ≠ q → t.queues[k] = s.queues[k]

/-- Every port record but that of port `p` is the same. -/
def OtherPortsSame (p : PortId) (s t : State) : Prop := ∀ k, k ≠ p → t.ports[k] = s.ports[k]

/-- Every account record but that of account `a` is the same. -/
def OtherAccountsSame (a : AccountId) (s t : State) : Prop := ∀ k, k ≠ a → t.accounts[k] = s.accounts[k]

/-- Every alert slot but slot `a` is the same. -/
def OtherAlertsSame (a : AlertId) (s t : State) : Prop := ∀ k, k ≠ a → t.alerts[k] = s.alerts[k]

/-- Every page record but record `r` is the same. -/
def OtherPagesSame (r : RecordId) (s t : State) : Prop := ∀ k, k ≠ r → t.pages[k] = s.pages[k]

/-- A dispatch pass has been asked for (R79): one is in progress, and it was owed already or is owed now if it was. -/
def Asked (s t : State) : Prop :=
  t.passInProgress = true ∧ t.passOwed = (s.passOwed || s.passInProgress)

/-- No dispatch pass has been asked for. -/
def NotAsked (s t : State) : Prop := t.passInProgress = s.passInProgress ∧ t.passOwed = s.passOwed

/-- A pass has been asked for exactly when `b` holds. -/
def AskedIf (b : Prop) (s t : State) : Prop := (b → Asked s t) ∧ (¬b → NotAsked s t)

/-- The HLI takes this request now: it is the oldest of the inbox, a reply place is free (R169), and no RESTART has been
taken (R180). -/
def Takes (s : State) (kind tag : Byte) (body : List Byte) : Prop :=
  s.restarting = false ∧ s.replies.length < 16 ∧ s.inbox.head? = some { kind := kind, tag := tag, body := body }

/-- The one reply of a taken request stands at the tail of the reply queue, and the request has left the inbox
(R169). -/
def Replied (s t : State) (kind tag code : Byte) (fields : List Byte) : Prop :=
  t.inbox = s.inbox.tail ∧ t.replies = s.replies ++ [{ kind := kind, tag := tag, body := code :: fields }]

/-- The command answers a next state of which `post` holds. -/
def Completes (i : Instr) (s : State) (post : State → Prop) : Prop := ∃ t, exec i s = .next t ∧ post t

/-- The taken request is refused with this code alone, and everything but the inbox and the reply queue stands as it
stood (R169, R182). -/
def Refuses (i : Instr) (s : State) (kind tag code : Byte) : Prop :=
  Completes i s (fun t => Replied s t kind tag code [] ∧ KeepsAllBut [.inbox, .replies] s t)

/-- A reply that a frame of the host gets at once, if the reply queue has a free place (R167, R168). -/
def withReplyIfRoom (s : State) (kind tag code : Byte) : State :=
  if s.replies.length < 16 then
    { s with replies := s.replies ++ [{ kind := kind, tag := tag, body := [code] }] }
  else s

-- ## The fields of a reply

/-- Flags packed from bit 0 on, as a number (11.5). -/
def bitsOf : List Bool → Nat
  | [] => 0
  | b :: rest => (if b then 1 else 0) + 2 * bitsOf rest

/-- The bytes hold these fields, each given by its offset, its size and its value: a binary number, most significant
byte first, of which the field keeps what its size can hold (1.6.4, 11.2, 11.5). -/
def HasFields (bytes : List Byte) (table : List (Nat × Nat × Nat)) : Prop :=
  ∀ x ∈ table, x.1 + x.2.1 ≤ bytes.length ∧ beValue ((bytes.drop x.1).take x.2.1) = x.2.2 % 256 ^ x.2.1

/-- The bytes from this offset on, `size` of them, are the packed decimal digits of this number, of which they keep what
their size can hold (1.6.3). -/
def HasDecimal (bytes : List Byte) (offset size value : Nat) : Prop :=
  offset + size ≤ bytes.length ∧ (∀ b ∈ (bytes.drop offset).take size, digitsOk b = true) ∧
    bcdValue ((bytes.drop offset).take size) = value % 100 ^ size

/-- The optional port field: 255 when absent (11.2). -/
def optPort (p : Option PortId) : Nat := (p.map (fun x => x.val)).getD 255

/-- The tick of a timer, 0 when it is stopped (11.5). -/
def tickOf (t : Option Tick) : Nat := (t.map BitVec.toNat).getD 0

/-- The bytes are the 35 of a job notice of slot `j`, with every field of the record as it stands (11.5). The Refuse
reason is shown only when ERROR is among the flags (R174). -/
def JobNoticeOf (s : State) (j : SlotId) (body : List Byte) : Prop :=
  body.length = 35 ∧ HasDecimal body 27 6 s.jobs[j].charge ∧ HasFields body [
    (0, 1, j.val), (1, 1, s.jobs[j].generation.toNat), (2, 2, s.jobs[j].flags.toNat), (4, 1, s.jobs[j].state.code),
    (5, 1, WaitReason.code s.jobs[j].reason), (6, 1, s.jobs[j].queue.val), (7, 1, s.jobs[j].cursorCopy),
    (8, 2, s.jobs[j].cursorPage), (10, 1, optPort s.jobs[j].feedPort),
    (11, 1, optPort (s.jobs[j].exclusion.map (fun e => e.port))),
    (12, 4, tickOf (s.jobs[j].exclusion.map (fun e => e.tick))), (16, 3, s.jobs[j].sheets), (19, 3, s.jobs[j].faces),
    (22, 3, s.jobs[j].proofFaces), (25, 1, s.jobs[j].copiesDone), (26, 1, s.jobs[j].proofsDone),
    (33, 1, bitsOf [s.jobs[j].saturated]),
    (34, 1, if hasBit s.jobs[j].flags 4 then s.jobs[j].refuseReason.toNat else 0)]

-- ## The form of a request's body

/-- The size of the body of each request but PAGE_DATA (11.3). -/
def bodySize (kind : Byte) : Nat :=
  if kind = 0x01 ∨ kind = 0x70 then 9
  else if kind = 0x06 then 6
  else if kind = 0x14 ∨ kind = 0x31 ∨ kind = 0x33 ∨ kind = 0x52 ∨ kind = 0x53 ∨ kind = 0x60 ∨ kind = 0x61 then 1
  else if kind = 0x20 ∨ kind = 0x30 then 3
  else if kind = 0x23 then 5
  else if kind = 0x40 then 13
  else if kind = 0x41 ∨ kind = 0x51 then 4
  else if kind = 0x50 then 8
  else if kind = 0x62 ∨ kind = 0x71 ∨ kind = 0x72 ∨ kind = 0x73 then 0
  else 2

/-- A bit of the body that 11.2 and 11.3 mark 0 is 1, or a yes/no byte is above 1 (R182). -/
def bodyBits (kind : Byte) (body : List Byte) : Prop :=
  (kind = 0x01 ∧ (8 ≤ (byteAt body 2).toNat ∨ 2 ≤ (byteAt body 5).toNat ∨ 2 ≤ (byteAt body 7).toNat)) ∨
    (kind = 0x02 ∧ 4 ≤ (byteAt body 2).toNat) ∨
    ((kind = 0x12 ∨ kind = 0x50) ∧ 4 ≤ (byteAt body 1).toNat) ∨
    (kind = 0x30 ∧ 2 ≤ (byteAt body 2).toNat) ∨ (kind = 0x32 ∧ 2 ≤ (byteAt body 1).toNat) ∨
    (kind = 0x40 ∧ 2 ≤ (byteAt body 4).toNat)

/-- The body fails step 2 of R169: it has the wrong size or breaks an encoding. -/
def badForm (kind : Byte) (body : List Byte) : Prop :=
  (if kind = 0x02 then body.length < 4 else body.length ≠ bodySize kind) ∨ bodyBits kind body

/-- The handle in two bytes of a body names the job of slot `j` (R2). -/
def Names (s : State) (slot generation : Byte) (j : SlotId) : Prop :=
  slot.toNat = j.val ∧ generation = s.jobs[j].generation ∧ s.jobs[j].state ≠ .free

-- ## What PAGE_DATA works on

/-- The record that a PAGE_DATA adds its data to: with FIRST a new page of the frame's attributes, else the filling page
as it stands (R54, R55, 11.2). -/
def dataRecord (s : State) (body : List Byte) (j : SlotId) (r : RecordId) : PageRecord :=
  if hasBit (byteAt body 2) 0 then
    { state := .filling, owner := some j, media := ⟨(byteAt body 3).toNat % 8, by omega⟩
      sides := if hasBit (byteAt body 3) 3 then 2 else 1
      colour := if (byteAt body 3).toNat / 16 = 0 then .mono else if (byteAt body 3).toNat / 16 = 1 then .spot else .full
      length := 0, chain := [], place := none, sheeted := 0 }
  else s.pages[r]

/-- The new blocks that a PAGE_DATA takes: those of its length so far, 1,024 bytes each and rounded up, less the blocks
that the page has (R51, R55). -/
def newBlocks (s : State) (body : List Byte) (j : SlotId) (r : RecordId) : Nat :=
  ((dataRecord s body j r).length + (body.drop 4).length + 1023) / 1024 - (dataRecord s body j r).chain.length

/-- A PAGE_DATA passes every check of R53, for job `j` and page record `r`: with FIRST the lowest-numbered FREE record,
else the job's filling page. -/
def PageDataPasses (s : State) (body : List Byte) (j : SlotId) (r : RecordId) : Prop :=
  Names s (byteAt body 0) (byteAt body 1) j ∧ s.jobs[j].state ≠ .done ∧ s.jobs[j].state ≠ .cancelling ∧
    s.jobs[j].closed = false ∧ (body.drop 4).length ≤ 4096 ∧
    (if hasBit (byteAt body 2) 0 then
      s.jobs[j].filling = none ∧ (byteAt body 3).toNat < 48 ∧ s.pages[r].state = .free ∧
        ∀ k : RecordId, k < r → s.pages[k].state ≠ .free
    else s.jobs[j].filling = some r) ∧
    (dataRecord s body j r).length + (body.drop 4).length ≤ 16777216 ∧ newBlocks s body j r ≤ s.freePool.length

-- ## What a port puts on its press link

/-- These messages are what a send in progress at port `p` leaves on the link when it is stopped: nothing where there is
none, and otherwise the first page-data frames of 1,024 bytes of the page being sent, for some number of them, which
R183 leaves open (log entry 22). -/
def CutShort (s : State) (p : PortId) (ms : List PressMessage) : Prop :=
  ∃ n : Nat, ms = (match s.ports[p].sendingEntry with
    | none => []
    | some e => match s.jobs[e.job].pageAt e.place with
      | none => []
      | some r => (List.range (((s.readOut r).length + 1023) / 1024)).map
          (fun i => PressMessage.pageData e.serial (((s.readOut r).drop (1024 * i)).take 1024))).take n

/-- Port `p` has put these messages on its link, and no port any other (log entry 7). -/
def Sent (s t : State) (p : PortId) (ms : List PressMessage) : Prop :=
  t.pressLog = s.pressLog ++ ms.map (fun m => (p, m))

/-- Port `p` aborts its STREAMING entry, if it has one (R96, R183): the entry is ABORTING, a send of one that is not ended
has stopped, and its page data so far and then the ABORT have gone out. -/
def StreamingAborted (s t : State) (p : PortId) : Prop :=
  t.ports[p].window = s.ports[p].window.map
    (fun e => if e.state = .streaming then { e with state := .aborting } else e) ∧
    match s.ports[p].window.find? (fun e => e.state == .streaming) with
    | none => t.ports[p].sending = s.ports[p].sending ∧ Sent s t p []
    | some e => t.ports[p].sending = (if e.ended then s.ports[p].sending else none) ∧
        ∃ ms, (e.ended = true → ms = []) ∧ CutShort s p ms ∧ Sent s t p (ms ++ [.abort e.serial])

-- ## What an offer attempt does

/-- Port `p` makes no offer for its feed owner `j`: by steps 1 and 2 of R92 the port is not FEEDING in service on a link
that is UP, has an unsettled entry or a send in progress; by step 3 `j` is not ACTIVE or is sent out. -/
def NoAttempt (s : State) (p : PortId) (j : SlotId) : Prop :=
  s.ports[p].link ≠ .up ∨ s.ports[p].inService = false ∨ s.service p ≠ .feeding ∨
    (∃ e ∈ s.ports[p].window, e.state ≠ .taken) ∨ s.ports[p].sending ≠ none ∨ s.jobs[j].state ≠ .active ∨
    (s.jobs[j].closed = true ∧ s.jobs[j].pages.length < s.jobs[j].cursorPage ∧
      s.jobs[j].cursorCopy = if s.jobs[j].proofRun then 1 else s.jobs[j].copies)

/-- Port `p`, job `j`, the accounts and the press log are as they were. -/
def AttemptIdle (s t : State) (p : PortId) (j : SlotId) : Prop :=
  t.ports[p] = s.ports[p] ∧ t.jobs[j] = s.jobs[j] ∧ t.accounts = s.accounts ∧ Sent s t p []

/-- Port `p`'s feed is released in an offer attempt, and its owner `j` becomes WAITING with this reason, with this flag if
there is one (R8, R104). -/
def AttemptReleases (s t : State) (p : PortId) (j : SlotId) (why : WaitReason) (flag : Option Nat) : Prop :=
  t.ports[p] = { s.ports[p] with feedOwner := none, starveTimer := none, releaseOwed := false } ∧
    t.jobs[j] = { s.jobs[j] with
      state := .waiting, reason := some why, feedPort := none
      flags := (match flag with | none => s.jobs[j].flags | some k => addBit s.jobs[j].flags k)
      noticeOwed := s.jobs[j].noticeOwed || flag.isSome } ∧
    (flag ≠ none → s.jobs[j].noticeOwed = false → Source.job j ∈ t.notices) ∧
    (s.queues[s.jobs[j].queue].mode = .run → t.passInProgress = true) ∧ t.accounts = s.accounts ∧ Sent s t p []

/-- The page of record `r`, at the cursor of job `j`, is offered by port `p`: its faces are reserved, a STREAMING entry
with the next serial joins the window, the cursor advances and the OFFER goes out (R6, R93, R134). -/
def AttemptOffers (s t : State) (p : PortId) (j : SlotId) (r : RecordId) : Prop :=
  t.ports[p] = { s.ports[p] with
    nextSerial := s.ports[p].nextSerial + 1, sending := some s.ports[p].nextSerial
    window := s.ports[p].window ++ [{
      serial := s.ports[p].nextSerial, job := j, place := s.jobs[j].cursorPage, copy := s.jobs[j].cursorCopy
      faces := s.pages[r].sides, colour := s.pages[r].colour, state := .streaming, ended := false }] } ∧
    t.jobs[j] = (if s.jobs[j].pages.length = s.jobs[j].cursorPage ∧ s.jobs[j].closed = true ∧
        s.jobs[j].proofRun = false ∧ s.jobs[j].cursorCopy < s.jobs[j].copies then
      { s.jobs[j] with cursorCopy := s.jobs[j].cursorCopy + 1, cursorPage := 1 }
      else { s.jobs[j] with cursorPage := s.jobs[j].cursorPage + 1 }) ∧
    t.accounts[s.jobs[j].account] = { s.accounts[s.jobs[j].account] with
      reserved := s.accounts[s.jobs[j].account].reserved + s.pages[r].sides } ∧
    OtherAccountsSame s.jobs[j].account s t ∧
    Sent s t p [.offer s.ports[p].nextSerial (u8 j.val) (u8 s.jobs[j].cursorCopy) s.pages[r].attr s.pages[r].length]

/-- An offer attempt of port `p` for its feed owner `j`, from state `s` to state `t`, by the steps of R92. Where no offer
can be made, or the window is full, nothing happens. Without a sendable page `j` is STARVED and the starve timer starts
(R7, R103). A page that the Ident does not cover ends the feed with reason ROUTE, another media class than the loaded
one begins a setup hold (R101), a reservation that fails is an allowance stop (R135), and otherwise the page is
offered. -/
def Attempted (s t : State) (p : PortId) (j : SlotId) : Prop :=
  OtherJobsSame j s t ∧ OtherPortsSame p s t ∧ (NoAttempt s p j → AttemptIdle s t p j) ∧
    (¬NoAttempt s p j →
      (s.jobs[j].nextPage = none →
        t.ports[p] = { s.ports[p] with starveTimer := some (s.clock + BitVec.ofNat 32 s.timers.starve) } ∧
          t.jobs[j] = { s.jobs[j] with state := .starved, reason := none } ∧ t.accounts = s.accounts ∧
          Sent s t p []) ∧
      ∀ (r : RecordId) (covered fits : Bool), s.jobs[j].nextPage = some r →
        covered = (match s.ports[p].ident with | none => false | some i => i.covers s.pages[r]) →
        fits = (s.accounts[s.jobs[j].account].unmetered || decide (s.accounts[s.jobs[j].account].reserved +
          s.pages[r].sides ≤ s.accounts[s.jobs[j].account].allowance)) →
        if s.ports[p].depth ≤ s.ports[p].window.length then AttemptIdle s t p j
        else if covered = false then AttemptReleases s t p j .route none
        else if s.ports[p].loaded ≠ s.pages[r].media then
          t.ports[p] = { s.ports[p] with
            setup := some s.pages[r].media, stallReported := false
            setupTimer := some (s.clock + BitVec.ofNat 32 (10 * s.timers.setupStall)) } ∧
            t.jobs[j] = s.jobs[j] ∧ t.accounts = s.accounts ∧ Sent s t p [.setup s.pages[r].media]
        else if fits = true then AttemptOffers s t p j r
        else AttemptReleases s t p j .allowance (some 5))

-- ## What a dispatch examination finds

/-- Job `j` may claim port `p`, by the four conditions of R76: `p` is UP and READY; its Ident covers the job's Needs; an
exclusion, if there is one, names another port, in a queue with REROUTE on, and its reroute tick has come (R75); and the
job's entries, if there are any, stand at `p`. -/
def MayClaim (s : State) (p : PortId) (j : SlotId) : Prop :=
  s.ports[p].link = .up ∧ s.service p = .ready ∧
    (∃ i, s.ports[p].ident = some i ∧ (s.jobs[j].needsColour = true → i.colour = true) ∧
      (s.jobs[j].needsDuplex = true → i.duplex = true) ∧
      ∀ m : Media, hasBit s.jobs[j].needsMedia m.val = true → hasBit i.media m.val = true) ∧
    (∀ x, s.jobs[j].exclusion = some x → x.port ≠ p ∧ s.queues[s.jobs[j].queue].reroute = true ∧
      (s.clock - x.tick).toNat < 2147483648) ∧
    ((∃ e ∈ s.ports[p].window, e.job = j) ∨ ∀ (k : PortId) (e : SendEntry), e ∈ s.ports[k].window → e.job ≠ j)

/-- Job `j` is passed over by an examination of queue `q` and keeps its reason: tests 2 to 5 of R38. -/
def PassedOver (s : State) (q : QueueId) (j : SlotId) : Prop :=
  s.jobs[j].state ≠ .waiting ∨ (s.jobs[j].closed = false ∧ s.jobs[j].stream = false) ∨ s.jobs[j].nextPage = none ∨
    (s.jobs[j].started = false ∧ s.jobs[j].proofRun = false ∧ (s.queues[q].dispatch = .hold ∨
      (s.queues[q].dispatch = .proof ∧ s.jobs[j].closed = false)))

/-- A WAITING, never-started, Closed job with a sendable page whose wait set is not in the received set of its queue,
which is in STEP or FREE: it fails test 6 of R38. -/
def LacksMarks (s : State) (q : QueueId) (j : SlotId) : Prop :=
  s.jobs[j].state = .waiting ∧ s.jobs[j].closed = true ∧ s.jobs[j].nextPage ≠ none ∧ s.jobs[j].started = false ∧
    s.jobs[j].proofRun = false ∧ (s.queues[q].dispatch = .step ∨ s.queues[q].dispatch = .free) ∧
    subBits s.jobs[j].waitSet s.queues[q].received = false

/-- Job `j` of queue `q` passes every test of R38 with port `p`, found in row `n`, for the page of record `r`: the row is
the ring's current one, or one up to its end before which no row has a port that the job may claim. -/
def Dispatchable (s : State) (q : QueueId) (j : SlotId) (p : PortId) (n : Fin 64) (r : RecordId) : Prop :=
  s.queues[q].mode = .run ∧ s.jobs[j].state = .waiting ∧ s.jobs[j].queue = q ∧
    (s.jobs[j].closed = true ∨ s.jobs[j].stream = true) ∧ s.jobs[j].nextPage = some r ∧
    (s.jobs[j].started = true ∨ s.jobs[j].proofRun = true ∨
      ((s.queues[q].dispatch = .step ∨ s.queues[q].dispatch = .free) ∧
        subBits s.jobs[j].waitSet s.queues[q].received = true) ∨
      (s.queues[q].dispatch = .proof ∧ s.jobs[j].closed = true)) ∧
    (s.accounts[s.jobs[j].account].unmetered = true ∨
      s.accounts[s.jobs[j].account].reserved + s.pages[r].sides ≤ s.accounts[s.jobs[j].account].allowance) ∧
    (∀ (k : PortId) (e : SendEntry), e ∈ s.ports[k].window → e.job = j → k = p) ∧
    (∀ x, s.jobs[j].exclusion = some x →
      x.port ≠ p ∧ s.queues[q].reroute = true ∧ (s.clock - x.tick).toNat < 2147483648) ∧
    s.ports[p].link = .up ∧ s.service p = .ready ∧
    (∃ i, s.ports[p].ident = some i ∧ i.coversNeeds s.jobs[j] = true ∧ i.covers s.pages[r] = true) ∧
    hasBit s.rows[n] p.val = true ∧ (∀ k : PortId, k < p → hasBit s.rows[n] k.val = true → ¬MayClaim s k j) ∧
    s.rings[q].current ≤ n.val ∧ n.val ≤ s.rings[q].last ∧ (s.rings[q].pinned = true → n.val = s.rings[q].current) ∧
    ∀ (m : Fin 64) (k : PortId), s.rings[q].current ≤ m.val → m.val < n.val → hasBit s.rows[m] k.val = true →
      ¬MayClaim s k j

/-- A grant of port `p`, found in row `n`, to job `j` of queue `q` (R5, R40, R43, R78, R82): the job is ACTIVE with the
feed; a first real start makes it Started, consumes its marks and turns STEP to HOLD; a proof start begins a proof run
and turns PROOF to HOLD; a reclaim does none of these. -/
def Granted (s t : State) (q : QueueId) (j : SlotId) (p : PortId) (n : Fin 64) : Prop :=
  (∀ first proof : Bool,
    first = (!s.jobs[j].started && !s.jobs[j].proofRun && s.queues[q].dispatch != .proof) →
    proof = (!s.jobs[j].started && !s.jobs[j].proofRun && s.queues[q].dispatch == .proof) →
    t.jobs[j] = { s.jobs[j] with
      state := .active, reason := none, feedPort := some p, started := s.jobs[j].started || first
      proofRun := s.jobs[j].proofRun || proof, portsUsed := addBit s.jobs[j].portsUsed p.val
      cursorCopy := t.jobs[j].cursorCopy, cursorPage := t.jobs[j].cursorPage } ∧
    t.queues[q] = { s.queues[q] with
      received := if first then minusBits s.queues[q].received s.jobs[j].waitSet else s.queues[q].received
      dispatch := if proof || (first && s.queues[q].dispatch == .step) then .hold else s.queues[q].dispatch }) ∧
    t.ports[p].feedOwner = some j ∧
    t.rings[q] = { s.rings[q] with current :=
      if s.rings[q].pinned = false ∧ s.queues[q].rotate = true then
        (if n.val = s.rings[q].last then s.rings[q].first else n.val + 1)
      else s.rings[q].current } ∧
    (t.ports[p].window = s.ports[p].window ∨ ∃ e : SendEntry, t.ports[p].window = s.ports[p].window ++ [e] ∧
      e.job = j ∧ e.state = .streaming ∧ e.place = s.jobs[j].cursorPage ∧ e.copy = s.jobs[j].cursorCopy)

-- ## What a stop does

/-- The cursor of job `j` after the entries of port `p`'s window have left without a sheet: the earlier of where it
stands and its oldest entry there; a CANCELLING job keeps its cursor (R13). -/
def cursorAfter (s : State) (p : PortId) (j : SlotId) : Nat × Nat :=
  match s.ports[p].window.find? (fun e => e.job == j) with
  | none => (s.jobs[j].cursorCopy, s.jobs[j].cursorPage)
  | some e =>
    if s.jobs[j].state ≠ .cancelling ∧ (e.copy < s.jobs[j].cursorCopy ∨
        (e.copy = s.jobs[j].cursorCopy ∧ e.place < s.jobs[j].cursorPage)) then (e.copy, e.place)
    else (s.jobs[j].cursorCopy, s.jobs[j].cursorPage)

/-- The faces of the entries of port `p`'s window that `keep` chooses. -/
def windowFaces (s : State) (p : PortId) (keep : SendEntry → Bool) : Nat :=
  ((s.ports[p].window.filter keep).map (fun e => e.faces)).sum

/-- Port `p`'s window is settled with no entry confirmed, and its feed is released (R104, R106, R150): the faces of the
TAKEN entries are spoiled on both meter sets, and every entry's reservation is released. -/
def WindowSettled (s t : State) (p : PortId) : Prop :=
  t.ports[p].window = [] ∧ t.ports[p].sending = none ∧ t.ports[p].feedOwner = none ∧
    t.ports[p].starveTimer = none ∧ (s.ports[p].feedOwner ≠ none → t.ports[p].releaseOwed = false) ∧
    t.ports[p].nextSerial = s.ports[p].nextSerial ∧
    t.ports[p].lifetime = { s.ports[p].lifetime with spoiled := t.ports[p].lifetime.spoiled } ∧
    t.ports[p].period = { s.ports[p].period with spoiled := t.ports[p].period.spoiled } ∧
    (s.ports[p].lifetime.spoiled < 1000000000 → t.ports[p].lifetime.spoiled =
      (s.ports[p].lifetime.spoiled + windowFaces s p (fun e => e.state == .taken)) % 1000000000) ∧
    (s.ports[p].period.spoiled < 1000000000 → t.ports[p].period.spoiled =
      (s.ports[p].period.spoiled + windowFaces s p (fun e => e.state == .taken)) % 1000000000) ∧
    ∀ a : AccountId, t.accounts[a] = { s.accounts[a] with
      reserved := s.accounts[a].reserved - windowFaces s p (fun e => s.jobs[e.job].account == a) }

/-- Job `j` holds port `p`'s feed or has an entry in its window. -/
def AtPort (s : State) (p : PortId) (j : SlotId) : Prop :=
  s.ports[p].feedOwner = some j ∨ ∃ e ∈ s.ports[p].window, e.job = j

/-- A job that goes back to WAITING when its port's window is settled: every one that is not ERROR or CANCELLING
(R106, R151). -/
def goesBack (x : Job) : Prop := x.state = .active ∨ x.state = .starved ∨ x.state = .waiting ∨ x.state = .handed

/-- The jobs at port `p` are stopped by an alert (R151), and every other job is as it was. -/
def JobsStopped (s t : State) (p : PortId) : Prop :=
  (∀ j : SlotId, AtPort s p j →
    t.jobs[j].feedPort = none ∧ (t.jobs[j].cursorCopy, t.jobs[j].cursorPage) = cursorAfter s p j ∧
    t.jobs[j].exclusion = some { port := p, tick := s.clock + BitVec.ofNat 32 (10 * s.timers.reroute) } ∧
    (goesBack s.jobs[j] → t.jobs[j].state = .waiting ∧ t.jobs[j].reason = some .jam) ∧
    (s.jobs[j].state = .error ∨ s.jobs[j].state = .cancelling → t.jobs[j].state = s.jobs[j].state) ∧
    hasBit t.jobs[j].flags 2 = (hasBit s.jobs[j].flags 2 || s.jobs[j].state == .cancelling) ∧
    hasBit t.jobs[j].flags 6 = (hasBit s.jobs[j].flags 6 || s.queues[s.jobs[j].queue].reroute) ∧
    t.jobs[j].started = s.jobs[j].started ∧ t.jobs[j].proofRun = s.jobs[j].proofRun ∧
    t.jobs[j].charge = s.jobs[j].charge ∧
    ({ slot := j, generation := s.jobs[j].generation } : Handle) ∈ t.alerts[stopSlot p].affected) ∧
  ∀ j : SlotId, ¬AtPort s p j → t.jobs[j] = s.jobs[j]

/-- Port `p`'s stop slot takes a stop condition of kind `k` with this location: a CLEAR slot opens (R146), and an OPEN one
takes it in (R147). -/
def StopRaised (s t : State) (p : PortId) (k : AlertKind) (location : Byte) : Prop :=
  t.alerts[stopSlot p].isOpen = true ∧ hasBit t.alerts[stopSlot p].flags 0 = true ∧
    t.alerts[stopSlot p].noticeOwed = true ∧ t.alerts[stopSlot p].attendant = false ∧
    (s.alerts[stopSlot p].isOpen = false →
      t.alerts[stopSlot p].primary = some k ∧ t.alerts[stopSlot p].additional = 0 ∧
      t.alerts[stopSlot p].standing = 0 ∧ t.alerts[stopSlot p].location = (if k = .jam then location else 0) ∧
      t.alerts[stopSlot p].raised = s.clock ∧ t.alerts[stopSlot p].level = 1 ∧
      t.alerts[stopSlot p].acknowledged = false ∧ t.alerts[stopSlot p].hostReleased = false ∧
      t.alerts[stopSlot p].repeats = 0 ∧
      t.alerts[stopSlot p].timer = some (s.clock + BitVec.ofNat 32 (10 * s.timers.escalation1)) ∧
      t.openAlerts.getLast? = some (stopSlot p)) ∧
    (s.alerts[stopSlot p].isOpen = true →
      t.alerts[stopSlot p].primary = s.alerts[stopSlot p].primary ∧
      t.alerts[stopSlot p].additional = (if s.alerts[stopSlot p].primary = some k then s.alerts[stopSlot p].additional
        else addBit s.alerts[stopSlot p].additional k.bit) ∧
      t.alerts[stopSlot p].repeats = min (s.alerts[stopSlot p].repeats + 1) 255 ∧
      t.alerts[stopSlot p].location = (if k = .jam then location else s.alerts[stopSlot p].location) ∧
      t.alerts[stopSlot p].raised = s.alerts[stopSlot p].raised ∧
      t.alerts[stopSlot p].level = s.alerts[stopSlot p].level ∧
      t.alerts[stopSlot p].acknowledged = s.alerts[stopSlot p].acknowledged ∧
      t.alerts[stopSlot p].hostReleased = s.alerts[stopSlot p].hostReleased ∧
      t.alerts[stopSlot p].timer = s.alerts[stopSlot p].timer)

/-- Port `p`'s record when it has heard a frame of its printer: the receiver hunts, and in RATING or UP Last heard is the
present tick (R84). -/
def heardPort (s : State) (p : PortId) : Port :=
  { s.ports[p] with
    lastHeard := if s.ports[p].link = .rating ∨ s.ports[p].link = .up then s.clock else s.ports[p].lastHeard
    receiver := .hunt }

/-- The port hears a frame of its printer and nothing else happens. -/
def heardOnly (s : State) (p : PortId) : State := { s with ports := s.ports.set p.val (heardPort s p) }

/-- Port `p`'s open stop alert has these sides given now, and closes with both (R153 to R156): it is CLEAR with its timer
stopped, flagged CLOSED and out of the open-alert list, and the exclusions that name the port are gone, which asks for a
pass. Other alerts and jobs stay. -/
def SidesGiven (s t : State) (p : PortId) (attendant host : Bool) : Prop :=
  OtherAlertsSame (stopSlot p) s t ∧
    ((attendant && host) = false →
      t.alerts[stopSlot p] = { s.alerts[stopSlot p] with attendant := attendant, hostReleased := host } ∧
        t.openAlerts = s.openAlerts ∧ t.jobs = s.jobs) ∧
    ((attendant && host) = true →
      t.alerts[stopSlot p] = { s.alerts[stopSlot p] with
        attendant := true, hostReleased := true, isOpen := false, timer := none
        flags := addBit s.alerts[stopSlot p].flags 2, noticeOwed := true } ∧
      (s.alerts[stopSlot p].noticeOwed = false → Source.alert (stopSlot p) ∈ t.notices) ∧
      t.openAlerts = s.openAlerts.filter (fun b => b != stopSlot p) ∧
      (∀ j : SlotId, t.jobs[j] = if s.jobs[j].exclusion.map (fun x => x.port) = some p then
        { s.jobs[j] with exclusion := none } else s.jobs[j]) ∧
      ((∃ j : SlotId, s.jobs[j].exclusion.map (fun x => x.port) = some p) → t.passInProgress = true))

/-- A SETUP_STALL of port `p` stands no more (R158): it has left the standing conditions of the port's open wait alert,
which closes if none is left; other alerts stay. -/
def StallWithdrawn (s t : State) (p : PortId) : Prop :=
  OtherAlertsSame (waitSlot p) s t ∧
    (s.alerts[waitSlot p].isOpen = false →
      t.alerts[waitSlot p] = s.alerts[waitSlot p] ∧ t.openAlerts = s.openAlerts) ∧
    (s.alerts[waitSlot p].isOpen = true →
      (∀ k : Nat, hasBit t.alerts[waitSlot p].standing k = (hasBit s.alerts[waitSlot p].standing k && k != 6)) ∧
      ((∃ k : Nat, k ≠ 6 ∧ hasBit s.alerts[waitSlot p].standing k = true) →
        t.alerts[waitSlot p] = { s.alerts[waitSlot p] with standing := t.alerts[waitSlot p].standing } ∧
          t.openAlerts = s.openAlerts) ∧
      ((∀ k : Nat, k ≠ 6 → hasBit s.alerts[waitSlot p].standing k = false) →
        t.alerts[waitSlot p] = { s.alerts[waitSlot p] with
          standing := 0, isOpen := false, timer := none, flags := addBit s.alerts[waitSlot p].flags 2
          noticeOwed := true } ∧
        t.openAlerts = s.openAlerts.filter (fun b => b != waitSlot p)))

/-- The faces of the entries of a list that `keep` chooses. -/
def facesOf (es : List SendEntry) (keep : SendEntry → Bool) : Nat := ((es.filter keep).map (fun e => e.faces)).sum

/-- The net charge of an entry's sheet by the tariffs, accounts and pages as they stand (R114, R117 to R120): front, the
back too when duplex, and the surcharge when the sheet ends a copy set, less the discount to the nearest mill. -/
def netOf (s : State) (e : SendEntry) (r : RecordId) : Nat :=
  let x := s.jobs[e.job]
  let a := s.accounts[x.account]
  let rate := (s.tariffs[a.group].rates[rateKey s.pages[r].media e.colour]).getD
    ((s.tariffs[(7 : Fin 8)].rates[rateKey s.pages[r].media e.colour]).getD { front := 0, back := 0 })
  let extra := if h : (x.closed && e.place == x.pages.length) = true ∧ 1 ≤ x.finishing ∧ x.finishing ≤ 3 then
    ((s.tariffs[a.group].surcharges[x.finishing - 1]'(by omega)).getD
      ((s.tariffs[(7 : Fin 8)].surcharges[x.finishing - 1]'(by omega)).getD 0)) else 0
  let gross := rate.front + (if e.faces = 2 then rate.back else 0) + extra
  gross - (gross * a.discount + 500) / 1000

/-- The net charges of the entries of a list that `keep` chooses, each for its page. -/
def netsOf (s : State) (es : List SendEntry) (keep : SendEntry → Bool) : Nat :=
  ((es.filter keep).map (fun e => match s.jobs[e.job].pageAt e.place with
    | none => 0
    | some r => netOf s e r)).sum

-- ## Properties that every step keeps

/-- The inbox and the reply queue hold at most 16 frames each (R168, R170). -/
def HliBounded (s : State) : Prop := s.inbox.length ≤ 16 ∧ s.replies.length ≤ 16

/-- S ≤ C ≤ E ≤ 63 in every queue's ring (R71). -/
def RingsOrdered (s : State) : Prop :=
  ∀ q : QueueId, s.rings[q].first ≤ s.rings[q].current ∧ s.rings[q].current ≤ s.rings[q].last ∧ s.rings[q].last ≤ 63

/-- No entry and no surcharge of the standing page is BLANK (R111). -/
def StandingPriced (s : State) : Prop :=
  (∀ k : Fin 24, s.tariffs[standingPage].rates[k] ≠ none) ∧ ∀ k : Fin 3, s.tariffs[standingPage].surcharges[k] ≠ none

/-- A queue's received set never holds the queue's own member, and it is empty in DISABLED and LOAD (R42). -/
def MarksLegal (s : State) : Prop :=
  ∀ q : QueueId, hasBit s.queues[q].received q.val = false ∧
    (s.queues[q].mode = .disabled ∨ s.queues[q].mode = .load → s.queues[q].received = 0)

/-- The five timer settings stand within their ranges (R178). -/
def TimersInRange (s : State) : Prop :=
  (1 ≤ s.timers.starve ∧ s.timers.starve ≤ 255) ∧ (5 ≤ s.timers.setupStall ∧ s.timers.setupStall ≤ 600) ∧
    (10 ≤ s.timers.escalation1 ∧ s.timers.escalation1 ≤ 3600) ∧
    (10 ≤ s.timers.escalation2 ∧ s.timers.escalation2 ≤ 3600) ∧ s.timers.reroute ≤ 3600

/-- The open-alert list holds each OPEN slot once and no other (R145). -/
def OpenAlertsListed (s : State) : Prop :=
  s.openAlerts.Nodup ∧ ∀ a : AlertId, a ∈ s.openAlerts ↔ s.alerts[a].isOpen = true

/-- The alert slots, the ports and the part stand in the notice queue once when they owe a notice and not otherwise
(R172). -/
def NoticesOwed (s : State) : Prop :=
  (∀ a : AlertId, s.notices.count (.alert a) = if s.alerts[a].noticeOwed then 1 else 0) ∧
    (∀ p : PortId, s.notices.count (.port p) = if s.ports[p].noticeOwed then 1 else 0) ∧
    s.notices.count .part = if s.partOwed then 1 else 0

/-- The blocks chained to page records, record after record. -/
def allChains (s : State) : List Nat := s.pages.toList.flatMap (fun r => r.chain)

/-- Each block is in exactly one place: the free pool or the chain of one page record (R50). -/
def BlocksPartitioned (s : State) : Prop :=
  (s.freePool ++ allChains s).Perm (List.range Config.blockCount)

/-- The page records and the jobs agree (R51, R52): a place of a page list names a SEALED record of that owner and
place, a filling page a FILLING record of that owner, a FREE record holds no block, and every chain is as long as its
length needs. -/
def RecordsOwned (s : State) : Prop :=
  (∀ (j : SlotId) (k : Nat) (r : RecordId), s.jobs[j].pages[k]? = some (some r) →
      s.pages[r].state = .sealed ∧ s.pages[r].owner = some j ∧ s.pages[r].place = some (k + 1)) ∧
    (∀ (j : SlotId) (r : RecordId), s.jobs[j].filling = some r →
      s.pages[r].state = .filling ∧ s.pages[r].owner = some j) ∧
    (∀ r : RecordId, s.pages[r].state = .free → s.pages[r].chain = [] ∧ s.pages[r].length = 0) ∧
    ∀ r : RecordId, s.pages[r].chain.length = blocksFor s.pages[r].length

/-- The Page Store is sound. -/
def StoreSound (s : State) : Prop := BlocksPartitioned s ∧ RecordsOwned s

/-- The DRAM's bytes stand in canonical form. -/
def DramCanonical (s : State) : Prop := dramWf s.dram = true

/-- A window holds no more entries than the effective depth, at most 8, and every entry but the newest is TAKEN; a port
whose link is not UP has an empty window; a declared depth is at most 8, and pages and entries have at most two faces
(R83, R87, R91). -/
def WindowsSound (s : State) : Prop :=
  (∀ p : PortId, s.ports[p].window.length ≤ s.ports[p].depth ∧ s.ports[p].depth ≤ 8 ∧
    (∀ i, s.ports[p].ident = some i → i.depth ≤ 8) ∧ (∀ e ∈ s.ports[p].window.dropLast, e.state = .taken) ∧
    (∀ e ∈ s.ports[p].window, e.faces ≤ 2) ∧ (s.ports[p].link ≠ .up → s.ports[p].window = [])) ∧
    ∀ r : RecordId, s.pages[r].sides ≤ 2

/-- Feeds, states and windows agree (R8, R9, R76, R91): a port's feed owner is the job whose Feed port it is; the jobs
with a feed are those in ACTIVE and STARVED; a job's window entries stand at one port, the one whose feed it holds if
it holds one; a STREAMING entry belongs to its port's feed owner; a starve timer runs only for a STARVED owner without a
STREAMING entry; and DONE and CANCELLED are flagged only for jobs in DONE and CANCELLING. -/
def FeedsAgree (s : State) : Prop :=
  (∀ (p : PortId) (j : SlotId), s.ports[p].feedOwner = some j ↔ s.jobs[j].feedPort = some p) ∧
    (∀ j : SlotId, s.jobs[j].feedPort ≠ none ↔ s.jobs[j].state = .active ∨ s.jobs[j].state = .starved) ∧
    (∀ (p q : PortId) (e f : SendEntry), e ∈ s.ports[p].window → f ∈ s.ports[q].window → e.job = f.job → p = q) ∧
    (∀ (p q : PortId) (e : SendEntry), e ∈ s.ports[p].window → s.jobs[e.job].feedPort = some q → p = q) ∧
    (∀ (p : PortId) (e : SendEntry), e ∈ s.ports[p].window → e.state = .streaming →
      s.ports[p].feedOwner = some e.job ∧ s.jobs[e.job].state = .active) ∧
    (∀ p : PortId, s.ports[p].starveTimer ≠ none → ∃ j, s.ports[p].feedOwner = some j ∧ s.jobs[j].state = .starved) ∧
    ∀ j : SlotId, (hasBit s.jobs[j].flags 1 = true → s.jobs[j].state = .done) ∧
      (hasBit s.jobs[j].flags 2 = true → s.jobs[j].state = .cancelling)

/-- Every job that is not FREE stands in exactly one queue list, once, the one its Queue field names, and no FREE slot
stands in one (R23, R26); a FREE slot and a DONE job have no window entries, nor has a job flagged CANCELLED (R11, R16,
R23). -/
def ListsSound (s : State) : Prop :=
  (∀ q : QueueId, s.queues[q].list.Nodup) ∧
    (∀ (q : QueueId) (j : SlotId), j ∈ s.queues[q].list ↔ s.jobs[j].state ≠ .free ∧ s.jobs[j].queue = q) ∧
    ∀ (p : PortId) (e : SendEntry), e ∈ s.ports[p].window →
      s.jobs[e.job].state ≠ .free ∧ s.jobs[e.job].state ≠ .done ∧ hasBit s.jobs[e.job].flags 2 = false

/-- The faces of the window entries, in any port, of jobs charged to account `a`. -/
def facesInFlight (s : State) (a : AccountId) : Nat :=
  ((List.finRange 16).map (fun p => windowFaces s p (fun e => s.jobs[e.job].account == a))).sum

/-- Every account's reservation is the sum of the faces of the window entries of its jobs, an allowance is at most
16,777,215, and a metered account's reservation is at most its allowance (R132, R134). -/
def ReservationsSound (s : State) : Prop :=
  ∀ a : AccountId, s.accounts[a].reserved = facesInFlight s a ∧ s.accounts[a].allowance ≤ 16777215 ∧
    (s.accounts[a].unmetered = false → s.accounts[a].reserved ≤ s.accounts[a].allowance)

/-- Every meter of every port is below its modulus, and for every port lifetime taken faces equal lifetime sheeted faces
plus lifetime spoiled faces plus the faces of its TAKEN entries, modulo 1,000,000,000 (R107). -/
def MetersBalanced (s : State) : Prop :=
  ∀ p : PortId,
    (∀ m : MeterSet, m = s.ports[p].lifetime ∨ m = s.ports[p].period → m.taken < 1000000000 ∧ m.sheets < 1000000000 ∧
      m.mono < 1000000000 ∧ m.spot < 1000000000 ∧ m.full < 1000000000 ∧ m.spoiled < 1000000000) ∧
    s.ports[p].lifetime.taken = (s.ports[p].lifetime.mono + s.ports[p].lifetime.spot + s.ports[p].lifetime.full +
      s.ports[p].lifetime.spoiled + windowFaces s p (fun e => e.state == .taken)) % 1000000000

/-- A job slot stands in the notice queue once when it owes a notice and not otherwise, and a FREE slot owes none
(R1, R172). -/
def JobNoticesOwed (s : State) : Prop :=
  ∀ j : SlotId, s.notices.count (.job j) = (if s.jobs[j].noticeOwed then 1 else 0) ∧
    (s.jobs[j].state = .free → s.jobs[j].noticeOwed = false)

/-- A property that every step keeps. -/
def KeptByStep (inv : State → Prop) : Prop := ∀ s t : State, inv s → step s = .next t → inv t

end Sys2Proof.Safety
end

