-- ==== Sys2Proof/Certificates/Slice0/Obligations.lean ====
section
/-! DEFINITION. The statements about the part, one for each obligation of OBLIGATIONS.json. -/

open Sys2Proof Sys2Proof.Machine Sys2Proof.Safety

/-- A step carries out the command at the front of the queue, and on an empty queue the part idles. For every state
whose queue of waiting commands is c followed by rest, step answers what exec answers for c on the same state with
the queue rest. With an empty queue step answers the state itself; that idling, like the queue, is the model's own
choice (log entry 2). -/
def Obligations.StepRunsFrontCommand : Prop :=
  (∀ (s : State) (c : Instr) (rest : List Instr), s.pending = c :: rest → step s = exec c { s with pending := rest }) ∧
    ∀ s : State, s.pending = [] → step s = .next s

/-- In the model every command answers a next state in every state, and none touches the queue of waiting commands (log
entries 1, 2 and 23). For every command c and every state s, exec c s answers a next state t, no fault and no
refusal, and t has the queue of waiting commands that s has. All of this is the model's own choice and no rule of
the spec: a command whose condition does not hold leaves the state as it is (log entry 1), the queue of waiting
commands is the model's own and no command and no reset touches it (log entry 2), and commands outside their legal
form complete too (log entry 23). -/
def Obligations.CommandsKeepTheQueue : Prop :=
  ∀ (c : Instr) (s : State), Completes c s (fun t => KeepsAllBut
    [.checker, .inbox, .replies, .notices, .onLink, .startInterval, .startFlag, .partOwed, .startCause, .restarting,
      .jobs, .queues, .markLine, .pages, .freePool, .dram, .rows, .rings, .proposals, .passInProgress, .passOwed,
      .ports, .pressLog, .tariffs, .accounts, .alerts, .openAlerts, .clock, .timers, .freeCount] s t)

/-- A taken request gets exactly one reply at the tail of the reply queue, and a refused one changes nothing else. For
every command that is the taking of a request of this kind, tag and body. When the HLI takes it, exec answers a next
state t whose reply queue is the old one with one reply of the same kind and tag at its tail. The request has left
the inbox, and only a RESTART empties the rest of the inbox. If the reply's result code is neither OK nor CLAMPED,
the reply is the code alone and everything but the inbox and the reply queue stands as it stood. When the HLI does
not take it now (it is not the oldest request, the reply queue is full, or a RESTART has been taken), nothing
changes, which is the model's choice for a command whose condition does not hold (log entry 1). -/
def Obligations.TakenRequestGetsOneReply : Prop :=
  ∀ (c : Instr) (s : State) (kind tag : Byte) (body : List Byte), c.requestFrame = some (kind, tag, body) →
    c.wellFormed = true →
    (Takes s kind tag body → Completes c s (fun t =>
      t.inbox = (if kind = 0x73 ∧ body = [] then [] else s.inbox.tail) ∧
      ∃ (code : Byte) (fields : List Byte),
        t.replies = s.replies ++ [{ kind := kind, tag := tag, body := code :: fields }] ∧
        (code ≠ 0x00 → code ≠ 0x01 → fields = [] ∧ KeepsAllBut [.inbox, .replies] s t))) ∧
    (¬Takes s kind tag body → exec c s = .next s)

/-- A taken request of an unknown kind is refused KIND, and one whose body has the wrong size or breaks an encoding
RANGE. UNKNOWN_KIND_REQUEST for a kind that is not in the catalogue, when the HLI takes it, is refused KIND. Every
request of a kind of the catalogue whose body has not the size that 11.3 gives (PAGE_DATA: fewer than 4 bytes), or
holds a 1 in a bit that 11.2 and 11.3 mark 0, or a yes/no byte above 1, is refused RANGE when it is taken, before
any check of the owning rule. The reply is the code alone, and nothing but the inbox and the reply queue changes. -/
def Obligations.KindAndFormAreCheckedFirst : Prop :=
  (∀ (s : State) (kind tag : Byte) (body : List Byte), kind ∉ catalogue → Takes s kind tag body →
    Refuses (.unknownKindRequest kind tag body) s kind tag 0x04) ∧
  ∀ (c : Instr) (s : State) (kind tag : Byte) (body : List Byte), c.requestFrame = some (kind, tag, body) →
    kind ∈ catalogue → c.wellFormed = true → Takes s kind tag body → badForm kind body → Refuses c s kind tag 0x05

/-- A handle of another generation is refused STALE, and one of a FREE slot RANGE, before any other check. For
PAGE_DATA, PAGE_DISCARD, CLOSE_JOB, CANCEL_JOB, MOVE_JOB, RETRY_JOB and QUERY_JOB (kinds 0x02 to 0x08) with a well
formed body, taken by the HLI, whose handle is the slot and generation of its first two bytes. Another generation is
refused STALE; the slot's generation with a FREE slot is refused RANGE. A refused request leaves everything but the
inbox and the reply queue as it stood. The same two steps hold for the second handle of a MOVE_JOB with position
AFTER that passes its other checks. -/
def Obligations.HandleChecksComeFirst : Prop :=
  (∀ (c : Instr) (s : State) (kind tag : Byte) (body : List Byte) (j : SlotId),
    c.requestFrame = some (kind, tag, body) → kind ∈ ([0x02, 0x03, 0x04, 0x05, 0x06, 0x07, 0x08] : List Byte) →
    c.wellFormed = true → Takes s kind tag body → ¬badForm kind body → (byteAt body 0).toNat = j.val →
    (byteAt body 1 ≠ s.jobs[j].generation → Refuses c s kind tag 0x06) ∧
    (byteAt body 1 = s.jobs[j].generation → s.jobs[j].state = .free → Refuses c s kind tag 0x05)) ∧
  ∀ (s : State) (tag : Byte) (body : List Byte) (j k : SlotId) (q : QueueId),
    Takes s 0x06 tag body → body.length = 6 → Names s (byteAt body 0) (byteAt body 1) j →
    (byteAt body 2).toNat = q.val → byteAt body 3 = 2 → s.jobs[j].state = .waiting → s.queues[q].mode ≠ .disabled →
    hasBit s.jobs[j].waitSet q.val = false → (byteAt body 4).toNat = k.val →
    (byteAt body 5 ≠ s.jobs[k].generation → Refuses (.moveJob tag body) s 0x06 tag 0x06) ∧
    (byteAt body 5 = s.jobs[k].generation → s.jobs[k].state = .free → Refuses (.moveJob tag body) s 0x06 tag 0x05)

/-- The bytes of a request frame, read by a hunting checker, put exactly that request into the inbox. For every request
command c of this kind, tag and body, and every run of bytes without 0x5A in front. When the checker hunts, the
start interval is over and no RESTART has been taken, HOST_FRAME_RECEIVED with those bytes and then the frame 0x5A,
length, kind, tag, body, check answers the state in which the request stands at the inbox's tail, if the inbox has a
place; and if it holds 16, the state with a BUSY reply of the frame's kind and tag, if the reply queue has a place.
The checker hunts again, and nothing else changes. The kind, tag and body name the command c. -/
def Obligations.RequestFramesArriveWhole : Prop :=
  ∀ (c : Instr) (s : State) (kind tag : Byte) (body junk : List Byte), c.requestFrame = some (kind, tag, body) →
    c.wellFormed = true → requestCommand kind tag body = c ∧
    (s.checker = .hunt → s.startInterval = false → s.restarting = false → 0x5A ∉ junk →
      (s.inbox.length < 16 → exec (.hostFrameReceived (junk ++ frameBytes 0x5A (kind :: tag :: body))) s =
        .next { s with inbox := s.inbox ++ [{ kind := kind, tag := tag, body := body }] }) ∧
      (16 ≤ s.inbox.length → exec (.hostFrameReceived (junk ++ frameBytes 0x5A (kind :: tag :: body))) s =
        .next (withReplyIfRoom s kind tag 0x02)))

/-- A frame with an impossible length or a wrong check is answered FRAME at once, if a reply place is free. With the
checker hunting, outside the start interval and with no RESTART taken. The bytes 0x5A and a length below 2 or above
4,106; and the bytes 0x5A, a possible length, that many bytes, and two check bytes that are not the CRC-16 of length
and content: HOST_FRAME_RECEIVED answers the state with one more reply of kind 0, tag 0 and result FRAME (0x03) with
an empty body, if the reply queue has a free place, and the unchanged state if it has none. The inbox is untouched
and the checker hunts. -/
def Obligations.BrokenFrameGetsFrameReply : Prop :=
  ∀ (s : State) (l1 l2 : Byte) (rest : List Byte), s.checker = .hunt → s.startInterval = false → s.restarting = false →
    ((beValue [l1, l2] < 2 ∨ 4106 < beValue [l1, l2]) →
      exec (.hostFrameReceived [0x5A, l1, l2]) s = .next (withReplyIfRoom s 0 0 0x03)) ∧
    (2 ≤ beValue [l1, l2] → beValue [l1, l2] ≤ 4106 → rest.length = beValue [l1, l2] + 2 →
      (crc16 (l1 :: l2 :: rest.take (beValue [l1, l2]))).toNat ≠ beValue (rest.drop (beValue [l1, l2])) →
      exec (.hostFrameReceived (0x5A :: l1 :: l2 :: rest)) s = .next (withReplyIfRoom s 0 0 0x03))

/-- Bytes may come in any pieces, and in the start interval or after a RESTART they move only the frame checker.
HOST_FRAME_RECEIVED of two runs of bytes joined has the effect of the first run followed by the second, so a frame
partly read stays partly read. During the start interval, and after a RESTART has been taken, HOST_FRAME_RECEIVED
completes with every part of the state as it stood but the checker: no frame joins the inbox and no FRAME or BUSY
reply is made. -/
def Obligations.FramesAreReadByteByByte : Prop :=
  (∀ (s t : State) (a b : List Byte), exec (.hostFrameReceived a) s = .next t →
    exec (.hostFrameReceived (a ++ b)) s = exec (.hostFrameReceived b) t) ∧
  ∀ (s : State) (bytes : List Byte), s.startInterval = true ∨ s.restarting = true →
    Completes (.hostFrameReceived bytes) s (fun t => KeepsAllBut [.checker] s t)

/-- At a frame boundary the oldest reply goes out, else the notice of the first source, composed as its record stands.
At a boundary that is not the end of the START notice or of a RESTART's reply. With a reply in the queue, the head
reply goes on the link and leaves the queue. With no reply and no source the link is idle. With no reply and a
source at the head of the notice queue (no RESTART taken), its notice goes on the link with tag 0: a port notice
(kind 0xF2, 13 bytes), an alert notice (0xF1, 15 bytes and two for each affected job), the START notice (0xF3, 31
bytes), or a job notice (0xF0, 35 bytes) whose flags hold neither DONE nor CANCELLED. The source leaves the queue,
its flags are cleared and it owes no notice; a job's Refuse reason returns to 0 if the notice carried ERROR, and the
notice shows it only with ERROR. Each notice holds every field of its table in 11.5 at its offset, with the values
of the record before the flags are cleared. Nothing else changes. -/
def Obligations.FrameBoundaryChoosesTheFrame : Prop :=
  ∀ s : State, (s.startInterval = true → s.onLink = none) →
    (∀ f rest, s.replies = f :: rest → exec .frameBoundary s = .next { s with replies := rest, onLink := some f }) ∧
    (s.replies = [] → s.restarting = false → s.notices = [] → exec .frameBoundary s = .next { s with onLink := none }) ∧
    (∀ (p : PortId) (x : Port) rest, s.replies = [] → s.restarting = false → s.notices = .port p :: rest →
      x = s.ports[p] → Completes .frameBoundary s (fun t => t.notices = rest ∧
        (∃ body, t.onLink = some { kind := 0xF2, tag := 0, body := body } ∧ body.length = 13 ∧ HasFields body [
          (0, 1, p.val), (1, 1, x.flags.toNat), (2, 1, x.link.code), (3, 1, DownCause.code x.downCause),
          (4, 1, x.rate.code), (5, 1, x.depth), (6, 1, bitsOf [x.ident.isSome]),
          (7, 1, ((x.ident.map (fun i => i.classCode.toNat)).getD 0)),
          (8, 1, ((x.ident.map (fun i => bitsOf [i.colour, i.duplex, i.fastCapable])).getD 0)),
          (9, 1, ((x.ident.map (fun i => i.media.toNat)).getD 0)), (10, 1, ((x.ident.map (fun i => i.depth)).getD 0)),
          (11, 1, (s.service p).code), (12, 1, x.loaded.val)]) ∧
        t.ports[p] = { x with flags := 0, noticeOwed := false } ∧ OtherPortsSame p s t ∧
        KeepsAllBut [.notices, .onLink, .ports] s t)) ∧
    (∀ (a : AlertId) (x : AlertSlot) rest, s.replies = [] → s.restarting = false → s.notices = .alert a :: rest →
      x = s.alerts[a] → Completes .frameBoundary s (fun t => t.notices = rest ∧
        (∃ body, t.onLink = some { kind := 0xF1, tag := 0, body := body } ∧
          body.length = 15 + 2 * x.affected.length ∧ HasFields body [
            (0, 1, a.val), (1, 1, x.flags.toNat), (2, 1, bitsOf [x.isOpen]), (3, 1, AlertKind.code x.primary),
            (4, 1, x.additional.toNat), (5, 1, x.standing.toNat), (6, 1, x.location.toNat), (7, 4, x.raised.toNat),
            (11, 1, x.level), (12, 1, bitsOf [x.acknowledged, x.attendant, x.hostReleased]), (13, 1, x.repeats),
            (14, 1, x.affected.length)] ∧
          ∀ (i : Nat) (h : Handle), x.affected[i]? = some h →
            HasFields body [(15 + 2 * i, 1, h.slot.val), (16 + 2 * i, 1, h.generation.toNat)]) ∧
        t.alerts[a] = { x with flags := 0, noticeOwed := false } ∧ OtherAlertsSame a s t ∧
        KeepsAllBut [.notices, .onLink, .alerts] s t)) ∧
    (∀ rest, s.replies = [] → s.restarting = false → s.notices = .part :: rest →
      Completes .frameBoundary s (fun t => t.notices = rest ∧
        (∃ body, t.onLink = some { kind := 0xF3, tag := 0, body := body } ∧ body.length = 31 ∧ HasFields body [
          (0, 1, s.startCause.code), (1, 2, 3), (3, 4, s.clock.toNat), (7, 1, 16), (8, 1, 8), (9, 2, 256), (11, 2, 4096),
          (13, 4, 65536), (17, 1, 64), (18, 1, 128), (19, 1, 32), (20, 1, 16), (21, 1, 16), (22, 1, s.timers.starve),
          (23, 2, s.timers.setupStall), (25, 2, s.timers.escalation1), (27, 2, s.timers.escalation2),
          (29, 2, s.timers.reroute)]) ∧
        t.startFlag = false ∧ t.partOwed = false ∧
        KeepsAllBut [.notices, .onLink, .startFlag, .partOwed] s t)) ∧
    ∀ (j : SlotId) rest, s.replies = [] → s.restarting = false → s.notices = .job j :: rest →
      hasBit s.jobs[j].flags 1 = false → hasBit s.jobs[j].flags 2 = false →
      Completes .frameBoundary s (fun t => t.notices = rest ∧
        (∃ body, t.onLink = some { kind := 0xF0, tag := 0, body := body } ∧ JobNoticeOf s j body) ∧
        t.jobs[j] = { s.jobs[j] with
          flags := 0, noticeOwed := false
          refuseReason := if hasBit s.jobs[j].flags 4 then 0 else s.jobs[j].refuseReason } ∧
        OtherJobsSame j s t ∧ KeepsAllBut [.notices, .onLink, .jobs] s t)

/-- A job notice that carries DONE or CANCELLED retires its slot. When the notice queue's head is a job whose flags hold
DONE or CANCELLED, no reply waits and no RESTART has been taken, FRAME_BOUNDARY puts its notice on the link with
kind 0xF0 and tag 0, the 35 bytes of 11.5 with every field of the record as it stood, the old generation in the
handle, and the Refuse reason if ERROR is among the flags and 0 if not; and the slot retires: the record is that of
a FREE slot, every field at its reset value, with the generation one higher (wrapping); the job has left its queue's
list; every page record that it held, its filling page too, is FREE, and their blocks stand at the free pool's tail
in chain order. Other jobs, page records and queues are unchanged. The premise that the job holds no record twice
follows from StoreSound. -/
def Obligations.NoticeOfDoneOrCancelledRetires : Prop :=
  ∀ (s : State) (j : SlotId) (rest : List Source) (held : List RecordId),
    (s.startInterval = true → s.onLink = none) → s.replies = [] → s.restarting = false → s.notices = .job j :: rest →
    (hasBit s.jobs[j].flags 1 = true ∨ hasBit s.jobs[j].flags 2 = true) →
    held = s.jobs[j].pages.filterMap id ++ s.jobs[j].filling.toList → held.Nodup →
    Completes .frameBoundary s (fun t => t.notices = rest ∧
      (∃ body, t.onLink = some { kind := 0xF0, tag := 0, body := body } ∧ JobNoticeOf s j body) ∧
      t.jobs[j] = Job.freeSlot (s.jobs[j].generation + 1) ∧ OtherJobsSame j s t ∧
      t.queues[s.jobs[j].queue] = { s.queues[s.jobs[j].queue] with
        list := s.queues[s.jobs[j].queue].list.filter (fun k => k != j) } ∧
      OtherQueuesSame s.jobs[j].queue s t ∧
      (∀ r ∈ held, t.pages[r] = PageRecord.freeRecord) ∧ (∀ r, r ∉ held → t.pages[r] = s.pages[r]) ∧
      t.freePool = s.freePool ++ held.flatMap (fun r => s.pages[r].chain) ∧
      KeepsAllBut [.notices, .onLink, .jobs, .queues, .pages, .freePool] s t)

/-- POWER_ON and RESET_PIN put every block at its power-on values and begin the start interval. From every state both
commands answer a next state with: every slot FREE, generation 0; every queue DISABLED in HOLD, its list and marks
empty, ROTATE on, REROUTE off; the mark output idle; every page record FREE with the last column of R51, all 65,536
blocks in order in the free pool; rows empty, rings at 0 unpinned; no proposal, no pass in progress or owed; every
port with the last column of R83; group pages BLANK, the standing page all zero; every account with the last column
of R132: account 0 enabled, unmetered, in group 7, the others disabled; every alert slot with the last column of
R144, the open-alert list empty; the timers 20, 30, 60, 180 and 20; the clock 0; inbox and reply queue empty; the
notice queue holding the part alone, with START set and cause POWER or PIN; the start interval begun. The model's
own choices in it, no words of a rule: Probe due 0 stands for a first PROBE at tick 0, and none is logged here (log
entry 6); the marks that a pulse was counted (17, 27) and that a RESTART is taken (15); the frame checkers of the
HLI and the ports, which hunt, hold no byte, and there is no frame on the link, no rate window and no send (22, 27);
DRAM bytes, count of free values, press log and waiting commands stay (2, 7, 11, 21); the press log gains, port by
port, the page data that sends in progress had put on their links (22). -/
def Obligations.PowerOnValues : Prop :=
  ∀ s : State, ∀ c : Instr, c = .powerOn ∨ c = .resetPin → Completes c s (fun t =>
    (∀ j : SlotId, t.jobs[j] = Job.freeSlot 0 ∧ t.jobs[j].copies = 1 ∧ t.jobs[j].cursorCopy = 1 ∧
      t.jobs[j].cursorPage = 1) ∧
    (∀ q : QueueId, t.queues[q] =
      { list := [], mode := .disabled, dispatch := .hold, rotate := true, reroute := false, received := 0 }) ∧
    t.markLine = { owed := 0, phase := .idle, counted := true } ∧
    (∀ r : RecordId, t.pages[r] = {
      state := .free, owner := none, media := 0, sides := 1, colour := .mono, length := 0, chain := [], place := none
      sheeted := 0 }) ∧ t.freePool = List.range 65536 ∧
    (∀ n : Fin 64, t.rows[n] = 0) ∧
    (∀ q : QueueId, t.rings[q] = { first := 0, last := 0, current := 0, pinned := false }) ∧
    (∀ q : QueueId, t.proposals[q] = none) ∧ t.passInProgress = false ∧ t.passOwed = false ∧
    (∀ p : PortId, t.ports[p] = {
      link := .probing, downCause := none, rate := .base, ident := none, depth := 1, loaded := 0, inService := true
      holdAsked := false, status := 0, feedOwner := none, releaseOwed := false, setup := none, stallReported := false
      window := [], nextSerial := 0, starveTimer := none, setupTimer := none, lastHeard := 0, probeDue := 0
      lifetime := { taken := 0, sheets := 0, mono := 0, spot := 0, full := 0, spoiled := 0 }
      period := { taken := 0, sheets := 0, mono := 0, spot := 0, full := 0, spoiled := 0 }
      flags := 0, noticeOwed := false, receiver := { phase := .hunting, got := [] }, rateWindow := none
      sending := none }) ∧
    (∀ g : Fin 8, g ≠ 7 → (∀ k : Fin 24, t.tariffs[g].rates[k] = none) ∧ ∀ k : Fin 3, t.tariffs[g].surcharges[k] = none) ∧
    (∀ k : Fin 24, t.tariffs[(7 : Fin 8)].rates[k] = some { front := 0, back := 0 }) ∧
    (∀ k : Fin 3, t.tariffs[(7 : Fin 8)].surcharges[k] = some 0) ∧
    t.accounts[(0 : AccountId)] = {
      enabled := true, unmetered := true, group := 7, discount := 0, allowance := 0, reserved := 0, periodFaces := 0
      periodCharge := 0, saturated := false } ∧
    (∀ a : AccountId, a ≠ 0 → t.accounts[a] = {
      enabled := false, unmetered := false, group := 0, discount := 0, allowance := 0, reserved := 0, periodFaces := 0
      periodCharge := 0, saturated := false }) ∧
    (∀ a : AlertId, t.alerts[a] = {
      isOpen := false, primary := none, additional := 0, standing := 0, location := 0, raised := 0, level := 1
      acknowledged := false, attendant := false, hostReleased := false, repeats := 0, affected := [], timer := none
      flags := 0, noticeOwed := false }) ∧ t.openAlerts = [] ∧
    t.timers = { starve := 20, setupStall := 30, escalation1 := 60, escalation2 := 180, reroute := 20 } ∧
    t.clock = 0 ∧ t.checker = { phase := .hunting, got := [] } ∧ t.onLink = none ∧ t.restarting = false ∧ t.inbox = [] ∧ t.replies = [] ∧ t.notices = [.part] ∧ t.startFlag = true ∧ t.partOwed = true ∧
    t.startInterval = true ∧ t.startCause = (if c = .powerOn then .power else .pin) ∧
    t.dram = s.dram ∧
    (∃ cut : PortId → List PressMessage, (∀ p, CutShort s p (cut p)) ∧
      t.pressLog = s.pressLog ++ (List.finRange 16).flatMap (fun p => (cut p).map (fun m => (p, m)))) ∧
    t.freeCount = s.freeCount ∧ t.pending = s.pending)

/-- The start interval ends with its notice on the link, and a RESTART is answered OK and waits for its reply to be
sent. START_INTERVAL_END while the START notice is on the link in the start interval: the start interval is over and
the link stands at its next boundary; everything else is unchanged. A taken RESTART with an empty body: the inbox is
emptied, the reply OK joins the reply queue's tail, no further request is taken, and nothing else changes. An event
that is not due changes nothing, which is the model's choice (log entry 1): START_INTERVAL_END with no start
interval or nothing on the link, and RESTART_RESET before its reply is the last frame and on the link. -/
def Obligations.StartAndRestartWaitForTheLink : Prop :=
  (∀ s : State,
    (s.startInterval = true → ∀ f, s.onLink = some f → f.kind = 0xF3 →
      exec .startIntervalEnd s = .next { s with startInterval := false, onLink := none }) ∧
    (s.startInterval = false ∨ s.onLink = none → exec .startIntervalEnd s = .next s)) ∧
  (∀ (s : State) (tag : Byte), Takes s 0x73 tag [] →
    exec (.restart tag []) s = .next { s with
      inbox := [], restarting := true
      replies := s.replies ++ [{ kind := 0x73, tag := tag, body := [0x00] }] }) ∧
  ∀ s : State, s.restarting = false ∨ s.replies ≠ [] ∨ s.onLink = none → exec .restartReset s = .next s

/-- The reset of a RESTART drops jobs, queues, pages and alerts and keeps rows, rings, tariffs, accounts, timers and the
clock. RESTART_RESET when the RESTART's reply, the last of the queue, is on the link: every slot is FREE, its
generation one higher if the slot was in use and the same if it was FREE; every queue has its reset values; every
page is FREE and the free pool is full; the proposal table is empty and no pass is in progress or owed. Every port
is PROBING at BASE with depth 1, media 0, in service, no hold asked, no Ident, ONLINE, without feed, owed release,
setup hold, stall, window, timers, send, flags or owed notice, its next serial 0, its receiver hunting, and its next
PROBE due in 10 ticks; both its meter sets are kept but for the spoiled meters, raised by the faces of its TAKEN
entries modulo 1,000,000,000. Each port's press link has the page data of a send in progress, as far as it came, and
one PROBE (R183; port by port, log entry 22). Accounts keep every field but Reserved, which is 0; every alert slot
is CLEAR; the mark output owes nothing, and a pulse on it lowers no count (log entry 17); the inbox and the reply
queue are empty; the notice queue holds the part alone, with START set and cause RESTART, and the start interval
begins. Rows, rings, tariff pages, timers, clock and the DRAM's bytes are unchanged. -/
def Obligations.RestartKeepsConfigurationAndMoney : Prop :=
  ∀ s : State, s.restarting = true → s.replies = [] → s.onLink ≠ none → Completes .restartReset s (fun t =>
    (∀ j : SlotId, t.jobs[j] =
      Job.freeSlot (if s.jobs[j].state = .free then s.jobs[j].generation else s.jobs[j].generation + 1)) ∧
    (∀ q : QueueId, t.queues[q] =
      { list := [], mode := .disabled, dispatch := .hold, rotate := true, reroute := false, received := 0 }) ∧
    t.markLine = { s.markLine with owed := 0, counted := false } ∧
    (∀ r : RecordId, t.pages[r] = PageRecord.freeRecord) ∧ t.freePool = List.range 65536 ∧
    (∀ q : QueueId, t.proposals[q] = none) ∧ t.passInProgress = false ∧ t.passOwed = false ∧
    (∀ p : PortId,
      t.ports[p] = {
        link := .probing, downCause := none, rate := .base, ident := none, depth := 1, loaded := 0, inService := true
        holdAsked := false, status := 0, feedOwner := none, releaseOwed := false, setup := none
        stallReported := false, window := [], nextSerial := 0, starveTimer := none, setupTimer := none
        lastHeard := t.ports[p].lastHeard, probeDue := s.clock + 10
        lifetime := { s.ports[p].lifetime with spoiled := t.ports[p].lifetime.spoiled }
        period := { s.ports[p].period with spoiled := t.ports[p].period.spoiled }
        flags := 0, noticeOwed := false, receiver := .hunt, rateWindow := none, sending := none } ∧
      (s.ports[p].lifetime.spoiled < 1000000000 → t.ports[p].lifetime.spoiled =
        (s.ports[p].lifetime.spoiled + windowFaces s p (fun e => e.state == .taken)) % 1000000000) ∧
      (s.ports[p].period.spoiled < 1000000000 → t.ports[p].period.spoiled =
        (s.ports[p].period.spoiled + windowFaces s p (fun e => e.state == .taken)) % 1000000000)) ∧
    (∃ cut : PortId → List PressMessage, (∀ p, CutShort s p (cut p)) ∧ t.pressLog = s.pressLog ++
      (List.finRange 16).flatMap (fun p => (cut p).map (fun m => (p, m)) ++ [(p, .probe)])) ∧
    (∀ a : AccountId, t.accounts[a] = { s.accounts[a] with reserved := 0 }) ∧
    (∀ a : AlertId, t.alerts[a] = AlertSlot.clear) ∧ t.openAlerts = [] ∧
    t.inbox = [] ∧ t.replies = [] ∧ t.notices = [.part] ∧ t.onLink = none ∧ t.checker = .hunt ∧ t.startFlag = true ∧
    t.partOwed = true ∧ t.startInterval = true ∧ t.startCause = .restart ∧ t.restarting = false ∧
    t.rows = s.rows ∧ t.rings = s.rings ∧ t.tariffs = s.tariffs ∧ t.timers = s.timers ∧ t.clock = s.clock ∧
    t.dram = s.dram ∧ t.freeCount = s.freeCount ∧ t.pending = s.pending)

/-- ADMIT takes the lowest-numbered FREE slot and enters the job in its queue's list, or is refused by the first failing
check. A taken ADMIT with a well formed body. No FREE slot: FULL. Else a queue above 7: RANGE; a DISABLED queue:
QUEUE_CLOSED; an account above 127 or not enabled: ACCOUNT; copies outside 1 to 99 or finishing above 3: RANGE; a
wait set that names the queue: RANGE. When all pass, the lowest-numbered FREE slot holds the new job: WAITING/NEW,
the fields of the request, Admitted the clock, its generation as it was, every other field as in a FREE slot. The
job joins its queue's list at the tail, or with RUSH directly in front of the first job whose Started and Proof run
are both no. The reply is OK with the handle, and a pass is asked for exactly when the queue is in RUN. No flag is
set and nothing else changes. -/
def Obligations.AdmitFollowsItsTable : Prop :=
  ∀ (s : State) (tag : Byte) (body : List Byte), Takes s 0x01 tag body → ¬badForm 0x01 body →
    ((∀ k : SlotId, s.jobs[k].state ≠ .free) → Refuses (.admitJob tag body) s 0x01 tag 0x08) ∧
    ∀ j : SlotId, s.jobs[j].state = .free → (∀ k : SlotId, k < j → s.jobs[k].state ≠ .free) →
      (7 < (byteAt body 0).toNat → Refuses (.admitJob tag body) s 0x01 tag 0x05) ∧
      ∀ q : QueueId, (byteAt body 0).toNat = q.val →
        (s.queues[q].mode = .disabled → Refuses (.admitJob tag body) s 0x01 tag 0x09) ∧
        (s.queues[q].mode ≠ .disabled →
          (127 < (byteAt body 1).toNat → Refuses (.admitJob tag body) s 0x01 tag 0x0A) ∧
          ∀ a : AccountId, (byteAt body 1).toNat = a.val →
            (s.accounts[a].enabled = false → Refuses (.admitJob tag body) s 0x01 tag 0x0A) ∧
            (s.accounts[a].enabled = true →
              (byteAt body 3 = 0 ∨ 99 < (byteAt body 3).toNat ∨ 3 < (byteAt body 4).toNat →
                Refuses (.admitJob tag body) s 0x01 tag 0x05) ∧
              (byteAt body 3 ≠ 0 → (byteAt body 3).toNat ≤ 99 → (byteAt body 4).toNat ≤ 3 →
                (hasBit (BitVec.ofNat 9 (wordAt body 5)) q.val = true →
                  Refuses (.admitJob tag body) s 0x01 tag 0x05) ∧
                (hasBit (BitVec.ofNat 9 (wordAt body 5)) q.val = false →
                  Completes (.admitJob tag body) s (fun t =>
                    Replied s t 0x01 tag 0x00 [u8 j.val, s.jobs[j].generation] ∧
                    t.jobs[j] = { Job.freeSlot s.jobs[j].generation with
                      state := .waiting, reason := some .new, queue := q, account := a
                      stream := hasBit (byteAt body 2) 0, rush := hasBit (byteAt body 2) 1
                      double := hasBit (byteAt body 2) 2, copies := (byteAt body 3).toNat
                      finishing := (byteAt body 4).toNat, waitSet := BitVec.ofNat 9 (wordAt body 5)
                      giveSet := BitVec.ofNat 9 (wordAt body 7), admitted := s.clock } ∧
                    OtherJobsSame j s t ∧
                    t.queues[q] = { s.queues[q] with list := t.queues[q].list } ∧ OtherQueuesSame q s t ∧
                    (hasBit (byteAt body 2) 1 = false → t.queues[q].list = s.queues[q].list ++ [j]) ∧
                    (hasBit (byteAt body 2) 1 = true → ∃ front back, s.queues[q].list = front ++ back ∧
                      t.queues[q].list = front ++ j :: back ∧
                      (∀ k ∈ front, s.jobs[k].started = true ∨ s.jobs[k].proofRun = true) ∧
                      ∀ k, back.head? = some k → s.jobs[k].started = false ∧ s.jobs[k].proofRun = false) ∧
                    AskedIf (s.queues[q].mode = .run) s t ∧
                    KeepsAllBut [.inbox, .replies, .jobs, .queues, .passInProgress, .passOwed] s t)))))

/-- A PAGE_DATA without LAST adds its data to the filling page, which FIRST begins in the lowest FREE record; the first
check of R53 that fails refuses it. A taken PAGE_DATA whose handle names job j is refused by the first check of R53
that fails, and nothing but the inbox and the reply queue changes: STATE for a DONE, CANCELLING or Closed job, with
FIRST for a job that has a filling page, without FIRST for one that has none; RANGE for more than 4,096 bytes of
data, and with FIRST for an attribute byte above 47 (colour value 3, or bit 6 or 7); PAGE_LIMIT with FIRST when no
page record is FREE, and when the new length is above 16,777,216; STORE_FULL when the free pool holds fewer blocks
than the new length needs beyond those chained. A taken PAGE_DATA without LAST that passes every check of R53 for
job j and record r. The record is the filling page, or with FIRST a new page of the frame's attributes. Its length
rises by the data's length, its chain gains as many blocks from the head of the free pool as the new length needs
(1,024 bytes each, rounded up), and the pool loses them. The job's filling page is r and nothing else of its record
changes. The reply is OK with the new length, sealed no, place 0 and the count of free blocks. Other jobs and
records are unchanged, and nothing else but the DRAM's bytes. -/
def Obligations.PageDataFillsTheRecord : Prop :=
  (∀ (s : State) (tag code : Byte) (body : List Byte) (j : SlotId) (r : RecordId), Takes s 0x02 tag body →
    ¬badForm 0x02 body → Names s (byteAt body 0) (byteAt body 1) j → (∀ k, s.jobs[j].filling = some k → k = r) →
    (if s.jobs[j].state = .done ∨ s.jobs[j].state = .cancelling ∨ s.jobs[j].closed = true ∨
        s.jobs[j].filling.isSome = hasBit (byteAt body 2) 0 then code = 0x07
      else if 4096 < (body.drop 4).length ∨ (hasBit (byteAt body 2) 0 = true ∧ 48 ≤ (byteAt body 3).toNat) then
        code = 0x05
      else if (hasBit (byteAt body 2) 0 = true ∧ ∀ k : RecordId, s.pages[k].state ≠ .free) ∨
        16777216 < (dataRecord s body j r).length + (body.drop 4).length then code = 0x0C
      else code = 0x0B ∧ s.freePool.length < newBlocks s body j r) →
    Refuses (.pageData tag body) s 0x02 tag code) ∧
  ∀ (s : State) (tag : Byte) (body : List Byte) (j : SlotId) (r : RecordId), Takes s 0x02 tag body →
    ¬badForm 0x02 body → PageDataPasses s body j r → hasBit (byteAt body 2) 1 = false →
    Completes (.pageData tag body) s (fun t =>
      Replied s t 0x02 tag 0x00 (beBytes 4 ((dataRecord s body j r).length + (body.drop 4).length) ++ [0, 0, 0] ++
        beBytes 4 (s.freePool.length - newBlocks s body j r)) ∧
      t.pages[r] = { dataRecord s body j r with
        length := (dataRecord s body j r).length + (body.drop 4).length
        chain := (dataRecord s body j r).chain ++ s.freePool.take (newBlocks s body j r) } ∧
      OtherPagesSame r s t ∧ t.freePool = s.freePool.drop (newBlocks s body j r) ∧
      t.jobs[j] = { s.jobs[j] with filling := some r } ∧ OtherJobsSame j s t ∧
      KeepsAllBut [.inbox, .replies, .jobs, .pages, .freePool, .dram] s t)

/-- A page reads out the bytes that the host sent for it, in the order sent, and no other page changes. For every state
whose Page Store is sound and whose DRAM stands in canonical form (both kept by every step and met at reset,
EveryStepKeepsThePageStoreSound and ResetMeetsTheInvariants), and every taken PAGE_DATA that passes the checks of
R53 for job j and record r, with or without FIRST and LAST: afterwards the bytes of record r, read through its
chain, are the bytes that the page held before (none with FIRST) followed by the frame's data, and every other
record that is not FREE reads as it read before. -/
def Obligations.PageBytesReadBack : Prop :=
  ∀ (s : State) (tag : Byte) (body : List Byte) (j : SlotId) (r : RecordId), StoreSound s → DramCanonical s →
    Takes s 0x02 tag body → ¬badForm 0x02 body → PageDataPasses s body j r →
    Completes (.pageData tag body) s (fun t =>
      t.readOut r = (if hasBit (byteAt body 2) 0 then [] else s.readOut r) ++ body.drop 4 ∧
      ∀ k : RecordId, k ≠ r → s.pages[k].state ≠ .free → t.readOut k = s.readOut k)

/-- A PAGE_DATA with LAST seals the page, which joins the page list, folds into the Needs and wakes a STARVED job. A
taken PAGE_DATA with LAST that passes every check of R53 for job j and record r. The record is SEALED with the place
behind the last one, the page list gains it as its last place, and the filling page is absent. Needs gain its media
class, colour unless it is MONO, and duplex if it has two sides. The reply is OK with the length, sealed yes, the
place and the free blocks. A WAITING job asks for a pass exactly when its queue is in RUN, and nothing but the job,
the record, the pool and the DRAM changes. An ERROR or HANDED job causes nothing more. A STARVED job that holds the
feed of port p and whose cursor stands on the new place becomes ACTIVE, p stops its starve timer, and p makes an
offer attempt by R92; for an ACTIVE job p makes the offer attempt too. -/
def Obligations.LastSealsThePage : Prop :=
  ∀ (s : State) (tag : Byte) (body : List Byte) (j : SlotId) (r : RecordId), Takes s 0x02 tag body →
    ¬badForm 0x02 body → PageDataPasses s body j r → hasBit (byteAt body 2) 1 = true →
    Completes (.pageData tag body) s (fun t =>
      Replied s t 0x02 tag 0x00 (beBytes 4 ((dataRecord s body j r).length + (body.drop 4).length) ++ [1] ++
        beBytes 2 (s.jobs[j].pages.length + 1) ++ beBytes 4 (s.freePool.length - newBlocks s body j r)) ∧
      t.pages[r] = { dataRecord s body j r with
        state := .sealed, place := some (s.jobs[j].pages.length + 1)
        length := (dataRecord s body j r).length + (body.drop 4).length
        chain := (dataRecord s body j r).chain ++ s.freePool.take (newBlocks s body j r) } ∧
      OtherPagesSame r s t ∧ t.freePool = s.freePool.drop (newBlocks s body j r) ∧
      t.jobs[j].pages = s.jobs[j].pages ++ [some r] ∧ t.jobs[j].filling = none ∧
      t.jobs[j].needsMedia = addBit s.jobs[j].needsMedia (dataRecord s body j r).media.val ∧
      t.jobs[j].needsColour = (s.jobs[j].needsColour || (dataRecord s body j r).colour != .mono) ∧
      t.jobs[j].needsDuplex = (s.jobs[j].needsDuplex || (dataRecord s body j r).sides == 2) ∧
      (s.jobs[j].state = .waiting ∨ s.jobs[j].state = .error ∨ s.jobs[j].state = .handed →
        t.jobs[j] = { s.jobs[j] with
          pages := t.jobs[j].pages, filling := none, needsMedia := t.jobs[j].needsMedia
          needsColour := t.jobs[j].needsColour, needsDuplex := t.jobs[j].needsDuplex } ∧ OtherJobsSame j s t ∧
        AskedIf (s.jobs[j].state = .waiting ∧ s.queues[s.jobs[j].queue].mode = .run) s t ∧
        KeepsAllBut [.inbox, .replies, .jobs, .pages, .freePool, .dram, .passInProgress, .passOwed] s t) ∧
      ∀ p : PortId, (s.jobs[j].state = .active ∨
          s.jobs[j].state = .starved ∧ s.jobs[j].cursorPage = s.jobs[j].pages.length + 1) →
        s.jobs[j].feedPort = some p → s.ports[p].feedOwner = some j →
        Attempted { s with
          pages := s.pages.set r.val t.pages[r], freePool := t.freePool, dram := t.dram
          jobs := s.jobs.set j.val { s.jobs[j] with
            state := .active, reason := if s.jobs[j].state = .starved then none else s.jobs[j].reason
            pages := s.jobs[j].pages ++ [some r], filling := none, needsMedia := t.jobs[j].needsMedia
            needsColour := t.jobs[j].needsColour, needsDuplex := t.jobs[j].needsDuplex }
          ports := s.ports.set p.val { s.ports[p] with
            starveTimer := if s.jobs[j].state = .starved then none else s.ports[p].starveTimer } } t p j ∧
        KeepsAllBut [.inbox, .replies, .jobs, .ports, .accounts, .pages, .freePool, .dram, .pressLog, .notices,
          .passInProgress, .passOwed] s t)

/-- PAGE_DISCARD frees the filling page and its blocks, and is refused STATE without one. A taken PAGE_DISCARD whose
handle names job j. A DONE or CANCELLING job, or a job without a filling page, refuses it STATE. Otherwise the
filling record is FREE, its blocks stand at the free pool's tail in chain order, the job's filling page is absent,
and the reply is OK with the count of free blocks. Nothing else changes. -/
def Obligations.PageDiscardFreesTheFillingPage : Prop :=
  ∀ (s : State) (tag : Byte) (body : List Byte) (j : SlotId), Takes s 0x03 tag body → body.length = 2 →
    Names s (byteAt body 0) (byteAt body 1) j →
    (s.jobs[j].state = .done ∨ s.jobs[j].state = .cancelling ∨ s.jobs[j].filling = none →
      Refuses (.pageDiscard tag body) s 0x03 tag 0x07) ∧
    ∀ r : RecordId, s.jobs[j].state ≠ .done → s.jobs[j].state ≠ .cancelling → s.jobs[j].filling = some r →
      Completes (.pageDiscard tag body) s (fun t =>
        Replied s t 0x03 tag 0x00 (beBytes 4 (s.freePool.length + s.pages[r].chain.length)) ∧
        t.pages[r] = PageRecord.freeRecord ∧ OtherPagesSame r s t ∧ t.freePool = s.freePool ++ s.pages[r].chain ∧
        t.jobs[j] = { s.jobs[j] with filling := none } ∧ OtherJobsSame j s t ∧
        KeepsAllBut [.inbox, .replies, .jobs, .pages, .freePool] s t)

/-- CLOSE_JOB closes the job, moves its cursor to the next copy, frees sheeted pages, wakes a STARVED job, and hands
over a job sent out. A taken CLOSE_JOB whose handle names job j. A job that is DONE, CANCELLING, already Closed,
filling a page, or without pages refuses it STATE. Otherwise, for a job that holds no page record twice and, if it
holds a feed, holds it as that port's owner: the reply is OK and Closed is yes. For a WAITING or ERROR job without a
feed that is not sent out by it: a cursor past the end of a copy below Copies, outside a proof run, goes to the next
copy, page 1, and else stays; each place whose page is sheeted in every copy becomes a freed place; a WAITING job's
queue asks for a pass exactly when it is in RUN. For a WAITING, ACTIVE or STARVED job whose cursor stands past the
end of its final copy and none of whose entries is STREAMING or ABORTING: the feed, if any, is released on both
sides, and the job is HANDED if it has entries (flagged HANDED under DOUBLE), and without entries and outside a
proof run DONE, flagged DONE with a notice owed. For an ACTIVE or STARVED job that holds port p's feed, outside a
proof run, whose cursor stands past the end of a copy below Copies, and of whose pages none is sheeted in every
copy: the cursor goes to the next copy, page 1; an ACTIVE job changes nothing else; a STARVED one with a sendable
page 1 becomes ACTIVE, p stops its starve timer, and p makes an offer attempt by R92, and nothing else changes. -/
def Obligations.CloseJobClosesAndSendsOut : Prop :=
  ∀ (s : State) (tag : Byte) (body : List Byte) (j : SlotId), Takes s 0x04 tag body → body.length = 2 →
    Names s (byteAt body 0) (byteAt body 1) j →
    (s.jobs[j].state = .done ∨ s.jobs[j].state = .cancelling ∨ s.jobs[j].closed = true ∨ s.jobs[j].filling ≠ none ∨
      s.jobs[j].pages = [] → Refuses (.closeJob tag body) s 0x04 tag 0x07) ∧
    (s.jobs[j].state ≠ .done → s.jobs[j].state ≠ .cancelling → s.jobs[j].closed = false → s.jobs[j].filling = none →
      s.jobs[j].pages ≠ [] → (s.jobs[j].pages.filterMap id).Nodup →
      (∀ p, s.jobs[j].feedPort = some p → s.ports[p].feedOwner = some j) →
      Completes (.closeJob tag body) s (fun t =>
        Replied s t 0x04 tag 0x00 [] ∧ t.jobs[j].closed = true ∧
        ((s.jobs[j].state = .waiting ∨ s.jobs[j].state = .error) → s.jobs[j].feedPort = none →
          (s.jobs[j].pages.length < s.jobs[j].cursorPage → s.jobs[j].cursorCopy < s.jobs[j].copies ∧
            s.jobs[j].proofRun = false) →
          t.jobs[j] = { s.jobs[j] with
            closed := true
            cursorCopy := if s.jobs[j].pages.length < s.jobs[j].cursorPage then s.jobs[j].cursorCopy + 1
              else s.jobs[j].cursorCopy
            cursorPage := if s.jobs[j].pages.length < s.jobs[j].cursorPage then 1 else s.jobs[j].cursorPage
            pages := s.jobs[j].pages.map (fun x => match x with
              | none => none
              | some r => if s.pages[r].sheeted = s.jobs[j].copies then none else some r) } ∧
          (∀ r, some r ∈ s.jobs[j].pages → s.pages[r].sheeted = s.jobs[j].copies →
            t.pages[r] = PageRecord.freeRecord) ∧
          (∀ r, (some r ∈ s.jobs[j].pages → s.pages[r].sheeted ≠ s.jobs[j].copies) → t.pages[r] = s.pages[r]) ∧
          OtherJobsSame j s t ∧ AskedIf (s.jobs[j].state = .waiting ∧ s.queues[s.jobs[j].queue].mode = .run) s t ∧
          KeepsAllBut [.inbox, .replies, .jobs, .pages, .freePool, .passInProgress, .passOwed] s t) ∧
        ((s.jobs[j].state = .waiting ∨ s.jobs[j].state = .active ∨ s.jobs[j].state = .starved) →
          s.jobs[j].pages.length < s.jobs[j].cursorPage →
          s.jobs[j].cursorCopy = (if s.jobs[j].proofRun then 1 else s.jobs[j].copies) → s.hasUnsettled j = false →
          t.jobs[j].feedPort = none ∧ (∀ p, s.jobs[j].feedPort = some p → t.ports[p].feedOwner = none) ∧
          (s.hasEntries j = true → t.jobs[j].state = .handed ∧ t.jobs[j].reason = none ∧
            (s.jobs[j].double = true → hasBit t.jobs[j].flags 0 = true ∧ t.jobs[j].noticeOwed = true)) ∧
          (s.hasEntries j = false → s.jobs[j].proofRun = false → t.jobs[j].state = .done ∧
            hasBit t.jobs[j].flags 1 = true ∧ t.jobs[j].noticeOwed = true)) ∧
        (∀ p : PortId, s.jobs[j].feedPort = some p → s.jobs[j].pages.length < s.jobs[j].cursorPage →
          s.jobs[j].cursorCopy < s.jobs[j].copies → s.jobs[j].proofRun = false →
          (∀ r, some r ∈ s.jobs[j].pages → s.pages[r].sheeted ≠ s.jobs[j].copies) →
          (s.jobs[j].state = .active →
            t.jobs[j] = { s.jobs[j] with closed := true, cursorCopy := s.jobs[j].cursorCopy + 1, cursorPage := 1 } ∧
            OtherJobsSame j s t ∧ KeepsAllBut [.inbox, .replies, .jobs] s t) ∧
          (s.jobs[j].state = .starved → (∃ r, s.jobs[j].pages[0]? = some (some r)) →
            Attempted { s with
              jobs := s.jobs.set j.val { s.jobs[j] with
                state := .active, reason := none, closed := true, cursorCopy := s.jobs[j].cursorCopy + 1
                cursorPage := 1 }
              ports := s.ports.set p.val { s.ports[p] with starveTimer := none } } t p j ∧
            KeepsAllBut [.inbox, .replies, .jobs, .ports, .accounts, .pressLog, .notices, .passInProgress, .passOwed]
              s t))))

/-- CANCEL_JOB makes the job CANCELLING, releases its feed, aborts its STREAMING entry, and flags CANCELLED without
entries. A taken CANCEL_JOB whose handle names job j. A DONE or CANCELLING job refuses it STATE. Otherwise the reply
is OK and the job is CANCELLING with no wait reason and no feed. Without window entries it is flagged CANCELLED and
owes a notice, joining the notice queue's tail if it owed none; with entries no flag is set. Without a feed nothing
else changes. With port p's feed, p has no feed owner, no owed release and no starve timer, its STREAMING entry
becomes ABORTING and its other entries stay, its send, if it is not ended, stops after the frame on the link, one
ABORT with the entry's serial goes out behind it on p's press link, and p's setup hold goes on. How much page data
has gone out by then is left open (R183, log entry 22). Other jobs and ports are unchanged. -/
def Obligations.CancelJobReleasesAndDrains : Prop :=
  ∀ (s : State) (tag : Byte) (body : List Byte) (j : SlotId), Takes s 0x05 tag body → body.length = 2 →
    Names s (byteAt body 0) (byteAt body 1) j →
    (s.jobs[j].state = .done ∨ s.jobs[j].state = .cancelling → Refuses (.cancelJob tag body) s 0x05 tag 0x07) ∧
    (s.jobs[j].state ≠ .done → s.jobs[j].state ≠ .cancelling → Completes (.cancelJob tag body) s (fun t =>
      Replied s t 0x05 tag 0x00 [] ∧
      t.jobs[j] = { s.jobs[j] with
        state := .cancelling, reason := none, feedPort := none
        flags := if s.hasEntries j then s.jobs[j].flags else addBit s.jobs[j].flags 2
        noticeOwed := s.jobs[j].noticeOwed || !s.hasEntries j } ∧
      OtherJobsSame j s t ∧
      (s.jobs[j].feedPort = none →
        t.notices = s.notices ++ (if s.hasEntries j = false ∧ s.jobs[j].noticeOwed = false then [.job j] else []) ∧
        KeepsAllBut [.inbox, .replies, .jobs, .notices] s t) ∧
      ∀ p : PortId, s.jobs[j].feedPort = some p →
        t.ports[p].feedOwner = none ∧ t.ports[p].releaseOwed = false ∧ t.ports[p].starveTimer = none ∧
        t.ports[p].setup = s.ports[p].setup ∧
        (s.ports[p].holdAsked = false → StreamingAborted s t p) ∧
        t.ports[p].window = s.ports[p].window.map
          (fun e => if e.state = .streaming then { e with state := .aborting } else e) ∧
        (∃ ms, (s.ports[p].window.find? (fun e => e.state == .streaming) = none → ms = []) ∧
          (∀ e, s.ports[p].window.find? (fun e => e.state == .streaming) = some e →
            ∃ cut, (e.ended = true → cut = []) ∧ CutShort s p cut ∧ ms = cut ++ [.abort e.serial]) ∧ Sent s t p ms) ∧
        OtherPortsSame p s t ∧
        KeepsAllBut [.inbox, .replies, .jobs, .ports, .pressLog, .notices, .passInProgress, .passOwed] s t))

/-- MOVE_JOB takes a WAITING job out of its list and puts it at the head, the tail, or behind a second job of the target
list. A taken MOVE_JOB whose handle names job j. A target above 7 or a position above 2 is refused RANGE; a job that
is not WAITING STATE; a DISABLED target QUEUE_CLOSED; a wait set that names the target RANGE; with AFTER, a second
job that is not in the target's list or is j itself RANGE. When the checks pass, the reply is OK, j has left its
queue's list and stands in the target's list first (HEAD), last (TAIL) or directly behind the second job (AFTER);
its Queue field is the target and nothing else of its record changes. A pass is asked for exactly when the target is
in RUN. -/
def Obligations.MoveJobMovesItsPlace : Prop :=
  ∀ (s : State) (tag : Byte) (body : List Byte) (j : SlotId), Takes s 0x06 tag body → body.length = 6 →
    Names s (byteAt body 0) (byteAt body 1) j →
    (7 < (byteAt body 2).toNat ∨ 2 < (byteAt body 3).toNat → Refuses (.moveJob tag body) s 0x06 tag 0x05) ∧
    ∀ q : QueueId, (byteAt body 2).toNat = q.val → (byteAt body 3).toNat ≤ 2 →
      (s.jobs[j].state ≠ .waiting → Refuses (.moveJob tag body) s 0x06 tag 0x07) ∧
      (s.jobs[j].state = .waiting →
        (s.queues[q].mode = .disabled → Refuses (.moveJob tag body) s 0x06 tag 0x09) ∧
        (s.queues[q].mode ≠ .disabled →
          (hasBit s.jobs[j].waitSet q.val = true → Refuses (.moveJob tag body) s 0x06 tag 0x05) ∧
          (hasBit s.jobs[j].waitSet q.val = false →
            (∀ k : SlotId, byteAt body 3 = 2 → Names s (byteAt body 4) (byteAt body 5) k →
              (k ∉ s.queues[q].list ∨ k = j) → Refuses (.moveJob tag body) s 0x06 tag 0x05) ∧
            ∀ rest : List SlotId,
              rest = (if s.jobs[j].queue = q then s.queues[q].list.filter (fun k => k != j) else s.queues[q].list) →
              (byteAt body 3 = 2 → ∃ k : SlotId, Names s (byteAt body 4) (byteAt body 5) k ∧ k ∈ s.queues[q].list ∧
                k ≠ j) →
              Completes (.moveJob tag body) s (fun t =>
                Replied s t 0x06 tag 0x00 [] ∧ t.jobs[j] = { s.jobs[j] with queue := q } ∧ OtherJobsSame j s t ∧
                t.queues[q] = { s.queues[q] with list := t.queues[q].list } ∧
                (byteAt body 3 = 0 → t.queues[q].list = j :: rest) ∧
                (byteAt body 3 = 1 → t.queues[q].list = rest ++ [j]) ∧
                (∀ k : SlotId, byteAt body 3 = 2 → Names s (byteAt body 4) (byteAt body 5) k →
                  ∃ front back, rest = front ++ k :: back ∧ k ∉ front ∧ t.queues[q].list = front ++ k :: j :: back) ∧
                (s.jobs[j].queue ≠ q → t.queues[s.jobs[j].queue] = { s.queues[s.jobs[j].queue] with
                  list := s.queues[s.jobs[j].queue].list.filter (fun k => k != j) }) ∧
                (∀ k : QueueId, k ≠ q → k ≠ s.jobs[j].queue → t.queues[k] = s.queues[k]) ∧
                AskedIf (s.queues[q].mode = .run) s t ∧
                KeepsAllBut [.inbox, .replies, .jobs, .queues, .passInProgress, .passOwed] s t))))

/-- RETRY_JOB makes an ERROR job WAITING with reason NEW and leaves the rest of its record. A taken RETRY_JOB whose
handle names job j. A job in any state but ERROR refuses it STATE. A job in ERROR becomes WAITING/NEW with the reply
OK; the cursor, Started, the proof run, the exclusion, the refuse reason and every other field stay, and so does
every other job. A pass is asked for exactly when the job's queue is in RUN, and nothing else changes. -/
def Obligations.RetryJobMakesAnErrorJobWait : Prop :=
  ∀ (s : State) (tag : Byte) (body : List Byte) (j : SlotId), Takes s 0x07 tag body → body.length = 2 →
    Names s (byteAt body 0) (byteAt body 1) j →
    (s.jobs[j].state ≠ .error → Refuses (.retryJob tag body) s 0x07 tag 0x07) ∧
    (s.jobs[j].state = .error → Completes (.retryJob tag body) s (fun t =>
      Replied s t 0x07 tag 0x00 [] ∧ t.jobs[j] = { s.jobs[j] with state := .waiting, reason := some .new } ∧
      OtherJobsSame j s t ∧ AskedIf (s.queues[s.jobs[j].queue].mode = .run) s t ∧
      KeepsAllBut [.inbox, .replies, .jobs, .passInProgress, .passOwed] s t))

/-- The eight queries answer OK with every field of their record at its offset and change nothing. QUERY_JOB for a
handle that names a job, QUERY_QUEUE, QUERY_PORT, TARIFF_READ, QUERY_ACCOUNT, QUERY_ALERTS, QUERY_STORE and
QUERY_PART, taken with operands in range: the reply is OK, and nothing but the inbox and the reply queue changes
(for QUERY_ALERTS also the model's own count of free values, log entry 13). Its fields are those of the record as it
stands, at the offsets and in the sizes of 11.5: the 55 bytes of a job; 13 bytes of a queue and its ring, and 4 for
each job of the list; 21 bytes of a port, 11 for each window entry and 10 for its two timers (31 and 11n in all, the
model's reading where the heading says 41, log entry 16); the stored and the resolved value of a tariff item; the 20
bytes of an account; the alarm, the count of open alerts, and for each in list order its slot record with flags 0,
its escalation tick if the timer runs (else left open, log entry 13) and its running mark; the 18 bytes of the
store's counts; the 22 bytes of the part with revision 3, start cause, clock, the five timer settings, the FREE
slots, the sources in the notice queue, the requests behind this one and the replies before its reply. -/
def Obligations.QueriesReadAndChangeNothing : Prop :=
  ∀ (s : State) (tag : Byte) (body : List Byte),
    (∀ (j : SlotId) (x : Job), Takes s 0x08 tag body → body.length = 2 → Names s (byteAt body 0) (byteAt body 1) j →
      x = s.jobs[j] → Completes (.queryJob tag body) s (fun t => KeepsAllBut [.inbox, .replies] s t ∧ ∃ fields,
        Replied s t 0x08 tag 0x00 fields ∧ fields.length = 55 ∧ HasFields fields [
          (0, 1, j.val), (1, 1, x.generation.toNat), (2, 2, x.flags.toNat), (4, 1, x.state.code),
          (5, 1, WaitReason.code x.reason), (6, 1, x.queue.val), (7, 1, x.cursorCopy), (8, 2, x.cursorPage),
          (10, 1, optPort x.feedPort), (11, 1, optPort (x.exclusion.map (fun e => e.port))),
          (12, 4, tickOf (x.exclusion.map (fun e => e.tick))), (16, 3, x.sheets), (19, 3, x.faces),
          (22, 3, x.proofFaces), (25, 1, x.copiesDone), (26, 1, x.proofsDone), (33, 1, bitsOf [x.saturated]),
          (34, 1, x.refuseReason.toNat), (35, 1, x.account.val), (36, 1, bitsOf [x.stream, x.rush, x.double]),
          (37, 1, x.copies), (38, 1, x.finishing), (39, 2, x.waitSet.toNat), (41, 2, x.giveSet.toNat),
          (43, 1, bitsOf [x.closed, x.started, x.proofRun]), (44, 2, x.pages.length),
          (46, 1, bitsOf [x.filling.isSome]), (47, 1, x.needsMedia.toNat),
          (48, 1, bitsOf [x.needsColour, x.needsDuplex]), (49, 2, x.portsUsed.toNat), (51, 4, x.admitted.toNat)] ∧
        HasDecimal fields 27 6 x.charge)) ∧
    (∀ (q : QueueId) (x : Queue) (r : Ring), Takes s 0x14 tag body → body.length = 1 → (byteAt body 0).toNat = q.val →
      x = s.queues[q] → r = s.rings[q] →
      Completes (.queryQueue tag body) s (fun t => KeepsAllBut [.inbox, .replies] s t ∧ ∃ fields,
        Replied s t 0x14 tag 0x00 fields ∧ fields.length = 13 + 4 * x.list.length ∧ HasFields fields [
          (0, 1, x.mode.code), (1, 1, x.dispatch.code), (2, 1, bitsOf [x.rotate, x.reroute]),
          (3, 2, x.received.toNat), (5, 2, x.list.length),
          (7, 2, (x.list.filter (fun j => s.jobs[j].feedPort.isSome ||
            (List.finRange 16).any (fun p => s.ports[p].window.any (fun e => e.job == j)))).length),
          (9, 1, r.first), (10, 1, r.last), (11, 1, r.current), (12, 1, bitsOf [r.pinned])] ∧
        ∀ (n : Nat) (j : SlotId), x.list[n]? = some j → HasFields fields [
          (13 + 4 * n, 1, j.val), (14 + 4 * n, 1, s.jobs[j].generation.toNat), (15 + 4 * n, 1, s.jobs[j].state.code),
          (16 + 4 * n, 1, WaitReason.code s.jobs[j].reason)])) ∧
    (∀ (p : PortId) (x : Port) (n : Nat), Takes s 0x33 tag body → body.length = 1 → (byteAt body 0).toNat = p.val →
      x = s.ports[p] → n = 11 * x.window.length →
      Completes (.queryPort tag body) s (fun t => KeepsAllBut [.inbox, .replies] s t ∧ ∃ fields,
        Replied s t 0x33 tag 0x00 fields ∧ fields.length = 31 + n ∧ HasFields fields [
          (0, 1, x.link.code), (1, 1, DownCause.code x.downCause), (2, 1, x.rate.code), (3, 1, x.depth),
          (4, 1, bitsOf [x.ident.isSome]), (5, 1, ((x.ident.map (fun i => i.classCode.toNat)).getD 0)),
          (6, 1, ((x.ident.map (fun i => bitsOf [i.colour, i.duplex, i.fastCapable])).getD 0)),
          (7, 1, ((x.ident.map (fun i => i.media.toNat)).getD 0)), (8, 1, ((x.ident.map (fun i => i.depth)).getD 0)),
          (9, 1, bitsOf [x.inService, x.holdAsked, x.releaseOwed]), (10, 1, (s.service p).code),
          (11, 1, x.status.toNat), (12, 1, x.loaded.val), (13, 1, bitsOf [x.feedOwner.isSome]),
          (14, 1, ((x.feedOwner.map (fun j => j.val)).getD 0)),
          (15, 1, ((x.feedOwner.map (fun j => s.jobs[j].generation.toNat)).getD 0)),
          (16, 1, ((x.setup.map (fun m => m.val)).getD 255)), (17, 1, bitsOf [x.stallReported]),
          (18, 2, x.nextSerial.toNat), (20, 1, x.window.length), (21 + n, 1, bitsOf [x.starveTimer.isSome]),
          (22 + n, 4, tickOf x.starveTimer), (26 + n, 1, bitsOf [x.setupTimer.isSome]),
          (27 + n, 4, tickOf x.setupTimer)] ∧
        ∀ (k : Nat) (e : SendEntry), x.window[k]? = some e → HasFields fields [
          (21 + 11 * k, 2, e.serial.toNat), (23 + 11 * k, 1, e.job.val),
          (24 + 11 * k, 1, s.jobs[e.job].generation.toNat), (25 + 11 * k, 2, e.place), (27 + 11 * k, 1, e.copy),
          (28 + 11 * k, 1, e.faces), (29 + 11 * k, 1, e.colour.code), (30 + 11 * k, 1, e.state.code),
          (31 + 11 * k, 1, bitsOf [e.ended])])) ∧
    (∀ (g : Fin 8) (stored : Option (Nat × Nat)) (resolved : Nat × Nat), Takes s 0x41 tag body → body.length = 4 →
      (byteAt body 0).toNat = g.val →
      (∃ (m : Media) (c : Colour), byteAt body 1 = 0 ∧ (byteAt body 2).toNat = m.val ∧ (byteAt body 3).toNat = c.code ∧
          stored = s.tariffs[g].rates[rateKey m c].map (fun r => (r.front, r.back)) ∧
          resolved = stored.getD
            ((s.tariffs[(7 : Fin 8)].rates[rateKey m c].map (fun r => (r.front, r.back))).getD (0, 0))) ∨
        (∃ k : Fin 3, byteAt body 1 = 1 ∧ (byteAt body 2).toNat = k.val + 1 ∧
          stored = s.tariffs[g].surcharges[k].map (fun n => (n, 0)) ∧
          resolved = stored.getD ((s.tariffs[(7 : Fin 8)].surcharges[k].map (fun n => (n, 0))).getD (0, 0))) →
      Completes (.tariffRead tag body) s (fun t => KeepsAllBut [.inbox, .replies] s t ∧ ∃ fields,
        Replied s t 0x41 tag 0x00 fields ∧ fields.length = 18 ∧
        HasFields fields [(0, 1, bitsOf [stored.isNone]), (9, 1, 0)] ∧
        HasDecimal fields 1 4 (stored.getD (0, 0)).1 ∧ HasDecimal fields 5 4 (stored.getD (0, 0)).2 ∧
        HasDecimal fields 10 4 resolved.1 ∧ HasDecimal fields 14 4 resolved.2)) ∧
    (∀ (a : AccountId) (x : Account), Takes s 0x53 tag body → body.length = 1 → (byteAt body 0).toNat = a.val →
      x = s.accounts[a] → Completes (.queryAccount tag body) s (fun t => KeepsAllBut [.inbox, .replies] s t ∧ ∃ fields,
        Replied s t 0x53 tag 0x00 fields ∧ fields.length = 20 ∧ HasFields fields [
          (0, 1, bitsOf [x.enabled, x.unmetered]), (1, 1, x.group.val), (2, 2, x.discount), (4, 3, x.allowance),
          (7, 3, x.reserved), (10, 3, x.periodFaces), (19, 1, bitsOf [x.saturated])] ∧
        HasDecimal fields 13 6 x.periodCharge)) ∧
    (Takes s 0x62 tag [] → Completes (.queryAlerts tag []) s (fun t => KeepsAllBut [.inbox, .replies, .freeCount] s t ∧
      ∃ records : List (List Byte),
        Replied s t 0x62 tag 0x00 (yesNo s.alarm :: u8 s.openAlerts.length :: records.flatten) ∧
        records.length = s.openAlerts.length ∧
        ∀ (k : Nat) (a : AlertId) (x : AlertSlot) (fields : List Byte) (n : Nat), s.openAlerts[k]? = some a →
          records[k]? = some fields → x = s.alerts[a] → n = 2 * x.affected.length → fields.length = 20 + n ∧
          HasFields fields [
            (0, 1, a.val), (1, 1, 0), (2, 1, bitsOf [x.isOpen]), (3, 1, AlertKind.code x.primary),
            (4, 1, x.additional.toNat), (5, 1, x.standing.toNat), (6, 1, x.location.toNat), (7, 4, x.raised.toNat),
            (11, 1, x.level), (12, 1, bitsOf [x.acknowledged, x.attendant, x.hostReleased]), (13, 1, x.repeats),
            (14, 1, x.affected.length), (19 + n, 1, bitsOf [x.timer.isSome])] ∧
          (∀ e, x.timer = some e → HasFields fields [(15 + n, 4, e.toNat)]) ∧
          ∀ (i : Nat) (h : Handle), x.affected[i]? = some h →
            HasFields fields [(15 + 2 * i, 1, h.slot.val), (16 + 2 * i, 1, h.generation.toNat)])) ∧
    (∀ count : PageState → Nat × Nat, (∀ c, count c =
        ((s.pages.toList.filter (fun r => r.state == c)).length,
          ((s.pages.toList.filter (fun r => r.state == c)).map (fun r => r.chain.length)).sum)) →
      Takes s 0x71 tag [] → Completes (.queryStore tag []) s (fun t => KeepsAllBut [.inbox, .replies] s t ∧ ∃ fields,
        Replied s t 0x71 tag 0x00 fields ∧ fields.length = 18 ∧ HasFields fields [
          (0, 4, s.freePool.length), (4, 2, (count .free).1), (6, 2, (count .filling).1), (8, 2, (count .sealed).1),
          (10, 4, (count .filling).2), (14, 4, (count .sealed).2)])) ∧
    (Takes s 0x72 tag [] → Completes (.queryPart tag []) s (fun t => KeepsAllBut [.inbox, .replies] s t ∧ ∃ fields,
      Replied s t 0x72 tag 0x00 fields ∧ fields.length = 22 ∧ HasFields fields [
        (0, 2, 3), (2, 1, s.startCause.code), (3, 4, s.clock.toNat), (7, 1, s.timers.starve),
        (8, 2, s.timers.setupStall), (10, 2, s.timers.escalation1), (12, 2, s.timers.escalation2),
        (14, 2, s.timers.reroute), (16, 2, (s.jobs.toList.filter (fun x => x.state == .free)).length),
        (18, 2, s.notices.length), (20, 1, s.inbox.length - 1), (21, 1, s.replies.length)]))

/-- QUEUE_MODE takes or refuses each change of mode as the table of R29 says. A taken QUEUE_MODE. A queue above 7 or a
mode code above 3 is refused RANGE. The mode that the queue has already is answered OK and changes nothing. DISABLED
or LOAD to HALT, RUN to DISABLED or LOAD, and HALT to DISABLED or LOAD while a job of the list holds a feed or has a
window entry, are refused STATE. A taken change to DISABLED or LOAD writes the mode and empties the received set and
changes nothing else. A taken change to RUN writes the mode and asks for a pass, and nothing else changes. -/
def Obligations.QueueModeFollowsItsTable : Prop :=
  ∀ (s : State) (tag : Byte) (body : List Byte), Takes s 0x10 tag body → body.length = 2 →
    (7 < (byteAt body 0).toNat ∨ 3 < (byteAt body 1).toNat → Refuses (.queueMode tag body) s 0x10 tag 0x05) ∧
    ∀ (q : QueueId) (m : QueueMode), (byteAt body 0).toNat = q.val → (byteAt body 1).toNat = m.code →
      (s.queues[q].mode = m → Completes (.queueMode tag body) s (fun t =>
        Replied s t 0x10 tag 0x00 [] ∧ KeepsAllBut [.inbox, .replies] s t)) ∧
      ((s.queues[q].mode = .disabled ∨ s.queues[q].mode = .load) ∧ m = .halt ∨
        s.queues[q].mode = .run ∧ (m = .disabled ∨ m = .load) ∨
        s.queues[q].mode = .halt ∧ (m = .disabled ∨ m = .load) ∧ (∃ j ∈ s.queues[q].list,
          s.jobs[j].feedPort ≠ none ∨ ∃ p : PortId, ∃ e ∈ s.ports[p].window, e.job = j) →
        Refuses (.queueMode tag body) s 0x10 tag 0x07) ∧
      (s.queues[q].mode = .disabled ∧ m = .load ∨ s.queues[q].mode = .load ∧ m = .disabled ∨
          s.queues[q].mode = .halt ∧ (m = .disabled ∨ m = .load) ∧ (∀ j ∈ s.queues[q].list,
            s.jobs[j].feedPort = none ∧ ∀ p : PortId, ∀ e ∈ s.ports[p].window, e.job ≠ j) →
        Completes (.queueMode tag body) s (fun t => Replied s t 0x10 tag 0x00 [] ∧
          t.queues[q] = { s.queues[q] with mode := m, received := 0 } ∧ OtherQueuesSame q s t ∧
          KeepsAllBut [.inbox, .replies, .queues] s t)) ∧
      (s.queues[q].mode ≠ .run → m = .run → Completes (.queueMode tag body) s (fun t =>
        Replied s t 0x10 tag 0x00 [] ∧ t.queues[q] = { s.queues[q] with mode := .run } ∧ OtherQueuesSame q s t ∧
        Asked s t ∧ KeepsAllBut [.inbox, .replies, .queues, .passInProgress, .passOwed] s t))

/-- A queue that enters HALT from RUN takes the feeds of its jobs, which wait with reason HALT. A taken QUEUE_MODE to
HALT for a queue in RUN, in a state where feeds and jobs agree (FeedsAgree, an invariant of its own). Each ACTIVE or
STARVED job of the queue's list becomes WAITING/HALT without a feed, and nothing else of its record changes; every
other job is unchanged. A port that such a job fed has no feed owner, no owed release and no starve timer; its
STREAMING entries are ABORTING, its other entries, serial and setup hold stay, and for its first STREAMING entry an
ABORT goes out on its press link (in which order among several ports, R30 leaves open, log entry 28). Every other
port is unchanged. No job is flagged. -/
def Obligations.HaltTakesTheFeedsOfItsQueue : Prop :=
  ∀ (s : State) (tag : Byte) (body : List Byte) (q : QueueId), Takes s 0x10 tag body → body.length = 2 →
    (byteAt body 0).toNat = q.val → byteAt body 1 = 3 → s.queues[q].mode = .run → FeedsAgree s →
    Completes (.queueMode tag body) s (fun t =>
      Replied s t 0x10 tag 0x00 [] ∧ t.queues[q] = { s.queues[q] with mode := .halt } ∧ OtherQueuesSame q s t ∧
      (∀ j : SlotId, j ∈ s.queues[q].list → (s.jobs[j].state = .active ∨ s.jobs[j].state = .starved) →
        t.jobs[j] = { s.jobs[j] with state := .waiting, reason := some .halt, feedPort := none } ∧
        ∀ p : PortId, s.jobs[j].feedPort = some p →
          t.ports[p].feedOwner = none ∧ t.ports[p].releaseOwed = false ∧ t.ports[p].starveTimer = none ∧
          t.ports[p].setup = s.ports[p].setup ∧ t.ports[p].nextSerial = s.ports[p].nextSerial ∧
          t.ports[p].window = s.ports[p].window.map
            (fun e => if e.state = .streaming then { e with state := .aborting } else e) ∧
          ∀ e, s.ports[p].window.find? (fun x => x.state == .streaming) = some e →
            (p, PressMessage.abort e.serial) ∈ t.pressLog) ∧
      (∀ j : SlotId, (j ∈ s.queues[q].list → s.jobs[j].state ≠ .active ∧ s.jobs[j].state ≠ .starved) →
        t.jobs[j] = s.jobs[j]) ∧
      (∀ p : PortId, (∀ j, s.ports[p].feedOwner = some j → j ∉ s.queues[q].list) → t.ports[p] = s.ports[p]) ∧
      KeepsAllBut [.inbox, .replies, .queues, .jobs, .ports, .pressLog, .notices, .passInProgress, .passOwed] s t)

/-- QUEUE_DISPATCH and QUEUE_OPTIONS write their fields in every mode and ask for a pass in RUN. A taken QUEUE_DISPATCH:
a queue above 7 or a code above 3 is refused RANGE. Otherwise the queue's dispatch state is the one sent. A taken
QUEUE_OPTIONS with bits 2 to 7 of its options 0: a queue above 7 is refused RANGE. Otherwise ROTATE is bit 0 and
REROUTE bit 1. In every mode the reply is OK, a proposal standing in the queue's place is marked as written since
its examination, a pass is asked for exactly when the queue is in RUN, and nothing else changes. -/
def Obligations.DispatchStateAndOptionsAreWritten : Prop :=
  ∀ (s : State) (tag : Byte) (body : List Byte), body.length = 2 →
    (Takes s 0x11 tag body →
      (7 < (byteAt body 0).toNat ∨ 3 < (byteAt body 1).toNat → Refuses (.queueDispatch tag body) s 0x11 tag 0x05) ∧
      ∀ (q : QueueId) (d : DispatchState), (byteAt body 0).toNat = q.val → (byteAt body 1).toNat = d.code →
        Completes (.queueDispatch tag body) s (fun t => Replied s t 0x11 tag 0x00 [] ∧
          t.queues[q] = { s.queues[q] with dispatch := d } ∧ OtherQueuesSame q s t ∧
          t.proposals[q] = s.proposals[q].map (fun x => { x with written := true }) ∧
          (∀ k : QueueId, k ≠ q → t.proposals[k] = s.proposals[k]) ∧ AskedIf (s.queues[q].mode = .run) s t ∧
          KeepsAllBut [.inbox, .replies, .queues, .proposals, .passInProgress, .passOwed] s t)) ∧
    (Takes s 0x12 tag body → (byteAt body 1).toNat < 4 →
      (7 < (byteAt body 0).toNat → Refuses (.queueOptions tag body) s 0x12 tag 0x05) ∧
      ∀ q : QueueId, (byteAt body 0).toNat = q.val →
        Completes (.queueOptions tag body) s (fun t => Replied s t 0x12 tag 0x00 [] ∧
          t.queues[q] = { s.queues[q] with
            rotate := hasBit (byteAt body 1) 0, reroute := hasBit (byteAt body 1) 1 } ∧ OtherQueuesSame q s t ∧
          t.proposals[q] = s.proposals[q].map (fun x => { x with written := true }) ∧
          (∀ k : QueueId, k ≠ q → t.proposals[k] = s.proposals[k]) ∧ AskedIf (s.queues[q].mode = .run) s t ∧
          KeepsAllBut [.inbox, .replies, .queues, .proposals, .passInProgress, .passOwed] s t))

/-- Marks by MARK and the finishing line reach queues in RUN and HALT, and a pulse of the mark output is counted at its
end. A taken MARK: a queue above 7, a sender above 8 or a sender that is the queue itself is refused RANGE; a queue
in DISABLED or LOAD refuses it STATE; otherwise the member joins the received set or is absorbed, the reply OK
carries the set after it, and a pass is asked for exactly when the queue is in RUN and the member was new.
FINISHING_MARK_EDGE outside the start interval: EXT joins the received set of every queue in RUN or HALT and no
other; with a RUN queue that gains it a pass is in progress afterwards (owed if one was in progress), and with none
no pass is asked for. In the start interval the edge changes nothing. Nothing else changes. That an absorbed mark
asks for no pass is the model's reading of R39 and R44 against the worked text of 2.10 (log entry 9).
MARK_PULSE_HIGH_END while the line is high puts it into its low gap; MARK_PULSE_END in the low gap lowers the count
of owed pulses by one, except for a pulse that was on the line at a RESTART (the model's reading of R45, log entry
17), and begins the next owed pulse or leaves the line idle; in another phase the two change nothing, which is the
model's choice (log entry 1). -/
def Obligations.MarksReachTheirQueues : Prop :=
  (∀ (s : State) (tag : Byte) (body : List Byte), Takes s 0x13 tag body → body.length = 2 →
    (7 < (byteAt body 0).toNat ∨ 8 < (byteAt body 1).toNat ∨ byteAt body 1 = byteAt body 0 →
      Refuses (.mark tag body) s 0x13 tag 0x05) ∧
    ∀ (q : QueueId) (m : Nat), (byteAt body 0).toNat = q.val → (byteAt body 1).toNat = m → m ≤ 8 → m ≠ q.val →
      (s.queues[q].mode = .disabled ∨ s.queues[q].mode = .load → Refuses (.mark tag body) s 0x13 tag 0x07) ∧
      (s.queues[q].mode = .run ∨ s.queues[q].mode = .halt → Completes (.mark tag body) s (fun t =>
        Replied s t 0x13 tag 0x00 (beBytes 2 (addBit s.queues[q].received m).toNat) ∧
        t.queues[q] = { s.queues[q] with received := addBit s.queues[q].received m } ∧ OtherQueuesSame q s t ∧
        AskedIf (s.queues[q].mode = .run ∧ hasBit s.queues[q].received m = false) s t ∧
        KeepsAllBut [.inbox, .replies, .queues, .passInProgress, .passOwed] s t))) ∧
  (∀ s : State,
    (s.startInterval = true → exec .finishingMarkEdge s = .next s) ∧
    (s.startInterval = false → Completes .finishingMarkEdge s (fun t =>
      (∀ q : QueueId, t.queues[q] = if s.queues[q].mode = .run ∨ s.queues[q].mode = .halt then
        { s.queues[q] with received := addBit s.queues[q].received 8 } else s.queues[q]) ∧
      ((∃ q : QueueId, s.queues[q].mode = .run ∧ hasBit s.queues[q].received 8 = false) →
        t.passInProgress = true ∧ (s.passInProgress = true → t.passOwed = true)) ∧
      ((∀ q : QueueId, s.queues[q].mode = .run → hasBit s.queues[q].received 8 = true) → NotAsked s t) ∧
      KeepsAllBut [.queues, .passInProgress, .passOwed] s t))) ∧
  ∀ s : State,
    (s.markLine.phase = .high → exec .markPulseHighEnd s =
      .next { s with markLine := { s.markLine with phase := .gap } }) ∧
    (s.markLine.phase ≠ .high → exec .markPulseHighEnd s = .next s) ∧
    (s.markLine.phase = .gap → ∀ n, n = (if s.markLine.counted then s.markLine.owed - 1 else s.markLine.owed) →
      exec .markPulseEnd s = .next { s with markLine :=
        { owed := n, phase := if 0 < n then .high else .idle, counted := true } }) ∧
    (s.markLine.phase ≠ .gap → exec .markPulseEnd s = .next s)

/-- MEMBER_SET adds a port to a row and MEMBER_CLEAR removes it, and each asks for a pass. A taken MEMBER_SET or
MEMBER_CLEAR: a row above 63 or a port above 15 is refused RANGE and the row stays. Otherwise the port is in the row
after MEMBER_SET and not in it after MEMBER_CLEAR, every other member of the row and every other row stay as they
were, the reply OK carries the row's set after the request, and a dispatch pass is asked for. Nothing else changes. -/
def Obligations.MemberRequestsChangeOneMember : Prop :=
  ∀ (s : State) (tag : Byte) (body : List Byte) (kind : Byte) (c : Instr),
    (kind = 0x21 ∧ c = .memberSet tag body ∨ kind = 0x22 ∧ c = .memberClear tag body) →
    Takes s kind tag body → body.length = 2 →
    (63 < (byteAt body 0).toNat ∨ 15 < (byteAt body 1).toNat → Refuses c s kind tag 0x05) ∧
    ∀ (n : Fin 64) (p : PortId), (byteAt body 0).toNat = n.val → (byteAt body 1).toNat = p.val →
      Completes c s (fun t =>
        Replied s t kind tag 0x00 (beBytes 2 t.rows[n].toNat) ∧
        (∀ k : PortId, hasBit t.rows[n] k.val = if k = p then decide (kind = 0x21) else hasBit s.rows[n] k.val) ∧
        (∀ i : Fin 64, i ≠ n → t.rows[i] = s.rows[i]) ∧ Asked s t ∧
        KeepsAllBut [.inbox, .replies, .rows, .passInProgress, .passOwed] s t)

/-- ROW_WRITE replaces a row, ROUTE_SET writes a ring by its action, ROUTE_STEP turns it, and each asks for a pass.
ROW_WRITE: a row above 63 is refused RANGE; otherwise the row is the set of its two bytes. ROUTE_SET: a queue above
7 or an action above 2, S above E or E above 63, and a current row (the request's, or with UNPIN the ring's) outside
S to E are refused RANGE; otherwise S and E are written, POINT and PIN write C, PIN pins and UNPIN unpins.
ROUTE_STEP: a queue above 7 or a direction above 1 is refused RANGE; NEXT goes to C + 1, or from E to S, and PREV to
C - 1, or from S to E. A taken request is answered OK with the row or ring as it stands, marks a standing proposal
of the queue whose ring it writes, asks for a pass and changes nothing else. -/
def Obligations.RowsAndRingsAreWritten : Prop :=
  ∀ (s : State) (tag : Byte) (body : List Byte),
    (Takes s 0x20 tag body → body.length = 3 →
      (63 < (byteAt body 0).toNat → Refuses (.rowWrite tag body) s 0x20 tag 0x05) ∧
      ∀ n : Fin 64, (byteAt body 0).toNat = n.val → Completes (.rowWrite tag body) s (fun t =>
        Replied s t 0x20 tag 0x00 [byteAt body 1, byteAt body 2] ∧
        t.rows[n].toNat = 256 * (byteAt body 1).toNat + (byteAt body 2).toNat ∧
        (∀ i : Fin 64, i ≠ n → t.rows[i] = s.rows[i]) ∧ Asked s t ∧
        KeepsAllBut [.inbox, .replies, .rows, .passInProgress, .passOwed] s t)) ∧
    (∀ (e : Nat) (c : Nat), Takes s 0x23 tag body → body.length = 5 → (byteAt body 2).toNat = e →
      (7 < (byteAt body 0).toNat ∨ 2 < (byteAt body 4).toNat → Refuses (.routeSet tag body) s 0x23 tag 0x05) ∧
      ∀ q : QueueId, (byteAt body 0).toNat = q.val → (byteAt body 4).toNat ≤ 2 →
        c = (if byteAt body 4 = 2 then s.rings[q].current else (byteAt body 3).toNat) →
        (e < (byteAt body 1).toNat ∨ 63 < e ∨ c < (byteAt body 1).toNat ∨ e < c →
          Refuses (.routeSet tag body) s 0x23 tag 0x05) ∧
        ((byteAt body 1).toNat ≤ c → c ≤ e → e ≤ 63 → Completes (.routeSet tag body) s (fun t =>
          Replied s t 0x23 tag 0x00
            [byteAt body 1, byteAt body 2, u8 c, if t.rings[q].pinned then 1 else 0] ∧
          t.rings[q] = { first := (byteAt body 1).toNat, last := e, current := c
                         pinned := if byteAt body 4 = 0 then s.rings[q].pinned else byteAt body 4 == 1 } ∧
          (∀ k : QueueId, k ≠ q → t.rings[k] = s.rings[k] ∧ t.proposals[k] = s.proposals[k]) ∧
          t.proposals[q] = s.proposals[q].map (fun x => { x with written := true }) ∧ Asked s t ∧
          KeepsAllBut [.inbox, .replies, .rings, .proposals, .passInProgress, .passOwed] s t))) ∧
    (Takes s 0x24 tag body → body.length = 2 →
      (7 < (byteAt body 0).toNat ∨ 1 < (byteAt body 1).toNat → Refuses (.routeStep tag body) s 0x24 tag 0x05) ∧
      ∀ q : QueueId, (byteAt body 0).toNat = q.val → (byteAt body 1).toNat ≤ 1 →
        Completes (.routeStep tag body) s (fun t =>
          Replied s t 0x24 tag 0x00 [u8 s.rings[q].first, u8 s.rings[q].last, u8 t.rings[q].current,
            if s.rings[q].pinned then 1 else 0] ∧
          t.rings[q] = { s.rings[q] with current := t.rings[q].current } ∧
          t.rings[q].current = (if byteAt body 1 = 0 then
              (if s.rings[q].current = s.rings[q].last then s.rings[q].first else s.rings[q].current + 1)
            else if s.rings[q].current = s.rings[q].first then s.rings[q].last else s.rings[q].current - 1) ∧
          (∀ k : QueueId, k ≠ q → t.rings[k] = s.rings[k] ∧ t.proposals[k] = s.proposals[k]) ∧
          t.proposals[q] = s.proposals[q].map (fun x => { x with written := true }) ∧ Asked s t ∧
          KeepsAllBut [.inbox, .replies, .rings, .proposals, .passInProgress, .passOwed] s t))

/-- A dispatch pass grants a free port to the first waiting job of a queue and offers its next page. DISPATCH_PASS with
a pass in progress and one queue in RUN, in STEP or FREE, with one job: WAITING, never-started, Closed, its marks
there, without entries or exclusion, at a sealed page whose faces its account can reserve. The ring's current row
holds a claimable port p whose Ident covers the Needs and the page, the row's lower ports are not eligible for the
job (R76), and p's window has room, is all TAKEN, and no send is in progress. Then the job is ACTIVE and Started
with p's feed, p joins Ports used, its marks are consumed, STEP becomes HOLD, and the ring turns to the row after
the one used if unpinned with ROTATE on. With the page's media loaded, its faces are reserved, one STREAMING entry
with the next serial joins the window, the OFFER goes out and the cursor moves on; else a setup hold begins with a
SETUP message. The table is empty afterwards, and a further pass is in progress, because a grant asks for one (R39,
R79; log entry 9). Jobs, queues, rings, ports and accounts besides are unchanged. -/
def Obligations.DispatchPassStartsAJob : Prop :=
  ∀ (s : State) (q : QueueId) (j : SlotId) (p : PortId) (n : Fin 64) (r : RecordId) (i : Ident),
    s.passInProgress = true → s.queues[q].mode = .run → (∀ k : QueueId, k ≠ q → s.queues[k].mode ≠ .run) →
    (s.queues[q].dispatch = .step ∨ s.queues[q].dispatch = .free) → s.queues[q].list = [j] →
    s.jobs[j].state = .waiting → s.jobs[j].queue = q → s.jobs[j].started = false → s.jobs[j].proofRun = false →
    s.jobs[j].closed = true → subBits s.jobs[j].waitSet s.queues[q].received = true →
    s.jobs[j].exclusion = none → s.hasEntries j = false →
    0 < s.jobs[j].cursorPage → s.jobs[j].pages[s.jobs[j].cursorPage - 1]? = some (some r) →
    (s.accounts[s.jobs[j].account].unmetered = true ∨
      s.accounts[s.jobs[j].account].reserved + s.pages[r].sides ≤ s.accounts[s.jobs[j].account].allowance) →
    s.rings[q].current = n.val → s.rings[q].current ≤ s.rings[q].last →
    hasBit s.rows[n] p.val = true → (∀ k : PortId, k < p → hasBit s.rows[n] k.val = true → ¬MayClaim s k j) →
    s.ports[p].link = .up → s.service p = .ready → s.ports[p].ident = some i →
    i.coversNeeds s.jobs[j] = true → i.covers s.pages[r] = true →
    s.ports[p].window.length < s.ports[p].depth → (∀ e ∈ s.ports[p].window, e.state = .taken) →
    s.ports[p].sending = none →
    Completes .dispatchPass s (fun t =>
      t.jobs[j].state = .active ∧ t.jobs[j].reason = none ∧ t.jobs[j].feedPort = some p ∧
      t.jobs[j].started = true ∧ t.jobs[j].proofRun = false ∧
      t.jobs[j].portsUsed = addBit s.jobs[j].portsUsed p.val ∧ OtherJobsSame j s t ∧
      t.ports[p].feedOwner = some j ∧ OtherPortsSame p s t ∧
      t.queues[q] = { s.queues[q] with
        received := minusBits s.queues[q].received s.jobs[j].waitSet
        dispatch := if s.queues[q].dispatch = .step then .hold else s.queues[q].dispatch } ∧
      OtherQueuesSame q s t ∧
      t.rings[q] = { s.rings[q] with current :=
        if s.rings[q].pinned = false ∧ s.queues[q].rotate = true then
          (if n.val = s.rings[q].last then s.rings[q].first else n.val + 1)
        else n.val } ∧
      (∀ k : QueueId, k ≠ q → t.rings[k] = s.rings[k]) ∧ (∀ k : QueueId, t.proposals[k] = none) ∧
      t.passInProgress = true ∧ t.passOwed = false ∧
      (s.ports[p].loaded = s.pages[r].media →
        t.accounts[s.jobs[j].account] = { s.accounts[s.jobs[j].account] with
          reserved := s.accounts[s.jobs[j].account].reserved + s.pages[r].sides } ∧
        OtherAccountsSame s.jobs[j].account s t ∧
        t.ports[p].window = s.ports[p].window ++
          [{ serial := s.ports[p].nextSerial, job := j, place := s.jobs[j].cursorPage, copy := s.jobs[j].cursorCopy
             faces := s.pages[r].sides, colour := s.pages[r].colour, state := .streaming, ended := false }] ∧
        t.ports[p].nextSerial = s.ports[p].nextSerial + 1 ∧
        t.ports[p].sending = some s.ports[p].nextSerial ∧
        t.pressLog = s.pressLog ++ [(p, .offer s.ports[p].nextSerial (u8 j.val) (u8 s.jobs[j].cursorCopy)
          s.pages[r].attr s.pages[r].length)] ∧
        (t.jobs[j].cursorCopy, t.jobs[j].cursorPage) =
          if s.jobs[j].cursorPage = s.jobs[j].pages.length ∧ s.jobs[j].cursorCopy < s.jobs[j].copies then
            (s.jobs[j].cursorCopy + 1, 1)
          else (s.jobs[j].cursorCopy, s.jobs[j].cursorPage + 1)) ∧
      (s.ports[p].loaded ≠ s.pages[r].media →
        t.accounts = s.accounts ∧ t.ports[p].window = s.ports[p].window ∧
        t.ports[p].setup = some s.pages[r].media ∧ t.ports[p].stallReported = false ∧
        t.ports[p].setupTimer = some (s.clock + BitVec.ofNat 32 (10 * s.timers.setupStall)) ∧
        t.pressLog = s.pressLog ++ [(p, .setup s.pages[r].media)] ∧
        (t.jobs[j].cursorCopy, t.jobs[j].cursorPage) = (s.jobs[j].cursorCopy, s.jobs[j].cursorPage)) ∧
      KeepsAllBut [.jobs, .queues, .ports, .rings, .proposals, .passInProgress, .passOwed, .accounts, .pressLog,
        .freeCount] s t)

/-- A pass grants the first job of a list that passes every test, for real, as a proof or as a reclaim, and one queue of
two that want a port. DISPATCH_PASS with a pass in progress. (1) One queue in RUN. In its list each job before j is
passed over by tests 2 to 5 of R38, or lacks marks; j passes every test with port p, the first eligible for it
(R76), found in row n; each job behind j is passed over, also because it is never-started and HOLD stands after the
grant. Then p is granted to j: a first real start in STEP or FREE makes it Started, consumes its marks and turns
STEP to HOLD; a proof start in PROOF begins a proof run, consumes no marks and turns PROOF to HOLD; a reclaim of a
Started job, or of one in a proof run, changes neither marks nor dispatch state, and so it is in HOLD too. The ring
turns by the row used. p's window is as it was or has j's page behind it. The jobs that lack marks read MARKS, and
every other job, queue, ring and port stays. (2) Two queues in RUN with one job each, both jobs passing every test
with the same port p, the only port of the second queue's ring that is eligible for its job; the accounts differ.
The lower-numbered queue is granted p. The other queue keeps its marks, its dispatch state, its options and its
ring, and its job, still WAITING, reads ROUTE, or DRAIN if it has entries in p's window. In both cases the proposal
table is empty afterwards and a further pass is in progress, because a grant and a loss ask for one (log entry 9). -/
def Obligations.DispatchPassDecidesContests : Prop :=
  (∀ (s : State) (q : QueueId) (j : SlotId) (p : PortId) (n : Fin 64) (r : RecordId) (front back : List SlotId),
    s.passInProgress = true → (∀ k : QueueId, k ≠ q → s.queues[k].mode ≠ .run) →
    s.queues[q].list = front ++ j :: back → j ∉ front → Dispatchable s q j p n r →
    (∀ k ∈ front, PassedOver s q k ∨ LacksMarks s q k) →
    (∀ k ∈ back, PassedOver s q k ∨ (s.jobs[k].started = false ∧ s.jobs[k].proofRun = false ∧
      s.jobs[j].started = false ∧ s.jobs[j].proofRun = false ∧ s.queues[q].dispatch ≠ .free)) →
    Completes .dispatchPass s (fun t =>
      Granted s t q j p n ∧
      (∀ k ∈ front, PassedOver s q k → t.jobs[k] = s.jobs[k]) ∧
      (∀ k ∈ front, LacksMarks s q k → t.jobs[k] = { s.jobs[k] with reason := some .marks }) ∧
      (∀ k : SlotId, k ≠ j → k ∉ front → t.jobs[k] = s.jobs[k]) ∧
      OtherQueuesSame q s t ∧ OtherPortsSame p s t ∧ OtherAccountsSame s.jobs[j].account s t ∧
      (∀ k : QueueId, k ≠ q → t.rings[k] = s.rings[k]) ∧ (∀ k : QueueId, t.proposals[k] = none) ∧
      t.passInProgress = true ∧ t.passOwed = false ∧
      KeepsAllBut [.jobs, .queues, .ports, .rings, .proposals, .passInProgress, .passOwed, .accounts, .pressLog,
        .freeCount] s t)) ∧
  ∀ (s : State) (q q' : QueueId) (j j' : SlotId) (p : PortId) (n n' : Fin 64) (r r' : RecordId),
    s.passInProgress = true → q < q' → (∀ k : QueueId, k ≠ q → k ≠ q' → s.queues[k].mode ≠ .run) →
    s.queues[q].list = [j] → s.queues[q'].list = [j'] → Dispatchable s q j p n r → Dispatchable s q' j' p n' r' →
    s.jobs[j].account ≠ s.jobs[j'].account →
    (∀ (m : Fin 64) (k : PortId), s.rings[q'].first ≤ m.val → m.val ≤ s.rings[q'].last → hasBit s.rows[m] k.val = true →
      k ≠ p → ¬MayClaim s k j') → s.rings[q'].first ≤ s.rings[q'].current →
    Completes .dispatchPass s (fun t =>
      Granted s t q j p n ∧
      t.jobs[j'] = { s.jobs[j'] with
        reason := some (if s.ports[p].window.any (fun e => e.job == j') then .drain else .route) } ∧
      (∀ k : SlotId, k ≠ j → k ≠ j' → t.jobs[k] = s.jobs[k]) ∧ OtherQueuesSame q s t ∧
      OtherPortsSame p s t ∧ OtherAccountsSame s.jobs[j].account s t ∧ (∀ k : QueueId, k ≠ q → t.rings[k] = s.rings[k]) ∧
      (∀ k : QueueId, t.proposals[k] = none) ∧ t.passInProgress = true ∧ t.passOwed = false ∧
      KeepsAllBut [.jobs, .queues, .ports, .rings, .proposals, .passInProgress, .passOwed, .accounts, .pressLog,
        .freeCount] s t)

/-- An examination that proposes nothing writes the reason of the first test that the job fails, and the pass ends.
DISPATCH_PASS with a pass in progress and at most queue q in RUN, with one job in its list. A job that is not
WAITING, is neither Closed nor STREAM, has no sendable page at its cursor, or is never-started in HOLD, or in PROOF
without being Closed, keeps its record. Otherwise its reason becomes MARKS when it is never-started, not in PROOF,
and its wait set is not in the received set; ALLOWANCE when its account cannot reserve the page's faces; DRAIN when
its entries stand at a port that is not claimable; ROUTE when no port of the rows tried (the current row of a pinned
ring, every row of another) is eligible for it by R76: one that is not UP and READY, whose Ident lacks a Need, that
its exclusion names, with REROUTE off or before the reroute tick of an exclusion, or while its entries stand at
another port; the first of these that holds. Nothing else changes but the proposal table, which is empty, and the
pass, which ends; an owed pass begins. With no queue in RUN nothing else changes either. While no pass is in
progress the command changes nothing (log entry 1). -/
def Obligations.ExaminationWritesTheFirstFailedTest : Prop :=
  (∀ s : State, s.passInProgress = false → exec .dispatchPass s = .next s) ∧
  (∀ s : State, s.passInProgress = true → (∀ k : QueueId, s.queues[k].mode ≠ .run) →
    Completes .dispatchPass s (fun t => (∀ k : QueueId, t.proposals[k] = none) ∧ t.passInProgress = s.passOwed ∧
      t.passOwed = false ∧ KeepsAllBut [.proposals, .passInProgress, .passOwed] s t)) ∧
  ∀ (s : State) (q : QueueId) (j : SlotId), s.passInProgress = true → s.queues[q].mode = .run →
    (∀ k : QueueId, k ≠ q → s.queues[k].mode ≠ .run) → s.queues[q].list = [j] →
    (s.jobs[j].state ≠ .waiting ∨ (s.jobs[j].closed = false ∧ s.jobs[j].stream = false) ∨
        (∀ r, s.jobs[j].nextPage ≠ some r) ∨
        (s.jobs[j].started = false ∧ s.jobs[j].proofRun = false ∧ (s.queues[q].dispatch = .hold ∨
          (s.queues[q].dispatch = .proof ∧ s.jobs[j].closed = false))) →
      Completes .dispatchPass s (fun t => (∀ k : QueueId, t.proposals[k] = none) ∧ t.passInProgress = s.passOwed ∧
        t.passOwed = false ∧ KeepsAllBut [.proposals, .passInProgress, .passOwed] s t)) ∧
    ∀ (r : RecordId) (why : WaitReason), s.jobs[j].state = .waiting →
      (s.jobs[j].closed = true ∨ s.jobs[j].stream = true) → s.jobs[j].nextPage = some r →
      (s.jobs[j].started = true ∨ s.jobs[j].proofRun = true ∨ s.queues[q].dispatch = .step ∨
        s.queues[q].dispatch = .free ∨ (s.queues[q].dispatch = .proof ∧ s.jobs[j].closed = true)) →
      (if s.jobs[j].started = false ∧ s.jobs[j].proofRun = false ∧ s.queues[q].dispatch ≠ .proof ∧
          subBits s.jobs[j].waitSet s.queues[q].received = false then why = .marks
        else if s.accounts[s.jobs[j].account].unmetered = false ∧ s.accounts[s.jobs[j].account].allowance <
          s.accounts[s.jobs[j].account].reserved + s.pages[r].sides then why = .allowance
        else if ∃ p, s.entryPort j = some p ∧ s.claimable p = false then why = .drain
        else why = .route ∧ ∀ (n : Fin 64) (p : PortId), hasBit s.rows[n] p.val = true →
          (if s.rings[q].pinned then n.val = s.rings[q].current
            else s.rings[q].first ≤ n.val ∧ n.val ≤ s.rings[q].last) → ¬MayClaim s p j) →
      s.rings[q].first ≤ s.rings[q].current → s.rings[q].current ≤ s.rings[q].last → s.rings[q].last ≤ 63 →
      Completes .dispatchPass s (fun t => t.jobs[j] = { s.jobs[j] with reason := some why } ∧ OtherJobsSame j s t ∧
        (∀ k : QueueId, t.proposals[k] = none) ∧ t.passInProgress = s.passOwed ∧ t.passOwed = false ∧
        KeepsAllBut [.jobs, .proposals, .passInProgress, .passOwed] s t)

/-- PORT_SERVICE out ends or owes the end of a feed and may take an empty port DOWN; in puts the port back. A taken
PORT_SERVICE: a port above 15 or a direction above 1 is refused RANGE; the reply OK carries service and link state.
Out: In service becomes no and Hold asked the flag. A held feed with a STREAMING entry is owed a release and stays.
A held feed without one is released: its job is WAITING/ROUTE and its queue asks if in RUN. A port without feed,
setup hold and entries whose hold is asked goes DOWN with cause HOLD (DETACHED if it was UP). In, for a port in
service, changes nothing. In, for a port out of service without a feed: In service becomes yes, Hold asked and
Release owed no; a link DOWN with cause HOLD goes to PROBING with a PROBE sent and the next one due in 10 ticks; a
pass is asked for exactly when the port is then READY with its link UP. In, for a port out of service that holds a
feed, on a link that is not DOWN by a hold: the same fields, and the port makes an offer attempt by R92. Other ports
and other jobs are unchanged, and so is the window but for that attempt. -/
def Obligations.PortServiceTakesAPortOutAndIn : Prop :=
  ∀ (s : State) (tag : Byte) (body : List Byte), Takes s 0x30 tag body → body.length = 3 → (byteAt body 2).toNat ≤ 1 →
    (15 < (byteAt body 0).toNat ∨ 1 < (byteAt body 1).toNat → Refuses (.portService tag body) s 0x30 tag 0x05) ∧
    ∀ p : PortId, (byteAt body 0).toNat = p.val → (byteAt body 1).toNat ≤ 1 → Completes (.portService tag body) s (fun t =>
      Replied s t 0x30 tag 0x00 [u8 (t.service p).code, u8 t.ports[p].link.code] ∧ OtherPortsSame p s t ∧
      (byteAt body 1 = 0 → ∀ hold : Bool, hold = (byteAt body 2 == 1) →
        t.ports[p].inService = false ∧ t.ports[p].holdAsked = hold ∧ t.ports[p].window = s.ports[p].window ∧
        t.ports[p].setup = s.ports[p].setup ∧
        (∀ j, s.ports[p].feedOwner = some j → (∃ e ∈ s.ports[p].window, e.state = .streaming) →
          t.ports[p] = { s.ports[p] with inService := false, holdAsked := hold, releaseOwed := true } ∧
          KeepsAllBut [.inbox, .replies, .ports] s t) ∧
        (∀ j, s.ports[p].feedOwner = some j → (∀ e ∈ s.ports[p].window, e.state ≠ .streaming) →
          t.ports[p].feedOwner = none ∧ t.ports[p].starveTimer = none ∧ t.ports[p].releaseOwed = false ∧
          t.jobs[j] = { s.jobs[j] with state := .waiting, reason := some .route, feedPort := none } ∧
          OtherJobsSame j s t ∧ AskedIf (s.queues[s.jobs[j].queue].mode = .run) s t ∧
          KeepsAllBut [.inbox, .replies, .ports, .jobs, .notices, .passInProgress, .passOwed] s t) ∧
        (s.ports[p].feedOwner = none →
          (hold = true ∧ s.ports[p].setup = none ∧ s.ports[p].window = [] ∧ s.ports[p].link ≠ .down →
            t.ports[p].link = .down ∧ t.ports[p].downCause = some .hold ∧
            (s.ports[p].link = .up → hasBit t.ports[p].flags 1 = true ∧ t.ports[p].noticeOwed = true)) ∧
          (hold = false ∨ s.ports[p].setup ≠ none ∨ s.ports[p].window ≠ [] ∨ s.ports[p].link = .down →
            t.ports[p] = { s.ports[p] with inService := false, holdAsked := hold }) ∧
          KeepsAllBut [.inbox, .replies, .ports, .notices] s t)) ∧
      (byteAt body 1 = 1 → s.ports[p].inService = true → KeepsAllBut [.inbox, .replies] s t) ∧
      (byteAt body 1 = 1 → s.ports[p].inService = false → s.ports[p].feedOwner = none →
        t.ports[p].inService = true ∧ t.ports[p].holdAsked = false ∧ t.ports[p].releaseOwed = false ∧
        t.ports[p].window = s.ports[p].window ∧
        (s.ports[p].link = .down ∧ s.ports[p].downCause = some .hold → t.ports[p].link = .probing ∧
          t.ports[p].downCause = none ∧ t.ports[p].probeDue = s.clock + 10 ∧
          t.pressLog = s.pressLog ++ [(p, .probe)]) ∧
        (s.ports[p].link ≠ .down ∨ s.ports[p].downCause ≠ some .hold →
          t.ports[p] = { s.ports[p] with inService := true, holdAsked := false, releaseOwed := false } ∧
          t.pressLog = s.pressLog) ∧
        AskedIf (t.ports[p].link = .up ∧ t.service p = .ready) s t ∧
        KeepsAllBut [.inbox, .replies, .ports, .pressLog, .passInProgress, .passOwed] s t) ∧
      (∀ j, byteAt body 1 = 1 → s.ports[p].inService = false → s.ports[p].feedOwner = some j →
        s.ports[p].link ≠ .down ∨ s.ports[p].downCause ≠ some .hold →
        Attempted { s with ports := s.ports.set p.val { s.ports[p] with
          inService := true, holdAsked := false, releaseOwed := false } } t p j ∧
        KeepsAllBut [.inbox, .replies, .jobs, .ports, .accounts, .pressLog, .notices, .passInProgress, .passOwed] s t))

/-- PORT_RESET spoils and empties the window, sends its jobs back to WAITING/ROUTE, and starts probing. A taken
PORT_RESET: a port above 15 is refused RANGE. Otherwise the reply is OK, and in a state where feeds and windows
agree (FeedsAgree): the window is settled (TAKEN faces spoiled on both meter sets, every reservation released), the
feed, setup hold and send are gone, Hold asked is no, and the link is PROBING from whatever state, its receiver
hunting, with the page data of a stopped send so far (R183, log entry 22) and one PROBE sent and the next due in 10
ticks; leaving UP flags DETACHED. In service, Ident, loaded media and printer status stay. Every job that held the
feed or had an entry is rewound to its oldest entry unless CANCELLING; ACTIVE, STARVED, WAITING and HANDED ones are
WAITING/ROUTE without a feed, an ERROR job stays, a CANCELLING one with no entries left is flagged CANCELLED. No
alert opens and no exclusion is set; other jobs and ports stay. The HLI's frame checker and the other ports'
receivers stay too, which is the model's reading (DEDUCED, log entry 30; R166 and R84 speak of every reset). -/
def Obligations.PortResetSettlesItsPort : Prop :=
  ∀ (s : State) (tag : Byte) (body : List Byte), Takes s 0x31 tag body → body.length = 1 →
    (15 < (byteAt body 0).toNat → Refuses (.portReset tag body) s 0x31 tag 0x05) ∧
    ∀ p : PortId, (byteAt body 0).toNat = p.val → FeedsAgree s → Completes (.portReset tag body) s (fun t =>
      Replied s t 0x31 tag 0x00 [] ∧ WindowSettled s t p ∧ t.ports[p].setup = none ∧ t.ports[p].holdAsked = false ∧
      t.ports[p].link = .probing ∧ t.ports[p].downCause = none ∧ t.ports[p].probeDue = s.clock + 10 ∧
      (s.ports[p].link = .up → hasBit t.ports[p].flags 1 = true ∧ t.ports[p].noticeOwed = true) ∧
      t.ports[p].inService = s.ports[p].inService ∧ t.ports[p].ident = s.ports[p].ident ∧
      t.ports[p].loaded = s.ports[p].loaded ∧ t.ports[p].status = s.ports[p].status ∧
      t.ports[p].receiver = .hunt ∧ (∃ cut, CutShort s p cut ∧ Sent s t p (cut ++ [.probe])) ∧ OtherPortsSame p s t ∧
      (∀ j : SlotId, AtPort s p j → t.jobs[j].feedPort = none ∧ t.jobs[j].exclusion = s.jobs[j].exclusion ∧
        (t.jobs[j].cursorCopy, t.jobs[j].cursorPage) = cursorAfter s p j ∧
        (goesBack s.jobs[j] → t.jobs[j].state = .waiting ∧ t.jobs[j].reason = some .route ∧
          t.jobs[j].flags = s.jobs[j].flags) ∧
        (s.jobs[j].state = .error → t.jobs[j].state = .error ∧ t.jobs[j].flags = s.jobs[j].flags) ∧
        (s.jobs[j].state = .cancelling → t.jobs[j].state = .cancelling ∧ hasBit t.jobs[j].flags 2 = true)) ∧
      (∀ j : SlotId, ¬AtPort s p j → t.jobs[j] = s.jobs[j]) ∧
      (∀ a : AlertId, a ≠ waitSlot p ∨ s.ports[p].setup = none → t.alerts[a] = s.alerts[a]) ∧
      KeepsAllBut [.inbox, .replies, .jobs, .ports, .accounts, .alerts, .openAlerts, .notices, .pressLog,
        .passInProgress, .passOwed] s t)

/-- An IDENT in PROBING or RATING is taken as the printer's Ident, brings the link to RATING or UP, and may confirm a
stop alert. An IDENT on a DOWN link is not heard. One with capability bits 4 to 7 or a loaded media above 7 is heard
and discarded. A good one in PROBING or RATING: the Ident and the loaded media are those sent, with W clamped to 1
to 8. A FAST-capable printer takes the link to RATING, with Last heard now, the rate window open without echoes, and
a RATE_OFFER sent. Another brings it UP at BASE with the smaller of W and 2 as effective depth, and ATTACHED is
flagged; if the port is then READY a pass is in progress. A port whose hold is asked, out of service, without feed,
setup hold and entries, goes straight on DOWN with cause HOLD, flagged DETACHED too if it came UP. With path-clear
yes and an open stop alert, the attendant side is given: with the host side the alert closes and the exclusions that
name the port are removed; without it the alert stays open. Otherwise no alert and no job changes. Every other
alert, port and job stays, and so do the window and the feed. -/
def Obligations.IdentBringsALinkUp : Prop :=
  ∀ (s : State) (p : PortId) (cc caps ms ld w : Byte),
    (s.ports[p].link = .down → exec (.ident p cc caps ms ld w) s = .next s) ∧
    (s.ports[p].link ≠ .down → 16 ≤ caps.toNat ∨ 8 ≤ ld.toNat → exec (.ident p cc caps ms ld w) s = .next (heardOnly s p)) ∧
    ∀ (m : Media) (depth : Nat) (held : Bool), (s.ports[p].link = .probing ∨ s.ports[p].link = .rating) →
      caps.toNat < 16 → ld.toNat = m.val →
      depth = (if w.toNat = 0 then 1 else if 8 < w.toNat then 8 else w.toNat) →
      held = (s.ports[p].holdAsked && !s.ports[p].inService && s.ports[p].feedOwner.isNone &&
        s.ports[p].setup.isNone && s.ports[p].window.isEmpty) →
      Completes (.ident p cc caps ms ld w) s (fun t =>
        t.ports[p].ident = some { classCode := cc, colour := hasBit caps 0, duplex := hasBit caps 1, media := ms
                                  depth := depth, fastCapable := hasBit caps 2 } ∧
        t.ports[p].loaded = m ∧ t.ports[p].window = s.ports[p].window ∧ t.ports[p].feedOwner = s.ports[p].feedOwner ∧
        t.ports[p].setup = s.ports[p].setup ∧ t.ports[p].status = s.ports[p].status ∧
        t.ports[p].nextSerial = s.ports[p].nextSerial ∧ t.ports[p].lastHeard = s.clock ∧ OtherPortsSame p s t ∧
        (hasBit caps 2 = true → t.ports[p].flags = s.ports[p].flags ∧ t.pressLog = s.pressLog ++ [(p, .rateOffer)] ∧
          (held = false → t.ports[p].link = .rating ∧ t.ports[p].rateWindow = some 0)) ∧
        (hasBit caps 2 = false → t.ports[p].rate = .base ∧ t.ports[p].depth = min depth 2 ∧
          hasBit t.ports[p].flags 0 = true ∧ t.ports[p].noticeOwed = true ∧ t.pressLog = s.pressLog ∧
          (held = false → t.ports[p].link = .up ∧ (t.service p = .ready → t.passInProgress = true)) ∧
          (held = true → hasBit t.ports[p].flags 1 = true)) ∧
        (held = true → t.ports[p].link = .down ∧ t.ports[p].downCause = some .hold) ∧
        (hasBit caps 3 = true → s.alerts[stopSlot p].isOpen = true →
          SidesGiven s t p true s.alerts[stopSlot p].hostReleased) ∧
        (hasBit caps 3 = false ∨ s.alerts[stopSlot p].isOpen = false →
          KeepsAllBut [.ports, .pressLog, .notices, .passInProgress, .passOwed] s t) ∧
        KeepsAllBut [.jobs, .ports, .alerts, .openAlerts, .pressLog, .notices, .passInProgress, .passOwed] s t)

/-- The third RATE_ECHO brings the link UP at FAST, and a window that closes earlier at BASE with RATE flagged. On a
port in RATING with its rate window open and no hold asked. A RATE_ECHO that is the first or the second is counted
and heard. The third brings the link UP at FAST with the declared W as effective depth, with ATTACHED flagged.
RATE_WINDOW_CLOSE with fewer than three brings it UP at BASE with the smaller of W and 2, with ATTACHED and RATE
flagged. Last heard is the present tick, the window of entries and other ports stay, and if the port is then READY a
pass is asked for. A RATE_ECHO in PROBING or UP is heard and discarded. With no rate window open in RATING,
RATE_WINDOW_CLOSE changes nothing (log entry 1). -/
def Obligations.RateTestSettlesTheRate : Prop :=
  ∀ (s : State) (p : PortId),
    ((s.ports[p].link = .probing ∨ s.ports[p].link = .up) → exec (.rateEcho p) s = .next (heardOnly s p)) ∧
    (s.ports[p].link ≠ .rating ∨ s.ports[p].rateWindow = none → exec (.rateWindowClose p) s = .next s) ∧
    ∀ (n : Nat) (i : Ident), s.ports[p].link = .rating → s.ports[p].rateWindow = some n → s.ports[p].ident = some i →
      s.ports[p].holdAsked = false →
      (n < 2 → Completes (.rateEcho p) s (fun t =>
        t.ports[p] = { s.ports[p] with rateWindow := some (n + 1), lastHeard := s.clock, receiver := .hunt } ∧
        OtherPortsSame p s t ∧ KeepsAllBut [.ports] s t)) ∧
      (n = 2 → Completes (.rateEcho p) s (fun t =>
        t.ports[p] = { s.ports[p] with
          link := .up, downCause := none, rate := .fast, depth := i.depth, lastHeard := s.clock, rateWindow := none
          flags := addBit s.ports[p].flags 0, noticeOwed := true, receiver := .hunt } ∧
        OtherPortsSame p s t ∧ AskedIf (t.service p = .ready) s t ∧
        KeepsAllBut [.ports, .notices, .passInProgress, .passOwed] s t)) ∧
      Completes (.rateWindowClose p) s (fun t =>
        t.ports[p] = { s.ports[p] with
          link := .up, downCause := none, rate := .base, depth := min i.depth 2, lastHeard := s.clock
          rateWindow := none, flags := addBit (addBit s.ports[p].flags 0) 2, noticeOwed := true } ∧
        OtherPortsSame p s t ∧ AskedIf (t.service p = .ready) s t ∧
        KeepsAllBut [.ports, .notices, .passInProgress, .passOwed] s t)

/-- A silent link, an IDENT on a link that is UP, and an order fault raise a stop alert and settle the window. In a
state where feeds and windows agree, for a port without a hold asked. (1) PRESS_SILENCE in RATING or UP 30 ticks
after Last heard: the link is PROBING, one PROBE is sent, LINK_LOST; the receiver stands where it stood, so that a
partly read frame stays so. (2) An IDENT with path-clear no and good fields on an UP link: the same loss with its
PROBE, then bring-up, with a RATE_OFFER behind the PROBE if the printer is FAST-capable. (3) On an UP link and a
port that is not STOPPED, a TAKEN or REFUSE that names no STREAMING or ABORTING entry, an ABORTED that names no
ABORTING entry, a SHEET that does not name the oldest entry as TAKEN: the link is DOWN with cause FAULT,
ORDER_FAULT. In each case the stop slot opens or merges, leaving UP flags DETACHED, no send is in progress, the page
data of a stopped send so far has gone out before any other message (R183, log entry 22), the setup hold ends, the
window is settled with no entry confirmed, and its jobs are stopped: rewound, excluded from the port, WAITING/JAM
unless ERROR or CANCELLING, listed in the alert. Other ports and jobs stay. A silence that is not due changes
nothing (log entry 1). -/
def Obligations.LostLinksStopTheirPort : Prop :=
  ∀ (s : State) (p : PortId),
    ((s.ports[p].link = .probing ∨ s.ports[p].link = .down ∨ s.clock ≠ s.ports[p].lastHeard + 30) →
      exec (.pressSilence p) s = .next s) ∧
    (FeedsAgree s → s.ports[p].holdAsked = false → ∀ (c : Instr) (k : AlertKind) (l : LinkState),
      (c = .pressSilence p ∧ k = .linkLost ∧ l = .probing ∧ (s.ports[p].link = .rating ∨ s.ports[p].link = .up) ∧
          s.clock = s.ports[p].lastHeard + 30 ∨
        (∃ cc caps ms ld w, c = .ident p cc caps ms ld w ∧ caps.toNat < 8 ∧ ld.toNat < 8 ∧
          l = (if hasBit caps 2 then .rating else .up)) ∧ k = .linkLost ∧ s.ports[p].link = .up ∨
        k = .orderFault ∧ l = .down ∧ s.ports[p].link = .up ∧ s.service p ≠ .stopped ∧
          (∃ n : Serial, ((c = .taken p n ∨ ∃ r, c = .refuse p n r) ∧
              (∀ e ∈ s.ports[p].window, e.serial = n → e.state = .taken)) ∨
            (c = .aborted p n ∧ ∀ e ∈ s.ports[p].window, e.serial = n → e.state ≠ .aborting) ∨
            (c = .sheet p n ∧ ∀ e, s.ports[p].window.head? = some e → e.serial = n → e.state ≠ .taken))) →
      Completes c s (fun t =>
        StopRaised s t p k 0 ∧ WindowSettled s t p ∧ JobsStopped s t p ∧ t.ports[p].setup = none ∧
        t.ports[p].link = l ∧ (l = .down → t.ports[p].downCause = some .fault) ∧
        (l = .probing → t.ports[p].receiver = s.ports[p].receiver) ∧
        (∃ cut, CutShort s p cut ∧ Sent s t p (cut ++ match l with
          | .down => []
          | .probing | .up => [.probe]
          | .rating => [.probe, .rateOffer])) ∧
        (s.ports[p].link = .up → hasBit t.ports[p].flags 1 = true ∧ t.ports[p].noticeOwed = true) ∧
        OtherPortsSame p s t ∧
        KeepsAllBut [.jobs, .ports, .accounts, .alerts, .openAlerts, .notices, .pressLog, .passInProgress, .passOwed]
          s t))

/-- A JAM confirms the entries up to its last-delivered serial as sheets, spoils the rest and stops the port. A JAM on
an UP link of a port without a hold asked, in a state where feeds and windows agree. A serial-present byte above 1
is heard and discarded. Without a serial, or with one that names no TAKEN entry: the stop slot opens or merges as
JAM with the location, the window is settled with nothing confirmed, its jobs are stopped, the link stays UP and a
setup hold goes on. With a serial that names a TAKEN entry: it and every older entry count as sheets, on both meter
sets, on their jobs and on the accounts, and are charged, each at its net, where the pages are held and distinct;
the faces of the other TAKEN entries are spoiled and every other entry's reservation is released; the window is
empty, the feed is released and the stop slot opens or merges. The feed owner and the jobs of the entries behind are
stopped: rewound to the oldest of them, excluded from the port, WAITING/JAM unless ERROR or CANCELLING, and listed.
A job with confirmed entries alone keeps its exclusion and, with no entry left, is DONE or completes its proof if
HANDED and is flagged CANCELLED if CANCELLING. Other jobs and ports stay. In both cases the page data of a stopped
send so far has gone out (R183, log entry 22). -/
def Obligations.JamConfirmsAndStops : Prop :=
  ∀ (s : State) (p : PortId) (loc present : Byte) (n : Serial), s.ports[p].link = .up → s.ports[p].holdAsked = false →
    FeedsAgree s →
    (1 < present.toNat → exec (.jam p loc present n) s = .next (heardOnly s p)) ∧
    ((present = 0 ∨ present = 1 ∧ ∀ e ∈ s.ports[p].window, e.serial = n → e.state ≠ .taken) →
      Completes (.jam p loc present n) s (fun t =>
        StopRaised s t p .jam loc ∧ WindowSettled s t p ∧ JobsStopped s t p ∧ t.ports[p].setup = s.ports[p].setup ∧
        t.ports[p].link = .up ∧ t.ports[p].lastHeard = s.clock ∧ (∃ cut, CutShort s p cut ∧ Sent s t p cut) ∧ OtherPortsSame p s t ∧
        KeepsAllBut [.jobs, .ports, .accounts, .alerts, .openAlerts, .notices, .pressLog, .passInProgress, .passOwed]
          s t)) ∧
    ∀ (front back done : List SendEntry) (e : SendEntry), present = 1 → s.ports[p].window = front ++ e :: back →
      e.serial = n → e.state = .taken → (∀ f ∈ front, f.serial ≠ n ∧ f.state = .taken) → done = front ++ [e] →
      Completes (.jam p loc present n) s (fun t =>
        StopRaised s t p .jam loc ∧ t.ports[p].window = [] ∧ t.ports[p].sending = none ∧ t.ports[p].feedOwner = none ∧
        (∀ set set' : MeterSet, set = s.ports[p].lifetime ∧ set' = t.ports[p].lifetime ∨
            set = s.ports[p].period ∧ set' = t.ports[p].period →
          set'.taken = set.taken ∧ set'.sheets = (set.sheets + done.length) % 1000000000 ∧
          (set.mono < 1000000000 → set'.mono = (set.mono + facesOf done (fun f => f.colour == .mono)) % 1000000000) ∧
          (set.spot < 1000000000 → set'.spot = (set.spot + facesOf done (fun f => f.colour == .spot)) % 1000000000) ∧
          (set.full < 1000000000 → set'.full = (set.full + facesOf done (fun f => f.colour == .full)) % 1000000000) ∧
          (set.spoiled < 1000000000 → set'.spoiled =
            (set.spoiled + facesOf back (fun f => f.state == .taken)) % 1000000000)) ∧
        t.ports[p].setup = s.ports[p].setup ∧ t.ports[p].link = .up ∧ t.ports[p].lastHeard = s.clock ∧
        t.ports[p].nextSerial = s.ports[p].nextSerial ∧ (∃ cut, CutShort s p cut ∧ Sent s t p cut) ∧
        OtherPortsSame p s t ∧
        (∀ j : SlotId, (∃ f ∈ done, f.job = j) →
          t.jobs[j].sheets = min (s.jobs[j].sheets + (done.filter (fun f => f.job == j)).length) 16777215 ∧
          t.jobs[j].faces = min (s.jobs[j].faces + facesOf done (fun f => f.job == j)) 16777215 ∧
          ((∀ f ∈ done, ∃ r, s.jobs[f.job].pageAt f.place = some r) →
            (done.map (fun f => s.jobs[f.job].pageAt f.place)).Nodup →
            t.jobs[j].charge = min (s.jobs[j].charge + netsOf s done (fun f => f.job == j)) 999999999999)) ∧
        (∀ a : AccountId, t.accounts[a].reserved =
            s.accounts[a].reserved - windowFaces s p (fun f => s.jobs[f.job].account == a) ∧
          t.accounts[a].allowance = (if s.accounts[a].unmetered then s.accounts[a].allowance
            else s.accounts[a].allowance - facesOf done (fun f => s.jobs[f.job].account == a)) ∧
          ((∃ f ∈ done, s.jobs[f.job].account = a) → t.accounts[a].periodFaces =
            min (s.accounts[a].periodFaces + facesOf done (fun f => s.jobs[f.job].account == a)) 16777215) ∧
          ((∃ f ∈ done, s.jobs[f.job].account = a) → (∀ f ∈ done, ∃ r, s.jobs[f.job].pageAt f.place = some r) →
            (done.map (fun f => s.jobs[f.job].pageAt f.place)).Nodup → t.accounts[a].periodCharge =
              min (s.accounts[a].periodCharge + netsOf s done (fun f => s.jobs[f.job].account == a)) 999999999999) ∧
          ((∀ f ∈ done, s.jobs[f.job].account ≠ a) → t.accounts[a] =
            { s.accounts[a] with reserved := t.accounts[a].reserved })) ∧
        (∀ j : SlotId, (∃ f ∈ back, f.job = j) ∨ s.ports[p].feedOwner = some j → t.jobs[j].feedPort = none ∧
          t.jobs[j].exclusion = some { port := p, tick := s.clock + BitVec.ofNat 32 (10 * s.timers.reroute) } ∧
          (t.jobs[j].cursorCopy, t.jobs[j].cursorPage) =
            cursorAfter { s with ports := s.ports.set p.val { s.ports[p] with window := back } } p j ∧
          (goesBack s.jobs[j] → t.jobs[j].state = .waiting ∧ t.jobs[j].reason = some .jam) ∧
          (s.jobs[j].state = .error ∨ s.jobs[j].state = .cancelling → t.jobs[j].state = s.jobs[j].state) ∧
          hasBit t.jobs[j].flags 2 = (hasBit s.jobs[j].flags 2 || s.jobs[j].state == .cancelling) ∧
          hasBit t.jobs[j].flags 6 = (hasBit s.jobs[j].flags 6 || s.queues[s.jobs[j].queue].reroute) ∧
          ({ slot := j, generation := s.jobs[j].generation } : Handle) ∈ t.alerts[stopSlot p].affected) ∧
        (∀ j : SlotId, (∃ f ∈ done, f.job = j) → (∀ f ∈ back, f.job ≠ j) → s.ports[p].feedOwner ≠ some j →
          t.jobs[j].exclusion = s.jobs[j].exclusion ∧ t.jobs[j].feedPort = s.jobs[j].feedPort ∧
          (s.jobs[j].state = .handed → s.jobs[j].proofRun = false → t.jobs[j].state = .done ∧
            hasBit t.jobs[j].flags 1 = true) ∧
          (s.jobs[j].state = .handed → s.jobs[j].proofRun = true → t.jobs[j].state = .waiting ∧
            t.jobs[j].reason = some .hold ∧ hasBit t.jobs[j].flags 7 = true) ∧
          (s.jobs[j].state ≠ .handed → t.jobs[j].state = s.jobs[j].state ∧ t.jobs[j].reason = s.jobs[j].reason ∧
            hasBit t.jobs[j].flags 2 = (hasBit s.jobs[j].flags 2 || s.jobs[j].state == .cancelling))) ∧
        (∀ j : SlotId, ¬AtPort s p j → t.jobs[j] = s.jobs[j]) ∧
        KeepsAllBut [.jobs, .queues, .markLine, .pages, .freePool, .ports, .accounts, .alerts, .openAlerts, .notices,
          .pressLog, .passInProgress, .passOwed] s t)

/-- SEND_END has put the page's bytes and PAGE_END on the press link and ends the entry. For a port whose send in
progress is of entry e, at the tail of its window, whose page is record r: SEND_END answers the state in which
page-data messages of the entry's serial, each of 1 to 1,024 bytes, whose bytes together are the page's bytes in
order, and then PAGE_END with the serial have joined the port's press log; the entry's Ended is yes, no send is in
progress, and nothing else changes up to there. Then the port makes an offer attempt for its feed owner by R92,
which changes nothing while the entry is not TAKEN; nothing else changes. That the page data and PAGE_END join the
model's press log together, at SEND_END, is the model's choice (log entries 22 and 7). Without a send in progress it
changes nothing (log entry 1). -/
def Obligations.SendEndPutsThePageOnTheLink : Prop :=
  ∀ (s : State) (p : PortId),
    (s.ports[p].sending = none → exec (.sendEnd p) s = .next s) ∧
    ∀ (e : SendEntry) (front : List SendEntry) (r : RecordId), s.ports[p].sending = some e.serial →
      s.ports[p].window = front ++ [e] → (∀ f ∈ front, f.serial ≠ e.serial) → 0 < e.place → s.jobs[e.job].pages[e.place - 1]? = some (some r) →
      Completes (.sendEnd p) s (fun t => ∃ m : State,
        (∃ runs : List (List Byte), m.pressLog =
            s.pressLog ++ runs.map (fun b => (p, PressMessage.pageData e.serial b)) ++ [(p, .pageEnd e.serial)] ∧
          (∀ b ∈ runs, 1 ≤ b.length ∧ b.length ≤ 1024) ∧ runs.flatten = s.readOut r) ∧
        m.ports[p] = { s.ports[p] with window := front ++ [{ e with ended := true }], sending := none } ∧
        OtherPortsSame p s m ∧ KeepsAllBut [.ports, .pressLog] s m ∧
        (e.state ≠ .taken ∨ s.ports[p].feedOwner = none → t = m) ∧
        (∀ j, s.ports[p].feedOwner = some j → Attempted m t p j) ∧
        KeepsAllBut [.jobs, .ports, .accounts, .pressLog, .notices, .passInProgress, .passOwed] m t)

/-- TAKEN makes the unsettled entry TAKEN, counts its faces, may hand the job on or end its feed, and makes an offer
attempt. TAKEN on an UP link for the serial of the newest entry, which is STREAMING or ABORTING, the older ones
being TAKEN, in a state where feeds and windows agree. On a STOPPED port it is heard and discarded. Otherwise the
entry is TAKEN in its place, and both sets of taken faces rise by its faces. If the entry's job is ACTIVE, STARVED
or WAITING and sent out, it becomes HANDED without a feed, flagged HANDED with a notice owed if it is notified
DOUBLE; so does a WAITING job without a feed whose ABORTING entry was taken (R30). If it held the feed, the port has
no owner, and a pass is in progress if the port is then READY. If it holds the feed, is not sent out and a release
is owed, it becomes WAITING/ROUTE without a feed, and a pass is in progress if its queue is in RUN. In every other
case the port makes, from the state so reached, an offer attempt by R92 for the job that holds the feed, the entry's
own or another; without a feed owner nothing more happens. Other ports and jobs stay. -/
def Obligations.TakenSettlesTheEntry : Prop :=
  ∀ (s : State) (p : PortId) (e : SendEntry) (front : List SendEntry) (out handed : Bool) (y : Job) (x : Port)
    (b : State), FeedsAgree s → s.ports[p].link = .up →
    s.ports[p].window = front ++ [e] → e.state ≠ .taken → (∀ f ∈ front, f.serial ≠ e.serial ∧ f.state = .taken) →
    out = (s.jobs[e.job].closed && decide (s.jobs[e.job].pages.length < s.jobs[e.job].cursorPage) &&
      s.jobs[e.job].cursorCopy == (if s.jobs[e.job].proofRun then 1 else s.jobs[e.job].copies)) →
    handed = (out && (s.jobs[e.job].state == .active || s.jobs[e.job].state == .starved ||
      s.jobs[e.job].state == .waiting)) →
    y = (if handed then { s.jobs[e.job] with
        state := .handed, reason := none, feedPort := none
        flags := if s.jobs[e.job].double then addBit s.jobs[e.job].flags 0 else s.jobs[e.job].flags
        noticeOwed := s.jobs[e.job].noticeOwed || s.jobs[e.job].double }
      else s.jobs[e.job]) →
    x = { s.ports[p] with
      lastHeard := s.clock, receiver := .hunt, window := front ++ [{ e with state := .taken }]
      lifetime := { s.ports[p].lifetime with taken := (s.ports[p].lifetime.taken + e.faces) % 1000000000 }
      period := { s.ports[p].period with taken := (s.ports[p].period.taken + e.faces) % 1000000000 } } →
    b = { s with jobs := s.jobs.set e.job.val y, ports := s.ports.set p.val x } →
    (s.service p = .stopped → exec (.taken p e.serial) s = .next (heardOnly s p)) ∧
    (s.service p ≠ .stopped → Completes (.taken p e.serial) s (fun t =>
      OtherPortsSame p s t ∧
      (handed = true → s.jobs[e.job].double = true → s.jobs[e.job].noticeOwed = false → Source.job e.job ∈ t.notices) ∧
      (s.ports[p].feedOwner = none → t.ports[p] = x ∧ t.jobs = b.jobs ∧ t.accounts = s.accounts ∧ Sent s t p []) ∧
      (s.ports[p].feedOwner = some e.job → handed = true →
        t.ports[p] = { x with feedOwner := none, starveTimer := none, releaseOwed := false } ∧ t.jobs = b.jobs ∧
        t.accounts = s.accounts ∧ Sent s t p [] ∧ (t.service p = .ready → t.passInProgress = true)) ∧
      (s.ports[p].feedOwner = some e.job → handed = false → s.ports[p].releaseOwed = true →
        t.ports[p] = { x with feedOwner := none, starveTimer := none, releaseOwed := false } ∧
        t.jobs[e.job] = { s.jobs[e.job] with state := .waiting, reason := some .route, feedPort := none } ∧
        OtherJobsSame e.job s t ∧ t.accounts = s.accounts ∧ Sent s t p [] ∧
        (s.queues[s.jobs[e.job].queue].mode = .run → t.passInProgress = true)) ∧
      (∀ j : SlotId, s.ports[p].feedOwner = some j → (j = e.job → handed = false ∧ s.ports[p].releaseOwed = false) →
        Attempted b t p j) ∧
      KeepsAllBut [.jobs, .ports, .accounts, .pressLog, .notices, .passInProgress, .passOwed] s t))

/-- A sheet event counts the sheet, charges it by the tariff less the discount, and converts the reservation. SHEET on
an UP link of a port that is not STOPPED, for the oldest entry, which is TAKEN, its page being record r. The rate is
the group's for the page's media and the entry's colour, or where BLANK the standing page's; the gross is front,
plus back if duplex, plus the finishing code's surcharge when the sheet ends a copy set; the net is the gross less
gross times discount over 1000, to the nearest mill, half up. The entry leaves, a send of it stops, its page data so
far having gone out (log entry 22); sheets and the colour's faces rise on both meter sets; the job's sheets, faces,
copies completed and charge rise, the charge to at most 999,999,999,999 with SATURATED; so do the account's period
faces and charge, and a metered account's allowance falls by the faces. Outside a proof run the page's sheeted count
rises, and a Closed job's page that has reached Copies is freed; in a proof run the proof faces rise. From the state
so reached (m) the port makes an offer attempt by R92 for its feed owner; without one, and without a hold asked,
that state is the next state. A job that is neither HANDED nor CANCELLING, or has more entries here, changes by
those counts alone; what else a last sheet does is LastSheetCompletesTheJob's. -/
def Obligations.SheetIsCountedAndCharged : Prop :=
  ∀ (s : State) (p : PortId) (e : SendEntry) (rest : List SendEntry) (r : RecordId) (x : Job) (a : Account)
    (rate : RatePair) (last : Bool) (extra gross net : Nat),
    s.ports[p].link = .up → s.service p ≠ .stopped → s.ports[p].window = e :: rest → e.state = .taken →
    x = s.jobs[e.job] → 0 < e.place → x.pages[e.place - 1]? = some (some r) → a = s.accounts[x.account] →
    rate = (s.tariffs[a.group].rates[rateKey s.pages[r].media e.colour]).getD
      ((s.tariffs[(7 : Fin 8)].rates[rateKey s.pages[r].media e.colour]).getD { front := 0, back := 0 }) →
    last = (x.closed && e.place == x.pages.length) →
    (extra = if h : last = true ∧ 1 ≤ x.finishing ∧ x.finishing ≤ 3 then
      ((s.tariffs[a.group].surcharges[x.finishing - 1]'(by omega)).getD
        ((s.tariffs[(7 : Fin 8)].surcharges[x.finishing - 1]'(by omega)).getD 0)) else 0) →
    gross = rate.front + (if e.faces = 2 then rate.back else 0) + extra →
    net = gross - (gross * a.discount + 500) / 1000 →
    Completes (.sheet p e.serial) s (fun t => ∃ m : State,
      m.ports[p] = { heardPort s p with
        window := rest, lifetime := m.ports[p].lifetime, period := m.ports[p].period
        sending := if s.ports[p].sending = some e.serial then none else s.ports[p].sending } ∧ OtherPortsSame p s m ∧
      (∃ cut, CutShort s p cut ∧ (s.ports[p].sending ≠ some e.serial → cut = []) ∧ Sent s m p cut) ∧
      (∀ set set' : MeterSet, set = s.ports[p].lifetime ∧ set' = m.ports[p].lifetime ∨
          set = s.ports[p].period ∧ set' = m.ports[p].period →
        set' = { set with
          sheets := (set.sheets + 1) % 1000000000
          mono := if e.colour = .mono then (set.mono + e.faces) % 1000000000 else set.mono
          spot := if e.colour = .spot then (set.spot + e.faces) % 1000000000 else set.spot
          full := if e.colour = .full then (set.full + e.faces) % 1000000000 else set.full }) ∧
      m.jobs[e.job].sheets = min (x.sheets + 1) 16777215 ∧ m.jobs[e.job].faces = min (x.faces + e.faces) 16777215 ∧
      m.jobs[e.job].proofFaces = (if x.proofRun then min (x.proofFaces + e.faces) 16777215 else x.proofFaces) ∧
      m.jobs[e.job].copiesDone = (if last = true ∧ x.proofRun = false then x.copiesDone + 1 else x.copiesDone) ∧
      m.jobs[e.job].charge = min (x.charge + net) 999999999999 ∧
      m.jobs[e.job].saturated = (x.saturated || decide (999999999999 ≤ x.charge + net)) ∧
      ((x.state ≠ .handed ∧ x.state ≠ .cancelling) ∨ (∃ f ∈ rest, f.job = e.job) → m.jobs[e.job] = { x with
        sheets := m.jobs[e.job].sheets, faces := m.jobs[e.job].faces, proofFaces := m.jobs[e.job].proofFaces
        copiesDone := m.jobs[e.job].copiesDone, charge := m.jobs[e.job].charge
        saturated := m.jobs[e.job].saturated, pages := m.jobs[e.job].pages }) ∧ OtherJobsSame e.job s m ∧
      m.accounts[x.account] = { a with
        periodFaces := min (a.periodFaces + e.faces) 16777215
        periodCharge := min (a.periodCharge + net) 999999999999
        saturated := a.saturated || decide (999999999999 ≤ a.periodCharge + net)
        allowance := if a.unmetered then a.allowance else a.allowance - e.faces
        reserved := a.reserved - e.faces } ∧ OtherAccountsSame x.account s m ∧
      (x.proofRun = false → x.closed = true → s.pages[r].sheeted + 1 = x.copies →
        m.pages[r] = PageRecord.freeRecord ∧ m.freePool = s.freePool ++ s.pages[r].chain ∧
        m.jobs[e.job].pages = x.pages.set (e.place - 1) none) ∧
      (x.proofRun = false → (x.closed = false ∨ s.pages[r].sheeted + 1 ≠ x.copies) →
        m.pages[r] = { s.pages[r] with sheeted := s.pages[r].sheeted + 1 } ∧ m.freePool = s.freePool ∧
        m.jobs[e.job].pages = x.pages) ∧
      (x.proofRun = true → m.pages = s.pages ∧ m.freePool = s.freePool ∧ m.jobs[e.job].pages = x.pages) ∧
      OtherPagesSame r s m ∧
      KeepsAllBut [.jobs, .ports, .pages, .freePool, .accounts, .queues, .markLine, .pressLog, .notices,
        .passInProgress, .passOwed] s m ∧
      (s.ports[p].feedOwner = none → (s.ports[p].holdAsked = false → t = m) ∧ OtherPortsSame p m t ∧
        t.ports[p].window = rest ∧ t.ports[p].lifetime = m.ports[p].lifetime ∧
        t.ports[p].period = m.ports[p].period ∧ KeepsAllBut [.ports, .notices] m t) ∧
      (∀ j, s.ports[p].feedOwner = some j → Attempted m t p j) ∧
      KeepsAllBut [.jobs, .ports, .accounts, .pressLog, .notices, .passInProgress, .passOwed] m t)

/-- The last sheet of a job makes it DONE and gives its marks, completes its proof, cancels it or asks for a pass, and a
held port goes DOWN. SHEET on an UP link of a port that is not STOPPED, for the only entry of the window, TAKEN,
when no other window holds an entry of its job. A HANDED job outside a proof run is DONE, flagged DONE, and owes a
notice; for each queue of its give set but its own, in RUN or HALT, the job's own queue's mark joins the received
set, other queues stay, and with EXT in the give set one more pulse is owed (to at most 255), which an idle line
begins. A HANDED job in a proof run is WAITING/HOLD with its cursor at copy 1, page 1, one more proof done (to at
most 255), Proof run no, and PROOF_DONE flagged. A CANCELLING job is flagged CANCELLED. A WAITING job whose port has
no feed owner stays WAITING with its reason and asks for a pass exactly when its queue is in RUN, and other jobs and
ports stay. A port without a feed and a setup hold that is out of service with its hold asked goes DOWN with cause
HOLD, flagged DETACHED, as its window is empty; without a hold asked it stays UP. -/
def Obligations.LastSheetCompletesTheJob : Prop :=
  ∀ (s : State) (p : PortId) (e : SendEntry) (x : Job), s.ports[p].link = .up → s.service p ≠ .stopped →
    s.ports[p].window = [e] → e.state = .taken → x = s.jobs[e.job] →
    (∀ k : PortId, k ≠ p → ∀ f ∈ s.ports[k].window, f.job ≠ e.job) →
    (x.state = .handed → x.proofRun = false → Completes (.sheet p e.serial) s (fun t =>
      t.jobs[e.job].state = .done ∧ t.jobs[e.job].reason = none ∧ t.jobs[e.job].flags = addBit x.flags 1 ∧
      t.jobs[e.job].noticeOwed = true ∧ (x.noticeOwed = false → Source.job e.job ∈ t.notices) ∧
      (∀ q : QueueId, t.queues[q] =
        if hasBit x.giveSet q.val = true ∧ q ≠ x.queue ∧ (s.queues[q].mode = .run ∨ s.queues[q].mode = .halt) then
          { s.queues[q] with received := addBit s.queues[q].received x.queue.val }
        else s.queues[q]) ∧
      (hasBit x.giveSet 8 = false → t.markLine = s.markLine) ∧
      (hasBit x.giveSet 8 = true → t.markLine.owed = min (s.markLine.owed + 1) 255 ∧
        t.markLine.phase = (if s.markLine.phase = .idle then .high else s.markLine.phase)))) ∧
    (x.state = .handed → x.proofRun = true → Completes (.sheet p e.serial) s (fun t =>
      t.jobs[e.job].state = .waiting ∧ t.jobs[e.job].reason = some .hold ∧ t.jobs[e.job].proofRun = false ∧
      t.jobs[e.job].cursorCopy = 1 ∧ t.jobs[e.job].cursorPage = 1 ∧
      t.jobs[e.job].proofsDone = min (x.proofsDone + 1) 255 ∧ t.jobs[e.job].flags = addBit x.flags 7 ∧
      t.jobs[e.job].noticeOwed = true ∧ t.queues = s.queues ∧ t.markLine = s.markLine)) ∧
    (x.state = .cancelling → Completes (.sheet p e.serial) s (fun t =>
      t.jobs[e.job].state = .cancelling ∧ t.jobs[e.job].flags = addBit x.flags 2 ∧
      t.jobs[e.job].noticeOwed = true ∧ t.queues = s.queues ∧ t.markLine = s.markLine)) ∧
    (x.state = .waiting → s.ports[p].feedOwner = none → Completes (.sheet p e.serial) s (fun t =>
      t.jobs[e.job].state = .waiting ∧ t.jobs[e.job].reason = x.reason ∧
      (t.jobs[e.job].cursorCopy, t.jobs[e.job].cursorPage) = (x.cursorCopy, x.cursorPage) ∧ OtherJobsSame e.job s t ∧
      AskedIf (s.queues[x.queue].mode = .run) s t ∧ OtherPortsSame p s t ∧
      KeepsAllBut [.jobs, .ports, .pages, .freePool, .accounts, .notices, .passInProgress, .passOwed, .pressLog] s t)) ∧
    (s.ports[p].feedOwner = none → Completes (.sheet p e.serial) s (fun t =>
      t.ports[p].window = [] ∧
      (s.ports[p].holdAsked = true → s.ports[p].inService = false → s.ports[p].setup = none →
        t.ports[p].link = .down ∧ t.ports[p].downCause = some .hold ∧ hasBit t.ports[p].flags 1 = true ∧
        t.ports[p].noticeOwed = true) ∧
      (s.ports[p].holdAsked = false → t.ports[p].link = .up ∧ t.ports[p].flags = s.ports[p].flags)))

/-- ABORTED removes the aborted entry, and REFUSE puts the job into ERROR; both release the faces and rewind the job. On
an UP link of a port that is not STOPPED, for the newest entry, the older ones being TAKEN. ABORTED, or REFUSE, of
the ABORTING entry: the entry leaves, its account's reservation falls by its faces, and its job is rewound to it if
it is earlier than the cursor, but a CANCELLING job is not and is flagged CANCELLED when no entry of it is left;
from the state so reached (m) the port makes an offer attempt by R92 for its feed owner, if a job holds the feed;
without one, and without a hold asked, that state is the next state. REFUSE of the STREAMING entry of the feed
owner: the entry leaves, the reservation falls, the job is ERROR with the reason kept, flagged ERROR, rewound, and
without the feed, which the port has released. In both cases a send of the entry that is in progress stops, its page
data so far having gone out (R183, log entry 22); a send of another entry goes on. The rest of the job's record,
other jobs, accounts and ports are unchanged. -/
def Obligations.AbortedAndRefusedPagesGoBack : Prop :=
  ∀ (s : State) (p : PortId) (e : SendEntry) (front : List SendEntry) (x : Job) (cursor : Nat × Nat) (reason : Byte),
    s.ports[p].link = .up → s.service p ≠ .stopped → s.ports[p].window = front ++ [e] → (∀ f ∈ front, f.state = .taken) →
    x = s.jobs[e.job] → cursor = (if x.state ≠ .cancelling ∧ (e.copy < x.cursorCopy ∨
      (e.copy = x.cursorCopy ∧ e.place < x.cursorPage)) then (e.copy, e.place) else (x.cursorCopy, x.cursorPage)) →
    (e.state = .aborting → exec (.refuse p e.serial reason) s = exec (.aborted p e.serial) s) ∧
    (e.state = .aborting → Completes (.aborted p e.serial) s (fun t => ∃ m : State,
      m.ports[p] = { heardPort s p with
        window := front, sending := if s.ports[p].sending = some e.serial then none else s.ports[p].sending } ∧
      OtherPortsSame p s m ∧
      m.accounts[x.account] = { s.accounts[x.account] with
        reserved := s.accounts[x.account].reserved - e.faces } ∧ OtherAccountsSame x.account s m ∧
      OtherJobsSame e.job s m ∧
      ((∃ f ∈ front, f.job = e.job) ∨ x.state ≠ .cancelling →
        m.jobs[e.job] = { x with cursorCopy := cursor.1, cursorPage := cursor.2 }) ∧
      ((∀ f ∈ front, f.job ≠ e.job) → (∀ k : PortId, k ≠ p → ∀ f ∈ s.ports[k].window, f.job ≠ e.job) →
        x.state = .cancelling → m.jobs[e.job] = { x with flags := addBit x.flags 2, noticeOwed := true }) ∧
      (∃ cut, CutShort s p cut ∧ (s.ports[p].sending ≠ some e.serial → cut = []) ∧ Sent s m p cut) ∧
      KeepsAllBut [.jobs, .ports, .accounts, .pressLog, .notices, .passInProgress, .passOwed] s m ∧
      (s.ports[p].feedOwner = none → (s.ports[p].holdAsked = false → t = m) ∧ OtherPortsSame p m t ∧
        t.ports[p].window = front ∧ (s.ports[p].sending = some e.serial → t.ports[p].sending = none) ∧
        KeepsAllBut [.ports, .notices] m t) ∧
      (∀ j, s.ports[p].feedOwner = some j → Attempted m t p j) ∧
      KeepsAllBut [.jobs, .ports, .accounts, .pressLog, .notices, .passInProgress, .passOwed] m t)) ∧
    (e.state = .streaming → s.ports[p].feedOwner = some e.job → x.state = .active →
      Completes (.refuse p e.serial reason) s (fun t =>
        t.ports[p].window = front ∧ t.ports[p].feedOwner = none ∧ OtherPortsSame p s t ∧
        (s.ports[p].sending = some e.serial → t.ports[p].sending = none) ∧
        (s.ports[p].sending ≠ some e.serial → s.ports[p].holdAsked = false →
          t.ports[p].sending = s.ports[p].sending) ∧
        t.accounts[x.account] = { s.accounts[x.account] with
          reserved := s.accounts[x.account].reserved - e.faces } ∧ OtherAccountsSame x.account s t ∧
        t.jobs[e.job] = { x with
          state := .error, reason := none, feedPort := none, refuseReason := reason, flags := addBit x.flags 4
          noticeOwed := true, cursorCopy := cursor.1, cursorPage := cursor.2 } ∧ OtherJobsSame e.job s t ∧
        (x.noticeOwed = false → Source.job e.job ∈ t.notices) ∧
        (∃ cut, CutShort s p cut ∧ (s.ports[p].sending ≠ some e.serial → cut = []) ∧ Sent s t p cut) ∧
        KeepsAllBut [.jobs, .ports, .accounts, .pressLog, .notices, .passInProgress, .passOwed] s t))

/-- Both releases close a stop alert and drop its exclusions, and PRESS_CANCEL cancels the feed owner or the job of the
newest entry. A taken ALERT_RELEASE: a slot above 31 is refused RANGE, a wait slot or a CLEAR slot STATE. On an OPEN
stop slot Host-released becomes yes, and the reply is OK with the slot as it then stands. A CLEARED on an UP link:
with the stop slot CLEAR, or with a kind besides JAM, it is heard and discarded; otherwise the attendant side is
given and the port is heard. With both sides the alert closes: the slot is CLEAR with its timer stopped, out of the
open-alert list and flagged CLOSED; every job whose exclusion names the port loses it; a pass is in progress if an
exclusion went or the port is now READY with its link UP, and none is asked for otherwise. Ports and other alerts
and jobs stay. PRESS_CANCEL on an UP link, in a state where feeds and windows agree: without a feed owner and
entries it is heard and discarded. When the feed owner is job j, j is CANCELLING without a wait reason and a feed,
flagged AT_PRESS, and flagged CANCELLED too if it has no entry; the port has no feed owner, and its STREAMING entry
is aborted, with the page data so far (R183, log entry 22) and the ABORT on its link. Without a feed owner, the
newest entry's job, if WAITING, HANDED or in ERROR, is CANCELLING and flagged AT_PRESS, and if CANCELLING already it
is flagged AT_PRESS; the port is heard and changes nothing else. Other jobs and ports are unchanged. -/
def Obligations.ReleasesAndPressCancel : Prop :=
  (∀ (s : State) (p : PortId) (tag : Byte) (body : List Byte) (a : AlertId), a = stopSlot p →
    (Takes s 0x61 tag body → body.length = 1 → (31 < (byteAt body 0).toNat →
        Refuses (.alertRelease tag body) s 0x61 tag 0x05) ∧
      ((byteAt body 0).toNat = (waitSlot p).val ∨
          (byteAt body 0).toNat = a.val ∧ s.alerts[a].isOpen = false →
        Refuses (.alertRelease tag body) s 0x61 tag 0x07) ∧
      ((byteAt body 0).toNat = a.val → s.alerts[a].isOpen = true → Completes (.alertRelease tag body) s (fun t =>
        Replied s t 0x61 tag 0x00 (t.alertBytes a 0) ∧ SidesGiven s t p s.alerts[a].attendant true ∧
        (s.alerts[a].attendant = false → KeepsAllBut [.inbox, .replies, .alerts] s t) ∧
        (s.alerts[a].attendant = true → s.claimable p = false → t.claimable p = true → t.passInProgress = true) ∧
        ((∀ j : SlotId, s.jobs[j].exclusion.map (fun x => x.port) ≠ some p) → t.claimable p = false → NotAsked s t) ∧
        KeepsAllBut [.inbox, .replies, .jobs, .alerts, .openAlerts, .notices, .passInProgress, .passOwed] s t))) ∧
    (s.ports[p].link = .up → s.alerts[a].isOpen = false ∨ s.alerts[a].primary ≠ some .jam ∨
        (∃ k : Nat, 1 ≤ k ∧ hasBit s.alerts[a].additional k = true) →
      exec (.cleared p) s = .next (heardOnly s p)) ∧
    (s.ports[p].link = .up → s.alerts[a].isOpen = true → s.alerts[a].primary = some .jam →
      (∀ k : Nat, 1 ≤ k → hasBit s.alerts[a].additional k = false) → Completes (.cleared p) s (fun t =>
        SidesGiven s t p true s.alerts[a].hostReleased ∧ t.ports[p] = heardPort s p ∧ OtherPortsSame p s t ∧
        (s.alerts[a].hostReleased = false → KeepsAllBut [.ports, .alerts] s t) ∧
        (s.alerts[a].hostReleased = true → t.claimable p = true → t.passInProgress = true) ∧
        ((∀ j : SlotId, s.jobs[j].exclusion.map (fun x => x.port) ≠ some p) → t.claimable p = false → NotAsked s t) ∧
        KeepsAllBut [.jobs, .ports, .alerts, .openAlerts, .notices, .passInProgress, .passOwed] s t))) ∧
  ∀ (s : State) (p : PortId), s.ports[p].link = .up → FeedsAgree s →
    (s.ports[p].feedOwner = none → s.ports[p].window = [] → exec (.pressCancel p) s = .next (heardOnly s p)) ∧
    (∀ j : SlotId, s.ports[p].feedOwner = some j → Completes (.pressCancel p) s (fun t =>
      t.jobs[j] = { s.jobs[j] with
        state := .cancelling, reason := none, feedPort := none, noticeOwed := true
        flags := if s.hasEntries j then addBit s.jobs[j].flags 3 else addBit (addBit s.jobs[j].flags 2) 3 } ∧
      OtherJobsSame j s t ∧ t.ports[p].feedOwner = none ∧
      t.ports[p].window = s.ports[p].window.map
        (fun e => if e.state = .streaming then { e with state := .aborting } else e) ∧
      (s.ports[p].holdAsked = false → StreamingAborted s t p ∧ t.ports[p] = { heardPort s p with
        feedOwner := none, starveTimer := none, releaseOwed := false, window := t.ports[p].window
        sending := t.ports[p].sending }) ∧
      OtherPortsSame p s t ∧
      KeepsAllBut [.jobs, .ports, .pressLog, .notices, .passInProgress, .passOwed] s t)) ∧
    ∀ (front : List SendEntry) (e : SendEntry), s.ports[p].feedOwner = none → s.ports[p].window = front ++ [e] →
      (s.jobs[e.job].state = .waiting ∨ s.jobs[e.job].state = .handed ∨ s.jobs[e.job].state = .error ∨
        s.jobs[e.job].state = .cancelling) →
      Completes (.pressCancel p) s (fun t =>
        t.jobs[e.job] = { s.jobs[e.job] with
          state := .cancelling, flags := addBit s.jobs[e.job].flags 3, noticeOwed := true
          reason := if s.jobs[e.job].state = .cancelling then s.jobs[e.job].reason else none } ∧
        OtherJobsSame e.job s t ∧ t.ports[p] = heardPort s p ∧ OtherPortsSame p s t ∧
        KeepsAllBut [.jobs, .ports, .notices] s t)

/-- SETUP_DONE sets the loaded media, and ends or keeps the setup hold by the table of R102, with an offer attempt by
R92. SETUP_DONE on an UP link of a port without a hold asked (ports with one, where the hold test of R89 follows,
are left out). A class above 7 is heard and discarded. Without a setup hold it sets the loaded media and is heard.
With a hold whose feed is held and another class than the awaited one: the hold goes on, the setup timer stops, the
stall is reported, and if it had not been, the wait slot holds SETUP_STALL among its standing conditions and owes a
notice with RAISED. With a hold whose feed was released: the hold has ended whatever the class, the timer is
stopped, a SETUP_STALL is withdrawn, no offer is made, and a pass is in progress if the port is READY. With a feed
held by job j and the awaited class: the hold has ended, the timer is stopped, a SETUP_STALL is withdrawn, and an
offer attempt for j follows by the steps of R92: nothing where the port is not FEEDING in service, has an unsettled
entry or a send in progress, where j is not ACTIVE or is sent out, or with a full window; j STARVED with the starve
timer started where its next page is not sendable (R7, R103); the feed released with reason ROUTE where the Ident
does not cover the page; a new hold for another media class; an allowance stop where the reservation fails: the feed
released, j WAITING/ALLOWANCE and flagged ALLOWANCE_STOP (R135); and else the faces reserved, the entry, the cursor
moved on and the OFFER. Other jobs, ports and alerts are unchanged. In both cases in which the hold ends, Stall
reported is no from then on: that clause is the model's reading (DEDUCED, log entry 14) of R83, by which the field
speaks of the present hold; R102 and R88 end a hold without naming it. -/
def Obligations.SetupDoneFollowsItsTable : Prop :=
  ∀ (s : State) (p : PortId) (b : Byte), s.ports[p].link = .up → s.ports[p].holdAsked = false →
    (7 < b.toNat → exec (.setupDone p b) s = .next (heardOnly s p)) ∧
    ∀ m : Media, b.toNat = m.val → Completes (.setupDone p b) s (fun t =>
      t.ports[p].loaded = m ∧ t.ports[p].lastHeard = s.clock ∧ OtherPortsSame p s t ∧
      (s.ports[p].setup = none → t.ports[p] = { s.ports[p] with loaded := m, lastHeard := s.clock, receiver := .hunt } ∧
        KeepsAllBut [.ports] s t) ∧
      (∀ awaited : Media, s.ports[p].setup = some awaited →
        (s.ports[p].feedOwner ≠ none → m ≠ awaited →
          t.ports[p] = { s.ports[p] with
            loaded := m, lastHeard := s.clock, receiver := .hunt, setupTimer := none, stallReported := true } ∧
          (s.ports[p].stallReported = true → KeepsAllBut [.ports] s t) ∧
          (s.ports[p].stallReported = false → t.alerts[waitSlot p].isOpen = true ∧
            hasBit t.alerts[waitSlot p].standing 6 = true ∧
            (s.alerts[waitSlot p].isOpen = true → hasBit s.alerts[waitSlot p].standing 6 = false →
              t.alerts[waitSlot p].repeats = min (s.alerts[waitSlot p].repeats + 1) 255) ∧
            (s.alerts[waitSlot p].isOpen = false ∨ hasBit s.alerts[waitSlot p].standing 6 = false →
              hasBit t.alerts[waitSlot p].flags 0 = true ∧ t.alerts[waitSlot p].noticeOwed = true)) ∧
          OtherAlertsSame (waitSlot p) s t ∧ KeepsAllBut [.ports, .alerts, .openAlerts, .notices] s t) ∧
        (s.ports[p].feedOwner = none →
          t.ports[p] = { s.ports[p] with
            loaded := m, lastHeard := s.clock, receiver := .hunt, setup := none, setupTimer := none
            stallReported := false } ∧ StallWithdrawn s t p ∧
          (t.service p = .ready → t.passInProgress = true) ∧
          KeepsAllBut [.ports, .alerts, .openAlerts, .notices, .passInProgress, .passOwed] s t) ∧
        (∀ j : SlotId, s.ports[p].feedOwner = some j → m = awaited →
          StallWithdrawn s t p ∧
          Attempted { s with ports := s.ports.set p.val { s.ports[p] with
            loaded := m, lastHeard := s.clock, receiver := .hunt, setup := none, setupTimer := none
            stallReported := false } } t p j ∧
          KeepsAllBut [.jobs, .ports, .accounts, .alerts, .openAlerts, .pressLog, .notices, .passInProgress, .passOwed]
            s t)))

/-- A STATUS with another reason set is one event of the port's wait slot, and a return to ONLINE makes an offer
attempt. STATUS on an UP link. One with bits 3 to 7, or with the set that the printer status holds, is heard and
changes nothing else. Another set is the printer status from then on. If the wait slot was CLEAR and a reason is
new, it opens: standing are the new reasons, primary the first of MEDIA_OUT, COVER_OPEN and SUPPLY_OUT among them,
the others additional, level 1, its E1 timer starts, RAISED is flagged and it joins the open-alert list's tail. If
it was OPEN, the reasons gone leave the standing conditions and the new ones join; a reason that was not standing
counts one repeat and flags RAISED; when none stands the slot closes and CLOSED is flagged. While the new set is not
empty no job, window or account changes. With an empty set, a return to ONLINE, the port makes an offer attempt by
R92 for its feed owner; without one nothing more happens, and a pass is in progress if the port is READY. Other
ports and other alert slots are unchanged. -/
def Obligations.StatusIsOneEventOfTheWaitSlot : Prop :=
  ∀ (s : State) (p : PortId) (b : Byte) (r : ReasonSet) (w : AlertId), s.ports[p].link = .up → w = waitSlot p → r = b.setWidth 3 →
    (8 ≤ b.toNat ∨ r = s.ports[p].status → exec (.status p b) s = .next (heardOnly s p)) ∧
    (b.toNat < 8 → r ≠ s.ports[p].status → ∀ stand : KindSet,
      stand = (minusBits s.alerts[w].standing ((minusBits s.ports[p].status r).setWidth 7 <<< 3) |||
        ((minusBits r s.ports[p].status).setWidth 7 <<< 3)) →
      Completes (.status p b) s (fun t =>
        t.ports[p].status = r ∧ t.ports[p].lastHeard = s.clock ∧ OtherPortsSame p s t ∧ OtherAlertsSame w s t ∧
        (s.alerts[w].isOpen = false → minusBits r s.ports[p].status ≠ 0 →
          t.alerts[w].isOpen = true ∧ t.alerts[w].standing = (minusBits r s.ports[p].status).setWidth 7 <<< 3 ∧
          t.alerts[w].primary = (if hasBit (minusBits r s.ports[p].status) 0 then some .mediaOut
            else if hasBit (minusBits r s.ports[p].status) 1 then some .coverOpen else some .supplyOut) ∧
          (∀ k : AlertKind, hasBit t.alerts[w].additional k.bit =
            (hasBit t.alerts[w].standing k.bit && t.alerts[w].primary != some k)) ∧
          t.alerts[w].level = 1 ∧ t.alerts[w].repeats = 0 ∧ t.alerts[w].raised = s.clock ∧
          t.alerts[w].timer = some (s.clock + BitVec.ofNat 32 (10 * s.timers.escalation1)) ∧
          hasBit t.alerts[w].flags 0 = true ∧ t.openAlerts = s.openAlerts ++ [w]) ∧
        (s.alerts[w].isOpen = false → minusBits r s.ports[p].status = 0 →
          t.alerts = s.alerts ∧ t.openAlerts = s.openAlerts) ∧
        (s.alerts[w].isOpen = true → t.alerts[w].standing = stand ∧ t.alerts[w].primary = s.alerts[w].primary ∧
          t.alerts[w].level = s.alerts[w].level ∧
          (minusBits stand s.alerts[w].standing ≠ 0 → t.alerts[w].repeats = min (s.alerts[w].repeats + 1) 255 ∧
            hasBit t.alerts[w].flags 0 = true) ∧
          (minusBits stand s.alerts[w].standing = 0 → t.alerts[w].repeats = s.alerts[w].repeats ∧
            t.alerts[w].additional = s.alerts[w].additional) ∧
          (stand ≠ 0 → t.alerts[w].isOpen = true ∧ t.openAlerts = s.openAlerts) ∧
          (stand = 0 → t.alerts[w].isOpen = false ∧ t.alerts[w].timer = none ∧ hasBit t.alerts[w].flags 2 = true ∧
            t.openAlerts = s.openAlerts.filter (fun a => a != w))) ∧
        (r ≠ 0 → KeepsAllBut [.ports, .alerts, .openAlerts, .notices] s t ∧
          t.ports[p] = { s.ports[p] with status := r, lastHeard := s.clock, receiver := .hunt }) ∧
        (r = 0 → s.ports[p].feedOwner = none →
          t.ports[p] = { s.ports[p] with status := r, lastHeard := s.clock, receiver := .hunt } ∧
          (t.service p = .ready → t.passInProgress = true) ∧
          KeepsAllBut [.ports, .alerts, .openAlerts, .notices, .passInProgress, .passOwed] s t) ∧
        (∀ j, r = 0 → s.ports[p].feedOwner = some j →
          Attempted { s with ports := s.ports.set p.val { s.ports[p] with
            status := r, lastHeard := s.clock, receiver := .hunt } } t p j) ∧
        KeepsAllBut [.jobs, .ports, .accounts, .alerts, .openAlerts, .pressLog, .notices, .passInProgress, .passOwed]
          s t))

/-- Discarded press frames move only the receiver, and a heard one that the link state does not take keeps a RATING or
UP link heard. PRESS_FRAME_DISCARDED on a DOWN link changes nothing. On another link every part of the state but the
port's receiver and Last heard stays, and in PROBING Last heard stays too. Bytes without 0xC3 that a hunting
receiver reads change nothing. A whole frame that a hunting receiver reads, with a good check and, for a printer
message of 11.6, with that kind's payload size: if the link is PROBING and the kind is not IDENT, RATING and it is
neither IDENT nor RATE_ECHO, or UP and it is RATE_ECHO; if a field is outside its values; or if 11.6 lists no such
kind: the port is heard, that is Last heard is the present tick in RATING and UP, and nothing else changes. A frame
whose length does not fit its kind, one of a possible length whose check is wrong, and an impossible length's three
bytes leave everything as it was. -/
def Obligations.DiscardedFramesOnlyKeepTheLinkHeard : Prop :=
  ∀ (s : State) (p : PortId) (bytes : List Byte),
    (s.ports[p].link = .down → exec (.pressFrameDiscarded p bytes) s = .next s) ∧
    Completes (.pressFrameDiscarded p bytes) s (fun t =>
      t.ports[p] = { s.ports[p] with receiver := t.ports[p].receiver, lastHeard := t.ports[p].lastHeard } ∧
      (t.ports[p].lastHeard = s.ports[p].lastHeard ∨ t.ports[p].lastHeard = s.clock) ∧
      (s.ports[p].link = .probing → t.ports[p].lastHeard = s.ports[p].lastHeard) ∧
      OtherPortsSame p s t ∧ KeepsAllBut [.ports] s t) ∧
    (s.ports[p].receiver = .hunt → 0xC3 ∉ bytes → exec (.pressFrameDiscarded p bytes) s = .next s) ∧
    (s.ports[p].receiver = .hunt → s.ports[p].link = .up →
      exec (.pressFrameDiscarded p (frameBytes 0xC3 [0x82])) s = .next (heardOnly s p)) ∧
    (∀ (sizes : List (Byte × Nat)) (kind : Byte) (fields : List Byte), s.ports[p].receiver = .hunt →
      s.ports[p].link ≠ .down → fields.length ≤ 1026 →
      sizes = [(0x81, 5), (0x82, 0), (0x83, 1), (0x84, 2), (0x85, 2), (0x86, 2), (0x87, 3), (0x88, 4), (0x89, 0),
        (0x8A, 0), (0x8B, 1)] →
      ((kind, fields.length) ∈ sizes →
        (s.ports[p].link = .probing ∧ kind ≠ 0x81) ∨ (s.ports[p].link = .rating ∧ kind ≠ 0x81 ∧ kind ≠ 0x82) ∨
          (s.ports[p].link = .up ∧ kind = 0x82) ∨
          (kind = 0x81 ∧ (16 ≤ (byteAt fields 1).toNat ∨ 8 ≤ (byteAt fields 3).toNat)) ∨
          (kind = 0x83 ∧ 8 ≤ (byteAt fields 0).toNat) ∨ (kind = 0x88 ∧ 2 ≤ (byteAt fields 1).toNat) ∨
          (kind = 0x8B ∧ 8 ≤ (byteAt fields 0).toNat) →
        exec (.pressFrameDiscarded p (frameBytes 0xC3 (kind :: fields))) s = .next (heardOnly s p)) ∧
      (kind.toNat = 0 ∨ 8 ≤ kind.toNat ∧ kind.toNat < 0x81 ∨ 0x8C ≤ kind.toNat →
        exec (.pressFrameDiscarded p (frameBytes 0xC3 (kind :: fields))) s = .next (heardOnly s p)) ∧
      ((∃ n, (kind, n) ∈ sizes ∧ fields.length ≠ n) →
        exec (.pressFrameDiscarded p (frameBytes 0xC3 (kind :: fields))) s = .next s)) ∧
    ∀ (l1 l2 : Byte) (rest : List Byte), s.ports[p].receiver = .hunt →
      ((beValue [l1, l2] < 1 ∨ 1027 < beValue [l1, l2]) →
        exec (.pressFrameDiscarded p [0xC3, l1, l2]) s = .next s) ∧
      (1 ≤ beValue [l1, l2] → beValue [l1, l2] ≤ 1027 → rest.length = beValue [l1, l2] + 2 →
        (crc16 (l1 :: l2 :: rest.take (beValue [l1, l2]))).toNat ≠ beValue (rest.drop (beValue [l1, l2])) →
        exec (.pressFrameDiscarded p (0xC3 :: l1 :: l2 :: rest)) s = .next s)

/-- PORT_METERS reports the lifetime set and the period set, and with close then zeroes the period set. A taken
PORT_METERS with a close flag of 0 or 1: a port above 15 is refused RANGE. Otherwise the reply is OK with twelve
meters of ten packed digits each, the lifetime set and then the period set as they stood; with the close flag set
the period set is then all 0, and with it clear it stays. The lifetime set, every other field of the port and
everything else stay as they were. -/
def Obligations.PortMetersReportAndClose : Prop :=
  ∀ (s : State) (tag : Byte) (body : List Byte), Takes s 0x32 tag body → body.length = 2 → (byteAt body 1).toNat ≤ 1 →
    (15 < (byteAt body 0).toNat → Refuses (.portMeters tag body) s 0x32 tag 0x05) ∧
    ∀ p : PortId, (byteAt body 0).toNat = p.val → Completes (.portMeters tag body) s (fun t =>
      Replied s t 0x32 tag 0x00 (([s.ports[p].lifetime, s.ports[p].period].flatMap (fun m =>
        [m.taken, m.sheets, m.mono, m.spot, m.full, m.spoiled])).flatMap (fun n => bcdBytes 5 n)) ∧
      t.ports[p] = { s.ports[p] with period := if byteAt body 1 = 1 then
        { taken := 0, sheets := 0, mono := 0, spot := 0, full := 0, spoiled := 0 } else s.ports[p].period } ∧
      OtherPortsSame p s t ∧ KeepsAllBut [.inbox, .replies, .ports] s t)

/-- TARIFF_WRITE writes one rate entry or one surcharge as a whole, and never leaves the standing page BLANK. A taken
TARIFF_WRITE with a BLANK byte of 0 or 1. A page above 7, an item type above 1, a rate's media above 7 or colour
above 2, a surcharge code outside 1 to 3, a value that is not BLANK with a nibble above 9 or a first digit other
than 0 in a rate or amount, and BLANK for page 7 are refused RANGE and the pages stay. Otherwise the item is BLANK,
or the front and back rate of bytes 5 to 8 and 9 to 12, or the amount of bytes 5 to 8, read as packed decimal; the
reply is OK with the item as it now stands; the page's other items and the other pages stay, and nothing else
changes. -/
def Obligations.TariffWriteSetsOneItem : Prop :=
  ∀ (s : State) (tag : Byte) (body : List Byte) (bad : Nat → Bool), Takes s 0x40 tag body → body.length = 13 →
    (byteAt body 4).toNat ≤ 1 →
    (∀ i, bad i = (decide (16 ≤ (byteAt body i).toNat) || (List.range 4).any (fun k =>
      decide (9 < (byteAt body (i + k)).toNat / 16 ∨ 9 < (byteAt body (i + k)).toNat % 16)))) →
    (7 < (byteAt body 0).toNat ∨ 1 < (byteAt body 1).toNat ∨
        byteAt body 1 = 0 ∧ (7 < (byteAt body 2).toNat ∨ 2 < (byteAt body 3).toNat ∨
          byteAt body 4 = 0 ∧ (bad 5 = true ∨ bad 9 = true)) ∨
        byteAt body 1 = 1 ∧ (byteAt body 2 = 0 ∨ 3 < (byteAt body 2).toNat ∨ byteAt body 4 = 0 ∧ bad 5 = true) ∨
        byteAt body 4 = 1 ∧ byteAt body 0 = 7 →
      Refuses (.tariffWrite tag body) s 0x40 tag 0x05) ∧
    ∀ g : Fin 8, (byteAt body 0).toNat = g.val → (byteAt body 4 = 0 ∨ g ≠ 7) →
      (∀ (m : Media) (c : Colour), byteAt body 1 = 0 → (byteAt body 2).toNat = m.val → (byteAt body 3).toNat = c.code →
        (byteAt body 4 = 0 → bad 5 = false ∧ bad 9 = false) → Completes (.tariffWrite tag body) s (fun t =>
          Replied s t 0x40 tag 0x00 (rateBytes t.tariffs[g].rates[rateKey m c]) ∧
          t.tariffs[g].rates[rateKey m c] = (if byteAt body 4 = 1 then none else some
            { front := bcdValue [byteAt body 5, byteAt body 6, byteAt body 7, byteAt body 8]
              back := bcdValue [byteAt body 9, byteAt body 10, byteAt body 11, byteAt body 12] }) ∧
          (∀ k : Fin 24, k ≠ rateKey m c → t.tariffs[g].rates[k] = s.tariffs[g].rates[k]) ∧
          t.tariffs[g].surcharges = s.tariffs[g].surcharges ∧ (∀ h : Fin 8, h ≠ g → t.tariffs[h] = s.tariffs[h]) ∧
          KeepsAllBut [.inbox, .replies, .tariffs] s t)) ∧
      ∀ k : Fin 3, byteAt body 1 = 1 → (byteAt body 2).toNat = k.val + 1 → (byteAt body 4 = 0 → bad 5 = false) →
        Completes (.tariffWrite tag body) s (fun t =>
          Replied s t 0x40 tag 0x00 (surchargeBytes t.tariffs[g].surcharges[k]) ∧
          t.tariffs[g].surcharges[k] = (if byteAt body 4 = 1 then none else some
            (bcdValue [byteAt body 5, byteAt body 6, byteAt body 7, byteAt body 8])) ∧
          (∀ i : Fin 3, i ≠ k → t.tariffs[g].surcharges[i] = s.tariffs[g].surcharges[i]) ∧
          t.tariffs[g].rates = s.tariffs[g].rates ∧ (∀ h : Fin 8, h ≠ g → t.tariffs[h] = s.tariffs[h]) ∧
          KeepsAllBut [.inbox, .replies, .tariffs] s t)

/-- ACCOUNT_SET writes five fields above the reservation, ACCOUNT_CREDIT adds to the allowance, ACCOUNT_CLOSE ends the
period. Taken with a good body; an account above 127 is refused RANGE, as is a group above 7 or a discount above
1,000 in ACCOUNT_SET. ACCOUNT_SET writes Enabled, Unmetered, group, discount and allowance; an allowance below the
reservation is written as the reservation with the reply CLAMPED, else OK. ACCOUNT_CREDIT adds its faces to the
allowance, to at most 16,777,215, CLAMPED when the sum is greater. ACCOUNT_CLOSE answers with the record as it stood
and sets period faces and charge to 0 and SATURATED to no. The first two carry the 20 bytes of the record as it
stands after. A pass is asked for exactly when the allowance rose or the account became unmetered and a queue is in
RUN, and never by ACCOUNT_CLOSE. Other fields and accounts stay, and nothing else changes. -/
def Obligations.AccountRequestsWriteTheirRecord : Prop :=
  ∀ (s : State) (tag : Byte) (body : List Byte),
    (Takes s 0x50 tag body → body.length = 8 → (byteAt body 1).toNat < 4 →
      (127 < (byteAt body 0).toNat ∨ 7 < (byteAt body 2).toNat ∨
        1000 < 256 * (byteAt body 3).toNat + (byteAt body 4).toNat → Refuses (.accountSet tag body) s 0x50 tag 0x05) ∧
      ∀ (a : AccountId) (g : Fin 8) (d n : Nat), (byteAt body 0).toNat = a.val → (byteAt body 2).toNat = g.val →
        d = 256 * (byteAt body 3).toNat + (byteAt body 4).toNat → d ≤ 1000 →
        n = 65536 * (byteAt body 5).toNat + 256 * (byteAt body 6).toNat + (byteAt body 7).toNat →
        Completes (.accountSet tag body) s (fun t =>
          Replied s t 0x50 tag (if n < s.accounts[a].reserved then 0x01 else 0x00) t.accounts[a].bytes ∧
          t.accounts[a].bytes.length = 20 ∧
          t.accounts[a] = { s.accounts[a] with
            enabled := hasBit (byteAt body 1) 0, unmetered := hasBit (byteAt body 1) 1, group := g, discount := d
            allowance := if n < s.accounts[a].reserved then s.accounts[a].reserved else n } ∧
          OtherAccountsSame a s t ∧
          AskedIf ((s.accounts[a].allowance < t.accounts[a].allowance ∨
            s.accounts[a].unmetered = false ∧ t.accounts[a].unmetered = true) ∧
            ∃ q : QueueId, s.queues[q].mode = .run) s t ∧
          KeepsAllBut [.inbox, .replies, .accounts, .passInProgress, .passOwed] s t)) ∧
    (Takes s 0x51 tag body → body.length = 4 →
      (127 < (byteAt body 0).toNat → Refuses (.accountCredit tag body) s 0x51 tag 0x05) ∧
      ∀ (a : AccountId) (n : Nat), (byteAt body 0).toNat = a.val →
        n = 65536 * (byteAt body 1).toNat + 256 * (byteAt body 2).toNat + (byteAt body 3).toNat →
        Completes (.accountCredit tag body) s (fun t =>
          Replied s t 0x51 tag (if 16777215 < s.accounts[a].allowance + n then 0x01 else 0x00) t.accounts[a].bytes ∧
          t.accounts[a] = { s.accounts[a] with
            allowance := if 16777215 < s.accounts[a].allowance + n then 16777215 else s.accounts[a].allowance + n } ∧
          OtherAccountsSame a s t ∧
          AskedIf (s.accounts[a].allowance < t.accounts[a].allowance ∧
            ∃ q : QueueId, s.queues[q].mode = .run) s t ∧
          KeepsAllBut [.inbox, .replies, .accounts, .passInProgress, .passOwed] s t)) ∧
    (Takes s 0x52 tag body → body.length = 1 →
      (127 < (byteAt body 0).toNat → Refuses (.accountClose tag body) s 0x52 tag 0x05) ∧
      ∀ a : AccountId, (byteAt body 0).toNat = a.val → Completes (.accountClose tag body) s (fun t =>
        Replied s t 0x52 tag 0x00 s.accounts[a].bytes ∧
        t.accounts[a] = { s.accounts[a] with periodFaces := 0, periodCharge := 0, saturated := false } ∧
        OtherAccountsSame a s t ∧ KeepsAllBut [.inbox, .replies, .accounts] s t))

/-- An unanswered alert rises a level at each expiry, and ALERT_ACK stops its timer and silences the alarm. A taken
ALERT_ACK: a slot above 31 is refused RANGE, a CLEAR slot STATE; on an OPEN slot Acknowledged becomes yes and the
timer stops, the level, flags and everything else of it stay, the slot does not sound the alarm, and the reply is OK
with the slot. ESCALATION_TIMER_EXPIRY for an OPEN, unacknowledged slot whose timer expires now: from level 1 to 2
with the timer started for E2 seconds, from level 2 to 3 with the timer stopped and the shop alarm asserted;
ESCALATED is flagged and a notice owed. Nothing else changes. An expiry that is not due, or of a slot that is CLEAR,
acknowledged or with its timer stopped, changes nothing (log entry 1). -/
def Obligations.AlertsEscalateUntilAcknowledged : Prop :=
  ∀ (s : State) (a : AlertId),
    (∀ (tag : Byte) (body : List Byte), Takes s 0x60 tag body → body.length = 1 →
      (31 < (byteAt body 0).toNat ∨ (byteAt body 0).toNat = a.val ∧ s.alerts[a].isOpen = false →
        Refuses (.alertAck tag body) s 0x60 tag (if 31 < (byteAt body 0).toNat then 0x05 else 0x07)) ∧
      ((byteAt body 0).toNat = a.val → s.alerts[a].isOpen = true → Completes (.alertAck tag body) s (fun t =>
        Replied s t 0x60 tag 0x00 (t.alertBytes a 0) ∧
        t.alerts[a] = { s.alerts[a] with acknowledged := true, timer := none } ∧ t.alerts[a].sounds = false ∧
        (∀ p : PortId, t.lamp p = s.lamp p) ∧ OtherAlertsSame a s t ∧ KeepsAllBut [.inbox, .replies, .alerts] s t))) ∧
    (s.alerts[a].isOpen = false ∨ s.alerts[a].acknowledged = true ∨ s.alerts[a].timer ≠ some s.clock →
      exec (.escalationTimerExpiry a) s = .next s) ∧
    (s.alerts[a].isOpen = true → s.alerts[a].acknowledged = false → s.alerts[a].timer = some s.clock →
      s.alerts[a].level = 1 ∨ s.alerts[a].level = 2 → Completes (.escalationTimerExpiry a) s (fun t =>
        t.alerts[a] = { s.alerts[a] with
          level := s.alerts[a].level + 1
          timer := if s.alerts[a].level = 1 then some (s.clock + BitVec.ofNat 32 (10 * s.timers.escalation2)) else none
          flags := addBit s.alerts[a].flags 1, noticeOwed := true } ∧
        (s.alerts[a].level = 2 → t.alarm = true) ∧ OtherAlertsSame a s t ∧
        t.notices = s.notices ++ (if s.alerts[a].noticeOwed then [] else [.alert a]) ∧
        KeepsAllBut [.alerts, .notices] s t))

/-- SET_TIMERS writes all five settings within their ranges and says CLAMPED when one was moved. A taken SET_TIMERS
writes the starve timeout (1 to 255 ticks), setup stall (5 to 600 s), E1 and E2 (10 to 3,600 s) and reroute delay (0
to 3,600 s), each as sent or at the nearer end of its range. The reply is OK when every value stands as sent and
CLAMPED otherwise, with the five settings as stored. Nothing else changes: running timers and exclusions keep their
ticks. After POWER_ON and RESET_PIN the settings are 20, 30, 60, 180 and 20, and RESTART_RESET keeps them. -/
def Obligations.SetTimersWritesWithinTheRanges : Prop :=
  (∀ (s : State) (tag : Byte) (body : List Byte) (n : Nat → Nat), Takes s 0x70 tag body → body.length = 9 →
    (∀ i, n i = if i = 0 then (byteAt body 0).toNat
      else 256 * (byteAt body (2 * i - 1)).toNat + (byteAt body (2 * i)).toNat) →
    Completes (.setTimers tag body) s (fun t =>
      t.timers = {
        starve := if n 0 < 1 then 1 else n 0
        setupStall := if n 1 < 5 then 5 else if 600 < n 1 then 600 else n 1
        escalation1 := if n 2 < 10 then 10 else if 3600 < n 2 then 3600 else n 2
        escalation2 := if n 3 < 10 then 10 else if 3600 < n 3 then 3600 else n 3
        reroute := if 3600 < n 4 then 3600 else n 4 } ∧
      Replied s t 0x70 tag
        (if 1 ≤ n 0 ∧ 5 ≤ n 1 ∧ n 1 ≤ 600 ∧ 10 ≤ n 2 ∧ n 2 ≤ 3600 ∧ 10 ≤ n 3 ∧ n 3 ≤ 3600 ∧ n 4 ≤ 3600 then 0x00
          else 0x01)
        (u8 t.timers.starve :: (beBytes 2 t.timers.setupStall ++ beBytes 2 t.timers.escalation1 ++
          beBytes 2 t.timers.escalation2 ++ beBytes 2 t.timers.reroute)) ∧
      KeepsAllBut [.inbox, .replies, .timers] s t)) ∧
    (∀ (s : State) (c : Instr), c = .powerOn ∨ c = .resetPin → Completes c s (fun t =>
      t.timers = { starve := 20, setupStall := 30, escalation1 := 60, escalation2 := 180, reroute := 20 })) ∧
    ∀ s : State, s.restarting = true → s.replies = [] → s.onLink ≠ none →
      Completes .restartReset s (fun t => t.timers = s.timers)

/-- The clock rises by one at a tick, and a timer that expires at the present tick has the effect of its rule.
SHOP_CLOCK_TICK raises the clock by one, wrapping at 2^32. At the tick of a job's exclusion REROUTE_TICK asks for a
pass. PROBE_DUE in PROBING at Probe due sends a PROBE and sets Probe due 10 ticks on. STARVE_TIMER_EXPIRY at its
tick for a port whose owner is job j makes j WAITING/STARVED without a feed, flagged STARVED with a notice owed, and
leaves the port without owner and starve timer with its window as it was. SETUP_TIMER_EXPIRY at its tick stops the
setup timer, reports the stall, and SETUP_STALL stands in the open wait slot, flagged RAISED unless it stood
already; the hold goes on. Nothing else changes. That a tick changes the clock alone, each expiry being an event of
its own that acts only while the clock equals its tick, is the model's choice (log entry 3). At another tick, or
with the timer stopped, these events change nothing (log entry 1). -/
def Obligations.TimersExpireAtTheirTick : Prop :=
  ∀ (s : State) (p : PortId) (j : SlotId),
    exec .shopClockTick s = .next { s with clock := s.clock + 1 } ∧
    (s.jobs[j].exclusion.map (fun x => x.tick) ≠ some s.clock → exec (.rerouteTick j) s = .next s) ∧
    (s.jobs[j].exclusion.map (fun x => x.tick) = some s.clock → Completes (.rerouteTick j) s (fun t =>
      Asked s t ∧ KeepsAllBut [.passInProgress, .passOwed] s t)) ∧
    (s.ports[p].link ≠ .probing ∨ s.ports[p].probeDue ≠ s.clock → exec (.probeDue p) s = .next s) ∧
    (s.ports[p].link = .probing → s.ports[p].probeDue = s.clock → Completes (.probeDue p) s (fun t =>
      t.ports[p] = { s.ports[p] with probeDue := s.clock + 10 } ∧ OtherPortsSame p s t ∧
      t.pressLog = s.pressLog ++ [(p, .probe)] ∧ KeepsAllBut [.ports, .pressLog] s t)) ∧
    (s.ports[p].starveTimer ≠ some s.clock → exec (.starveTimerExpiry p) s = .next s) ∧
    (s.ports[p].starveTimer = some s.clock → s.ports[p].feedOwner = some j →
      Completes (.starveTimerExpiry p) s (fun t =>
        t.jobs[j] = { s.jobs[j] with
          state := .waiting, reason := some .starved, feedPort := none, flags := addBit s.jobs[j].flags 8
          noticeOwed := true } ∧ OtherJobsSame j s t ∧ (s.jobs[j].noticeOwed = false → Source.job j ∈ t.notices) ∧
        t.ports[p].feedOwner = none ∧ t.ports[p].starveTimer = none ∧ t.ports[p].releaseOwed = false ∧
        t.ports[p].window = s.ports[p].window ∧ OtherPortsSame p s t ∧
        (s.queues[s.jobs[j].queue].mode = .run → t.passInProgress = true) ∧
        KeepsAllBut [.jobs, .ports, .notices, .passInProgress, .passOwed] s t)) ∧
    (s.ports[p].setupTimer ≠ some s.clock → exec (.setupTimerExpiry p) s = .next s) ∧
    (s.ports[p].setupTimer = some s.clock → Completes (.setupTimerExpiry p) s (fun t =>
      t.ports[p] = { s.ports[p] with stallReported := true, setupTimer := none } ∧ OtherPortsSame p s t ∧
      t.alerts[waitSlot p].isOpen = true ∧ hasBit t.alerts[waitSlot p].standing 6 = true ∧
      (s.alerts[waitSlot p].isOpen = false → t.alerts[waitSlot p].primary = some .setupStall) ∧
      (s.alerts[waitSlot p].isOpen = false ∨ hasBit s.alerts[waitSlot p].standing 6 = false →
        hasBit t.alerts[waitSlot p].flags 0 = true ∧ t.alerts[waitSlot p].noticeOwed = true) ∧
      OtherAlertsSame (waitSlot p) s t ∧ KeepsAllBut [.ports, .alerts, .openAlerts, .notices] s t))

/-- Every step keeps the bounds of inbox, replies, rings, marks and timers, and the standing page priced. If in a state
the inbox and the reply queue hold at most 16 frames each, S ≤ C ≤ E ≤ 63 in every ring, no item of the standing
page is BLANK, no received set holds its own queue's member or anything in DISABLED or LOAD, and the five timer
settings stand within their ranges, then all of this holds in every state that a step answers. -/
def Obligations.EveryStepKeepsTheTablesLegal : Prop :=
  KeptByStep (fun s => HliBounded s ∧ RingsOrdered s ∧ StandingPriced s ∧ MarksLegal s ∧ TimersInRange s)

/-- Every step keeps each block in one place, each held page with its owner, and the DRAM's bytes in canonical form. If
in a state each of the 65,536 blocks stands exactly once in the free pool or in one record's chain, every place of a
page list names a SEALED record of that job and place, every filling page a FILLING record of that job, a FREE
record holds no blocks, every chain is as long as its length needs, and the list of the DRAM's bytes is in its
canonical form, then all of this holds in every state that a step answers. -/
def Obligations.EveryStepKeepsThePageStoreSound : Prop :=
  KeptByStep (fun s => StoreSound s ∧ DramCanonical s)

/-- Every step keeps windows within their depth, with at most the newest entry unsettled, and the port meters in
balance. If in a state no port's window holds more entries than its effective depth, which is at most 8 like every
declared depth, every entry but the newest is TAKEN, no entry and no page has more than two faces, the window of
every port whose link is not UP is empty, every meter is below 1,000,000,000, and each port's lifetime taken faces
equal its lifetime MONO, SPOT, FULL and spoiled faces and the faces of its TAKEN entries, modulo 1,000,000,000
(R107), then the same holds in every state that a step answers. The windows alone are kept too. -/
def Obligations.EveryStepKeepsTheWindowsSound : Prop :=
  KeptByStep WindowsSound ∧ KeptByStep (fun s => WindowsSound s ∧ MetersBalanced s)

/-- Every step keeps each OPEN alert in the open-alert list once, and the owed notices of alerts, ports and the part in
the notice queue once. If in a state the open-alert list holds each OPEN slot exactly once and no CLEAR one, and
each alert slot, each port and the part stand in the notice queue once when they owe a notice and not otherwise,
then the same holds in every state that a step answers. The job slots' notices are kept by
EveryStepKeepsFeedsAndListsInAgreement. -/
def Obligations.EveryStepKeepsAlertsAndNoticesListed : Prop :=
  KeptByStep (fun s => OpenAlertsListed s ∧ NoticesOwed s)

/-- Every step keeps feeds, job states, job lists, window entries and the jobs' owed notices in agreement. If in a state
the windows are sound (WindowsSound), each port's feed owner is the job whose feed port it is, the jobs with a feed
are those in ACTIVE and STARVED, a job's entries stand at one port, that of its feed if it has one, a STREAMING
entry belongs to its port's ACTIVE owner, a starve timer runs for a STARVED owner, DONE and CANCELLED are flagged
only in DONE and CANCELLING, each queue list holds exactly its jobs once, FREE and DONE jobs and jobs flagged
CANCELLED have no entries, each job slot stands in the notice queue once when it owes a notice and not otherwise,
and a FREE slot owes none, then all of this holds in every state that a step answers. -/
def Obligations.EveryStepKeepsFeedsAndListsInAgreement : Prop :=
  KeptByStep (fun s => WindowsSound s ∧ FeedsAgree s ∧ ListsSound s ∧ JobNoticesOwed s)

/-- Every step keeps each reservation equal to the faces of its jobs' entries, and a metered one within its allowance.
If in a state each account's reservation is the sum of the faces of the window entries of its jobs, no allowance is
above 16,777,215, and a metered account's reservation is at most its allowance, and windows, feeds and job lists are
sound (WindowsSound, FeedsAgree, ListsSound, each kept by every step by a statement of its own), then in every state
that a step answers the reservations are so again. -/
def Obligations.EveryStepKeepsReservationsEqualToFacesInFlight : Prop :=
  ∀ s t : State, WindowsSound s → FeedsAgree s → ListsSound s → ReservationsSound s → step s = .next t →
    ReservationsSound t

/-- The state after reset has every property that the invariants speak of. In the reset state the inbox, the reply
queue, rings, standing page, marks and timers are within their bounds, the Page Store is sound and the DRAM's byte
list canonical, windows, meters, feeds, job lists and reservations agree, and the open-alert list and the notice
queue hold what is open and owed. -/
def Obligations.ResetMeetsTheInvariants : Prop :=
  HliBounded State.reset ∧ RingsOrdered State.reset ∧ StandingPriced State.reset ∧ MarksLegal State.reset ∧
    TimersInRange State.reset ∧ StoreSound State.reset ∧ DramCanonical State.reset ∧ WindowsSound State.reset ∧
    OpenAlertsListed State.reset ∧ NoticesOwed State.reset ∧ FeedsAgree State.reset ∧ ListsSound State.reset ∧
    ReservationsSound State.reset ∧ MetersBalanced State.reset ∧ JobNoticesOwed State.reset
end

