-- ==== Sys2Proof/Laws/State.lean ====
section
/-! SUPPORT. The small lemmas of the state's updates: one for each field and each named update, true by rfl, and what a
table reads at the place written and at every other place. -/

set_option Elab.async false

namespace Sys2Proof.Machine

variable (s : State)

-- ## updJob

@[simp] theorem State.updJob_checker (j : SlotId) (f : Job → Job) : (s.updJob j f).checker = s.checker := rfl
@[simp] theorem State.updJob_inbox (j : SlotId) (f : Job → Job) : (s.updJob j f).inbox = s.inbox := rfl
@[simp] theorem State.updJob_replies (j : SlotId) (f : Job → Job) : (s.updJob j f).replies = s.replies := rfl
@[simp] theorem State.updJob_notices (j : SlotId) (f : Job → Job) : (s.updJob j f).notices = s.notices := rfl
@[simp] theorem State.updJob_onLink (j : SlotId) (f : Job → Job) : (s.updJob j f).onLink = s.onLink := rfl
@[simp] theorem State.updJob_startInterval (j : SlotId) (f : Job → Job) : (s.updJob j f).startInterval = s.startInterval := rfl
@[simp] theorem State.updJob_startFlag (j : SlotId) (f : Job → Job) : (s.updJob j f).startFlag = s.startFlag := rfl
@[simp] theorem State.updJob_partOwed (j : SlotId) (f : Job → Job) : (s.updJob j f).partOwed = s.partOwed := rfl
@[simp] theorem State.updJob_startCause (j : SlotId) (f : Job → Job) : (s.updJob j f).startCause = s.startCause := rfl
@[simp] theorem State.updJob_restarting (j : SlotId) (f : Job → Job) : (s.updJob j f).restarting = s.restarting := rfl
@[simp] theorem State.updJob_queues (j : SlotId) (f : Job → Job) : (s.updJob j f).queues = s.queues := rfl
@[simp] theorem State.updJob_markLine (j : SlotId) (f : Job → Job) : (s.updJob j f).markLine = s.markLine := rfl
@[simp] theorem State.updJob_pages (j : SlotId) (f : Job → Job) : (s.updJob j f).pages = s.pages := rfl
@[simp] theorem State.updJob_freePool (j : SlotId) (f : Job → Job) : (s.updJob j f).freePool = s.freePool := rfl
@[simp] theorem State.updJob_dram (j : SlotId) (f : Job → Job) : (s.updJob j f).dram = s.dram := rfl
@[simp] theorem State.updJob_rows (j : SlotId) (f : Job → Job) : (s.updJob j f).rows = s.rows := rfl
@[simp] theorem State.updJob_rings (j : SlotId) (f : Job → Job) : (s.updJob j f).rings = s.rings := rfl
@[simp] theorem State.updJob_proposals (j : SlotId) (f : Job → Job) : (s.updJob j f).proposals = s.proposals := rfl
@[simp] theorem State.updJob_passInProgress (j : SlotId) (f : Job → Job) : (s.updJob j f).passInProgress = s.passInProgress := rfl
@[simp] theorem State.updJob_passOwed (j : SlotId) (f : Job → Job) : (s.updJob j f).passOwed = s.passOwed := rfl
@[simp] theorem State.updJob_ports (j : SlotId) (f : Job → Job) : (s.updJob j f).ports = s.ports := rfl
@[simp] theorem State.updJob_pressLog (j : SlotId) (f : Job → Job) : (s.updJob j f).pressLog = s.pressLog := rfl
@[simp] theorem State.updJob_tariffs (j : SlotId) (f : Job → Job) : (s.updJob j f).tariffs = s.tariffs := rfl
@[simp] theorem State.updJob_accounts (j : SlotId) (f : Job → Job) : (s.updJob j f).accounts = s.accounts := rfl
@[simp] theorem State.updJob_alerts (j : SlotId) (f : Job → Job) : (s.updJob j f).alerts = s.alerts := rfl
@[simp] theorem State.updJob_openAlerts (j : SlotId) (f : Job → Job) : (s.updJob j f).openAlerts = s.openAlerts := rfl
@[simp] theorem State.updJob_clock (j : SlotId) (f : Job → Job) : (s.updJob j f).clock = s.clock := rfl
@[simp] theorem State.updJob_timers (j : SlotId) (f : Job → Job) : (s.updJob j f).timers = s.timers := rfl
@[simp] theorem State.updJob_freeCount (j : SlotId) (f : Job → Job) : (s.updJob j f).freeCount = s.freeCount := rfl
@[simp] theorem State.updJob_pending (j : SlotId) (f : Job → Job) : (s.updJob j f).pending = s.pending := rfl

@[simp] theorem State.updJob_jobs_self (j : SlotId) (f : Job → Job) : (s.updJob j f).jobs[j] = f s.jobs[j] := by
  simp [State.updJob]
@[simp] theorem State.updJob_jobs_val (j : SlotId) (f : Job → Job) : (s.updJob j f).jobs[j.val] = f s.jobs[j.val] := by
  simp [State.updJob]
theorem State.updJob_jobs_ne (j : SlotId) (f : Job → Job) (k : SlotId) (h : k ≠ j) : (s.updJob j f).jobs[k] = s.jobs[k] := by
  simp only [State.updJob, Fin.getElem_fin]
  exact Vector.getElem_set_ne _ _ (fun e => h (Fin.ext e.symm))

-- ## updQueue

@[simp] theorem State.updQueue_checker (q : QueueId) (f : Queue → Queue) : (s.updQueue q f).checker = s.checker := rfl
@[simp] theorem State.updQueue_inbox (q : QueueId) (f : Queue → Queue) : (s.updQueue q f).inbox = s.inbox := rfl
@[simp] theorem State.updQueue_replies (q : QueueId) (f : Queue → Queue) : (s.updQueue q f).replies = s.replies := rfl
@[simp] theorem State.updQueue_notices (q : QueueId) (f : Queue → Queue) : (s.updQueue q f).notices = s.notices := rfl
@[simp] theorem State.updQueue_onLink (q : QueueId) (f : Queue → Queue) : (s.updQueue q f).onLink = s.onLink := rfl
@[simp] theorem State.updQueue_startInterval (q : QueueId) (f : Queue → Queue) : (s.updQueue q f).startInterval = s.startInterval := rfl
@[simp] theorem State.updQueue_startFlag (q : QueueId) (f : Queue → Queue) : (s.updQueue q f).startFlag = s.startFlag := rfl
@[simp] theorem State.updQueue_partOwed (q : QueueId) (f : Queue → Queue) : (s.updQueue q f).partOwed = s.partOwed := rfl
@[simp] theorem State.updQueue_startCause (q : QueueId) (f : Queue → Queue) : (s.updQueue q f).startCause = s.startCause := rfl
@[simp] theorem State.updQueue_restarting (q : QueueId) (f : Queue → Queue) : (s.updQueue q f).restarting = s.restarting := rfl
@[simp] theorem State.updQueue_jobs (q : QueueId) (f : Queue → Queue) : (s.updQueue q f).jobs = s.jobs := rfl
@[simp] theorem State.updQueue_markLine (q : QueueId) (f : Queue → Queue) : (s.updQueue q f).markLine = s.markLine := rfl
@[simp] theorem State.updQueue_pages (q : QueueId) (f : Queue → Queue) : (s.updQueue q f).pages = s.pages := rfl
@[simp] theorem State.updQueue_freePool (q : QueueId) (f : Queue → Queue) : (s.updQueue q f).freePool = s.freePool := rfl
@[simp] theorem State.updQueue_dram (q : QueueId) (f : Queue → Queue) : (s.updQueue q f).dram = s.dram := rfl
@[simp] theorem State.updQueue_rows (q : QueueId) (f : Queue → Queue) : (s.updQueue q f).rows = s.rows := rfl
@[simp] theorem State.updQueue_rings (q : QueueId) (f : Queue → Queue) : (s.updQueue q f).rings = s.rings := rfl
@[simp] theorem State.updQueue_proposals (q : QueueId) (f : Queue → Queue) : (s.updQueue q f).proposals = s.proposals := rfl
@[simp] theorem State.updQueue_passInProgress (q : QueueId) (f : Queue → Queue) : (s.updQueue q f).passInProgress = s.passInProgress := rfl
@[simp] theorem State.updQueue_passOwed (q : QueueId) (f : Queue → Queue) : (s.updQueue q f).passOwed = s.passOwed := rfl
@[simp] theorem State.updQueue_ports (q : QueueId) (f : Queue → Queue) : (s.updQueue q f).ports = s.ports := rfl
@[simp] theorem State.updQueue_pressLog (q : QueueId) (f : Queue → Queue) : (s.updQueue q f).pressLog = s.pressLog := rfl
@[simp] theorem State.updQueue_tariffs (q : QueueId) (f : Queue → Queue) : (s.updQueue q f).tariffs = s.tariffs := rfl
@[simp] theorem State.updQueue_accounts (q : QueueId) (f : Queue → Queue) : (s.updQueue q f).accounts = s.accounts := rfl
@[simp] theorem State.updQueue_alerts (q : QueueId) (f : Queue → Queue) : (s.updQueue q f).alerts = s.alerts := rfl
@[simp] theorem State.updQueue_openAlerts (q : QueueId) (f : Queue → Queue) : (s.updQueue q f).openAlerts = s.openAlerts := rfl
@[simp] theorem State.updQueue_clock (q : QueueId) (f : Queue → Queue) : (s.updQueue q f).clock = s.clock := rfl
@[simp] theorem State.updQueue_timers (q : QueueId) (f : Queue → Queue) : (s.updQueue q f).timers = s.timers := rfl
@[simp] theorem State.updQueue_freeCount (q : QueueId) (f : Queue → Queue) : (s.updQueue q f).freeCount = s.freeCount := rfl
@[simp] theorem State.updQueue_pending (q : QueueId) (f : Queue → Queue) : (s.updQueue q f).pending = s.pending := rfl

@[simp] theorem State.updQueue_queues_self (q : QueueId) (f : Queue → Queue) : (s.updQueue q f).queues[q] = f s.queues[q] := by
  simp [State.updQueue]
@[simp] theorem State.updQueue_queues_val (q : QueueId) (f : Queue → Queue) : (s.updQueue q f).queues[q.val] = f s.queues[q.val] := by
  simp [State.updQueue]
theorem State.updQueue_queues_ne (q : QueueId) (f : Queue → Queue) (k : QueueId) (h : k ≠ q) : (s.updQueue q f).queues[k] = s.queues[k] := by
  simp only [State.updQueue, Fin.getElem_fin]
  exact Vector.getElem_set_ne _ _ (fun e => h (Fin.ext e.symm))

-- ## updRing

@[simp] theorem State.updRing_checker (q : QueueId) (f : Ring → Ring) : (s.updRing q f).checker = s.checker := rfl
@[simp] theorem State.updRing_inbox (q : QueueId) (f : Ring → Ring) : (s.updRing q f).inbox = s.inbox := rfl
@[simp] theorem State.updRing_replies (q : QueueId) (f : Ring → Ring) : (s.updRing q f).replies = s.replies := rfl
@[simp] theorem State.updRing_notices (q : QueueId) (f : Ring → Ring) : (s.updRing q f).notices = s.notices := rfl
@[simp] theorem State.updRing_onLink (q : QueueId) (f : Ring → Ring) : (s.updRing q f).onLink = s.onLink := rfl
@[simp] theorem State.updRing_startInterval (q : QueueId) (f : Ring → Ring) : (s.updRing q f).startInterval = s.startInterval := rfl
@[simp] theorem State.updRing_startFlag (q : QueueId) (f : Ring → Ring) : (s.updRing q f).startFlag = s.startFlag := rfl
@[simp] theorem State.updRing_partOwed (q : QueueId) (f : Ring → Ring) : (s.updRing q f).partOwed = s.partOwed := rfl
@[simp] theorem State.updRing_startCause (q : QueueId) (f : Ring → Ring) : (s.updRing q f).startCause = s.startCause := rfl
@[simp] theorem State.updRing_restarting (q : QueueId) (f : Ring → Ring) : (s.updRing q f).restarting = s.restarting := rfl
@[simp] theorem State.updRing_jobs (q : QueueId) (f : Ring → Ring) : (s.updRing q f).jobs = s.jobs := rfl
@[simp] theorem State.updRing_queues (q : QueueId) (f : Ring → Ring) : (s.updRing q f).queues = s.queues := rfl
@[simp] theorem State.updRing_markLine (q : QueueId) (f : Ring → Ring) : (s.updRing q f).markLine = s.markLine := rfl
@[simp] theorem State.updRing_pages (q : QueueId) (f : Ring → Ring) : (s.updRing q f).pages = s.pages := rfl
@[simp] theorem State.updRing_freePool (q : QueueId) (f : Ring → Ring) : (s.updRing q f).freePool = s.freePool := rfl
@[simp] theorem State.updRing_dram (q : QueueId) (f : Ring → Ring) : (s.updRing q f).dram = s.dram := rfl
@[simp] theorem State.updRing_rows (q : QueueId) (f : Ring → Ring) : (s.updRing q f).rows = s.rows := rfl
@[simp] theorem State.updRing_proposals (q : QueueId) (f : Ring → Ring) : (s.updRing q f).proposals = s.proposals := rfl
@[simp] theorem State.updRing_passInProgress (q : QueueId) (f : Ring → Ring) : (s.updRing q f).passInProgress = s.passInProgress := rfl
@[simp] theorem State.updRing_passOwed (q : QueueId) (f : Ring → Ring) : (s.updRing q f).passOwed = s.passOwed := rfl
@[simp] theorem State.updRing_ports (q : QueueId) (f : Ring → Ring) : (s.updRing q f).ports = s.ports := rfl
@[simp] theorem State.updRing_pressLog (q : QueueId) (f : Ring → Ring) : (s.updRing q f).pressLog = s.pressLog := rfl
@[simp] theorem State.updRing_tariffs (q : QueueId) (f : Ring → Ring) : (s.updRing q f).tariffs = s.tariffs := rfl
@[simp] theorem State.updRing_accounts (q : QueueId) (f : Ring → Ring) : (s.updRing q f).accounts = s.accounts := rfl
@[simp] theorem State.updRing_alerts (q : QueueId) (f : Ring → Ring) : (s.updRing q f).alerts = s.alerts := rfl
@[simp] theorem State.updRing_openAlerts (q : QueueId) (f : Ring → Ring) : (s.updRing q f).openAlerts = s.openAlerts := rfl
@[simp] theorem State.updRing_clock (q : QueueId) (f : Ring → Ring) : (s.updRing q f).clock = s.clock := rfl
@[simp] theorem State.updRing_timers (q : QueueId) (f : Ring → Ring) : (s.updRing q f).timers = s.timers := rfl
@[simp] theorem State.updRing_freeCount (q : QueueId) (f : Ring → Ring) : (s.updRing q f).freeCount = s.freeCount := rfl
@[simp] theorem State.updRing_pending (q : QueueId) (f : Ring → Ring) : (s.updRing q f).pending = s.pending := rfl

@[simp] theorem State.updRing_rings_self (q : QueueId) (f : Ring → Ring) : (s.updRing q f).rings[q] = f s.rings[q] := by
  simp [State.updRing]
@[simp] theorem State.updRing_rings_val (q : QueueId) (f : Ring → Ring) : (s.updRing q f).rings[q.val] = f s.rings[q.val] := by
  simp [State.updRing]
theorem State.updRing_rings_ne (q : QueueId) (f : Ring → Ring) (k : QueueId) (h : k ≠ q) : (s.updRing q f).rings[k] = s.rings[k] := by
  simp only [State.updRing, Fin.getElem_fin]
  exact Vector.getElem_set_ne _ _ (fun e => h (Fin.ext e.symm))

-- ## updProposal

@[simp] theorem State.updProposal_checker (q : QueueId) (f : Option Proposal → Option Proposal) : (s.updProposal q f).checker = s.checker := rfl
@[simp] theorem State.updProposal_inbox (q : QueueId) (f : Option Proposal → Option Proposal) : (s.updProposal q f).inbox = s.inbox := rfl
@[simp] theorem State.updProposal_replies (q : QueueId) (f : Option Proposal → Option Proposal) : (s.updProposal q f).replies = s.replies := rfl
@[simp] theorem State.updProposal_notices (q : QueueId) (f : Option Proposal → Option Proposal) : (s.updProposal q f).notices = s.notices := rfl
@[simp] theorem State.updProposal_onLink (q : QueueId) (f : Option Proposal → Option Proposal) : (s.updProposal q f).onLink = s.onLink := rfl
@[simp] theorem State.updProposal_startInterval (q : QueueId) (f : Option Proposal → Option Proposal) : (s.updProposal q f).startInterval = s.startInterval := rfl
@[simp] theorem State.updProposal_startFlag (q : QueueId) (f : Option Proposal → Option Proposal) : (s.updProposal q f).startFlag = s.startFlag := rfl
@[simp] theorem State.updProposal_partOwed (q : QueueId) (f : Option Proposal → Option Proposal) : (s.updProposal q f).partOwed = s.partOwed := rfl
@[simp] theorem State.updProposal_startCause (q : QueueId) (f : Option Proposal → Option Proposal) : (s.updProposal q f).startCause = s.startCause := rfl
@[simp] theorem State.updProposal_restarting (q : QueueId) (f : Option Proposal → Option Proposal) : (s.updProposal q f).restarting = s.restarting := rfl
@[simp] theorem State.updProposal_jobs (q : QueueId) (f : Option Proposal → Option Proposal) : (s.updProposal q f).jobs = s.jobs := rfl
@[simp] theorem State.updProposal_queues (q : QueueId) (f : Option Proposal → Option Proposal) : (s.updProposal q f).queues = s.queues := rfl
@[simp] theorem State.updProposal_markLine (q : QueueId) (f : Option Proposal → Option Proposal) : (s.updProposal q f).markLine = s.markLine := rfl
@[simp] theorem State.updProposal_pages (q : QueueId) (f : Option Proposal → Option Proposal) : (s.updProposal q f).pages = s.pages := rfl
@[simp] theorem State.updProposal_freePool (q : QueueId) (f : Option Proposal → Option Proposal) : (s.updProposal q f).freePool = s.freePool := rfl
@[simp] theorem State.updProposal_dram (q : QueueId) (f : Option Proposal → Option Proposal) : (s.updProposal q f).dram = s.dram := rfl
@[simp] theorem State.updProposal_rows (q : QueueId) (f : Option Proposal → Option Proposal) : (s.updProposal q f).rows = s.rows := rfl
@[simp] theorem State.updProposal_rings (q : QueueId) (f : Option Proposal → Option Proposal) : (s.updProposal q f).rings = s.rings := rfl
@[simp] theorem State.updProposal_passInProgress (q : QueueId) (f : Option Proposal → Option Proposal) : (s.updProposal q f).passInProgress = s.passInProgress := rfl
@[simp] theorem State.updProposal_passOwed (q : QueueId) (f : Option Proposal → Option Proposal) : (s.updProposal q f).passOwed = s.passOwed := rfl
@[simp] theorem State.updProposal_ports (q : QueueId) (f : Option Proposal → Option Proposal) : (s.updProposal q f).ports = s.ports := rfl
@[simp] theorem State.updProposal_pressLog (q : QueueId) (f : Option Proposal → Option Proposal) : (s.updProposal q f).pressLog = s.pressLog := rfl
@[simp] theorem State.updProposal_tariffs (q : QueueId) (f : Option Proposal → Option Proposal) : (s.updProposal q f).tariffs = s.tariffs := rfl
@[simp] theorem State.updProposal_accounts (q : QueueId) (f : Option Proposal → Option Proposal) : (s.updProposal q f).accounts = s.accounts := rfl
@[simp] theorem State.updProposal_alerts (q : QueueId) (f : Option Proposal → Option Proposal) : (s.updProposal q f).alerts = s.alerts := rfl
@[simp] theorem State.updProposal_openAlerts (q : QueueId) (f : Option Proposal → Option Proposal) : (s.updProposal q f).openAlerts = s.openAlerts := rfl
@[simp] theorem State.updProposal_clock (q : QueueId) (f : Option Proposal → Option Proposal) : (s.updProposal q f).clock = s.clock := rfl
@[simp] theorem State.updProposal_timers (q : QueueId) (f : Option Proposal → Option Proposal) : (s.updProposal q f).timers = s.timers := rfl
@[simp] theorem State.updProposal_freeCount (q : QueueId) (f : Option Proposal → Option Proposal) : (s.updProposal q f).freeCount = s.freeCount := rfl
@[simp] theorem State.updProposal_pending (q : QueueId) (f : Option Proposal → Option Proposal) : (s.updProposal q f).pending = s.pending := rfl

@[simp] theorem State.updProposal_proposals_self (q : QueueId) (f : Option Proposal → Option Proposal) : (s.updProposal q f).proposals[q] = f s.proposals[q] := by
  simp [State.updProposal]
@[simp] theorem State.updProposal_proposals_val (q : QueueId) (f : Option Proposal → Option Proposal) : (s.updProposal q f).proposals[q.val] = f s.proposals[q.val] := by
  simp [State.updProposal]
theorem State.updProposal_proposals_ne (q : QueueId) (f : Option Proposal → Option Proposal) (k : QueueId) (h : k ≠ q) : (s.updProposal q f).proposals[k] = s.proposals[k] := by
  simp only [State.updProposal, Fin.getElem_fin]
  exact Vector.getElem_set_ne _ _ (fun e => h (Fin.ext e.symm))

-- ## updPage

@[simp] theorem State.updPage_checker (r : RecordId) (f : PageRecord → PageRecord) : (s.updPage r f).checker = s.checker := rfl
@[simp] theorem State.updPage_inbox (r : RecordId) (f : PageRecord → PageRecord) : (s.updPage r f).inbox = s.inbox := rfl
@[simp] theorem State.updPage_replies (r : RecordId) (f : PageRecord → PageRecord) : (s.updPage r f).replies = s.replies := rfl
@[simp] theorem State.updPage_notices (r : RecordId) (f : PageRecord → PageRecord) : (s.updPage r f).notices = s.notices := rfl
@[simp] theorem State.updPage_onLink (r : RecordId) (f : PageRecord → PageRecord) : (s.updPage r f).onLink = s.onLink := rfl
@[simp] theorem State.updPage_startInterval (r : RecordId) (f : PageRecord → PageRecord) : (s.updPage r f).startInterval = s.startInterval := rfl
@[simp] theorem State.updPage_startFlag (r : RecordId) (f : PageRecord → PageRecord) : (s.updPage r f).startFlag = s.startFlag := rfl
@[simp] theorem State.updPage_partOwed (r : RecordId) (f : PageRecord → PageRecord) : (s.updPage r f).partOwed = s.partOwed := rfl
@[simp] theorem State.updPage_startCause (r : RecordId) (f : PageRecord → PageRecord) : (s.updPage r f).startCause = s.startCause := rfl
@[simp] theorem State.updPage_restarting (r : RecordId) (f : PageRecord → PageRecord) : (s.updPage r f).restarting = s.restarting := rfl
@[simp] theorem State.updPage_jobs (r : RecordId) (f : PageRecord → PageRecord) : (s.updPage r f).jobs = s.jobs := rfl
@[simp] theorem State.updPage_queues (r : RecordId) (f : PageRecord → PageRecord) : (s.updPage r f).queues = s.queues := rfl
@[simp] theorem State.updPage_markLine (r : RecordId) (f : PageRecord → PageRecord) : (s.updPage r f).markLine = s.markLine := rfl
@[simp] theorem State.updPage_freePool (r : RecordId) (f : PageRecord → PageRecord) : (s.updPage r f).freePool = s.freePool := rfl
@[simp] theorem State.updPage_dram (r : RecordId) (f : PageRecord → PageRecord) : (s.updPage r f).dram = s.dram := rfl
@[simp] theorem State.updPage_rows (r : RecordId) (f : PageRecord → PageRecord) : (s.updPage r f).rows = s.rows := rfl
@[simp] theorem State.updPage_rings (r : RecordId) (f : PageRecord → PageRecord) : (s.updPage r f).rings = s.rings := rfl
@[simp] theorem State.updPage_proposals (r : RecordId) (f : PageRecord → PageRecord) : (s.updPage r f).proposals = s.proposals := rfl
@[simp] theorem State.updPage_passInProgress (r : RecordId) (f : PageRecord → PageRecord) : (s.updPage r f).passInProgress = s.passInProgress := rfl
@[simp] theorem State.updPage_passOwed (r : RecordId) (f : PageRecord → PageRecord) : (s.updPage r f).passOwed = s.passOwed := rfl
@[simp] theorem State.updPage_ports (r : RecordId) (f : PageRecord → PageRecord) : (s.updPage r f).ports = s.ports := rfl
@[simp] theorem State.updPage_pressLog (r : RecordId) (f : PageRecord → PageRecord) : (s.updPage r f).pressLog = s.pressLog := rfl
@[simp] theorem State.updPage_tariffs (r : RecordId) (f : PageRecord → PageRecord) : (s.updPage r f).tariffs = s.tariffs := rfl
@[simp] theorem State.updPage_accounts (r : RecordId) (f : PageRecord → PageRecord) : (s.updPage r f).accounts = s.accounts := rfl
@[simp] theorem State.updPage_alerts (r : RecordId) (f : PageRecord → PageRecord) : (s.updPage r f).alerts = s.alerts := rfl
@[simp] theorem State.updPage_openAlerts (r : RecordId) (f : PageRecord → PageRecord) : (s.updPage r f).openAlerts = s.openAlerts := rfl
@[simp] theorem State.updPage_clock (r : RecordId) (f : PageRecord → PageRecord) : (s.updPage r f).clock = s.clock := rfl
@[simp] theorem State.updPage_timers (r : RecordId) (f : PageRecord → PageRecord) : (s.updPage r f).timers = s.timers := rfl
@[simp] theorem State.updPage_freeCount (r : RecordId) (f : PageRecord → PageRecord) : (s.updPage r f).freeCount = s.freeCount := rfl
@[simp] theorem State.updPage_pending (r : RecordId) (f : PageRecord → PageRecord) : (s.updPage r f).pending = s.pending := rfl

@[simp] theorem State.updPage_pages_self (r : RecordId) (f : PageRecord → PageRecord) : (s.updPage r f).pages[r] = f s.pages[r] := by
  simp [State.updPage]
@[simp] theorem State.updPage_pages_val (r : RecordId) (f : PageRecord → PageRecord) : (s.updPage r f).pages[r.val] = f s.pages[r.val] := by
  simp [State.updPage]
theorem State.updPage_pages_ne (r : RecordId) (f : PageRecord → PageRecord) (k : RecordId) (h : k ≠ r) : (s.updPage r f).pages[k] = s.pages[k] := by
  simp only [State.updPage, Fin.getElem_fin]
  exact Vector.getElem_set_ne _ _ (fun e => h (Fin.ext e.symm))

-- ## updPort

@[simp] theorem State.updPort_checker (p : PortId) (f : Port → Port) : (s.updPort p f).checker = s.checker := rfl
@[simp] theorem State.updPort_inbox (p : PortId) (f : Port → Port) : (s.updPort p f).inbox = s.inbox := rfl
@[simp] theorem State.updPort_replies (p : PortId) (f : Port → Port) : (s.updPort p f).replies = s.replies := rfl
@[simp] theorem State.updPort_notices (p : PortId) (f : Port → Port) : (s.updPort p f).notices = s.notices := rfl
@[simp] theorem State.updPort_onLink (p : PortId) (f : Port → Port) : (s.updPort p f).onLink = s.onLink := rfl
@[simp] theorem State.updPort_startInterval (p : PortId) (f : Port → Port) : (s.updPort p f).startInterval = s.startInterval := rfl
@[simp] theorem State.updPort_startFlag (p : PortId) (f : Port → Port) : (s.updPort p f).startFlag = s.startFlag := rfl
@[simp] theorem State.updPort_partOwed (p : PortId) (f : Port → Port) : (s.updPort p f).partOwed = s.partOwed := rfl
@[simp] theorem State.updPort_startCause (p : PortId) (f : Port → Port) : (s.updPort p f).startCause = s.startCause := rfl
@[simp] theorem State.updPort_restarting (p : PortId) (f : Port → Port) : (s.updPort p f).restarting = s.restarting := rfl
@[simp] theorem State.updPort_jobs (p : PortId) (f : Port → Port) : (s.updPort p f).jobs = s.jobs := rfl
@[simp] theorem State.updPort_queues (p : PortId) (f : Port → Port) : (s.updPort p f).queues = s.queues := rfl
@[simp] theorem State.updPort_markLine (p : PortId) (f : Port → Port) : (s.updPort p f).markLine = s.markLine := rfl
@[simp] theorem State.updPort_pages (p : PortId) (f : Port → Port) : (s.updPort p f).pages = s.pages := rfl
@[simp] theorem State.updPort_freePool (p : PortId) (f : Port → Port) : (s.updPort p f).freePool = s.freePool := rfl
@[simp] theorem State.updPort_dram (p : PortId) (f : Port → Port) : (s.updPort p f).dram = s.dram := rfl
@[simp] theorem State.updPort_rows (p : PortId) (f : Port → Port) : (s.updPort p f).rows = s.rows := rfl
@[simp] theorem State.updPort_rings (p : PortId) (f : Port → Port) : (s.updPort p f).rings = s.rings := rfl
@[simp] theorem State.updPort_proposals (p : PortId) (f : Port → Port) : (s.updPort p f).proposals = s.proposals := rfl
@[simp] theorem State.updPort_passInProgress (p : PortId) (f : Port → Port) : (s.updPort p f).passInProgress = s.passInProgress := rfl
@[simp] theorem State.updPort_passOwed (p : PortId) (f : Port → Port) : (s.updPort p f).passOwed = s.passOwed := rfl
@[simp] theorem State.updPort_pressLog (p : PortId) (f : Port → Port) : (s.updPort p f).pressLog = s.pressLog := rfl
@[simp] theorem State.updPort_tariffs (p : PortId) (f : Port → Port) : (s.updPort p f).tariffs = s.tariffs := rfl
@[simp] theorem State.updPort_accounts (p : PortId) (f : Port → Port) : (s.updPort p f).accounts = s.accounts := rfl
@[simp] theorem State.updPort_alerts (p : PortId) (f : Port → Port) : (s.updPort p f).alerts = s.alerts := rfl
@[simp] theorem State.updPort_openAlerts (p : PortId) (f : Port → Port) : (s.updPort p f).openAlerts = s.openAlerts := rfl
@[simp] theorem State.updPort_clock (p : PortId) (f : Port → Port) : (s.updPort p f).clock = s.clock := rfl
@[simp] theorem State.updPort_timers (p : PortId) (f : Port → Port) : (s.updPort p f).timers = s.timers := rfl
@[simp] theorem State.updPort_freeCount (p : PortId) (f : Port → Port) : (s.updPort p f).freeCount = s.freeCount := rfl
@[simp] theorem State.updPort_pending (p : PortId) (f : Port → Port) : (s.updPort p f).pending = s.pending := rfl

@[simp] theorem State.updPort_ports_self (p : PortId) (f : Port → Port) : (s.updPort p f).ports[p] = f s.ports[p] := by
  simp [State.updPort]
@[simp] theorem State.updPort_ports_val (p : PortId) (f : Port → Port) : (s.updPort p f).ports[p.val] = f s.ports[p.val] := by
  simp [State.updPort]
theorem State.updPort_ports_ne (p : PortId) (f : Port → Port) (k : PortId) (h : k ≠ p) : (s.updPort p f).ports[k] = s.ports[k] := by
  simp only [State.updPort, Fin.getElem_fin]
  exact Vector.getElem_set_ne _ _ (fun e => h (Fin.ext e.symm))

-- ## updAccount

@[simp] theorem State.updAccount_checker (a : AccountId) (f : Account → Account) : (s.updAccount a f).checker = s.checker := rfl
@[simp] theorem State.updAccount_inbox (a : AccountId) (f : Account → Account) : (s.updAccount a f).inbox = s.inbox := rfl
@[simp] theorem State.updAccount_replies (a : AccountId) (f : Account → Account) : (s.updAccount a f).replies = s.replies := rfl
@[simp] theorem State.updAccount_notices (a : AccountId) (f : Account → Account) : (s.updAccount a f).notices = s.notices := rfl
@[simp] theorem State.updAccount_onLink (a : AccountId) (f : Account → Account) : (s.updAccount a f).onLink = s.onLink := rfl
@[simp] theorem State.updAccount_startInterval (a : AccountId) (f : Account → Account) : (s.updAccount a f).startInterval = s.startInterval := rfl
@[simp] theorem State.updAccount_startFlag (a : AccountId) (f : Account → Account) : (s.updAccount a f).startFlag = s.startFlag := rfl
@[simp] theorem State.updAccount_partOwed (a : AccountId) (f : Account → Account) : (s.updAccount a f).partOwed = s.partOwed := rfl
@[simp] theorem State.updAccount_startCause (a : AccountId) (f : Account → Account) : (s.updAccount a f).startCause = s.startCause := rfl
@[simp] theorem State.updAccount_restarting (a : AccountId) (f : Account → Account) : (s.updAccount a f).restarting = s.restarting := rfl
@[simp] theorem State.updAccount_jobs (a : AccountId) (f : Account → Account) : (s.updAccount a f).jobs = s.jobs := rfl
@[simp] theorem State.updAccount_queues (a : AccountId) (f : Account → Account) : (s.updAccount a f).queues = s.queues := rfl
@[simp] theorem State.updAccount_markLine (a : AccountId) (f : Account → Account) : (s.updAccount a f).markLine = s.markLine := rfl
@[simp] theorem State.updAccount_pages (a : AccountId) (f : Account → Account) : (s.updAccount a f).pages = s.pages := rfl
@[simp] theorem State.updAccount_freePool (a : AccountId) (f : Account → Account) : (s.updAccount a f).freePool = s.freePool := rfl
@[simp] theorem State.updAccount_dram (a : AccountId) (f : Account → Account) : (s.updAccount a f).dram = s.dram := rfl
@[simp] theorem State.updAccount_rows (a : AccountId) (f : Account → Account) : (s.updAccount a f).rows = s.rows := rfl
@[simp] theorem State.updAccount_rings (a : AccountId) (f : Account → Account) : (s.updAccount a f).rings = s.rings := rfl
@[simp] theorem State.updAccount_proposals (a : AccountId) (f : Account → Account) : (s.updAccount a f).proposals = s.proposals := rfl
@[simp] theorem State.updAccount_passInProgress (a : AccountId) (f : Account → Account) : (s.updAccount a f).passInProgress = s.passInProgress := rfl
@[simp] theorem State.updAccount_passOwed (a : AccountId) (f : Account → Account) : (s.updAccount a f).passOwed = s.passOwed := rfl
@[simp] theorem State.updAccount_ports (a : AccountId) (f : Account → Account) : (s.updAccount a f).ports = s.ports := rfl
@[simp] theorem State.updAccount_pressLog (a : AccountId) (f : Account → Account) : (s.updAccount a f).pressLog = s.pressLog := rfl
@[simp] theorem State.updAccount_tariffs (a : AccountId) (f : Account → Account) : (s.updAccount a f).tariffs = s.tariffs := rfl
@[simp] theorem State.updAccount_alerts (a : AccountId) (f : Account → Account) : (s.updAccount a f).alerts = s.alerts := rfl
@[simp] theorem State.updAccount_openAlerts (a : AccountId) (f : Account → Account) : (s.updAccount a f).openAlerts = s.openAlerts := rfl
@[simp] theorem State.updAccount_clock (a : AccountId) (f : Account → Account) : (s.updAccount a f).clock = s.clock := rfl
@[simp] theorem State.updAccount_timers (a : AccountId) (f : Account → Account) : (s.updAccount a f).timers = s.timers := rfl
@[simp] theorem State.updAccount_freeCount (a : AccountId) (f : Account → Account) : (s.updAccount a f).freeCount = s.freeCount := rfl
@[simp] theorem State.updAccount_pending (a : AccountId) (f : Account → Account) : (s.updAccount a f).pending = s.pending := rfl

@[simp] theorem State.updAccount_accounts_self (a : AccountId) (f : Account → Account) : (s.updAccount a f).accounts[a] = f s.accounts[a] := by
  simp [State.updAccount]
@[simp] theorem State.updAccount_accounts_val (a : AccountId) (f : Account → Account) : (s.updAccount a f).accounts[a.val] = f s.accounts[a.val] := by
  simp [State.updAccount]
theorem State.updAccount_accounts_ne (a : AccountId) (f : Account → Account) (k : AccountId) (h : k ≠ a) : (s.updAccount a f).accounts[k] = s.accounts[k] := by
  simp only [State.updAccount, Fin.getElem_fin]
  exact Vector.getElem_set_ne _ _ (fun e => h (Fin.ext e.symm))

-- ## updAlert

@[simp] theorem State.updAlert_checker (a : AlertId) (f : AlertSlot → AlertSlot) : (s.updAlert a f).checker = s.checker := rfl
@[simp] theorem State.updAlert_inbox (a : AlertId) (f : AlertSlot → AlertSlot) : (s.updAlert a f).inbox = s.inbox := rfl
@[simp] theorem State.updAlert_replies (a : AlertId) (f : AlertSlot → AlertSlot) : (s.updAlert a f).replies = s.replies := rfl
@[simp] theorem State.updAlert_notices (a : AlertId) (f : AlertSlot → AlertSlot) : (s.updAlert a f).notices = s.notices := rfl
@[simp] theorem State.updAlert_onLink (a : AlertId) (f : AlertSlot → AlertSlot) : (s.updAlert a f).onLink = s.onLink := rfl
@[simp] theorem State.updAlert_startInterval (a : AlertId) (f : AlertSlot → AlertSlot) : (s.updAlert a f).startInterval = s.startInterval := rfl
@[simp] theorem State.updAlert_startFlag (a : AlertId) (f : AlertSlot → AlertSlot) : (s.updAlert a f).startFlag = s.startFlag := rfl
@[simp] theorem State.updAlert_partOwed (a : AlertId) (f : AlertSlot → AlertSlot) : (s.updAlert a f).partOwed = s.partOwed := rfl
@[simp] theorem State.updAlert_startCause (a : AlertId) (f : AlertSlot → AlertSlot) : (s.updAlert a f).startCause = s.startCause := rfl
@[simp] theorem State.updAlert_restarting (a : AlertId) (f : AlertSlot → AlertSlot) : (s.updAlert a f).restarting = s.restarting := rfl
@[simp] theorem State.updAlert_jobs (a : AlertId) (f : AlertSlot → AlertSlot) : (s.updAlert a f).jobs = s.jobs := rfl
@[simp] theorem State.updAlert_queues (a : AlertId) (f : AlertSlot → AlertSlot) : (s.updAlert a f).queues = s.queues := rfl
@[simp] theorem State.updAlert_markLine (a : AlertId) (f : AlertSlot → AlertSlot) : (s.updAlert a f).markLine = s.markLine := rfl
@[simp] theorem State.updAlert_pages (a : AlertId) (f : AlertSlot → AlertSlot) : (s.updAlert a f).pages = s.pages := rfl
@[simp] theorem State.updAlert_freePool (a : AlertId) (f : AlertSlot → AlertSlot) : (s.updAlert a f).freePool = s.freePool := rfl
@[simp] theorem State.updAlert_dram (a : AlertId) (f : AlertSlot → AlertSlot) : (s.updAlert a f).dram = s.dram := rfl
@[simp] theorem State.updAlert_rows (a : AlertId) (f : AlertSlot → AlertSlot) : (s.updAlert a f).rows = s.rows := rfl
@[simp] theorem State.updAlert_rings (a : AlertId) (f : AlertSlot → AlertSlot) : (s.updAlert a f).rings = s.rings := rfl
@[simp] theorem State.updAlert_proposals (a : AlertId) (f : AlertSlot → AlertSlot) : (s.updAlert a f).proposals = s.proposals := rfl
@[simp] theorem State.updAlert_passInProgress (a : AlertId) (f : AlertSlot → AlertSlot) : (s.updAlert a f).passInProgress = s.passInProgress := rfl
@[simp] theorem State.updAlert_passOwed (a : AlertId) (f : AlertSlot → AlertSlot) : (s.updAlert a f).passOwed = s.passOwed := rfl
@[simp] theorem State.updAlert_ports (a : AlertId) (f : AlertSlot → AlertSlot) : (s.updAlert a f).ports = s.ports := rfl
@[simp] theorem State.updAlert_pressLog (a : AlertId) (f : AlertSlot → AlertSlot) : (s.updAlert a f).pressLog = s.pressLog := rfl
@[simp] theorem State.updAlert_tariffs (a : AlertId) (f : AlertSlot → AlertSlot) : (s.updAlert a f).tariffs = s.tariffs := rfl
@[simp] theorem State.updAlert_accounts (a : AlertId) (f : AlertSlot → AlertSlot) : (s.updAlert a f).accounts = s.accounts := rfl
@[simp] theorem State.updAlert_openAlerts (a : AlertId) (f : AlertSlot → AlertSlot) : (s.updAlert a f).openAlerts = s.openAlerts := rfl
@[simp] theorem State.updAlert_clock (a : AlertId) (f : AlertSlot → AlertSlot) : (s.updAlert a f).clock = s.clock := rfl
@[simp] theorem State.updAlert_timers (a : AlertId) (f : AlertSlot → AlertSlot) : (s.updAlert a f).timers = s.timers := rfl
@[simp] theorem State.updAlert_freeCount (a : AlertId) (f : AlertSlot → AlertSlot) : (s.updAlert a f).freeCount = s.freeCount := rfl
@[simp] theorem State.updAlert_pending (a : AlertId) (f : AlertSlot → AlertSlot) : (s.updAlert a f).pending = s.pending := rfl

@[simp] theorem State.updAlert_alerts_self (a : AlertId) (f : AlertSlot → AlertSlot) : (s.updAlert a f).alerts[a] = f s.alerts[a] := by
  simp [State.updAlert]
@[simp] theorem State.updAlert_alerts_val (a : AlertId) (f : AlertSlot → AlertSlot) : (s.updAlert a f).alerts[a.val] = f s.alerts[a.val] := by
  simp [State.updAlert]
theorem State.updAlert_alerts_ne (a : AlertId) (f : AlertSlot → AlertSlot) (k : AlertId) (h : k ≠ a) : (s.updAlert a f).alerts[k] = s.alerts[k] := by
  simp only [State.updAlert, Fin.getElem_fin]
  exact Vector.getElem_set_ne _ _ (fun e => h (Fin.ext e.symm))

-- ## updTariff

@[simp] theorem State.updTariff_checker (g : Fin 8) (f : TariffPage → TariffPage) : (s.updTariff g f).checker = s.checker := rfl
@[simp] theorem State.updTariff_inbox (g : Fin 8) (f : TariffPage → TariffPage) : (s.updTariff g f).inbox = s.inbox := rfl
@[simp] theorem State.updTariff_replies (g : Fin 8) (f : TariffPage → TariffPage) : (s.updTariff g f).replies = s.replies := rfl
@[simp] theorem State.updTariff_notices (g : Fin 8) (f : TariffPage → TariffPage) : (s.updTariff g f).notices = s.notices := rfl
@[simp] theorem State.updTariff_onLink (g : Fin 8) (f : TariffPage → TariffPage) : (s.updTariff g f).onLink = s.onLink := rfl
@[simp] theorem State.updTariff_startInterval (g : Fin 8) (f : TariffPage → TariffPage) : (s.updTariff g f).startInterval = s.startInterval := rfl
@[simp] theorem State.updTariff_startFlag (g : Fin 8) (f : TariffPage → TariffPage) : (s.updTariff g f).startFlag = s.startFlag := rfl
@[simp] theorem State.updTariff_partOwed (g : Fin 8) (f : TariffPage → TariffPage) : (s.updTariff g f).partOwed = s.partOwed := rfl
@[simp] theorem State.updTariff_startCause (g : Fin 8) (f : TariffPage → TariffPage) : (s.updTariff g f).startCause = s.startCause := rfl
@[simp] theorem State.updTariff_restarting (g : Fin 8) (f : TariffPage → TariffPage) : (s.updTariff g f).restarting = s.restarting := rfl
@[simp] theorem State.updTariff_jobs (g : Fin 8) (f : TariffPage → TariffPage) : (s.updTariff g f).jobs = s.jobs := rfl
@[simp] theorem State.updTariff_queues (g : Fin 8) (f : TariffPage → TariffPage) : (s.updTariff g f).queues = s.queues := rfl
@[simp] theorem State.updTariff_markLine (g : Fin 8) (f : TariffPage → TariffPage) : (s.updTariff g f).markLine = s.markLine := rfl
@[simp] theorem State.updTariff_pages (g : Fin 8) (f : TariffPage → TariffPage) : (s.updTariff g f).pages = s.pages := rfl
@[simp] theorem State.updTariff_freePool (g : Fin 8) (f : TariffPage → TariffPage) : (s.updTariff g f).freePool = s.freePool := rfl
@[simp] theorem State.updTariff_dram (g : Fin 8) (f : TariffPage → TariffPage) : (s.updTariff g f).dram = s.dram := rfl
@[simp] theorem State.updTariff_rows (g : Fin 8) (f : TariffPage → TariffPage) : (s.updTariff g f).rows = s.rows := rfl
@[simp] theorem State.updTariff_rings (g : Fin 8) (f : TariffPage → TariffPage) : (s.updTariff g f).rings = s.rings := rfl
@[simp] theorem State.updTariff_proposals (g : Fin 8) (f : TariffPage → TariffPage) : (s.updTariff g f).proposals = s.proposals := rfl
@[simp] theorem State.updTariff_passInProgress (g : Fin 8) (f : TariffPage → TariffPage) : (s.updTariff g f).passInProgress = s.passInProgress := rfl
@[simp] theorem State.updTariff_passOwed (g : Fin 8) (f : TariffPage → TariffPage) : (s.updTariff g f).passOwed = s.passOwed := rfl
@[simp] theorem State.updTariff_ports (g : Fin 8) (f : TariffPage → TariffPage) : (s.updTariff g f).ports = s.ports := rfl
@[simp] theorem State.updTariff_pressLog (g : Fin 8) (f : TariffPage → TariffPage) : (s.updTariff g f).pressLog = s.pressLog := rfl
@[simp] theorem State.updTariff_accounts (g : Fin 8) (f : TariffPage → TariffPage) : (s.updTariff g f).accounts = s.accounts := rfl
@[simp] theorem State.updTariff_alerts (g : Fin 8) (f : TariffPage → TariffPage) : (s.updTariff g f).alerts = s.alerts := rfl
@[simp] theorem State.updTariff_openAlerts (g : Fin 8) (f : TariffPage → TariffPage) : (s.updTariff g f).openAlerts = s.openAlerts := rfl
@[simp] theorem State.updTariff_clock (g : Fin 8) (f : TariffPage → TariffPage) : (s.updTariff g f).clock = s.clock := rfl
@[simp] theorem State.updTariff_timers (g : Fin 8) (f : TariffPage → TariffPage) : (s.updTariff g f).timers = s.timers := rfl
@[simp] theorem State.updTariff_freeCount (g : Fin 8) (f : TariffPage → TariffPage) : (s.updTariff g f).freeCount = s.freeCount := rfl
@[simp] theorem State.updTariff_pending (g : Fin 8) (f : TariffPage → TariffPage) : (s.updTariff g f).pending = s.pending := rfl

@[simp] theorem State.updTariff_tariffs_self (g : Fin 8) (f : TariffPage → TariffPage) : (s.updTariff g f).tariffs[g] = f s.tariffs[g] := by
  simp [State.updTariff]
@[simp] theorem State.updTariff_tariffs_val (g : Fin 8) (f : TariffPage → TariffPage) : (s.updTariff g f).tariffs[g.val] = f s.tariffs[g.val] := by
  simp [State.updTariff]
theorem State.updTariff_tariffs_ne (g : Fin 8) (f : TariffPage → TariffPage) (k : Fin 8) (h : k ≠ g) : (s.updTariff g f).tariffs[k] = s.tariffs[k] := by
  simp only [State.updTariff, Fin.getElem_fin]
  exact Vector.getElem_set_ne _ _ (fun e => h (Fin.ext e.symm))

-- ## press

@[simp] theorem State.press_checker (p : PortId) (m : PressMessage) : (s.press p m).checker = s.checker := rfl
@[simp] theorem State.press_inbox (p : PortId) (m : PressMessage) : (s.press p m).inbox = s.inbox := rfl
@[simp] theorem State.press_replies (p : PortId) (m : PressMessage) : (s.press p m).replies = s.replies := rfl
@[simp] theorem State.press_notices (p : PortId) (m : PressMessage) : (s.press p m).notices = s.notices := rfl
@[simp] theorem State.press_onLink (p : PortId) (m : PressMessage) : (s.press p m).onLink = s.onLink := rfl
@[simp] theorem State.press_startInterval (p : PortId) (m : PressMessage) : (s.press p m).startInterval = s.startInterval := rfl
@[simp] theorem State.press_startFlag (p : PortId) (m : PressMessage) : (s.press p m).startFlag = s.startFlag := rfl
@[simp] theorem State.press_partOwed (p : PortId) (m : PressMessage) : (s.press p m).partOwed = s.partOwed := rfl
@[simp] theorem State.press_startCause (p : PortId) (m : PressMessage) : (s.press p m).startCause = s.startCause := rfl
@[simp] theorem State.press_restarting (p : PortId) (m : PressMessage) : (s.press p m).restarting = s.restarting := rfl
@[simp] theorem State.press_jobs (p : PortId) (m : PressMessage) : (s.press p m).jobs = s.jobs := rfl
@[simp] theorem State.press_queues (p : PortId) (m : PressMessage) : (s.press p m).queues = s.queues := rfl
@[simp] theorem State.press_markLine (p : PortId) (m : PressMessage) : (s.press p m).markLine = s.markLine := rfl
@[simp] theorem State.press_pages (p : PortId) (m : PressMessage) : (s.press p m).pages = s.pages := rfl
@[simp] theorem State.press_freePool (p : PortId) (m : PressMessage) : (s.press p m).freePool = s.freePool := rfl
@[simp] theorem State.press_dram (p : PortId) (m : PressMessage) : (s.press p m).dram = s.dram := rfl
@[simp] theorem State.press_rows (p : PortId) (m : PressMessage) : (s.press p m).rows = s.rows := rfl
@[simp] theorem State.press_rings (p : PortId) (m : PressMessage) : (s.press p m).rings = s.rings := rfl
@[simp] theorem State.press_proposals (p : PortId) (m : PressMessage) : (s.press p m).proposals = s.proposals := rfl
@[simp] theorem State.press_passInProgress (p : PortId) (m : PressMessage) : (s.press p m).passInProgress = s.passInProgress := rfl
@[simp] theorem State.press_passOwed (p : PortId) (m : PressMessage) : (s.press p m).passOwed = s.passOwed := rfl
@[simp] theorem State.press_ports (p : PortId) (m : PressMessage) : (s.press p m).ports = s.ports := rfl
@[simp] theorem State.press_tariffs (p : PortId) (m : PressMessage) : (s.press p m).tariffs = s.tariffs := rfl
@[simp] theorem State.press_accounts (p : PortId) (m : PressMessage) : (s.press p m).accounts = s.accounts := rfl
@[simp] theorem State.press_alerts (p : PortId) (m : PressMessage) : (s.press p m).alerts = s.alerts := rfl
@[simp] theorem State.press_openAlerts (p : PortId) (m : PressMessage) : (s.press p m).openAlerts = s.openAlerts := rfl
@[simp] theorem State.press_clock (p : PortId) (m : PressMessage) : (s.press p m).clock = s.clock := rfl
@[simp] theorem State.press_timers (p : PortId) (m : PressMessage) : (s.press p m).timers = s.timers := rfl
@[simp] theorem State.press_freeCount (p : PortId) (m : PressMessage) : (s.press p m).freeCount = s.freeCount := rfl
@[simp] theorem State.press_pending (p : PortId) (m : PressMessage) : (s.press p m).pending = s.pending := rfl

-- ## pressAll

@[simp] theorem State.pressAll_checker (p : PortId) (ms : List PressMessage) : (s.pressAll p ms).checker = s.checker := rfl
@[simp] theorem State.pressAll_inbox (p : PortId) (ms : List PressMessage) : (s.pressAll p ms).inbox = s.inbox := rfl
@[simp] theorem State.pressAll_replies (p : PortId) (ms : List PressMessage) : (s.pressAll p ms).replies = s.replies := rfl
@[simp] theorem State.pressAll_notices (p : PortId) (ms : List PressMessage) : (s.pressAll p ms).notices = s.notices := rfl
@[simp] theorem State.pressAll_onLink (p : PortId) (ms : List PressMessage) : (s.pressAll p ms).onLink = s.onLink := rfl
@[simp] theorem State.pressAll_startInterval (p : PortId) (ms : List PressMessage) : (s.pressAll p ms).startInterval = s.startInterval := rfl
@[simp] theorem State.pressAll_startFlag (p : PortId) (ms : List PressMessage) : (s.pressAll p ms).startFlag = s.startFlag := rfl
@[simp] theorem State.pressAll_partOwed (p : PortId) (ms : List PressMessage) : (s.pressAll p ms).partOwed = s.partOwed := rfl
@[simp] theorem State.pressAll_startCause (p : PortId) (ms : List PressMessage) : (s.pressAll p ms).startCause = s.startCause := rfl
@[simp] theorem State.pressAll_restarting (p : PortId) (ms : List PressMessage) : (s.pressAll p ms).restarting = s.restarting := rfl
@[simp] theorem State.pressAll_jobs (p : PortId) (ms : List PressMessage) : (s.pressAll p ms).jobs = s.jobs := rfl
@[simp] theorem State.pressAll_queues (p : PortId) (ms : List PressMessage) : (s.pressAll p ms).queues = s.queues := rfl
@[simp] theorem State.pressAll_markLine (p : PortId) (ms : List PressMessage) : (s.pressAll p ms).markLine = s.markLine := rfl
@[simp] theorem State.pressAll_pages (p : PortId) (ms : List PressMessage) : (s.pressAll p ms).pages = s.pages := rfl
@[simp] theorem State.pressAll_freePool (p : PortId) (ms : List PressMessage) : (s.pressAll p ms).freePool = s.freePool := rfl
@[simp] theorem State.pressAll_dram (p : PortId) (ms : List PressMessage) : (s.pressAll p ms).dram = s.dram := rfl
@[simp] theorem State.pressAll_rows (p : PortId) (ms : List PressMessage) : (s.pressAll p ms).rows = s.rows := rfl
@[simp] theorem State.pressAll_rings (p : PortId) (ms : List PressMessage) : (s.pressAll p ms).rings = s.rings := rfl
@[simp] theorem State.pressAll_proposals (p : PortId) (ms : List PressMessage) : (s.pressAll p ms).proposals = s.proposals := rfl
@[simp] theorem State.pressAll_passInProgress (p : PortId) (ms : List PressMessage) : (s.pressAll p ms).passInProgress = s.passInProgress := rfl
@[simp] theorem State.pressAll_passOwed (p : PortId) (ms : List PressMessage) : (s.pressAll p ms).passOwed = s.passOwed := rfl
@[simp] theorem State.pressAll_ports (p : PortId) (ms : List PressMessage) : (s.pressAll p ms).ports = s.ports := rfl
@[simp] theorem State.pressAll_tariffs (p : PortId) (ms : List PressMessage) : (s.pressAll p ms).tariffs = s.tariffs := rfl
@[simp] theorem State.pressAll_accounts (p : PortId) (ms : List PressMessage) : (s.pressAll p ms).accounts = s.accounts := rfl
@[simp] theorem State.pressAll_alerts (p : PortId) (ms : List PressMessage) : (s.pressAll p ms).alerts = s.alerts := rfl
@[simp] theorem State.pressAll_openAlerts (p : PortId) (ms : List PressMessage) : (s.pressAll p ms).openAlerts = s.openAlerts := rfl
@[simp] theorem State.pressAll_clock (p : PortId) (ms : List PressMessage) : (s.pressAll p ms).clock = s.clock := rfl
@[simp] theorem State.pressAll_timers (p : PortId) (ms : List PressMessage) : (s.pressAll p ms).timers = s.timers := rfl
@[simp] theorem State.pressAll_freeCount (p : PortId) (ms : List PressMessage) : (s.pressAll p ms).freeCount = s.freeCount := rfl
@[simp] theorem State.pressAll_pending (p : PortId) (ms : List PressMessage) : (s.pressAll p ms).pending = s.pending := rfl
@[simp] theorem State.pressAll_pressLog (p : PortId) (ms : List PressMessage) :
    (s.pressAll p ms).pressLog = s.pressLog ++ ms.map (fun m => (p, m)) := rfl
-- ## joinNotices

@[simp] theorem State.joinNotices_checker (src : Source) : (s.joinNotices src).checker = s.checker := rfl
@[simp] theorem State.joinNotices_inbox (src : Source) : (s.joinNotices src).inbox = s.inbox := rfl
@[simp] theorem State.joinNotices_replies (src : Source) : (s.joinNotices src).replies = s.replies := rfl
@[simp] theorem State.joinNotices_onLink (src : Source) : (s.joinNotices src).onLink = s.onLink := rfl
@[simp] theorem State.joinNotices_startInterval (src : Source) : (s.joinNotices src).startInterval = s.startInterval := rfl
@[simp] theorem State.joinNotices_startFlag (src : Source) : (s.joinNotices src).startFlag = s.startFlag := rfl
@[simp] theorem State.joinNotices_partOwed (src : Source) : (s.joinNotices src).partOwed = s.partOwed := rfl
@[simp] theorem State.joinNotices_startCause (src : Source) : (s.joinNotices src).startCause = s.startCause := rfl
@[simp] theorem State.joinNotices_restarting (src : Source) : (s.joinNotices src).restarting = s.restarting := rfl
@[simp] theorem State.joinNotices_jobs (src : Source) : (s.joinNotices src).jobs = s.jobs := rfl
@[simp] theorem State.joinNotices_queues (src : Source) : (s.joinNotices src).queues = s.queues := rfl
@[simp] theorem State.joinNotices_markLine (src : Source) : (s.joinNotices src).markLine = s.markLine := rfl
@[simp] theorem State.joinNotices_pages (src : Source) : (s.joinNotices src).pages = s.pages := rfl
@[simp] theorem State.joinNotices_freePool (src : Source) : (s.joinNotices src).freePool = s.freePool := rfl
@[simp] theorem State.joinNotices_dram (src : Source) : (s.joinNotices src).dram = s.dram := rfl
@[simp] theorem State.joinNotices_rows (src : Source) : (s.joinNotices src).rows = s.rows := rfl
@[simp] theorem State.joinNotices_rings (src : Source) : (s.joinNotices src).rings = s.rings := rfl
@[simp] theorem State.joinNotices_proposals (src : Source) : (s.joinNotices src).proposals = s.proposals := rfl
@[simp] theorem State.joinNotices_passInProgress (src : Source) : (s.joinNotices src).passInProgress = s.passInProgress := rfl
@[simp] theorem State.joinNotices_passOwed (src : Source) : (s.joinNotices src).passOwed = s.passOwed := rfl
@[simp] theorem State.joinNotices_ports (src : Source) : (s.joinNotices src).ports = s.ports := rfl
@[simp] theorem State.joinNotices_pressLog (src : Source) : (s.joinNotices src).pressLog = s.pressLog := rfl
@[simp] theorem State.joinNotices_tariffs (src : Source) : (s.joinNotices src).tariffs = s.tariffs := rfl
@[simp] theorem State.joinNotices_accounts (src : Source) : (s.joinNotices src).accounts = s.accounts := rfl
@[simp] theorem State.joinNotices_alerts (src : Source) : (s.joinNotices src).alerts = s.alerts := rfl
@[simp] theorem State.joinNotices_openAlerts (src : Source) : (s.joinNotices src).openAlerts = s.openAlerts := rfl
@[simp] theorem State.joinNotices_clock (src : Source) : (s.joinNotices src).clock = s.clock := rfl
@[simp] theorem State.joinNotices_timers (src : Source) : (s.joinNotices src).timers = s.timers := rfl
@[simp] theorem State.joinNotices_freeCount (src : Source) : (s.joinNotices src).freeCount = s.freeCount := rfl
@[simp] theorem State.joinNotices_pending (src : Source) : (s.joinNotices src).pending = s.pending := rfl
-- ## placeReply

@[simp] theorem State.placeReply_checker (f : HostFrame) : (s.placeReply f).checker = s.checker := rfl
@[simp] theorem State.placeReply_inbox (f : HostFrame) : (s.placeReply f).inbox = s.inbox := rfl
@[simp] theorem State.placeReply_notices (f : HostFrame) : (s.placeReply f).notices = s.notices := rfl
@[simp] theorem State.placeReply_onLink (f : HostFrame) : (s.placeReply f).onLink = s.onLink := rfl
@[simp] theorem State.placeReply_startInterval (f : HostFrame) : (s.placeReply f).startInterval = s.startInterval := rfl
@[simp] theorem State.placeReply_startFlag (f : HostFrame) : (s.placeReply f).startFlag = s.startFlag := rfl
@[simp] theorem State.placeReply_partOwed (f : HostFrame) : (s.placeReply f).partOwed = s.partOwed := rfl
@[simp] theorem State.placeReply_startCause (f : HostFrame) : (s.placeReply f).startCause = s.startCause := rfl
@[simp] theorem State.placeReply_restarting (f : HostFrame) : (s.placeReply f).restarting = s.restarting := rfl
@[simp] theorem State.placeReply_jobs (f : HostFrame) : (s.placeReply f).jobs = s.jobs := rfl
@[simp] theorem State.placeReply_queues (f : HostFrame) : (s.placeReply f).queues = s.queues := rfl
@[simp] theorem State.placeReply_markLine (f : HostFrame) : (s.placeReply f).markLine = s.markLine := rfl
@[simp] theorem State.placeReply_pages (f : HostFrame) : (s.placeReply f).pages = s.pages := rfl
@[simp] theorem State.placeReply_freePool (f : HostFrame) : (s.placeReply f).freePool = s.freePool := rfl
@[simp] theorem State.placeReply_dram (f : HostFrame) : (s.placeReply f).dram = s.dram := rfl
@[simp] theorem State.placeReply_rows (f : HostFrame) : (s.placeReply f).rows = s.rows := rfl
@[simp] theorem State.placeReply_rings (f : HostFrame) : (s.placeReply f).rings = s.rings := rfl
@[simp] theorem State.placeReply_proposals (f : HostFrame) : (s.placeReply f).proposals = s.proposals := rfl
@[simp] theorem State.placeReply_passInProgress (f : HostFrame) : (s.placeReply f).passInProgress = s.passInProgress := rfl
@[simp] theorem State.placeReply_passOwed (f : HostFrame) : (s.placeReply f).passOwed = s.passOwed := rfl
@[simp] theorem State.placeReply_ports (f : HostFrame) : (s.placeReply f).ports = s.ports := rfl
@[simp] theorem State.placeReply_pressLog (f : HostFrame) : (s.placeReply f).pressLog = s.pressLog := rfl
@[simp] theorem State.placeReply_tariffs (f : HostFrame) : (s.placeReply f).tariffs = s.tariffs := rfl
@[simp] theorem State.placeReply_accounts (f : HostFrame) : (s.placeReply f).accounts = s.accounts := rfl
@[simp] theorem State.placeReply_alerts (f : HostFrame) : (s.placeReply f).alerts = s.alerts := rfl
@[simp] theorem State.placeReply_openAlerts (f : HostFrame) : (s.placeReply f).openAlerts = s.openAlerts := rfl
@[simp] theorem State.placeReply_clock (f : HostFrame) : (s.placeReply f).clock = s.clock := rfl
@[simp] theorem State.placeReply_timers (f : HostFrame) : (s.placeReply f).timers = s.timers := rfl
@[simp] theorem State.placeReply_freeCount (f : HostFrame) : (s.placeReply f).freeCount = s.freeCount := rfl
@[simp] theorem State.placeReply_pending (f : HostFrame) : (s.placeReply f).pending = s.pending := rfl
-- ## popInbox

@[simp] theorem State.popInbox_checker : (s.popInbox).checker = s.checker := rfl
@[simp] theorem State.popInbox_replies : (s.popInbox).replies = s.replies := rfl
@[simp] theorem State.popInbox_notices : (s.popInbox).notices = s.notices := rfl
@[simp] theorem State.popInbox_onLink : (s.popInbox).onLink = s.onLink := rfl
@[simp] theorem State.popInbox_startInterval : (s.popInbox).startInterval = s.startInterval := rfl
@[simp] theorem State.popInbox_startFlag : (s.popInbox).startFlag = s.startFlag := rfl
@[simp] theorem State.popInbox_partOwed : (s.popInbox).partOwed = s.partOwed := rfl
@[simp] theorem State.popInbox_startCause : (s.popInbox).startCause = s.startCause := rfl
@[simp] theorem State.popInbox_restarting : (s.popInbox).restarting = s.restarting := rfl
@[simp] theorem State.popInbox_jobs : (s.popInbox).jobs = s.jobs := rfl
@[simp] theorem State.popInbox_queues : (s.popInbox).queues = s.queues := rfl
@[simp] theorem State.popInbox_markLine : (s.popInbox).markLine = s.markLine := rfl
@[simp] theorem State.popInbox_pages : (s.popInbox).pages = s.pages := rfl
@[simp] theorem State.popInbox_freePool : (s.popInbox).freePool = s.freePool := rfl
@[simp] theorem State.popInbox_dram : (s.popInbox).dram = s.dram := rfl
@[simp] theorem State.popInbox_rows : (s.popInbox).rows = s.rows := rfl
@[simp] theorem State.popInbox_rings : (s.popInbox).rings = s.rings := rfl
@[simp] theorem State.popInbox_proposals : (s.popInbox).proposals = s.proposals := rfl
@[simp] theorem State.popInbox_passInProgress : (s.popInbox).passInProgress = s.passInProgress := rfl
@[simp] theorem State.popInbox_passOwed : (s.popInbox).passOwed = s.passOwed := rfl
@[simp] theorem State.popInbox_ports : (s.popInbox).ports = s.ports := rfl
@[simp] theorem State.popInbox_pressLog : (s.popInbox).pressLog = s.pressLog := rfl
@[simp] theorem State.popInbox_tariffs : (s.popInbox).tariffs = s.tariffs := rfl
@[simp] theorem State.popInbox_accounts : (s.popInbox).accounts = s.accounts := rfl
@[simp] theorem State.popInbox_alerts : (s.popInbox).alerts = s.alerts := rfl
@[simp] theorem State.popInbox_openAlerts : (s.popInbox).openAlerts = s.openAlerts := rfl
@[simp] theorem State.popInbox_clock : (s.popInbox).clock = s.clock := rfl
@[simp] theorem State.popInbox_timers : (s.popInbox).timers = s.timers := rfl
@[simp] theorem State.popInbox_freeCount : (s.popInbox).freeCount = s.freeCount := rfl
@[simp] theorem State.popInbox_pending : (s.popInbox).pending = s.pending := rfl
-- ## withPending

@[simp] theorem State.withPending_checker (c : List Instr) : (s.withPending c).checker = s.checker := rfl
@[simp] theorem State.withPending_inbox (c : List Instr) : (s.withPending c).inbox = s.inbox := rfl
@[simp] theorem State.withPending_replies (c : List Instr) : (s.withPending c).replies = s.replies := rfl
@[simp] theorem State.withPending_notices (c : List Instr) : (s.withPending c).notices = s.notices := rfl
@[simp] theorem State.withPending_onLink (c : List Instr) : (s.withPending c).onLink = s.onLink := rfl
@[simp] theorem State.withPending_startInterval (c : List Instr) : (s.withPending c).startInterval = s.startInterval := rfl
@[simp] theorem State.withPending_startFlag (c : List Instr) : (s.withPending c).startFlag = s.startFlag := rfl
@[simp] theorem State.withPending_partOwed (c : List Instr) : (s.withPending c).partOwed = s.partOwed := rfl
@[simp] theorem State.withPending_startCause (c : List Instr) : (s.withPending c).startCause = s.startCause := rfl
@[simp] theorem State.withPending_restarting (c : List Instr) : (s.withPending c).restarting = s.restarting := rfl
@[simp] theorem State.withPending_jobs (c : List Instr) : (s.withPending c).jobs = s.jobs := rfl
@[simp] theorem State.withPending_queues (c : List Instr) : (s.withPending c).queues = s.queues := rfl
@[simp] theorem State.withPending_markLine (c : List Instr) : (s.withPending c).markLine = s.markLine := rfl
@[simp] theorem State.withPending_pages (c : List Instr) : (s.withPending c).pages = s.pages := rfl
@[simp] theorem State.withPending_freePool (c : List Instr) : (s.withPending c).freePool = s.freePool := rfl
@[simp] theorem State.withPending_dram (c : List Instr) : (s.withPending c).dram = s.dram := rfl
@[simp] theorem State.withPending_rows (c : List Instr) : (s.withPending c).rows = s.rows := rfl
@[simp] theorem State.withPending_rings (c : List Instr) : (s.withPending c).rings = s.rings := rfl
@[simp] theorem State.withPending_proposals (c : List Instr) : (s.withPending c).proposals = s.proposals := rfl
@[simp] theorem State.withPending_passInProgress (c : List Instr) : (s.withPending c).passInProgress = s.passInProgress := rfl
@[simp] theorem State.withPending_passOwed (c : List Instr) : (s.withPending c).passOwed = s.passOwed := rfl
@[simp] theorem State.withPending_ports (c : List Instr) : (s.withPending c).ports = s.ports := rfl
@[simp] theorem State.withPending_pressLog (c : List Instr) : (s.withPending c).pressLog = s.pressLog := rfl
@[simp] theorem State.withPending_tariffs (c : List Instr) : (s.withPending c).tariffs = s.tariffs := rfl
@[simp] theorem State.withPending_accounts (c : List Instr) : (s.withPending c).accounts = s.accounts := rfl
@[simp] theorem State.withPending_alerts (c : List Instr) : (s.withPending c).alerts = s.alerts := rfl
@[simp] theorem State.withPending_openAlerts (c : List Instr) : (s.withPending c).openAlerts = s.openAlerts := rfl
@[simp] theorem State.withPending_clock (c : List Instr) : (s.withPending c).clock = s.clock := rfl
@[simp] theorem State.withPending_timers (c : List Instr) : (s.withPending c).timers = s.timers := rfl
@[simp] theorem State.withPending_freeCount (c : List Instr) : (s.withPending c).freeCount = s.freeCount := rfl
@[simp] theorem State.press_pressLog (p : PortId) (m : PressMessage) : (s.press p m).pressLog = s.pressLog ++ [(p, m)] :=
  rfl
@[simp] theorem State.joinNotices_notices (src : Source) : (s.joinNotices src).notices = s.notices ++ [src] := rfl
@[simp] theorem State.placeReply_replies (f : HostFrame) : (s.placeReply f).replies = s.replies ++ [f] := rfl
@[simp] theorem State.popInbox_inbox : s.popInbox.inbox = s.inbox.tail := rfl
@[simp] theorem mapTable_getElem {α : Type} {n : Nat} (f : α → α) (v : Vector α n) (k : Nat) (h : k < n) :
    (mapTable f v)[k] = f v[k] := by simp [mapTable]
@[simp] theorem State.withPending_pending (c : List Instr) : (s.withPending c).pending = c := rfl

end Sys2Proof.Machine
end

