-- ==== Sys2Proof/Laws/Frames.lean ====
section
/-! SUPPORT. What each shared operation leaves unchanged: one frame lemma for each operation, naming the parts of the
state that it can change. -/

set_option Elab.async false

namespace Sys2Proof.Safety

open Sys2Proof.Machine

variable {s t u : State} {a b : List Part}

/-- A part that is not listed reads the same. -/
theorem KeepsAllBut.part (h : KeepsAllBut a s t) (x : Part) (hx : x ∉ a := by decide) : x.same s t := h x hx

theorem KeepsAllBut.refl (a : List Part) (s : State) : KeepsAllBut a s s := by
  intro x _; cases x <;> rfl

theorem KeepsAllBut.mono (h : KeepsAllBut a s t) (hs : a ⊆ b := by decide) : KeepsAllBut b s t :=
  fun x hx => h x (fun m => hx (hs m))

theorem Part.same_trans (x : Part) (h1 : x.same s t) (h2 : x.same t u) : x.same s u := by
  cases x <;> exact Eq.trans h2 h1

theorem KeepsAllBut.trans (h1 : KeepsAllBut a s t) (h2 : KeepsAllBut b t u) : KeepsAllBut (a ++ b) s u :=
  fun x hx => x.same_trans (h1 x (fun m => hx (List.mem_append_left _ m)))
    (h2 x (fun m => hx (List.mem_append_right _ m)))

/-- Two operations that keep the same parts keep them one after the other. -/
theorem KeepsAllBut.next (h1 : KeepsAllBut a s t) (h2 : KeepsAllBut a t u) : KeepsAllBut a s u :=
  fun x hx => x.same_trans (h1 x hx) (h2 x hx)

theorem KeepsAllBut.foldl {α : Type} {f : State → α → State} (h : ∀ s x, KeepsAllBut a s (f s x)) :
    ∀ (xs : List α) (s : State), KeepsAllBut a s (xs.foldl f s)
  | [], s => .refl a s
  | x :: xs, s => (h s x).next (KeepsAllBut.foldl h xs (f s x))

theorem KeepsAllBut.ite {c : Prop} [Decidable c] (h1 : KeepsAllBut a s t) (h2 : KeepsAllBut a s u) :
    KeepsAllBut a s (if c then t else u) := by
  split
  · exact h1
  · exact h2

end Sys2Proof.Safety

namespace Sys2Proof.Machine

open Sys2Proof.Safety

variable (s : State)

theorem State.updJob_keeps (j : SlotId) (f : Job → Job) : KeepsAllBut [.jobs] s (s.updJob j f) := by
  intro x hx; cases x <;> first | rfl | simp at hx

theorem State.updQueue_keeps (q : QueueId) (f : Queue → Queue) : KeepsAllBut [.queues] s (s.updQueue q f) := by
  intro x hx; cases x <;> first | rfl | simp at hx

theorem State.updRing_keeps (q : QueueId) (f : Ring → Ring) : KeepsAllBut [.rings] s (s.updRing q f) := by
  intro x hx; cases x <;> first | rfl | simp at hx

theorem State.updProposal_keeps (q : QueueId) (f : Option Proposal → Option Proposal) : KeepsAllBut [.proposals] s (s.updProposal q f) := by
  intro x hx; cases x <;> first | rfl | simp at hx

theorem State.updPage_keeps (r : RecordId) (f : PageRecord → PageRecord) : KeepsAllBut [.pages] s (s.updPage r f) := by
  intro x hx; cases x <;> first | rfl | simp at hx

theorem State.updPort_keeps (p : PortId) (f : Port → Port) : KeepsAllBut [.ports] s (s.updPort p f) := by
  intro x hx; cases x <;> first | rfl | simp at hx

theorem State.updAccount_keeps (a : AccountId) (f : Account → Account) : KeepsAllBut [.accounts] s (s.updAccount a f) := by
  intro x hx; cases x <;> first | rfl | simp at hx

theorem State.updAlert_keeps (a : AlertId) (f : AlertSlot → AlertSlot) : KeepsAllBut [.alerts] s (s.updAlert a f) := by
  intro x hx; cases x <;> first | rfl | simp at hx

theorem State.updTariff_keeps (g : Fin 8) (f : TariffPage → TariffPage) : KeepsAllBut [.tariffs] s (s.updTariff g f) := by
  intro x hx; cases x <;> first | rfl | simp at hx

theorem State.press_keeps (p : PortId) (m : PressMessage) : KeepsAllBut [.pressLog] s (s.press p m) := by
  intro x hx; cases x <;> first | rfl | simp at hx

theorem State.joinNotices_keeps (src : Source) : KeepsAllBut [.notices] s (s.joinNotices src) := by
  intro x hx; cases x <;> first | rfl | simp at hx

theorem State.placeReply_keeps (f : HostFrame) : KeepsAllBut [.replies] s (s.placeReply f) := by
  intro x hx; cases x <;> first | rfl | simp at hx

theorem State.popInbox_keeps : KeepsAllBut [.inbox] s s.popInbox := by
  intro x hx; cases x <;> first | rfl | simp at hx

theorem State.withPending_keeps (c : List Instr) : KeepsAllBut [.pending] s (s.withPending c) := by
  intro x hx; cases x <;> first | rfl | simp at hx
theorem State.ask_keeps :
    KeepsAllBut [.passInProgress, .passOwed] s (s.ask) := by
  unfold State.ask
  split <;> (intro x hx; cases x <;> first | rfl | simp at hx)

theorem State.askIfRun_keeps (q : QueueId) :
    KeepsAllBut [.passInProgress, .passOwed] s (s.askIfRun q) := by
  exact .ite s.ask_keeps (.refl _ s)

theorem State.askIfAnyRun_keeps :
    KeepsAllBut [.passInProgress, .passOwed] s (s.askIfAnyRun) := by
  exact .ite s.ask_keeps (.refl _ s)

theorem State.askIfClaimable_keeps (p : PortId) :
    KeepsAllBut [.passInProgress, .passOwed] s (s.askIfClaimable p) := by
  exact .ite s.ask_keeps (.refl _ s)

theorem State.askIfBecame_keeps (p : PortId) (before : State) :
    KeepsAllBut [.passInProgress, .passOwed] s (s.askIfBecame p before) := by
  exact .ite (.refl _ s) (s.askIfClaimable_keeps p)

theorem State.flagJob_keeps (j : SlotId) (f : JobFlag) :
    KeepsAllBut [.jobs, .notices] s (s.flagJob j f) := by
  have h := s.updJob_keeps j (fun r => { r with flags := addBit r.flags f.bit, noticeOwed := true })
  exact .ite h.mono (h.trans (State.joinNotices_keeps _ _)).mono

theorem State.flagPort_keeps (p : PortId) (f : PortFlag) :
    KeepsAllBut [.ports, .notices] s (s.flagPort p f) := by
  have h := s.updPort_keeps p (fun r => { r with flags := addBit r.flags f.bit, noticeOwed := true })
  exact .ite h.mono (h.trans (State.joinNotices_keeps _ _)).mono

theorem State.flagAlert_keeps (a : AlertId) (f : AlertFlag) :
    KeepsAllBut [.alerts, .notices] s (s.flagAlert a f) := by
  have h := s.updAlert_keeps a (fun r => { r with flags := addBit r.flags f.bit, noticeOwed := true })
  exact .ite h.mono (h.trans (State.joinNotices_keeps _ _)).mono

theorem State.freePage_keeps (r : RecordId) :
    KeepsAllBut [.pages, .freePool] s (s.freePage r) := by
  intro x hx
  cases x <;> first | rfl | (simp at hx)

theorem State.freePlace_keeps (j : SlotId) (place : Nat) :
    KeepsAllBut [.jobs, .pages, .freePool] s (s.freePlace j place) := by
  unfold State.freePlace
  split
  · exact .refl _ s
  · exact ((s.freePage_keeps _).trans (State.updJob_keeps _ _ _)).mono

theorem State.freeJobPages_keeps (j : SlotId) :
    KeepsAllBut [.pages, .freePool] s (s.freeJobPages j) := by
  exact .foldl (fun t r => t.freePage_keeps r) _ s

theorem State.beginPage_keeps (j : SlotId) (r : RecordId) (attr : Byte) :
    KeepsAllBut [.jobs, .pages] s (s.beginPage j r attr) := by
  exact ((s.updPage_keeps _ _).trans (State.updJob_keeps _ _ _)).mono

theorem State.appendData_keeps (r : RecordId) (data : List Byte) :
    KeepsAllBut [.pages, .freePool, .dram] s (s.appendData r data) := by
  intro x hx
  cases x <;> first | rfl | (simp at hx)

theorem State.sealPage_keeps (j : SlotId) (r : RecordId) :
    KeepsAllBut [.jobs, .pages] s (s.sealPage j r) := by
  exact ((s.updPage_keeps _ _).trans (State.updJob_keeps _ _ _)).mono

theorem State.giveMark_keeps (q : QueueId) (m : Nat) :
    KeepsAllBut [.queues, .passInProgress, .passOwed] s (s.giveMark q m) := by
  unfold State.giveMark
  exact .ite (.ite (.refl _ s) ((s.updQueue_keeps _ _).trans (State.askIfRun_keeps _ _)).mono) (.refl _ s)

theorem State.deliverGives_keeps (j : SlotId) :
    KeepsAllBut [.queues, .markLine, .passInProgress, .passOwed] s (s.deliverGives j) := by
  have h : KeepsAllBut [.queues, .markLine, .passInProgress, .passOwed] s
      ((List.finRange 8).foldl (fun t q =>
        if hasBit s.jobs[j].giveSet q.val && q != s.jobs[j].queue then t.giveMark q s.jobs[j].queue.val else t) s) :=
    .foldl (fun t q => .ite (t.giveMark_keeps _ _).mono (.refl _ t)) _ s
  refine .ite (h.next ?_) h
  intro x hx
  cases x <;> first | rfl | simp at hx

theorem State.makeWaiting_keeps (j : SlotId) (r : WaitReason) :
    KeepsAllBut [.jobs, .passInProgress, .passOwed] s (s.makeWaiting j r) := by
  exact ((s.updJob_keeps _ _).trans (State.askIfRun_keeps _ _)).mono

theorem State.becomeDone_keeps (j : SlotId) :
    KeepsAllBut [.jobs, .queues, .markLine, .notices, .passInProgress, .passOwed] s (s.becomeDone j) := by
  exact (((s.updJob_keeps _ _).trans (State.deliverGives_keeps _ _)).trans (State.flagJob_keeps _ _ _)).mono

theorem State.completeProof_keeps (j : SlotId) :
    KeepsAllBut [.jobs, .queues, .markLine, .notices, .passInProgress, .passOwed] s (s.completeProof j) := by
  exact (((s.updJob_keeps _ _).trans (State.flagJob_keeps _ _ _)).trans (State.makeWaiting_keeps _ _ _)).mono

theorem State.completeJob_keeps (j : SlotId) :
    KeepsAllBut [.jobs, .queues, .markLine, .notices, .passInProgress, .passOwed] s (s.completeJob j) := by
  exact .ite (s.completeProof_keeps j) (s.becomeDone_keeps j)

theorem State.afterSheet_keeps (j : SlotId) :
    KeepsAllBut [.jobs, .queues, .markLine, .notices, .passInProgress, .passOwed] s (s.afterSheet j) := by
  unfold State.afterSheet
  refine .ite (.refl _ s) ?_
  split
  · exact s.completeJob_keeps j
  · exact (s.flagJob_keeps _ _).mono
  · exact (s.askIfRun_keeps _).mono
  · exact .refl _ s

theorem State.afterRemoval_keeps (j : SlotId) :
    KeepsAllBut [.jobs, .notices, .passInProgress, .passOwed] s (s.afterRemoval j) := by
  unfold State.afterRemoval
  refine .ite (.refl _ s) ?_
  split
  · exact (s.flagJob_keeps _ _).mono
  · exact (s.askIfRun_keeps _).mono
  · exact .refl _ s

theorem State.releaseFaces_keeps (e : SendEntry) :
    KeepsAllBut [.accounts, .passInProgress, .passOwed] s (s.releaseFaces e) := by
  exact ((s.updAccount_keeps _ _).trans (State.askIfAnyRun_keeps _)).mono

theorem State.releaseFeed_keeps (p : PortId) (j : SlotId) :
    KeepsAllBut [.jobs, .ports] s (s.releaseFeed p j) := by
  exact ((s.updPort_keeps _ _).trans (State.updJob_keeps _ _ _)).mono

theorem State.goDown_keeps (p : PortId) (c : DownCause) :
    KeepsAllBut [.ports, .notices] s (s.goDown p c) := by
  exact .ite ((s.updPort_keeps _ _).trans (State.flagPort_keeps _ _ _)).mono (s.updPort_keeps _ _).mono

theorem State.holdTest_keeps (p : PortId) :
    KeepsAllBut [.ports, .notices] s (s.holdTest p) := by
  exact .ite (s.goDown_keeps _ _) (.refl _ s)

theorem State.feedReleased_keeps (p : PortId) :
    KeepsAllBut [.ports, .notices, .passInProgress, .passOwed] s (s.feedReleased p) := by
  exact ((s.askIfClaimable_keeps _).trans (State.holdTest_keeps _ _)).mono

theorem State.pressAll_keeps (p : PortId) (ms : List PressMessage) : KeepsAllBut [.pressLog] s (s.pressAll p ms) := by
  intro x hx; cases x <;> first | rfl | simp at hx

theorem State.stopSend_keeps (p : PortId) : KeepsAllBut [.ports, .pressLog] s (s.stopSend p) :=
  ((s.pressAll_keeps _ _).trans (State.updPort_keeps _ _ _)).mono

theorem State.stopSendOf_keeps (p : PortId) (e : SendEntry) : KeepsAllBut [.ports, .pressLog] s (s.stopSendOf p e) :=
  .ite (s.stopSend_keeps _) (.refl _ s)

theorem State.dropEntry_keeps (p : PortId) (e : SendEntry) : KeepsAllBut [.ports, .pressLog] s (s.dropEntry p e) :=
  ((s.stopSendOf_keeps _ _).trans (State.updPort_keeps _ _ _)).mono

theorem State.abortStreaming_keeps (p : PortId) :
    KeepsAllBut [.ports, .pressLog] s (s.abortStreaming p) := by
  unfold State.abortStreaming
  split
  · exact .refl _ s
  · exact ((KeepsAllBut.ite (.refl _ s) (s.stopSend_keeps _)).trans
      ((State.updPort_keeps _ _ _).trans (State.press_keeps _ _ _))).mono

theorem State.handedTest_keeps (j : SlotId) :
    KeepsAllBut [.jobs, .queues, .markLine, .notices, .ports, .passInProgress, .passOwed] s (s.handedTest j) := by
  unfold State.handedTest
  refine .ite ?_ (.refl _ s)
  have h1 : KeepsAllBut [.jobs, .queues, .markLine, .notices, .ports, .passInProgress, .passOwed] s (s.updJob j (Job.enter .handed)) := (s.updJob_keeps _ _).mono
  have h2 : KeepsAllBut [.jobs, .queues, .markLine, .notices, .ports, .passInProgress, .passOwed] s (match s.jobs[j].feedPort with
      | none => s.updJob j (Job.enter .handed)
      | some p => ((s.updJob j (Job.enter .handed)).releaseFeed p j).feedReleased p) := by
    split
    · exact h1
    · exact h1.next ((State.releaseFeed_keeps _ _ _).trans (State.feedReleased_keeps _ _)).mono
  have h3 := h2.next (.ite (c := s.jobs[j].double = true) (State.flagJob_keeps _ j .handed).mono (.refl _ _))
  exact .ite h3 (h3.next (State.completeJob_keeps _ _).mono)

theorem State.cancelJob_keeps (j : SlotId) :
    KeepsAllBut [.jobs, .ports, .pressLog, .notices, .passInProgress, .passOwed] s (s.cancelJob j) := by
  have h1 : KeepsAllBut [.jobs, .ports, .pressLog, .notices, .passInProgress, .passOwed] s (s.updJob j (Job.enter .cancelling)) := (s.updJob_keeps _ _).mono
  have h2 : KeepsAllBut [.jobs, .ports, .pressLog, .notices, .passInProgress, .passOwed] s (match s.jobs[j].feedPort with
      | none => s.updJob j (Job.enter .cancelling)
      | some p => (((s.updJob j (Job.enter .cancelling)).releaseFeed p j).abortStreaming p).feedReleased p) := by
    split
    · exact h1
    · exact h1.next (((State.releaseFeed_keeps _ _ _).trans (State.abortStreaming_keeps _ _)).trans
        (State.feedReleased_keeps _ _)).mono
  exact .ite h2 (h2.next (State.flagJob_keeps _ _ _).mono)

theorem State.offer_keeps (p : PortId) (j : SlotId) (r : RecordId) :
    KeepsAllBut [.jobs, .ports, .pressLog] s (s.offer p j r) := by
  exact (((s.updPort_keeps _ _).trans (State.updJob_keeps _ _ _)).trans (State.press_keeps _ _ _)).mono

theorem State.beginSetup_keeps (p : PortId) (m : Media) :
    KeepsAllBut [.ports, .pressLog] s (s.beginSetup p m) := by
  exact ((s.updPort_keeps _ _).trans (State.press_keeps _ _ _)).mono

theorem State.starve_keeps (p : PortId) (j : SlotId) :
    KeepsAllBut [.jobs, .ports] s (s.starve p j) := by
  exact ((s.updJob_keeps _ _).trans (State.updPort_keeps _ _ _)).mono

theorem State.offerPage_keeps (p : PortId) (j : SlotId) (r : RecordId) :
    KeepsAllBut [.jobs, .ports, .accounts, .pressLog, .notices, .passInProgress, .passOwed] s (s.offerPage p j r) := by
  unfold State.offerPage
  refine .ite (.refl _ s) (.ite ?_ (.ite (s.beginSetup_keeps _ _).mono (.ite ?_ ?_)))
  · exact (((s.releaseFeed_keeps _ _).trans (State.makeWaiting_keeps _ _ _)).trans (State.feedReleased_keeps _ _)).mono
  · exact ((s.updAccount_keeps _ _).trans (State.offer_keeps _ _ _ _)).mono
  · exact ((((s.releaseFeed_keeps _ _).trans (State.makeWaiting_keeps _ _ _)).trans (State.flagJob_keeps _ _ _)).trans
      (State.feedReleased_keeps _ _)).mono

theorem State.offerAttempt_keeps (p : PortId) :
    KeepsAllBut [.jobs, .ports, .accounts, .pressLog, .notices, .passInProgress, .passOwed] s (s.offerAttempt p) := by
  unfold State.offerAttempt
  split
  · exact .refl _ s
  · refine .ite (.ite ?_ (.refl _ s)) (.refl _ s)
    split
    · exact (s.starve_keeps _ _).mono
    · exact s.offerPage_keeps _ _ _

theorem State.wake_keeps (j : SlotId) :
    KeepsAllBut [.jobs, .ports, .accounts, .pressLog, .notices, .passInProgress, .passOwed] s (s.wake j) := by
  unfold State.wake
  refine .ite ?_ (.refl _ s)
  split
  · exact .refl _ s
  · exact (((s.updJob_keeps _ _).trans (State.updPort_keeps _ _ _)).trans (State.offerAttempt_keeps _ _)).mono

theorem State.countPage_keeps (e : SendEntry) :
    KeepsAllBut [.jobs, .pages, .freePool] s (s.countPage e) := by
  unfold State.countPage
  refine .ite (.refl _ s) ?_
  split
  · exact .refl _ s
  · exact .ite ((s.updPage_keeps _ _).trans (State.freePlace_keeps _ _ _)).mono (s.updPage_keeps _ _).mono

theorem State.sheetEvent_keeps (p : PortId) (e : SendEntry) :
    KeepsAllBut [.jobs, .queues, .markLine, .notices, .ports, .pages, .freePool, .accounts, .passInProgress, .passOwed, .pressLog] s (s.sheetEvent p e) := by
  exact ((((((((s.stopSendOf_keeps _ _).trans (State.updPort_keeps _ _ _)).trans (State.updJob_keeps _ _ _)).trans (State.countPage_keeps _ _)).trans
    (State.updJob_keeps _ _ _)).trans (State.updAccount_keeps _ _ _)).trans (State.updPort_keeps _ _ _)).trans
    (State.afterSheet_keeps _ _)).mono

theorem State.openSlot_keeps (a : AlertId) (k : AlertKind) (ks st : KindSet) (l : Byte) :
    KeepsAllBut [.alerts, .notices, .openAlerts] s (s.openSlot a k ks st l) := by
  refine KeepsAllBut.mono (.trans (a := [.alerts, .openAlerts]) ?_ (State.flagAlert_keeps _ a .raised))
  intro x hx
  cases x <;> first | rfl | simp at hx

theorem State.closeSlot_keeps (a : AlertId) :
    KeepsAllBut [.alerts, .notices, .openAlerts] s (s.closeSlot a) := by
  refine KeepsAllBut.mono (.trans (a := [.alerts, .openAlerts]) ?_ (State.flagAlert_keeps _ a .closed))
  intro x hx
  cases x <;> first | rfl | simp at hx

theorem State.raiseStop_keeps (p : PortId) (k : AlertKind) (l : Byte) :
    KeepsAllBut [.alerts, .notices, .openAlerts] s (s.raiseStop p k l) := by
  exact .ite ((s.updAlert_keeps _ _).trans (State.flagAlert_keeps _ _ _)).mono (s.openSlot_keeps _ _ _ _ _)

theorem State.confirm_keeps (p : PortId) (es : List SendEntry) :
    KeepsAllBut [.jobs, .queues, .markLine, .notices, .ports, .pages, .freePool, .accounts, .passInProgress, .passOwed, .pressLog] s (s.confirm p es) := by
  exact .foldl (fun t e => t.sheetEvent_keeps p e) _ s

theorem State.settleEntry_keeps (p : PortId) (e : SendEntry) :
    KeepsAllBut [.ports, .accounts, .passInProgress, .passOwed] s (s.settleEntry p e) := by
  exact (KeepsAllBut.trans (.ite (s.updPort_keeps p _) (.refl _ s)) (State.releaseFaces_keeps _ e)).mono

theorem State.settleWindow_keeps (p : PortId) :
    KeepsAllBut [.ports, .accounts, .passInProgress, .passOwed] s (s.settleWindow p) := by
  exact (KeepsAllBut.trans (.foldl (fun t e => t.settleEntry_keeps p e) _ s) (State.updPort_keeps _ _ _)).mono

theorem State.rewindTo_keeps (j : SlotId) (es : List SendEntry) :
    KeepsAllBut [.jobs] s (s.rewindTo j es) := by
  unfold State.rewindTo
  split
  · exact .refl _ s
  · exact s.updJob_keeps _ _

theorem State.releaseIfOwner_keeps (p : PortId) (j : SlotId) :
    KeepsAllBut [.jobs, .ports] s (s.releaseIfOwner p j) := by
  exact .ite (s.releaseFeed_keeps _ _) (.refl _ s)

theorem State.stopState_keeps (j : SlotId) :
    KeepsAllBut [.jobs, .notices, .passInProgress, .passOwed] s (s.stopState j) := by
  unfold State.stopState
  split
  · exact (s.makeWaiting_keeps _ _).mono
  · exact (s.makeWaiting_keeps _ _).mono
  · exact (s.makeWaiting_keeps _ _).mono
  · exact (s.makeWaiting_keeps _ _).mono
  · exact .ite (.refl _ _) (s.flagJob_keeps _ _).mono
  · exact .refl _ s
  · exact .refl _ s
  · exact .refl _ s

theorem State.excludeJob_keeps (p : PortId) (j : SlotId) :
    KeepsAllBut [.jobs] s (s.excludeJob p j) := by
  exact s.updJob_keeps _ _

theorem State.flagReroute_keeps (j : SlotId) :
    KeepsAllBut [.jobs, .notices] s (s.flagReroute j) := by
  exact .ite (s.flagJob_keeps _ _) (.refl _ s)

theorem State.listAffected_keeps (p : PortId) (j : SlotId) :
    KeepsAllBut [.alerts] s (s.listAffected p j) := by
  exact s.updAlert_keeps _ _

theorem State.stopJob_keeps (p : PortId) (es : List SendEntry) (j : SlotId) :
    KeepsAllBut [.jobs, .ports, .alerts, .notices, .passInProgress, .passOwed] s (s.stopJob p es j) := by
  exact ((((((s.releaseIfOwner_keeps _ _).trans (State.rewindTo_keeps _ _ _)).trans (State.stopState_keeps _ _)).trans (State.excludeJob_keeps _ _ _)).trans (State.flagReroute_keeps _ _)).trans (State.listAffected_keeps _ _ _)).mono

theorem State.settleStop_keeps (p : PortId) :
    KeepsAllBut [.jobs, .ports, .alerts, .notices, .accounts, .passInProgress, .passOwed] s (s.settleStop p) := by
  exact ((s.settleWindow_keeps p).trans (.foldl (fun t j => t.stopJob_keeps p _ j) _ _)).mono

theorem State.stopCondition_keeps (p : PortId) (k : AlertKind) (l : Byte) (n : Option Serial) :
    KeepsAllBut [.jobs, .queues, .markLine, .notices, .ports, .pages, .freePool, .accounts, .alerts, .openAlerts, .passInProgress, .passOwed, .pressLog] s (s.stopCondition p k l n) := by
  exact (((s.raiseStop_keeps _ _ _).trans (State.confirm_keeps _ _ _)).trans (State.settleStop_keeps _ _)).mono

theorem State.dropExclusions_keeps (p : PortId) :
    KeepsAllBut [.jobs, .passInProgress, .passOwed] s (s.dropExclusions p) := by
  refine .ite ?_ (.refl _ s)
  refine KeepsAllBut.mono (.trans (a := [.jobs]) ?_ (State.ask_keeps _))
  intro x hx
  cases x <;> first | rfl | simp at hx

theorem State.closeStop_keeps (p : PortId) :
    KeepsAllBut [.alerts, .notices, .openAlerts, .jobs, .passInProgress, .passOwed] s (s.closeStop p) := by
  exact (((s.closeSlot_keeps _).trans (State.dropExclusions_keeps _ _)).trans (State.askIfClaimable_keeps _ _)).mono

theorem State.confirmAttendant_keeps (p : PortId) :
    KeepsAllBut [.alerts, .notices, .openAlerts, .jobs, .passInProgress, .passOwed] s (s.confirmAttendant p) := by
  exact .ite ((s.updAlert_keeps _ _).trans (State.closeStop_keeps _ _)).mono (s.updAlert_keeps _ _).mono

theorem State.repeatWait_keeps (a : AlertId) (k : KindSet) :
    KeepsAllBut [.alerts, .notices] s (s.repeatWait a k) := by
  exact .ite (.refl _ s) ((s.updAlert_keeps _ _).trans (State.flagAlert_keeps _ _ _)).mono

theorem State.closeIfClear_keeps (a : AlertId) :
    KeepsAllBut [.alerts, .notices, .openAlerts] s (s.closeIfClear a) := by
  exact .ite (s.closeSlot_keeps _) (.refl _ s)

theorem State.waitEvent_keeps (p : PortId) (k l : KindSet) :
    KeepsAllBut [.alerts, .notices, .openAlerts] s (s.waitEvent p k l) := by
  refine .ite ?_ (.ite (.refl _ s) (s.openSlot_keeps _ _ _ _ _))
  exact (((s.updAlert_keeps _ _).trans (State.repeatWait_keeps _ _ _)).trans (State.closeIfClear_keeps _ _)).mono

theorem State.enterProbing_keeps (p : PortId) :
    KeepsAllBut [.ports, .pressLog, .notices] s (s.enterProbing p) := by
  have h : KeepsAllBut [.ports, .pressLog, .notices] s ((s.updPort p (fun x => { x with
      link := .probing, downCause := none, rateWindow := none
      receiver := if x.link = .down then .hunt else x.receiver
      probeDue := s.clock + Config.probeTicks })).press p .probe) :=
    ((s.updPort_keeps _ _).trans (State.press_keeps _ _ _)).mono
  exact .ite (h.next (State.flagPort_keeps _ _ _).mono) h

theorem State.endSetup_keeps (p : PortId) :
    KeepsAllBut [.ports, .alerts, .notices, .openAlerts] s (s.endSetup p) := by
  exact .ite ((s.updPort_keeps _ _).trans (State.waitEvent_keeps _ _ _ _)).mono (.refl _ s)

theorem State.comeUp_keeps (p : PortId) (r : Rate) (d : Nat) :
    KeepsAllBut [.ports, .notices, .passInProgress, .passOwed] s (s.comeUp p r d) := by
  exact (((s.updPort_keeps _ _).trans (State.flagPort_keeps _ _ _)).trans (State.askIfClaimable_keeps _ _)).mono

theorem State.bringUp_keeps (p : PortId) (i : Ident) (m : Media) (c : Bool) :
    KeepsAllBut [.ports, .pressLog, .jobs, .alerts, .notices, .openAlerts, .passInProgress, .passOwed] s (s.bringUp p i m c) := by
  have h1 : KeepsAllBut [.ports, .pressLog, .jobs, .alerts, .notices, .openAlerts, .passInProgress, .passOwed] s (s.updPort p (fun x => { x with ident := some i, loaded := m, rateWindow := none })) :=
    (s.updPort_keeps _ _).mono
  have h2 := h1.next (.ite (c := (c && (s.updPort p (fun x => { x with
    ident := some i, loaded := m, rateWindow := none })).alerts[stopSlot p].isOpen) = true)
    (State.confirmAttendant_keeps _ p).mono (.refl _ _))
  exact .ite (h2.next ((State.updPort_keeps _ _ _).trans (State.press_keeps _ _ _)).mono)
    (h2.next (State.comeUp_keeps _ _ _ _).mono)

theorem State.linkLoss_keeps (p : PortId) :
    KeepsAllBut [.jobs, .queues, .markLine, .notices, .ports, .pages, .freePool, .accounts, .alerts, .openAlerts, .passInProgress, .passOwed, .pressLog] s (s.linkLoss p) := by
  exact ((((s.stopSend_keeps _).trans (State.endSetup_keeps _ _)).trans (State.enterProbing_keeps _ _)).trans (State.stopCondition_keeps _ _ _ _ _)).mono

theorem State.orderFault_keeps (p : PortId) :
    KeepsAllBut [.jobs, .queues, .markLine, .notices, .ports, .pages, .freePool, .accounts, .alerts, .openAlerts, .passInProgress, .passOwed, .pressLog] s (s.orderFault p) := by
  exact ((((s.stopSend_keeps _).trans (State.endSetup_keeps _ _)).trans (State.goDown_keeps _ _ _)).trans (State.stopCondition_keeps _ _ _ _ _)).mono

theorem State.reportStall_keeps (p : PortId) :
    KeepsAllBut [.ports, .alerts, .notices, .openAlerts] s (s.reportStall p) := by
  exact ((s.updPort_keeps _ _).trans (State.waitEvent_keeps _ _ _ _)).mono

theorem State.hear_keeps (p : PortId) :
    KeepsAllBut [.ports] s (s.hear p) := by
  exact s.updPort_keeps _ _

theorem State.pressMessage_keeps {parts : List Part} (p : PortId) (ok : Bool) (taken : LinkState → Bool)
    (act : State → State) (hp : Part.ports ∈ parts) (h : ∀ t, KeepsAllBut parts t (act t)) :
    KeepsAllBut parts s (s.pressMessage p ok taken act) := by
  have hh : KeepsAllBut parts s (s.hear p) :=
    (s.hear_keeps p).mono (by intro x hx; simp only [List.mem_singleton] at hx; exact hx ▸ hp)
  exact .ite (.refl _ s) (.ite (hh.next (h _)) hh)

theorem State.walk_keeps (q : QueueId) : ∀ (js : List SlotId) (s : State),
    KeepsAllBut [.jobs] s (State.walk q js s).1
  | [], s => .refl _ s
  | j :: rest, s => by
    unfold State.walk
    split
    · exact State.walk_keeps q rest s
    · exact (s.updJob_keeps _ _).next (State.walk_keeps q rest _)
    · exact .refl _ s

theorem State.examine_keeps (q : QueueId) :
    KeepsAllBut [.jobs, .proposals] s (s.examine q) := by
  exact .ite ((State.walk_keeps q _ s).trans (State.updProposal_keeps _ _ _)).mono (s.updProposal_keeps _ _).mono

theorem State.examineAgain_keeps (q : QueueId) :
    KeepsAllBut [.jobs, .proposals, .passInProgress, .passOwed] s (s.examineAgain q) := by
  exact ((s.askIfRun_keeps q).trans (State.examine_keeps _ q)).mono

theorem State.grant_keeps (q : QueueId) (x : Proposal) :
    KeepsAllBut [.jobs, .queues, .rings, .proposals, .ports, .accounts, .pressLog, .notices, .passInProgress, .passOwed] s (s.grant q x) := by
  exact ((((((s.updPort_keeps _ _).trans (State.updJob_keeps _ _ _)).trans (State.updQueue_keeps _ _ _)).trans (State.updRing_keeps _ _ _)).trans (State.updProposal_keeps _ _ _)).trans (State.offerAttempt_keeps _ _)).mono

theorem State.decide_keeps (p : PortId) :
    KeepsAllBut [.jobs, .queues, .rings, .proposals, .ports, .accounts, .pressLog, .notices, .passInProgress, .passOwed] s (s.decide p) := by
  unfold State.decide
  split
  · exact .refl _ s
  · exact s.grant_keeps _ _

theorem State.round_keeps :
    KeepsAllBut [.jobs, .queues, .rings, .proposals, .ports, .accounts, .pressLog, .notices, .passInProgress, .passOwed, .freeCount] s (s.round) := by
  have h0 : KeepsAllBut [.jobs, .queues, .rings, .proposals, .ports, .accounts, .pressLog, .notices, .passInProgress, .passOwed, .freeCount] s { s with freeCount := s.freeCount + 1 } := by
    intro x hx
    cases x <;> first | rfl | simp at hx
  have h1 := h0.next (.foldl (fun t p => (t.decide_keeps p).mono) s.decisionOrder _)
  have h2 := h1.next (.foldl (fun t q => (t.updProposal_keeps q (fun _ => none)).mono) s.proposers _)
  exact h2.next (.foldl (fun t q => (t.examineAgain_keeps q).mono) s.proposers _)

theorem State.rounds_keeps : ∀ (n : Nat) (s : State),
    KeepsAllBut [.jobs, .queues, .rings, .proposals, .ports, .accounts, .pressLog, .notices, .passInProgress, .passOwed, .freeCount] s (State.rounds n s)
  | 0, s => .refl _ s
  | n + 1, s => .ite (.refl _ s) (s.round_keeps.next (State.rounds_keeps n s.round))

theorem State.pass_keeps :
    KeepsAllBut [.jobs, .queues, .rings, .proposals, .ports, .accounts, .pressLog, .notices, .passInProgress, .passOwed, .freeCount] s (s.pass) := by
  exact (KeepsAllBut.foldl (fun t q => (t.examine_keeps q).mono) (List.finRange 8) s).next (State.rounds_keeps _ _)

theorem State.endPass_keeps :
    KeepsAllBut [.passInProgress, .passOwed] s (s.endPass) := by
  unfold State.endPass
  split <;> (intro x hx; cases x <;> first | rfl | simp at hx)

theorem State.markWritten_keeps (q : QueueId) :
    KeepsAllBut [.proposals] s (s.markWritten q) := by
  exact s.updProposal_keeps _ _

end Sys2Proof.Machine
end

