-- ==== Sys2Proof/Laws/Asks.lean ====
section
/-! SUPPORT. When a dispatch pass has been asked for (R79, R39, R138, R74). -/

set_option Elab.async false

namespace Sys2Proof.Safety

open Sys2Proof.Machine

variable {s t u : State} {b : Prop}

theorem ask_asked (s : State) : Asked s s.ask := by
  unfold State.ask Asked
  split <;> simp_all

theorem NotAsked.refl (s : State) : NotAsked s s := ⟨rfl, rfl⟩

/-- What changes neither the pass in progress nor the owed pass may stand in front. -/
theorem Asked.after (h : Asked u t) (hp : NotAsked s u) : Asked s t :=
  ⟨h.1, by rw [h.2, hp.1, hp.2]⟩

/-- What changes neither the pass in progress nor the owed pass may stand behind. -/
theorem Asked.before (h : Asked s t) (hp : NotAsked t u) : Asked s u :=
  ⟨hp.1.trans h.1, hp.2.trans h.2⟩

theorem NotAsked.trans (h1 : NotAsked s t) (h2 : NotAsked t u) : NotAsked s u :=
  ⟨h2.1.trans h1.1, h2.2.trans h1.2⟩

theorem AskedIf.after (h : AskedIf b u t) (hp : NotAsked s u) : AskedIf b s t :=
  ⟨fun hb => (h.1 hb).after hp, fun hb => hp.trans (h.2 hb)⟩

theorem AskedIf.before (h : AskedIf b s t) (hp : NotAsked t u) : AskedIf b s u :=
  ⟨fun hb => (h.1 hb).before hp, fun hb => (h.2 hb).trans hp⟩

theorem NotAsked.of_keeps {parts : List Part} (h : KeepsAllBut parts s t) (h1 : Part.passInProgress ∉ parts := by decide)
    (h2 : Part.passOwed ∉ parts := by decide) : NotAsked s t :=
  ⟨h .passInProgress h1, h .passOwed h2⟩

theorem ite_ask_asked (s : State) (b : Prop) [Decidable b] : AskedIf b s (if b then s.ask else s) := by
  refine ⟨fun hb => ?_, fun hb => ?_⟩
  · rw [if_pos hb]
    exact ask_asked s
  · rw [if_neg hb]
    exact .refl s

theorem askIfRun_asked (s : State) (q : QueueId) : AskedIf (s.queues[q].mode = .run) s (s.askIfRun q) :=
  ite_ask_asked s _

theorem askIfClaimable_asked (s : State) (p : PortId) : AskedIf (s.claimable p = true) s (s.askIfClaimable p) :=
  ite_ask_asked s _

theorem askIfAnyRun_asked (s : State) : AskedIf (∃ q : QueueId, s.queues[q].mode = .run) s s.askIfAnyRun := by
  have h : ((List.finRange 8).any (fun q => s.queues[q].mode == .run) = true) ↔ ∃ q : QueueId, s.queues[q].mode = .run := by
    simp only [List.any_eq_true, List.mem_finRange, true_and, beq_iff_eq]
  have ha := ite_ask_asked s ((List.finRange 8).any (fun q => s.queues[q].mode == .run) = true)
  exact ⟨fun hb => ha.1 (h.2 hb), fun hb => ha.2 (fun e => hb (h.1 e))⟩

end Sys2Proof.Safety
end

