-- ==== Sys2Proof/Laws/Dram.lean ====
section
/-! SUPPORT. The laws of the stacked DRAM's bytes: a byte written is read back, other addresses keep theirs, every
operation keeps the canonical form, and two memories in canonical form that read alike are equal. -/

set_option Elab.async false

namespace Sys2Proof.Machine

/-- A list whose addresses lie above a bound lies above every smaller bound. -/
theorem dramAbove_mono {k l : Nat} {m : List Host.Cell} (h : k ≤ l) (hm : dramAbove l m = true) :
    dramAbove k m = true := by
  cases m with
  | nil => rfl
  | cons c rest =>
    obtain ⟨a, b⟩ := c
    simp only [dramAbove, Bool.and_eq_true, decide_eq_true_eq] at hm ⊢
    exact ⟨⟨by omega, hm.1.2⟩, hm.2⟩

/-- An address below the listed ones reads as an unlisted one. -/
theorem dramRead_below {k l : Nat} {m : List Host.Cell} (h : k < l) (hm : dramAbove l m = true) :
    dramRead m k = dramDefault := by
  induction m generalizing l with
  | nil => rfl
  | cons c rest ih =>
    obtain ⟨a, b⟩ := c
    simp only [dramAbove, Bool.and_eq_true, decide_eq_true_eq] at hm
    rw [dramRead, if_neg (by omega)]
    exact ih (by omega) hm.2

/-- A write at an address above a bound keeps the canonical form above that bound. -/
theorem dramWrite_above {k a : Nat} {m : List Host.Cell} (v : Byte) (hk : k ≤ a) (hm : dramAbove k m = true) :
    dramAbove k (dramWrite m a v) = true := by
  induction m generalizing k with
  | nil => unfold dramWrite; split <;> simp_all [dramAbove]
  | cons c rest ih =>
    obtain ⟨x, b⟩ := c
    have hm' := hm
    simp only [dramAbove, Bool.and_eq_true, decide_eq_true_eq] at hm'
    unfold dramWrite
    split
    · split
      · exact hm
      · simp_all [dramAbove]
    · split
      · split
        · exact dramAbove_mono (by omega) hm'.2
        · subst_vars; simp_all [dramAbove]
      · have := ih (k := x + 1) (by omega) hm'.2
        simp_all [dramAbove]

/-- A write keeps the canonical form. -/
theorem dramWrite_wf {a : Nat} {m : List Host.Cell} (v : Byte) (hm : dramWf m = true) :
    dramWf (dramWrite m a v) = true := dramWrite_above v (Nat.zero_le a) hm

/-- What a write leaves at every address. -/
theorem dramRead_dramWrite {l : Nat} {m : List Host.Cell} (a : Nat) (v : Byte) (k : Nat) (hm : dramAbove l m = true) :
    dramRead (dramWrite m a v) k = if k = a then v else dramRead m k := by
  induction m generalizing l with
  | nil =>
    simp only [dramWrite]
    by_cases hv : v = dramDefault
    · rw [if_pos hv, hv]; exact (ite_self _).symm
    · rw [if_neg hv]; simp only [dramRead, eq_comm]
  | cons c rest ih =>
    obtain ⟨x, b⟩ := c
    have hw := hm
    simp only [dramAbove, Bool.and_eq_true, decide_eq_true_eq] at hm
    simp only [dramWrite]
    by_cases hlt : a < x
    · rw [if_pos hlt]
      by_cases hv : v = dramDefault
      · rw [if_pos hv]
        by_cases hk : k = a
        · rw [if_pos hk, hk, hv]
          exact dramRead_below (l := x) hlt (by simp [dramAbove, hm])
        · rw [if_neg hk]
      · rw [if_neg hv]; simp only [dramRead, eq_comm]
    · rw [if_neg hlt]
      by_cases hx : a = x
      · rw [if_pos hx]; subst hx
        by_cases hv : v = dramDefault
        · rw [if_pos hv]
          by_cases hk : k = a
          · rw [if_pos hk, hk, hv]; exact dramRead_below (l := a + 1) (by omega) hm.2
          · rw [if_neg hk, dramRead, if_neg (Ne.symm hk)]
        · rw [if_neg hv]
          by_cases hk : k = a
          · rw [if_pos hk, hk, dramRead, if_pos rfl]
          · rw [if_neg hk, dramRead, dramRead, if_neg (Ne.symm hk), if_neg (Ne.symm hk)]
      · rw [if_neg hx]
        simp only [dramRead, ih hm.2]
        by_cases hk : k = a
        · rw [if_pos hk, if_neg (by omega), if_pos hk]
        · rw [if_neg hk, if_neg hk]

/-- A byte written is read back. -/
theorem dramRead_dramWrite_same {a : Nat} {m : List Host.Cell} (v : Byte) (hm : dramWf m = true) :
    dramRead (dramWrite m a v) a = v := by rw [dramRead_dramWrite a v a hm, if_pos rfl]

/-- A write leaves every other address as it was. -/
theorem dramRead_dramWrite_other {a k : Nat} {m : List Host.Cell} (v : Byte) (h : k ≠ a) (hm : dramWf m = true) :
    dramRead (dramWrite m a v) k = dramRead m k := by rw [dramRead_dramWrite a v k hm, if_neg h]

/-- Data written through a chain keep the canonical form. -/
theorem writePage_wf (chain : List Nat) (n : Nat) (data : List Byte) {m : List Host.Cell} (hm : dramWf m = true) :
    dramWf (writePage chain n data m) = true := by
  induction data generalizing n m with
  | nil => exact hm
  | cons b rest ih => exact ih (n + 1) (dramWrite_wf b hm)

/-- Data written through a chain leave every address that is none of theirs. -/
theorem dramRead_writePage_other (chain : List Nat) (n : Nat) (data : List Byte) {m : List Host.Cell} {k : Nat}
    (hm : dramWf m = true) (hk : ∀ i, n ≤ i → i < n + data.length → byteAddress chain i ≠ k) :
    dramRead (writePage chain n data m) k = dramRead m k := by
  induction data generalizing n m with
  | nil => rfl
  | cons b rest ih =>
    simp only [List.length_cons] at hk
    rw [writePage, ih (n + 1) (dramWrite_wf b hm) (fun i h1 h2 => hk i (by omega) (by omega)),
      dramRead_dramWrite_other b (fun h => hk n (Nat.le_refl n) (by omega) h.symm) hm]

/-- Nothing listed is in canonical form. -/
theorem dramWf_nil : dramWf [] = true := rfl

/-- The DRAM of the reset state is in canonical form. -/
theorem reset_dramWf : dramWf State.reset.dram = true := rfl

/-- Two lists in canonical form that read alike at every address are equal. -/
theorem dram_ext {l : Nat} {m n : List Host.Cell} (hm : dramAbove l m = true) (hn : dramAbove l n = true)
    (h : ∀ k, dramRead m k = dramRead n k) : m = n := by
  induction m generalizing l n with
  | nil =>
    cases n with
    | nil => rfl
    | cons d rest =>
      obtain ⟨y, c⟩ := d
      have := h y
      simp_all [dramAbove, dramRead]
  | cons x mrest ih =>
    obtain ⟨x, b⟩ := x
    simp only [dramAbove, Bool.and_eq_true, decide_eq_true_eq, bne_iff_ne] at hm
    cases n with
    | nil =>
      have := h x
      simp_all [dramRead]
    | cons d nrest =>
      obtain ⟨y, c⟩ := d
      simp only [dramAbove, Bool.and_eq_true, decide_eq_true_eq, bne_iff_ne] at hn
      have hx := h x
      have hy := h y
      simp only [dramRead, if_true] at hx hy
      have hxy : x = y := by
        rcases Nat.lt_trichotomy x y with hlt | heq | hgt
        · rw [if_neg (by omega), dramRead_below (Nat.lt_succ_of_lt hlt) hn.2] at hx
          exact absurd hx hm.1.2
        · exact heq
        · rw [if_neg (by omega), dramRead_below (Nat.lt_succ_of_lt hgt) hm.2] at hy
          exact absurd hy.symm hn.1.2
      subst hxy
      rw [if_pos rfl] at hx
      subst hx
      congr 1
      refine ih hm.2 hn.2 (fun k => ?_)
      have hk := h k
      by_cases hkx : x = k
      · subst hkx
        rw [dramRead_below (Nat.lt_succ_self _) hm.2, dramRead_below (Nat.lt_succ_self _) hn.2]
      · simpa only [dramRead, if_neg hkx] using hk

end Sys2Proof.Machine
end

