-- ==== Sys2Proof/Laws/Shared.lean ====
section
/-! SUPPORT. The parts that the shared operations leave as they are, one simp lemma for each part and operation, and
what they make of the parts that they do change. -/

set_option Elab.async false

namespace Sys2Proof.Machine

open Sys2Proof.Safety

variable (s : State)

-- ## ask

@[simp] theorem State.ask_checker : s.ask.checker = s.checker := (s.ask_keeps).part .checker
@[simp] theorem State.ask_inbox : s.ask.inbox = s.inbox := (s.ask_keeps).part .inbox
@[simp] theorem State.ask_replies : s.ask.replies = s.replies := (s.ask_keeps).part .replies
@[simp] theorem State.ask_notices : s.ask.notices = s.notices := (s.ask_keeps).part .notices
@[simp] theorem State.ask_onLink : s.ask.onLink = s.onLink := (s.ask_keeps).part .onLink
@[simp] theorem State.ask_startInterval : s.ask.startInterval = s.startInterval := (s.ask_keeps).part .startInterval
@[simp] theorem State.ask_startFlag : s.ask.startFlag = s.startFlag := (s.ask_keeps).part .startFlag
@[simp] theorem State.ask_partOwed : s.ask.partOwed = s.partOwed := (s.ask_keeps).part .partOwed
@[simp] theorem State.ask_startCause : s.ask.startCause = s.startCause := (s.ask_keeps).part .startCause
@[simp] theorem State.ask_restarting : s.ask.restarting = s.restarting := (s.ask_keeps).part .restarting
@[simp] theorem State.ask_jobs : s.ask.jobs = s.jobs := (s.ask_keeps).part .jobs
@[simp] theorem State.ask_queues : s.ask.queues = s.queues := (s.ask_keeps).part .queues
@[simp] theorem State.ask_markLine : s.ask.markLine = s.markLine := (s.ask_keeps).part .markLine
@[simp] theorem State.ask_pages : s.ask.pages = s.pages := (s.ask_keeps).part .pages
@[simp] theorem State.ask_freePool : s.ask.freePool = s.freePool := (s.ask_keeps).part .freePool
@[simp] theorem State.ask_dram : s.ask.dram = s.dram := (s.ask_keeps).part .dram
@[simp] theorem State.ask_rows : s.ask.rows = s.rows := (s.ask_keeps).part .rows
@[simp] theorem State.ask_rings : s.ask.rings = s.rings := (s.ask_keeps).part .rings
@[simp] theorem State.ask_proposals : s.ask.proposals = s.proposals := (s.ask_keeps).part .proposals
@[simp] theorem State.ask_ports : s.ask.ports = s.ports := (s.ask_keeps).part .ports
@[simp] theorem State.ask_pressLog : s.ask.pressLog = s.pressLog := (s.ask_keeps).part .pressLog
@[simp] theorem State.ask_tariffs : s.ask.tariffs = s.tariffs := (s.ask_keeps).part .tariffs
@[simp] theorem State.ask_accounts : s.ask.accounts = s.accounts := (s.ask_keeps).part .accounts
@[simp] theorem State.ask_alerts : s.ask.alerts = s.alerts := (s.ask_keeps).part .alerts
@[simp] theorem State.ask_openAlerts : s.ask.openAlerts = s.openAlerts := (s.ask_keeps).part .openAlerts
@[simp] theorem State.ask_clock : s.ask.clock = s.clock := (s.ask_keeps).part .clock
@[simp] theorem State.ask_timers : s.ask.timers = s.timers := (s.ask_keeps).part .timers
@[simp] theorem State.ask_freeCount : s.ask.freeCount = s.freeCount := (s.ask_keeps).part .freeCount
@[simp] theorem State.ask_pending : s.ask.pending = s.pending := (s.ask_keeps).part .pending

-- ## askIfRun

@[simp] theorem State.askIfRun_checker (q : QueueId) : (s.askIfRun q).checker = s.checker := (s.askIfRun_keeps _).part .checker
@[simp] theorem State.askIfRun_inbox (q : QueueId) : (s.askIfRun q).inbox = s.inbox := (s.askIfRun_keeps _).part .inbox
@[simp] theorem State.askIfRun_replies (q : QueueId) : (s.askIfRun q).replies = s.replies := (s.askIfRun_keeps _).part .replies
@[simp] theorem State.askIfRun_notices (q : QueueId) : (s.askIfRun q).notices = s.notices := (s.askIfRun_keeps _).part .notices
@[simp] theorem State.askIfRun_onLink (q : QueueId) : (s.askIfRun q).onLink = s.onLink := (s.askIfRun_keeps _).part .onLink
@[simp] theorem State.askIfRun_startInterval (q : QueueId) : (s.askIfRun q).startInterval = s.startInterval := (s.askIfRun_keeps _).part .startInterval
@[simp] theorem State.askIfRun_startFlag (q : QueueId) : (s.askIfRun q).startFlag = s.startFlag := (s.askIfRun_keeps _).part .startFlag
@[simp] theorem State.askIfRun_partOwed (q : QueueId) : (s.askIfRun q).partOwed = s.partOwed := (s.askIfRun_keeps _).part .partOwed
@[simp] theorem State.askIfRun_startCause (q : QueueId) : (s.askIfRun q).startCause = s.startCause := (s.askIfRun_keeps _).part .startCause
@[simp] theorem State.askIfRun_restarting (q : QueueId) : (s.askIfRun q).restarting = s.restarting := (s.askIfRun_keeps _).part .restarting
@[simp] theorem State.askIfRun_jobs (q : QueueId) : (s.askIfRun q).jobs = s.jobs := (s.askIfRun_keeps _).part .jobs
@[simp] theorem State.askIfRun_queues (q : QueueId) : (s.askIfRun q).queues = s.queues := (s.askIfRun_keeps _).part .queues
@[simp] theorem State.askIfRun_markLine (q : QueueId) : (s.askIfRun q).markLine = s.markLine := (s.askIfRun_keeps _).part .markLine
@[simp] theorem State.askIfRun_pages (q : QueueId) : (s.askIfRun q).pages = s.pages := (s.askIfRun_keeps _).part .pages
@[simp] theorem State.askIfRun_freePool (q : QueueId) : (s.askIfRun q).freePool = s.freePool := (s.askIfRun_keeps _).part .freePool
@[simp] theorem State.askIfRun_dram (q : QueueId) : (s.askIfRun q).dram = s.dram := (s.askIfRun_keeps _).part .dram
@[simp] theorem State.askIfRun_rows (q : QueueId) : (s.askIfRun q).rows = s.rows := (s.askIfRun_keeps _).part .rows
@[simp] theorem State.askIfRun_rings (q : QueueId) : (s.askIfRun q).rings = s.rings := (s.askIfRun_keeps _).part .rings
@[simp] theorem State.askIfRun_proposals (q : QueueId) : (s.askIfRun q).proposals = s.proposals := (s.askIfRun_keeps _).part .proposals
@[simp] theorem State.askIfRun_ports (q : QueueId) : (s.askIfRun q).ports = s.ports := (s.askIfRun_keeps _).part .ports
@[simp] theorem State.askIfRun_pressLog (q : QueueId) : (s.askIfRun q).pressLog = s.pressLog := (s.askIfRun_keeps _).part .pressLog
@[simp] theorem State.askIfRun_tariffs (q : QueueId) : (s.askIfRun q).tariffs = s.tariffs := (s.askIfRun_keeps _).part .tariffs
@[simp] theorem State.askIfRun_accounts (q : QueueId) : (s.askIfRun q).accounts = s.accounts := (s.askIfRun_keeps _).part .accounts
@[simp] theorem State.askIfRun_alerts (q : QueueId) : (s.askIfRun q).alerts = s.alerts := (s.askIfRun_keeps _).part .alerts
@[simp] theorem State.askIfRun_openAlerts (q : QueueId) : (s.askIfRun q).openAlerts = s.openAlerts := (s.askIfRun_keeps _).part .openAlerts
@[simp] theorem State.askIfRun_clock (q : QueueId) : (s.askIfRun q).clock = s.clock := (s.askIfRun_keeps _).part .clock
@[simp] theorem State.askIfRun_timers (q : QueueId) : (s.askIfRun q).timers = s.timers := (s.askIfRun_keeps _).part .timers
@[simp] theorem State.askIfRun_freeCount (q : QueueId) : (s.askIfRun q).freeCount = s.freeCount := (s.askIfRun_keeps _).part .freeCount
@[simp] theorem State.askIfRun_pending (q : QueueId) : (s.askIfRun q).pending = s.pending := (s.askIfRun_keeps _).part .pending

-- ## askIfAnyRun

@[simp] theorem State.askIfAnyRun_checker : s.askIfAnyRun.checker = s.checker := (s.askIfAnyRun_keeps).part .checker
@[simp] theorem State.askIfAnyRun_inbox : s.askIfAnyRun.inbox = s.inbox := (s.askIfAnyRun_keeps).part .inbox
@[simp] theorem State.askIfAnyRun_replies : s.askIfAnyRun.replies = s.replies := (s.askIfAnyRun_keeps).part .replies
@[simp] theorem State.askIfAnyRun_notices : s.askIfAnyRun.notices = s.notices := (s.askIfAnyRun_keeps).part .notices
@[simp] theorem State.askIfAnyRun_onLink : s.askIfAnyRun.onLink = s.onLink := (s.askIfAnyRun_keeps).part .onLink
@[simp] theorem State.askIfAnyRun_startInterval : s.askIfAnyRun.startInterval = s.startInterval := (s.askIfAnyRun_keeps).part .startInterval
@[simp] theorem State.askIfAnyRun_startFlag : s.askIfAnyRun.startFlag = s.startFlag := (s.askIfAnyRun_keeps).part .startFlag
@[simp] theorem State.askIfAnyRun_partOwed : s.askIfAnyRun.partOwed = s.partOwed := (s.askIfAnyRun_keeps).part .partOwed
@[simp] theorem State.askIfAnyRun_startCause : s.askIfAnyRun.startCause = s.startCause := (s.askIfAnyRun_keeps).part .startCause
@[simp] theorem State.askIfAnyRun_restarting : s.askIfAnyRun.restarting = s.restarting := (s.askIfAnyRun_keeps).part .restarting
@[simp] theorem State.askIfAnyRun_jobs : s.askIfAnyRun.jobs = s.jobs := (s.askIfAnyRun_keeps).part .jobs
@[simp] theorem State.askIfAnyRun_queues : s.askIfAnyRun.queues = s.queues := (s.askIfAnyRun_keeps).part .queues
@[simp] theorem State.askIfAnyRun_markLine : s.askIfAnyRun.markLine = s.markLine := (s.askIfAnyRun_keeps).part .markLine
@[simp] theorem State.askIfAnyRun_pages : s.askIfAnyRun.pages = s.pages := (s.askIfAnyRun_keeps).part .pages
@[simp] theorem State.askIfAnyRun_freePool : s.askIfAnyRun.freePool = s.freePool := (s.askIfAnyRun_keeps).part .freePool
@[simp] theorem State.askIfAnyRun_dram : s.askIfAnyRun.dram = s.dram := (s.askIfAnyRun_keeps).part .dram
@[simp] theorem State.askIfAnyRun_rows : s.askIfAnyRun.rows = s.rows := (s.askIfAnyRun_keeps).part .rows
@[simp] theorem State.askIfAnyRun_rings : s.askIfAnyRun.rings = s.rings := (s.askIfAnyRun_keeps).part .rings
@[simp] theorem State.askIfAnyRun_proposals : s.askIfAnyRun.proposals = s.proposals := (s.askIfAnyRun_keeps).part .proposals
@[simp] theorem State.askIfAnyRun_ports : s.askIfAnyRun.ports = s.ports := (s.askIfAnyRun_keeps).part .ports
@[simp] theorem State.askIfAnyRun_pressLog : s.askIfAnyRun.pressLog = s.pressLog := (s.askIfAnyRun_keeps).part .pressLog
@[simp] theorem State.askIfAnyRun_tariffs : s.askIfAnyRun.tariffs = s.tariffs := (s.askIfAnyRun_keeps).part .tariffs
@[simp] theorem State.askIfAnyRun_accounts : s.askIfAnyRun.accounts = s.accounts := (s.askIfAnyRun_keeps).part .accounts
@[simp] theorem State.askIfAnyRun_alerts : s.askIfAnyRun.alerts = s.alerts := (s.askIfAnyRun_keeps).part .alerts
@[simp] theorem State.askIfAnyRun_openAlerts : s.askIfAnyRun.openAlerts = s.openAlerts := (s.askIfAnyRun_keeps).part .openAlerts
@[simp] theorem State.askIfAnyRun_clock : s.askIfAnyRun.clock = s.clock := (s.askIfAnyRun_keeps).part .clock
@[simp] theorem State.askIfAnyRun_timers : s.askIfAnyRun.timers = s.timers := (s.askIfAnyRun_keeps).part .timers
@[simp] theorem State.askIfAnyRun_freeCount : s.askIfAnyRun.freeCount = s.freeCount := (s.askIfAnyRun_keeps).part .freeCount
@[simp] theorem State.askIfAnyRun_pending : s.askIfAnyRun.pending = s.pending := (s.askIfAnyRun_keeps).part .pending

-- ## askIfClaimable

@[simp] theorem State.askIfClaimable_checker (p : PortId) : (s.askIfClaimable p).checker = s.checker := (s.askIfClaimable_keeps _).part .checker
@[simp] theorem State.askIfClaimable_inbox (p : PortId) : (s.askIfClaimable p).inbox = s.inbox := (s.askIfClaimable_keeps _).part .inbox
@[simp] theorem State.askIfClaimable_replies (p : PortId) : (s.askIfClaimable p).replies = s.replies := (s.askIfClaimable_keeps _).part .replies
@[simp] theorem State.askIfClaimable_notices (p : PortId) : (s.askIfClaimable p).notices = s.notices := (s.askIfClaimable_keeps _).part .notices
@[simp] theorem State.askIfClaimable_onLink (p : PortId) : (s.askIfClaimable p).onLink = s.onLink := (s.askIfClaimable_keeps _).part .onLink
@[simp] theorem State.askIfClaimable_startInterval (p : PortId) : (s.askIfClaimable p).startInterval = s.startInterval := (s.askIfClaimable_keeps _).part .startInterval
@[simp] theorem State.askIfClaimable_startFlag (p : PortId) : (s.askIfClaimable p).startFlag = s.startFlag := (s.askIfClaimable_keeps _).part .startFlag
@[simp] theorem State.askIfClaimable_partOwed (p : PortId) : (s.askIfClaimable p).partOwed = s.partOwed := (s.askIfClaimable_keeps _).part .partOwed
@[simp] theorem State.askIfClaimable_startCause (p : PortId) : (s.askIfClaimable p).startCause = s.startCause := (s.askIfClaimable_keeps _).part .startCause
@[simp] theorem State.askIfClaimable_restarting (p : PortId) : (s.askIfClaimable p).restarting = s.restarting := (s.askIfClaimable_keeps _).part .restarting
@[simp] theorem State.askIfClaimable_jobs (p : PortId) : (s.askIfClaimable p).jobs = s.jobs := (s.askIfClaimable_keeps _).part .jobs
@[simp] theorem State.askIfClaimable_queues (p : PortId) : (s.askIfClaimable p).queues = s.queues := (s.askIfClaimable_keeps _).part .queues
@[simp] theorem State.askIfClaimable_markLine (p : PortId) : (s.askIfClaimable p).markLine = s.markLine := (s.askIfClaimable_keeps _).part .markLine
@[simp] theorem State.askIfClaimable_pages (p : PortId) : (s.askIfClaimable p).pages = s.pages := (s.askIfClaimable_keeps _).part .pages
@[simp] theorem State.askIfClaimable_freePool (p : PortId) : (s.askIfClaimable p).freePool = s.freePool := (s.askIfClaimable_keeps _).part .freePool
@[simp] theorem State.askIfClaimable_dram (p : PortId) : (s.askIfClaimable p).dram = s.dram := (s.askIfClaimable_keeps _).part .dram
@[simp] theorem State.askIfClaimable_rows (p : PortId) : (s.askIfClaimable p).rows = s.rows := (s.askIfClaimable_keeps _).part .rows
@[simp] theorem State.askIfClaimable_rings (p : PortId) : (s.askIfClaimable p).rings = s.rings := (s.askIfClaimable_keeps _).part .rings
@[simp] theorem State.askIfClaimable_proposals (p : PortId) : (s.askIfClaimable p).proposals = s.proposals := (s.askIfClaimable_keeps _).part .proposals
@[simp] theorem State.askIfClaimable_ports (p : PortId) : (s.askIfClaimable p).ports = s.ports := (s.askIfClaimable_keeps _).part .ports
@[simp] theorem State.askIfClaimable_pressLog (p : PortId) : (s.askIfClaimable p).pressLog = s.pressLog := (s.askIfClaimable_keeps _).part .pressLog
@[simp] theorem State.askIfClaimable_tariffs (p : PortId) : (s.askIfClaimable p).tariffs = s.tariffs := (s.askIfClaimable_keeps _).part .tariffs
@[simp] theorem State.askIfClaimable_accounts (p : PortId) : (s.askIfClaimable p).accounts = s.accounts := (s.askIfClaimable_keeps _).part .accounts
@[simp] theorem State.askIfClaimable_alerts (p : PortId) : (s.askIfClaimable p).alerts = s.alerts := (s.askIfClaimable_keeps _).part .alerts
@[simp] theorem State.askIfClaimable_openAlerts (p : PortId) : (s.askIfClaimable p).openAlerts = s.openAlerts := (s.askIfClaimable_keeps _).part .openAlerts
@[simp] theorem State.askIfClaimable_clock (p : PortId) : (s.askIfClaimable p).clock = s.clock := (s.askIfClaimable_keeps _).part .clock
@[simp] theorem State.askIfClaimable_timers (p : PortId) : (s.askIfClaimable p).timers = s.timers := (s.askIfClaimable_keeps _).part .timers
@[simp] theorem State.askIfClaimable_freeCount (p : PortId) : (s.askIfClaimable p).freeCount = s.freeCount := (s.askIfClaimable_keeps _).part .freeCount
@[simp] theorem State.askIfClaimable_pending (p : PortId) : (s.askIfClaimable p).pending = s.pending := (s.askIfClaimable_keeps _).part .pending

-- ## flagJob

@[simp] theorem State.flagJob_checker (j : SlotId) (f : JobFlag) : (s.flagJob j f).checker = s.checker := (s.flagJob_keeps _ _).part .checker
@[simp] theorem State.flagJob_inbox (j : SlotId) (f : JobFlag) : (s.flagJob j f).inbox = s.inbox := (s.flagJob_keeps _ _).part .inbox
@[simp] theorem State.flagJob_replies (j : SlotId) (f : JobFlag) : (s.flagJob j f).replies = s.replies := (s.flagJob_keeps _ _).part .replies
@[simp] theorem State.flagJob_onLink (j : SlotId) (f : JobFlag) : (s.flagJob j f).onLink = s.onLink := (s.flagJob_keeps _ _).part .onLink
@[simp] theorem State.flagJob_startInterval (j : SlotId) (f : JobFlag) : (s.flagJob j f).startInterval = s.startInterval := (s.flagJob_keeps _ _).part .startInterval
@[simp] theorem State.flagJob_startFlag (j : SlotId) (f : JobFlag) : (s.flagJob j f).startFlag = s.startFlag := (s.flagJob_keeps _ _).part .startFlag
@[simp] theorem State.flagJob_partOwed (j : SlotId) (f : JobFlag) : (s.flagJob j f).partOwed = s.partOwed := (s.flagJob_keeps _ _).part .partOwed
@[simp] theorem State.flagJob_startCause (j : SlotId) (f : JobFlag) : (s.flagJob j f).startCause = s.startCause := (s.flagJob_keeps _ _).part .startCause
@[simp] theorem State.flagJob_restarting (j : SlotId) (f : JobFlag) : (s.flagJob j f).restarting = s.restarting := (s.flagJob_keeps _ _).part .restarting
@[simp] theorem State.flagJob_queues (j : SlotId) (f : JobFlag) : (s.flagJob j f).queues = s.queues := (s.flagJob_keeps _ _).part .queues
@[simp] theorem State.flagJob_markLine (j : SlotId) (f : JobFlag) : (s.flagJob j f).markLine = s.markLine := (s.flagJob_keeps _ _).part .markLine
@[simp] theorem State.flagJob_pages (j : SlotId) (f : JobFlag) : (s.flagJob j f).pages = s.pages := (s.flagJob_keeps _ _).part .pages
@[simp] theorem State.flagJob_freePool (j : SlotId) (f : JobFlag) : (s.flagJob j f).freePool = s.freePool := (s.flagJob_keeps _ _).part .freePool
@[simp] theorem State.flagJob_dram (j : SlotId) (f : JobFlag) : (s.flagJob j f).dram = s.dram := (s.flagJob_keeps _ _).part .dram
@[simp] theorem State.flagJob_rows (j : SlotId) (f : JobFlag) : (s.flagJob j f).rows = s.rows := (s.flagJob_keeps _ _).part .rows
@[simp] theorem State.flagJob_rings (j : SlotId) (f : JobFlag) : (s.flagJob j f).rings = s.rings := (s.flagJob_keeps _ _).part .rings
@[simp] theorem State.flagJob_proposals (j : SlotId) (f : JobFlag) : (s.flagJob j f).proposals = s.proposals := (s.flagJob_keeps _ _).part .proposals
@[simp] theorem State.flagJob_passInProgress (j : SlotId) (f : JobFlag) : (s.flagJob j f).passInProgress = s.passInProgress := (s.flagJob_keeps _ _).part .passInProgress
@[simp] theorem State.flagJob_passOwed (j : SlotId) (f : JobFlag) : (s.flagJob j f).passOwed = s.passOwed := (s.flagJob_keeps _ _).part .passOwed
@[simp] theorem State.flagJob_ports (j : SlotId) (f : JobFlag) : (s.flagJob j f).ports = s.ports := (s.flagJob_keeps _ _).part .ports
@[simp] theorem State.flagJob_pressLog (j : SlotId) (f : JobFlag) : (s.flagJob j f).pressLog = s.pressLog := (s.flagJob_keeps _ _).part .pressLog
@[simp] theorem State.flagJob_tariffs (j : SlotId) (f : JobFlag) : (s.flagJob j f).tariffs = s.tariffs := (s.flagJob_keeps _ _).part .tariffs
@[simp] theorem State.flagJob_accounts (j : SlotId) (f : JobFlag) : (s.flagJob j f).accounts = s.accounts := (s.flagJob_keeps _ _).part .accounts
@[simp] theorem State.flagJob_alerts (j : SlotId) (f : JobFlag) : (s.flagJob j f).alerts = s.alerts := (s.flagJob_keeps _ _).part .alerts
@[simp] theorem State.flagJob_openAlerts (j : SlotId) (f : JobFlag) : (s.flagJob j f).openAlerts = s.openAlerts := (s.flagJob_keeps _ _).part .openAlerts
@[simp] theorem State.flagJob_clock (j : SlotId) (f : JobFlag) : (s.flagJob j f).clock = s.clock := (s.flagJob_keeps _ _).part .clock
@[simp] theorem State.flagJob_timers (j : SlotId) (f : JobFlag) : (s.flagJob j f).timers = s.timers := (s.flagJob_keeps _ _).part .timers
@[simp] theorem State.flagJob_freeCount (j : SlotId) (f : JobFlag) : (s.flagJob j f).freeCount = s.freeCount := (s.flagJob_keeps _ _).part .freeCount
@[simp] theorem State.flagJob_pending (j : SlotId) (f : JobFlag) : (s.flagJob j f).pending = s.pending := (s.flagJob_keeps _ _).part .pending

-- ## flagPort

@[simp] theorem State.flagPort_checker (p : PortId) (f : PortFlag) : (s.flagPort p f).checker = s.checker := (s.flagPort_keeps _ _).part .checker
@[simp] theorem State.flagPort_inbox (p : PortId) (f : PortFlag) : (s.flagPort p f).inbox = s.inbox := (s.flagPort_keeps _ _).part .inbox
@[simp] theorem State.flagPort_replies (p : PortId) (f : PortFlag) : (s.flagPort p f).replies = s.replies := (s.flagPort_keeps _ _).part .replies
@[simp] theorem State.flagPort_onLink (p : PortId) (f : PortFlag) : (s.flagPort p f).onLink = s.onLink := (s.flagPort_keeps _ _).part .onLink
@[simp] theorem State.flagPort_startInterval (p : PortId) (f : PortFlag) : (s.flagPort p f).startInterval = s.startInterval := (s.flagPort_keeps _ _).part .startInterval
@[simp] theorem State.flagPort_startFlag (p : PortId) (f : PortFlag) : (s.flagPort p f).startFlag = s.startFlag := (s.flagPort_keeps _ _).part .startFlag
@[simp] theorem State.flagPort_partOwed (p : PortId) (f : PortFlag) : (s.flagPort p f).partOwed = s.partOwed := (s.flagPort_keeps _ _).part .partOwed
@[simp] theorem State.flagPort_startCause (p : PortId) (f : PortFlag) : (s.flagPort p f).startCause = s.startCause := (s.flagPort_keeps _ _).part .startCause
@[simp] theorem State.flagPort_restarting (p : PortId) (f : PortFlag) : (s.flagPort p f).restarting = s.restarting := (s.flagPort_keeps _ _).part .restarting
@[simp] theorem State.flagPort_jobs (p : PortId) (f : PortFlag) : (s.flagPort p f).jobs = s.jobs := (s.flagPort_keeps _ _).part .jobs
@[simp] theorem State.flagPort_queues (p : PortId) (f : PortFlag) : (s.flagPort p f).queues = s.queues := (s.flagPort_keeps _ _).part .queues
@[simp] theorem State.flagPort_markLine (p : PortId) (f : PortFlag) : (s.flagPort p f).markLine = s.markLine := (s.flagPort_keeps _ _).part .markLine
@[simp] theorem State.flagPort_pages (p : PortId) (f : PortFlag) : (s.flagPort p f).pages = s.pages := (s.flagPort_keeps _ _).part .pages
@[simp] theorem State.flagPort_freePool (p : PortId) (f : PortFlag) : (s.flagPort p f).freePool = s.freePool := (s.flagPort_keeps _ _).part .freePool
@[simp] theorem State.flagPort_dram (p : PortId) (f : PortFlag) : (s.flagPort p f).dram = s.dram := (s.flagPort_keeps _ _).part .dram
@[simp] theorem State.flagPort_rows (p : PortId) (f : PortFlag) : (s.flagPort p f).rows = s.rows := (s.flagPort_keeps _ _).part .rows
@[simp] theorem State.flagPort_rings (p : PortId) (f : PortFlag) : (s.flagPort p f).rings = s.rings := (s.flagPort_keeps _ _).part .rings
@[simp] theorem State.flagPort_proposals (p : PortId) (f : PortFlag) : (s.flagPort p f).proposals = s.proposals := (s.flagPort_keeps _ _).part .proposals
@[simp] theorem State.flagPort_passInProgress (p : PortId) (f : PortFlag) : (s.flagPort p f).passInProgress = s.passInProgress := (s.flagPort_keeps _ _).part .passInProgress
@[simp] theorem State.flagPort_passOwed (p : PortId) (f : PortFlag) : (s.flagPort p f).passOwed = s.passOwed := (s.flagPort_keeps _ _).part .passOwed
@[simp] theorem State.flagPort_pressLog (p : PortId) (f : PortFlag) : (s.flagPort p f).pressLog = s.pressLog := (s.flagPort_keeps _ _).part .pressLog
@[simp] theorem State.flagPort_tariffs (p : PortId) (f : PortFlag) : (s.flagPort p f).tariffs = s.tariffs := (s.flagPort_keeps _ _).part .tariffs
@[simp] theorem State.flagPort_accounts (p : PortId) (f : PortFlag) : (s.flagPort p f).accounts = s.accounts := (s.flagPort_keeps _ _).part .accounts
@[simp] theorem State.flagPort_alerts (p : PortId) (f : PortFlag) : (s.flagPort p f).alerts = s.alerts := (s.flagPort_keeps _ _).part .alerts
@[simp] theorem State.flagPort_openAlerts (p : PortId) (f : PortFlag) : (s.flagPort p f).openAlerts = s.openAlerts := (s.flagPort_keeps _ _).part .openAlerts
@[simp] theorem State.flagPort_clock (p : PortId) (f : PortFlag) : (s.flagPort p f).clock = s.clock := (s.flagPort_keeps _ _).part .clock
@[simp] theorem State.flagPort_timers (p : PortId) (f : PortFlag) : (s.flagPort p f).timers = s.timers := (s.flagPort_keeps _ _).part .timers
@[simp] theorem State.flagPort_freeCount (p : PortId) (f : PortFlag) : (s.flagPort p f).freeCount = s.freeCount := (s.flagPort_keeps _ _).part .freeCount
@[simp] theorem State.flagPort_pending (p : PortId) (f : PortFlag) : (s.flagPort p f).pending = s.pending := (s.flagPort_keeps _ _).part .pending

-- ## flagAlert

@[simp] theorem State.flagAlert_checker (a : AlertId) (f : AlertFlag) : (s.flagAlert a f).checker = s.checker := (s.flagAlert_keeps _ _).part .checker
@[simp] theorem State.flagAlert_inbox (a : AlertId) (f : AlertFlag) : (s.flagAlert a f).inbox = s.inbox := (s.flagAlert_keeps _ _).part .inbox
@[simp] theorem State.flagAlert_replies (a : AlertId) (f : AlertFlag) : (s.flagAlert a f).replies = s.replies := (s.flagAlert_keeps _ _).part .replies
@[simp] theorem State.flagAlert_onLink (a : AlertId) (f : AlertFlag) : (s.flagAlert a f).onLink = s.onLink := (s.flagAlert_keeps _ _).part .onLink
@[simp] theorem State.flagAlert_startInterval (a : AlertId) (f : AlertFlag) : (s.flagAlert a f).startInterval = s.startInterval := (s.flagAlert_keeps _ _).part .startInterval
@[simp] theorem State.flagAlert_startFlag (a : AlertId) (f : AlertFlag) : (s.flagAlert a f).startFlag = s.startFlag := (s.flagAlert_keeps _ _).part .startFlag
@[simp] theorem State.flagAlert_partOwed (a : AlertId) (f : AlertFlag) : (s.flagAlert a f).partOwed = s.partOwed := (s.flagAlert_keeps _ _).part .partOwed
@[simp] theorem State.flagAlert_startCause (a : AlertId) (f : AlertFlag) : (s.flagAlert a f).startCause = s.startCause := (s.flagAlert_keeps _ _).part .startCause
@[simp] theorem State.flagAlert_restarting (a : AlertId) (f : AlertFlag) : (s.flagAlert a f).restarting = s.restarting := (s.flagAlert_keeps _ _).part .restarting
@[simp] theorem State.flagAlert_jobs (a : AlertId) (f : AlertFlag) : (s.flagAlert a f).jobs = s.jobs := (s.flagAlert_keeps _ _).part .jobs
@[simp] theorem State.flagAlert_queues (a : AlertId) (f : AlertFlag) : (s.flagAlert a f).queues = s.queues := (s.flagAlert_keeps _ _).part .queues
@[simp] theorem State.flagAlert_markLine (a : AlertId) (f : AlertFlag) : (s.flagAlert a f).markLine = s.markLine := (s.flagAlert_keeps _ _).part .markLine
@[simp] theorem State.flagAlert_pages (a : AlertId) (f : AlertFlag) : (s.flagAlert a f).pages = s.pages := (s.flagAlert_keeps _ _).part .pages
@[simp] theorem State.flagAlert_freePool (a : AlertId) (f : AlertFlag) : (s.flagAlert a f).freePool = s.freePool := (s.flagAlert_keeps _ _).part .freePool
@[simp] theorem State.flagAlert_dram (a : AlertId) (f : AlertFlag) : (s.flagAlert a f).dram = s.dram := (s.flagAlert_keeps _ _).part .dram
@[simp] theorem State.flagAlert_rows (a : AlertId) (f : AlertFlag) : (s.flagAlert a f).rows = s.rows := (s.flagAlert_keeps _ _).part .rows
@[simp] theorem State.flagAlert_rings (a : AlertId) (f : AlertFlag) : (s.flagAlert a f).rings = s.rings := (s.flagAlert_keeps _ _).part .rings
@[simp] theorem State.flagAlert_proposals (a : AlertId) (f : AlertFlag) : (s.flagAlert a f).proposals = s.proposals := (s.flagAlert_keeps _ _).part .proposals
@[simp] theorem State.flagAlert_passInProgress (a : AlertId) (f : AlertFlag) : (s.flagAlert a f).passInProgress = s.passInProgress := (s.flagAlert_keeps _ _).part .passInProgress
@[simp] theorem State.flagAlert_passOwed (a : AlertId) (f : AlertFlag) : (s.flagAlert a f).passOwed = s.passOwed := (s.flagAlert_keeps _ _).part .passOwed
@[simp] theorem State.flagAlert_ports (a : AlertId) (f : AlertFlag) : (s.flagAlert a f).ports = s.ports := (s.flagAlert_keeps _ _).part .ports
@[simp] theorem State.flagAlert_pressLog (a : AlertId) (f : AlertFlag) : (s.flagAlert a f).pressLog = s.pressLog := (s.flagAlert_keeps _ _).part .pressLog
@[simp] theorem State.flagAlert_tariffs (a : AlertId) (f : AlertFlag) : (s.flagAlert a f).tariffs = s.tariffs := (s.flagAlert_keeps _ _).part .tariffs
@[simp] theorem State.flagAlert_accounts (a : AlertId) (f : AlertFlag) : (s.flagAlert a f).accounts = s.accounts := (s.flagAlert_keeps _ _).part .accounts
@[simp] theorem State.flagAlert_openAlerts (a : AlertId) (f : AlertFlag) : (s.flagAlert a f).openAlerts = s.openAlerts := (s.flagAlert_keeps _ _).part .openAlerts
@[simp] theorem State.flagAlert_clock (a : AlertId) (f : AlertFlag) : (s.flagAlert a f).clock = s.clock := (s.flagAlert_keeps _ _).part .clock
@[simp] theorem State.flagAlert_timers (a : AlertId) (f : AlertFlag) : (s.flagAlert a f).timers = s.timers := (s.flagAlert_keeps _ _).part .timers
@[simp] theorem State.flagAlert_freeCount (a : AlertId) (f : AlertFlag) : (s.flagAlert a f).freeCount = s.freeCount := (s.flagAlert_keeps _ _).part .freeCount
@[simp] theorem State.flagAlert_pending (a : AlertId) (f : AlertFlag) : (s.flagAlert a f).pending = s.pending := (s.flagAlert_keeps _ _).part .pending

-- ## releaseFeed

@[simp] theorem State.releaseFeed_checker (p : PortId) (j : SlotId) : (s.releaseFeed p j).checker = s.checker := (s.releaseFeed_keeps _ _).part .checker
@[simp] theorem State.releaseFeed_inbox (p : PortId) (j : SlotId) : (s.releaseFeed p j).inbox = s.inbox := (s.releaseFeed_keeps _ _).part .inbox
@[simp] theorem State.releaseFeed_replies (p : PortId) (j : SlotId) : (s.releaseFeed p j).replies = s.replies := (s.releaseFeed_keeps _ _).part .replies
@[simp] theorem State.releaseFeed_notices (p : PortId) (j : SlotId) : (s.releaseFeed p j).notices = s.notices := (s.releaseFeed_keeps _ _).part .notices
@[simp] theorem State.releaseFeed_onLink (p : PortId) (j : SlotId) : (s.releaseFeed p j).onLink = s.onLink := (s.releaseFeed_keeps _ _).part .onLink
@[simp] theorem State.releaseFeed_startInterval (p : PortId) (j : SlotId) : (s.releaseFeed p j).startInterval = s.startInterval := (s.releaseFeed_keeps _ _).part .startInterval
@[simp] theorem State.releaseFeed_startFlag (p : PortId) (j : SlotId) : (s.releaseFeed p j).startFlag = s.startFlag := (s.releaseFeed_keeps _ _).part .startFlag
@[simp] theorem State.releaseFeed_partOwed (p : PortId) (j : SlotId) : (s.releaseFeed p j).partOwed = s.partOwed := (s.releaseFeed_keeps _ _).part .partOwed
@[simp] theorem State.releaseFeed_startCause (p : PortId) (j : SlotId) : (s.releaseFeed p j).startCause = s.startCause := (s.releaseFeed_keeps _ _).part .startCause
@[simp] theorem State.releaseFeed_restarting (p : PortId) (j : SlotId) : (s.releaseFeed p j).restarting = s.restarting := (s.releaseFeed_keeps _ _).part .restarting
@[simp] theorem State.releaseFeed_queues (p : PortId) (j : SlotId) : (s.releaseFeed p j).queues = s.queues := (s.releaseFeed_keeps _ _).part .queues
@[simp] theorem State.releaseFeed_markLine (p : PortId) (j : SlotId) : (s.releaseFeed p j).markLine = s.markLine := (s.releaseFeed_keeps _ _).part .markLine
@[simp] theorem State.releaseFeed_pages (p : PortId) (j : SlotId) : (s.releaseFeed p j).pages = s.pages := (s.releaseFeed_keeps _ _).part .pages
@[simp] theorem State.releaseFeed_freePool (p : PortId) (j : SlotId) : (s.releaseFeed p j).freePool = s.freePool := (s.releaseFeed_keeps _ _).part .freePool
@[simp] theorem State.releaseFeed_dram (p : PortId) (j : SlotId) : (s.releaseFeed p j).dram = s.dram := (s.releaseFeed_keeps _ _).part .dram
@[simp] theorem State.releaseFeed_rows (p : PortId) (j : SlotId) : (s.releaseFeed p j).rows = s.rows := (s.releaseFeed_keeps _ _).part .rows
@[simp] theorem State.releaseFeed_rings (p : PortId) (j : SlotId) : (s.releaseFeed p j).rings = s.rings := (s.releaseFeed_keeps _ _).part .rings
@[simp] theorem State.releaseFeed_proposals (p : PortId) (j : SlotId) : (s.releaseFeed p j).proposals = s.proposals := (s.releaseFeed_keeps _ _).part .proposals
@[simp] theorem State.releaseFeed_passInProgress (p : PortId) (j : SlotId) : (s.releaseFeed p j).passInProgress = s.passInProgress := (s.releaseFeed_keeps _ _).part .passInProgress
@[simp] theorem State.releaseFeed_passOwed (p : PortId) (j : SlotId) : (s.releaseFeed p j).passOwed = s.passOwed := (s.releaseFeed_keeps _ _).part .passOwed
@[simp] theorem State.releaseFeed_pressLog (p : PortId) (j : SlotId) : (s.releaseFeed p j).pressLog = s.pressLog := (s.releaseFeed_keeps _ _).part .pressLog
@[simp] theorem State.releaseFeed_tariffs (p : PortId) (j : SlotId) : (s.releaseFeed p j).tariffs = s.tariffs := (s.releaseFeed_keeps _ _).part .tariffs
@[simp] theorem State.releaseFeed_accounts (p : PortId) (j : SlotId) : (s.releaseFeed p j).accounts = s.accounts := (s.releaseFeed_keeps _ _).part .accounts
@[simp] theorem State.releaseFeed_alerts (p : PortId) (j : SlotId) : (s.releaseFeed p j).alerts = s.alerts := (s.releaseFeed_keeps _ _).part .alerts
@[simp] theorem State.releaseFeed_openAlerts (p : PortId) (j : SlotId) : (s.releaseFeed p j).openAlerts = s.openAlerts := (s.releaseFeed_keeps _ _).part .openAlerts
@[simp] theorem State.releaseFeed_clock (p : PortId) (j : SlotId) : (s.releaseFeed p j).clock = s.clock := (s.releaseFeed_keeps _ _).part .clock
@[simp] theorem State.releaseFeed_timers (p : PortId) (j : SlotId) : (s.releaseFeed p j).timers = s.timers := (s.releaseFeed_keeps _ _).part .timers
@[simp] theorem State.releaseFeed_freeCount (p : PortId) (j : SlotId) : (s.releaseFeed p j).freeCount = s.freeCount := (s.releaseFeed_keeps _ _).part .freeCount
@[simp] theorem State.releaseFeed_pending (p : PortId) (j : SlotId) : (s.releaseFeed p j).pending = s.pending := (s.releaseFeed_keeps _ _).part .pending

-- ## goDown

@[simp] theorem State.goDown_checker (p : PortId) (c : DownCause) : (s.goDown p c).checker = s.checker := (s.goDown_keeps _ _).part .checker
@[simp] theorem State.goDown_inbox (p : PortId) (c : DownCause) : (s.goDown p c).inbox = s.inbox := (s.goDown_keeps _ _).part .inbox
@[simp] theorem State.goDown_replies (p : PortId) (c : DownCause) : (s.goDown p c).replies = s.replies := (s.goDown_keeps _ _).part .replies
@[simp] theorem State.goDown_onLink (p : PortId) (c : DownCause) : (s.goDown p c).onLink = s.onLink := (s.goDown_keeps _ _).part .onLink
@[simp] theorem State.goDown_startInterval (p : PortId) (c : DownCause) : (s.goDown p c).startInterval = s.startInterval := (s.goDown_keeps _ _).part .startInterval
@[simp] theorem State.goDown_startFlag (p : PortId) (c : DownCause) : (s.goDown p c).startFlag = s.startFlag := (s.goDown_keeps _ _).part .startFlag
@[simp] theorem State.goDown_partOwed (p : PortId) (c : DownCause) : (s.goDown p c).partOwed = s.partOwed := (s.goDown_keeps _ _).part .partOwed
@[simp] theorem State.goDown_startCause (p : PortId) (c : DownCause) : (s.goDown p c).startCause = s.startCause := (s.goDown_keeps _ _).part .startCause
@[simp] theorem State.goDown_restarting (p : PortId) (c : DownCause) : (s.goDown p c).restarting = s.restarting := (s.goDown_keeps _ _).part .restarting
@[simp] theorem State.goDown_jobs (p : PortId) (c : DownCause) : (s.goDown p c).jobs = s.jobs := (s.goDown_keeps _ _).part .jobs
@[simp] theorem State.goDown_queues (p : PortId) (c : DownCause) : (s.goDown p c).queues = s.queues := (s.goDown_keeps _ _).part .queues
@[simp] theorem State.goDown_markLine (p : PortId) (c : DownCause) : (s.goDown p c).markLine = s.markLine := (s.goDown_keeps _ _).part .markLine
@[simp] theorem State.goDown_pages (p : PortId) (c : DownCause) : (s.goDown p c).pages = s.pages := (s.goDown_keeps _ _).part .pages
@[simp] theorem State.goDown_freePool (p : PortId) (c : DownCause) : (s.goDown p c).freePool = s.freePool := (s.goDown_keeps _ _).part .freePool
@[simp] theorem State.goDown_dram (p : PortId) (c : DownCause) : (s.goDown p c).dram = s.dram := (s.goDown_keeps _ _).part .dram
@[simp] theorem State.goDown_rows (p : PortId) (c : DownCause) : (s.goDown p c).rows = s.rows := (s.goDown_keeps _ _).part .rows
@[simp] theorem State.goDown_rings (p : PortId) (c : DownCause) : (s.goDown p c).rings = s.rings := (s.goDown_keeps _ _).part .rings
@[simp] theorem State.goDown_proposals (p : PortId) (c : DownCause) : (s.goDown p c).proposals = s.proposals := (s.goDown_keeps _ _).part .proposals
@[simp] theorem State.goDown_passInProgress (p : PortId) (c : DownCause) : (s.goDown p c).passInProgress = s.passInProgress := (s.goDown_keeps _ _).part .passInProgress
@[simp] theorem State.goDown_passOwed (p : PortId) (c : DownCause) : (s.goDown p c).passOwed = s.passOwed := (s.goDown_keeps _ _).part .passOwed
@[simp] theorem State.goDown_pressLog (p : PortId) (c : DownCause) : (s.goDown p c).pressLog = s.pressLog := (s.goDown_keeps _ _).part .pressLog
@[simp] theorem State.goDown_tariffs (p : PortId) (c : DownCause) : (s.goDown p c).tariffs = s.tariffs := (s.goDown_keeps _ _).part .tariffs
@[simp] theorem State.goDown_accounts (p : PortId) (c : DownCause) : (s.goDown p c).accounts = s.accounts := (s.goDown_keeps _ _).part .accounts
@[simp] theorem State.goDown_alerts (p : PortId) (c : DownCause) : (s.goDown p c).alerts = s.alerts := (s.goDown_keeps _ _).part .alerts
@[simp] theorem State.goDown_openAlerts (p : PortId) (c : DownCause) : (s.goDown p c).openAlerts = s.openAlerts := (s.goDown_keeps _ _).part .openAlerts
@[simp] theorem State.goDown_clock (p : PortId) (c : DownCause) : (s.goDown p c).clock = s.clock := (s.goDown_keeps _ _).part .clock
@[simp] theorem State.goDown_timers (p : PortId) (c : DownCause) : (s.goDown p c).timers = s.timers := (s.goDown_keeps _ _).part .timers
@[simp] theorem State.goDown_freeCount (p : PortId) (c : DownCause) : (s.goDown p c).freeCount = s.freeCount := (s.goDown_keeps _ _).part .freeCount
@[simp] theorem State.goDown_pending (p : PortId) (c : DownCause) : (s.goDown p c).pending = s.pending := (s.goDown_keeps _ _).part .pending

-- ## holdTest

@[simp] theorem State.holdTest_checker (p : PortId) : (s.holdTest p).checker = s.checker := (s.holdTest_keeps _).part .checker
@[simp] theorem State.holdTest_inbox (p : PortId) : (s.holdTest p).inbox = s.inbox := (s.holdTest_keeps _).part .inbox
@[simp] theorem State.holdTest_replies (p : PortId) : (s.holdTest p).replies = s.replies := (s.holdTest_keeps _).part .replies
@[simp] theorem State.holdTest_onLink (p : PortId) : (s.holdTest p).onLink = s.onLink := (s.holdTest_keeps _).part .onLink
@[simp] theorem State.holdTest_startInterval (p : PortId) : (s.holdTest p).startInterval = s.startInterval := (s.holdTest_keeps _).part .startInterval
@[simp] theorem State.holdTest_startFlag (p : PortId) : (s.holdTest p).startFlag = s.startFlag := (s.holdTest_keeps _).part .startFlag
@[simp] theorem State.holdTest_partOwed (p : PortId) : (s.holdTest p).partOwed = s.partOwed := (s.holdTest_keeps _).part .partOwed
@[simp] theorem State.holdTest_startCause (p : PortId) : (s.holdTest p).startCause = s.startCause := (s.holdTest_keeps _).part .startCause
@[simp] theorem State.holdTest_restarting (p : PortId) : (s.holdTest p).restarting = s.restarting := (s.holdTest_keeps _).part .restarting
@[simp] theorem State.holdTest_jobs (p : PortId) : (s.holdTest p).jobs = s.jobs := (s.holdTest_keeps _).part .jobs
@[simp] theorem State.holdTest_queues (p : PortId) : (s.holdTest p).queues = s.queues := (s.holdTest_keeps _).part .queues
@[simp] theorem State.holdTest_markLine (p : PortId) : (s.holdTest p).markLine = s.markLine := (s.holdTest_keeps _).part .markLine
@[simp] theorem State.holdTest_pages (p : PortId) : (s.holdTest p).pages = s.pages := (s.holdTest_keeps _).part .pages
@[simp] theorem State.holdTest_freePool (p : PortId) : (s.holdTest p).freePool = s.freePool := (s.holdTest_keeps _).part .freePool
@[simp] theorem State.holdTest_dram (p : PortId) : (s.holdTest p).dram = s.dram := (s.holdTest_keeps _).part .dram
@[simp] theorem State.holdTest_rows (p : PortId) : (s.holdTest p).rows = s.rows := (s.holdTest_keeps _).part .rows
@[simp] theorem State.holdTest_rings (p : PortId) : (s.holdTest p).rings = s.rings := (s.holdTest_keeps _).part .rings
@[simp] theorem State.holdTest_proposals (p : PortId) : (s.holdTest p).proposals = s.proposals := (s.holdTest_keeps _).part .proposals
@[simp] theorem State.holdTest_passInProgress (p : PortId) : (s.holdTest p).passInProgress = s.passInProgress := (s.holdTest_keeps _).part .passInProgress
@[simp] theorem State.holdTest_passOwed (p : PortId) : (s.holdTest p).passOwed = s.passOwed := (s.holdTest_keeps _).part .passOwed
@[simp] theorem State.holdTest_pressLog (p : PortId) : (s.holdTest p).pressLog = s.pressLog := (s.holdTest_keeps _).part .pressLog
@[simp] theorem State.holdTest_tariffs (p : PortId) : (s.holdTest p).tariffs = s.tariffs := (s.holdTest_keeps _).part .tariffs
@[simp] theorem State.holdTest_accounts (p : PortId) : (s.holdTest p).accounts = s.accounts := (s.holdTest_keeps _).part .accounts
@[simp] theorem State.holdTest_alerts (p : PortId) : (s.holdTest p).alerts = s.alerts := (s.holdTest_keeps _).part .alerts
@[simp] theorem State.holdTest_openAlerts (p : PortId) : (s.holdTest p).openAlerts = s.openAlerts := (s.holdTest_keeps _).part .openAlerts
@[simp] theorem State.holdTest_clock (p : PortId) : (s.holdTest p).clock = s.clock := (s.holdTest_keeps _).part .clock
@[simp] theorem State.holdTest_timers (p : PortId) : (s.holdTest p).timers = s.timers := (s.holdTest_keeps _).part .timers
@[simp] theorem State.holdTest_freeCount (p : PortId) : (s.holdTest p).freeCount = s.freeCount := (s.holdTest_keeps _).part .freeCount
@[simp] theorem State.holdTest_pending (p : PortId) : (s.holdTest p).pending = s.pending := (s.holdTest_keeps _).part .pending

-- ## feedReleased

@[simp] theorem State.feedReleased_checker (p : PortId) : (s.feedReleased p).checker = s.checker := (s.feedReleased_keeps _).part .checker
@[simp] theorem State.feedReleased_inbox (p : PortId) : (s.feedReleased p).inbox = s.inbox := (s.feedReleased_keeps _).part .inbox
@[simp] theorem State.feedReleased_replies (p : PortId) : (s.feedReleased p).replies = s.replies := (s.feedReleased_keeps _).part .replies
@[simp] theorem State.feedReleased_onLink (p : PortId) : (s.feedReleased p).onLink = s.onLink := (s.feedReleased_keeps _).part .onLink
@[simp] theorem State.feedReleased_startInterval (p : PortId) : (s.feedReleased p).startInterval = s.startInterval := (s.feedReleased_keeps _).part .startInterval
@[simp] theorem State.feedReleased_startFlag (p : PortId) : (s.feedReleased p).startFlag = s.startFlag := (s.feedReleased_keeps _).part .startFlag
@[simp] theorem State.feedReleased_partOwed (p : PortId) : (s.feedReleased p).partOwed = s.partOwed := (s.feedReleased_keeps _).part .partOwed
@[simp] theorem State.feedReleased_startCause (p : PortId) : (s.feedReleased p).startCause = s.startCause := (s.feedReleased_keeps _).part .startCause
@[simp] theorem State.feedReleased_restarting (p : PortId) : (s.feedReleased p).restarting = s.restarting := (s.feedReleased_keeps _).part .restarting
@[simp] theorem State.feedReleased_jobs (p : PortId) : (s.feedReleased p).jobs = s.jobs := (s.feedReleased_keeps _).part .jobs
@[simp] theorem State.feedReleased_queues (p : PortId) : (s.feedReleased p).queues = s.queues := (s.feedReleased_keeps _).part .queues
@[simp] theorem State.feedReleased_markLine (p : PortId) : (s.feedReleased p).markLine = s.markLine := (s.feedReleased_keeps _).part .markLine
@[simp] theorem State.feedReleased_pages (p : PortId) : (s.feedReleased p).pages = s.pages := (s.feedReleased_keeps _).part .pages
@[simp] theorem State.feedReleased_freePool (p : PortId) : (s.feedReleased p).freePool = s.freePool := (s.feedReleased_keeps _).part .freePool
@[simp] theorem State.feedReleased_dram (p : PortId) : (s.feedReleased p).dram = s.dram := (s.feedReleased_keeps _).part .dram
@[simp] theorem State.feedReleased_rows (p : PortId) : (s.feedReleased p).rows = s.rows := (s.feedReleased_keeps _).part .rows
@[simp] theorem State.feedReleased_rings (p : PortId) : (s.feedReleased p).rings = s.rings := (s.feedReleased_keeps _).part .rings
@[simp] theorem State.feedReleased_proposals (p : PortId) : (s.feedReleased p).proposals = s.proposals := (s.feedReleased_keeps _).part .proposals
@[simp] theorem State.feedReleased_pressLog (p : PortId) : (s.feedReleased p).pressLog = s.pressLog := (s.feedReleased_keeps _).part .pressLog
@[simp] theorem State.feedReleased_tariffs (p : PortId) : (s.feedReleased p).tariffs = s.tariffs := (s.feedReleased_keeps _).part .tariffs
@[simp] theorem State.feedReleased_accounts (p : PortId) : (s.feedReleased p).accounts = s.accounts := (s.feedReleased_keeps _).part .accounts
@[simp] theorem State.feedReleased_alerts (p : PortId) : (s.feedReleased p).alerts = s.alerts := (s.feedReleased_keeps _).part .alerts
@[simp] theorem State.feedReleased_openAlerts (p : PortId) : (s.feedReleased p).openAlerts = s.openAlerts := (s.feedReleased_keeps _).part .openAlerts
@[simp] theorem State.feedReleased_clock (p : PortId) : (s.feedReleased p).clock = s.clock := (s.feedReleased_keeps _).part .clock
@[simp] theorem State.feedReleased_timers (p : PortId) : (s.feedReleased p).timers = s.timers := (s.feedReleased_keeps _).part .timers
@[simp] theorem State.feedReleased_freeCount (p : PortId) : (s.feedReleased p).freeCount = s.freeCount := (s.feedReleased_keeps _).part .freeCount
@[simp] theorem State.feedReleased_pending (p : PortId) : (s.feedReleased p).pending = s.pending := (s.feedReleased_keeps _).part .pending

-- ## makeWaiting

@[simp] theorem State.makeWaiting_checker (j : SlotId) (r : WaitReason) : (s.makeWaiting j r).checker = s.checker := (s.makeWaiting_keeps _ _).part .checker
@[simp] theorem State.makeWaiting_inbox (j : SlotId) (r : WaitReason) : (s.makeWaiting j r).inbox = s.inbox := (s.makeWaiting_keeps _ _).part .inbox
@[simp] theorem State.makeWaiting_replies (j : SlotId) (r : WaitReason) : (s.makeWaiting j r).replies = s.replies := (s.makeWaiting_keeps _ _).part .replies
@[simp] theorem State.makeWaiting_notices (j : SlotId) (r : WaitReason) : (s.makeWaiting j r).notices = s.notices := (s.makeWaiting_keeps _ _).part .notices
@[simp] theorem State.makeWaiting_onLink (j : SlotId) (r : WaitReason) : (s.makeWaiting j r).onLink = s.onLink := (s.makeWaiting_keeps _ _).part .onLink
@[simp] theorem State.makeWaiting_startInterval (j : SlotId) (r : WaitReason) : (s.makeWaiting j r).startInterval = s.startInterval := (s.makeWaiting_keeps _ _).part .startInterval
@[simp] theorem State.makeWaiting_startFlag (j : SlotId) (r : WaitReason) : (s.makeWaiting j r).startFlag = s.startFlag := (s.makeWaiting_keeps _ _).part .startFlag
@[simp] theorem State.makeWaiting_partOwed (j : SlotId) (r : WaitReason) : (s.makeWaiting j r).partOwed = s.partOwed := (s.makeWaiting_keeps _ _).part .partOwed
@[simp] theorem State.makeWaiting_startCause (j : SlotId) (r : WaitReason) : (s.makeWaiting j r).startCause = s.startCause := (s.makeWaiting_keeps _ _).part .startCause
@[simp] theorem State.makeWaiting_restarting (j : SlotId) (r : WaitReason) : (s.makeWaiting j r).restarting = s.restarting := (s.makeWaiting_keeps _ _).part .restarting
@[simp] theorem State.makeWaiting_queues (j : SlotId) (r : WaitReason) : (s.makeWaiting j r).queues = s.queues := (s.makeWaiting_keeps _ _).part .queues
@[simp] theorem State.makeWaiting_markLine (j : SlotId) (r : WaitReason) : (s.makeWaiting j r).markLine = s.markLine := (s.makeWaiting_keeps _ _).part .markLine
@[simp] theorem State.makeWaiting_pages (j : SlotId) (r : WaitReason) : (s.makeWaiting j r).pages = s.pages := (s.makeWaiting_keeps _ _).part .pages
@[simp] theorem State.makeWaiting_freePool (j : SlotId) (r : WaitReason) : (s.makeWaiting j r).freePool = s.freePool := (s.makeWaiting_keeps _ _).part .freePool
@[simp] theorem State.makeWaiting_dram (j : SlotId) (r : WaitReason) : (s.makeWaiting j r).dram = s.dram := (s.makeWaiting_keeps _ _).part .dram
@[simp] theorem State.makeWaiting_rows (j : SlotId) (r : WaitReason) : (s.makeWaiting j r).rows = s.rows := (s.makeWaiting_keeps _ _).part .rows
@[simp] theorem State.makeWaiting_rings (j : SlotId) (r : WaitReason) : (s.makeWaiting j r).rings = s.rings := (s.makeWaiting_keeps _ _).part .rings
@[simp] theorem State.makeWaiting_proposals (j : SlotId) (r : WaitReason) : (s.makeWaiting j r).proposals = s.proposals := (s.makeWaiting_keeps _ _).part .proposals
@[simp] theorem State.makeWaiting_ports (j : SlotId) (r : WaitReason) : (s.makeWaiting j r).ports = s.ports := (s.makeWaiting_keeps _ _).part .ports
@[simp] theorem State.makeWaiting_pressLog (j : SlotId) (r : WaitReason) : (s.makeWaiting j r).pressLog = s.pressLog := (s.makeWaiting_keeps _ _).part .pressLog
@[simp] theorem State.makeWaiting_tariffs (j : SlotId) (r : WaitReason) : (s.makeWaiting j r).tariffs = s.tariffs := (s.makeWaiting_keeps _ _).part .tariffs
@[simp] theorem State.makeWaiting_accounts (j : SlotId) (r : WaitReason) : (s.makeWaiting j r).accounts = s.accounts := (s.makeWaiting_keeps _ _).part .accounts
@[simp] theorem State.makeWaiting_alerts (j : SlotId) (r : WaitReason) : (s.makeWaiting j r).alerts = s.alerts := (s.makeWaiting_keeps _ _).part .alerts
@[simp] theorem State.makeWaiting_openAlerts (j : SlotId) (r : WaitReason) : (s.makeWaiting j r).openAlerts = s.openAlerts := (s.makeWaiting_keeps _ _).part .openAlerts
@[simp] theorem State.makeWaiting_clock (j : SlotId) (r : WaitReason) : (s.makeWaiting j r).clock = s.clock := (s.makeWaiting_keeps _ _).part .clock
@[simp] theorem State.makeWaiting_timers (j : SlotId) (r : WaitReason) : (s.makeWaiting j r).timers = s.timers := (s.makeWaiting_keeps _ _).part .timers
@[simp] theorem State.makeWaiting_freeCount (j : SlotId) (r : WaitReason) : (s.makeWaiting j r).freeCount = s.freeCount := (s.makeWaiting_keeps _ _).part .freeCount
@[simp] theorem State.makeWaiting_pending (j : SlotId) (r : WaitReason) : (s.makeWaiting j r).pending = s.pending := (s.makeWaiting_keeps _ _).part .pending

-- ## stopSend

@[simp] theorem State.stopSend_checker (p : PortId) : (s.stopSend p).checker = s.checker := rfl
@[simp] theorem State.stopSend_inbox (p : PortId) : (s.stopSend p).inbox = s.inbox := rfl
@[simp] theorem State.stopSend_replies (p : PortId) : (s.stopSend p).replies = s.replies := rfl
@[simp] theorem State.stopSend_notices (p : PortId) : (s.stopSend p).notices = s.notices := rfl
@[simp] theorem State.stopSend_onLink (p : PortId) : (s.stopSend p).onLink = s.onLink := rfl
@[simp] theorem State.stopSend_startInterval (p : PortId) : (s.stopSend p).startInterval = s.startInterval := rfl
@[simp] theorem State.stopSend_startFlag (p : PortId) : (s.stopSend p).startFlag = s.startFlag := rfl
@[simp] theorem State.stopSend_partOwed (p : PortId) : (s.stopSend p).partOwed = s.partOwed := rfl
@[simp] theorem State.stopSend_startCause (p : PortId) : (s.stopSend p).startCause = s.startCause := rfl
@[simp] theorem State.stopSend_restarting (p : PortId) : (s.stopSend p).restarting = s.restarting := rfl
@[simp] theorem State.stopSend_jobs (p : PortId) : (s.stopSend p).jobs = s.jobs := rfl
@[simp] theorem State.stopSend_queues (p : PortId) : (s.stopSend p).queues = s.queues := rfl
@[simp] theorem State.stopSend_markLine (p : PortId) : (s.stopSend p).markLine = s.markLine := rfl
@[simp] theorem State.stopSend_pages (p : PortId) : (s.stopSend p).pages = s.pages := rfl
@[simp] theorem State.stopSend_freePool (p : PortId) : (s.stopSend p).freePool = s.freePool := rfl
@[simp] theorem State.stopSend_dram (p : PortId) : (s.stopSend p).dram = s.dram := rfl
@[simp] theorem State.stopSend_rows (p : PortId) : (s.stopSend p).rows = s.rows := rfl
@[simp] theorem State.stopSend_rings (p : PortId) : (s.stopSend p).rings = s.rings := rfl
@[simp] theorem State.stopSend_proposals (p : PortId) : (s.stopSend p).proposals = s.proposals := rfl
@[simp] theorem State.stopSend_passInProgress (p : PortId) : (s.stopSend p).passInProgress = s.passInProgress := rfl
@[simp] theorem State.stopSend_passOwed (p : PortId) : (s.stopSend p).passOwed = s.passOwed := rfl
@[simp] theorem State.stopSend_tariffs (p : PortId) : (s.stopSend p).tariffs = s.tariffs := rfl
@[simp] theorem State.stopSend_accounts (p : PortId) : (s.stopSend p).accounts = s.accounts := rfl
@[simp] theorem State.stopSend_alerts (p : PortId) : (s.stopSend p).alerts = s.alerts := rfl
@[simp] theorem State.stopSend_openAlerts (p : PortId) : (s.stopSend p).openAlerts = s.openAlerts := rfl
@[simp] theorem State.stopSend_clock (p : PortId) : (s.stopSend p).clock = s.clock := rfl
@[simp] theorem State.stopSend_timers (p : PortId) : (s.stopSend p).timers = s.timers := rfl
@[simp] theorem State.stopSend_freeCount (p : PortId) : (s.stopSend p).freeCount = s.freeCount := rfl
@[simp] theorem State.stopSend_pending (p : PortId) : (s.stopSend p).pending = s.pending := rfl

-- ## dropEntry

@[simp] theorem State.dropEntry_checker (p : PortId) (e : SendEntry) : (s.dropEntry p e).checker = s.checker := (s.dropEntry_keeps _ _).part .checker
@[simp] theorem State.dropEntry_inbox (p : PortId) (e : SendEntry) : (s.dropEntry p e).inbox = s.inbox := (s.dropEntry_keeps _ _).part .inbox
@[simp] theorem State.dropEntry_replies (p : PortId) (e : SendEntry) : (s.dropEntry p e).replies = s.replies := (s.dropEntry_keeps _ _).part .replies
@[simp] theorem State.dropEntry_notices (p : PortId) (e : SendEntry) : (s.dropEntry p e).notices = s.notices := (s.dropEntry_keeps _ _).part .notices
@[simp] theorem State.dropEntry_onLink (p : PortId) (e : SendEntry) : (s.dropEntry p e).onLink = s.onLink := (s.dropEntry_keeps _ _).part .onLink
@[simp] theorem State.dropEntry_startInterval (p : PortId) (e : SendEntry) : (s.dropEntry p e).startInterval = s.startInterval := (s.dropEntry_keeps _ _).part .startInterval
@[simp] theorem State.dropEntry_startFlag (p : PortId) (e : SendEntry) : (s.dropEntry p e).startFlag = s.startFlag := (s.dropEntry_keeps _ _).part .startFlag
@[simp] theorem State.dropEntry_partOwed (p : PortId) (e : SendEntry) : (s.dropEntry p e).partOwed = s.partOwed := (s.dropEntry_keeps _ _).part .partOwed
@[simp] theorem State.dropEntry_startCause (p : PortId) (e : SendEntry) : (s.dropEntry p e).startCause = s.startCause := (s.dropEntry_keeps _ _).part .startCause
@[simp] theorem State.dropEntry_restarting (p : PortId) (e : SendEntry) : (s.dropEntry p e).restarting = s.restarting := (s.dropEntry_keeps _ _).part .restarting
@[simp] theorem State.dropEntry_jobs (p : PortId) (e : SendEntry) : (s.dropEntry p e).jobs = s.jobs := (s.dropEntry_keeps _ _).part .jobs
@[simp] theorem State.dropEntry_queues (p : PortId) (e : SendEntry) : (s.dropEntry p e).queues = s.queues := (s.dropEntry_keeps _ _).part .queues
@[simp] theorem State.dropEntry_markLine (p : PortId) (e : SendEntry) : (s.dropEntry p e).markLine = s.markLine := (s.dropEntry_keeps _ _).part .markLine
@[simp] theorem State.dropEntry_pages (p : PortId) (e : SendEntry) : (s.dropEntry p e).pages = s.pages := (s.dropEntry_keeps _ _).part .pages
@[simp] theorem State.dropEntry_freePool (p : PortId) (e : SendEntry) : (s.dropEntry p e).freePool = s.freePool := (s.dropEntry_keeps _ _).part .freePool
@[simp] theorem State.dropEntry_dram (p : PortId) (e : SendEntry) : (s.dropEntry p e).dram = s.dram := (s.dropEntry_keeps _ _).part .dram
@[simp] theorem State.dropEntry_rows (p : PortId) (e : SendEntry) : (s.dropEntry p e).rows = s.rows := (s.dropEntry_keeps _ _).part .rows
@[simp] theorem State.dropEntry_rings (p : PortId) (e : SendEntry) : (s.dropEntry p e).rings = s.rings := (s.dropEntry_keeps _ _).part .rings
@[simp] theorem State.dropEntry_proposals (p : PortId) (e : SendEntry) : (s.dropEntry p e).proposals = s.proposals := (s.dropEntry_keeps _ _).part .proposals
@[simp] theorem State.dropEntry_passInProgress (p : PortId) (e : SendEntry) : (s.dropEntry p e).passInProgress = s.passInProgress := (s.dropEntry_keeps _ _).part .passInProgress
@[simp] theorem State.dropEntry_passOwed (p : PortId) (e : SendEntry) : (s.dropEntry p e).passOwed = s.passOwed := (s.dropEntry_keeps _ _).part .passOwed
@[simp] theorem State.dropEntry_tariffs (p : PortId) (e : SendEntry) : (s.dropEntry p e).tariffs = s.tariffs := (s.dropEntry_keeps _ _).part .tariffs
@[simp] theorem State.dropEntry_accounts (p : PortId) (e : SendEntry) : (s.dropEntry p e).accounts = s.accounts := (s.dropEntry_keeps _ _).part .accounts
@[simp] theorem State.dropEntry_alerts (p : PortId) (e : SendEntry) : (s.dropEntry p e).alerts = s.alerts := (s.dropEntry_keeps _ _).part .alerts
@[simp] theorem State.dropEntry_openAlerts (p : PortId) (e : SendEntry) : (s.dropEntry p e).openAlerts = s.openAlerts := (s.dropEntry_keeps _ _).part .openAlerts
@[simp] theorem State.dropEntry_clock (p : PortId) (e : SendEntry) : (s.dropEntry p e).clock = s.clock := (s.dropEntry_keeps _ _).part .clock
@[simp] theorem State.dropEntry_timers (p : PortId) (e : SendEntry) : (s.dropEntry p e).timers = s.timers := (s.dropEntry_keeps _ _).part .timers
@[simp] theorem State.dropEntry_freeCount (p : PortId) (e : SendEntry) : (s.dropEntry p e).freeCount = s.freeCount := (s.dropEntry_keeps _ _).part .freeCount
@[simp] theorem State.dropEntry_pending (p : PortId) (e : SendEntry) : (s.dropEntry p e).pending = s.pending := (s.dropEntry_keeps _ _).part .pending

-- ## abortStreaming

@[simp] theorem State.abortStreaming_checker (p : PortId) : (s.abortStreaming p).checker = s.checker := (s.abortStreaming_keeps _).part .checker
@[simp] theorem State.abortStreaming_inbox (p : PortId) : (s.abortStreaming p).inbox = s.inbox := (s.abortStreaming_keeps _).part .inbox
@[simp] theorem State.abortStreaming_replies (p : PortId) : (s.abortStreaming p).replies = s.replies := (s.abortStreaming_keeps _).part .replies
@[simp] theorem State.abortStreaming_notices (p : PortId) : (s.abortStreaming p).notices = s.notices := (s.abortStreaming_keeps _).part .notices
@[simp] theorem State.abortStreaming_onLink (p : PortId) : (s.abortStreaming p).onLink = s.onLink := (s.abortStreaming_keeps _).part .onLink
@[simp] theorem State.abortStreaming_startInterval (p : PortId) : (s.abortStreaming p).startInterval = s.startInterval := (s.abortStreaming_keeps _).part .startInterval
@[simp] theorem State.abortStreaming_startFlag (p : PortId) : (s.abortStreaming p).startFlag = s.startFlag := (s.abortStreaming_keeps _).part .startFlag
@[simp] theorem State.abortStreaming_partOwed (p : PortId) : (s.abortStreaming p).partOwed = s.partOwed := (s.abortStreaming_keeps _).part .partOwed
@[simp] theorem State.abortStreaming_startCause (p : PortId) : (s.abortStreaming p).startCause = s.startCause := (s.abortStreaming_keeps _).part .startCause
@[simp] theorem State.abortStreaming_restarting (p : PortId) : (s.abortStreaming p).restarting = s.restarting := (s.abortStreaming_keeps _).part .restarting
@[simp] theorem State.abortStreaming_jobs (p : PortId) : (s.abortStreaming p).jobs = s.jobs := (s.abortStreaming_keeps _).part .jobs
@[simp] theorem State.abortStreaming_queues (p : PortId) : (s.abortStreaming p).queues = s.queues := (s.abortStreaming_keeps _).part .queues
@[simp] theorem State.abortStreaming_markLine (p : PortId) : (s.abortStreaming p).markLine = s.markLine := (s.abortStreaming_keeps _).part .markLine
@[simp] theorem State.abortStreaming_pages (p : PortId) : (s.abortStreaming p).pages = s.pages := (s.abortStreaming_keeps _).part .pages
@[simp] theorem State.abortStreaming_freePool (p : PortId) : (s.abortStreaming p).freePool = s.freePool := (s.abortStreaming_keeps _).part .freePool
@[simp] theorem State.abortStreaming_dram (p : PortId) : (s.abortStreaming p).dram = s.dram := (s.abortStreaming_keeps _).part .dram
@[simp] theorem State.abortStreaming_rows (p : PortId) : (s.abortStreaming p).rows = s.rows := (s.abortStreaming_keeps _).part .rows
@[simp] theorem State.abortStreaming_rings (p : PortId) : (s.abortStreaming p).rings = s.rings := (s.abortStreaming_keeps _).part .rings
@[simp] theorem State.abortStreaming_proposals (p : PortId) : (s.abortStreaming p).proposals = s.proposals := (s.abortStreaming_keeps _).part .proposals
@[simp] theorem State.abortStreaming_passInProgress (p : PortId) : (s.abortStreaming p).passInProgress = s.passInProgress := (s.abortStreaming_keeps _).part .passInProgress
@[simp] theorem State.abortStreaming_passOwed (p : PortId) : (s.abortStreaming p).passOwed = s.passOwed := (s.abortStreaming_keeps _).part .passOwed
@[simp] theorem State.abortStreaming_tariffs (p : PortId) : (s.abortStreaming p).tariffs = s.tariffs := (s.abortStreaming_keeps _).part .tariffs
@[simp] theorem State.abortStreaming_accounts (p : PortId) : (s.abortStreaming p).accounts = s.accounts := (s.abortStreaming_keeps _).part .accounts
@[simp] theorem State.abortStreaming_alerts (p : PortId) : (s.abortStreaming p).alerts = s.alerts := (s.abortStreaming_keeps _).part .alerts
@[simp] theorem State.abortStreaming_openAlerts (p : PortId) : (s.abortStreaming p).openAlerts = s.openAlerts := (s.abortStreaming_keeps _).part .openAlerts
@[simp] theorem State.abortStreaming_clock (p : PortId) : (s.abortStreaming p).clock = s.clock := (s.abortStreaming_keeps _).part .clock
@[simp] theorem State.abortStreaming_timers (p : PortId) : (s.abortStreaming p).timers = s.timers := (s.abortStreaming_keeps _).part .timers
@[simp] theorem State.abortStreaming_freeCount (p : PortId) : (s.abortStreaming p).freeCount = s.freeCount := (s.abortStreaming_keeps _).part .freeCount
@[simp] theorem State.abortStreaming_pending (p : PortId) : (s.abortStreaming p).pending = s.pending := (s.abortStreaming_keeps _).part .pending

-- ## freePage

@[simp] theorem State.freePage_checker (r : RecordId) : (s.freePage r).checker = s.checker := (s.freePage_keeps _).part .checker
@[simp] theorem State.freePage_inbox (r : RecordId) : (s.freePage r).inbox = s.inbox := (s.freePage_keeps _).part .inbox
@[simp] theorem State.freePage_replies (r : RecordId) : (s.freePage r).replies = s.replies := (s.freePage_keeps _).part .replies
@[simp] theorem State.freePage_notices (r : RecordId) : (s.freePage r).notices = s.notices := (s.freePage_keeps _).part .notices
@[simp] theorem State.freePage_onLink (r : RecordId) : (s.freePage r).onLink = s.onLink := (s.freePage_keeps _).part .onLink
@[simp] theorem State.freePage_startInterval (r : RecordId) : (s.freePage r).startInterval = s.startInterval := (s.freePage_keeps _).part .startInterval
@[simp] theorem State.freePage_startFlag (r : RecordId) : (s.freePage r).startFlag = s.startFlag := (s.freePage_keeps _).part .startFlag
@[simp] theorem State.freePage_partOwed (r : RecordId) : (s.freePage r).partOwed = s.partOwed := (s.freePage_keeps _).part .partOwed
@[simp] theorem State.freePage_startCause (r : RecordId) : (s.freePage r).startCause = s.startCause := (s.freePage_keeps _).part .startCause
@[simp] theorem State.freePage_restarting (r : RecordId) : (s.freePage r).restarting = s.restarting := (s.freePage_keeps _).part .restarting
@[simp] theorem State.freePage_jobs (r : RecordId) : (s.freePage r).jobs = s.jobs := (s.freePage_keeps _).part .jobs
@[simp] theorem State.freePage_queues (r : RecordId) : (s.freePage r).queues = s.queues := (s.freePage_keeps _).part .queues
@[simp] theorem State.freePage_markLine (r : RecordId) : (s.freePage r).markLine = s.markLine := (s.freePage_keeps _).part .markLine
@[simp] theorem State.freePage_dram (r : RecordId) : (s.freePage r).dram = s.dram := (s.freePage_keeps _).part .dram
@[simp] theorem State.freePage_rows (r : RecordId) : (s.freePage r).rows = s.rows := (s.freePage_keeps _).part .rows
@[simp] theorem State.freePage_rings (r : RecordId) : (s.freePage r).rings = s.rings := (s.freePage_keeps _).part .rings
@[simp] theorem State.freePage_proposals (r : RecordId) : (s.freePage r).proposals = s.proposals := (s.freePage_keeps _).part .proposals
@[simp] theorem State.freePage_passInProgress (r : RecordId) : (s.freePage r).passInProgress = s.passInProgress := (s.freePage_keeps _).part .passInProgress
@[simp] theorem State.freePage_passOwed (r : RecordId) : (s.freePage r).passOwed = s.passOwed := (s.freePage_keeps _).part .passOwed
@[simp] theorem State.freePage_ports (r : RecordId) : (s.freePage r).ports = s.ports := (s.freePage_keeps _).part .ports
@[simp] theorem State.freePage_pressLog (r : RecordId) : (s.freePage r).pressLog = s.pressLog := (s.freePage_keeps _).part .pressLog
@[simp] theorem State.freePage_tariffs (r : RecordId) : (s.freePage r).tariffs = s.tariffs := (s.freePage_keeps _).part .tariffs
@[simp] theorem State.freePage_accounts (r : RecordId) : (s.freePage r).accounts = s.accounts := (s.freePage_keeps _).part .accounts
@[simp] theorem State.freePage_alerts (r : RecordId) : (s.freePage r).alerts = s.alerts := (s.freePage_keeps _).part .alerts
@[simp] theorem State.freePage_openAlerts (r : RecordId) : (s.freePage r).openAlerts = s.openAlerts := (s.freePage_keeps _).part .openAlerts
@[simp] theorem State.freePage_clock (r : RecordId) : (s.freePage r).clock = s.clock := (s.freePage_keeps _).part .clock
@[simp] theorem State.freePage_timers (r : RecordId) : (s.freePage r).timers = s.timers := (s.freePage_keeps _).part .timers
@[simp] theorem State.freePage_freeCount (r : RecordId) : (s.freePage r).freeCount = s.freeCount := (s.freePage_keeps _).part .freeCount
@[simp] theorem State.freePage_pending (r : RecordId) : (s.freePage r).pending = s.pending := (s.freePage_keeps _).part .pending

-- ## What they change

/-- The record of a job that a flag is set for (R22). -/
def Job.flagged (f : JobFlag) (x : Job) : Job := { x with flags := addBit x.flags f.bit, noticeOwed := true }

@[simp] theorem State.flagJob_jobs_val (j : SlotId) (f : JobFlag) :
    (s.flagJob j f).jobs[j.val] = Job.flagged f s.jobs[j.val] := by
  unfold State.flagJob
  dsimp only
  split <;> simp [Job.flagged]

theorem State.flagJob_jobs_ne (j : SlotId) (f : JobFlag) (k : SlotId) (h : k ≠ j) :
    (s.flagJob j f).jobs[k] = s.jobs[k] := by
  unfold State.flagJob
  dsimp only
  split
  · exact State.updJob_jobs_ne _ _ _ _ h
  · simp only [State.joinNotices_jobs]
    exact State.updJob_jobs_ne _ _ _ _ h

theorem State.flagJob_notices (j : SlotId) (f : JobFlag) :
    (s.flagJob j f).notices = s.notices ++ (if s.jobs[j].noticeOwed then [] else [.job j]) := by
  unfold State.flagJob
  dsimp only
  split <;> simp

@[simp] theorem State.flagPort_ports_val (p : PortId) (f : PortFlag) :
    (s.flagPort p f).ports[p.val] = { s.ports[p.val] with flags := addBit s.ports[p.val].flags f.bit, noticeOwed := true } := by
  unfold State.flagPort
  dsimp only
  split <;> simp

theorem State.flagPort_ports_ne (p : PortId) (f : PortFlag) (k : PortId) (h : k ≠ p) :
    (s.flagPort p f).ports[k] = s.ports[k] := by
  unfold State.flagPort
  dsimp only
  split
  · exact State.updPort_ports_ne _ _ _ _ h
  · simp only [State.joinNotices_ports]
    exact State.updPort_ports_ne _ _ _ _ h

theorem State.flagPort_notices (p : PortId) (f : PortFlag) :
    (s.flagPort p f).notices = s.notices ++ (if s.ports[p].noticeOwed then [] else [.port p]) := by
  unfold State.flagPort
  dsimp only
  split <;> simp

@[simp] theorem State.flagAlert_alerts_val (a : AlertId) (f : AlertFlag) :
    (s.flagAlert a f).alerts[a.val] =
      { s.alerts[a.val] with flags := addBit s.alerts[a.val].flags f.bit, noticeOwed := true } := by
  unfold State.flagAlert
  dsimp only
  split <;> simp

theorem State.flagAlert_alerts_ne (a : AlertId) (f : AlertFlag) (k : AlertId) (h : k ≠ a) :
    (s.flagAlert a f).alerts[k] = s.alerts[k] := by
  unfold State.flagAlert
  dsimp only
  split
  · exact State.updAlert_alerts_ne _ _ _ _ h
  · simp only [State.joinNotices_alerts]
    exact State.updAlert_alerts_ne _ _ _ _ h

theorem State.flagAlert_notices (a : AlertId) (f : AlertFlag) :
    (s.flagAlert a f).notices = s.notices ++ (if s.alerts[a].noticeOwed then [] else [.alert a]) := by
  unfold State.flagAlert
  dsimp only
  split <;> simp

@[simp] theorem State.releaseFeed_jobs_val (p : PortId) (j : SlotId) :
    (s.releaseFeed p j).jobs[j.val] = { s.jobs[j.val] with feedPort := none } := by simp [State.releaseFeed]

theorem State.releaseFeed_jobs_ne (p : PortId) (j : SlotId) (k : SlotId) (h : k ≠ j) :
    (s.releaseFeed p j).jobs[k] = s.jobs[k] := State.updJob_jobs_ne _ _ _ _ h

@[simp] theorem State.releaseFeed_ports_val (p : PortId) (j : SlotId) :
    (s.releaseFeed p j).ports[p.val] = s.ports[p.val].dropFeed := by simp [State.releaseFeed]

theorem State.releaseFeed_ports_ne (p : PortId) (j : SlotId) (k : PortId) (h : k ≠ p) :
    (s.releaseFeed p j).ports[k] = s.ports[k] := State.updPort_ports_ne _ _ _ _ h

@[simp] theorem State.makeWaiting_jobs_val (j : SlotId) (r : WaitReason) :
    (s.makeWaiting j r).jobs[j.val] = { s.jobs[j.val] with state := .waiting, reason := some r } := by
  simp [State.makeWaiting]

theorem State.makeWaiting_jobs_ne (j : SlotId) (r : WaitReason) (k : SlotId) (h : k ≠ j) :
    (s.makeWaiting j r).jobs[k] = s.jobs[k] := by
  simp only [State.makeWaiting, State.askIfRun_jobs]
  exact State.updJob_jobs_ne _ _ _ _ h

/-- A stopped send leaves its port with no send in progress and otherwise as it was. -/
@[simp] theorem State.stopSend_ports_val (p : PortId) :
    (s.stopSend p).ports[p.val] = { s.ports[p.val] with sending := none } := by
  simp [State.stopSend, State.pressAll, Port.stopSend]

theorem State.stopSend_ports_ne (p : PortId) (k : PortId) (h : k ≠ p) : (s.stopSend p).ports[k] = s.ports[k] :=
  State.updPort_ports_ne _ _ _ _ h

/-- A stopped send logs the page data that it had put on the link (R183). -/
@[simp] theorem State.stopSend_pressLog (p : PortId) :
    (s.stopSend p).pressLog = s.pressLog ++ (s.stoppedData p).map (fun m => (p, m)) := rfl

/-- With no send in progress there is nothing to log. -/
theorem State.stoppedData_of_none (p : PortId) (h : s.ports[p].sending = none) : s.stoppedData p = [] := by
  simp only [State.stoppedData, Port.sendingEntry, h]

theorem State.stopSend_of_none (p : PortId) (h : s.ports[p].sending = none) : (s.stopSend p).pressLog = s.pressLog := by
  rw [State.stopSend_pressLog, s.stoppedData_of_none p h]
  simp

/-- An entry that leaves by a sheet or without one leaves every other entry, and the port otherwise, as it was. -/
theorem State.dropEntry_ports_val (p : PortId) (e : SendEntry) : (s.dropEntry p e).ports[p.val] =
    { s.ports[p.val] with
      window := s.ports[p.val].window.erase e
      sending := if s.ports[p.val].sending = some e.serial then none else s.ports[p.val].sending } := by
  by_cases h : s.ports[p.val].sending = some e.serial <;>
    simp [State.dropEntry, State.stopSendOf, Port.dropEntry, h]

theorem State.dropEntry_ports_ne (p : PortId) (e : SendEntry) (k : PortId) (h : k ≠ p) :
    (s.dropEntry p e).ports[k] = s.ports[k] := by
  unfold State.dropEntry State.stopSendOf
  rw [State.updPort_ports_ne _ _ _ _ h]
  split
  · exact s.stopSend_ports_ne _ _ h
  · rfl

/-- A port that goes down keeps everything but its link, its timers and its flags. -/
theorem State.goDown_ports_val (p : PortId) (c : DownCause) : ∃ (f : BitVec 3) (n : Bool),
    (s.goDown p c).ports[p.val] = { s.ports[p.val] with
      link := .down, downCause := some c, rateWindow := none, sending := none, flags := f, noticeOwed := n } := by
  unfold State.goDown
  dsimp only
  split
  · exact ⟨_, _, by simp; exact ⟨rfl, rfl⟩⟩
  · exact ⟨s.ports[p.val].flags, s.ports[p.val].noticeOwed, by simp⟩

theorem State.goDown_ports_ne (p : PortId) (c : DownCause) (k : PortId) (h : k ≠ p) :
    (s.goDown p c).ports[k] = s.ports[k] := by
  unfold State.goDown
  dsimp only
  split
  · rw [State.flagPort_ports_ne _ _ _ _ h]
    exact State.updPort_ports_ne _ _ _ _ h
  · exact State.updPort_ports_ne _ _ _ _ h

theorem State.holdTest_ports_ne (p : PortId) (k : PortId) (h : k ≠ p) : (s.holdTest p).ports[k] = s.ports[k] := by
  unfold State.holdTest
  split
  · exact s.goDown_ports_ne _ _ _ h
  · rfl

/-- The hold test leaves a port's feed, window, setup hold and timers as they are. -/
theorem State.holdTest_ports_val (p : PortId) : ∃ (l : LinkState) (c : Option DownCause) (w : Option Nat)
    (x : Option Serial) (f : BitVec 3) (n : Bool), (s.holdTest p).ports[p.val] = { s.ports[p.val] with
      link := l, downCause := c, rateWindow := w, sending := x, flags := f, noticeOwed := n } := by
  unfold State.holdTest
  split
  · obtain ⟨f, n, h⟩ := s.goDown_ports_val p .hold
    exact ⟨_, _, _, _, f, n, h⟩
  · exact ⟨s.ports[p.val].link, s.ports[p.val].downCause, s.ports[p.val].rateWindow, s.ports[p.val].sending,
      s.ports[p.val].flags, s.ports[p.val].noticeOwed, rfl⟩

theorem State.feedReleased_ports_ne (p : PortId) (k : PortId) (h : k ≠ p) : (s.feedReleased p).ports[k] = s.ports[k] := by
  unfold State.feedReleased
  rw [State.holdTest_ports_ne _ _ _ h]
  simp

theorem State.feedReleased_ports_val (p : PortId) : ∃ (l : LinkState) (c : Option DownCause) (w : Option Nat)
    (x : Option Serial) (f : BitVec 3) (n : Bool), (s.feedReleased p).ports[p.val] = { s.ports[p.val] with
      link := l, downCause := c, rateWindow := w, sending := x, flags := f, noticeOwed := n } := by
  have h := (s.askIfClaimable p).holdTest_ports_val p
  simpa [State.feedReleased] using h

-- ## What a sheet event puts on the link

/-- A sheet event puts nothing on the press link but the page data of a send that it stops (R93, R183). -/
theorem State.sheetEvent_pressLog (p : PortId) (e : SendEntry) :
    (s.sheetEvent p e).pressLog = (s.stopSendOf p e).pressLog := by
  unfold State.sheetEvent
  dsimp only
  rw [(State.afterSheet_keeps _ _).part .pressLog, State.updPort_pressLog, State.updAccount_pressLog,
    State.updJob_pressLog, (State.countPage_keeps _ _).part .pressLog, State.updJob_pressLog, State.updPort_pressLog]

/-- A sheet event leaves its port with no send of its entry. -/
theorem State.sheetEvent_sending (p : PortId) (e : SendEntry) :
    (s.sheetEvent p e).ports[p.val].sending =
      if s.ports[p.val].sending = some e.serial then none else s.ports[p.val].sending := by
  unfold State.sheetEvent
  dsimp only
  rw [(State.afterSheet_keeps _ _).part .ports]
  simp only [State.updPort_ports_val]
  rw [State.updAccount_ports, State.updJob_ports, (State.countPage_keeps _ _).part .ports, State.updJob_ports]
  by_cases h : s.ports[p.val].sending = some e.serial <;> simp [Port.count, Port.dropEntry, State.stopSendOf, h]

/-- With no send in progress the sheet events of a JAM put nothing on the press link. -/
theorem State.confirm_pressLog (p : PortId) (es : List SendEntry) (h : s.ports[p.val].sending = none) :
    (s.confirm p es).pressLog = s.pressLog := by
  unfold State.confirm
  induction es generalizing s with
  | nil => rfl
  | cons e es ih =>
    rw [List.foldl_cons, ih _ (by simp [s.sheetEvent_sending, h]), s.sheetEvent_pressLog]
    simp [State.stopSendOf, h]

end Sys2Proof.Machine
end

