-- ==== Sys2Proof/Laws/Request.lean ====
section
/-! SUPPORT. What the taking of a request can do (R169): the four cases of `State.request`, the cases of the handle
checks of R2, and what each request's effect leaves unchanged. -/

set_option Elab.async false

namespace Sys2Proof.Safety

open Sys2Proof.Machine

variable {s t : State} {kind tag : Byte} {body : List Byte} {encoded : Bool} {judge : State → Judged}

theorem takes_iff : s.takes kind tag body = true ↔ Takes s kind tag body := by
  simp only [State.takes, Takes, Bool.and_eq_true, Bool.not_eq_true', decide_eq_true_eq, beq_iff_eq, and_assoc]
  exact Iff.rfl

/-- A request that is not taken changes nothing. -/
theorem request_waits (h : ¬Takes s kind tag body) : s.request kind tag body encoded judge = s := by
  simp [State.request, takes_iff, h]

theorem request_badForm (h : Takes s kind tag body) (he : encoded = false) :
    s.request kind tag body encoded judge = s.popInbox.placeReply (replyFrame kind tag .range []) := by
  simp [State.request, takes_iff, h, he]

theorem request_refused (h : Takes s kind tag body) (he : encoded = true) {c : ResultCode}
    (hj : judge s.popInbox = .refused c) :
    s.request kind tag body encoded judge = s.popInbox.placeReply (replyFrame kind tag c []) := by
  simp [State.request, takes_iff, h, he, hj]

theorem request_done (h : Takes s kind tag body) (he : encoded = true) {c : ResultCode} {fields : List Byte}
    (hj : judge s.popInbox = .done t c fields) :
    s.request kind tag body encoded judge = t.placeReply (replyFrame kind tag c fields) := by
  simp [State.request, takes_iff, h, he, hj]

/-- What a request's rule can do to the state, if it lets the request through. -/
def Judged.Keeps (parts : List Part) (s : State) : Judged → Prop
  | .refused _ => True
  | .done t _ _ => KeepsAllBut parts s t

/-- A request keeps what its rule keeps, but for the inbox and the reply queue. -/
theorem request_keeps {parts : List Part} (hi : Part.inbox ∈ parts) (hr : Part.replies ∈ parts)
    (h : ∀ u, Judged.Keeps parts u (judge u)) : KeepsAllBut parts s (s.request kind tag body encoded judge) := by
  have hpop : KeepsAllBut parts s s.popInbox :=
    s.popInbox_keeps.mono (by intro x hx; simp only [List.mem_singleton] at hx; exact hx ▸ hi)
  have hput : ∀ (u : State) (f : HostFrame), KeepsAllBut parts u (u.placeReply f) := fun u f =>
    (u.placeReply_keeps f).mono (by intro x hx; simp only [List.mem_singleton] at hx; exact hx ▸ hr)
  unfold State.request
  split
  · split
    · split
      · exact hpop.next (hput _ _)
      · rename_i hj
        have := h s.popInbox
        rw [hj] at this
        exact (hpop.next this).next (hput _ _)
    · exact hpop.next (hput _ _)
  · exact .refl _ s

theorem refuses_of_eq {c : Instr} {code : Byte} {rc : ResultCode}
    (h : exec c s = .next (s.popInbox.placeReply (replyFrame kind tag rc []))) (hc : rc.code = code) :
    Refuses c s kind tag code :=
  ⟨_, h, ⟨rfl, by subst hc; rfl⟩, (s.popInbox_keeps.trans (State.placeReply_keeps _ _)).mono⟩

/-- The reply of a request whose rule keeps the inbox and the reply queue. -/
theorem replied_of_keeps {parts : List Part} {u : State} {rc : ResultCode} {fields : List Byte}
    (h : KeepsAllBut parts s.popInbox u) (hi : Part.inbox ∉ parts := by decide) (hr : Part.replies ∉ parts := by decide) :
    Replied s (u.placeReply (replyFrame kind tag rc fields)) kind tag rc.code fields := by
  have h1 : u.inbox = s.popInbox.inbox := h .inbox hi
  have h2 : u.replies = s.popInbox.replies := h .replies hr
  exact ⟨h1, by simp [replyFrame, h2]⟩

/-- A request command that is taken and passes its checks answers the changed state with the reply. -/
theorem exec_done {c : Instr} (hc : exec c s = .next (s.request kind tag body encoded judge)) (h : Takes s kind tag body)
    (he : encoded = true) {rc : ResultCode} {fields : List Byte} (hj : judge s.popInbox = .done t rc fields) :
    exec c s = .next (t.placeReply (replyFrame kind tag rc fields)) := by
  rw [hc, request_done h he hj]

/-- A request command that is taken and passes its checks completes, with its reply and its frame. -/
theorem completes_done {c : Instr} {post : State → Prop} {parts : List Part}
    (hc : exec c s = .next (s.request kind tag body encoded judge)) (h : Takes s kind tag body) (he : encoded = true)
    {rc : ResultCode} {fields : List Byte} (hj : judge s.popInbox = .done t rc fields)
    (hk : KeepsAllBut parts s.popInbox t) (hi : Part.inbox ∉ parts) (hr : Part.replies ∉ parts)
    (hp : Replied s (t.placeReply (replyFrame kind tag rc fields)) kind tag rc.code fields →
      KeepsAllBut (.inbox :: .replies :: parts) s (t.placeReply (replyFrame kind tag rc fields)) →
      post (t.placeReply (replyFrame kind tag rc fields))) : Completes c s post := by
  refine ⟨_, exec_done hc h he hj, hp (replied_of_keeps hk hi hr) ?_⟩
  refine ((s.popInbox_keeps.trans hk).trans (State.placeReply_keeps _ _)).mono ?_
  intro x hx
  simp only [List.mem_append, List.mem_singleton] at hx
  simp only [List.mem_cons]
  tauto

/-- A request command that is taken and fails a check of its rule is refused. -/
theorem exec_refused {c : Instr} (hc : exec c s = .next (s.request kind tag body encoded judge))
    (h : Takes s kind tag body) (he : encoded = true) {rc : ResultCode} {code : Byte}
    (hj : judge s.popInbox = .refused rc) (hcode : rc.code = code := by rfl) : Refuses c s kind tag code :=
  refuses_of_eq (by rw [hc, request_refused h he hj]) hcode

/-- A request command that is taken with a badly formed body is refused RANGE. -/
theorem exec_badForm {c : Instr} (hc : exec c s = .next (s.request kind tag body encoded judge))
    (h : Takes s kind tag body) (he : encoded = false) : Refuses c s kind tag 0x05 :=
  refuses_of_eq (rc := .range) (by rw [hc, request_badForm h he]) rfl

-- ## The handle checks

theorem slotOf_eq {b : Byte} {j : SlotId} (h : b.toNat = j.val) : slotOf b = j := Fin.ext h

/-- A handle that names a job lets the request through (R2). -/
theorem withHandle_names {j : SlotId} (h : Names s (byteAt body 0) (byteAt body 1) j) (f : SlotId → Judged) :
    s.withHandle body f = f j := by
  obtain ⟨h1, h2, h3⟩ := h
  have hs := slotOf_eq h1
  simp only [State.withHandle, State.handleRefusal, hs, h2, h3, ne_eq, not_true_eq_false, if_false]

theorem handleRefusal_stale {slot generation : Byte} {j : SlotId} (hj : slot.toNat = j.val)
    (h : generation ≠ s.jobs[j].generation) : s.handleRefusal slot generation = some .stale := by
  obtain rfl := slotOf_eq hj
  simp only [State.handleRefusal, if_pos h]

theorem handleRefusal_range {slot generation : Byte} {j : SlotId} (hj : slot.toNat = j.val)
    (h : generation = s.jobs[j].generation) (hf : s.jobs[j].state = .free) :
    s.handleRefusal slot generation = some .range := by
  obtain rfl := slotOf_eq hj
  simp only [State.handleRefusal, h, hf, ne_eq, not_true_eq_false, if_false, if_true]

theorem handleRefusal_names {slot generation : Byte} {j : SlotId} (h : Names s slot generation j) :
    s.handleRefusal slot generation = none := by
  obtain ⟨h1, h2, h3⟩ := h
  have hs := slotOf_eq h1
  simp only [State.handleRefusal, hs, h2, h3, ne_eq, not_true_eq_false, if_false]

/-- A handle that the checks refuse refuses the request (R2). -/
theorem withHandle_refused {c : ResultCode} (h : s.handleRefusal (byteAt body 0) (byteAt body 1) = some c)
    (f : SlotId → Judged) : s.withHandle body f = .refused c := by
  simp only [State.withHandle, h]

-- ## Operands within their ranges

theorem queueOf_eq {b : Byte} {q : QueueId} (h : b.toNat = q.val) : queueOf b = some q := by
  unfold queueOf
  rw [dif_pos (by omega)]
  exact congrArg some (Fin.ext h)

theorem portOf_eq {b : Byte} {p : PortId} (h : b.toNat = p.val) : portOf b = some p := by
  unfold portOf
  rw [dif_pos (by omega)]
  exact congrArg some (Fin.ext h)

theorem rowOf_eq {b : Byte} {n : Fin 64} (h : b.toNat = n.val) : rowOf b = some n := by
  unfold rowOf
  rw [dif_pos (by omega)]
  exact congrArg some (Fin.ext h)

theorem accountOf_eq {b : Byte} {a : AccountId} (h : b.toNat = a.val) : accountOf b = some a := by
  unfold accountOf
  rw [dif_pos (by omega)]
  exact congrArg some (Fin.ext h)

theorem alertOf_eq {b : Byte} {a : AlertId} (h : b.toNat = a.val) : alertOf b = some a := by
  unfold alertOf
  rw [dif_pos (by omega)]
  exact congrArg some (Fin.ext h)

theorem groupOf_eq {b : Byte} {g : Fin 8} (h : b.toNat = g.val) : groupOf b = some g := by
  unfold groupOf
  rw [dif_pos (by omega)]
  exact congrArg some (Fin.ext h)

theorem mediaOf_eq {b : Byte} {m : Media} (h : b.toNat = m.val) : mediaOf b = some m := by
  unfold mediaOf
  rw [dif_pos (by omega)]
  exact congrArg some (Fin.ext h)

@[simp] theorem orRange_some {α : Type} (a : α) (f : α → Judged) : orRange (some a) f = f a := rfl

@[simp] theorem orRange_none {α : Type} (f : α → Judged) : orRange none f = .refused .range := rfl

/-- No bit from bit `n` on is set exactly when the byte is below `2 ^ n`. -/
theorem zeroFrom_iff (n : Nat) (b : Byte) : zeroFrom n b = true ↔ b.toNat < 2 ^ n := by
  have h0 : (b >>> n == 0) = true ↔ b.toNat / 2 ^ n = 0 := by
    rw [beq_iff_eq, ← BitVec.toNat_inj, BitVec.toNat_ushiftRight, Nat.shiftRight_eq_div_pow]
    exact Iff.rfl
  exact h0.trans (Nat.div_eq_zero_iff_lt (Nat.two_pow_pos n))

theorem isYesNo_iff (b : Byte) : isYesNo b = true ↔ b.toNat < 2 := by
  simp only [isYesNo, decide_eq_true_eq]
  omega

theorem sized_iff (n : Nat) : sized n body = true ↔ body.length = n := by simp [sized]

-- ## A well formed body passes step 2 of R169

theorem admitOk_of (h : ¬badForm 0x01 body) : admitOk body = true := by
  simp [badForm, bodyBits, bodySize] at h
  simp [admitOk, sized_iff, marksOk, zeroFrom_iff, h]

theorem pageDataOk_of (h : ¬badForm 0x02 body) : pageDataOk body = true := by
  simp [badForm, bodyBits] at h
  simp [pageDataOk, zeroFrom_iff, h]

theorem queueOptionsOk_of (h : ¬badForm 0x12 body) : queueOptionsOk body = true := by
  simp [badForm, bodyBits, bodySize] at h
  simp [queueOptionsOk, sized_iff, zeroFrom_iff, h]

theorem portServiceOk_of (h : ¬badForm 0x30 body) : portServiceOk body = true := by
  simp [badForm, bodyBits, bodySize] at h
  simp [portServiceOk, sized_iff, isYesNo_iff, h]

theorem portMetersOk_of (h : ¬badForm 0x32 body) : portMetersOk body = true := by
  simp [badForm, bodyBits, bodySize] at h
  simp [portMetersOk, sized_iff, isYesNo_iff, h]

theorem tariffWriteOk_of (h : ¬badForm 0x40 body) : tariffWriteOk body = true := by
  simp [badForm, bodyBits, bodySize] at h
  simp [tariffWriteOk, sized_iff, isYesNo_iff, h]

theorem accountSetOk_of (h : ¬badForm 0x50 body) : accountSetOk body = true := by
  simp [badForm, bodyBits, bodySize] at h
  simp [accountSetOk, sized_iff, zeroFrom_iff, h]

theorem withHandle_keeps {parts : List Part} {f : SlotId → Judged} (h : ∀ j, Judged.Keeps parts s (f j)) :
    Judged.Keeps parts s (s.withHandle body f) := by
  unfold State.withHandle
  split
  · trivial
  · exact h _

theorem orRange_keeps {parts : List Part} {α : Type} {x : Option α} {f : α → Judged}
    (h : ∀ a, Judged.Keeps parts s (f a)) : Judged.Keeps parts s (orRange x f) := by
  unfold orRange
  split
  · trivial
  · exact h _

end Sys2Proof.Safety
end

