-- ==== Sys2Proof/Laws/Effects.lean ====
section
/-! SUPPORT. What each command's effect leaves unchanged: one frame lemma for each request's rule and for each event. -/

set_option Elab.async false

namespace Sys2Proof.Machine

open Sys2Proof.Safety

variable (s : State) (body : List Byte)

/-- A rule that answers a changed state keeps what the change keeps. -/
theorem keeps_ok {parts : List Part} {t : State} {fields : List Byte} (h : KeepsAllBut parts s t) :
    Judged.Keeps parts s (ok t fields) := h

-- ## The Job Table's requests

theorem State.admitJob_keeps (j : SlotId) (q : QueueId) (a : AccountId) :
    KeepsAllBut [.jobs, .queues, .passInProgress, .passOwed] s (s.admitJob j q a body) :=
  (((s.updQueue_keeps _ _).trans (State.updJob_keeps _ _ _)).trans (State.askIfRun_keeps _ _)).mono

theorem judgeAdmit_keeps : Judged.Keeps [.jobs, .queues, .passInProgress, .passOwed] s (judgeAdmit body s) := by
  unfold judgeAdmit
  split
  · trivial
  · refine orRange_keeps fun q => ?_
    split
    · trivial
    · split
      · trivial
      · repeat' split
        all_goals first | trivial | exact s.admitJob_keeps body _ _ _

theorem State.afterSeal_keeps (j : SlotId) :
    KeepsAllBut [.jobs, .ports, .accounts, .pressLog, .notices, .passInProgress, .passOwed] s (s.afterSeal j) := by
  unfold State.afterSeal
  split
  · exact s.wake_keeps j
  · split
    · exact .refl _ s
    · exact s.offerAttempt_keeps _
  · exact (s.askIfRun_keeps _).mono
  · exact .refl _ s

theorem State.pageData_keeps (j : SlotId) (r : RecordId) (first last : Bool) (attr : Byte) (data : List Byte) :
    KeepsAllBut [.jobs, .pages, .freePool, .dram, .ports, .accounts, .pressLog, .notices, .passInProgress, .passOwed]
      s (s.pageData j r first last attr data) := by
  have h1 : KeepsAllBut [.jobs, .pages, .freePool, .dram] s
      ((if first then s.beginPage j r attr else s).appendData r data) :=
    (KeepsAllBut.trans (.ite (c := first = true) (s.beginPage_keeps j r attr) (.refl _ s))
      (State.appendData_keeps _ r data)).mono
  unfold State.pageData
  exact .ite ((h1.trans (State.sealPage_keeps _ j r)).trans (State.afterSeal_keeps _ j)).mono h1.mono

theorem State.judgeData_keeps (j : SlotId) (r : RecordId) (first last : Bool) (attr : Byte) (data : List Byte)
    (old chained : Nat) : Judged.Keeps
      [.jobs, .pages, .freePool, .dram, .ports, .accounts, .pressLog, .notices, .passInProgress, .passOwed] s
      (s.judgeData j r first last attr data old chained) := by
  unfold State.judgeData
  repeat' split
  all_goals first | trivial | exact s.pageData_keeps _ _ _ _ _ _

theorem judgePageData_keeps : Judged.Keeps
    [.jobs, .pages, .freePool, .dram, .ports, .accounts, .pressLog, .notices, .passInProgress, .passOwed] s
    (judgePageData body s) := by
  refine withHandle_keeps fun j => ?_
  dsimp only
  split
  · exact True.intro
  split
  · exact True.intro
  split
  · exact True.intro
  split
  · exact True.intro
  split
  · exact s.judgeData_keeps _ _ _ _ _ _ _ _
  split
  · exact True.intro
  · exact s.judgeData_keeps _ _ _ _ _ _ _ _

theorem State.discardPage_keeps (j : SlotId) (r : RecordId) :
    KeepsAllBut [.jobs, .pages, .freePool] s (s.discardPage j r) :=
  ((s.freePage_keeps r).trans (State.updJob_keeps _ _ _)).mono

theorem judgePageDiscard_keeps : Judged.Keeps [.jobs, .pages, .freePool] s (judgePageDiscard body s) := by
  refine withHandle_keeps fun j => ?_
  split
  · exact True.intro
  · split
    · exact True.intro
    · exact keeps_ok s (s.discardPage_keeps _ _)

theorem State.freeSheeted_keeps (j : SlotId) : KeepsAllBut [.jobs, .pages, .freePool] s (s.freeSheeted j) :=
  .foldl (fun t _ => .ite (t.freePlace_keeps _ _) (.refl _ t)) _ s

theorem State.closeJob_keeps (j : SlotId) : KeepsAllBut
    [.jobs, .pages, .freePool, .ports, .accounts, .pressLog, .queues, .markLine, .notices, .passInProgress, .passOwed] s
    (s.closeJob j) := by
  have h := (((s.updJob_keeps j Job.close).trans (State.wake_keeps _ j)).trans (State.freeSheeted_keeps _ j)).trans
    (State.handedTest_keeps _ j)
  unfold State.closeJob
  exact .ite (h.trans (State.askIfRun_keeps _ _)).mono h.mono

theorem judgeCloseJob_keeps : Judged.Keeps
    [.jobs, .pages, .freePool, .ports, .accounts, .pressLog, .queues, .markLine, .notices, .passInProgress, .passOwed] s
    (judgeCloseJob body s) := by
  refine withHandle_keeps fun j => ?_
  repeat' split
  all_goals first | trivial | exact s.closeJob_keeps _

theorem judgeCancelJob_keeps : Judged.Keeps
    [.jobs, .ports, .pressLog, .notices, .passInProgress, .passOwed] s (judgeCancelJob body s) := by
  refine withHandle_keeps fun j => ?_
  repeat' split
  all_goals first | trivial | exact s.cancelJob_keeps _

theorem State.moveJob_keeps (j : SlotId) (q : QueueId) (pos : Position) :
    KeepsAllBut [.jobs, .queues, .passInProgress, .passOwed] s (s.moveJob j q pos) :=
  ((((s.updQueue_keeps _ _).trans (State.updQueue_keeps _ _ _)).trans (State.updJob_keeps _ _ _)).trans
    (State.askIfRun_keeps _ _)).mono

theorem State.judgeMove_keeps {parts : List Part} {position : Judged} (j : SlotId) (q : QueueId)
    (h : Judged.Keeps parts s position) : Judged.Keeps parts s (s.judgeMove j q position) := by
  unfold State.judgeMove
  repeat' split
  all_goals trivial

/-- The checks of MOVE_JOB on the job and the target queue pass (R20 steps 3 to 5). -/
theorem State.judgeMove_passes {j : SlotId} {q : QueueId} (position : Judged) (hw : s.jobs[j].state = .waiting)
    (hm : s.queues[q].mode ≠ .disabled) (hs : hasBit s.jobs[j].waitSet q.val = false) :
    s.judgeMove j q position = position := by
  rw [State.judgeMove, if_neg (not_not.2 hw), if_neg hm, if_neg (by rw [hs]; decide)]

theorem State.judgeAfter_keeps (j : SlotId) (q : QueueId) (slot generation : Byte) :
    Judged.Keeps [.jobs, .queues, .passInProgress, .passOwed] s (s.judgeAfter j q slot generation) := by
  unfold State.judgeAfter
  repeat' split
  all_goals first | trivial | exact s.moveJob_keeps _ _ _

theorem judgeMoveJob_keeps : Judged.Keeps [.jobs, .queues, .passInProgress, .passOwed] s (judgeMoveJob body s) := by
  refine withHandle_keeps fun j => orRange_keeps fun q => ?_
  repeat' split
  all_goals first
    | trivial
    | exact s.judgeMove_keeps _ _ (s.moveJob_keeps _ _ _)
    | exact s.judgeMove_keeps _ _ (s.judgeAfter_keeps _ _ _ _)

theorem judgeRetryJob_keeps : Judged.Keeps [.jobs, .passInProgress, .passOwed] s (judgeRetryJob body s) := by
  refine withHandle_keeps fun j => ?_
  repeat' split
  all_goals first | trivial | exact s.makeWaiting_keeps _ _

theorem judgeQueryJob_keeps : Judged.Keeps [] s (judgeQueryJob body s) :=
  withHandle_keeps fun _ => KeepsAllBut.refl _ s

-- ## The Queue Controller's requests

theorem State.haltJob_keeps (j : SlotId) : KeepsAllBut
    [.jobs, .ports, .pressLog, .notices, .passInProgress, .passOwed] s (s.haltJob j) := by
  unfold State.haltJob
  refine .ite ?_ (.refl _ s)
  dsimp only
  split
  · exact (s.updJob_keeps _ _).mono
  · exact ((((s.updJob_keeps _ _).trans (State.releaseFeed_keeps _ _ _)).trans (State.abortStreaming_keeps _ _)).trans
      (State.feedReleased_keeps _ _)).mono

theorem State.enterHalt_keeps (q : QueueId) : KeepsAllBut
    [.queues, .jobs, .ports, .pressLog, .notices, .passInProgress, .passOwed] s (s.enterHalt q) :=
  (s.updQueue_keeps _ _).trans (.foldl (fun t j => t.haltJob_keeps j) _ _)

theorem State.enterRun_keeps (q : QueueId) :
    KeepsAllBut [.queues, .passInProgress, .passOwed] s (s.enterRun q) :=
  ((s.updQueue_keeps _ _).trans (State.ask_keeps _)).mono

theorem State.changeMode_keeps (q : QueueId) (m : QueueMode) : Judged.Keeps
    [.queues, .jobs, .ports, .pressLog, .notices, .passInProgress, .passOwed] s (s.changeMode q m) := by
  unfold State.changeMode
  repeat' split
  all_goals first
    | trivial
    | exact (s.updQueue_keeps _ _).mono
    | exact (s.enterRun_keeps _).mono
    | exact s.enterHalt_keeps _
    | exact KeepsAllBut.refl _ s

theorem judgeQueueMode_keeps : Judged.Keeps
    [.queues, .jobs, .ports, .pressLog, .notices, .passInProgress, .passOwed] s (judgeQueueMode body s) :=
  orRange_keeps fun _ => orRange_keeps fun _ => s.changeMode_keeps _ _

theorem State.writeDispatch_keeps (q : QueueId) (d : DispatchState) :
    KeepsAllBut [.queues, .proposals, .passInProgress, .passOwed] s (s.writeDispatch q d) :=
  (((s.updQueue_keeps _ _).trans (State.markWritten_keeps _ _)).trans (State.askIfRun_keeps _ _)).mono

theorem judgeQueueDispatch_keeps :
    Judged.Keeps [.queues, .proposals, .passInProgress, .passOwed] s (judgeQueueDispatch body s) :=
  orRange_keeps fun _ => orRange_keeps fun _ => s.writeDispatch_keeps _ _

theorem State.writeOptions_keeps (q : QueueId) (rotate reroute : Bool) :
    KeepsAllBut [.queues, .proposals, .passInProgress, .passOwed] s (s.writeOptions q rotate reroute) :=
  (((s.updQueue_keeps _ _).trans (State.markWritten_keeps _ _)).trans (State.askIfRun_keeps _ _)).mono

theorem judgeQueueOptions_keeps :
    Judged.Keeps [.queues, .proposals, .passInProgress, .passOwed] s (judgeQueueOptions body s) :=
  orRange_keeps fun _ => s.writeOptions_keeps _ _ _

theorem judgeMark_keeps : Judged.Keeps [.queues, .passInProgress, .passOwed] s (judgeMark body s) := by
  refine orRange_keeps fun q => orRange_keeps fun m => ?_
  repeat' split
  all_goals first | trivial | exact s.giveMark_keeps _ _

theorem judgeQueryQueue_keeps : Judged.Keeps [] s (judgeQueryQueue body s) :=
  orRange_keeps fun _ => KeepsAllBut.refl _ s

-- ## The Route Table's requests

theorem State.writeRow_keeps (n : Fin 64) (f : PortSet → PortSet) :
    KeepsAllBut [.rows, .passInProgress, .passOwed] s (s.writeRow n f) := by
  refine KeepsAllBut.mono (.trans (a := [.rows]) ?_ (State.ask_keeps _))
  intro x hx
  cases x <;> first | rfl | simp at hx

theorem judgeRowWrite_keeps : Judged.Keeps [.rows, .passInProgress, .passOwed] s (judgeRowWrite body s) :=
  orRange_keeps fun _ => s.writeRow_keeps _ _

theorem judgeMemberSet_keeps : Judged.Keeps [.rows, .passInProgress, .passOwed] s (judgeMemberSet body s) :=
  orRange_keeps fun _ => orRange_keeps fun _ => s.writeRow_keeps _ _

theorem judgeMemberClear_keeps : Judged.Keeps [.rows, .passInProgress, .passOwed] s (judgeMemberClear body s) :=
  orRange_keeps fun _ => orRange_keeps fun _ => s.writeRow_keeps _ _

theorem State.writeRing_keeps (q : QueueId) (r : Ring) :
    KeepsAllBut [.rings, .proposals, .passInProgress, .passOwed] s (s.writeRing q r) :=
  (((s.updRing_keeps _ _).trans (State.markWritten_keeps _ _)).trans (State.ask_keeps _)).mono

theorem judgeRouteSet_keeps :
    Judged.Keeps [.rings, .proposals, .passInProgress, .passOwed] s (judgeRouteSet body s) := by
  refine orRange_keeps fun q => orRange_keeps fun r => ?_
  split
  · exact s.writeRing_keeps _ _
  · trivial

theorem judgeRouteStep_keeps :
    Judged.Keeps [.rings, .proposals, .passInProgress, .passOwed] s (judgeRouteStep body s) :=
  orRange_keeps fun _ => orRange_keeps fun _ => s.writeRing_keeps _ _

-- ## The Press Ports' requests

theorem State.serviceRelease_keeps (p : PortId) (j : SlotId) :
    KeepsAllBut [.jobs, .ports, .notices, .passInProgress, .passOwed] s (s.serviceRelease p j) :=
  (((s.releaseFeed_keeps _ _).trans (State.makeWaiting_keeps _ _ _)).trans (State.feedReleased_keeps _ _)).mono

theorem State.serviceOut_keeps (p : PortId) (hold : Bool) :
    KeepsAllBut [.jobs, .ports, .notices, .passInProgress, .passOwed] s (s.serviceOut p hold) := by
  have h1 : KeepsAllBut [.jobs, .ports, .notices, .passInProgress, .passOwed] s
      (s.updPort p (fun x => { x with inService := false, holdAsked := hold })) := (s.updPort_keeps _ _).mono
  unfold State.serviceOut
  dsimp only
  split
  · exact h1.next (State.holdTest_keeps _ _).mono
  · split
    · exact (h1.next (State.updPort_keeps _ _ _).mono).next (State.holdTest_keeps _ _).mono
    · exact (h1.next (State.serviceRelease_keeps _ _ _)).next (State.holdTest_keeps _ _).mono

theorem State.serviceIn_keeps (p : PortId) :
    KeepsAllBut [.jobs, .ports, .accounts, .pressLog, .notices, .passInProgress, .passOwed] s (s.serviceIn p) := by
  have h1 : KeepsAllBut [.jobs, .ports, .accounts, .pressLog, .notices, .passInProgress, .passOwed] s
      (s.updPort p (fun x => { x with inService := true, holdAsked := false, releaseOwed := false })) :=
    (s.updPort_keeps _ _).mono
  unfold State.serviceIn
  refine .ite (.refl _ s) ?_
  dsimp only
  refine KeepsAllBut.next (KeepsAllBut.next (KeepsAllBut.ite ?_ h1) (State.offerAttempt_keeps _ _))
    (State.askIfBecame_keeps _ _ _).mono
  exact h1.next (State.enterProbing_keeps _ _).mono

theorem judgePortService_keeps : Judged.Keeps
    [.jobs, .ports, .accounts, .pressLog, .notices, .passInProgress, .passOwed] s (judgePortService body s) := by
  refine orRange_keeps fun p => ?_
  dsimp only
  repeat' split
  all_goals first | trivial | exact (s.serviceOut_keeps _ _).mono | exact s.serviceIn_keeps _

theorem State.resetJob_keeps (j : SlotId) :
    KeepsAllBut [.jobs, .notices, .passInProgress, .passOwed] s (s.resetJob j) := by
  unfold State.resetJob
  split
  · exact (s.makeWaiting_keeps _ _).mono
  · exact (s.makeWaiting_keeps _ _).mono
  · exact .ite (.refl _ s) (s.flagJob_keeps _ _).mono
  · exact .refl _ s

theorem State.resetWindow_keeps (p : PortId) : KeepsAllBut
    [.jobs, .ports, .accounts, .alerts, .openAlerts, .notices, .passInProgress, .passOwed, .pressLog] s
    (s.resetWindow p) := by
  have h1 : KeepsAllBut
      [.jobs, .ports, .accounts, .alerts, .openAlerts, .notices, .passInProgress, .passOwed, .pressLog] s
      ((s.stopSend p).endSetup p) :=
    ((s.stopSend_keeps _).trans (State.endSetup_keeps _ _)).mono
  exact (h1.next (State.settleWindow_keeps _ p).mono).next (.foldl (fun t j => (t.rewindTo_keeps j _).mono) _ _)

theorem State.resetJobs_keeps (p : PortId) (es : List SendEntry) (owner : Option SlotId) :
    KeepsAllBut [.jobs, .ports, .notices, .passInProgress, .passOwed] s (s.resetJobs p es owner) := by
  unfold State.resetJobs
  dsimp only
  split
  · exact .foldl (fun t j => (t.resetJob_keeps j).mono) _ _
  · exact (s.serviceRelease_keeps _ _).next (.foldl (fun t j => (t.resetJob_keeps j).mono) _ _)

theorem State.portReset_keeps (p : PortId) : KeepsAllBut
    [.jobs, .ports, .accounts, .alerts, .openAlerts, .notices, .passInProgress, .passOwed, .pressLog] s
    (s.portReset p) :=
  ((((s.resetWindow_keeps p).trans (State.resetJobs_keeps _ _ _ _)).trans (State.updPort_keeps _ _ _)).trans
    (State.enterProbing_keeps _ _)).mono

theorem judgePortReset_keeps : Judged.Keeps
    [.jobs, .ports, .accounts, .alerts, .openAlerts, .notices, .passInProgress, .passOwed, .pressLog] s
    (judgePortReset body s) :=
  orRange_keeps fun _ => s.portReset_keeps _

theorem State.closeMeters_keeps (p : PortId) (close : Bool) : KeepsAllBut [.ports] s (s.closeMeters p close) :=
  .ite (s.updPort_keeps _ _) (.refl _ s)

theorem judgePortMeters_keeps : Judged.Keeps [.ports] s (judgePortMeters body s) :=
  orRange_keeps fun _ => s.closeMeters_keeps _ _

theorem judgeQueryPort_keeps : Judged.Keeps [] s (judgeQueryPort body s) :=
  orRange_keeps fun _ => KeepsAllBut.refl _ s

-- ## The Meter Unit's and the Account Table's requests

theorem judgeTariffWrite_keeps : Judged.Keeps [.tariffs] s (judgeTariffWrite body s) := by
  refine orRange_keeps fun g => orRange_keeps fun item => ?_
  dsimp only
  repeat' split
  all_goals first | trivial | exact s.updTariff_keeps _ _

theorem judgeTariffRead_keeps : Judged.Keeps [] s (judgeTariffRead body s) :=
  orRange_keeps fun _ => orRange_keeps fun _ => KeepsAllBut.refl _ s

theorem State.writeAccount_keeps (a : AccountId) (f : Account → Account) :
    KeepsAllBut [.accounts, .passInProgress, .passOwed] s (s.writeAccount a f) := by
  unfold State.writeAccount
  exact .ite ((s.updAccount_keeps _ _).trans (State.askIfAnyRun_keeps _)).mono (s.updAccount_keeps _ _).mono

theorem judgeAccountSet_keeps :
    Judged.Keeps [.accounts, .passInProgress, .passOwed] s (judgeAccountSet body s) := by
  refine orRange_keeps fun a => orRange_keeps fun g => ?_
  split
  · trivial
  · exact s.writeAccount_keeps _ _

theorem judgeAccountCredit_keeps :
    Judged.Keeps [.accounts, .passInProgress, .passOwed] s (judgeAccountCredit body s) :=
  orRange_keeps fun _ => s.writeAccount_keeps _ _

theorem judgeAccountClose_keeps : Judged.Keeps [.accounts] s (judgeAccountClose body s) :=
  orRange_keeps fun _ => s.updAccount_keeps _ _

theorem judgeQueryAccount_keeps : Judged.Keeps [] s (judgeQueryAccount body s) :=
  orRange_keeps fun _ => KeepsAllBut.refl _ s

-- ## The Alert Unit's and the Part's requests

theorem judgeAlertAck_keeps : Judged.Keeps [.alerts] s (judgeAlertAck body s) := by
  refine orRange_keeps fun a => ?_
  split
  · exact s.updAlert_keeps _ _
  · trivial

theorem State.hostRelease_keeps (p : PortId) :
    KeepsAllBut [.alerts, .notices, .openAlerts, .jobs, .passInProgress, .passOwed] s (s.hostRelease p) :=
  .ite ((s.updAlert_keeps _ _).trans (State.closeStop_keeps _ _)).mono (s.updAlert_keeps _ _).mono

theorem judgeAlertRelease_keeps :
    Judged.Keeps [.alerts, .notices, .openAlerts, .jobs, .passInProgress, .passOwed] s (judgeAlertRelease body s) := by
  refine orRange_keeps fun a => ?_
  split
  · exact s.hostRelease_keeps _
  · trivial

theorem judgeQueryAlerts_keeps : Judged.Keeps [.freeCount] s (judgeQueryAlerts s) := by
  intro x hx
  cases x <;> first | rfl | simp at hx

theorem judgeSetTimers_keeps : Judged.Keeps [.timers] s (judgeSetTimers body s) := by
  intro x hx
  cases x <;> first | rfl | simp at hx

theorem State.restart_keeps : KeepsAllBut [.restarting, .inbox] s s.restart := by
  intro x hx
  cases x <;> first | rfl | simp at hx

end Sys2Proof.Machine
end

