-- ==== Sys2Proof/Laws/HostLink.lean ====
section
/-! SUPPORT. What a frame boundary does in each of its cases (R171, R173), the lengths of the notices (11.5), and what
the frame checker makes of a run of bytes (R166). -/

set_option Elab.async false

namespace Sys2Proof.Machine

open Sys2Proof.Safety

variable (s : State)

-- ## Frame boundaries

/-- FRAME_BOUNDARY at a boundary that is not the end of the START notice or of a RESTART's reply. -/
theorem exec_frameBoundary (h : s.startInterval = true → s.onLink = none) (h2 : s.replies ≠ [] ∨ s.restarting = false) :
    exec .frameBoundary s = .next s.boundary := by
  have a : s.startOnLink = false := by
    unfold State.startOnLink
    cases hs : s.startInterval
    · rfl
    · rw [h hs]; rfl
  have b : s.restartOnLink = false := by
    unfold State.restartOnLink
    rcases h2 with h2 | h2
    · cases hr : s.replies
      · exact absurd hr h2
      · simp
    · simp [h2]
  simp [exec, execFrameBoundary, a, b]

theorem boundary_reply {f : HostFrame} {rest : List HostFrame} (h : s.replies = f :: rest) :
    s.boundary = { s with replies := rest, onLink := some f } := by
  simp [State.boundary, h]

theorem boundary_idle (h : s.replies = []) (hn : s.notices = []) : s.boundary = { s with onLink := none } := by
  simp [State.boundary, h, hn]

theorem boundary_notice {src : Source} {rest : List Source} (h : s.replies = []) (hR : s.restarting = false)
    (hn : s.notices = src :: rest) :
    s.boundary = State.reported src { s with notices := rest, onLink := some (s.notice src) } := by
  unfold State.boundary
  rw [h]
  dsimp only
  rw [if_neg (by rw [hR]; decide), hn]

-- ## The lengths of notices

theorem jobNotice_length (j : SlotId) (r : Byte) : (s.jobNotice j r).length = 35 := by
  simp [State.jobNotice, beBytes, tickBytes, chargeBytes, bcdBytes]

theorem alertBytes_length (a : AlertId) (flags : Byte) :
    (s.alertBytes a flags).length = 15 + 2 * s.alerts[a].affected.length := by
  have h : ∀ l : List Handle, (l.flatMap (fun h => [u8 h.slot.val, h.generation])).length = 2 * l.length := by
    intro l
    induction l with
    | nil => rfl
    | cons a l ih => simp only [List.flatMap_cons, List.length_append, ih, List.length_cons, List.length_nil]; omega
  simp only [State.alertBytes, List.length_append, h]
  simp [tickBytes, beBytes]

theorem portNotice_length (p : PortId) : (s.portNotice p).length = 13 := by
  simp only [State.portNotice, List.length_append]
  cases s.ports[p].ident <;> rfl

theorem startNotice_length : s.startNotice.length = 31 := rfl

-- ## The frame checker

theorem hostBytes_append (a b : List Byte) : s.hostBytes (a ++ b) = (s.hostBytes a).hostBytes b := by
  simp [State.hostBytes]

theorem hostBytes_cons (b : Byte) (rest : List Byte) : s.hostBytes (b :: rest) = (s.hostByte b).hostBytes rest := rfl

/-- While hunting, bytes other than the start byte change nothing (R166). -/
theorem hostBytes_junk {junk : List Byte} (hc : s.checker.phase = .hunting) (hj : 0x5A ∉ junk) :
    s.hostBytes junk = s := by
  induction junk with
  | nil => rfl
  | cons b rest ih =>
    rw [List.mem_cons, not_or] at hj
    have h1 : s.hostByte b = s := by
      simp only [State.hostByte, Checker.read, hc]
      rw [if_neg (fun e => hj.1 e.symm)]
    rw [hostBytes_cons, h1, ih hj.2]

theorem hostByte_quiet {c : Checker} {b : Byte} (h : s.checker.read hostShape b = (c, none)) :
    s.hostByte b = { s with checker := c } := by
  simp only [State.hostByte, h]

theorem hostByte_event {c : Checker} {b : Byte} {e : CheckerEvent} (h : s.checker.read hostShape b = (c, some e)) :
    s.hostByte b = State.checkerEvent e { s with checker := c } := by
  simp only [State.hostByte, h]

theorem read_start {c : Checker} (h : c.phase = .hunting) :
    c.read hostShape 0x5A = ({ phase := .length, got := [] }, none) := by
  simp only [Checker.read, h]
  exact if_pos rfl

theorem read_length1 (b : Byte) :
    Checker.read hostShape { phase := .length, got := [] } b = ({ phase := .length, got := [b] }, none) := rfl

theorem read_length2 (a b : Byte) (h2 : 2 ≤ beValue [a, b]) (h3 : beValue [a, b] ≤ 4106) :
    Checker.read hostShape { phase := .length, got := [a] } b = ({ phase := .body, got := [a, b] }, none) := by
  have hbad : (decide (beValue [a, b] < 2) || decide (4106 < beValue [a, b])) = false := by
    simp only [Bool.or_eq_false_iff, decide_eq_false_iff_not]
    omega
  exact if_neg (c := (beValue [a, b] < hostShape.minLength || hostShape.maxLength < beValue [a, b]) = true)
    (fun e => Bool.false_ne_true (hbad.symm.trans e))

theorem read_impossible (a b : Byte) (h : beValue [a, b] < 2 ∨ 4106 < beValue [a, b]) :
    Checker.read hostShape { phase := .length, got := [a] } b = (.hunt, some .impossibleLength) := by
  have hbad : (decide (beValue [a, b] < 2) || decide (4106 < beValue [a, b])) = true := by
    simp only [Bool.or_eq_true, decide_eq_true_eq]
    omega
  exact if_pos (c := (beValue [a, b] < hostShape.minLength || hostShape.maxLength < beValue [a, b]) = true) hbad

/-- A start byte and the two bytes of a possible length bring the checker into the body (R166). -/
theorem hostBytes_header {l1 l2 : Byte} (hc : s.checker.phase = .hunting) (h2 : 2 ≤ beValue [l1, l2])
    (h3 : beValue [l1, l2] ≤ 4106) :
    s.hostBytes [0x5A, l1, l2] = { s with checker := { phase := .body, got := [l1, l2] } } := by
  have e1 := hostByte_quiet s (read_start hc)
  have e2 := hostByte_quiet { s with checker := { phase := .length, got := [] } } (read_length1 l1)
  have e3 := hostByte_quiet { s with checker := { phase := .length, got := [l1] } } (read_length2 l1 l2 h2 h3)
  rw [hostBytes_cons, hostBytes_cons, hostBytes_cons, e1, e2, e3]
  rfl

/-- An impossible length ends the frame at once (R166). -/
theorem hostBytes_impossible {l1 l2 : Byte} (hc : s.checker = .hunt) (h : beValue [l1, l2] < 2 ∨ 4106 < beValue [l1, l2]) :
    s.hostBytes [0x5A, l1, l2] = s.checkerEvent .impossibleLength := by
  have e1 := hostByte_quiet s (read_start (c := s.checker) (by rw [hc]; rfl))
  have e2 := hostByte_quiet { s with checker := { phase := .length, got := [] } } (read_length1 l1)
  have e3 := hostByte_event { s with checker := { phase := .length, got := [l1] } } (read_impossible l1 l2 h)
  rw [hostBytes_cons, hostBytes_cons, hostBytes_cons, e1, e2, e3, ← hc]
  rfl

/-- The bytes of a body and its check but the last one are kept (R166). -/
theorem hostBytes_body {got rest : List Byte} (hc : s.checker = { phase := .body, got := got }) (h : 2 ≤ got.length)
    (hl : got.length + rest.length < 2 + beValue (got.take 2) + 2) :
    s.hostBytes rest = { s with checker := { phase := .body, got := got ++ rest } } := by
  induction rest generalizing s got with
  | nil => simp [State.hostBytes, ← hc]
  | cons b rest ih =>
    have hlen : rest.length + 1 + got.length < 2 + beValue (got.take 2) + 2 := by simpa [Nat.add_comm] using hl
    have ht : (got ++ [b]).take 2 = got.take 2 := List.take_append_of_le_length h
    have h1 : s.hostByte b = { s with checker := { phase := .body, got := got ++ [b] } } := by
      simp only [State.hostByte, Checker.read, hc, ht]
      rw [if_pos (by simp only [List.length_append, List.length_singleton]; omega)]
    rw [hostBytes_cons, h1, ih (got := got ++ [b]) _ rfl (by simp; omega) (by
      rw [ht]
      simp only [List.length_append, List.length_singleton]
      omega)]
    simp

/-- The last byte of a frame: it has arrived when the check agrees, and it is broken when it does not (R166). -/
theorem hostByte_last {got : List Byte} {b : Byte} (hc : s.checker = { phase := .body, got := got }) (h : 2 ≤ got.length)
    (hl : got.length + 1 = 2 + beValue (got.take 2) + 2) :
    s.hostByte b =
      if crc16 (got.take (2 + beValue (got.take 2))) =
          BitVec.ofNat 16 (beValue ((got ++ [b]).drop (2 + beValue (got.take 2)))) then
        State.checkerEvent (.arrived ((got.take (2 + beValue (got.take 2))).drop 2)) { s with checker := .hunt }
      else State.checkerEvent .badCheck { s with checker := .hunt } := by
  have ht : (got ++ [b]).take 2 = got.take 2 := List.take_append_of_le_length h
  have ht2 : (got ++ [b]).take (2 + beValue (got.take 2)) = got.take (2 + beValue (got.take 2)) :=
    List.take_append_of_le_length (by omega)
  have hr : s.checker.read hostShape b =
      if crc16 (got.take (2 + beValue (got.take 2))) =
          BitVec.ofNat 16 (beValue ((got ++ [b]).drop (2 + beValue (got.take 2)))) then
        (.hunt, some (.arrived ((got.take (2 + beValue (got.take 2))).drop 2)))
      else (.hunt, some .badCheck) := by
    simp only [Checker.read, hc, ht, ht2]
    rw [if_neg (by simp only [List.length_append, List.length_singleton]; omega)]
  by_cases hcrc : crc16 (got.take (2 + beValue (got.take 2))) =
      BitVec.ofNat 16 (beValue ((got ++ [b]).drop (2 + beValue (got.take 2))))
  · rw [if_pos hcrc] at hr ⊢
    exact hostByte_event s hr
  · rw [if_neg hcrc] at hr ⊢
    exact hostByte_event s hr

/-- A whole frame of a possible length, read by a hunting checker (R166). -/
theorem hostBytes_frame {l1 l2 : Byte} {rest : List Byte} (hc : s.checker = .hunt) (h2 : 2 ≤ beValue [l1, l2])
    (h3 : beValue [l1, l2] ≤ 4106) (hl : rest.length = beValue [l1, l2] + 2) :
    s.hostBytes (0x5A :: l1 :: l2 :: rest) =
      if crc16 (l1 :: l2 :: rest.take (beValue [l1, l2])) = BitVec.ofNat 16 (beValue (rest.drop (beValue [l1, l2]))) then
        s.checkerEvent (.arrived (rest.take (beValue [l1, l2])))
      else s.checkerEvent .badCheck := by
  obtain ⟨init, b, rfl⟩ : ∃ init b, rest = init ++ [b] :=
    ⟨rest.dropLast, rest.getLast (by intro e; simp [e] at hl), (List.dropLast_concat_getLast _).symm⟩
  simp only [List.length_append, List.length_singleton] at hl
  have hs : { s with checker := Checker.hunt } = s := by rw [← hc]
  have e1 : (0x5A :: l1 :: l2 :: (init ++ [b]) : List Byte) = [0x5A, l1, l2] ++ init ++ [b] := by simp
  have hb := hostBytes_body { s with checker := { phase := .body, got := [l1, l2] } } (rest := init) rfl (Nat.le_refl 2)
    (show 2 + init.length < 2 + beValue [l1, l2] + 2 by omega)
  have hlast := hostByte_last { s with checker := { phase := .body, got := [l1, l2] ++ init } } (b := b) rfl
    (by simp) (show ([l1, l2] ++ init).length + 1 = 2 + beValue [l1, l2] + 2 by simp; omega)
  have e2 : ∀ t : State, t.hostBytes [b] = t.hostByte b := fun _ => rfl
  rw [e1, hostBytes_append, hostBytes_append, hostBytes_header s (by rw [hc]; rfl) h2 h3, hb, e2, hlast]
  have ht : (init ++ [b]).take (beValue [l1, l2]) = init.take (beValue [l1, l2]) :=
    List.take_append_of_le_length (by omega)
  simp only [List.cons_append, List.nil_append, List.take_succ_cons, List.take_zero, Nat.add_comm 2, List.drop_succ_cons,
    List.drop_zero, ht, hs]

end Sys2Proof.Machine
end

