-- ==== Sys2Proof/Laws/Events.lean ====
section
/-! SUPPORT. What each event's effect leaves unchanged: the host link's, the timers', the finishing line's and the
printers' messages. -/

set_option Elab.async false

namespace Sys2Proof.Machine

open Sys2Proof.Safety

variable (s : State)

-- ## The host link

theorem State.placeIfRoom_keeps (f : HostFrame) : KeepsAllBut [.replies] s (s.placeIfRoom f) :=
  .ite (s.placeReply_keeps f) (.refl _ s)

theorem State.arrive_keeps (kind tag : Byte) (body : List Byte) :
    KeepsAllBut [.inbox, .replies] s (s.arrive kind tag body) := by
  refine .ite ?_ (s.placeIfRoom_keeps _).mono
  intro x hx
  cases x <;> first | rfl | simp at hx

theorem State.checkerEvent_keeps (e : CheckerEvent) : KeepsAllBut [.inbox, .replies] s (s.checkerEvent e) := by
  refine .ite (.refl _ s) ?_
  split
  · exact (s.placeIfRoom_keeps _).mono
  · exact (s.placeIfRoom_keeps _).mono
  · exact s.arrive_keeps _ _ _

theorem State.hostByte_keeps (b : Byte) : KeepsAllBut [.checker, .inbox, .replies] s (s.hostByte b) := by
  have h : KeepsAllBut [.checker, .inbox, .replies] s { s with checker := (s.checker.read hostShape b).1 } := by
    intro x hx
    cases x <;> first | rfl | simp at hx
  unfold State.hostByte
  dsimp only
  split
  · exact h
  · exact h.next (State.checkerEvent_keeps _ _).mono

theorem State.hostBytes_keeps (bytes : List Byte) : KeepsAllBut [.checker, .inbox, .replies] s (s.hostBytes bytes) :=
  .foldl (fun t b => t.hostByte_keeps b) bytes s

theorem State.retire_keeps (j : SlotId) : KeepsAllBut [.jobs, .queues, .pages, .freePool] s (s.retire j) :=
  (((s.freeJobPages_keeps j).trans (State.updQueue_keeps _ _ _)).trans (State.updJob_keeps _ _ _)).mono

theorem State.reported_keeps (src : Source) :
    KeepsAllBut [.jobs, .queues, .pages, .freePool, .alerts, .ports, .startFlag, .partOwed] s
      (State.reported src s) := by
  unfold State.reported
  split
  · exact .ite ((s.updJob_keeps _ _).trans (State.retire_keeps _ _)).mono (s.updJob_keeps _ _).mono
  · exact (s.updAlert_keeps _ _).mono
  · exact (s.updPort_keeps _ _).mono
  · intro x hx
    cases x <;> first | rfl | simp at hx

theorem State.boundary_keeps :
    KeepsAllBut [.replies, .notices, .onLink, .jobs, .queues, .pages, .freePool, .alerts, .ports, .startFlag, .partOwed]
      s s.boundary := by
  have h : ∀ (n : List Source) (r : List HostFrame) (o : Option HostFrame),
      KeepsAllBut [.replies, .notices, .onLink] s { s with notices := n, replies := r, onLink := o } := by
    intro n r o x hx
    cases x <;> first | rfl | simp at hx
  unfold State.boundary
  split
  · exact (h s.notices _ _).mono
  · refine .ite (h s.notices s.replies _).mono ?_
    split
    · exact (h s.notices s.replies _).mono
    · exact ((h _ s.replies _).trans (State.reported_keeps _ _)).mono

-- ## Timers and the finishing line

theorem State.markEdge_keeps : KeepsAllBut [.queues, .passInProgress, .passOwed] s s.markEdge :=
  .foldl (fun t q => t.giveMark_keeps q extBit) _ s

theorem State.starveExpiry_keeps (p : PortId) :
    KeepsAllBut [.jobs, .ports, .notices, .passInProgress, .passOwed] s (s.starveExpiry p) := by
  unfold State.starveExpiry
  split
  · exact .refl _ s
  · exact ((((s.releaseFeed_keeps _ _).trans (State.makeWaiting_keeps _ _ _)).trans (State.flagJob_keeps _ _ _)).trans
      (State.feedReleased_keeps _ _)).mono

theorem State.escalate_keeps (a : AlertId) : KeepsAllBut [.alerts, .notices] s (s.escalate a) :=
  ((s.updAlert_keeps _ _).trans (State.flagAlert_keeps _ _ _)).mono

theorem State.probe_keeps (p : PortId) : KeepsAllBut [.ports, .pressLog] s (s.probe p) :=
  ((s.updPort_keeps _ _).trans (State.press_keeps _ _ _)).mono

theorem State.rateWindowClose_keeps (p : PortId) :
    KeepsAllBut [.ports, .notices, .passInProgress, .passOwed] s (s.rateWindowClose p) :=
  (((s.comeUp_keeps _ _ _).trans (State.flagPort_keeps _ _ _)).trans (State.holdTest_keeps _ _)).mono

theorem State.sendEnd_keeps (p : PortId) (e : SendEntry) :
    KeepsAllBut [.ports, .pressLog, .jobs, .accounts, .notices, .passInProgress, .passOwed] s (s.sendEnd p e) :=
  (((s.pressAll_keeps p (s.sentMessages e)).trans (State.updPort_keeps _ _ _)).trans
    (State.offerAttempt_keeps _ _)).mono

-- ## The printers' messages

/-- The parts that a printer's message can change, all of them together. -/
def pressParts : List Part :=
  [.jobs, .queues, .markLine, .notices, .ports, .pages, .freePool, .accounts, .alerts, .openAlerts, .passInProgress,
    .passOwed, .pressLog]

theorem State.identTaken_keeps (p : PortId) (i : Ident) (m : Media) (c : Bool) :
    KeepsAllBut pressParts s (s.identTaken p i m c) :=
  ((KeepsAllBut.trans (.ite (s.linkLoss_keeps p) (.refl _ s)) (State.bringUp_keeps _ p i m c)).trans
    (State.holdTest_keeps _ p)).mono

theorem State.echoTaken_keeps (p : PortId) :
    KeepsAllBut [.ports, .notices, .passInProgress, .passOwed] s (s.echoTaken p) := by
  unfold State.echoTaken
  split
  · exact .refl _ s
  · exact .ite (s.updPort_keeps _ _).mono ((s.comeUp_keeps _ _ _).trans (State.holdTest_keeps _ _)).mono

theorem State.statusTaken_keeps (p : PortId) (r : ReasonSet) : KeepsAllBut
    [.ports, .alerts, .openAlerts, .notices, .jobs, .accounts, .pressLog, .passInProgress, .passOwed] s
    (s.statusTaken p r) := by
  have h : KeepsAllBut [.ports, .alerts, .openAlerts, .notices, .jobs, .accounts, .pressLog, .passInProgress, .passOwed]
      s ((s.updPort p (fun x => { x with status := r })).waitEvent p (reasonKinds (minusBits r s.ports[p].status))
        (reasonKinds (minusBits s.ports[p].status r))) :=
    ((s.updPort_keeps _ _).trans (State.waitEvent_keeps _ _ _ _)).mono
  unfold State.statusTaken
  exact .ite (.refl _ s) (.ite ((h.next (State.offerAttempt_keeps _ _).mono).next (State.askIfBecame_keeps _ _ _).mono) h)

theorem State.report_keeps (p : PortId) (entry : Option SendEntry) (act : SendEntry → State → State)
    (h : ∀ e t, KeepsAllBut pressParts t (act e t)) : KeepsAllBut pressParts s (s.report p entry act) := by
  unfold State.report
  refine .ite (.refl _ s) ?_
  split
  · exact ((s.orderFault_keeps p).trans (State.holdTest_keeps _ p)).mono
  · exact h _ s

theorem State.owedRelease_keeps (p : PortId) (j : SlotId) :
    KeepsAllBut [.jobs, .ports, .notices, .passInProgress, .passOwed] s (s.owedRelease p j) :=
  .ite (s.serviceRelease_keeps _ _) (.refl _ s)

theorem State.takenPassed_keeps (p : PortId) (e : SendEntry) : KeepsAllBut pressParts s (s.takenPassed p e) :=
  (((((s.updPort_keeps _ _).trans (State.handedTest_keeps _ _)).trans (State.owedRelease_keeps _ _ _)).trans
    (State.offerAttempt_keeps _ _)).trans (State.holdTest_keeps _ _)).mono

theorem State.sheetPassed_keeps (p : PortId) (e : SendEntry) : KeepsAllBut pressParts s (s.sheetPassed p e) :=
  (((s.sheetEvent_keeps p e).trans (State.offerAttempt_keeps _ _)).trans (State.holdTest_keeps _ _)).mono

theorem State.abortedPassed_keeps (p : PortId) (e : SendEntry) : KeepsAllBut pressParts s (s.abortedPassed p e) :=
  ((((((s.releaseFaces_keeps e).trans (State.dropEntry_keeps _ _ _)).trans (State.updJob_keeps _ _ _)).trans
    (State.afterRemoval_keeps _ _)).trans (State.offerAttempt_keeps _ _)).trans (State.holdTest_keeps _ _)).mono

theorem State.refusePassed_keeps (p : PortId) (reason : Byte) (e : SendEntry) :
    KeepsAllBut pressParts s (s.refusePassed p reason e) :=
  (((((((((s.releaseFaces_keeps e).trans (State.dropEntry_keeps _ _ _)).trans (State.updJob_keeps _ _ _)).trans
    (State.releaseIfOwner_keeps _ _ _)).trans (State.updJob_keeps _ _ _)).trans (State.flagJob_keeps _ _ _)).trans
    (State.feedReleased_keeps _ _)).trans (State.offerAttempt_keeps _ _)).trans (State.holdTest_keeps _ _)).mono

theorem State.jamTaken_keeps (p : PortId) (l : Byte) (n : Option Serial) :
    KeepsAllBut pressParts s (s.jamTaken p l n) :=
  (((s.stopSend_keeps _).trans (State.stopCondition_keeps _ _ _ _ _)).trans (State.holdTest_keeps _ _)).mono

theorem State.clearedTaken_keeps (p : PortId) :
    KeepsAllBut [.alerts, .notices, .openAlerts, .jobs, .passInProgress, .passOwed] s (s.clearedTaken p) :=
  .ite (s.confirmAttendant_keeps p) (.refl _ s)

theorem State.cancelTaken_keeps (p : PortId) :
    KeepsAllBut [.jobs, .ports, .pressLog, .notices, .passInProgress, .passOwed] s (s.cancelTaken p) := by
  unfold State.cancelTaken
  split
  · exact .refl _ s
  · split
    all_goals first
      | exact .refl _ s
      | exact (s.flagJob_keeps _ _).mono
      | exact ((s.cancelJob_keeps _).trans (State.flagJob_keeps _ _ _)).mono

theorem State.setupEnds_keeps (p : PortId) : KeepsAllBut
    [.ports, .alerts, .openAlerts, .notices, .jobs, .accounts, .pressLog, .passInProgress, .passOwed] s
    (s.setupEnds p) :=
  ((((s.endSetup_keeps p).trans (State.offerAttempt_keeps _ _)).trans (State.askIfBecame_keeps _ _ _)).trans
    (State.holdTest_keeps _ _)).mono

theorem State.wrongMedia_keeps (p : PortId) :
    KeepsAllBut [.ports, .alerts, .notices, .openAlerts] s (s.wrongMedia p) :=
  .ite (s.updPort_keeps _ _).mono (s.reportStall_keeps _)

theorem State.setupTaken_keeps (p : PortId) (m : Media) : KeepsAllBut
    [.ports, .alerts, .openAlerts, .notices, .jobs, .accounts, .pressLog, .passInProgress, .passOwed] s
    (s.setupTaken p m) := by
  have h : KeepsAllBut [.ports, .alerts, .openAlerts, .notices, .jobs, .accounts, .pressLog, .passInProgress, .passOwed]
      s (s.updPort p (fun x => { x with loaded := m })) := (s.updPort_keeps _ _).mono
  unfold State.setupTaken
  dsimp only
  split
  · exact h
  · exact .ite (h.next (State.setupEnds_keeps _ _)) (h.next (State.wrongMedia_keeps _ _).mono)

/-- Every message command keeps everything but `pressParts`. -/
theorem pressMessage_keeps' (p : PortId) (fieldsOk : Bool) (taken : LinkState → Bool) {parts : List Part}
    {act : State → State} (h : ∀ t, KeepsAllBut parts t (act t)) (hs : parts ⊆ pressParts := by decide) :
    KeepsAllBut pressParts s (s.pressMessage p fieldsOk taken act) :=
  s.pressMessage_keeps p fieldsOk taken act (by decide) (fun t => (h t).mono hs)

end Sys2Proof.Machine
end

