-- ==== Sys2Proof/Laws/PerInstr.lean ====
section
/-! SUPPORT. One lemma for each command: the request frame that a well-formed request command takes names that
command, by the kind codes of 11.3. -/

set_option Elab.async false

namespace Sys2Proof

/-- A kind outside the catalogue names UNKNOWN_KIND_REQUEST (R169 step 1). -/
theorem requestCommand_unknown (kind tag : Byte) (body : List Byte) (h : kind ∉ catalogue) :
    requestCommand kind tag body = .unknownKindRequest kind tag body := by
  simp only [catalogue, List.mem_cons, List.not_mem_nil, or_false, not_or] at h
  simp only [requestCommand]
  simp_all

end Sys2Proof

namespace Sys2Proof.Laws.FrameRoundTrip

/-- The kind, tag and body of the frame that a well-formed request command takes name the command (11.3). -/
def Statement (i : Instr) : Prop :=
  ∀ (kind tag : Byte) (body : List Byte), i.wellFormed = true → i.requestFrame = some (kind, tag, body) →
    requestCommand kind tag body = i

theorem admitJob (tag : Byte) (body : List Byte) : Statement (.admitJob tag body) := by rintro _ _ _ _ ⟨⟩; rfl

theorem pageData (tag : Byte) (body : List Byte) : Statement (.pageData tag body) := by rintro _ _ _ _ ⟨⟩; rfl

theorem pageDiscard (tag : Byte) (body : List Byte) : Statement (.pageDiscard tag body) := by rintro _ _ _ _ ⟨⟩; rfl

theorem closeJob (tag : Byte) (body : List Byte) : Statement (.closeJob tag body) := by rintro _ _ _ _ ⟨⟩; rfl

theorem cancelJob (tag : Byte) (body : List Byte) : Statement (.cancelJob tag body) := by rintro _ _ _ _ ⟨⟩; rfl

theorem moveJob (tag : Byte) (body : List Byte) : Statement (.moveJob tag body) := by rintro _ _ _ _ ⟨⟩; rfl

theorem retryJob (tag : Byte) (body : List Byte) : Statement (.retryJob tag body) := by rintro _ _ _ _ ⟨⟩; rfl

theorem queryJob (tag : Byte) (body : List Byte) : Statement (.queryJob tag body) := by rintro _ _ _ _ ⟨⟩; rfl

theorem queueMode (tag : Byte) (body : List Byte) : Statement (.queueMode tag body) := by rintro _ _ _ _ ⟨⟩; rfl

theorem queueDispatch (tag : Byte) (body : List Byte) : Statement (.queueDispatch tag body) := by rintro _ _ _ _ ⟨⟩; rfl

theorem queueOptions (tag : Byte) (body : List Byte) : Statement (.queueOptions tag body) := by rintro _ _ _ _ ⟨⟩; rfl

theorem mark (tag : Byte) (body : List Byte) : Statement (.mark tag body) := by rintro _ _ _ _ ⟨⟩; rfl

theorem queryQueue (tag : Byte) (body : List Byte) : Statement (.queryQueue tag body) := by rintro _ _ _ _ ⟨⟩; rfl

theorem rowWrite (tag : Byte) (body : List Byte) : Statement (.rowWrite tag body) := by rintro _ _ _ _ ⟨⟩; rfl

theorem memberSet (tag : Byte) (body : List Byte) : Statement (.memberSet tag body) := by rintro _ _ _ _ ⟨⟩; rfl

theorem memberClear (tag : Byte) (body : List Byte) : Statement (.memberClear tag body) := by rintro _ _ _ _ ⟨⟩; rfl

theorem routeSet (tag : Byte) (body : List Byte) : Statement (.routeSet tag body) := by rintro _ _ _ _ ⟨⟩; rfl

theorem routeStep (tag : Byte) (body : List Byte) : Statement (.routeStep tag body) := by rintro _ _ _ _ ⟨⟩; rfl

theorem portService (tag : Byte) (body : List Byte) : Statement (.portService tag body) := by rintro _ _ _ _ ⟨⟩; rfl

theorem portReset (tag : Byte) (body : List Byte) : Statement (.portReset tag body) := by rintro _ _ _ _ ⟨⟩; rfl

theorem portMeters (tag : Byte) (body : List Byte) : Statement (.portMeters tag body) := by rintro _ _ _ _ ⟨⟩; rfl

theorem queryPort (tag : Byte) (body : List Byte) : Statement (.queryPort tag body) := by rintro _ _ _ _ ⟨⟩; rfl

theorem tariffWrite (tag : Byte) (body : List Byte) : Statement (.tariffWrite tag body) := by rintro _ _ _ _ ⟨⟩; rfl

theorem tariffRead (tag : Byte) (body : List Byte) : Statement (.tariffRead tag body) := by rintro _ _ _ _ ⟨⟩; rfl

theorem accountSet (tag : Byte) (body : List Byte) : Statement (.accountSet tag body) := by rintro _ _ _ _ ⟨⟩; rfl

theorem accountCredit (tag : Byte) (body : List Byte) : Statement (.accountCredit tag body) := by rintro _ _ _ _ ⟨⟩; rfl

theorem accountClose (tag : Byte) (body : List Byte) : Statement (.accountClose tag body) := by rintro _ _ _ _ ⟨⟩; rfl

theorem queryAccount (tag : Byte) (body : List Byte) : Statement (.queryAccount tag body) := by rintro _ _ _ _ ⟨⟩; rfl

theorem alertAck (tag : Byte) (body : List Byte) : Statement (.alertAck tag body) := by rintro _ _ _ _ ⟨⟩; rfl

theorem alertRelease (tag : Byte) (body : List Byte) : Statement (.alertRelease tag body) := by rintro _ _ _ _ ⟨⟩; rfl

theorem queryAlerts (tag : Byte) (body : List Byte) : Statement (.queryAlerts tag body) := by rintro _ _ _ _ ⟨⟩; rfl

theorem setTimers (tag : Byte) (body : List Byte) : Statement (.setTimers tag body) := by rintro _ _ _ _ ⟨⟩; rfl

theorem queryStore (tag : Byte) (body : List Byte) : Statement (.queryStore tag body) := by rintro _ _ _ _ ⟨⟩; rfl

theorem queryPart (tag : Byte) (body : List Byte) : Statement (.queryPart tag body) := by rintro _ _ _ _ ⟨⟩; rfl

theorem restart (tag : Byte) (body : List Byte) : Statement (.restart tag body) := by rintro _ _ _ _ ⟨⟩; rfl

theorem unknownKindRequest (kind : Byte) (tag : Byte) (body : List Byte) : Statement (.unknownKindRequest kind tag body) := by
  rintro k t b hw ⟨⟩
  exact requestCommand_unknown _ _ _ (fun h => by simp_all [Instr.wellFormed])

theorem hostFrameReceived (bytes : List Byte) : Statement (.hostFrameReceived bytes) := by rintro _ _ _ _ ⟨⟩

theorem frameBoundary : Statement .frameBoundary := by rintro _ _ _ _ ⟨⟩

theorem restartReset : Statement .restartReset := by rintro _ _ _ _ ⟨⟩

theorem startIntervalEnd : Statement .startIntervalEnd := by rintro _ _ _ _ ⟨⟩

theorem powerOn : Statement .powerOn := by rintro _ _ _ _ ⟨⟩

theorem resetPin : Statement .resetPin := by rintro _ _ _ _ ⟨⟩

theorem finishingMarkEdge : Statement .finishingMarkEdge := by rintro _ _ _ _ ⟨⟩

theorem markPulseEnd : Statement .markPulseEnd := by rintro _ _ _ _ ⟨⟩

theorem starveTimerExpiry (port : PortId) : Statement (.starveTimerExpiry port) := by rintro _ _ _ _ ⟨⟩

theorem setupTimerExpiry (port : PortId) : Statement (.setupTimerExpiry port) := by rintro _ _ _ _ ⟨⟩

theorem escalationTimerExpiry (slot : AlertId) : Statement (.escalationTimerExpiry slot) := by rintro _ _ _ _ ⟨⟩

theorem rerouteTick (slot : SlotId) : Statement (.rerouteTick slot) := by rintro _ _ _ _ ⟨⟩

theorem probeDue (port : PortId) : Statement (.probeDue port) := by rintro _ _ _ _ ⟨⟩

theorem pressSilence (port : PortId) : Statement (.pressSilence port) := by rintro _ _ _ _ ⟨⟩

theorem rateWindowClose (port : PortId) : Statement (.rateWindowClose port) := by rintro _ _ _ _ ⟨⟩

theorem sendEnd (port : PortId) : Statement (.sendEnd port) := by rintro _ _ _ _ ⟨⟩

theorem dispatchPass : Statement .dispatchPass := by rintro _ _ _ _ ⟨⟩

theorem ident (port : PortId) (classCode : Byte) (caps : Byte) (mediaSet : Byte) (loaded : Byte) (depth : Byte) : Statement (.ident port classCode caps mediaSet loaded depth) := by rintro _ _ _ _ ⟨⟩

theorem rateEcho (port : PortId) : Statement (.rateEcho port) := by rintro _ _ _ _ ⟨⟩

theorem status (port : PortId) (reasons : Byte) : Statement (.status port reasons) := by rintro _ _ _ _ ⟨⟩

theorem taken (port : PortId) (serial : Serial) : Statement (.taken port serial) := by rintro _ _ _ _ ⟨⟩

theorem sheet (port : PortId) (serial : Serial) : Statement (.sheet port serial) := by rintro _ _ _ _ ⟨⟩

theorem aborted (port : PortId) (serial : Serial) : Statement (.aborted port serial) := by rintro _ _ _ _ ⟨⟩

theorem refuse (port : PortId) (serial : Serial) (reason : Byte) : Statement (.refuse port serial reason) := by rintro _ _ _ _ ⟨⟩

theorem jam (port : PortId) (location : Byte) (serialPresent : Byte) (serial : Serial) : Statement (.jam port location serialPresent serial) := by rintro _ _ _ _ ⟨⟩

theorem cleared (port : PortId) : Statement (.cleared port) := by rintro _ _ _ _ ⟨⟩

theorem pressCancel (port : PortId) : Statement (.pressCancel port) := by rintro _ _ _ _ ⟨⟩

theorem setupDone (port : PortId) (media : Byte) : Statement (.setupDone port media) := by rintro _ _ _ _ ⟨⟩

theorem pressFrameDiscarded (port : PortId) (bytes : List Byte) : Statement (.pressFrameDiscarded port bytes) := by rintro _ _ _ _ ⟨⟩

theorem shopClockTick : Statement .shopClockTick := by rintro _ _ _ _ ⟨⟩

theorem markPulseHighEnd : Statement .markPulseHighEnd := by rintro _ _ _ _ ⟨⟩

end Sys2Proof.Laws.FrameRoundTrip
end

