-- ==== Sys2Proof/Tests/Slice0.lean ====
section
/-! SUPPORT. Tests: ill-formed commands, values that the spec works out, one-step tests of the commands, and for each
obligation with hypotheses a state and operands that meet them. -/

set_option Elab.async false

namespace Sys2Proof.Tests

open Sys2Proof.Machine Sys2Proof.Safety

-- ## Commands that cannot occur

/-- A body longer than a frame can carry is refused (11.1). -/
theorem test_body_too_long_is_ill_formed :
    Instr.wellFormed (.queryPart 0 (List.replicate 4105 0)) = false ∧
      Instr.wellFormed (.unknownKindRequest 0x99 0 (List.replicate 4105 0)) = false := by decide +kernel

/-- The longest body that a frame can carry is well formed (11.1). -/
theorem test_longest_body_is_well_formed : Instr.wellFormed (.pageData 0 (List.replicate 4104 0)) = true := by
  decide +kernel

/-- A kind of the catalogue is no unknown kind (9.4). -/
theorem test_catalogue_kind_is_ill_formed : Instr.wellFormed (.unknownKindRequest 0x01 0 []) = false := by decide

/-- A run of received bytes is not empty. -/
theorem test_no_bytes_are_ill_formed :
    Instr.wellFormed (.hostFrameReceived []) = false ∧ Instr.wellFormed (.pressFrameDiscarded 0 []) = false := by decide

-- ## Values that the spec works out

/-- The check over the characters 1 to 9 (11.1). -/
theorem test_check_of_the_nine_characters :
    crc16 [0x31, 0x32, 0x33, 0x34, 0x35, 0x36, 0x37, 0x38, 0x39] = 0x29B1 := by decide +kernel

/-- A charge of 3,676 mills and a meter of 999,999,998 on the link (11.2). -/
theorem test_packed_decimal_fields :
    bcdBytes 6 3676 = [0x00, 0x00, 0x00, 0x00, 0x36, 0x76] ∧ bcdBytes 5 999999998 = [0x09, 0x99, 0x99, 0x99, 0x98] := by
  decide +kernel

/-- The nets of the worked charge cases (6.9). -/
theorem test_worked_nets :
    [650, 800, 700, 850].map (fun gross => netCharge gross 125) = [569, 700, 612, 744] := by decide +kernel

/-- The effective depth of W = 4 at BASE and the blocks of 5,000 bytes (5.12, 3.11). -/
theorem test_blocks_of_worked_pages : [4096, 5000, 0, 2048, 6500, 7596].map blocksFor = [4, 5, 0, 2, 7, 8] := by
  decide +kernel

-- ## States for the tests

/-- The part after its START notice, with nothing owed. -/
def idle : State := { State.reset with startInterval := false, startFlag := false, partOwed := false, notices := [] }

/-- The request of this kind and body, with tag 7, is the oldest of the inbox. -/
def ask (kind : Byte) (body : List Byte) (s : State) : State :=
  { s with inbox := [{ kind := kind, tag := 7, body := body }] }

/-- Slot `j` holds this record. -/
def withJob (j : SlotId) (x : Job) (s : State) : State := { s with jobs := s.jobs.set j.val x }

/-- Queue `q` holds this record. -/
def withQueue (q : QueueId) (x : Queue) (s : State) : State := { s with queues := s.queues.set q.val x }

/-- Port `p` holds this record. -/
def withPort (p : PortId) (x : Port) (s : State) : State := { s with ports := s.ports.set p.val x }

/-- Page record `r` holds this page. -/
def withPage (r : RecordId) (x : PageRecord) (s : State) : State := { s with pages := s.pages.set r.val x }

/-- Account `a` holds this record. -/
def withAccount (a : AccountId) (x : Account) (s : State) : State := { s with accounts := s.accounts.set a.val x }

/-- Alert slot `a` holds this record. -/
def withAlert (a : AlertId) (x : AlertSlot) (s : State) : State := { s with alerts := s.alerts.set a.val x }

/-- The state after a command. -/
def after (c : Instr) (s : State) : State :=
  match exec c s with
  | .next t => t
  | .fault _ => s
  | .refused _ => s

/-- A waiting, Closed job of Q0 on account 0 with page records 0 and 1. -/
def aJob : Job :=
  { Job.freeSlot 0 with state := .waiting, reason := some .new, closed := true, pages := [some 0, some 1] }

/-- Sealed page `n` of slot 0: one side, MONO, media 0, 100 bytes in block `n`. -/
def aPage (n : Nat) : PageRecord :=
  { PageRecord.freeRecord with state := .sealed, owner := some 0, length := 100, chain := [n], place := some (n + 1) }

/-- Q0 in RUN and FREE with slot 0 in its list. -/
def aQueue : Queue := { Queue.initial with mode := .run, dispatch := .free, list := [0] }

/-- What the printer of the tests declares. -/
def anIdent : Ident :=
  { classCode := 1, colour := true, duplex := true, media := 0xFF, depth := 4, fastCapable := false }

/-- A port that is UP at BASE with depth 2 and READY. -/
def aPort : Port := { Port.initial with link := .up, ident := some anIdent, depth := 2 }

/-- Entry `n` of slot 0: place `n + 1`, copy 1, one face, MONO. -/
def anEntry (n : Nat) (st : EntryState) : SendEntry :=
  { serial := BitVec.ofNat 16 n, job := 0, place := n + 1, copy := 1, faces := 1, colour := .mono, state := st
    ended := false }

/-- Q0 runs with one job of two sealed pages; row 0 holds P0, and P0 is UP. -/
def shop (x : Job) (p : Port) (s : State) : State :=
  { withPage 0 (aPage 0) (withPage 1 (aPage 1) (withPort 0 p (withJob 0 x (withQueue 0 aQueue s)))) with
    rows := s.rows.set 0 1, freePool := [2, 3] }

/-- Slot 0 feeds P0. -/
def feeding (c : Nat) : Job :=
  { aJob with state := .active, reason := none, started := true, feedPort := some 0, cursorPage := c }

/-- The faces of the TAKEN entries among these. -/
def takenFaces (w : List SendEntry) : Nat := facesOf w (fun e => e.state == .taken)

/-- P0 is fed by slot 0 and holds these entries, whose TAKEN faces its meters count. -/
def fed (w : List SendEntry) : Port :=
  { aPort with
    feedOwner := some 0, window := w, nextSerial := BitVec.ofNat 16 w.length
    lifetime := { MeterSet.zero with taken := takenFaces w }, period := { MeterSet.zero with taken := takenFaces w } }

theorem ask_jobs (kind : Byte) (body : List Byte) (s : State) : (ask kind body s).jobs = s.jobs := rfl
theorem ask_pages (kind : Byte) (body : List Byte) (s : State) : (ask kind body s).pages = s.pages := rfl
theorem ask_ports (kind : Byte) (body : List Byte) (s : State) : (ask kind body s).ports = s.ports := rfl
theorem ask_freePool (kind : Byte) (body : List Byte) (s : State) : (ask kind body s).freePool = s.freePool := rfl

/-- The taking of a request whose frame stands alone in the inbox. -/
theorem takes_ask (kind : Byte) (body : List Byte) (s : State) (h : s.restarting = false) (hr : s.replies = []) :
    Takes (ask kind body s) kind 7 body := by
  refine ⟨h, ?_, rfl⟩
  show s.replies.length < 16
  rw [hr]; decide

/-- The port record in each place of a state with one port changed. -/
theorem ports_of_set {s : State} {p : PortId} {x : Port} (h : s.ports = (Vector.replicate 16 Port.initial).set p.val x)
    (k : PortId) : s.ports[k] = if k = p then x else Port.initial := by
  simp only [h, Fin.getElem_fin, Vector.getElem_set, Vector.getElem_replicate, Fin.ext_iff, eq_comm]

/-- The job record in each slot of a state with one job changed. -/
theorem jobs_of_set {s : State} {j : SlotId} {x : Job} (h : s.jobs = (Vector.replicate 256 (Job.freeSlot 0)).set j.val x)
    (k : SlotId) : s.jobs[k] = if k = j then x else Job.freeSlot 0 := by
  simp only [h, Fin.getElem_fin, Vector.getElem_set, Vector.getElem_replicate, Fin.ext_iff, eq_comm]

/-- Feeds and windows agree in a state with one job and one port, when the two records agree. -/
theorem feedsAgree_of_one {s : State} {p : PortId} {j : SlotId} {x : Port} {y : Job}
    (hp : s.ports = (Vector.replicate 16 Port.initial).set p.val x)
    (hj : s.jobs = (Vector.replicate 256 (Job.freeSlot 0)).set j.val y)
    (h1 : x.feedOwner = some j ∧ y.feedPort = some p ∨ x.feedOwner = none ∧ y.feedPort = none)
    (h2 : y.feedPort ≠ none ↔ y.state = .active ∨ y.state = .starved)
    (h3 : ∀ e ∈ x.window, e.job = j)
    (h4 : ∀ e ∈ x.window, e.state = .streaming → x.feedOwner = some j ∧ y.state = .active)
    (h5 : x.starveTimer ≠ none → x.feedOwner = some j ∧ y.state = .starved)
    (h6 : (hasBit y.flags 1 = true → y.state = .done) ∧ (hasBit y.flags 2 = true → y.state = .cancelling)) :
    FeedsAgree s := by
  obtain ⟨I, hIo, hIw, hIt, P⟩ : ∃ I : Port, I.feedOwner = none ∧ I.window = [] ∧ I.starveTimer = none ∧
    ∀ k : PortId, s.ports[k] = if k = p then x else I := ⟨_, rfl, rfl, rfl, ports_of_set hp⟩
  obtain ⟨F, hFp, hFs, hFf, J⟩ : ∃ F : Job, F.feedPort = none ∧ F.state = .free ∧ F.flags = 0 ∧
    ∀ k : SlotId, s.jobs[k] = if k = j then y else F := ⟨_, rfl, rfl, rfl, jobs_of_set hj⟩
  have hwin : ∀ k e, e ∈ s.ports[k].window → k = p ∧ e ∈ x.window := by
    intro k e he
    rw [P] at he
    split at he
    · exact ⟨by assumption, he⟩
    · simp [hIw] at he
  have hjob : ∀ e ∈ x.window, s.jobs[e.job] = y := fun e he => by rw [J e.job, if_pos (h3 e he)]
  refine ⟨fun k l => ?_, fun l => ?_, fun k l e f he hf _ => ?_, fun k l e he hl => ?_, fun k e he hs => ?_,
    fun k hk => ?_, fun l => ?_⟩
  · rw [P, J]
    rcases h1 with ⟨ha, hb⟩ | ⟨ha, hb⟩ <;> by_cases hk : k = p <;> by_cases hl : l = j <;>
      simp only [hk, hl, if_true, if_false, hIo, hFp, ha, hb, Option.some.injEq, reduceCtorEq, iff_false, false_iff]
    · exact fun h => hl h.symm
    · exact fun h => hk h.symm
  · rw [J]; split
    · exact h2
    · simp [hFp, hFs]
  · rw [(hwin k e he).1, (hwin l f hf).1]
  · obtain ⟨rfl, he'⟩ := hwin k e he
    rw [hjob e he'] at hl
    rcases h1 with ⟨_, hb⟩ | ⟨_, hb⟩
    · rw [hb] at hl; exact Option.some.inj hl
    · rw [hb] at hl; cases hl
  · obtain ⟨rfl, he'⟩ := hwin k e he
    rw [P, if_pos rfl, hjob e he', h3 e he']
    exact h4 e he' hs
  · rw [P] at hk
    split at hk
    · rename_i hkp
      exact ⟨j, by rw [P, if_pos hkp]; exact (h5 hk).1, by rw [J, if_pos rfl]; exact (h5 hk).2⟩
    · exact absurd hIt hk
  · rw [J]; split
    · exact h6
    · simp [hFf, hasBit]


-- ## One step of each command

/-- The reply bodies after a request of this kind and body. -/
def replyTo (kind : Byte) (body : List Byte) (s : State) : List (List Byte) :=
  (after (requestCommand kind 7 body) (ask kind body s)).replies.map (fun f => f.body)

/-- The state after a request of this kind and body. -/
def onRequest (kind : Byte) (body : List Byte) (s : State) : State :=
  after (requestCommand kind 7 body) (ask kind body s)

/-- Q0 in LOAD, with an empty list. -/
def loading : State := withQueue 0 { Queue.initial with mode := .load } idle

/-- A job that is still sent, of Q0 in LOAD, without pages. -/
def sent : State := withJob 0 { aJob with closed := false, pages := [] } (withQueue 0 { aQueue with mode := .load } idle)

/-- ADMIT: the lowest-numbered FREE slot, generation 0 (R3, 10.1). -/
theorem test_admit_answers_the_handle : replyTo 0x01 [0, 0, 4, 2, 1, 0, 2, 0, 0] loading = [[0x00, 0, 0]] := by
  decide +kernel

/-- ADMIT to a DISABLED queue (R3 step 3). -/
theorem test_admit_refused_queue_closed : replyTo 0x01 [0, 0, 4, 2, 1, 0, 2, 0, 0] idle = [[0x09]] := by
  decide +kernel

/-- PAGE_DATA FIRST and LAST of one byte, duplex, FULL, media 1: length 1, sealed, place 1, 1 block left of 2 (R57). -/
theorem test_page_data_seals :
    replyTo 0x02 [0, 0, 3, 0x29, 0x41] { sent with freePool := [5, 6] } =
      [[0x00, 0, 0, 0, 1, 1, 0, 1, 0, 0, 0, 1]] := by decide +kernel

/-- The sealed page folds into the Needs (R58). -/
theorem test_page_data_folds_needs :
    (onRequest 0x02 [0, 0, 3, 0x29, 0x41] { sent with freePool := [5, 6] }).jobs[(0 : SlotId)].needsMedia = 2 ∧
      (onRequest 0x02 [0, 0, 3, 0x29, 0x41] { sent with freePool := [5, 6] }).jobs[(0 : SlotId)].needsDuplex = true := by
  decide +kernel

/-- PAGE_DISCARD without a filling page (R60). -/
theorem test_page_discard_refused_state : replyTo 0x03 [0, 0] (shop aJob aPort idle) = [[0x07]] := by decide +kernel

/-- CLOSE_JOB of a job without pages (R14). -/
theorem test_close_job_refused_state : replyTo 0x04 [0, 0] sent = [[0x07]] := by decide +kernel

/-- CANCEL_JOB of a feeding job: the STREAMING entry is aborted (R15, R96, 10.5). -/
theorem test_cancel_job_aborts :
    (onRequest 0x05 [0, 0] (shop (feeding 2) (fed [anEntry 0 .streaming]) idle)).pressLog = [(0, .abort 0)] := by
  decide +kernel

/-- MOVE_JOB to a DISABLED queue (R20). -/
theorem test_move_job_refused_queue_closed :
    replyTo 0x06 [0, 0, 1, 0, 0, 0] (shop aJob aPort idle) = [[0x09]] := by decide +kernel

/-- RETRY_JOB of a WAITING job (R19). -/
theorem test_retry_job_refused_state : replyTo 0x07 [0, 0] (shop aJob aPort idle) = [[0x07]] := by decide +kernel

/-- QUERY_JOB with an old generation (R2). -/
theorem test_query_job_stale : replyTo 0x08 [0, 1] (shop aJob aPort idle) = [[0x06]] := by decide +kernel

/-- QUEUE_MODE from RUN to LOAD (R29). -/
theorem test_queue_mode_refused_state : replyTo 0x10 [0, 1] (shop aJob aPort idle) = [[0x07]] := by decide +kernel

/-- QUEUE_MODE to HALT: the feeding job waits with reason HALT (R30, 2.11). -/
theorem test_queue_mode_halt_takes_the_feed :
    (onRequest 0x10 [0, 3] (shop (feeding 2) (fed [anEntry 0 .streaming]) idle)).jobs[(0 : SlotId)].reason =
      some .halt := by decide +kernel

/-- QUEUE_DISPATCH of PROOF (R33). -/
theorem test_queue_dispatch_proof :
    (onRequest 0x11 [2, 3] idle).queues[(2 : QueueId)].dispatch = .proof := by decide +kernel

/-- QUEUE_OPTIONS with a bit marked 0 (R182). -/
theorem test_queue_options_refused_range : replyTo 0x12 [0, 4] idle = [[0x05]] := by decide +kernel

/-- MARK of EXT to a queue in RUN: the reply carries {EXT} (R47). -/
theorem test_mark_answers_the_set : replyTo 0x13 [0, 8] (shop aJob aPort idle) = [[0x00, 1, 0]] := by decide +kernel

/-- QUERY_QUEUE after power-on: DISABLED, HOLD, ROTATE, nothing else (R48, 11.5). -/
theorem test_query_queue_after_power_on :
    replyTo 0x14 [3] idle = [[0x00, 0, 0, 1, 0, 0, 0, 0, 0, 0, 0, 0, 0, 0]] := by decide +kernel

/-- ROW_WRITE carries the row's set (R69, 4.6). -/
theorem test_row_write_answers_the_set : replyTo 0x20 [1, 0x00, 0x60] idle = [[0x00, 0x00, 0x60]] := by decide +kernel

/-- MEMBER_SET of P15 in row 63 (R70). -/
theorem test_member_set_at_the_ends : replyTo 0x21 [63, 15] idle = [[0x00, 0x80, 0x00]] := by decide +kernel

/-- MEMBER_CLEAR of row 64 (R70). -/
theorem test_member_clear_refused_range : replyTo 0x22 [64, 0] idle = [[0x05]] := by decide +kernel

/-- ROUTE_SET with C above E (R72). -/
theorem test_route_set_refused_range : replyTo 0x23 [0, 1, 3, 4, 0] idle = [[0x05]] := by decide +kernel

/-- ROUTE_STEP PREV from S goes to E (R73). -/
theorem test_route_step_wraps :
    replyTo 0x24 [0, 1] { idle with rings := idle.rings.set 0 { first := 2, last := 5, current := 2, pinned := true } } =
      [[0x00, 2, 5, 5, 1]] := by decide +kernel

/-- PORT_SERVICE out of a port after power-on, without hold: CLOSED and PROBING (R105). -/
theorem test_port_service_out : replyTo 0x30 [2, 0, 0] idle = [[0x00, 0, 1]] := by decide +kernel

/-- PORT_RESET sends a PROBE (R106). -/
theorem test_port_reset_probes : (onRequest 0x31 [3] idle).pressLog = [(3, .probe)] := by decide +kernel

/-- PORT_METERS with close reports before it zeroes (R108). -/
theorem test_port_meters_close :
    (onRequest 0x32 [0, 1] (withPort 0 { aPort with period := { MeterSet.zero with sheets := 5 } } idle)).ports[(0 :
      PortId)].period = .zero := by decide +kernel

/-- QUERY_PORT of P16 (R109). -/
theorem test_query_port_refused_range : replyTo 0x33 [16] idle = [[0x05]] := by decide +kernel

/-- TARIFF_WRITE with a nibble above 9 (R112). -/
theorem test_tariff_write_refused_range :
    replyTo 0x40 [2, 0, 1, 2, 0, 0, 0, 0x03, 0x5A, 0, 0, 0x03, 0x00] idle = [[0x05]] := by decide +kernel

/-- TARIFF_WRITE of the worked rate 350 and 300 (6.9). -/
theorem test_tariff_write_rate :
    (onRequest 0x40 [2, 0, 1, 2, 0, 0, 0, 0x03, 0x50, 0, 0, 0x03, 0x00] idle).tariffs[(2 : Fin 8)].rates[(5 : Fin 24)] =
      some { front := 350, back := 300 } := by decide +kernel

/-- TARIFF_READ of a BLANK surcharge falls back to page 7 (R113, R115). -/
theorem test_tariff_read_resolves_blank :
    replyTo 0x41 [2, 1, 1, 0] idle =
      [[0x00, 1, 0, 0, 0, 0, 0, 0, 0, 0, 0, 0, 0, 0, 0, 0, 0, 0, 0]] := by decide +kernel

/-- ACCOUNT_SET with an allowance below the reservation is CLAMPED to it (7.5). -/
theorem test_account_set_clamped :
    (onRequest 0x50 [31, 1, 0, 0, 0, 0, 0, 3] (withAccount 31 { Account.initial with allowance := 24, reserved := 6 }
      idle)).accounts[(31 : AccountId)].allowance = 6 := by decide +kernel

/-- ACCOUNT_CREDIT stops at 16,777,215 and says CLAMPED (R140). -/
theorem test_account_credit_clamped :
    (replyTo 0x51 [31, 0xFF, 0xFF, 0xFF] (withAccount 31 { Account.initial with allowance := 1 } idle)).map
      (fun b => b.take 1) = [[0x01]] := by decide +kernel

/-- ACCOUNT_CLOSE zeroes the period (R141). -/
theorem test_account_close_zeroes :
    (onRequest 0x52 [0] (withAccount 0 { Account.house with periodCharge := 9, saturated := true } idle)).accounts[(0 :
      AccountId)] = Account.house := by decide +kernel

/-- QUERY_ACCOUNT of account 128 (R142). -/
theorem test_query_account_refused_range : replyTo 0x53 [128] idle = [[0x05]] := by decide +kernel

/-- ALERT_ACK of a CLEAR slot (R160). -/
theorem test_alert_ack_refused_state : replyTo 0x60 [10] idle = [[0x07]] := by decide +kernel

/-- ALERT_RELEASE of a wait slot (R155). -/
theorem test_alert_release_refused_state : replyTo 0x61 [11] idle = [[0x07]] := by decide +kernel

/-- QUERY_ALERTS with nothing open (R164). -/
theorem test_query_alerts_empty : replyTo 0x62 [] idle = [[0x00, 0, 0]] := by decide +kernel

/-- SET_TIMERS moves values to the nearer end and says CLAMPED (R178). -/
theorem test_set_timers_clamped :
    replyTo 0x70 [0, 0, 4, 0, 9, 0x0E, 0x11, 0x0E, 0x10] idle =
      [[0x01, 1, 0, 5, 0, 10, 0x0E, 0x10, 0x0E, 0x10]] := by decide +kernel

/-- QUERY_PART: revision 3, cause power, clock 0, default timers, 256 FREE slots, queues without the request
(R179, 11.5). -/
theorem test_query_part_after_power_on :
    replyTo 0x72 [] idle =
      [[0x00, 0, 3, 1, 0, 0, 0, 0, 20, 0, 30, 0, 60, 0, 180, 0, 20, 1, 0, 0, 0, 0, 0]] := by decide +kernel

/-- RESTART empties the inbox and waits for its reply (R180). -/
theorem test_restart_waits_for_its_reply :
    replyTo 0x73 [] idle = [[0x00]] ∧ (onRequest 0x73 [] idle).restarting = true := by decide +kernel

/-- A kind outside the catalogue (R169). -/
theorem test_unknown_kind_refused : replyTo 0xF0 [1] idle = [[0x04]] := by decide +kernel

/-- Bytes in front of a start byte are thrown away; the frame 5A 00 02 72 01 with its check joins the inbox
(R166, R168). -/
theorem test_host_frame_joins_the_inbox :
    (after (.hostFrameReceived ([0x11, 0x22] ++ frameBytes 0x5A [0x72, 0x01])) idle).inbox =
      [{ kind := 0x72, tag := 0x01, body := [] }] := by decide +kernel

/-- The START notice after power-on: 31 bytes from cause 1 and revision 3 on (11.5, R176). -/
theorem test_frame_boundary_sends_the_start_notice :
    (after .frameBoundary State.reset).onLink = some { kind := 0xF3, tag := 0, body :=
      [1, 0, 3, 0, 0, 0, 0, 16, 8, 1, 0, 16, 0, 0, 1, 0, 0, 64, 128, 32, 16, 16, 20, 0, 30, 0, 60, 0, 180, 0, 20] } := by
  decide +kernel

/-- The start interval ends with the START notice (R176). -/
theorem test_start_interval_end :
    (after .startIntervalEnd (after .frameBoundary State.reset)).startInterval = false := by decide +kernel

/-- A RESTART raises the generation of a slot in use (R24). -/
theorem test_restart_reset_raises_the_generation :
    (after .restartReset { (shop aJob aPort idle) with restarting := true, onLink := some ⟨0x73, 7, [0]⟩ }).jobs[(0 :
      SlotId)].generation = 1 := by decide +kernel

/-- The reset pin gives cause PIN (R176). -/
theorem test_reset_pin_cause : (after .resetPin idle).startCause = .pin := by decide +kernel

/-- Power-on gives cause POWER (R176). -/
theorem test_power_on_cause : (after .powerOn { idle with startCause := .pin }).startCause = .power := by decide +kernel

/-- A rising edge gives EXT to a queue in RUN (R46, 10.3). -/
theorem test_finishing_mark_edge :
    (after .finishingMarkEdge (shop aJob aPort idle)).queues[(0 : QueueId)].received = 0x100 := by decide +kernel

/-- The end of a pulse lowers the owed count, and the next owed pulse begins (R45). -/
theorem test_mark_pulse_end :
    (after .markPulseEnd { idle with markLine := ⟨2, .gap, true⟩ }).markLine = ⟨1, .high, true⟩ := by decide +kernel

/-- The high part of a pulse gives way to its low gap (R45). -/
theorem test_mark_pulse_high_end :
    (after .markPulseHighEnd { idle with markLine := ⟨1, .high, true⟩ }).markLine.phase = .gap := by decide +kernel

/-- A starved feed is released (R103). -/
theorem test_starve_timer_expiry :
    (after (.starveTimerExpiry 0) (shop { (feeding 3) with state := .starved } { (fed []) with starveTimer := some 0 }
      idle)).jobs[(0 : SlotId)].reason = some .starved := by decide +kernel

/-- A setup hold that goes on too long raises SETUP_STALL in the wait slot (R101, R157). -/
theorem test_setup_timer_expiry :
    (after (.setupTimerExpiry 0) (withPort 0 { aPort with setup := some 3, setupTimer := some 0 } idle)).alerts[(1 :
      AlertId)].primary = some .setupStall := by decide +kernel

/-- The first escalation starts E2: 60 s after 12,600 with E2 180 s is 14,400 (R159, 8.10). -/
theorem test_escalation_timer_expiry :
    (after (.escalationTimerExpiry 10) (withAlert 10 { AlertSlot.clear with isOpen := true, timer := some 12600 }
      { idle with clock := 12600 })).alerts[(10 : AlertId)].timer = some 14400 := by decide +kernel

/-- The reroute tick asks for a pass (R75). -/
theorem test_reroute_tick_asks :
    (after (.rerouteTick 0) (shop { aJob with exclusion := some ⟨5, 0⟩ } aPort idle)).passInProgress = true := by
  decide +kernel

/-- A PROBE each 10 ticks (R85). -/
theorem test_probe_due : (after (.probeDue 4) idle).ports[(4 : PortId)].probeDue = 10 := by decide +kernel

/-- 3.0 s of silence lose the link: LINK_LOST in the stop slot (R88, 8.10). -/
theorem test_press_silence_raises_link_lost :
    (after (.pressSilence 0) { (withPort 0 aPort idle) with clock := 30 }).alerts[(0 : AlertId)].primary =
      some .linkLost := by decide +kernel

/-- A press frame that a silence cuts in two stays partly read: only the resets and leaving DOWN make the receiver hunt
(R84, R166). -/
theorem test_press_silence_keeps_a_partly_read_frame :
    (after (.pressSilence 0) { (withPort 0 { aPort with receiver := { phase := .body, got := [0, 1] } } idle) with
      clock := 30 }).ports[(0 : PortId)].receiver = { phase := .body, got := [0, 1] } := by decide +kernel

/-- A rate window that closes early gives BASE, depth min(4, 2) and RATE (R86, 5.12). -/
theorem test_rate_window_close :
    (after (.rateWindowClose 0) (withPort 0 { aPort with link := .rating, rateWindow := some 1 } idle)).ports[(0 :
      PortId)].depth = 2 := by decide +kernel

/-- The third echo gives FAST and depth W (R86). -/
theorem test_rate_echo_third :
    (after (.rateEcho 0) (withPort 0 { aPort with link := .rating, rateWindow := some 2 } idle)).ports[(0 :
      PortId)].depth = 4 := by decide +kernel

/-- A pass grants the port, and its first offer stands in the window (10.1). -/
theorem test_dispatch_pass_offers :
    (after .dispatchPass { (shop aJob aPort idle) with passInProgress := true }).ports[(0 : PortId)].window =
      [anEntry 0 .streaming] := by decide +kernel

/-- The bytes and PAGE_END of a send (R93): 100 bytes in one message. -/
theorem test_send_end :
    ((after (.sendEnd 0) (shop (feeding 2) { (fed [anEntry 0 .streaming]) with sending := some 0 } idle)).pressLog.map
      (fun m => m.2)).getLast? = some (.pageEnd 0) := by decide +kernel

/-- A FAST-capable printer's IDENT brings the link to RATING (R85, 5.12). -/
theorem test_ident_rating :
    (after (.ident 6 9 0x06 0x05 0 4) idle).ports[(6 : PortId)].link = .rating := by decide +kernel

/-- STATUS {MEDIA_OUT} opens the wait slot (8.10). -/
theorem test_status_opens_the_wait_slot :
    (after (.status 0 1) (withPort 0 aPort idle)).alerts[(1 : AlertId)].primary = some .mediaOut := by decide +kernel

/-- TAKEN counts the faces and makes the next offer (10.1). -/
theorem test_taken_offers_the_next_page :
    (after (.taken 0 0) (shop (feeding 2) (fed [anEntry 0 .streaming]) idle)).ports[(0 : PortId)].window =
      [anEntry 0 .taken, { anEntry 1 .streaming with serial := 1 }] := by decide +kernel

/-- The worked case before its first sheet (6.9): group 2 at 350 and 300 for media 1, FULL, discount 12.5 %; P0 is
OFFLINE, so that no offer follows. -/
def worked : State :=
  let a := { Account.initial with enabled := true, group := 2, discount := 125, allowance := 100, reserved := 2 }
  let g := { TariffPage.blank with rates := TariffPage.blank.rates.set 5 (some { front := 350, back := 300 }) }
  let p := { fed [{ anEntry 0 .taken with faces := 2, colour := .full }] with status := 1 }
  let s := withPage 0 { aPage 0 with media := 1, sides := 2, colour := .full } (shop { feeding 2 with copies := 2 } p idle)
  { withAccount 0 a s with tariffs := s.tariffs.set 2 g }

/-- The first sheet of the worked case: 650 less 81 is 569 mills (6.9). -/
theorem test_sheet_charges_569 :
    (after (.sheet 0 0) worked).accounts[(0 : AccountId)] =
      { Account.initial with enabled := true, group := 2, discount := 125, allowance := 98, periodCharge := 569
                             periodFaces := 2 } := by decide +kernel

/-- ABORTED rewinds the job to its page (2.11). -/
theorem test_aborted_rewinds :
    (after (.aborted 0 0) (shop { aJob with cursorPage := 2 } { aPort with window := [anEntry 0 .aborting] } idle)).jobs[(0
      : SlotId)].cursorPage = 1 := by decide +kernel

/-- REFUSE keeps its reason with the job (R97). -/
theorem test_refuse_keeps_the_reason :
    (after (.refuse 0 0 0x2A) (shop (feeding 2) (fed [anEntry 0 .streaming]) idle)).jobs[(0 : SlotId)].refuseReason =
      0x2A := by decide +kernel

/-- A JAM with a serial confirms the entry and spoils the rest (10.2). -/
theorem test_jam_confirms :
    (after (.jam 0 9 1 0) (shop { aJob with state := .handed, reason := none, cursorPage := 3 }
      { aPort with window := [anEntry 0 .taken, anEntry 1 .taken] } idle)).ports[(0 : PortId)].lifetime =
      { MeterSet.zero with sheets := 1, mono := 1, spoiled := 1 } := by decide +kernel

/-- CLEARED after the host's release closes the alert (8.10). -/
theorem test_cleared_closes :
    (after (.cleared 5) (withAlert 10 { AlertSlot.clear with isOpen := true, primary := some .jam, hostReleased := true }
      (withPort 5 aPort idle))).alerts[(10 : AlertId)].isOpen = false := by decide +kernel

/-- PRESS_CANCEL chooses the feed owner and flags AT_PRESS (R17). -/
theorem test_press_cancel_flags_at_press :
    (after (.pressCancel 0) (shop (feeding 2) (fed [anEntry 0 .streaming]) idle)).jobs[(0 : SlotId)].flags = 8 := by
  decide +kernel

/-- SETUP_DONE with the awaited class ends the hold, and the page is offered (5.12). -/
theorem test_setup_done_offers :
    (after (.setupDone 0 0) (shop (feeding 1) { (fed []) with loaded := 3, setup := some 0, setupTimer := some 300 }
      idle)).ports[(0 : PortId)].window = [anEntry 0 .streaming] := by decide +kernel

/-- A discarded good frame keeps the link heard (R84). -/
theorem test_press_frame_discarded :
    (after (.pressFrameDiscarded 0 (frameBytes 0xC3 [0x7F])) { (withPort 0 aPort idle) with clock := 25 }).ports[(0 :
      PortId)].lastHeard = 25 := by decide +kernel

/-- The Shop Clock wraps (R177). -/
theorem test_shop_clock_wraps : (after .shopClockTick { idle with clock := 0xFFFFFFFF }).clock = 0 := by decide +kernel

/-- QUERY_STORE of an empty store: 65,536 free blocks and 4,096 FREE records (R66). -/
theorem test_query_store_reports_free_blocks :
    (replyTo 0x71 [] { idle with freePool := [1, 2, 3], pages := Vector.replicate 4096 PageRecord.freeRecord }).map
      (fun b => b.take 7) = [[0x00, 0, 0, 0, 3, 0x10, 0x00]] := by decide +kernel

-- ## States that meet the hypotheses of the statements

/-- StepRunsFrontCommand: a state with a command at the front, and one with none. -/
theorem witness_StepRunsFrontCommand :
    { idle with pending := [.shopClockTick, .dispatchPass] }.pending = .shopClockTick :: [.dispatchPass] ∧
      idle.pending = [] := by decide +kernel

/-- TakenRequestGetsOneReply: a QUERY_PART and a RESTART that are taken, and a QUERY_PART that is not. -/
theorem witness_TakenRequestGetsOneReply :
    (Instr.queryPart 7 []).requestFrame = some (0x72, 7, []) ∧ (Instr.queryPart 7 []).wellFormed = true ∧
      Takes (ask 0x72 [] idle) 0x72 7 [] ∧
      (Instr.restart 7 []).requestFrame = some (0x73, 7, []) ∧ (Instr.restart 7 []).wellFormed = true ∧
      Takes (ask 0x73 [] idle) 0x73 7 [] ∧ ¬Takes idle 0x72 7 [] := by
  unfold Takes; decide +kernel

/-- KindAndFormAreCheckedFirst: the kind after the last one; a body that is a byte short, a bit marked 0, and a yes/no
byte of 2. -/
theorem witness_KindAndFormAreCheckedFirst :
    ((0x74 : Byte) ∉ catalogue ∧ Takes (ask 0x74 [] idle) 0x74 7 []) ∧
      (Takes (ask 0x01 [0, 0, 0, 1, 0, 0, 0, 0] idle) 0x01 7 [0, 0, 0, 1, 0, 0, 0, 0] ∧
        badForm 0x01 [0, 0, 0, 1, 0, 0, 0, 0] ∧ (0x01 : Byte) ∈ catalogue ∧
        (Instr.admitJob 7 [0, 0, 0, 1, 0, 0, 0, 0]).wellFormed = true) ∧
      (Takes (ask 0x02 [0, 0, 4, 0] idle) 0x02 7 [0, 0, 4, 0] ∧ badForm 0x02 [0, 0, 4, 0]) ∧
      (Takes (ask 0x32 [0, 2] idle) 0x32 7 [0, 2] ∧ badForm 0x32 [0, 2]) :=
  ⟨⟨by decide, takes_ask _ _ _ rfl rfl⟩,
    ⟨takes_ask _ _ _ rfl rfl, by unfold badForm bodyBits; decide +kernel, by decide, by decide⟩,
    ⟨takes_ask _ _ _ rfl rfl, by unfold badForm bodyBits; decide +kernel⟩, takes_ask _ _ _ rfl rfl,
    by unfold badForm bodyBits; decide +kernel⟩

/-- HandleChecksComeFirst: an old generation, a FREE slot, and the same for the second handle of a MOVE_JOB. -/
theorem witness_HandleChecksComeFirst :
    (Takes (ask 0x08 [0, 1] (shop aJob aPort idle)) 0x08 7 [0, 1] ∧ ¬badForm 0x08 [0, 1] ∧
        (Instr.queryJob 7 [0, 1]).wellFormed = true ∧
        byteAt [0, 1] 1 ≠ (shop aJob aPort idle).jobs[(0 : SlotId)].generation) ∧
      (Takes (ask 0x02 [255, 0, 1, 0] idle) 0x02 7 [255, 0, 1, 0] ∧ ¬badForm 0x02 [255, 0, 1, 0] ∧
        byteAt [255, 0, 1, 0] 1 = idle.jobs[(255 : SlotId)].generation ∧ idle.jobs[(255 : SlotId)].state = .free) ∧
      (Takes (ask 0x06 [0, 0, 0, 2, 1, 1] (shop aJob aPort idle)) 0x06 7 [0, 0, 0, 2, 1, 1] ∧
        Names (shop aJob aPort idle) 0 0 0 ∧ (shop aJob aPort idle).jobs[(0 : SlotId)].state = .waiting ∧
        (shop aJob aPort idle).queues[(0 : QueueId)].mode ≠ .disabled ∧
        hasBit (shop aJob aPort idle).jobs[(0 : SlotId)].waitSet 0 = false ∧
        byteAt [0, 0, 0, 2, 1, 1] 5 ≠ (shop aJob aPort idle).jobs[(1 : SlotId)].generation ∧
        byteAt [0, 0, 0, 2, 1, 0] 5 = (shop aJob aPort idle).jobs[(1 : SlotId)].generation ∧
        (shop aJob aPort idle).jobs[(1 : SlotId)].state = .free) := by
  unfold Takes badForm bodyBits Names; decide +kernel

/-- RequestFramesArriveWhole: a byte in front of the frame, an empty inbox and a full one. -/
theorem witness_RequestFramesArriveWhole :
    (Instr.queryStore 7 []).requestFrame = some (0x71, 7, []) ∧ (Instr.queryStore 7 []).wellFormed = true ∧
      idle.checker = .hunt ∧ idle.startInterval = false ∧ idle.restarting = false ∧ (0x5A : Byte) ∉ [(0x59 : Byte)] ∧
      idle.inbox.length < 16 ∧ 16 ≤ { idle with inbox := List.replicate 16 ⟨0x71, 0, []⟩ }.inbox.length := by
  decide +kernel

/-- BrokenFrameGetsFrameReply: lengths 1 and 4,107, and a frame of length 2 with a wrong check. -/
theorem witness_BrokenFrameGetsFrameReply :
    idle.checker = .hunt ∧ idle.startInterval = false ∧ idle.restarting = false ∧ beValue [0, 1] < 2 ∧
      4106 < beValue [0x10, 0x0B] ∧ 2 ≤ beValue [0, 2] ∧ beValue [0x10, 0x0A] ≤ 4106 ∧
      ([0x71, 0, 0, 0] : List Byte).length = beValue [0, 2] + 2 ∧
      (crc16 (0 :: 2 :: ([0x71, 0, 0, 0] : List Byte).take (beValue [0, 2]))).toNat ≠
        beValue (([0x71, 0, 0, 0] : List Byte).drop (beValue [0, 2])) := by decide +kernel

/-- FramesAreReadByteByByte: a frame cut in two, the start interval, and a taken RESTART. -/
theorem witness_FramesAreReadByteByByte :
    exec (.hostFrameReceived [0x5A, 0]) idle = .next (after (.hostFrameReceived [0x5A, 0]) idle) ∧
      State.reset.startInterval = true ∧ { idle with restarting := true }.restarting = true := ⟨rfl, rfl, rfl⟩

/-- FrameBoundaryChoosesTheFrame: a reply waits; nothing waits; each kind of source is the head. -/
theorem witness_FrameBoundaryChoosesTheFrame :
    (idle.startInterval = true → idle.onLink = none) ∧ (State.reset.startInterval = true → State.reset.onLink = none) ∧
      { idle with replies := [⟨0x71, 7, [5]⟩] }.replies = ⟨0x71, 7, [5]⟩ :: [] ∧
      (idle.replies = [] ∧ idle.restarting = false ∧ idle.notices = []) ∧
      { idle with notices := [.port 15] }.notices = .port 15 :: [] ∧
      { idle with notices := [.alert 31] }.notices = .alert 31 :: [] ∧ State.reset.notices = .part :: [] ∧
      ({ idle with notices := [.job 255] }.notices = .job 255 :: [] ∧ hasBit idle.jobs[(255 : SlotId)].flags 1 = false ∧
        hasBit idle.jobs[(255 : SlotId)].flags 2 = false) := by decide +kernel

/-- The DONE job of the next witness: two places, one of them freed. -/
def doneJob : Job := { aJob with state := .done, reason := none, pages := [none, some 1], flags := 2, noticeOwed := true }

/-- NoticeOfDoneOrCancelledRetires: a DONE job with a page left, and a CANCELLING one with a filling page. -/
theorem witness_NoticeOfDoneOrCancelledRetires :
    { (shop doneJob aPort idle) with notices := [.job 0] }.notices = .job 0 :: [] ∧
      hasBit (shop doneJob aPort idle).jobs[(0 : SlotId)].flags 1 = true ∧
      [(1 : RecordId)] = doneJob.pages.filterMap id ++ doneJob.filling.toList ∧ [(1 : RecordId)].Nodup ∧
      (shop doneJob aPort idle).replies = [] ∧ (shop doneJob aPort idle).restarting = false ∧
      hasBit (shop { doneJob with state := .cancelling, flags := 4, filling := some 2 } aPort idle).jobs[(0 :
        SlotId)].flags 2 = true := by decide +kernel

/-- StartAndRestartWaitForTheLink: the START notice on the link; no start interval; a RESTART taken; none taken. -/
theorem witness_StartAndRestartWaitForTheLink :
    ({ State.reset with onLink := some ⟨0xF3, 0, []⟩ }.startInterval = true ∧
        { State.reset with onLink := some ⟨0xF3, 0, []⟩ }.onLink = some ⟨0xF3, 0, []⟩) ∧
      idle.startInterval = false ∧ Takes (ask 0x73 [] idle) 0x73 7 [] ∧ idle.restarting = false := by
  unfold Takes; decide +kernel

/-- RestartKeepsConfigurationAndMoney: the RESTART's reply is on the link; P0 has a TAKEN entry. -/
theorem witness_RestartKeepsConfigurationAndMoney :
    let s := { (shop aJob { aPort with window := [anEntry 0 .taken] } idle) with
      restarting := true, onLink := some ⟨0x73, 7, [0]⟩ }
    s.restarting = true ∧ s.replies = [] ∧ s.onLink ≠ none ∧ s.ports[(0 : PortId)].lifetime.spoiled < 1000000000 := by
  decide +kernel

-- ## Jobs and pages

/-- AdmitFollowsItsTable: a full table; and for slot 0 each check failing and, with and without RUSH, passing. -/
theorem witness_AdmitFollowsItsTable :
    (∀ k : SlotId, { idle with jobs := Vector.replicate 256 aJob }.jobs[k].state ≠ .free) ∧
      (loading.jobs[(0 : SlotId)].state = .free ∧ ∀ k : SlotId, k < 0 → loading.jobs[k].state ≠ .free) ∧
      (∀ b ∈ [[8, 0, 0, 1, 0, 0, 0, 0, 0], [7, 0, 0, 1, 0, 0, 0, 0, 0], [0, 128, 0, 1, 0, 0, 0, 0, 0],
          [0, 127, 0, 1, 0, 0, 0, 0, 0], [0, 0, 0, 0, 0, 0, 0, 0, 0], [0, 0, 0, 100, 0, 0, 0, 0, 0],
          [0, 0, 0, 1, 4, 0, 0, 0, 0], [0, 0, 0, 99, 3, 0, 1, 0, 0], [0, 0, 7, 99, 3, 1, 0xFE, 1, 0xFF]],
        Takes (ask 0x01 b loading) 0x01 7 b ∧ ¬badForm 0x01 b) ∧
      loading.queues[(7 : QueueId)].mode = .disabled ∧ loading.queues[(0 : QueueId)].mode ≠ .disabled ∧
      loading.accounts[(127 : AccountId)].enabled = false ∧ loading.accounts[(0 : AccountId)].enabled = true ∧
      hasBit (BitVec.ofNat 9 (wordAt [0, 0, 0, 99, 3, 0, 1, 0, 0] 5)) 0 = true ∧
      hasBit (BitVec.ofNat 9 (wordAt [0, 0, 7, 99, 3, 1, 0xFE, 1, 0xFF] 5)) 0 = false := by
  unfold Takes badForm bodyBits; decide +kernel

/-- The bodies of a PAGE_DATA for slot 0: FIRST with one byte, and a second frame of one byte, with LAST or without. -/
def firstBody (flags : Byte) : List Byte := [0, 0, flags, 0x29, 0x41]

/-- A job whose filling page is record 0. -/
def fillingJob : Job := { aJob with closed := false, pages := [], filling := some 0 }

/-- Record 0 filling: 100 bytes in block 65,535. -/
def fillingPage : PageRecord := { aPage 65535 with state := .filling, place := none }

/-- Slot 0 fills record 0; the other blocks are free. -/
def fillingState : State :=
  { (withPage 0 fillingPage (withJob 0 fillingJob (withQueue 0 { aQueue with mode := .load } idle))) with
    freePool := List.range 65535 }

theorem fillingState_pool : fillingState.freePool = List.range 65535 := by simp only [fillingState]
theorem fillingState_pages :
    fillingState.pages = (Vector.replicate 4096 PageRecord.freeRecord).set 0 fillingPage := rfl

/-- A job with a free record and a free block passes every check of R53 for a first frame. -/
theorem passes_first (b : List Byte) (s : State) (x : Job) (hb : b = firstBody 1 ∨ b = firstBody 3)
    (hj : s.jobs[(0 : SlotId)] = x) (hx : x.generation = 0 ∧ x.state ≠ .free ∧ x.state ≠ .done ∧
      x.state ≠ .cancelling ∧ x.closed = false ∧ x.filling = none)
    (hp : s.pages[(0 : RecordId)].state = .free) (hf : 1 ≤ s.freePool.length) : PageDataPasses s b 0 0 := by
  obtain ⟨h1, h2, h3, h4, h5, h6⟩ := hx
  refine ⟨⟨?_, ?_, ?_⟩, ?_, ?_, ?_, ?_, ?_, ?_, ?_⟩
  · rcases hb with rfl | rfl <;> rfl
  · rw [hj, h1]; rcases hb with rfl | rfl <;> rfl
  · rw [hj]; exact h2
  · rw [hj]; exact h3
  · rw [hj]; exact h4
  · rw [hj]; exact h5
  · rcases hb with rfl | rfl <;> decide +kernel
  · rw [if_pos (by rcases hb with rfl | rfl <;> decide +kernel)]
    exact ⟨by rw [hj]; exact h6, by rcases hb with rfl | rfl <;> decide +kernel, hp,
      fun k hk => absurd hk (Fin.not_lt_zero k)⟩
  · rcases hb with rfl | rfl <;> simp [dataRecord, firstBody, byteAt, hasBit]
  · refine Nat.le_trans (Nat.le_of_eq ?_) hf
    rcases hb with rfl | rfl <;> simp [newBlocks, dataRecord, firstBody, byteAt, hasBit]

/-- A STARVED job that holds P0's feed, with its cursor past its one page. -/
def starvedJob : Job :=
  { aJob with state := .starved, reason := none, closed := false, stream := true, started := true, pages := [some 5]
              cursorPage := 2, feedPort := some 0 }

/-- P0 is fed by the STARVED job; blocks 5 and 6 are free. -/
def starvedState : State :=
  { (withPage 5 { aPage 0 with place := some 1 } (withPort 0 { (fed []) with starveTimer := some 20 }
      (withJob 0 starvedJob (withQueue 0 aQueue idle)))) with freePool := [5, 6] }

/-- The WAITING job that is still sent, with blocks 5 and 6 free. -/
def sentFive : State := { sent with freePool := [5, 6] }

/-- A job with a filling page passes every check of R53 for a further frame. -/
theorem filling_passes_next (b : List Byte) (s : State) (hb : b = firstBody 0 ∨ b = firstBody 2)
    (hj : s.jobs = fillingState.jobs) (hp : s.pages = fillingState.pages) (hf : s.freePool = fillingState.freePool) :
    PageDataPasses s b 0 0 := by
  have hlen : s.freePool.length = 65535 := by rw [hf, fillingState_pool, List.length_range]
  have hrec : dataRecord s b 0 0 = fillingPage := by
    unfold dataRecord
    rw [if_neg (by rcases hb with rfl | rfl <;> decide +kernel), hp]
    decide +kernel
  refine ⟨⟨?_, ?_, ?_⟩, ?_, ?_, ?_, ?_, ?_, ?_, ?_⟩
  · rcases hb with rfl | rfl <;> rfl
  · rw [hj]; rcases hb with rfl | rfl <;> decide +kernel
  · rw [hj]; decide +kernel
  · rw [hj]; decide +kernel
  · rw [hj]; decide +kernel
  · rw [hj]; decide +kernel
  · rcases hb with rfl | rfl <;> decide +kernel
  · rw [if_neg (by rcases hb with rfl | rfl <;> decide +kernel), hj]; decide +kernel
  · rw [hrec]; rcases hb with rfl | rfl <;> decide +kernel
  · unfold newBlocks; rw [hrec, hlen]; rcases hb with rfl | rfl <;> decide +kernel

/-- A taken PAGE_DATA of this body that names slot 0, of which `why` holds: the first failed check of R53. -/
def RefusedFor (b : List Byte) (s : State) (why : Prop) : Prop :=
  Takes (ask 0x02 b s) 0x02 7 b ∧ ¬badForm 0x02 b ∧ Names (ask 0x02 b s) (byteAt b 0) (byteAt b 1) 0 ∧ why

/-- A request is refused for `why` when the state takes requests and the body is well formed. -/
theorem refusedFor_of (b : List Byte) {s : State} {why : Prop} (h : s.restarting = false ∧ s.replies = [])
    (hb : ¬badForm 0x02 b) (hn : Names s (byteAt b 0) (byteAt b 1) 0) (hw : why) : RefusedFor b s why :=
  ⟨takes_ask _ _ _ h.1 h.2, hb, hn, hw⟩

/-- Slot 0 is still sent, and no page record is FREE. -/
def fullRecords : State := { sentFive with pages := Vector.replicate 4096 (aPage 0) }

/-- The checks of R53 up to STATE pass for the job in slot 0. -/
def StateFits (b : List Byte) (s : State) : Prop :=
  s.jobs[(0 : SlotId)].state = .waiting ∧ s.jobs[(0 : SlotId)].closed = false ∧
    s.jobs[(0 : SlotId)].filling.isSome ≠ hasBit (byteAt b 2) 0

/-- PageDataFillsTheRecord: refusals STATE, RANGE, PAGE_LIMIT and STORE_FULL; a first frame and a further one, without
LAST. -/
theorem witness_PageDataFillsTheRecord :
    -- STATE: FIRST with a filling page, no FIRST without one, a Closed job
    (RefusedFor (firstBody 1) fillingState
        (fillingState.jobs[(0 : SlotId)].filling.isSome = hasBit (byteAt (firstBody 1) 2) 0) ∧
      RefusedFor (firstBody 0) sentFive
        (sentFive.jobs[(0 : SlotId)].filling.isSome = hasBit (byteAt (firstBody 0) 2) 0) ∧
      RefusedFor (firstBody 1) (withJob 0 aJob idle) ((withJob 0 aJob idle).jobs[(0 : SlotId)].closed = true)) ∧
    -- RANGE: an attribute byte of 48, 4,097 bytes of data
    (RefusedFor [0, 0, 1, 48, 0x41] sentFive (StateFits [0, 0, 1, 48, 0x41] sentFive ∧
        hasBit (byteAt [0, 0, 1, 48, 0x41] 2) 0 = true ∧ 48 ≤ (byteAt [0, 0, 1, 48, 0x41] 3).toNat) ∧
      RefusedFor ([0, 0, 1, 0x29] ++ List.replicate 4097 0) sentFive
        (StateFits ([0, 0, 1, 0x29] ++ List.replicate 4097 0) sentFive ∧
          4096 < (([0, 0, 1, 0x29] ++ List.replicate 4097 0 : List Byte).drop 4).length)) ∧
    -- PAGE_LIMIT: no FREE record, a page of 16,777,216 bytes
    (RefusedFor (firstBody 1) fullRecords (StateFits (firstBody 1) fullRecords ∧
        ∀ k : RecordId, fullRecords.pages[k].state ≠ .free) ∧
      RefusedFor (firstBody 0) (withPage 0 { fillingPage with length := 16777216 } fillingState)
        (StateFits (firstBody 0) (withPage 0 { fillingPage with length := 16777216 } fillingState) ∧
          16777216 < (dataRecord (withPage 0 { fillingPage with length := 16777216 } fillingState) (firstBody 0) 0
            0).length + ((firstBody 0).drop 4).length)) ∧
    -- STORE_FULL: no free block
    RefusedFor (firstBody 1) { sentFive with freePool := [] } (StateFits (firstBody 1) { sentFive with freePool := [] } ∧
      sentFive.pages[(0 : RecordId)].state = .free ∧
      ({ sentFive with freePool := [] } : State).freePool.length <
        newBlocks { sentFive with freePool := [] } (firstBody 1) 0 0) ∧
    (Takes (ask 0x02 (firstBody 1) sentFive) 0x02 7 (firstBody 1) ∧ ¬badForm 0x02 (firstBody 1) ∧
        PageDataPasses (ask 0x02 (firstBody 1) sentFive) (firstBody 1) 0 0 ∧ hasBit (byteAt (firstBody 1) 2) 1 = false) ∧
      (Takes (ask 0x02 (firstBody 0) fillingState) 0x02 7 (firstBody 0) ∧ ¬badForm 0x02 (firstBody 0) ∧
        PageDataPasses (ask 0x02 (firstBody 0) fillingState) (firstBody 0) 0 0 ∧
        hasBit (byteAt (firstBody 0) 2) 1 = false) := by
  have form1 : ∀ b : List Byte, b = firstBody 1 ∨ b = firstBody 0 ∨ b = [0, 0, 1, 48, 0x41] → ¬badForm 0x02 b := by
    rintro _ (rfl | rfl | rfl) <;> unfold badForm bodyBits <;> decide +kernel
  refine ⟨⟨refusedFor_of _ ⟨rfl, rfl⟩ (form1 _ (.inl rfl)) ⟨rfl, rfl, by decide +kernel⟩ (by decide +kernel),
      refusedFor_of _ ⟨rfl, rfl⟩ (form1 _ (.inr (.inl rfl))) ⟨rfl, rfl, by decide +kernel⟩ (by decide +kernel),
      refusedFor_of _ ⟨rfl, rfl⟩ (form1 _ (.inl rfl)) ⟨rfl, rfl, by decide +kernel⟩ (by decide +kernel)⟩,
    ⟨refusedFor_of _ ⟨rfl, rfl⟩ (form1 _ (.inr (.inr rfl))) ⟨rfl, rfl, by decide +kernel⟩
        ⟨by unfold StateFits; decide +kernel, by decide +kernel⟩,
      refusedFor_of _ ⟨rfl, rfl⟩ (by unfold badForm bodyBits; decide +kernel) ⟨rfl, rfl, by decide +kernel⟩
        ⟨by unfold StateFits; decide +kernel, by decide +kernel⟩⟩,
    ⟨refusedFor_of _ ⟨rfl, rfl⟩ (form1 _ (.inl rfl)) ⟨rfl, rfl, by decide +kernel⟩
        ⟨by unfold StateFits; decide +kernel, fun k => by simp [fullRecords, aPage]⟩,
      refusedFor_of _ ⟨rfl, rfl⟩ (form1 _ (.inr (.inl rfl))) ⟨rfl, rfl, by decide +kernel⟩
        ⟨by unfold StateFits; decide +kernel, by decide +kernel⟩⟩,
    refusedFor_of _ ⟨rfl, rfl⟩ (form1 _ (.inl rfl)) ⟨rfl, rfl, by decide +kernel⟩
      ⟨by unfold StateFits; decide +kernel, by decide +kernel, by decide +kernel⟩, ?_⟩
  exact ⟨⟨takes_ask _ _ _ rfl rfl, by unfold badForm bodyBits; decide +kernel,
      passes_first _ _ _ (.inl rfl) rfl (by decide +kernel) (by decide +kernel) (by decide +kernel), by decide +kernel⟩,
    takes_ask _ _ _ rfl rfl, by unfold badForm bodyBits; decide +kernel,
    filling_passes_next _ _ (.inl rfl) (ask_jobs ..) (ask_pages ..) (ask_freePool ..), by decide +kernel⟩

/-- P0 is fed by the job, ACTIVE again. -/
def activeState : State := withJob 0 { starvedJob with state := .active } starvedState

/-- LastSealsThePage: a WAITING job, a STARVED one whose cursor stands on the new place, and an ACTIVE one. -/
theorem witness_LastSealsThePage :
    (Takes (ask 0x02 (firstBody 3) sentFive) 0x02 7 (firstBody 3) ∧ ¬badForm 0x02 (firstBody 3) ∧
        PageDataPasses (ask 0x02 (firstBody 3) sentFive) (firstBody 3) 0 0 ∧ hasBit (byteAt (firstBody 3) 2) 1 = true ∧
        sentFive.jobs[(0 : SlotId)].state = .waiting) ∧
      (Takes (ask 0x02 (firstBody 3) starvedState) 0x02 7 (firstBody 3) ∧
        PageDataPasses (ask 0x02 (firstBody 3) starvedState) (firstBody 3) 0 0 ∧
        starvedState.jobs[(0 : SlotId)].state = .starved ∧ starvedState.jobs[(0 : SlotId)].feedPort = some 0 ∧
        starvedState.ports[(0 : PortId)].feedOwner = some 0 ∧
        starvedState.jobs[(0 : SlotId)].cursorPage = starvedState.jobs[(0 : SlotId)].pages.length + 1) ∧
      (Takes (ask 0x02 (firstBody 3) activeState) 0x02 7 (firstBody 3) ∧
        PageDataPasses (ask 0x02 (firstBody 3) activeState) (firstBody 3) 0 0 ∧
        activeState.jobs[(0 : SlotId)].state = .active ∧ activeState.jobs[(0 : SlotId)].feedPort = some 0 ∧
        activeState.ports[(0 : PortId)].feedOwner = some 0) :=
  ⟨⟨takes_ask _ _ _ rfl rfl, by unfold badForm bodyBits; decide +kernel,
      passes_first _ _ _ (.inr rfl) rfl (by decide +kernel) (by decide +kernel) (by decide +kernel), by decide +kernel,
      by decide +kernel⟩,
    ⟨takes_ask _ _ _ rfl rfl,
      passes_first _ _ _ (.inr rfl) rfl (by decide +kernel) (by decide +kernel) (by decide +kernel), by decide +kernel⟩,
    takes_ask _ _ _ rfl rfl,
    passes_first _ _ _ (.inr rfl) rfl (by decide +kernel) (by decide +kernel) (by decide +kernel), by decide +kernel⟩

/-- The Page Store of a state with one filling page is sound. -/
theorem storeSound_of_fillingState {s : State} (hj : s.jobs = fillingState.jobs) (hp : s.pages = fillingState.pages)
    (hf : s.freePool = fillingState.freePool) : StoreSound s := by
  obtain ⟨F, hFp, hFf, J⟩ : ∃ F : Job, F.pages = [] ∧ F.filling = none ∧
      ∀ k : SlotId, s.jobs[k] = if k = 0 then fillingJob else F := ⟨_, rfl, rfl, jobs_of_set hj⟩
  obtain ⟨G, hGc, hGl, P⟩ : ∃ G : PageRecord, G.chain = [] ∧ G.length = 0 ∧
      ∀ r : RecordId, s.pages[r] = if r = 0 then fillingPage else G := by
    refine ⟨PageRecord.freeRecord, rfl, rfl, fun r => ?_⟩
    have := hp.trans fillingState_pages
    simp only [this, Fin.getElem_fin, Vector.getElem_set, Vector.getElem_replicate, Fin.ext_iff, eq_comm]
    rfl
  refine ⟨?_, fun j k r h => ?_, fun j r h => ?_, fun r h => ?_, fun r => ?_⟩
  · have hc : allChains s = [65535] := by
      have h : s.pages.toList = fillingPage :: List.replicate 4095 PageRecord.freeRecord := by
        rw [hp, fillingState_pages, Vector.toList_set, Vector.toList_replicate, List.replicate_succ, List.set_cons_zero]
      have hz : (List.replicate 4095 PageRecord.freeRecord).flatMap (fun r => r.chain) = [] := by
        rw [List.flatMap_eq_nil_iff]
        intro r hr
        rw [List.eq_of_mem_replicate hr]
        rfl
      rw [allChains, h, List.flatMap_cons, hz]
      rfl
    rw [BlocksPartitioned, hc, hf, fillingState_pool, ← List.range_succ]
    exact List.Perm.refl _
  · rw [J] at h
    split at h
    · exact absurd h (by simp [fillingJob])
    · rw [hFp] at h; exact absurd h (by simp)
  · rw [J] at h
    split at h
    · rename_i hj0
      obtain rfl : (0 : RecordId) = r := Option.some.inj h
      rw [P, if_pos rfl, hj0]
      exact ⟨rfl, rfl⟩
    · rw [hFf] at h; exact absurd h (by simp)
  · rw [P] at h ⊢
    split at h
    · exact absurd h (by decide)
    · rename_i hr; rw [if_neg hr]; exact ⟨hGc, hGl⟩
  · rw [P]; split
    · decide +kernel
    · rw [hGc, hGl]; rfl

/-- Slot 0 has no page, every block is free, and block 0 still holds a byte of an earlier page. -/
def emptyJobState : State :=
  { withJob 0 { aJob with closed := false, pages := [] } (withQueue 0 { aQueue with mode := .load } idle) with
    dram := [(0, 7)] }

theorem emptyJobState_pool : emptyJobState.freePool = fullPool := by
  simp only [emptyJobState, withJob, withQueue, idle, State.reset]
theorem emptyJobState_pages : emptyJobState.pages = Vector.replicate 4096 PageRecord.freeRecord := rfl

/-- The Page Store of a state without pages is sound. -/
theorem storeSound_of_emptyJobState {s : State} (hj : s.jobs = emptyJobState.jobs) (hp : s.pages = emptyJobState.pages)
    (hf : s.freePool = fullPool) : StoreSound s := by
  have J : ∀ k : SlotId, s.jobs[k].pages = [] ∧ s.jobs[k].filling = none := fun k => by
    rw [jobs_of_set (j := 0) hj k]; split <;> exact ⟨rfl, rfl⟩
  have P : ∀ r : RecordId, s.pages[r] = PageRecord.freeRecord := fun r => by
    rw [hp, emptyJobState_pages, Fin.getElem_fin, Vector.getElem_replicate]
  refine ⟨?_, fun j k r h => ?_, fun j r h => ?_, fun r _ => ?_, fun r => ?_⟩
  · have hc : allChains s = [] := by
      rw [allChains, hp, emptyJobState_pages, Vector.toList_replicate, List.flatMap_eq_nil_iff]
      intro r hr
      rw [List.eq_of_mem_replicate hr]
      rfl
    rw [BlocksPartitioned, hc, hf, List.append_nil]
    exact List.Perm.refl _
  · rw [(J j).1] at h; exact absurd h (by simp)
  · rw [(J j).2] at h; exact absurd h (by simp)
  · rw [P]; exact ⟨rfl, rfl⟩
  · rw [P]; rfl

/-- PageBytesReadBack: a first frame, whose byte falls on one that an earlier page left, and a further frame for a
filling page, in a sound store. -/
theorem witness_PageBytesReadBack :
    (StoreSound (ask 0x02 (firstBody 1) emptyJobState) ∧ DramCanonical (ask 0x02 (firstBody 1) emptyJobState) ∧
        Takes (ask 0x02 (firstBody 1) emptyJobState) 0x02 7 (firstBody 1) ∧ ¬badForm 0x02 (firstBody 1) ∧
        PageDataPasses (ask 0x02 (firstBody 1) emptyJobState) (firstBody 1) 0 0 ∧
        hasBit (byteAt (firstBody 1) 2) 0 = true) ∧
      StoreSound (ask 0x02 (firstBody 2) fillingState) ∧ DramCanonical (ask 0x02 (firstBody 2) fillingState) ∧
      Takes (ask 0x02 (firstBody 2) fillingState) 0x02 7 (firstBody 2) ∧ ¬badForm 0x02 (firstBody 2) ∧
      PageDataPasses (ask 0x02 (firstBody 2) fillingState) (firstBody 2) 0 0 ∧
      hasBit (byteAt (firstBody 2) 2) 0 = false :=
  ⟨⟨storeSound_of_emptyJobState (ask_jobs ..) (ask_pages ..) ((ask_freePool ..).trans emptyJobState_pool), rfl,
      takes_ask _ _ _ rfl rfl, by unfold badForm bodyBits; decide +kernel,
      passes_first _ _ _ (.inl rfl) rfl (by decide +kernel) (by decide +kernel)
        (by simp [ask_freePool, emptyJobState_pool, fullPool, Config.blockCount]),
      by decide +kernel⟩,
    storeSound_of_fillingState (ask_jobs ..) (ask_pages ..) (ask_freePool ..), rfl, takes_ask _ _ _ rfl rfl,
    by unfold badForm bodyBits; decide +kernel,
    filling_passes_next _ _ (.inr rfl) (ask_jobs ..) (ask_pages ..) (ask_freePool ..), by decide +kernel⟩

/-- PageDiscardFreesTheFillingPage: a job without a filling page, and one with record 0. -/
theorem witness_PageDiscardFreesTheFillingPage :
    (Takes (ask 0x03 [0, 0] sent) 0x03 7 [0, 0] ∧ Names sent 0 0 0 ∧ sent.jobs[(0 : SlotId)].filling = none) ∧
      (Takes (ask 0x03 [0, 0] fillingState) 0x03 7 [0, 0] ∧ Names fillingState 0 0 0 ∧
        fillingState.jobs[(0 : SlotId)].state ≠ .done ∧ fillingState.jobs[(0 : SlotId)].state ≠ .cancelling ∧
        fillingState.jobs[(0 : SlotId)].filling = some 0) := by
  unfold Takes Names; decide +kernel

/-- The request CLOSE_JOB for slot 0 in `shop x p idle`. -/
def closing (x : Job) (p : Port) : State := ask 0x04 [0, 0] (shop x p idle)

/-- A job that is not Closed, with two copies and its cursor past the end of copy 1. -/
def openJob : Job := { aJob with closed := false, stream := true, copies := 2, cursorPage := 3 }

/-- A job that feeds P0, is not Closed, and stands past the end of copy 1 of 2. -/
def crossingJob (st : JobState) : Job := { (feeding 3) with state := st, closed := false, copies := 2 }

/-- CloseJobClosesAndSendsOut: a Closed job; a WAITING job at the end of copy 1 of 2; a job of one copy past its last
page, ACTIVE with a TAKEN entry, and WAITING without entries; and at the end of copy 1 of 2 an ACTIVE and a STARVED
job. -/
theorem witness_CloseJobClosesAndSendsOut :
    (Takes (closing aJob aPort) 0x04 7 [0, 0] ∧ Names (closing aJob aPort) 0 0 0 ∧
        (closing aJob aPort).jobs[(0 : SlotId)].closed = true) ∧
      (Takes (closing openJob aPort) 0x04 7 [0, 0] ∧ Names (closing openJob aPort) 0 0 0 ∧
        openJob.closed = false ∧ openJob.filling = none ∧ openJob.pages ≠ [] ∧ (openJob.pages.filterMap id).Nodup ∧
        openJob.feedPort = none ∧ openJob.pages.length < openJob.cursorPage ∧ openJob.cursorCopy < openJob.copies ∧
        openJob.proofRun = false) ∧
      (Takes (closing { openJob with copies := 1 } aPort) 0x04 7 [0, 0] ∧
        openJob.cursorCopy = 1 ∧ (closing { openJob with copies := 1 } aPort).hasUnsettled 0 = false ∧
        (closing { openJob with copies := 1 } aPort).hasEntries 0 = false) ∧
      (Takes (closing { (feeding 3) with closed := false } (fed [anEntry 1 .taken])) 0x04 7 [0, 0] ∧
        (feeding 3).feedPort = some 0 ∧
        (closing { (feeding 3) with closed := false } (fed [anEntry 1 .taken])).ports[(0 : PortId)].feedOwner = some 0 ∧
        (closing { (feeding 3) with closed := false } (fed [anEntry 1 .taken])).hasUnsettled 0 = false ∧
        (closing { (feeding 3) with closed := false } (fed [anEntry 1 .taken])).hasEntries 0 = true) ∧
      ∀ st ∈ [JobState.active, .starved], Takes (closing (crossingJob st) (fed [])) 0x04 7 [0, 0] ∧
        Names (closing (crossingJob st) (fed [])) 0 0 0 ∧ (crossingJob st).feedPort = some 0 ∧
        (closing (crossingJob st) (fed [])).ports[(0 : PortId)].feedOwner = some 0 ∧
        (crossingJob st).pages.length < (crossingJob st).cursorPage ∧
        (crossingJob st).cursorCopy < (crossingJob st).copies ∧ (crossingJob st).proofRun = false ∧
        (crossingJob st).state = st ∧ (crossingJob st).pages = [some 0, some 1] ∧
        (closing (crossingJob st) (fed [])).pages[(0 : RecordId)].sheeted ≠ (crossingJob st).copies ∧
        (closing (crossingJob st) (fed [])).pages[(1 : RecordId)].sheeted ≠ (crossingJob st).copies := by
  unfold Takes Names; decide +kernel

/-- CancelJobReleasesAndDrains: a DONE job, a job without a feed, and one with P0's feed and a STREAMING entry. -/
theorem witness_CancelJobReleasesAndDrains :
    (Takes (ask 0x05 [0, 0] (shop doneJob aPort idle)) 0x05 7 [0, 0] ∧ Names (shop doneJob aPort idle) 0 0 0 ∧
        doneJob.state = .done) ∧
      (Takes (ask 0x05 [0, 0] (shop aJob aPort idle)) 0x05 7 [0, 0] ∧ Names (shop aJob aPort idle) 0 0 0 ∧
        aJob.state = .waiting ∧ aJob.feedPort = none) ∧
      (Takes (ask 0x05 [0, 0] (shop (feeding 2) (fed [anEntry 0 .streaming]) idle)) 0x05 7 [0, 0] ∧
        Names (shop (feeding 2) (fed [anEntry 0 .streaming]) idle) 0 0 0 ∧ (feeding 2).feedPort = some 0 ∧
        (shop (feeding 2) (fed [anEntry 0 .streaming]) idle).ports[(0 : PortId)].holdAsked = false) := by
  unfold Takes Names; decide +kernel

/-- Q0 with slots 0 and 1, and Q1 in LOAD. -/
def twoJobs : State :=
  withQueue 1 { Queue.initial with mode := .load } (withJob 1 aJob (withQueue 0 { aQueue with list := [0, 1] }
    (withJob 0 { aJob with waitSet := 2 } idle)))

/-- MoveJobMovesItsPlace: target 8 and position 3; an ACTIVE job; a DISABLED target; a wait set that names the target; a
second job that is the job itself; and HEAD, and AFTER another job, which are taken. -/
theorem witness_MoveJobMovesItsPlace :
    (∀ b ∈ ([[0, 0, 8, 0, 0, 0], [0, 0, 0, 3, 0, 0], [0, 0, 7, 0, 0, 0], [0, 0, 1, 0, 0, 0], [0, 0, 0, 2, 0, 0],
        [0, 0, 0, 0, 0, 0], [0, 0, 0, 2, 1, 0]] : List (List Byte)), Takes (ask 0x06 b twoJobs) 0x06 7 b) ∧
      Names twoJobs 0 0 0 ∧ twoJobs.jobs[(0 : SlotId)].state = .waiting ∧
      (shop (feeding 2) (fed []) idle).jobs[(0 : SlotId)].state ≠ .waiting ∧
      twoJobs.queues[(7 : QueueId)].mode = .disabled ∧ twoJobs.queues[(0 : QueueId)].mode ≠ .disabled ∧
      hasBit twoJobs.jobs[(0 : SlotId)].waitSet 1 = true ∧ hasBit twoJobs.jobs[(0 : SlotId)].waitSet 0 = false ∧
      Names twoJobs 1 0 1 ∧ (1 : SlotId) ∈ twoJobs.queues[(0 : QueueId)].list ∧ (1 : SlotId) ≠ 0 ∧
      [(1 : SlotId)] = (if twoJobs.jobs[(0 : SlotId)].queue = 0 then
        twoJobs.queues[(0 : QueueId)].list.filter (fun k => k != 0) else twoJobs.queues[(0 : QueueId)].list) := by
  unfold Takes Names; decide +kernel

/-- RetryJobMakesAnErrorJobWait: a WAITING job and one in ERROR. -/
theorem witness_RetryJobMakesAnErrorJobWait :
    (Takes (ask 0x07 [0, 0] (shop aJob aPort idle)) 0x07 7 [0, 0] ∧ Names (shop aJob aPort idle) 0 0 0 ∧
        aJob.state ≠ .error) ∧
      (Takes (ask 0x07 [0, 0] (shop { aJob with state := .error, reason := none } aPort idle)) 0x07 7 [0, 0] ∧
        Names (shop { aJob with state := .error, reason := none } aPort idle) 0 0 0 ∧
        (shop { aJob with state := .error, reason := none } aPort idle).jobs[(0 : SlotId)].state = .error) := by
  unfold Takes Names; decide +kernel

/-- Slot 31 is OPEN with its timer running and one affected job. -/
def alertedJob : State :=
  { (withAlert 31 { AlertSlot.clear with isOpen := true, timer := some 5, affected := [⟨0, 0⟩] } idle) with
    openAlerts := [31] }

/-- QueriesReadAndChangeNothing: one taken request of each kind, with operands at the ends of their ranges, a list with
a job, a window with an entry, and an open alert with an affected job. -/
theorem witness_QueriesReadAndChangeNothing :
    (Takes (ask 0x08 [0, 0] (shop aJob aPort idle)) 0x08 7 [0, 0] ∧ Names (shop aJob aPort idle) 0 0 0) ∧
      (Takes (ask 0x14 [7] idle) 0x14 7 [7] ∧ Takes (ask 0x14 [0] (shop aJob aPort idle)) 0x14 7 [0] ∧
        (shop aJob aPort idle).queues[(0 : QueueId)].list[0]? = some 0) ∧
      (Takes (ask 0x33 [15] idle) 0x33 7 [15] ∧
        Takes (ask 0x33 [0] (shop (feeding 2) (fed [anEntry 0 .streaming]) idle)) 0x33 7 [0] ∧
        (fed [anEntry 0 .streaming]).window[0]? = some (anEntry 0 .streaming)) ∧
      (Takes (ask 0x41 [7, 0, 7, 2] idle) 0x41 7 [7, 0, 7, 2] ∧ (7 : Byte).toNat = (7 : Media).val ∧
        (2 : Byte).toNat = Colour.full.code) ∧
      (Takes (ask 0x41 [0, 1, 3, 0] idle) 0x41 7 [0, 1, 3, 0] ∧ (3 : Byte).toNat = (2 : Fin 3).val + 1) ∧
      Takes (ask 0x53 [127] idle) 0x53 7 [127] ∧
      (Takes (ask 0x62 [] alertedJob) 0x62 7 [] ∧ alertedJob.openAlerts[0]? = some 31 ∧
        alertedJob.alerts[(31 : AlertId)].timer = some 5 ∧
        alertedJob.alerts[(31 : AlertId)].affected[0]? = some ⟨0, 0⟩) ∧
      Takes (ask 0x71 [] idle) 0x71 7 [] ∧ Takes (ask 0x72 [] idle) 0x72 7 [] := by
  unfold Takes Names; decide +kernel

-- ## Queues, routes and passes

/-- QueueModeFollowsItsTable: queue 8 and mode 4; the same mode; each refused change; each taken one. -/
theorem witness_QueueModeFollowsItsTable :
    (∀ b ∈ ([[8, 0], [0, 4], [0, 2], [1, 3], [0, 1], [0, 0], [1, 1], [1, 2]] : List (List Byte)),
        Takes (ask 0x10 b (shop aJob aPort idle)) 0x10 7 b) ∧
      (shop aJob aPort idle).queues[(0 : QueueId)].mode = .run ∧
      (shop aJob aPort idle).queues[(1 : QueueId)].mode = .disabled ∧
      ((withQueue 0 { aQueue with mode := .halt } (shop (feeding 2) (fed []) idle)).queues[(0 : QueueId)].mode = .halt ∧
        ∃ j ∈ (withQueue 0 { aQueue with mode := .halt } (shop (feeding 2) (fed []) idle)).queues[(0 : QueueId)].list,
          (shop (feeding 2) (fed []) idle).jobs[j].feedPort ≠ none) ∧
      ((withQueue 0 { aQueue with mode := .halt } (shop aJob aPort idle)).queues[(0 : QueueId)].mode = .halt ∧
        ∀ j ∈ (withQueue 0 { aQueue with mode := .halt } (shop aJob aPort idle)).queues[(0 : QueueId)].list,
          (shop aJob aPort idle).jobs[j].feedPort = none ∧
          ∀ p : PortId, ∀ e ∈ (shop aJob aPort idle).ports[p].window, e.job ≠ j) := by
  unfold Takes; decide +kernel

/-- The record of slot 0 and that of P0 agree. -/
def PairAgrees (x : Job) (p : Port) : Prop :=
  (p.feedOwner = some 0 ∧ x.feedPort = some 0 ∨ p.feedOwner = none ∧ x.feedPort = none) ∧
    (x.feedPort ≠ none ↔ x.state = .active ∨ x.state = .starved) ∧ (∀ e ∈ p.window, e.job = 0) ∧
    (∀ e ∈ p.window, e.state = .streaming → p.feedOwner = some 0 ∧ x.state = .active) ∧
    (p.starveTimer ≠ none → p.feedOwner = some 0 ∧ x.state = .starved) ∧
    (hasBit x.flags 1 = true → x.state = .done) ∧ (hasBit x.flags 2 = true → x.state = .cancelling)

theorem shop_ports (x : Job) (p : Port) :
    (shop x p idle).ports = (Vector.replicate 16 Port.initial).set 0 p := rfl

theorem shop_jobs (x : Job) (p : Port) :
    (shop x p idle).jobs = (Vector.replicate 256 (Job.freeSlot 0)).set 0 x := rfl

/-- Feeds and windows agree in the shop when its job and its port agree. -/
theorem feedsAgree_shop {s : State} (x : Job) (p : Port) (hp : s.ports = (shop x p idle).ports)
    (hj : s.jobs = (shop x p idle).jobs) (h : PairAgrees x p) : FeedsAgree s :=
  feedsAgree_of_one (p := 0) (j := 0) (hp.trans (shop_ports x p)) (hj.trans (shop_jobs x p)) h.1 h.2.1 h.2.2.1 h.2.2.2.1
    h.2.2.2.2.1 h.2.2.2.2.2

/-- Slot 0 feeds P0 with a TAKEN and a STREAMING entry. -/
def printing : State := shop (feeding 3) (fed [anEntry 0 .taken, anEntry 1 .streaming]) idle

/-- Feeds and windows agree while slot 0 prints. -/
theorem feedsAgree_printing {s : State} (hp : s.ports = printing.ports) (hj : s.jobs = printing.jobs) : FeedsAgree s :=
  feedsAgree_shop (feeding 3) (fed [anEntry 0 .taken, anEntry 1 .streaming]) hp hj (by unfold PairAgrees; decide +kernel)

/-- HaltTakesTheFeedsOfItsQueue: Q0 in RUN, its job feeding P0. -/
theorem witness_HaltTakesTheFeedsOfItsQueue :
    Takes (ask 0x10 [0, 3] printing) 0x10 7 [0, 3] ∧ (byteAt [0, 3] 0).toNat = (0 : QueueId).val ∧
      byteAt [0, 3] 1 = 3 ∧ printing.queues[(0 : QueueId)].mode = .run ∧ FeedsAgree (ask 0x10 [0, 3] printing) ∧
      ((0 : SlotId) ∈ printing.queues[(0 : QueueId)].list ∧ printing.jobs[(0 : SlotId)].state = .active) :=
  ⟨takes_ask _ _ _ rfl rfl, rfl, rfl, rfl, feedsAgree_printing (ask_ports ..) (ask_jobs ..), by decide +kernel⟩

/-- DispatchStateAndOptionsAreWritten: queue 8 and state 4, and queue 7 with the last values. -/
theorem witness_DispatchStateAndOptionsAreWritten :
    (∀ b ∈ ([[8, 0], [0, 4], [7, 3]] : List (List Byte)), Takes (ask 0x11 b idle) 0x11 7 b) ∧
      (∀ b ∈ ([[8, 0], [7, 3]] : List (List Byte)), Takes (ask 0x12 b idle) 0x12 7 b ∧ (byteAt b 1).toNat < 4) := by
  unfold Takes; decide +kernel

/-- MarksReachTheirQueues: each refusal, a DISABLED queue and one in RUN; edges in and after the start interval, with
and without EXT; and each phase of the mark output. -/
theorem witness_MarksReachTheirQueues :
    (∀ b ∈ ([[8, 0], [0, 9], [7, 7], [1, 0], [0, 8], [0, 1]] : List (List Byte)),
        Takes (ask 0x13 b (shop aJob aPort idle)) 0x13 7 b) ∧
      (shop aJob aPort idle).queues[(1 : QueueId)].mode = .disabled ∧
      (shop aJob aPort idle).queues[(0 : QueueId)].mode = .run ∧
      State.reset.startInterval = true ∧ (shop aJob aPort idle).startInterval = false ∧
      hasBit (shop aJob aPort idle).queues[(0 : QueueId)].received 8 = false ∧
      (∀ q : QueueId, idle.queues[q].mode = .run → hasBit idle.queues[q].received 8 = true) ∧
      { idle with markLine := ⟨1, .high, true⟩ }.markLine.phase = .high ∧
      { idle with markLine := ⟨1, .gap, true⟩ }.markLine.phase = .gap ∧ idle.markLine.phase ≠ .high ∧
      idle.markLine.phase ≠ .gap := by
  unfold Takes; decide +kernel

/-- MemberRequestsChangeOneMember: row 64 and port 16, and row 63 with port 15, for both requests. -/
theorem witness_MemberRequestsChangeOneMember :
    (∀ b ∈ ([[64, 0], [0, 16], [63, 15]] : List (List Byte)), Takes (ask 0x21 b idle) 0x21 7 b ∧ b.length = 2) ∧
      ∀ b ∈ ([[64, 0], [0, 16], [63, 15]] : List (List Byte)), Takes (ask 0x22 b idle) 0x22 7 b ∧ b.length = 2 := by
  unfold Takes; decide +kernel

/-- RowsAndRingsAreWritten: each refusal, and requests at the ends of their ranges that are taken. -/
theorem witness_RowsAndRingsAreWritten :
    (∀ b ∈ ([[64, 0, 0], [63, 0xFF, 0xFF]] : List (List Byte)), Takes (ask 0x20 b idle) 0x20 7 b ∧ b.length = 3) ∧
      (∀ b ∈ ([[8, 0, 0, 0, 0], [0, 0, 0, 0, 3], [0, 2, 1, 1, 0], [0, 0, 64, 0, 0], [0, 1, 2, 0, 0], [0, 1, 2, 0, 2],
          [7, 0, 63, 63, 1], [7, 0, 63, 9, 2]] : List (List Byte)),
        Takes (ask 0x23 b idle) 0x23 7 b ∧ b.length = 5) ∧ idle.rings[(0 : QueueId)].current < 1 ∧
      ∀ b ∈ ([[8, 0], [0, 2], [7, 1], [7, 0]] : List (List Byte)), Takes (ask 0x24 b idle) 0x24 7 b := by
  unfold Takes; decide +kernel

/-- DispatchPassStartsAJob: the shop with its one WAITING job, P0 READY, and a pass in progress; with the page's media
loaded, and with another. -/
theorem witness_DispatchPassStartsAJob :
    ∀ s, s = { (shop aJob aPort idle) with passInProgress := true } ∨
        s = { (shop aJob { aPort with loaded := 3 } idle) with passInProgress := true } →
      s.passInProgress = true ∧ s.queues[(0 : QueueId)].mode = .run ∧
      (∀ k : QueueId, k ≠ 0 → s.queues[k].mode ≠ .run) ∧ s.queues[(0 : QueueId)].dispatch = .free ∧
      s.queues[(0 : QueueId)].list = [0] ∧ s.jobs[(0 : SlotId)].state = .waiting ∧ s.jobs[(0 : SlotId)].queue = 0 ∧
      s.jobs[(0 : SlotId)].started = false ∧ s.jobs[(0 : SlotId)].proofRun = false ∧
      s.jobs[(0 : SlotId)].closed = true ∧
      subBits s.jobs[(0 : SlotId)].waitSet s.queues[(0 : QueueId)].received = true ∧
      s.jobs[(0 : SlotId)].exclusion = none ∧ s.hasEntries 0 = false ∧ 0 < s.jobs[(0 : SlotId)].cursorPage ∧
      s.jobs[(0 : SlotId)].pages[s.jobs[(0 : SlotId)].cursorPage - 1]? = some (some 0) ∧
      s.accounts[s.jobs[(0 : SlotId)].account].unmetered = true ∧ s.rings[(0 : QueueId)].current = (0 : Fin 64).val ∧
      s.rings[(0 : QueueId)].current ≤ s.rings[(0 : QueueId)].last ∧ hasBit s.rows[(0 : Fin 64)] 0 = true ∧
      s.ports[(0 : PortId)].link = .up ∧ s.service 0 = .ready ∧ s.ports[(0 : PortId)].ident = some anIdent ∧
      anIdent.coversNeeds s.jobs[(0 : SlotId)] = true ∧ anIdent.covers s.pages[(0 : RecordId)] = true ∧
      s.ports[(0 : PortId)].window.length < s.ports[(0 : PortId)].depth ∧
      (∀ e ∈ s.ports[(0 : PortId)].window, e.state = .taken) ∧ s.ports[(0 : PortId)].sending = none := by
  rintro s (rfl | rfl) <;> decide +kernel

/-- Q0 in this dispatch state has this list; slot 1 is neither Closed nor STREAM, slot 2 is never-started, slot 3 lacks
Q1's mark; a pass is in progress. -/
def lined (x : Job) (d : DispatchState) (l : List SlotId) : State :=
  { (withJob 1 { aJob with closed := false } (withJob 2 aJob (withJob 3 { aJob with waitSet := 2 }
      (withQueue 0 { aQueue with dispatch := d, list := l } (shop x aPort idle))))) with passInProgress := true }

/-- Q0 and Q1 in RUN with slots 0 and 1, on two accounts, which want P0. -/
def contested : State :=
  { (withQueue 1 { aQueue with list := [1] } (withAccount 1 { Account.initial with unmetered := true }
      (withJob 1 { aJob with queue := 1, account := 1 } (shop aJob aPort idle)))) with passInProgress := true }

/-- A job with no exclusion, at a page that P0's Ident covers, is dispatchable with P0 from row 0, when the rest of
Dispatchable holds. -/
theorem dispatchable_of {s : State} {q : QueueId} {j : SlotId} {r : RecordId}
    (h : s.queues[q].mode = .run ∧ s.jobs[j].state = .waiting ∧ s.jobs[j].queue = q ∧ s.jobs[j].closed = true ∧
      s.jobs[j].nextPage = some r ∧
      (s.jobs[j].started = true ∨ s.jobs[j].proofRun = true ∨
        ((s.queues[q].dispatch = .step ∨ s.queues[q].dispatch = .free) ∧
          subBits s.jobs[j].waitSet s.queues[q].received = true) ∨ s.queues[q].dispatch = .proof) ∧
      s.accounts[s.jobs[j].account].unmetered = true ∧ s.jobs[j].exclusion = none ∧
      (∀ k : PortId, s.ports[k].window = []) ∧ s.ports[(0 : PortId)].link = .up ∧ s.service 0 = .ready ∧
      s.ports[(0 : PortId)].ident = some anIdent ∧ anIdent.coversNeeds s.jobs[j] = true ∧
      anIdent.covers s.pages[r] = true ∧ hasBit s.rows[(0 : Fin 64)] 0 = true ∧
      s.rings[q] = { first := 0, last := 0, current := 0, pinned := false }) : Dispatchable s q j 0 0 r := by
  obtain ⟨h1, h2, h3, h4, h5, h6, h7, h8, h9, h10, h11, h12, h13, h14, h15, h16⟩ := h
  refine ⟨h1, h2, h3, .inl h4, h5, ?_, .inl h7, fun k e he => ?_, fun x hx => ?_, h10, h11, ⟨_, h12, h13, h14⟩, h15,
    fun k hk => absurd hk (by simp), by simp [h16], by simp, fun _ => by simp [h16], fun m k _ hm => absurd hm (by simp)⟩
  · rcases h6 with h | h | h | h
    · exact .inl h
    · exact .inr (.inl h)
    · exact .inr (.inr (.inl h))
    · exact .inr (.inr (.inr ⟨h, h4⟩))
  · rw [h9 k] at he; cases he
  · rw [h8] at hx; cases hx

/-- DispatchPassDecidesContests: a first real start in STEP behind a job passed over and one that lacks marks, before a
never-started one; a proof start in PROOF; a reclaim in HOLD; and two queues that want P0. -/
theorem witness_DispatchPassDecidesContests :
    (Dispatchable (lined aJob .step [1, 3, 0, 2]) 0 0 0 0 0 ∧ (0 : SlotId) ∉ ([1, 3] : List SlotId) ∧
        PassedOver (lined aJob .step [1, 3, 0, 2]) 0 1 ∧ LacksMarks (lined aJob .step [1, 3, 0, 2]) 0 3 ∧
        (lined aJob .step [1, 3, 0, 2]).jobs[(2 : SlotId)].started = false ∧
        (lined aJob .step [1, 3, 0, 2]).queues[(0 : QueueId)].dispatch ≠ .free ∧
        (lined aJob .step [1, 3, 0, 2]).passInProgress = true ∧
        ∀ k : QueueId, k ≠ 0 → (lined aJob .step [1, 3, 0, 2]).queues[k].mode ≠ .run) ∧
      Dispatchable (lined aJob .proof [0]) 0 0 0 0 0 ∧
      (Dispatchable (lined { aJob with started := true } .hold [1, 0, 2]) 0 0 0 0 0 ∧
        PassedOver (lined { aJob with started := true } .hold [1, 0, 2]) 0 1 ∧
        PassedOver (lined { aJob with started := true } .hold [1, 0, 2]) 0 2) ∧
      (Dispatchable contested 0 0 0 0 0 ∧ Dispatchable contested 1 1 0 0 0 ∧ contested.passInProgress = true ∧
        contested.queues[(0 : QueueId)].list = [0] ∧ contested.queues[(1 : QueueId)].list = [1] ∧
        contested.jobs[(0 : SlotId)].account ≠ contested.jobs[(1 : SlotId)].account ∧
        (∀ k : QueueId, k ≠ 0 → k ≠ 1 → contested.queues[k].mode ≠ .run) ∧
        (∀ k : PortId, hasBit contested.rows[(0 : Fin 64)] k.val = true → k = 0) ∧
        contested.rings[(1 : QueueId)] = { first := 0, last := 0, current := 0, pinned := false }) := by
  refine ⟨⟨dispatchable_of (by decide +kernel), ?_⟩, dispatchable_of (by decide +kernel),
    ⟨dispatchable_of (by decide +kernel), ?_⟩, dispatchable_of (by decide +kernel), dispatchable_of (by decide +kernel), ?_⟩
  · unfold PassedOver LacksMarks; decide +kernel
  · unfold PassedOver; decide +kernel
  · decide +kernel

/-- The shop with a pass in progress, for the examinations of the next witness. -/
def examined (x : Job) (p : Port) (d : DispatchState) : State :=
  withQueue 0 { aQueue with dispatch := d } { (shop x p idle) with passInProgress := true }

/-- Q0's only port P0 could be claimed by another job, but slot 0 may not claim it (R76). -/
def KeptFrom (s : State) : Prop := s.claimable 0 = true ∧ ¬MayClaim s 0 0

/-- The shop with a pass in progress and Q0's REROUTE option as given, where slot 0 has this record. -/
def rerouting (on : Bool) (x : Job) (p : Port) : State :=
  withQueue 0 { aQueue with reroute := on } { (shop x p idle) with passInProgress := true }

/-- ExaminationWritesTheFirstFailedTest: the ROUTE cases of R75 and R76 at a READY port that is UP. The job's exclusion
names the port, names another one with REROUTE off, or has a reroute tick that has not come; the Ident lacks a Need, of
colour, duplex or media; the job's entries stand at another claimable port. -/
theorem witness_ExaminationRoutes :
    KeptFrom (rerouting true { aJob with exclusion := some { port := 0, tick := 0 } } aPort) ∧
      KeptFrom (rerouting false { aJob with exclusion := some { port := 1, tick := 0 } } aPort) ∧
      KeptFrom (rerouting true { aJob with exclusion := some { port := 1, tick := 1 } } aPort) ∧
      KeptFrom (rerouting true { aJob with needsColour := true }
        { aPort with ident := some { anIdent with colour := false } }) ∧
      KeptFrom (rerouting true { aJob with needsDuplex := true }
        { aPort with ident := some { anIdent with duplex := false } }) ∧
      KeptFrom (rerouting true { aJob with needsMedia := 2 }
        { aPort with ident := some { anIdent with media := 1 } }) ∧
      (KeptFrom (withPort 1 { aPort with window := [anEntry 0 .taken] }
          (rerouting true { aJob with started := true } aPort)) ∧
        (withPort 1 { aPort with window := [anEntry 0 .taken] }
          (rerouting true { aJob with started := true } aPort)).entryPort 0 = some 1 ∧
        (withPort 1 { aPort with window := [anEntry 0 .taken] }
          (rerouting true { aJob with started := true } aPort)).claimable 1 = true) ∧
      ∀ (n : Fin 64) (p : PortId), hasBit (rerouting true aJob aPort).rows[n] p.val = true →
        n.val = (rerouting true aJob aPort).rings[(0 : QueueId)].current → p = 0 := by
  refine ⟨⟨by decide +kernel, ?_⟩, ⟨by decide +kernel, ?_⟩, ⟨by decide +kernel, ?_⟩, ⟨by decide +kernel, ?_⟩,
    ⟨by decide +kernel, ?_⟩, ⟨by decide +kernel, ?_⟩, ⟨⟨by decide +kernel, ?_⟩, by decide +kernel, by decide +kernel⟩,
    by decide +kernel⟩
  · exact fun h => (h.2.2.2.1 _ rfl).1 rfl
  · exact fun h => absurd (h.2.2.2.1 _ rfl).2.1 (by decide +kernel)
  · exact fun h => absurd (h.2.2.2.1 _ rfl).2.2 (by decide +kernel)
  · rintro ⟨-, -, ⟨i, hi, h, -⟩, -⟩
    cases hi
    exact absurd (h (by decide +kernel)) (by decide +kernel)
  · rintro ⟨-, -, ⟨i, hi, -, h, -⟩, -⟩
    cases hi
    exact absurd (h (by decide +kernel)) (by decide +kernel)
  · rintro ⟨-, -, ⟨i, hi, -, -, h⟩, -⟩
    cases hi
    exact absurd (h 1 (by decide +kernel)) (by decide +kernel)
  · rintro ⟨-, -, -, -, h | h⟩
    · exact absurd h (by decide +kernel)
    · exact h 1 (anEntry 0 .taken) (by decide +kernel) rfl

/-- ExaminationWritesTheFirstFailedTest: no pass; no queue in RUN; a job that is not WAITING; a never-started job in
HOLD; and for each reason a job that it is written to. -/
theorem witness_ExaminationWritesTheFirstFailedTest :
    (idle.passInProgress = false ∧ ∀ k : QueueId, idle.queues[k].mode ≠ .run) ∧
      (∀ d ∈ [DispatchState.hold, .proof, .free],
        (examined aJob aPort d).passInProgress = true ∧ (examined aJob aPort d).queues[(0 : QueueId)].mode = .run ∧
        (examined aJob aPort d).queues[(0 : QueueId)].list = [0] ∧
        (examined aJob aPort d).rings[(0 : QueueId)] = { first := 0, last := 0, current := 0, pinned := false }) ∧
      (∀ k : QueueId, k ≠ 0 → (examined aJob aPort .free).queues[k].mode ≠ .run) ∧
      (aJob.state = .waiting ∧ aJob.closed = true ∧ aJob.nextPage = some 0 ∧ aJob.started = false ∧
        aJob.proofRun = false) ∧
      -- MARKS: Q1's member is wanted and not received
      subBits ({ aJob with waitSet := 2 } : Job).waitSet (examined aJob aPort .free).queues[(0 : QueueId)].received =
        false ∧
      -- ALLOWANCE: a metered account with no allowance
      ((examined { aJob with account := 1 } aPort .free).accounts[(1 : AccountId)].unmetered = false ∧
        (examined { aJob with account := 1 } aPort .free).accounts[(1 : AccountId)].allowance <
          (examined { aJob with account := 1 } aPort .free).accounts[(1 : AccountId)].reserved +
            (examined { aJob with account := 1 } aPort .free).pages[(0 : RecordId)].sides) ∧
      -- DRAIN: its entry stands at P0, which is out of service
      ((examined { aJob with started := true, cursorPage := 2 } { aPort with inService := false, window := [anEntry 0
          .taken] } .free).entryPort 0 = some 0 ∧
        (examined { aJob with started := true, cursorPage := 2 } { aPort with inService := false, window := [anEntry 0
          .taken] } .free).claimable 0 = false) ∧
      -- ROUTE: P0 is out of service
      ((examined aJob { aPort with inService := false } .free).entryPort 0 = none ∧
        ∀ p : PortId, hasBit (examined aJob { aPort with inService := false } .free).rows[(0 : Fin 64)] p.val = true →
          (examined aJob { aPort with inService := false } .free).claimable p = false) := by
  decide +kernel

-- ## Ports and printer messages

/-- Slot 0 feeds P0, which is owed nothing, with a TAKEN entry. -/
def feedingTaken : State := shop (feeding 2) (fed [anEntry 0 .taken]) idle

/-- PortServiceTakesAPortOutAndIn: both refusals; out with a STREAMING entry, with a feed alone, and without a feed,
with hold and without; in for a port in service, for one DOWN by a hold, and for one that holds a feed. -/
theorem witness_PortServiceTakesAPortOutAndIn :
    (∀ b ∈ ([[16, 0, 0], [0, 2, 0], [0, 0, 1], [0, 0, 0], [0, 1, 0]] : List (List Byte)),
        b.length = 3 ∧ (byteAt b 2).toNat ≤ 1 ∧ Takes (ask 0x30 b printing) 0x30 7 b) ∧
      (printing.ports[(0 : PortId)].feedOwner = some 0 ∧
        ∃ e ∈ printing.ports[(0 : PortId)].window, e.state = .streaming) ∧
      (feedingTaken.ports[(0 : PortId)].feedOwner = some 0 ∧
        ∀ e ∈ feedingTaken.ports[(0 : PortId)].window, e.state ≠ .streaming) ∧
      ((shop aJob aPort idle).ports[(0 : PortId)].feedOwner = none ∧
        (shop aJob aPort idle).ports[(0 : PortId)].setup = none ∧
        (shop aJob aPort idle).ports[(0 : PortId)].window = [] ∧
        (shop aJob aPort idle).ports[(0 : PortId)].link = .up) ∧
      printing.ports[(0 : PortId)].inService = true ∧
      (∀ p, p = { aPort with inService := false, link := .down, downCause := some DownCause.hold } →
        p.inService = false ∧ p.feedOwner = none ∧ p.link = .down ∧ p.downCause = some .hold) ∧
      (∀ p, p = { (fed [anEntry 0 .taken, anEntry 1 .streaming]) with inService := false, releaseOwed := true } →
        p.inService = false ∧ p.feedOwner = some 0 ∧ p.link ≠ .down) := by
  unfold Takes
  refine ⟨by decide +kernel, by decide +kernel, by decide +kernel, by decide +kernel, by decide +kernel, ?_, ?_⟩ <;>
    (rintro _ rfl; decide)

/-- PortResetSettlesItsPort: P16, and P0 with a TAKEN and a STREAMING entry. -/
theorem witness_PortResetSettlesItsPort :
    Takes (ask 0x31 [16] printing) 0x31 7 [16] ∧ Takes (ask 0x31 [0] printing) 0x31 7 [0] ∧
      (byteAt [0] 0).toNat = (0 : PortId).val ∧ FeedsAgree (ask 0x31 [0] printing) ∧ AtPort printing 0 0 ∧
      ¬AtPort printing 0 1 :=
  ⟨takes_ask _ _ _ rfl rfl, takes_ask _ _ _ rfl rfl, rfl, feedsAgree_printing (ask_ports ..) (ask_jobs ..),
    .inl rfl, by unfold AtPort; decide +kernel⟩

/-- The shop's port alone, with other fields. -/
def atPort (p : Port) : State := withPort 0 p idle

/-- IdentBringsALinkUp: a DOWN link; capability bit 4 and media 8; a FAST-capable printer and another, in PROBING and in
RATING; an open stop alert with and without the host side and a job with an exclusion; and a port that goes DOWN with
cause HOLD. -/
theorem witness_IdentBringsALinkUp :
    (atPort { aPort with link := .down }).ports[(0 : PortId)].link = .down ∧
      (16 ≤ (0x10 : Byte).toNat ∧ 8 ≤ (8 : Byte).toNat) ∧
      ((atPort Port.initial).ports[(0 : PortId)].link = .probing ∧
        (atPort { aPort with link := .rating }).ports[(0 : PortId)].link = .rating ∧ (0x0F : Byte).toNat < 16 ∧
        (7 : Byte).toNat = (7 : Media).val ∧ (atPort Port.initial).ports[(0 : PortId)].holdAsked = false ∧
        hasBit (0x0F : Byte) 2 = true ∧ hasBit (0x0B : Byte) 2 = false ∧ hasBit (0x0B : Byte) 3 = true ∧
        ∀ h ∈ [false, true], (withAlert 0 { AlertSlot.clear with isOpen := true, hostReleased := h }
          (withJob 0 { aJob with exclusion := some ⟨0, 200⟩ } (atPort Port.initial))).alerts[stopSlot 0].isOpen = true ∧
          (withAlert 0 { AlertSlot.clear with isOpen := true, hostReleased := h }
          (withJob 0 { aJob with exclusion := some ⟨0, 200⟩ } (atPort Port.initial))).alerts[stopSlot 0].hostReleased = h) ∧
      ∀ x, x = { Port.initial with holdAsked := true, inService := false } →
        (atPort x).ports[(0 : PortId)].link = .probing ∧
        (x.holdAsked && !x.inService && x.feedOwner.isNone && x.setup.isNone && x.window.isEmpty) = true := by
  refine ⟨by decide +kernel, by decide +kernel, by decide +kernel, ?_⟩
  rintro x rfl; decide +kernel

/-- RateTestSettlesTheRate: PROBING and UP; no window; the first, second and third echo in RATING. -/
theorem witness_RateTestSettlesTheRate :
    (atPort Port.initial).ports[(0 : PortId)].link = .probing ∧ (atPort aPort).ports[(0 : PortId)].link = .up ∧
      (∀ n ∈ [0, 1, 2], ((atPort { aPort with link := .rating, rateWindow := some n }).ports[(0 : PortId)].link = .rating ∧
        (atPort { aPort with link := .rating, rateWindow := some n }).ports[(0 : PortId)].rateWindow = some n ∧
        (atPort { aPort with link := .rating, rateWindow := some n }).ports[(0 : PortId)].ident = some anIdent ∧
        (atPort { aPort with link := .rating, rateWindow := some n }).ports[(0 : PortId)].holdAsked = false)) := by
  decide +kernel

/-- LostLinksStopTheirPort: a silence that is not due; and on P0 while slot 0 prints, a silence of 30 ticks, an IDENT,
and a TAKEN, an ABORTED and a SHEET that do not fit the window. -/
theorem witness_LostLinksStopTheirPort :
    idle.ports[(0 : PortId)].link = .probing ∧ FeedsAgree { printing with clock := 30 } ∧
      { printing with clock := 30 }.ports[(0 : PortId)].holdAsked = false ∧
      { printing with clock := 30 }.ports[(0 : PortId)].link = .up ∧
      { printing with clock := 30 }.clock = { printing with clock := 30 }.ports[(0 : PortId)].lastHeard + 30 ∧
      ((0x07 : Byte).toNat < 8 ∧ (7 : Byte).toNat < 8) ∧ printing.service 0 ≠ .stopped ∧
      (∀ e ∈ printing.ports[(0 : PortId)].window, e.serial = 0 → e.state = .taken) ∧
      (∀ e ∈ printing.ports[(0 : PortId)].window, e.serial = 1 → e.state ≠ .aborting) ∧
      (∀ e, printing.ports[(0 : PortId)].window.head? = some e → e.serial = 1 → e.state ≠ .taken) := by
  refine ⟨rfl, feedsAgree_printing rfl rfl, rfl, rfl, by decide +kernel, by decide, by decide +kernel, by decide +kernel,
    by decide +kernel, ?_⟩
  intro e he hs
  obtain rfl : anEntry 0 .taken = e := Option.some.inj he
  exact absurd hs (by decide)

/-- A HANDED job of two pages with both entries TAKEN at P0. -/
def handedBoth : State :=
  shop { aJob with state := .handed, reason := none, cursorPage := 3 }
    { aPort with window := [anEntry 0 .taken, anEntry 1 .taken] } idle

/-- JamConfirmsAndStops: a serial-present byte of 2; no serial; a serial that is only STREAMING; one that is TAKEN, before
the STREAMING entry of the feed owner; and one that confirms both entries of a HANDED job, with their pages. -/
theorem witness_JamConfirmsAndStops :
    (printing.ports[(0 : PortId)].link = .up ∧ printing.ports[(0 : PortId)].holdAsked = false ∧ FeedsAgree printing ∧
        1 < (2 : Byte).toNat ∧ (∀ e ∈ printing.ports[(0 : PortId)].window, e.serial = 1 → e.state ≠ .taken) ∧
        printing.ports[(0 : PortId)].window = [] ++ anEntry 0 .taken :: [anEntry 1 .streaming] ∧
        (anEntry 0 .taken).serial = 0 ∧ (anEntry 0 .taken).state = .taken) ∧
      FeedsAgree handedBoth ∧
      (handedBoth.ports[(0 : PortId)].window = [anEntry 0 .taken] ++ anEntry 1 .taken :: [] ∧
        (∀ f ∈ [anEntry 0 .taken], f.serial ≠ 1 ∧ f.state = .taken) ∧ (anEntry 1 .taken).serial = 1 ∧
        handedBoth.ports[(0 : PortId)].feedOwner ≠ some 0 ∧
        ([anEntry 0 .taken, anEntry 1 .taken].map (fun f => handedBoth.jobs[f.job].pageAt f.place) =
          [some 0, some 1] ∧ ([some 0, some 1] : List (Option RecordId)).Nodup)) :=
  ⟨⟨rfl, rfl, feedsAgree_printing rfl rfl, by decide, by decide +kernel, rfl, rfl, rfl⟩,
    feedsAgree_shop _ _ rfl rfl (by unfold PairAgrees; decide +kernel), by decide +kernel⟩

/-- SendEndPutsThePageOnTheLink: no send; the send of the STREAMING entry behind a TAKEN one; and the send of a TAKEN entry
of a feed owner that has a next page. -/
theorem witness_SendEndPutsThePageOnTheLink :
    idle.ports[(0 : PortId)].sending = none ∧
      (∀ s, s = shop (feeding 3) { (fed [anEntry 0 .taken, anEntry 1 .streaming]) with sending := some 1 } idle →
        s.ports[(0 : PortId)].sending = some (anEntry 1 .streaming).serial ∧
        s.ports[(0 : PortId)].window = [anEntry 0 .taken] ++ [anEntry 1 .streaming] ∧
        (∀ f ∈ [anEntry 0 .taken], f.serial ≠ (anEntry 1 .streaming).serial) ∧ (anEntry 1 .streaming).state ≠ .taken ∧
        0 < (anEntry 1 .streaming).place ∧
        s.jobs[(anEntry 1 .streaming).job].pages[(anEntry 1 .streaming).place - 1]? = some (some 1)) ∧
      ∀ s, s = shop (feeding 2) { (fed [anEntry 0 .taken]) with sending := some 0 } idle →
        s.ports[(0 : PortId)].sending = some (anEntry 0 .taken).serial ∧
        s.ports[(0 : PortId)].window = [] ++ [anEntry 0 .taken] ∧ s.ports[(0 : PortId)].feedOwner = some 0 ∧
        s.jobs[(anEntry 0 .taken).job].pages[(anEntry 0 .taken).place - 1]? = some (some 0) ∧
        s.jobs[(0 : SlotId)].nextPage = some 1 := by
  refine ⟨rfl, ?_, ?_⟩ <;> (rintro s rfl; decide +kernel)

/-- Slot 0 waits with an ABORTING entry at P0, whose feed is free. -/
def haltedState : State :=
  shop { aJob with reason := some .halt, cursorPage := 2 } { aPort with window := [anEntry 0 .aborting] } idle

/-- Slot 0 waits, sent out, with an ABORTING entry of its last page at P0, whose feed is free. -/
def sentOutState : State :=
  shop { aJob with reason := some .halt, cursorPage := 3 } { aPort with window := [anEntry 1 .aborting] } idle

/-- Slot 1 feeds P0, whose window has an ABORTING entry of slot 0, WAITING. -/
def guestState : State := withJob 1 (feeding 1) (withPort 0 { (fed [anEntry 0 .aborting]) with
  feedOwner := some 1 } haltedState)

/-- A job of one port's window whose feed another job holds: the feeds and windows agree. -/
theorem feedsAgree_guestState : FeedsAgree guestState := by
  have P : ∀ k : PortId, guestState.ports[k] = if k = 0 then { (fed [anEntry 0 .aborting]) with feedOwner := some 1 }
      else Port.initial := ports_of_set (by rfl)
  have J : ∀ k : SlotId, guestState.jobs[k] = if k = 1 then (feeding 1) else if k = 0 then
      { aJob with reason := some .halt, cursorPage := 2 } else Job.freeSlot 0 := by
    intro k
    simp only [guestState, withJob, withPort, haltedState, shop, withPage, withQueue, idle, State.reset, Fin.getElem_fin,
      Vector.getElem_set, Vector.getElem_replicate, Fin.ext_iff, eq_comm]
  have W : ∀ (k : PortId) (e : SendEntry), e ∈ guestState.ports[k].window → k = 0 ∧ e = anEntry 0 .aborting := by
    intro k e he
    rw [P] at he
    split at he
    · exact ⟨by assumption, by simpa [fed] using he⟩
    · cases he
  refine ⟨fun k l => ?_, fun l => ?_, fun k l e f he hf _ => ?_, fun k l e he hl => ?_, fun k e he hs => ?_,
    fun k hk => ?_, fun l => ?_⟩
  · rw [P, J]
    by_cases hk : k = 0 <;> by_cases hl : l = 1 <;> by_cases hm : l = 0 <;>
      simp_all [feeding, fed, aJob, Job.freeSlot, Port.initial, eq_comm]
  · rw [J]; split
    · simp [feeding]
    · split <;> simp [aJob, Job.freeSlot]
  · rw [(W k e he).1, (W l f hf).1]
  · rw [(W k e he).2, J] at hl; cases hl
  · rw [(W k e he).2] at hs; cases hs
  · rw [P] at hk; split at hk <;> exact absurd rfl hk
  · rw [J]; split
    · decide
    · split <;> decide

/-- TakenSettlesTheEntry: a job sent out; one that is not, with a release owed; one without the feed, sent out or not;
one that holds the feed and has a next page; another job that holds the feed; and a STOPPED port. -/
theorem witness_TakenSettlesTheEntry :
    (FeedsAgree printing ∧ printing.ports[(0 : PortId)].link = .up ∧
        printing.ports[(0 : PortId)].window = [anEntry 0 .taken] ++ [anEntry 1 .streaming] ∧
        (∀ f ∈ [anEntry 0 .taken], f.serial ≠ (anEntry 1 .streaming).serial ∧ f.state = .taken) ∧
        (true = ((feeding 3).closed && decide ((feeding 3).pages.length < (feeding 3).cursorPage) &&
          (feeding 3).cursorCopy == (if (feeding 3).proofRun then 1 else (feeding 3).copies))) ∧
        printing.service 0 ≠ .stopped ∧ printing.ports[(0 : PortId)].feedOwner = some 0) ∧
      (∀ s, s = shop (feeding 2) { (fed [anEntry 0 .streaming]) with releaseOwed := true } idle → FeedsAgree s ∧
        s.ports[(0 : PortId)].window = [] ++ [anEntry 0 .streaming] ∧ s.ports[(0 : PortId)].releaseOwed = true ∧
        decide ((feeding 2).pages.length < (feeding 2).cursorPage) = false) ∧
      (FeedsAgree haltedState ∧ haltedState.ports[(0 : PortId)].window = [] ++ [anEntry 0 .aborting] ∧
        haltedState.ports[(0 : PortId)].feedOwner = none) ∧
      (FeedsAgree sentOutState ∧ sentOutState.ports[(0 : PortId)].window = [] ++ [anEntry 1 .aborting] ∧
        sentOutState.ports[(0 : PortId)].feedOwner = none ∧ sentOutState.jobs[(0 : SlotId)].state = .waiting ∧
        sentOutState.jobs[(0 : SlotId)].closed = true ∧ sentOutState.jobs[(0 : SlotId)].pages.length <
          sentOutState.jobs[(0 : SlotId)].cursorPage ∧ sentOutState.jobs[(0 : SlotId)].cursorCopy =
          sentOutState.jobs[(0 : SlotId)].copies ∧ sentOutState.jobs[(0 : SlotId)].proofRun = false) ∧
      (∀ s, s = shop (feeding 2) (fed [anEntry 0 .streaming]) idle → FeedsAgree s ∧
        s.ports[(0 : PortId)].window = [] ++ [anEntry 0 .streaming] ∧ s.ports[(0 : PortId)].feedOwner = some 0 ∧
        s.ports[(0 : PortId)].releaseOwed = false ∧ s.jobs[(0 : SlotId)].nextPage = some 1) ∧
      (FeedsAgree guestState ∧ guestState.ports[(0 : PortId)].window = [] ++ [anEntry 0 .aborting] ∧
        guestState.ports[(0 : PortId)].feedOwner = some 1 ∧ guestState.jobs[(1 : SlotId)].nextPage = some 0) ∧
      (withAlert 0 { AlertSlot.clear with isOpen := true } haltedState).service 0 = .stopped := by
  refine ⟨⟨feedsAgree_printing rfl rfl, rfl, rfl, by decide +kernel, by decide +kernel, by decide +kernel, rfl⟩, ?_,
    ⟨feedsAgree_shop _ _ rfl rfl (by unfold PairAgrees; decide +kernel), rfl, rfl⟩,
    ⟨feedsAgree_shop _ _ rfl rfl (by unfold PairAgrees; decide +kernel), by decide +kernel⟩, ?_,
    ⟨feedsAgree_guestState, by decide +kernel⟩, by decide +kernel⟩
  · rintro s rfl
    exact ⟨feedsAgree_shop _ _ rfl rfl (by unfold PairAgrees; decide +kernel), rfl, rfl, by decide⟩
  · rintro s rfl
    exact ⟨feedsAgree_shop _ _ rfl rfl (by unfold PairAgrees; decide +kernel), by decide +kernel⟩

/-- A HANDED job of two pages with an entry of its last page at P0. -/
def handedState (x : Job) : State := shop x { aPort with window := [anEntry 1 .taken] } idle

/-- SheetIsCountedAndCharged: the sheet of the worked case, at 350 + 300 and 12.5 %; and one at a port whose feed owner
has a next page. -/
theorem witness_SheetIsCountedAndCharged :
    worked.ports[(0 : PortId)].link = .up ∧ worked.service 0 ≠ .stopped ∧
      worked.ports[(0 : PortId)].window = { anEntry 0 .taken with faces := 2, colour := .full } :: [] ∧
      worked.jobs[(0 : SlotId)].pages[0]? = some (some 0) ∧
      (worked.tariffs[worked.accounts[(0 : AccountId)].group].rates[rateKey worked.pages[(0 : RecordId)].media .full]).getD
        { front := 0, back := 0 } = { front := 350, back := 300 } ∧
      (worked.jobs[(0 : SlotId)].closed && 1 == worked.jobs[(0 : SlotId)].pages.length) = false ∧
      569 = (350 + 300) - ((350 + 300) * worked.accounts[(0 : AccountId)].discount + 500) / 1000 ∧
      (feedingTaken.ports[(0 : PortId)].link = .up ∧ feedingTaken.service 0 ≠ .stopped ∧
        feedingTaken.ports[(0 : PortId)].window = anEntry 0 .taken :: [] ∧
        feedingTaken.jobs[(0 : SlotId)].pages[0]? = some (some 0) ∧
        feedingTaken.ports[(0 : PortId)].feedOwner = some 0 ∧ feedingTaken.jobs[(0 : SlotId)].nextPage = some 1) := by
  decide +kernel

/-- LastSheetCompletesTheJob: a HANDED job, a HANDED job in a proof run, a CANCELLING one, and a WAITING one whose port
has no feed owner; and that port out of service with its hold asked. -/
theorem witness_LastSheetCompletesTheJob :
    (∀ x ∈ [{ aJob with state := .handed, reason := none, cursorPage := 3 },
        { aJob with state := .handed, reason := none, cursorPage := 3, proofRun := true },
        { aJob with state := .cancelling, reason := none, cursorPage := 3 }, { aJob with cursorPage := 3 }],
        (handedState x).ports[(0 : PortId)].link = .up ∧ (handedState x).service 0 ≠ .stopped ∧
        (handedState x).ports[(0 : PortId)].window = [anEntry 1 .taken] ∧
        (handedState x).ports[(0 : PortId)].feedOwner = none ∧
        ∀ k : PortId, k ≠ 0 → ∀ f ∈ (handedState x).ports[k].window, f.job ≠ 0) ∧
      (aJob.state = .waiting) ∧
      ∀ s, s = shop { aJob with cursorPage := 3 } { aPort with
          window := [anEntry 1 .taken], inService := false, holdAsked := true } idle →
        s.ports[(0 : PortId)].link = .up ∧ s.service 0 ≠ .stopped ∧ s.ports[(0 : PortId)].window = [anEntry 1 .taken] ∧
        s.ports[(0 : PortId)].feedOwner = none ∧ s.ports[(0 : PortId)].holdAsked = true ∧
        s.ports[(0 : PortId)].inService = false ∧ s.ports[(0 : PortId)].setup = none ∧
        ∀ k : PortId, k ≠ 0 → ∀ f ∈ s.ports[k].window, f.job ≠ 0 := by
  refine ⟨by decide +kernel, rfl, ?_⟩
  rintro s rfl; decide +kernel

/-- AbortedAndRefusedPagesGoBack: an ABORTING entry without a feed, of a WAITING and of a CANCELLING job; one at a port
whose feed another job holds; and the STREAMING entry of the feed owner. -/
theorem witness_AbortedAndRefusedPagesGoBack :
    (haltedState.ports[(0 : PortId)].link = .up ∧ haltedState.service 0 ≠ .stopped ∧
        haltedState.ports[(0 : PortId)].window = [] ++ [anEntry 0 .aborting] ∧
        haltedState.ports[(0 : PortId)].feedOwner = none ∧ haltedState.jobs[(0 : SlotId)].state ≠ .cancelling) ∧
      (∀ s, s = shop { aJob with state := .cancelling, reason := none } { aPort with window := [anEntry 0 .aborting] }
          idle → s.jobs[(0 : SlotId)].state = .cancelling ∧
        ∀ k : PortId, k ≠ 0 → ∀ f ∈ s.ports[k].window, f.job ≠ 0) ∧
      (printing.ports[(0 : PortId)].window = [anEntry 0 .taken] ++ [anEntry 1 .streaming] ∧
        (∀ f ∈ [anEntry 0 .taken], f.state = .taken) ∧ printing.ports[(0 : PortId)].feedOwner = some 0 ∧
        printing.jobs[(0 : SlotId)].state = .active) ∧
      (guestState.ports[(0 : PortId)].link = .up ∧ guestState.service 0 ≠ .stopped ∧
        guestState.ports[(0 : PortId)].window = [] ++ [anEntry 0 .aborting] ∧
        guestState.ports[(0 : PortId)].feedOwner = some 1 ∧ guestState.jobs[(1 : SlotId)].nextPage = some 0) := by
  refine ⟨by decide +kernel, ?_, by decide +kernel, by decide +kernel⟩
  rintro s rfl
  decide +kernel

/-- A stop alert of P0 with these sides given. -/
def stopped (attendant host : Bool) : State :=
  withAlert 0 { AlertSlot.clear with isOpen := true, primary := some .jam, attendant := attendant, hostReleased := host }
    (withJob 0 { aJob with exclusion := some ⟨0, 200⟩ } (atPort aPort))

/-- ReleasesAndPressCancel: slot 32, a wait slot and a CLEAR slot; an open stop slot with and without the other side, for
ALERT_RELEASE and for CLEARED; and a PRESS_CANCEL with nothing at the port, with a feed owner, and with the newest entry
of a WAITING job. -/
theorem witness_ReleasesAndPressCancel :
    (∀ b ∈ ([[32], [1], [0]] : List (List Byte)), Takes (ask 0x61 b idle) 0x61 7 b ∧ b.length = 1) ∧
      (idle.alerts[(0 : AlertId)].isOpen = false ∧ stopSlot 0 = 0 ∧ waitSlot 0 = 1) ∧
      (∀ a ∈ [false, true], ∀ h ∈ [false, true], (stopped a h).alerts[(0 : AlertId)].isOpen = true ∧
        Takes (ask 0x61 [0] (stopped a h)) 0x61 7 [0] ∧ (stopped a h).ports[(0 : PortId)].link = .up ∧
        (stopped a h).alerts[(0 : AlertId)].primary = some .jam ∧
        (stopped a h).alerts[(0 : AlertId)].additional = 0) ∧
      (∀ k : Nat, 1 ≤ k → hasBit (0 : KindSet) k = false) ∧
      (stopped true true).jobs[(0 : SlotId)].exclusion.map (fun x => x.port) = some 0 ∧
      (∀ s, s = shop aJob aPort idle → FeedsAgree s ∧ s.ports[(0 : PortId)].link = .up ∧
        s.ports[(0 : PortId)].feedOwner = none ∧ s.ports[(0 : PortId)].window = []) ∧
      (FeedsAgree printing ∧ printing.ports[(0 : PortId)].feedOwner = some 0 ∧
        printing.ports[(0 : PortId)].holdAsked = false) ∧
      (FeedsAgree haltedState ∧ haltedState.ports[(0 : PortId)].feedOwner = none ∧
        haltedState.ports[(0 : PortId)].window = [] ++ [anEntry 0 .aborting] ∧
        haltedState.jobs[(0 : SlotId)].state = .waiting) := by
  unfold Takes
  refine ⟨by decide +kernel, by decide, by decide +kernel, fun k _ => by simp [hasBit], by decide +kernel, ?_,
    ⟨feedsAgree_printing rfl rfl, rfl, rfl⟩, feedsAgree_shop _ _ rfl rfl (by unfold PairAgrees; decide +kernel), rfl, rfl,
    rfl⟩
  rintro s rfl
  exact ⟨feedsAgree_shop _ _ rfl rfl (by unfold PairAgrees; decide +kernel), rfl, rfl, rfl⟩

/-- Slot 0 with this record holds P0's feed, and a setup hold awaits media class 0. -/
def awaiting (x : Job) (i : Ident) : State := shop x { (fed []) with setup := some 0, ident := some i } idle

/-- SetupDoneFollowsItsTable: class 8; no hold; a hold with a feed, whose stall is reported or not; one without; and the
awaited class, with each end of the offer attempt: no sendable page, an Ident that does not cover the page, an account
that cannot reserve its face, and an offer. -/
theorem witness_SetupDoneFollowsItsTable :
    (7 < (8 : Byte).toNat ∧ (7 : Byte).toNat = (7 : Media).val ∧
        (atPort aPort).ports[(0 : PortId)].link = .up ∧ (atPort aPort).ports[(0 : PortId)].holdAsked = false ∧
        (atPort aPort).ports[(0 : PortId)].setup = none) ∧
      (∀ b ∈ [false, true], (atPort { (fed []) with setup := some 3, stallReported := b }).ports[(0 : PortId)].setup =
          some 3 ∧ (atPort { (fed []) with setup := some 3, stallReported := b }).ports[(0 : PortId)].feedOwner ≠ none ∧
        (atPort { (fed []) with setup := some 3, stallReported := b }).ports[(0 : PortId)].stallReported = b) ∧
      ((atPort { aPort with setup := some 3 }).ports[(0 : PortId)].setup = some 3 ∧
        (atPort { aPort with setup := some 3 }).ports[(0 : PortId)].feedOwner = none) ∧ (7 : Media) ≠ 3 ∧
      (∀ x ∈ [{ (feeding 3) with closed := false }, feeding 2, { (feeding 2) with account := 1 }],
        ∀ i ∈ [anIdent, { anIdent with media := 2 }], (awaiting x i).ports[(0 : PortId)].link = .up ∧
        (awaiting x i).ports[(0 : PortId)].holdAsked = false ∧ (awaiting x i).ports[(0 : PortId)].setup = some 0 ∧
        (awaiting x i).ports[(0 : PortId)].feedOwner = some 0 ∧ ¬NoAttempt (shop x (fed []) idle) 0 0) ∧
      ({ (feeding 3) with closed := false } : Job).nextPage = none ∧ (feeding 2).nextPage = some 1 ∧
      ({ anIdent with media := 2 } : Ident).covers (aPage 1) = false ∧ anIdent.covers (aPage 1) = true ∧
      (awaiting (feeding 2) anIdent).accounts[(0 : AccountId)].unmetered = true ∧
      (idle.accounts[(1 : AccountId)].unmetered = false ∧ idle.accounts[(1 : AccountId)].allowance <
        idle.accounts[(1 : AccountId)].reserved + (aPage 1).sides) := by
  unfold NoAttempt; decide +kernel

/-- StatusIsOneEventOfTheWaitSlot: bit 3, the same set, a new set to a CLEAR slot, and to an OPEN one; a return to ONLINE
without a feed owner, and with one that has a next page. -/
theorem witness_StatusIsOneEventOfTheWaitSlot :
    (atPort aPort).ports[(0 : PortId)].link = .up ∧ 8 ≤ (8 : Byte).toNat ∧
      (0 : Byte).setWidth 3 = (atPort aPort).ports[(0 : PortId)].status ∧ (7 : Byte).toNat < 8 ∧
      (7 : Byte).setWidth 3 ≠ (atPort aPort).ports[(0 : PortId)].status ∧
      (atPort aPort).alerts[waitSlot 0].isOpen = false ∧
      minusBits ((7 : Byte).setWidth 3) (atPort aPort).ports[(0 : PortId)].status ≠ 0 ∧
      (withAlert 1 { AlertSlot.clear with isOpen := true, standing := 8 } (atPort { aPort with status := 1 })).alerts[(1 :
        AlertId)].isOpen = true ∧
      ((0 : Byte).setWidth 3 ≠ (atPort { aPort with status := 1 }).ports[(0 : PortId)].status ∧
        (atPort { aPort with status := 1 }).ports[(0 : PortId)].feedOwner = none) ∧
      ((0 : Byte).setWidth 3 ≠ (shop (feeding 2) { (fed [anEntry 0 .taken]) with status := 1 } idle).ports[(0 :
          PortId)].status ∧
        (shop (feeding 2) { (fed [anEntry 0 .taken]) with status := 1 } idle).ports[(0 : PortId)].feedOwner = some 0 ∧
        (feeding 2).nextPage = some 1) := by decide +kernel

/-- DiscardedFramesOnlyKeepTheLinkHeard: a DOWN link; a hunting receiver of an UP link; frames that PROBING, RATING and
UP do not take, one with a field outside its values, unknown kinds, and a kind with a byte too many; lengths 0 and
1,028; and a frame of length 1 with a wrong check. -/
theorem witness_DiscardedFramesOnlyKeepTheLinkHeard :
    (atPort { aPort with link := .down }).ports[(0 : PortId)].link = .down ∧
      (atPort aPort).ports[(0 : PortId)].receiver = .hunt ∧ (0xC3 : Byte) ∉ [(0xC2 : Byte)] ∧
      (∀ l ∈ [LinkState.probing, .rating, .up], (atPort { aPort with link := l }).ports[(0 : PortId)].receiver = .hunt ∧
        (atPort { aPort with link := l }).ports[(0 : PortId)].link = l) ∧
      (∀ sizes : List (Byte × Nat), sizes = [(0x81, 5), (0x82, 0), (0x83, 1), (0x84, 2), (0x85, 2), (0x86, 2), (0x87, 3),
          (0x88, 4), (0x89, 0), (0x8A, 0), (0x8B, 1)] → (0x83, ([8] : List Byte).length) ∈ sizes ∧
        (0x82, ([] : List Byte).length) ∈ sizes ∧ ∃ n, (0x83, n) ∈ sizes ∧ ([0, 0] : List Byte).length ≠ n) ∧
      (8 ≤ (byteAt [8] 0).toNat ∧ 8 ≤ (0x80 : Byte).toNat ∧ (0x80 : Byte).toNat < 0x81 ∧ 0x8C ≤ (0xFF : Byte).toNat) ∧
      (atPort aPort).ports[(0 : PortId)].link = .up ∧ beValue [0, 0] < 1 ∧ 1027 < beValue [4, 4] ∧
      1 ≤ beValue [0, 1] ∧ beValue [4, 3] ≤ 1027 ∧ ([0x82, 0, 0] : List Byte).length = beValue [0, 1] + 2 ∧
      (crc16 (0 :: 1 :: ([0x82, 0, 0] : List Byte).take (beValue [0, 1]))).toNat ≠
        beValue (([0x82, 0, 0] : List Byte).drop (beValue [0, 1])) := by
  refine ⟨by decide +kernel, by decide +kernel, by decide, by decide +kernel, ?_, by decide, by decide +kernel,
    by decide +kernel, by decide +kernel, by decide +kernel, by decide +kernel, by decide +kernel, by decide +kernel⟩
  rintro sizes rfl
  exact ⟨by decide, by decide, 1, by decide, by decide⟩

-- ## Meters, tariffs, accounts, alerts and timers

/-- PortMetersReportAndClose: P16, and P15 with and without close. -/
theorem witness_PortMetersReportAndClose :
    ∀ b ∈ ([[16, 0], [15, 0], [15, 1]] : List (List Byte)),
      Takes (ask 0x32 b idle) 0x32 7 b ∧ b.length = 2 ∧ (byteAt b 1).toNat ≤ 1 := by
  unfold Takes; decide +kernel

/-- TariffWriteSetsOneItem: each refusal, and a rate, a surcharge and a BLANK that are taken. -/
theorem witness_TariffWriteSetsOneItem :
    (∀ b ∈ ([[8, 0, 0, 0, 0, 0, 0, 0, 0, 0, 0, 0, 0], [0, 2, 0, 0, 0, 0, 0, 0, 0, 0, 0, 0, 0],
        [0, 0, 8, 0, 0, 0, 0, 0, 0, 0, 0, 0, 0], [0, 0, 0, 3, 0, 0, 0, 0, 0, 0, 0, 0, 0],
        [0, 0, 7, 2, 0, 0x10, 0, 0, 0, 0, 0, 0, 0], [0, 0, 7, 2, 0, 0, 0, 0, 0, 0, 0, 0, 0x0A],
        [0, 1, 0, 0, 0, 0, 0, 0, 0, 0, 0, 0, 0], [0, 1, 4, 0, 0, 0, 0, 0, 0, 0, 0, 0, 0],
        [7, 0, 0, 0, 1, 0, 0, 0, 0, 0, 0, 0, 0], [7, 0, 7, 2, 0, 0x09, 0x99, 0x99, 0x99, 0x09, 0x99, 0x99, 0x99],
        [6, 0, 0, 0, 1, 0xFF, 0, 0, 0, 0, 0, 0, 0], [0, 1, 3, 0, 0, 0x09, 0x99, 0x99, 0x99, 0xFF, 0, 0, 0]] :
          List (List Byte)), Takes (ask 0x40 b idle) 0x40 7 b ∧ b.length = 13 ∧ (byteAt b 4).toNat ≤ 1) ∧
      rateKey 7 .full = 23 := by
  unfold Takes; decide +kernel

/-- AccountRequestsWriteTheirRecord: account 128, group 8 and discount 1,001; and taken requests for account 127, with an
allowance below the reservation and a credit past the top. -/
theorem witness_AccountRequestsWriteTheirRecord :
    (∀ b ∈ ([[128, 0, 0, 0, 0, 0, 0, 0], [0, 0, 8, 0, 0, 0, 0, 0], [0, 0, 0, 3, 0xE9, 0, 0, 0],
        [127, 3, 7, 3, 0xE8, 0, 0, 5]] : List (List Byte)),
        Takes (ask 0x50 b idle) 0x50 7 b ∧ b.length = 8 ∧ (byteAt b 1).toNat < 4) ∧
      (∀ b ∈ ([[128, 0, 0, 0], [127, 0xFF, 0xFF, 0xFF]] : List (List Byte)), Takes (ask 0x51 b idle) 0x51 7 b) ∧
      (∀ b ∈ ([[128], [127]] : List (List Byte)), Takes (ask 0x52 b idle) 0x52 7 b) ∧
      256 * (byteAt [127, 3, 7, 3, 0xE8, 0, 0, 5] 3).toNat + (byteAt [127, 3, 7, 3, 0xE8, 0, 0, 5] 4).toNat = 1000 ∧
      5 < (withAccount 127 { Account.initial with reserved := 6 } idle).accounts[(127 : AccountId)].reserved ∧
      16777215 < (withAccount 127 { Account.initial with allowance := 1 } idle).accounts[(127 : AccountId)].allowance +
        16777215 := by
  unfold Takes; decide +kernel

/-- An OPEN slot 31 at this level whose timer expires now. -/
def escalating (level : Nat) : State :=
  withAlert 31 { AlertSlot.clear with isOpen := true, level := level, timer := some 0 } idle

/-- AlertsEscalateUntilAcknowledged: slot 32, a CLEAR slot and an OPEN one; and expiries at levels 1 and 2. -/
theorem witness_AlertsEscalateUntilAcknowledged :
    (∀ b ∈ ([[32], [31]] : List (List Byte)), Takes (ask 0x60 b idle) 0x60 7 b ∧ b.length = 1) ∧
      idle.alerts[(31 : AlertId)].isOpen = false ∧
      ∀ n ∈ [1, 2], Takes (ask 0x60 [31] (escalating n)) 0x60 7 [31] ∧
        (escalating n).alerts[(31 : AlertId)].isOpen = true ∧
        (escalating n).alerts[(31 : AlertId)].acknowledged = false ∧
        (escalating n).alerts[(31 : AlertId)].timer = some (escalating n).clock ∧
        (escalating n).alerts[(31 : AlertId)].level = n := by
  unfold Takes; decide +kernel

/-- SetTimersWritesWithinTheRanges: values at both ends of their ranges and one outside each; the resets. -/
theorem witness_SetTimersWritesWithinTheRanges :
    (∀ b ∈ ([[1, 0, 5, 0, 10, 0, 10, 0, 0], [255, 2, 0x58, 0x0E, 0x10, 0x0E, 0x10, 0x0E, 0x10],
        [0, 0, 4, 0, 9, 0, 9, 0x0E, 0x11], [0, 2, 0x59, 0x0E, 0x11, 0x0E, 0x11, 0xFF, 0xFF]] : List (List Byte)),
        Takes (ask 0x70 b idle) 0x70 7 b ∧ b.length = 9) ∧
      ∀ s, s = { idle with restarting := true, onLink := some ⟨0x73, 7, [0]⟩ } →
        s.restarting = true ∧ s.replies = [] ∧ s.onLink ≠ none := by
  unfold Takes
  refine ⟨by decide +kernel, ?_⟩
  rintro s rfl
  decide

/-- TimersExpireAtTheirTick: each event at its tick, and one that is not due. -/
theorem witness_TimersExpireAtTheirTick :
    ((shop { aJob with exclusion := some ⟨5, 0⟩ } aPort idle).jobs[(0 : SlotId)].exclusion.map (fun x => x.tick) =
        some (shop { aJob with exclusion := some ⟨5, 0⟩ } aPort idle).clock) ∧
      idle.jobs[(0 : SlotId)].exclusion.map (fun x => x.tick) ≠ some idle.clock ∧
      (idle.ports[(0 : PortId)].link = .probing ∧ idle.ports[(0 : PortId)].probeDue = idle.clock) ∧
      (atPort aPort).ports[(0 : PortId)].link ≠ .probing ∧ idle.ports[(0 : PortId)].starveTimer ≠ some idle.clock ∧
      idle.ports[(0 : PortId)].setupTimer ≠ some idle.clock ∧
      ({ starvedState with clock := 20 }.ports[(0 : PortId)].starveTimer = some { starvedState with clock := 20 }.clock ∧
        starvedState.ports[(0 : PortId)].feedOwner = some 0) ∧
      (atPort { aPort with setup := some 3, setupTimer := some 0 }).ports[(0 : PortId)].setupTimer = some idle.clock := by
  decide +kernel

-- ## Invariants

/-- EveryStepKeepsTheTablesLegal: the shop, and a step of it. -/
theorem witness_EveryStepKeepsTheTablesLegal :
    HliBounded (shop aJob aPort idle) ∧ RingsOrdered (shop aJob aPort idle) ∧ StandingPriced (shop aJob aPort idle) ∧
      MarksLegal (shop aJob aPort idle) ∧ TimersInRange (shop aJob aPort idle) ∧
      step (shop aJob aPort idle) = .next (shop aJob aPort idle) := by
  refine ⟨?_, ?_, ?_, ?_, ?_, rfl⟩
  · unfold HliBounded; decide +kernel
  · unfold RingsOrdered; decide +kernel
  · unfold StandingPriced; decide +kernel
  · unfold MarksLegal; decide +kernel
  · unfold TimersInRange; decide +kernel

/-- EveryStepKeepsThePageStoreSound: a state with a filling page. -/
theorem witness_EveryStepKeepsThePageStoreSound :
    StoreSound fillingState ∧ DramCanonical fillingState ∧ step fillingState = .next fillingState :=
  ⟨storeSound_of_fillingState rfl rfl rfl, rfl, rfl⟩

/-- Slot 0 prints on account 0, which has its two faces reserved. -/
def reserved : State :=
  withAccount 0 { Account.house with reserved := 2 } printing

theorem reserved_ports :
    reserved.ports = (Vector.replicate 16 Port.initial).set 0 (fed [anEntry 0 .taken, anEntry 1 .streaming]) := rfl

theorem reserved_jobs : reserved.jobs = (Vector.replicate 256 (Job.freeSlot 0)).set 0 (feeding 3) := rfl

/-- A window with a TAKEN and a STREAMING entry at P0 is sound. -/
theorem windowsSound_reserved : WindowsSound reserved := by
  obtain ⟨I, hw, hd, hi, P⟩ : ∃ I : Port, I.window = [] ∧ I.depth = 1 ∧ I.ident = none ∧ ∀ k : PortId,
      reserved.ports[k] = if k = 0 then fed [anEntry 0 .taken, anEntry 1 .streaming] else I :=
    ⟨_, rfl, rfl, rfl, ports_of_set (p := 0) reserved_ports⟩
  refine ⟨fun p => ?_, fun r => ?_⟩
  · rw [P]
    split
    · refine ⟨by decide, by decide, fun i h => ?_, by decide +kernel, by decide +kernel, fun h => absurd rfl h⟩
      obtain rfl : anIdent = i := Option.some.inj h
      decide
    · simp [hw, hd, hi]
  · have h : reserved.pages = ((Vector.replicate 4096 PageRecord.freeRecord).set 1 (aPage 1)).set 0 (aPage 0) := rfl
    simp only [h, Fin.getElem_fin, Vector.getElem_set, Vector.getElem_replicate]
    split
    · decide
    · split <;> decide

/-- The taken face of P0's TAKEN entry is the balance of its lifetime meters. -/
theorem metersBalanced_reserved : MetersBalanced reserved := by
  obtain ⟨I, hI, P⟩ : ∃ I : Port, (I.lifetime = .zero ∧ I.period = .zero ∧ I.window = []) ∧ ∀ k : PortId,
      reserved.ports[k] = if k = 0 then fed [anEntry 0 .taken, anEntry 1 .streaming] else I :=
    ⟨_, ⟨rfl, rfl, rfl⟩, ports_of_set (p := 0) reserved_ports⟩
  intro p
  simp only [windowFaces, P]
  split
  · exact ⟨fun m hm => by rcases hm with rfl | rfl <;> decide, by decide⟩
  · rw [hI.1, hI.2.1, hI.2.2]
    exact ⟨fun m hm => by rcases hm with rfl | rfl <;> decide, by decide⟩

/-- EveryStepKeepsTheWindowsSound: a TAKEN and a STREAMING entry at P0, with balanced meters. -/
theorem witness_EveryStepKeepsTheWindowsSound :
    WindowsSound reserved ∧ MetersBalanced reserved ∧ step reserved = .next reserved :=
  ⟨windowsSound_reserved, metersBalanced_reserved, rfl⟩

/-- One open alert that owes a notice. -/
def alerted : State :=
  { (withAlert 10 { AlertSlot.clear with isOpen := true, noticeOwed := true } idle) with
    openAlerts := [10], notices := [.alert 10] }

/-- EveryStepKeepsAlertsAndNoticesListed: an open alert in both lists. -/
theorem witness_EveryStepKeepsAlertsAndNoticesListed :
    OpenAlertsListed alerted ∧ NoticesOwed alerted ∧ step alerted = .next alerted := by
  refine ⟨?_, ?_, rfl⟩
  · unfold OpenAlertsListed; decide +kernel
  · unfold NoticesOwed; decide +kernel

/-- The printing job stands in Q0's list, and no other slot is in use. -/
theorem listsSound_reserved : ListsSound reserved := by
  obtain ⟨F, hF, J⟩ : ∃ F : Job, F.state = .free ∧ ∀ k : SlotId, reserved.jobs[k] = if k = 0 then feeding 3 else F :=
    ⟨_, rfl, jobs_of_set (j := 0) reserved_jobs⟩
  have Q : ∀ q : QueueId, reserved.queues[q].list = if q = 0 then [0] else [] := by decide +kernel
  refine ⟨by decide +kernel, fun q j => ?_, fun p e he => ?_⟩
  · rw [Q, J]
    by_cases hq : q = 0 <;> by_cases hj : j = 0 <;> simp [hq, hj, hF, feeding, aJob, Job.freeSlot, eq_comm]
  obtain ⟨I, hw, P⟩ : ∃ I : Port, I.window = [] ∧ ∀ k : PortId,
      reserved.ports[k] = if k = 0 then fed [anEntry 0 .taken, anEntry 1 .streaming] else I :=
    ⟨_, rfl, ports_of_set (p := 0) reserved_ports⟩
  rw [P] at he
  split at he
  · have : e = anEntry 0 .taken ∨ e = anEntry 1 .streaming := by simpa [fed] using he
    rcases this with rfl | rfl <;> decide +kernel
  · simp [hw] at he

/-- A printing job's slot owes a notice and stands in the queue once. -/
def owing : State := { (withJob 0 { (feeding 3) with noticeOwed := true } reserved) with notices := [.job 0] }

/-- The record in each slot of `owing`. -/
theorem owing_jobs (j : SlotId) :
    owing.jobs[j] = if j = 0 then { (feeding 3) with noticeOwed := true } else Job.freeSlot 0 := by
  have h : owing.jobs = ((Vector.replicate 256 (Job.freeSlot 0)).set 0 (feeding 3)).set 0
      { (feeding 3) with noticeOwed := true } := rfl
  simp only [h, Fin.getElem_fin, Vector.getElem_set, Vector.getElem_replicate, Fin.ext_iff, eq_comm]
  split <;> simp_all

/-- The one owed notice of a job stands in the notice queue. -/
theorem jobNoticesOwed_owing : JobNoticesOwed owing := by
  intro j
  rw [owing_jobs]
  by_cases h : j = 0
  · subst h; decide
  · have : owing.notices = [.job 0] := rfl
    simp [this, h, Ne.symm h, Job.freeSlot]

/-- EveryStepKeepsFeedsAndListsInAgreement: slot 0 prints at P0. -/
theorem witness_EveryStepKeepsFeedsAndListsInAgreement :
    WindowsSound reserved ∧ FeedsAgree reserved ∧ ListsSound reserved ∧ JobNoticesOwed reserved ∧
      JobNoticesOwed owing ∧ step reserved = .next reserved := by
  refine ⟨windowsSound_reserved, feedsAgree_printing rfl rfl, listsSound_reserved, fun j => ?_, jobNoticesOwed_owing, rfl⟩
  obtain ⟨F, hF, J⟩ : ∃ F : Job, F.noticeOwed = false ∧ ∀ k : SlotId,
      reserved.jobs[k] = if k = 0 then feeding 3 else F := ⟨_, rfl, jobs_of_set (j := 0) reserved_jobs⟩
  have h : reserved.notices = [] := rfl
  rw [J, h]
  split <;> simp [hF, feeding, aJob, Job.freeSlot]

/-- EveryStepKeepsReservationsEqualToFacesInFlight: slot 0 prints at P0, its two faces reserved. -/
theorem witness_EveryStepKeepsReservationsEqualToFacesInFlight :
    WindowsSound reserved ∧ FeedsAgree reserved ∧ ListsSound reserved ∧ ReservationsSound reserved ∧
      step reserved = .next reserved :=
  ⟨windowsSound_reserved, feedsAgree_printing rfl rfl, listsSound_reserved,
    by unfold ReservationsSound; decide +kernel, rfl⟩

end Sys2Proof.Tests
end

