-- ==== Sys2Proof/Proofs/AgreementView.lean ====
section
/-! SUPPORT. Feeds, job states, job lists, window entries and owed job notices (R8, R9, R23, R26, R76, R91, R172) as one
view of the state: what the agreement reads of it, and the moves of the view that keep the agreement. -/

namespace Sys2Proof.Machine

/-- What the agreement reads of a job record. -/
@[ext] structure JobView where
  state : JobState
  queue : QueueId
  feedPort : Option PortId
  doneFlag : Bool
  cancelledFlag : Bool
  owes : Bool

/-- What the agreement reads of a port. -/
structure PortView where
  link : LinkState
  depth : Nat
  ident : Option Ident
  window : List SendEntry
  feedOwner : Option SlotId
  starveTimer : Option Tick

/-- What the agreement reads of the state. -/
@[ext] structure View where
  job : SlotId → JobView
  port : PortId → PortView
  list : QueueId → List SlotId
  notices : SlotId → Nat

def Job.view (x : Job) : JobView where
  state := x.state
  queue := x.queue
  feedPort := x.feedPort
  doneFlag := hasBit x.flags 1
  cancelledFlag := hasBit x.flags 2
  owes := x.noticeOwed

def Port.view (x : Port) : PortView where
  link := x.link
  depth := x.depth
  ident := x.ident
  window := x.window
  feedOwner := x.feedOwner
  starveTimer := x.starveTimer

def State.view (s : State) : View where
  job j := s.jobs[j].view
  port p := s.ports[p].view
  list q := s.queues[q].list
  notices j := s.notices.count (.job j)

namespace JobView

/-- The job is ACTIVE or STARVED: it holds a feed (R8). -/
def Feeds (x : JobView) : Prop := x.state = .active ∨ x.state = .starved

end JobView

/-- A port's window is sound in itself (R83, R87, R91), but for the rule that a link that is not UP has an empty one. -/
structure PortView.Fits (x : PortView) : Prop where
  length : x.window.length ≤ x.depth
  depth : x.depth ≤ 8
  declared : ∀ i, x.ident = some i → i.depth ≤ 8
  older : ∀ e ∈ x.window.dropLast, e.state = .taken
  faces : ∀ e ∈ x.window, e.faces ≤ 2

namespace View

def setJob (j : SlotId) (x : JobView) (v : View) : View := { v with job := Function.update v.job j x }

def setPort (p : PortId) (x : PortView) (v : View) : View := { v with port := Function.update v.port p x }

def setList (q : QueueId) (l : List SlotId) (v : View) : View := { v with list := Function.update v.list q l }

/-- Job `j` leaves queue `q`'s list. -/
def unlist (q : QueueId) (j : SlotId) (v : View) : View := v.setList q ((v.list q).filter (fun k => k != j))

/-- Job event flag `f` is set, and job `j` owes a notice (R22). -/
def flag (j : SlotId) (f : JobFlag) (v : View) : View :=
  { v.setJob j { v.job j with
      doneFlag := (v.job j).doneFlag || f == .done
      cancelledFlag := (v.job j).cancelledFlag || f == .cancelled
      owes := true } with
    notices := Function.update v.notices j (v.notices j + if (v.job j).owes then 0 else 1) }

/-- One notice of job `j` leaves the notice queue with the job's flags (R173). -/
def report (j : SlotId) (v : View) : View :=
  { v.setJob j { v.job j with doneFlag := false, cancelledFlag := false, owes := false } with
    notices := Function.update v.notices j (v.notices j - 1) }

/-- Job `j` has an entry in some port's window. -/
def HasEntry (v : View) (j : SlotId) : Prop := ∃ p, ∃ e ∈ (v.port p).window, e.job = j

/-- Windows, feeds, job states, lists and owed job notices agree. `open?` is a port that is losing its link: its window
is about to be settled, and need not be empty yet. -/
structure Agrees (open? : Option PortId) (v : View) : Prop where
  fits : ∀ p, (v.port p).Fits
  down : ∀ p, open? ≠ some p → (v.port p).link ≠ .up → (v.port p).window = []
  owner : ∀ p j, (v.port p).feedOwner = some j ↔ (v.job j).feedPort = some p
  feeds : ∀ j, (v.job j).feedPort ≠ none ↔ (v.job j).Feeds
  home : ∀ p q e f, e ∈ (v.port p).window → f ∈ (v.port q).window → e.job = f.job → p = q
  entryFeed : ∀ p q e, e ∈ (v.port p).window → (v.job e.job).feedPort = some q → p = q
  streaming : ∀ p e, e ∈ (v.port p).window → e.state = .streaming →
    (v.port p).feedOwner = some e.job ∧ (v.job e.job).state = .active
  starve : ∀ p, (v.port p).starveTimer ≠ none → ∃ j, (v.port p).feedOwner = some j ∧ (v.job j).state = .starved
  done : ∀ j, (v.job j).doneFlag = true → (v.job j).state = .done
  cancelled : ∀ j, (v.job j).cancelledFlag = true → (v.job j).state = .cancelling
  nodup : ∀ q, (v.list q).Nodup
  listed : ∀ q j, j ∈ v.list q ↔ (v.job j).state ≠ .free ∧ (v.job j).queue = q
  entryJob : ∀ p e, e ∈ (v.port p).window →
    (v.job e.job).state ≠ .free ∧ (v.job e.job).state ≠ .done ∧ (v.job e.job).cancelledFlag = false
  owed : ∀ j, v.notices j = if (v.job j).owes then 1 else 0
  freeOwes : ∀ j, (v.job j).state = .free → (v.job j).owes = false

variable {v : View} {o : Option PortId} {j : SlotId} {p : PortId} {x : JobView} {y : PortView}

theorem setJob_job (k : SlotId) : (v.setJob j x).job k = if k = j then x else v.job k := Function.update_apply ..

theorem setPort_port (q : PortId) : (v.setPort p y).port q = if q = p then y else v.port q := Function.update_apply ..

@[simp] theorem setJob_port : (v.setJob j x).port = v.port := rfl
@[simp] theorem setJob_list : (v.setJob j x).list = v.list := rfl
@[simp] theorem setJob_notices : (v.setJob j x).notices = v.notices := rfl
@[simp] theorem setPort_job : (v.setPort p y).job = v.job := rfl
@[simp] theorem setPort_list : (v.setPort p y).list = v.list := rfl
@[simp] theorem setPort_notices : (v.setPort p y).notices = v.notices := rfl

theorem setList_list {q : QueueId} {l : List SlotId} (r : QueueId) :
    (v.setList q l).list r = if r = q then l else v.list r := Function.update_apply ..

@[simp] theorem setList_job {q : QueueId} {l : List SlotId} : (v.setList q l).job = v.job := rfl
@[simp] theorem setList_port {q : QueueId} {l : List SlotId} : (v.setList q l).port = v.port := rfl
@[simp] theorem setList_notices {q : QueueId} {l : List SlotId} : (v.setList q l).notices = v.notices := rfl

theorem unlist_list {q : QueueId} (r : QueueId) :
    (v.unlist q j).list r = if r = q then (v.list q).filter (fun k => k != j) else v.list r := setList_list r

@[simp] theorem unlist_job {q : QueueId} : (v.unlist q j).job = v.job := rfl
@[simp] theorem unlist_port {q : QueueId} : (v.unlist q j).port = v.port := rfl
@[simp] theorem unlist_notices {q : QueueId} : (v.unlist q j).notices = v.notices := rfl

theorem flag_job {f : JobFlag} (k : SlotId) : (v.flag j f).job k = if k = j then { v.job j with
      doneFlag := (v.job j).doneFlag || f == .done, cancelledFlag := (v.job j).cancelledFlag || f == .cancelled
      owes := true } else v.job k := setJob_job k

theorem flag_notices {f : JobFlag} (k : SlotId) : (v.flag j f).notices k =
    if k = j then v.notices j + (if (v.job j).owes then 0 else 1) else v.notices k := Function.update_apply ..

@[simp] theorem flag_port {f : JobFlag} : (v.flag j f).port = v.port := rfl
@[simp] theorem flag_list {f : JobFlag} : (v.flag j f).list = v.list := rfl

theorem report_job (k : SlotId) : (v.report j).job k =
    if k = j then { v.job j with doneFlag := false, cancelledFlag := false, owes := false } else v.job k := setJob_job k

theorem report_notices (k : SlotId) : (v.report j).notices k = if k = j then v.notices j - 1 else v.notices k :=
  Function.update_apply ..

@[simp] theorem report_port : (v.report j).port = v.port := rfl
@[simp] theorem report_list : (v.report j).list = v.list := rfl

@[simp] theorem setJob_same : v.setJob j (v.job j) = v := by simp [setJob]
@[simp] theorem setPort_same : v.setPort p (v.port p) = v := by simp [setPort]
@[simp] theorem setList_same {q : QueueId} : v.setList q (v.list q) = v := by simp [setList]

namespace Agrees

/-- An agreement with every link's window settled is one with a window still open. -/
theorem opened (h : v.Agrees none) (o : Option PortId) : v.Agrees o :=
  { h with down := fun p _ => h.down p (by simp) }

/-- A job that holds no feed has no STREAMING entry (R8, R91). -/
theorem not_streaming (h : v.Agrees o) {e : SendEntry} (he : e ∈ (v.port p).window)
    (hs : (v.job e.job).state ≠ .active) : e.state ≠ .streaming := fun hst => hs (h.streaming p e he hst).2

/-- A job record changes but not its feed, its queue and what it owes: its new state is neither FREE nor one that a
window entry, a feed, a starve timer or an event flag speaks against. -/
theorem setJob (h : v.Agrees o) (hq : x.queue = (v.job j).queue) (hf : x.feedPort = (v.job j).feedPort)
    (hd : x.doneFlag = (v.job j).doneFlag) (hc : x.cancelledFlag = (v.job j).cancelledFlag)
    (ho : x.owes = (v.job j).owes) (hx : x.state ≠ .free) (hv : (v.job j).state ≠ .free)
    (hfeeds : x.Feeds ↔ (v.job j).Feeds) (hdone : (v.job j).state ≠ .done) (hcanc : (v.job j).state ≠ .cancelling)
    (hentry : x.state = .done → ¬v.HasEntry j)
    (hstream : x.state ≠ .active → ∀ p, ∀ e ∈ (v.port p).window, e.job = j → e.state ≠ .streaming)
    (hstarve : x.state ≠ .starved → ∀ p, (v.port p).feedOwner = some j → (v.port p).starveTimer = none) :
    (v.setJob j x).Agrees o where
  fits := h.fits
  down := h.down
  owner p k := by have := h.owner p k; grind [setJob_job, setJob_port]
  feeds k := by have := h.feeds k; grind [setJob_job]
  home := h.home
  entryFeed p q e he := by have := h.entryFeed p q e he; grind [setJob_job]
  streaming p e he hs := by
    have := h.streaming p e he hs
    have := fun hx => hstream hx p e he
    grind [setJob_job, setJob_port]
  starve p hp := by
    obtain ⟨k, hk, hst⟩ := h.starve p hp
    refine ⟨k, hk, ?_⟩
    have := fun hx => hstarve hx p
    grind [setJob_job, setJob_port]
  done k := by have := h.done k; have := h.done j; grind [setJob_job]
  cancelled k := by have := h.cancelled k; have := h.cancelled j; grind [setJob_job]
  nodup := h.nodup
  listed q k := by have := h.listed q k; grind [setJob_job, setJob_list]
  entryJob p e he := by
    have := h.entryJob p e he
    have : x.state = .done → e.job ≠ j := fun hx hj => hentry hx ⟨p, e, he, hj⟩
    grind [setJob_job]
  owed k := by have := h.owed k; grind [setJob_job, setJob_notices]
  freeOwes k := by have := h.freeOwes k; grind [setJob_job]

/-- A port changes but not its feed owner: its window holds entries that were there, perhaps settled further, and entries
of an ACTIVE owner. -/
theorem setPort (h : v.Agrees o) (hf : y.feedOwner = (v.port p).feedOwner) (hfits : y.Fits)
    (hdown : o ≠ some p → y.link ≠ .up → y.window = [])
    (hwin : ∀ e ∈ y.window, (∃ e' ∈ (v.port p).window, e'.job = e.job ∧ (e.state = .streaming → e'.state = .streaming)) ∨
      (y.feedOwner = some e.job ∧ (v.job e.job).state = .active))
    (hstarve : y.starveTimer ≠ none → ∃ j, y.feedOwner = some j ∧ (v.job j).state = .starved) :
    (v.setPort p y).Agrees o := by
  have hold : ∀ e ∈ y.window, (∃ e' ∈ (v.port p).window, e'.job = e.job) ∨ (v.job e.job).feedPort = some p := by
    intro e he
    rcases hwin e he with ⟨e', he', hj, -⟩ | ⟨ho, -⟩
    · exact .inl ⟨e', he', hj⟩
    · exact .inr ((h.owner p _).1 (hf ▸ ho))
  have hat : ∀ q e f, q ≠ p → e ∈ y.window → f ∈ (v.port q).window → e.job ≠ f.job := by
    intro q e f hq he hf' hj
    rcases hold e he with ⟨e', he', hj'⟩ | hfeed
    · exact hq (h.home q p f e' hf' he' (by rw [hj', hj]))
    · exact hq (h.entryFeed q p f hf' (hj ▸ hfeed))
  exact {
    fits := fun q => by have := h.fits q; grind [setPort_port]
    down := fun q => by have := h.down q; grind [setPort_port]
    owner := fun q k => by have := h.owner q k; grind [setPort_port, setPort_job]
    feeds := h.feeds
    home := fun q r e f he hf' hj => by
      have := h.home q r e f; have := hat q f e; have := hat r e f; grind [setPort_port]
    entryFeed := fun q r e he hr => by
      have := h.entryFeed q r e; have := hold e
      by_cases hq : q = p
      · subst hq
        rcases hold e (by simpa [setPort_port] using he) with ⟨e', he', hj⟩ | hfeed
        · exact h.entryFeed q r e' he' (hj ▸ hr)
        · exact Option.some.inj (hfeed.symm.trans hr)
      · grind [setPort_port, setPort_job]
    streaming := fun q e he hs => by
      by_cases hq : q = p
      · subst hq
        rcases hwin e (by simpa [setPort_port] using he) with ⟨e', he', hj, hst⟩ | ⟨ho, ha⟩
        · have := h.streaming q e' he' (hst hs); grind [setPort_port, setPort_job]
        · grind [setPort_port, setPort_job]
      · have := h.streaming q e; grind [setPort_port, setPort_job]
    starve := fun q => by have := h.starve q; grind [setPort_port, setPort_job]
    done := h.done
    cancelled := h.cancelled
    nodup := h.nodup
    listed := h.listed
    entryJob := fun q e he => by
      by_cases hq : q = p
      · subst hq
        rcases hwin e (by simpa [setPort_port] using he) with ⟨e', he', hj, -⟩ | ⟨ho, ha⟩
        · have := h.entryJob q e' he'; grind [setPort_job]
        · have := h.cancelled e.job; grind [setPort_job]
      · exact h.entryJob q e (by simpa [setPort_port, hq] using he)
    owed := h.owed
    freeOwes := h.freeOwes }

/-- Port `p`'s feed, held by job `j`, is released on both sides, and the job takes a state without a feed (R8, R104). -/
theorem release (h : v.Agrees o) (hp : (v.port p).feedOwner = some j)
    (hns : ∀ e ∈ (v.port p).window, e.state ≠ .streaming)
    (hq : x.queue = (v.job j).queue) (hf : x.feedPort = none) (hd : x.doneFlag = (v.job j).doneFlag)
    (hc : x.cancelledFlag = (v.job j).cancelledFlag) (ho : x.owes = (v.job j).owes) (hx : x.state ≠ .free)
    (hfeeds : ¬x.Feeds) (hdone : x.state ≠ .done) :
    ((v.setPort p { v.port p with feedOwner := none, starveTimer := none }).setJob j x).Agrees o := by
  have hj := (h.owner p j).1 hp
  have hfed := (h.feeds j).1 (by simp [hj])
  have hstj : (v.job j).state ≠ .free ∧ (v.job j).state ≠ .done ∧ (v.job j).state ≠ .cancelling := by
    rcases hfed with h | h <;> simp [h]
  have hown : ∀ q k, k ≠ j → (v.port q).feedOwner = some k → q ≠ p := by
    intro q k hk hq hqp
    subst hqp
    exact hk (Option.some.inj (hq.symm.trans hp))
  have hwin : ∀ q, ((v.setPort p { v.port p with feedOwner := none, starveTimer := none }).port q).window =
      (v.port q).window := fun q => by grind [setPort_port]
  have hlink : ∀ q, ((v.setPort p { v.port p with feedOwner := none, starveTimer := none }).port q).link =
      (v.port q).link := fun q => by grind [setPort_port]
  exact {
    fits := fun q => by
      have := h.fits q
      by_cases hqp : q = p
      · subst hqp
        simpa [setPort_port] using ⟨this.length, this.depth, this.declared, this.older, this.faces⟩
      · simpa [setPort_port, hqp] using this
    down := fun q => by
      simp only [setJob_port, hwin, hlink]
      exact h.down q
    owner := fun q k => by
      have := h.owner q k; have := h.owner q j; grind [setJob_job, setPort_port, setJob_port, setPort_job]
    feeds := fun k => by have := h.feeds k; grind [setJob_job, setPort_job]
    home := fun q r e f => by
      simp only [setJob_port, hwin]
      exact h.home q r e f
    entryFeed := fun q r e he hr => by
      have := h.entryFeed q r e; grind [setJob_job, setPort_job, setJob_port]
    streaming := fun q e he hs => by
      simp only [setJob_port, hwin] at he
      obtain ⟨h1, h2⟩ := h.streaming q e he hs
      have hqp : q ≠ p := fun hqp => hns e (hqp ▸ he) hs
      have hej : e.job ≠ j := fun hej => hqp (h.entryFeed q p e he (hej ▸ hj))
      grind [setJob_job, setPort_port, setJob_port, setPort_job]
    starve := fun q hq' => by
      have hqp : q ≠ p := fun hqp => by simp [setPort_port, hqp] at hq'
      obtain ⟨k, hk, hst⟩ := h.starve q (by simpa [setPort_port, hqp] using hq')
      refine ⟨k, by simpa [setPort_port, hqp] using hk, ?_⟩
      have hkj : k ≠ j := fun hkj => hqp (Option.some.inj (((h.owner q j).1 (hkj ▸ hk)).symm.trans hj))
      simpa [setJob_job, hkj] using hst
    done := fun k => by have := h.done k; have := h.done j; grind [setJob_job, setPort_job]
    cancelled := fun k => by have := h.cancelled k; have := h.cancelled j; grind [setJob_job, setPort_job]
    nodup := h.nodup
    listed := fun q k => by have := h.listed q k; grind [setJob_job, setJob_list, setPort_job, setPort_list]
    entryJob := fun q e he => by
      simp only [setJob_port, hwin] at he
      have := h.entryJob q e he; grind [setJob_job, setPort_job]
    owed := fun k => by have := h.owed k; grind [setJob_job, setJob_notices, setPort_job, setPort_notices]
    freeOwes := fun k => by have := h.freeOwes k; grind [setJob_job, setPort_job] }

/-- Port `p`, free and with no other port holding entries of job `j`, is granted to the WAITING job (R5, R76, R82). -/
theorem claim (h : v.Agrees o) (hp : (v.port p).feedOwner = none) (hw : (v.job j).state = .waiting)
    (hentry : ∀ q, ∀ e ∈ (v.port q).window, e.job = j → q = p) :
    ((v.setPort p { v.port p with feedOwner := some j }).setJob j
      { v.job j with state := .active, feedPort := some p }).Agrees o := by
  have hnf : (v.job j).feedPort = none := by
    have := h.feeds j
    simpa [JobView.Feeds, hw] using this
  have htimer : (v.port p).starveTimer = none := by
    have := h.starve p
    grind
  have hwin : ∀ q, ((v.setPort p { v.port p with feedOwner := some j }).port q).window = (v.port q).window :=
    fun q => by grind [setPort_port]
  have hlink : ∀ q, ((v.setPort p { v.port p with feedOwner := some j }).port q).link = (v.port q).link :=
    fun q => by grind [setPort_port]
  have hown : ∀ q, (v.port q).feedOwner ≠ some j := fun q hq => by simp [(h.owner q j).1 hq] at hnf
  exact {
    fits := fun q => by
      have := h.fits q
      by_cases hqp : q = p
      · subst hqp
        simpa [setPort_port] using ⟨this.length, this.depth, this.declared, this.older, this.faces⟩
      · simpa [setPort_port, hqp] using this
    down := fun q => by
      simp only [setJob_port, hwin, hlink]
      exact h.down q
    owner := fun q k => by
      have := h.owner q k; have := hown q; grind [setJob_job, setPort_port, setJob_port, setPort_job]
    feeds := fun k => by have := h.feeds k; grind [setJob_job, setPort_job, JobView.Feeds]
    home := fun q r e f => by
      simp only [setJob_port, hwin]
      exact h.home q r e f
    entryFeed := fun q r e he hr => by
      simp only [setJob_port, hwin] at he
      have := h.entryFeed q r e he; have := hentry q e he; grind [setJob_job, setPort_job]
    streaming := fun q e he hs => by
      simp only [setJob_port, hwin] at he
      have := h.streaming q e he hs; grind [setJob_job, setPort_port, setJob_port, setPort_job]
    starve := fun q hq => by
      have hqp : q ≠ p := fun hqp => by simp [setPort_port, hqp, htimer] at hq
      obtain ⟨k, hk, hst⟩ := h.starve q (by simpa [setPort_port, hqp] using hq)
      have hkj : k ≠ j := fun hkj => hown q (hkj ▸ hk)
      exact ⟨k, by simpa [setPort_port, hqp] using hk, by simpa [setJob_job, hkj] using hst⟩
    done := fun k => by have := h.done k; grind [setJob_job, setPort_job]
    cancelled := fun k => by have := h.cancelled k; grind [setJob_job, setPort_job]
    nodup := h.nodup
    listed := fun q k => by have := h.listed q k; grind [setJob_job, setJob_list, setPort_job, setPort_list]
    entryJob := fun q e he => by
      simp only [setJob_port, hwin] at he
      have := h.entryJob q e he; grind [setJob_job, setPort_job]
    owed := fun k => by have := h.owed k; grind [setJob_job, setJob_notices, setPort_job, setPort_notices]
    freeOwes := fun k => by have := h.freeOwes k; grind [setJob_job, setPort_job] }

/-- An event flag is set for a job that is not FREE: DONE for a DONE job, CANCELLED for a CANCELLING job without entries
(R11, R16, R22). -/
theorem flag (h : v.Agrees o) (f : JobFlag) (hv : (v.job j).state ≠ .free) (hdone : f = .done → (v.job j).state = .done)
    (hcanc : f = .cancelled → (v.job j).state = .cancelling ∧ ¬v.HasEntry j) : (v.flag j f).Agrees o where
  fits := h.fits
  down := h.down
  owner p k := by have := h.owner p k; grind [flag_job, flag_port]
  feeds k := by have := h.feeds k; grind [flag_job, JobView.Feeds]
  home := h.home
  entryFeed p q e he := by have := h.entryFeed p q e he; grind [flag_job]
  streaming p e he hs := by have := h.streaming p e he hs; grind [flag_job, flag_port]
  starve p hp := by
    obtain ⟨k, hk, hst⟩ := h.starve p hp
    exact ⟨k, hk, by grind [flag_job]⟩
  done k := by have := h.done k; grind [flag_job]
  cancelled k := by have := h.cancelled k; grind [flag_job]
  nodup := h.nodup
  listed q k := by have := h.listed q k; grind [flag_job, flag_list]
  entryJob p e he := by
    have := h.entryJob p e he
    have : f = .cancelled → e.job ≠ j := fun hf hj => (hcanc hf).2 ⟨p, e, he, hj⟩
    grind [flag_job]
  owed k := by have := h.owed k; grind [flag_job, flag_notices]
  freeOwes k := by have := h.freeOwes k; grind [flag_job]

/-- A FREE slot takes a job that is not FREE and has no feed, and the job joins its queue's list (R3, R26). -/
theorem enlist (h : v.Agrees o) (hv : (v.job j).state = .free) {l : List SlotId} (hl : l.Perm (j :: v.list x.queue))
    (hx : x.state = .waiting) (hf : x.feedPort = none) (hd : x.doneFlag = false) (hc : x.cancelledFlag = false)
    (ho : x.owes = false) : ((v.setList x.queue l).setJob j x).Agrees o := by
  have hno : ∀ p, ∀ e ∈ (v.port p).window, e.job ≠ j := fun p e he hj => (h.entryJob p e he).1 (hj ▸ hv)
  have hfj : (v.job j).feedPort = none := by
    have := h.feeds j
    simpa [JobView.Feeds, hv] using this
  have hnl : ∀ q, j ∉ v.list q := fun q hq => ((h.listed q j).1 hq).1 hv
  exact {
    fits := h.fits
    down := h.down
    owner := fun p k => by have := h.owner p k; grind [setJob_job, setJob_port, setList_job, setList_port]
    feeds := fun k => by have := h.feeds k; grind [setJob_job, setList_job, JobView.Feeds]
    home := h.home
    entryFeed := fun p q e he => by have := h.entryFeed p q e he; have := hno p e he; grind [setJob_job, setList_job]
    streaming := fun p e he hs => by
      have := h.streaming p e he hs; have := hno p e he; grind [setJob_job, setJob_port, setList_job, setList_port]
    starve := fun p hp => by
      obtain ⟨k, hk, hst⟩ := h.starve p hp
      exact ⟨k, hk, by grind [setJob_job, setList_job]⟩
    done := fun k => by have := h.done k; grind [setJob_job, setList_job]
    cancelled := fun k => by have := h.cancelled k; grind [setJob_job, setList_job]
    nodup := fun q => by
      simp only [setJob_list, setList_list]
      split
      · exact hl.nodup_iff.2 (List.nodup_cons.2 ⟨hnl _, h.nodup _⟩)
      · exact h.nodup q
    listed := fun q k => by
      have := h.listed q k; have := hl.mem_iff (a := k); have := hnl q
      simp only [setJob_list, setList_list, setJob_job, setList_job]
      grind
    entryJob := fun p e he => by have := h.entryJob p e he; have := hno p e he; grind [setJob_job, setList_job]
    owed := fun k => by
      have := h.owed k; have := h.freeOwes j hv; grind [setJob_job, setJob_notices, setList_job, setList_notices]
    freeOwes := fun k => by have := h.freeOwes k; grind [setJob_job, setList_job] }

/-- A job that is not FREE leaves its queue's list and joins another place of a list, the one that its Queue field then
names (R20). -/
theorem move (h : v.Agrees o) (hv : (v.job j).state ≠ .free) {q : QueueId} {l : List SlotId}
    (hl : l.Perm (j :: (v.unlist (v.job j).queue j).list q)) :
    (((v.unlist (v.job j).queue j).setList q l).setJob j { v.job j with queue := q }).Agrees o := by
  have hun : ∀ r k, k ∈ (v.unlist (v.job j).queue j).list r ↔ k ∈ v.list r ∧ k ≠ j := by
    intro r k
    have := h.listed r k
    grind [unlist_list]
  have hnd : ∀ r, ((v.unlist (v.job j).queue j).list r).Nodup := by
    intro r
    have := h.nodup r
    grind [unlist_list]
  exact {
    fits := h.fits
    down := h.down
    owner := fun p k => by have := h.owner p k; grind [setJob_job, setJob_port, setList_job, setList_port, unlist_job, unlist_port]
    feeds := fun k => by have := h.feeds k; grind [setJob_job, setList_job, unlist_job, JobView.Feeds]
    home := h.home
    entryFeed := fun p q e he => by have := h.entryFeed p q e he; grind [setJob_job, setList_job, unlist_job]
    streaming := fun p e he hs => by
      have := h.streaming p e he hs; grind [setJob_job, setJob_port, setList_job, setList_port, unlist_job, unlist_port]
    starve := fun p hp => by
      obtain ⟨k, hk, hst⟩ := h.starve p hp
      exact ⟨k, hk, by grind [setJob_job, setList_job, unlist_job]⟩
    done := fun k => by have := h.done k; grind [setJob_job, setList_job, unlist_job]
    cancelled := fun k => by have := h.cancelled k; grind [setJob_job, setList_job, unlist_job]
    nodup := fun r => by
      simp only [setJob_list, setList_list]
      split
      · exact hl.nodup_iff.2 (List.nodup_cons.2 ⟨fun hj => ((hun q j).1 hj).2 rfl, hnd q⟩)
      · exact hnd r
    listed := fun r k => by
      have := h.listed r k; have := hl.mem_iff (a := k); have := hun r k; have := hun q k
      simp only [setJob_list, setList_list, setJob_job, setList_job, unlist_job]
      grind
    entryJob := fun p e he => by have := h.entryJob p e he; grind [setJob_job, setList_job, unlist_job]
    owed := fun k => by
      have := h.owed k
      grind [setJob_job, setJob_notices, setList_job, setList_notices, unlist_job, unlist_notices]
    freeOwes := fun k => by have := h.freeOwes k; grind [setJob_job, setList_job, unlist_job] }

/-- A job notice leaves the notice queue: its flags are cleared, and the job owes nothing (R173). -/
theorem report (h : v.Agrees o) (hv : 0 < v.notices j) : (v.report j).Agrees o where
  fits := h.fits
  down := h.down
  owner p k := by have := h.owner p k; grind [report_job, report_port]
  feeds k := by have := h.feeds k; grind [report_job, JobView.Feeds]
  home := h.home
  entryFeed p q e he := by have := h.entryFeed p q e he; grind [report_job]
  streaming p e he hs := by have := h.streaming p e he hs; grind [report_job, report_port]
  starve p hp := by
    obtain ⟨k, hk, hst⟩ := h.starve p hp
    exact ⟨k, hk, by grind [report_job]⟩
  done k := by have := h.done k; grind [report_job]
  cancelled k := by have := h.cancelled k; grind [report_job]
  nodup := h.nodup
  listed q k := by have := h.listed q k; grind [report_job, report_list]
  entryJob p e he := by have := h.entryJob p e he; grind [report_job]
  owed k := by have := h.owed k; grind [report_job, report_notices]
  freeOwes k := by have := h.freeOwes k; grind [report_job]

/-- A job without entries and without a feed that owes nothing leaves its queue's list, and its slot is FREE (R23). -/
theorem retire (h : v.Agrees o) (hno : ¬v.HasEntry j) (hnf : (v.job j).feedPort = none) (howes : (v.job j).owes = false)
    (hx : x.state = .free) (hf : x.feedPort = none) (hd : x.doneFlag = false) (hc : x.cancelledFlag = false)
    (ho : x.owes = false) : ((v.unlist (v.job j).queue j).setJob j x).Agrees o := by
  have hne : ∀ p, ∀ e ∈ (v.port p).window, e.job ≠ j := fun p e he hj => hno ⟨p, e, he, hj⟩
  exact {
    fits := h.fits
    down := h.down
    owner := fun p k => by have := h.owner p k; grind [setJob_job, setJob_port, unlist_job, unlist_port]
    feeds := fun k => by have := h.feeds k; grind [setJob_job, unlist_job, JobView.Feeds]
    home := h.home
    entryFeed := fun p q e he => by have := h.entryFeed p q e he; have := hne p e he; grind [setJob_job, unlist_job]
    streaming := fun p e he hs => by
      have := h.streaming p e he hs; have := hne p e he; grind [setJob_job, setJob_port, unlist_job, unlist_port]
    starve := fun p hp => by
      obtain ⟨k, hk, hst⟩ := h.starve p hp
      have := h.owner p j
      exact ⟨k, hk, by grind [setJob_job, unlist_job]⟩
    done := fun k => by have := h.done k; grind [setJob_job, unlist_job]
    cancelled := fun k => by have := h.cancelled k; grind [setJob_job, unlist_job]
    nodup := fun r => by
      have := h.nodup r
      simp only [setJob_list, unlist_list]
      grind
    listed := fun r k => by
      have := h.listed r k
      simp only [setJob_list, unlist_list, setJob_job, unlist_job]
      grind
    entryJob := fun p e he => by have := h.entryJob p e he; have := hne p e he; grind [setJob_job, unlist_job]
    owed := fun k => by have := h.owed k; grind [setJob_job, setJob_notices, unlist_job, unlist_notices]
    freeOwes := fun k => by have := h.freeOwes k; grind [setJob_job, unlist_job] }

end Agrees
end View
end Sys2Proof.Machine
end

