-- ==== Sys2Proof/Proofs/Agreement.lean ====
section
/-! SUPPORT. The agreement of a state, and the operations that leave all that it reads as it is. -/

namespace Sys2Proof.Machine

open Sys2Proof.Safety

/-- The agreement of feeds, windows, job states, lists and owed job notices in a state, with at most two faces in every
page record, on which the faces of an offered entry rest. -/
structure State.Agrees (o : Option PortId) (s : State) : Prop where
  view : s.view.Agrees o
  sides : ∀ r : RecordId, s.pages[r].sides ≤ 2

theorem JobFlag.bit_inj {f g : JobFlag} (h : f.bit = g.bit) : f = g := by cases f <;> cases g <;> simp_all [JobFlag.bit]

@[simp] theorem hasBit_addBit {n : Nat} (x : BitVec n) (i k : Nat) :
    hasBit (addBit x i) k = (hasBit x k || (decide (k < n) && decide (i = k))) := by
  simp only [hasBit, addBit, BitVec.getLsbD_or, BitVec.getLsbD_twoPow]
  grind

variable (s : State) {t : State} {o : Option PortId}

theorem State.view_job (j : SlotId) : s.view.job j = s.jobs[j].view := rfl
theorem State.view_port (p : PortId) : s.view.port p = s.ports[p].view := rfl
theorem State.view_list (q : QueueId) : s.view.list q = s.queues[q].list := rfl
theorem State.view_notices (j : SlotId) : s.view.notices j = s.notices.count (.job j) := rfl

theorem State.view_ext (hj : ∀ j : SlotId, t.jobs[j].view = s.jobs[j].view)
    (hp : ∀ p : PortId, t.ports[p].view = s.ports[p].view) (hq : ∀ q : QueueId, t.queues[q].list = s.queues[q].list)
    (hn : ∀ j : SlotId, t.notices.count (.job j) = s.notices.count (.job j)) : t.view = s.view := by
  exact View.ext (funext hj) (funext hp) (funext hq) (funext hn)

/-- The agreement is the four invariants together. -/
theorem State.agrees_iff :
    s.Agrees none ↔ WindowsSound s ∧ FeedsAgree s ∧ ListsSound s ∧ JobNoticesOwed s := by
  constructor
  · rintro ⟨h, hr⟩
    refine ⟨⟨fun p => ?_, hr⟩, ⟨h.owner, h.feeds, h.home, h.entryFeed, h.streaming, h.starve, fun j => ⟨h.done j, h.cancelled j⟩⟩,
      ⟨h.nodup, h.listed, h.entryJob⟩, fun j => ⟨h.owed j, h.freeOwes j⟩⟩
    have hp := h.fits p
    exact ⟨hp.length, hp.depth, hp.declared, hp.older, hp.faces, h.down p (by simp)⟩
  · rintro ⟨⟨hw, hr⟩, ⟨howner, hfeeds, hhome, hentry, hstream, hstarve, hflags⟩, ⟨hnodup, hlisted, hjob⟩, hn⟩
    refine ⟨⟨fun p => ?_, fun p _ => (hw p).2.2.2.2.2, howner, hfeeds, hhome, hentry, hstream, hstarve,
      fun j => (hflags j).1, fun j => (hflags j).2, hnodup, hlisted, hjob, fun j => (hn j).1, fun j => (hn j).2⟩, hr⟩
    obtain ⟨h1, h2, h3, h4, h5, -⟩ := hw p
    exact ⟨h1, h2, h3, h4, h5⟩

-- ## The view of the updates

@[simp] theorem State.updJob_view (j : SlotId) (f : Job → Job) :
    (s.updJob j f).view = s.view.setJob j (f s.jobs[j]).view := by
  have : ∀ k : SlotId, (s.updJob j f).jobs[k].view = (s.view.setJob j (f s.jobs[j]).view).job k := fun k => by
    by_cases hk : k = j
    · subst hk
      rw [State.updJob_jobs_self]
      simp [View.setJob_job]
    · rw [State.updJob_jobs_ne _ _ _ _ hk]
      simp [View.setJob_job, hk, State.view_job]
  exact View.ext (funext this) rfl rfl rfl

@[simp] theorem State.updPort_view (p : PortId) (f : Port → Port) :
    (s.updPort p f).view = s.view.setPort p (f s.ports[p]).view := by
  have : ∀ k : PortId, (s.updPort p f).ports[k].view = (s.view.setPort p (f s.ports[p]).view).port k := fun k => by
    by_cases hk : k = p
    · subst hk
      rw [State.updPort_ports_self]
      simp [View.setPort_port]
    · rw [State.updPort_ports_ne _ _ _ _ hk]
      simp [View.setPort_port, hk, State.view_port]
  exact View.ext rfl (funext this) rfl rfl

@[simp] theorem State.updQueue_view (q : QueueId) (f : Queue → Queue) :
    (s.updQueue q f).view = s.view.setList q (f s.queues[q]).list := by
  have : ∀ k : QueueId, (s.updQueue q f).queues[k].list = (s.view.setList q (f s.queues[q]).list).list k := fun k => by
    by_cases hk : k = q
    · subst hk
      rw [State.updQueue_queues_self]
      simp [View.setList_list]
    · rw [State.updQueue_queues_ne _ _ _ _ hk]
      simp [View.setList_list, hk, State.view_list]
  exact View.ext rfl rfl (funext this) rfl

@[simp] theorem State.flagJob_view (j : SlotId) (f : JobFlag) : (s.flagJob j f).view = s.view.flag j f := by
  have hj : ∀ k : SlotId, (s.flagJob j f).jobs[k].view = (s.view.flag j f).job k := fun k => by
    by_cases hk : k = j
    · subst hk
      rw [View.flag_job, if_pos rfl, Fin.getElem_fin, State.flagJob_jobs_val]
      cases f <;> simp [State.view_job, Job.view, Job.flagged, JobFlag.bit]
    · rw [State.flagJob_jobs_ne _ _ _ _ hk, View.flag_job, if_neg hk]
      rfl
  have hn : ∀ k : SlotId, (s.flagJob j f).notices.count (.job k) = (s.view.flag j f).notices k := fun k => by
    rw [State.flagJob_notices, List.count_append, View.flag_notices]
    by_cases hk : k = j
    · subst hk
      cases hb : s.jobs[k.val].noticeOwed <;>
        simp [State.view_job, State.view_notices, Job.view, hb]
    · have : (if s.jobs[j].noticeOwed then [] else [Source.job j]).count (Source.job k) = 0 := by
        split <;> simp [Ne.symm hk]
      rw [this, if_neg hk]
      rfl
  refine View.ext (funext hj) ?_ ?_ (funext hn)
  · simp only [State.view, State.flagJob_ports, View.flag_port]
  · simp only [State.view, State.flagJob_queues, View.flag_list]

variable {s}

theorem State.view_of_keeps {parts : List Part} (h : KeepsAllBut parts s t) (hj : Part.jobs ∉ parts := by decide)
    (hp : Part.ports ∉ parts := by decide) (hq : Part.queues ∉ parts := by decide)
    (hn : Part.notices ∉ parts := by decide) : t.view = s.view := by
  have ej : t.jobs = s.jobs := h .jobs hj
  have ep : t.ports = s.ports := h .ports hp
  have eq : t.queues = s.queues := h .queues hq
  have en : t.notices = s.notices := h .notices hn
  simp only [State.view, ej, ep, eq, en]

variable (s)

@[simp] theorem State.ask_view : s.ask.view = s.view := State.view_of_keeps s.ask_keeps
@[simp] theorem State.askIfRun_view (q : QueueId) : (s.askIfRun q).view = s.view := State.view_of_keeps (s.askIfRun_keeps q)
@[simp] theorem State.askIfAnyRun_view : s.askIfAnyRun.view = s.view := State.view_of_keeps s.askIfAnyRun_keeps
@[simp] theorem State.askIfClaimable_view (p : PortId) : (s.askIfClaimable p).view = s.view :=
  State.view_of_keeps (s.askIfClaimable_keeps p)
@[simp] theorem State.askIfBecame_view (p : PortId) (b : State) : (s.askIfBecame p b).view = s.view :=
  State.view_of_keeps (s.askIfBecame_keeps p b)
@[simp] theorem State.updAccount_view (a : AccountId) (f : Account → Account) : (s.updAccount a f).view = s.view := rfl
@[simp] theorem State.updAlert_view (a : AlertId) (f : AlertSlot → AlertSlot) : (s.updAlert a f).view = s.view := rfl
@[simp] theorem State.updPage_view (r : RecordId) (f : PageRecord → PageRecord) : (s.updPage r f).view = s.view := rfl
@[simp] theorem State.updRing_view (q : QueueId) (f : Ring → Ring) : (s.updRing q f).view = s.view := rfl
@[simp] theorem State.updProposal_view (q : QueueId) (f : Option Proposal → Option Proposal) :
    (s.updProposal q f).view = s.view := rfl
@[simp] theorem State.press_view (p : PortId) (m : PressMessage) : (s.press p m).view = s.view := rfl
@[simp] theorem State.pressAll_view (p : PortId) (ms : List PressMessage) : (s.pressAll p ms).view = s.view := rfl
@[simp] theorem State.placeReply_view (f : HostFrame) : (s.placeReply f).view = s.view := rfl
@[simp] theorem State.popInbox_view : s.popInbox.view = s.view := rfl
@[simp] theorem State.withPending_view (c : List Instr) : (s.withPending c).view = s.view := rfl
@[simp] theorem State.releaseFaces_view (e : SendEntry) : (s.releaseFaces e).view = s.view :=
  State.view_of_keeps (s.releaseFaces_keeps e)

/-- A change of a job record that the agreement does not read. -/
theorem State.updJob_view_same (j : SlotId) {f : Job → Job} (h : (f s.jobs[j]).view = s.jobs[j].view) :
    (s.updJob j f).view = s.view := by
  rw [State.updJob_view, h]
  exact View.setJob_same

/-- A change of a port record that the agreement does not read. -/
theorem State.updPort_view_same (p : PortId) {f : Port → Port} (h : (f s.ports[p]).view = s.ports[p].view) :
    (s.updPort p f).view = s.view := by
  rw [State.updPort_view, h]
  exact View.setPort_same

/-- A change of a queue record that leaves its list as it is. -/
theorem State.updQueue_view_same (q : QueueId) {f : Queue → Queue} (h : (f s.queues[q]).list = s.queues[q].list) :
    (s.updQueue q f).view = s.view := by
  rw [State.updQueue_view, h]
  exact View.setList_same

@[simp] theorem State.stopSend_view (p : PortId) : (s.stopSend p).view = s.view :=
  (State.updPort_view_same _ p rfl).trans (s.pressAll_view p _)

@[simp] theorem State.stopSendOf_view (p : PortId) (e : SendEntry) : (s.stopSendOf p e).view = s.view := by
  unfold State.stopSendOf
  split
  · exact s.stopSend_view p
  · rfl

/-- A source that is no job joins the notice queue. -/
theorem State.joinNotices_view {src : Source} (h : ∀ j, src ≠ .job j) : (s.joinNotices src).view = s.view :=
  State.view_ext s (fun _ => rfl) (fun _ => rfl) (fun _ => rfl) (fun j => by simp [h j])

@[simp] theorem State.flagPort_view (p : PortId) (f : PortFlag) : (s.flagPort p f).view = s.view := by
  have h := s.updPort_view_same p (f := fun r => { r with flags := addBit r.flags f.bit, noticeOwed := true }) rfl
  unfold State.flagPort
  dsimp only
  split
  · exact h
  · exact (State.joinNotices_view _ (by simp)).trans h

@[simp] theorem State.flagAlert_view (a : AlertId) (f : AlertFlag) : (s.flagAlert a f).view = s.view := by
  unfold State.flagAlert
  dsimp only
  split
  · rfl
  · exact State.joinNotices_view _ (by simp)

@[simp] theorem State.giveMark_view (q : QueueId) (m : Nat) : (s.giveMark q m).view = s.view := by
  unfold State.giveMark
  split
  · split
    · rfl
    · rw [State.askIfRun_view]
      exact s.updQueue_view_same q rfl
  · rfl

/-- Operations that leave the view as it is leave it so one after the other. -/
theorem State.foldl_view {α : Type} {f : State → α → State} (h : ∀ t x, (f t x).view = t.view) (xs : List α) :
    (xs.foldl f s).view = s.view := by
  induction xs generalizing s with
  | nil => rfl
  | cons x xs ih => exact (ih (f s x)).trans (h s x)

@[simp] theorem State.deliverGives_view (j : SlotId) : (s.deliverGives j).view = s.view := by
  have h := s.foldl_view (f := fun t q => if hasBit s.jobs[j].giveSet q.val && q != s.jobs[j].queue then
      t.giveMark q s.jobs[j].queue.val else t) (fun t q => by split <;> simp) (List.finRange 8)
  unfold State.deliverGives
  dsimp only
  split
  · exact h
  · exact h

-- ## The alert unit

@[simp] theorem State.openSlot_view (a : AlertId) (k : AlertKind) (ks st : KindSet) (l : Byte) :
    (s.openSlot a k ks st l).view = s.view := State.flagAlert_view _ _ _

@[simp] theorem State.closeSlot_view (a : AlertId) : (s.closeSlot a).view = s.view := State.flagAlert_view _ _ _

@[simp] theorem State.raiseStop_view (p : PortId) (k : AlertKind) (l : Byte) : (s.raiseStop p k l).view = s.view := by
  unfold State.raiseStop
  split <;> simp

@[simp] theorem State.repeatWait_view (a : AlertId) (k : KindSet) : (s.repeatWait a k).view = s.view := by
  unfold State.repeatWait
  split <;> simp

@[simp] theorem State.closeIfClear_view (a : AlertId) : (s.closeIfClear a).view = s.view := by
  unfold State.closeIfClear
  split <;> simp

@[simp] theorem State.waitEvent_view (p : PortId) (a r : KindSet) : (s.waitEvent p a r).view = s.view := by
  unfold State.waitEvent
  split
  · simp
  · split <;> simp

@[simp] theorem State.dropExclusions_view (p : PortId) : (s.dropExclusions p).view = s.view := by
  unfold State.dropExclusions
  split
  · rw [State.ask_view]
    refine State.view_ext s (fun j => ?_) (fun _ => rfl) (fun _ => rfl) (fun _ => rfl)
    simp only [Fin.getElem_fin, mapTable_getElem, Job.dropExclusion]
    split <;> rfl
  · rfl

@[simp] theorem State.closeStop_view (p : PortId) : (s.closeStop p).view = s.view := by simp [State.closeStop]

@[simp] theorem State.confirmAttendant_view (p : PortId) : (s.confirmAttendant p).view = s.view := by
  unfold State.confirmAttendant
  dsimp only
  split <;> simp

@[simp] theorem State.endSetup_view (p : PortId) : (s.endSetup p).view = s.view := by
  unfold State.endSetup State.withdrawStall
  split
  · rw [State.waitEvent_view]
    exact s.updPort_view_same p rfl
  · rfl

@[simp] theorem State.reportStall_view (p : PortId) : (s.reportStall p).view = s.view := by
  unfold State.reportStall
  rw [State.waitEvent_view]
  exact s.updPort_view_same p rfl

-- ## Records that the agreement does not read

@[simp] theorem State.hear_view (p : PortId) : (s.hear p).view = s.view := s.updPort_view_same p rfl

@[simp] theorem State.beginSetup_view (p : PortId) (m : Media) : (s.beginSetup p m).view = s.view := by
  unfold State.beginSetup
  rw [State.press_view]
  exact s.updPort_view_same p rfl

theorem Job.rewind_view (copy place : Nat) (x : Job) : (x.rewind copy place).view = x.view := by
  unfold Job.rewind
  split
  · rfl
  · split <;> rfl

@[simp] theorem State.rewindTo_view (j : SlotId) (es : List SendEntry) : (s.rewindTo j es).view = s.view := by
  unfold State.rewindTo
  split
  · rfl
  · exact s.updJob_view_same j (Job.rewind_view _ _ _)

@[simp] theorem State.excludeJob_view (p : PortId) (j : SlotId) : (s.excludeJob p j).view = s.view :=
  s.updJob_view_same j rfl

@[simp] theorem State.listAffected_view (p : PortId) (j : SlotId) : (s.listAffected p j).view = s.view :=
  s.updAlert_view _ _

@[simp] theorem State.settleEntry_view (p : PortId) (e : SendEntry) : (s.settleEntry p e).view = s.view := by
  unfold State.settleEntry
  rw [State.releaseFaces_view]
  split
  · exact s.updPort_view_same p rfl
  · rfl

@[simp] theorem State.freePage_view (r : RecordId) : (s.freePage r).view = s.view := rfl

@[simp] theorem State.freePlace_view (j : SlotId) (place : Nat) : (s.freePlace j place).view = s.view := by
  unfold State.freePlace
  split
  · rfl
  · exact (State.updJob_view_same _ j rfl).trans (s.freePage_view _)

@[simp] theorem State.freeJobPages_view (j : SlotId) : (s.freeJobPages j).view = s.view :=
  s.foldl_view (fun t r => t.freePage_view r) _

@[simp] theorem State.freeSheeted_view (j : SlotId) : (s.freeSheeted j).view = s.view :=
  s.foldl_view (fun t i => by split <;> simp) _

@[simp] theorem State.countPage_view (e : SendEntry) : (s.countPage e).view = s.view := by
  unfold State.countPage
  dsimp only
  split
  · rfl
  · split
    · rfl
    · split <;> simp

theorem State.walk_view (q : QueueId) (js : List SlotId) : (State.walk q js s).1.view = s.view := by
  induction js generalizing s with
  | nil => rfl
  | cons j rest ih =>
    unfold State.walk
    split
    · exact ih s
    · exact (ih _).trans (s.updJob_view_same j rfl)
    · rfl

@[simp] theorem State.examine_view (q : QueueId) : (s.examine q).view = s.view := by
  unfold State.examine
  split
  · exact s.walk_view q _
  · rfl

@[simp] theorem State.examineAgain_view (q : QueueId) : (s.examineAgain q).view = s.view := by
  simp [State.examineAgain]

end Sys2Proof.Machine
end

