-- ==== Sys2Proof/Proofs/AgreementMoves.lean ====
section
/-! SUPPORT. The operations on a job, its feed and its port's window keep the agreement (R8 to R18, R76, R82, R89 to
R104). -/

namespace Sys2Proof.Machine

open Sys2Proof.Safety

/-- A port whose feed is released (R104). -/
def PortView.unfed (y : PortView) : PortView := { y with feedOwner := none, starveTimer := none }

/-- What an abort makes of an entry (R96). -/
def SendEntry.aborted (e : SendEntry) : SendEntry := if e.state = .streaming then { e with state := .aborting } else e

namespace View

variable {v : View} {o : Option PortId} {j : SlotId} {p : PortId} {x : JobView} {y : PortView}

@[simp] theorem setJob_setJob {x' : JobView} : (v.setJob j x).setJob j x' = v.setJob j x' := by simp [setJob]
@[simp] theorem setPort_setPort {y' : PortView} : (v.setPort p y).setPort p y' = v.setPort p y' := by simp [setPort]
theorem setJob_setPort : (v.setJob j x).setPort p y = (v.setPort p y).setJob j x := rfl

@[simp] theorem setJob_hasEntry {k : SlotId} : (v.setJob j x).HasEntry k ↔ v.HasEntry k := Iff.rfl
@[simp] theorem flag_hasEntry {f : JobFlag} {k : SlotId} : (v.flag j f).HasEntry k ↔ v.HasEntry k := Iff.rfl

namespace Agrees

/-- The entries of a window are settled further. -/
theorem mapWindow (h : v.Agrees o) (f : SendEntry → SendEntry) (hj : ∀ e, (f e).job = e.job)
    (hfaces : ∀ e, (f e).faces = e.faces) (ht : ∀ e, e.state = .taken → (f e).state = .taken)
    (hs : ∀ e, (f e).state = .streaming → e.state = .streaming) :
    (v.setPort p { v.port p with window := (v.port p).window.map f }).Agrees o := by
  have hp := h.fits p
  refine h.setPort rfl ⟨by simpa using hp.length, hp.depth, hp.declared, ?_, ?_⟩ ?_ ?_ (h.starve p)
  · intro e he
    rw [← List.map_dropLast] at he
    obtain ⟨e', he', rfl⟩ := List.mem_map.1 he
    exact ht e' (hp.older e' he')
  · intro e he
    obtain ⟨e', he', rfl⟩ := List.mem_map.1 he
    exact (hfaces e').symm ▸ hp.faces e' he'
  · intro ho hl
    simp [h.down p ho hl]
  · intro e he
    obtain ⟨e', he', rfl⟩ := List.mem_map.1 he
    exact .inl ⟨e', he', (hj e').symm, hs e'⟩

/-- What a shorter list has before its last element the longer one has too. -/
theorem dropLast_subset {α : Type} {l m : List α} (h : l.Sublist m) : l.dropLast ⊆ m.dropLast := by
  induction h with
  | slnil => simp
  | @cons l m a h ih =>
    cases m with
    | nil => simp [List.sublist_nil.1 h]
    | cons b m => exact fun x hx => List.mem_cons_of_mem a (ih hx)
  | @cons_cons l m a h ih =>
    cases m with
    | nil => simp [List.sublist_nil.1 h]
    | cons b m =>
      cases l with
      | nil => simp
      | cons c l => exact List.cons_subset_cons a ih

/-- Entries leave a window. -/
theorem subWindow (h : v.Agrees o) {w : List SendEntry} (hw : w.Sublist (v.port p).window) :
    (v.setPort p { v.port p with window := w }).Agrees o := by
  have hp := h.fits p
  refine h.setPort rfl ⟨hw.length_le.trans hp.length, hp.depth, hp.declared, fun e he => hp.older e (dropLast_subset hw he),
    fun e he => hp.faces e (hw.subset he)⟩ ?_ (fun e he => .inl ⟨e, hw.subset he, rfl, id⟩) (h.starve p)
  intro ho hl
  have : (v.port p).window = [] := h.down p ho hl
  rw [this] at hw
  exact List.sublist_nil.1 hw

/-- A port's link changes while its window is empty or about to be settled. -/
theorem setLink (h : v.Agrees o) (l : LinkState) (hw : o = some p ∨ (v.port p).window = [] ∨ l = .up) :
    (v.setPort p { v.port p with link := l }).Agrees o := by
  have hp := h.fits p
  refine h.setPort rfl ⟨hp.length, hp.depth, hp.declared, hp.older, hp.faces⟩ ?_ (fun e he => .inl ⟨e, he, rfl, id⟩)
    (h.starve p)
  intro ho hl
  rcases hw with hw | hw | hw
  · exact absurd hw ho
  · exact hw
  · exact absurd hw hl

end Agrees
end View

variable {s t : State} {o : Option PortId} {j : SlotId} {p : PortId}

namespace State

theorem Agrees.of_view (h : s.Agrees o) (hv : t.view = s.view) (hp : t.pages = s.pages) : t.Agrees o :=
  ⟨hv.symm ▸ h.view, hp.symm ▸ h.sides⟩

theorem Agrees.of_moved (h : s.Agrees o) (hv : t.view.Agrees o) (hp : t.pages = s.pages) : t.Agrees o :=
  ⟨hv, hp.symm ▸ h.sides⟩

theorem Agrees.opened (h : s.Agrees none) (o : Option PortId) : s.Agrees o := ⟨h.view.opened o, h.sides⟩

theorem Agrees.of_keeps {parts : List Part} (h : s.Agrees o) (hk : KeepsAllBut parts s t)
    (hj : Part.jobs ∉ parts := by decide) (hp : Part.ports ∉ parts := by decide)
    (hq : Part.queues ∉ parts := by decide) (hn : Part.notices ∉ parts := by decide)
    (hpg : Part.pages ∉ parts := by decide) : t.Agrees o :=
  h.of_view (view_of_keeps hk hj hp hq hn) (hk .pages hpg)

theorem hasEntries_iff : s.hasEntries j = true ↔ s.view.HasEntry j := by
  simp only [hasEntries, entryPort, List.find?_isSome, List.mem_finRange, true_and, holdsEntry, List.any_eq_true,
    beq_iff_eq]
  rfl

theorem not_hasEntry (h : ¬s.hasEntries j = true) : ¬s.view.HasEntry j := fun hv => h (hasEntries_iff.2 hv)

-- ## Links and the hold test

theorem goDown_view (p : PortId) (c : DownCause) :
    (s.goDown p c).view = s.view.setPort p { s.ports[p].view with link := .down } := by
  unfold goDown
  dsimp only
  split
  · rw [flagPort_view, updPort_view]
    rfl
  · rw [updPort_view]
    rfl

theorem Agrees.goDown (h : s.Agrees o) (c : DownCause) (hw : o = some p ∨ s.ports[p].window = []) :
    (s.goDown p c).Agrees o := by
  refine h.of_moved ?_ ((s.goDown_keeps p c).part .pages)
  rw [goDown_view]
  exact h.view.setLink .down (hw.imp id .inl)

theorem Agrees.holdTest (h : s.Agrees o) (p : PortId) : (s.holdTest p).Agrees o := by
  unfold State.holdTest
  split
  · rename_i hd
    refine h.goDown _ (.inr ?_)
    simp only [Port.holdsDown, Bool.and_eq_true, List.isEmpty_iff] at hd
    exact hd.1.2
  · exact h

theorem Agrees.ask (h : s.Agrees o) : s.ask.Agrees o := h.of_keeps s.ask_keeps

theorem Agrees.askIfRun (h : s.Agrees o) (q : QueueId) : (s.askIfRun q).Agrees o := h.of_keeps (s.askIfRun_keeps q)

theorem Agrees.askIfBecame (h : s.Agrees o) (p : PortId) (b : State) : (s.askIfBecame p b).Agrees o :=
  h.of_keeps (s.askIfBecame_keeps p b)

theorem Agrees.feedReleased (h : s.Agrees o) (p : PortId) : (s.feedReleased p).Agrees o :=
  (h.of_keeps (s.askIfClaimable_keeps p)).holdTest p

-- ## Event flags and a job's state

theorem Agrees.flagJob (h : s.Agrees o) (f : JobFlag) (hv : s.jobs[j].state ≠ .free) (hd : f ≠ .done := by decide)
    (hc : f ≠ .cancelled := by decide) : (s.flagJob j f).Agrees o := by
  refine h.of_moved ?_ ((s.flagJob_keeps j f).part .pages)
  rw [flagJob_view]
  exact h.view.flag f hv (fun e => absurd e hd) (fun e => absurd e hc)

theorem Agrees.flagDone (h : s.Agrees o) (hs : s.jobs[j].state = .done) : (s.flagJob j .done).Agrees o := by
  refine h.of_moved ?_ ((s.flagJob_keeps j .done).part .pages)
  rw [flagJob_view]
  have hs : (s.view.job j).state = .done := hs
  exact h.view.flag _ (by simp [hs]) (fun _ => hs) (fun e => by simp at e)

theorem Agrees.flagCancelled (h : s.Agrees o) (hs : s.jobs[j].state = .cancelling) (he : ¬s.hasEntries j = true) :
    (s.flagJob j .cancelled).Agrees o := by
  refine h.of_moved ?_ ((s.flagJob_keeps j .cancelled).part .pages)
  rw [flagJob_view]
  have hs : (s.view.job j).state = .cancelling := hs
  exact h.view.flag _ (by simp [hs]) (fun e => by simp at e) (fun _ => ⟨hs, not_hasEntry he⟩)

/-- A job without a feed that is neither FREE, DONE nor CANCELLING takes another such state, or is DONE or CANCELLING
from then on. -/
theorem Agrees.restate (h : s.Agrees o) {f : Job → Job} {st : JobState}
    (hf : (f s.jobs[j]).view = { s.jobs[j].view with state := st })
    (hs : s.jobs[j].state = .waiting ∨ s.jobs[j].state = .handed ∨ s.jobs[j].state = .error)
    (hst : st = .waiting ∨ st = .handed ∨ st = .cancelling ∨ st = .error ∨ (st = .done ∧ ¬s.hasEntries j = true)) :
    (s.updJob j f).Agrees o := by
  refine h.of_moved ?_ rfl
  rw [updJob_view, hf]
  have hs : (s.view.job j).state = .waiting ∨ (s.view.job j).state = .handed ∨ (s.view.job j).state = .error := hs
  have hnf : ¬(s.view.job j).Feeds := by
    rcases hs with hs | hs | hs <;> simp [JobView.Feeds, hs]
  have hown : ∀ q : PortId, s.ports[q].feedOwner ≠ some j := by
    intro q hq
    have := (h.view.owner q j).1 hq
    exact hnf ((h.view.feeds j).1 (by simp [this]))
  refine h.view.setJob rfl rfl rfl rfl rfl ?_ ?_ (iff_of_false ?_ hnf) ?_ ?_ ?_ ?_ ?_
  · rcases hst with h | h | h | h | ⟨h, -⟩ <;> simp [h]
  · rcases hs with hs | hs | hs <;> simp [hs]
  · rcases hst with h | h | h | h | ⟨h, -⟩ <;> simp [JobView.Feeds, h]
  · rcases hs with hs | hs | hs <;> simp [hs]
  · rcases hs with hs | hs | hs <;> simp [hs]
  · rintro rfl
    exact not_hasEntry (by simpa using hst)
  · intro _ q e he hej
    subst hej
    exact h.view.not_streaming he (by rcases hs with hs | hs | hs <;> simp [hs])
  · exact fun _ q hq => absurd hq (hown q)

theorem Agrees.makeWaiting (h : s.Agrees o) (r : WaitReason)
    (hs : s.jobs[j].state = .waiting ∨ s.jobs[j].state = .handed ∨ s.jobs[j].state = .error) :
    (s.makeWaiting j r).Agrees o :=
  (h.restate rfl hs (.inl rfl)).askIfRun _

theorem releaseFeed_view (p : PortId) (j : SlotId) : (s.releaseFeed p j).view =
    (s.view.setPort p s.ports[p].view.unfed).setJob j { s.jobs[j].view with feedPort := none } := by
  unfold releaseFeed
  rw [updJob_view, updPort_view]
  rfl

/-- The view after a feed's release and a new state of the job that held it. -/
theorem Agrees.releaseTo (h : s.Agrees o) (hp : s.ports[p].feedOwner = some j)
    (hns : ∀ e ∈ s.ports[p].window, e.state ≠ .streaming) {st : JobState}
    (hst : st = .waiting ∨ st = .handed ∨ st = .cancelling ∨ st = .error) :
    ((s.view.setPort p s.ports[p].view.unfed).setJob j { s.jobs[j].view with feedPort := none, state := st }).Agrees o :=
  h.view.release hp hns rfl rfl rfl rfl rfl (by rcases hst with rfl | rfl | rfl | rfl <;> simp)
    (by rcases hst with rfl | rfl | rfl | rfl <;> simp [JobView.Feeds])
    (by rcases hst with rfl | rfl | rfl | rfl <;> simp)

theorem Agrees.releaseWaiting (h : s.Agrees o) (r : WaitReason) (hp : s.ports[p].feedOwner = some j)
    (hns : ∀ e ∈ s.ports[p].window, e.state ≠ .streaming) : ((s.releaseFeed p j).makeWaiting j r).Agrees o := by
  refine h.of_moved ?_ (((s.releaseFeed p j).makeWaiting_keeps j r).part .pages)
  have hv := h.releaseTo hp hns (.inl rfl)
  unfold State.makeWaiting
  rw [askIfRun_view, updJob_view, releaseFeed_view]
  simpa [Job.view] using hv

end State
end Sys2Proof.Machine
end

