-- ==== Sys2Proof/Proofs/AgreementCompletion.lean ====
section
/-! SUPPORT. Windows, completion, cancelling and the test of R9 keep the agreement. -/

namespace Sys2Proof.Machine

open Sys2Proof.Safety

variable {s t : State} {o : Option PortId} {j : SlotId} {p : PortId}

theorem Job.chargeSheet_view (b : Bool) (n : Nat) (x : Job) : (x.chargeSheet b n).view = x.view := rfl
theorem Job.countSheet_view (n : Nat) (x : Job) : (x.countSheet n).view = x.view := rfl
theorem Port.count_view (f : MeterSet → MeterSet) (x : Port) : (x.count f).view = x.view := rfl

namespace State

theorem Agrees.foldl {α : Type} {f : State → α → State} (hf : ∀ t x, t.Agrees o → (f t x).Agrees o) (h : s.Agrees o)
    (xs : List α) : (xs.foldl f s).Agrees o := by
  induction xs generalizing s with
  | nil => exact h
  | cons x xs ih => exact ih (hf s x h)

theorem feedPort_of_owner (h : s.Agrees o) (hp : s.ports[p].feedOwner = some j) : s.jobs[j].feedPort = some p :=
  (h.view.owner p j).1 hp

theorem owner_of_feedPort (h : s.Agrees o) (hj : s.jobs[j].feedPort = some p) : s.ports[p].feedOwner = some j :=
  (h.view.owner p j).2 hj

/-- A job that holds a feed is ACTIVE or STARVED (R8). -/
theorem feeds_of_feedPort (h : s.Agrees o) (hj : s.jobs[j].feedPort = some p) :
    s.jobs[j].state = .active ∨ s.jobs[j].state = .starved :=
  (h.view.feeds j).1 (fun e => by rw [show s.jobs[j].feedPort = none from e] at hj; simp at hj)

theorem feedPort_none (h : s.Agrees o) (ha : s.jobs[j].state ≠ .active) (hs : s.jobs[j].state ≠ .starved) :
    s.jobs[j].feedPort = none := by
  cases hf : s.jobs[j].feedPort with
  | none => rfl
  | some p => exact ((feeds_of_feedPort h hf).elim ha hs).elim

/-- A STARVED owner's port sends no entry (R7, R91). -/
theorem not_streaming_of_starved (h : s.Agrees o) (hp : s.ports[p].feedOwner = some j) (hs : s.jobs[j].state = .starved) :
    ∀ e ∈ s.ports[p].window, e.state ≠ .streaming := by
  intro e he hst
  obtain ⟨ho, ha⟩ := h.view.streaming p e he hst
  obtain rfl : j = e.job := Option.some.inj (hp.symm.trans ho)
  exact absurd (hs.symm.trans ha) (by decide)

-- ## Page records

theorem Agrees.updPage (h : s.Agrees o) {r : RecordId} {f : PageRecord → PageRecord} (hf : (f s.pages[r]).sides ≤ 2) :
    (s.updPage r f).Agrees o where
  view := h.view
  sides k := by
    by_cases hk : k = r
    · subst hk
      rwa [State.updPage_pages_self]
    · rw [State.updPage_pages_ne _ _ _ _ hk]
      exact h.sides k

theorem Agrees.freePage (h : s.Agrees o) (r : RecordId) : (s.freePage r).Agrees o :=
  ⟨h.view, (h.updPage (f := fun _ => .freeRecord) (by simp [PageRecord.freeRecord])).sides⟩

theorem Agrees.updJobSame (h : s.Agrees o) {f : Job → Job} (hf : (f s.jobs[j]).view = s.jobs[j].view) :
    (s.updJob j f).Agrees o := h.of_view (s.updJob_view_same j hf) rfl

theorem Agrees.updPortSame (h : s.Agrees o) {f : Port → Port} (hf : (f s.ports[p]).view = s.ports[p].view) :
    (s.updPort p f).Agrees o := h.of_view (s.updPort_view_same p hf) rfl

theorem Agrees.freePlace (h : s.Agrees o) (j : SlotId) (place : Nat) : (s.freePlace j place).Agrees o := by
  unfold State.freePlace
  split
  · exact h
  · exact (h.freePage _).updJobSame rfl

theorem Agrees.freeSheeted (h : s.Agrees o) (j : SlotId) : (s.freeSheeted j).Agrees o :=
  h.foldl (fun t i ht => by
    split
    · exact ht.freePlace j _
    · exact ht) _

theorem Agrees.freeJobPages (h : s.Agrees o) (j : SlotId) : (s.freeJobPages j).Agrees o :=
  h.foldl (fun _ r ht => ht.freePage r) _

theorem Agrees.countPage (h : s.Agrees o) (e : SendEntry) : (s.countPage e).Agrees o := by
  unfold State.countPage
  dsimp only
  split
  · exact h
  · split
    · exact h
    · rename_i r _
      have h1 : (s.updPage r (fun x => { x with sheeted := x.sheeted + 1 })).Agrees o := h.updPage (h.sides r)
      split
      · exact h1.freePlace _ _
      · exact h1

-- ## Windows

theorem Agrees.stopSend (h : s.Agrees o) (p : PortId) : (s.stopSend p).Agrees o := h.of_view (s.stopSend_view p) rfl

theorem Agrees.stopSendOf (h : s.Agrees o) (p : PortId) (e : SendEntry) : (s.stopSendOf p e).Agrees o :=
  h.of_view (s.stopSendOf_view p e) ((s.stopSendOf_keeps p e).part .pages)

theorem Agrees.eraseEntry (h : s.Agrees o) (p : PortId) (e : SendEntry) : (s.updPort p (Port.dropEntry e)).Agrees o := by
  refine h.of_moved ?_ rfl
  rw [updPort_view]
  exact h.view.subWindow (p := p) List.erase_sublist

theorem Agrees.dropEntry (h : s.Agrees o) (p : PortId) (e : SendEntry) : (s.dropEntry p e).Agrees o :=
  (h.stopSendOf p e).eraseEntry p e

/-- An abort changes nothing of the view but the STREAMING entries of the window. -/
theorem abortStreaming_view (p : PortId) : (s.abortStreaming p).view =
    s.view.setPort p { s.ports[p].view with window := s.ports[p].window.map SendEntry.aborted } := by
  unfold State.abortStreaming
  split
  · rename_i hn
    have : s.ports[p].window.map SendEntry.aborted = s.ports[p].window := by
      simp only [List.find?_eq_none, beq_iff_eq] at hn
      exact (List.map_congr_left fun e he => if_neg (hn e he)).trans (List.map_id _)
    rw [this]
    exact View.setPort_same.symm
  · rename_i e _
    rw [press_view, updPort_view]
    have hv : (if e.ended = true then s else s.stopSend p).view = s.view := by split <;> simp
    have hp : (if e.ended = true then s else s.stopSend p).ports[p].view = s.ports[p].view :=
      congrArg (fun v => v.port p) hv
    have hw : (if e.ended = true then s else s.stopSend p).ports[p].window = s.ports[p].window :=
      congrArg PortView.window hp
    rw [hv]
    refine congrArg (fun y => s.view.setPort p y) ?_
    rw [← hp, ← hw]
    rfl

theorem aborted_not_streaming (es : List SendEntry) : ∀ e ∈ es.map SendEntry.aborted, e.state ≠ .streaming := by
  intro e he
  obtain ⟨e', -, rfl⟩ := List.mem_map.1 he
  unfold SendEntry.aborted
  split <;> simp_all

/-- The view when a job gives up its feed and its STREAMING entry is aborted. -/
theorem Agrees.abortTo (h : s.Agrees o) (hp : s.ports[p].feedOwner = some j) {st : JobState}
    (hst : st = .waiting ∨ st = .handed ∨ st = .cancelling ∨ st = .error) :
    ((s.view.setPort p { s.ports[p].view.unfed with window := s.ports[p].window.map SendEntry.aborted }).setJob j
      { s.jobs[j].view with feedPort := none, state := st }).Agrees o := by
  have hm := h.view.mapWindow (p := p) SendEntry.aborted (fun e => by unfold SendEntry.aborted; split <;> rfl)
    (fun e => by unfold SendEntry.aborted; split <;> rfl) (fun e he => by simp [SendEntry.aborted, he])
    (fun e he => by by_contra hne; simp [SendEntry.aborted, hne] at he)
  have hr := hm.release (j := j) (p := p) (x := { s.jobs[j].view with feedPort := none, state := st })
    (by rw [View.setPort_port, if_pos rfl]; exact hp)
    (by rw [View.setPort_port, if_pos rfl]; exact aborted_not_streaming _) rfl rfl rfl rfl rfl
    (by rcases hst with rfl | rfl | rfl | rfl <;> simp)
    (by rcases hst with rfl | rfl | rfl | rfl <;> simp [JobView.Feeds])
    (by rcases hst with rfl | rfl | rfl | rfl <;> simp)
  rw [View.setPort_port, if_pos rfl, View.setPort_setPort] at hr
  exact hr

/-- A job takes a state without a feed, its feed is released, and its STREAMING entry is aborted (R15, R30). -/
theorem Agrees.giveUp (h : s.Agrees o) (hj : s.jobs[j].feedPort = some p) {f : Job → Job} {st : JobState}
    (hf : (f s.jobs[j]).view = { s.jobs[j].view with state := st })
    (hst : st = .waiting ∨ st = .handed ∨ st = .cancelling ∨ st = .error) :
    (((s.updJob j f).releaseFeed p j).abortStreaming p).Agrees o := by
  refine h.of_moved ?_ (((((s.updJob j f).releaseFeed p j).abortStreaming_keeps p).part .pages).trans rfl)
  have ha := h.abortTo (owner_of_feedPort h hj) hst
  have hw : ((s.updJob j f).releaseFeed p j).ports[p].view = s.ports[p].view.unfed := by
    simp only [Fin.getElem_fin, releaseFeed_ports_val]
    rfl
  have hx : { (s.updJob j f).jobs[j].view with feedPort := none } =
      { s.jobs[j].view with feedPort := none, state := st } := by
    rw [updJob_jobs_self, hf]
  have hwin : ((s.updJob j f).releaseFeed p j).ports[p].window = s.ports[p].window := congrArg PortView.window hw
  rw [abortStreaming_view, releaseFeed_view, updJob_view, hx, hw, hwin]
  simp only [View.setJob_setPort, View.setJob_setJob, View.setPort_setPort, updJob_ports]
  exact ha

-- ## Completion

theorem Agrees.deliverGives (h : s.Agrees o) (j : SlotId) : (s.deliverGives j).Agrees o :=
  h.of_view (s.deliverGives_view j) ((s.deliverGives_keeps j).part .pages)

theorem Agrees.becomeDone (h : s.Agrees o) (hs : s.jobs[j].state = .handed) (he : ¬s.hasEntries j = true) :
    (s.becomeDone j).Agrees o := by
  have h1 : (s.updJob j (Job.enter .done)).Agrees o :=
    h.restate (st := .done) rfl (.inr (.inl hs)) (by simp [he])
  refine (h1.deliverGives j).flagDone ?_
  rw [(State.deliverGives_keeps _ j).part .jobs, updJob_jobs_self]
  rfl

theorem Agrees.completeProof (h : s.Agrees o) (hs : s.jobs[j].state = .handed) : (s.completeProof j).Agrees o := by
  have h1 := h.updJobSame (j := j) (f := fun x => { x with
    proofRun := false, cursorCopy := 1, cursorPage := 1, proofsDone := byteCount x.proofsDone }) rfl
  have hs' : s.jobs[j.val].state = .handed := hs
  refine (h1.flagJob (j := j) .proofDone ?_).makeWaiting .hold (.inr (.inl ?_)) <;> simp [Job.flagged, hs']

theorem Agrees.completeJob (h : s.Agrees o) (hs : s.jobs[j].state = .handed) (he : ¬s.hasEntries j = true) :
    (s.completeJob j).Agrees o := by
  unfold State.completeJob
  split
  · exact h.completeProof hs
  · exact h.becomeDone hs he

theorem Agrees.afterSheet (h : s.Agrees o) (j : SlotId) : (s.afterSheet j).Agrees o := by
  unfold State.afterSheet
  split
  · exact h
  · rename_i he
    split
    · rename_i hs; exact h.completeJob hs he
    · rename_i hs; exact h.flagCancelled hs he
    · exact h.askIfRun _
    · exact h

theorem Agrees.afterRemoval (h : s.Agrees o) (j : SlotId) : (s.afterRemoval j).Agrees o := by
  unfold State.afterRemoval
  split
  · exact h
  · rename_i he
    split
    · rename_i hs; exact h.flagCancelled hs he
    · exact h.askIfRun _
    · exact h

theorem Agrees.releaseFaces (h : s.Agrees o) (e : SendEntry) : (s.releaseFaces e).Agrees o :=
  h.of_keeps (s.releaseFaces_keeps e)

theorem Agrees.sheetEvent (h : s.Agrees o) (p : PortId) (e : SendEntry) : (s.sheetEvent p e).Agrees o := by
  unfold State.sheetEvent
  dsimp only
  refine Agrees.afterSheet (Agrees.eraseEntry (Agrees.of_keeps ?_ (updAccount_keeps _ _ _)) p e) _
  refine Agrees.updJobSame (Agrees.countPage (Agrees.updJobSame (Agrees.updPortSame (h.stopSendOf p e) ?_) ?_) e) ?_
  · exact Port.count_view _ _
  · exact Job.countSheet_view _ _
  · exact Job.chargeSheet_view _ _ _

-- ## Cancelling, and the test of R9

theorem feedReleased_jobs_getElem (k : SlotId) : (s.feedReleased p).jobs[k] = s.jobs[k] := by
  rw [(s.feedReleased_keeps p).part .jobs]

theorem Agrees.cancelJob (h : s.Agrees o) (hf : s.jobs[j].state ≠ .free) (hd : s.jobs[j].state ≠ .done)
    (hc : s.jobs[j].state ≠ .cancelling) : (s.cancelJob j).Agrees o := by
  unfold State.cancelJob
  dsimp only
  cases hfeed : s.jobs[j].feedPort with
  | none =>
    have hs : s.jobs[j].state = .waiting ∨ s.jobs[j].state = .handed ∨ s.jobs[j].state = .error := by
      have := (h.view.feeds j).not.1 (fun e => e hfeed)
      simp only [JobView.Feeds, view_job, Job.view] at this
      cases hst : s.jobs[j].state <;> simp_all
    have h1 : (s.updJob j (Job.enter .cancelling)).Agrees o := h.restate (st := .cancelling) rfl hs (by simp)
    dsimp only
    split
    · exact h1
    · rename_i he
      exact h1.flagCancelled (by simp [Job.enter]) he
  | some p =>
    have h1 : (((s.updJob j (Job.enter .cancelling)).releaseFeed p j).abortStreaming p).Agrees o :=
      h.giveUp hfeed (st := .cancelling) rfl (by simp)
    have h2 := h1.feedReleased p
    dsimp only
    split
    · exact h2
    · rename_i he
      refine h2.flagCancelled ?_ he
      rw [feedReleased_jobs_getElem, (State.abortStreaming_keeps _ p).part .jobs]
      simp [Job.enter]

theorem Agrees.haltJob (h : s.Agrees o) (j : SlotId) : (s.haltJob j).Agrees o := by
  unfold State.haltJob
  split
  · rename_i hs
    dsimp only
    cases hfeed : s.jobs[j].feedPort with
    | none => exact absurd hfeed ((h.view.feeds j).2 hs)
    | some p => exact (h.giveUp hfeed (st := .waiting) rfl (by simp)).feedReleased p
  · exact h

end State
end Sys2Proof.Machine
end

