-- ==== Sys2Proof/Proofs/AgreementDispatch.lean ====
section
/-! SUPPORT. The test of R9, offers, grants and dispatch keep the agreement. -/

namespace Sys2Proof.Machine

open Sys2Proof.Safety

variable {s t : State} {o : Option PortId} {j : SlotId} {p : PortId}

namespace State

theorem feedReleased_ports_window (q : PortId) : (s.feedReleased p).ports[q].window = s.ports[q].window := by
  by_cases hq : q = p
  · subst hq
    obtain ⟨_, _, _, _, _, _, h⟩ := s.feedReleased_ports_val q
    rw [Fin.getElem_fin, h]
    rfl
  · rw [s.feedReleased_ports_ne _ _ hq]

/-- A job without an unsettled entry has no STREAMING one. -/
theorem not_streaming_of_settled (hu : s.hasUnsettled j = false) {e : SendEntry} (he : e ∈ s.ports[p].window)
    (hej : e.job = j) : e.state ≠ .streaming := by
  intro hst
  have : s.hasUnsettled j = true := by
    simp only [State.hasUnsettled, List.any_eq_true]
    exact ⟨p, List.mem_finRange p, e, he, by simp [hej, SendEntry.unsettled, hst]⟩
  rw [hu] at this
  exact absurd this (by simp)

/-- The streaming entries of a port are its feed owner's. -/
theorem job_of_streaming (h : s.Agrees o) (hp : s.ports[p].feedOwner = some j) {e : SendEntry}
    (he : e ∈ s.ports[p].window) (hst : e.state = .streaming) : e.job = j :=
  Option.some.inj ((h.view.streaming p e he hst).1.symm.trans hp)

/-- What follows when a job has become HANDED: the flag under DOUBLE, and completion without entries (R9). -/
theorem Agrees.afterHanded (h : s.Agrees o) (hs : s.jobs[j].state = .handed) (double : Bool) :
    (if (if double = true then s.flagJob j .handed else s).hasEntries j = true then
        (if double = true then s.flagJob j .handed else s)
      else (if double = true then s.flagJob j .handed else s).completeJob j).Agrees o := by
  have h3 : (if double = true then s.flagJob j .handed else s).Agrees o ∧
      (if double = true then s.flagJob j .handed else s).jobs[j].state = .handed := by
    split
    · refine ⟨h.flagJob .handed (by rw [hs]; decide), ?_⟩
      have : s.jobs[j.val].state = .handed := hs
      simp [Job.flagged, this]
    · exact ⟨h, hs⟩
  generalize (if double = true then s.flagJob j .handed else s) = s3 at h3 ⊢
  split
  · exact h3.1
  · rename_i he
    exact h3.1.completeJob h3.2 he

theorem Agrees.handedTest (h : s.Agrees o) (j : SlotId) : (s.handedTest j).Agrees o := by
  unfold State.handedTest
  dsimp only
  split
  · rename_i hc
    obtain ⟨hst, -, hu⟩ := hc
    cases hf : s.jobs[j].feedPort with
    | none =>
      have hw : s.jobs[j].state = .waiting := by
        have := (h.view.feeds j).not.1 (fun e => e hf)
        simp only [JobView.Feeds, view_job, Job.view] at this
        tauto
      exact (h.restate (f := Job.enter .handed) (st := .handed) rfl (.inl hw) (by simp)).afterHanded (by simp [Job.enter]) _
    | some p =>
      have hown := owner_of_feedPort h hf
      have h1 : ((s.updJob j (Job.enter .handed)).releaseFeed p j).Agrees o := by
        refine h.of_moved ?_ rfl
        have hx : { (s.updJob j (Job.enter .handed)).jobs[j].view with feedPort := none } =
            { s.jobs[j].view with feedPort := none, state := .handed } := by
          rw [updJob_jobs_self]
          rfl
        rw [releaseFeed_view, updJob_view, View.setJob_setPort, View.setJob_setJob, hx]
        exact h.releaseTo hown (fun e he hs => not_streaming_of_settled hu he (job_of_streaming h hown he hs) hs)
          (by simp)
      refine (h1.feedReleased p).afterHanded ?_ _
      rw [feedReleased_jobs_getElem]
      simp [Job.enter]
  · exact h

-- ## Offers

theorem Job.advance_view (x : Job) : x.advance.view = x.view := by
  unfold Job.advance
  split <;> rfl

/-- Steps 1 and 2 of R92, taken apart. -/
theorem mayOffer_iff : s.mayOffer p = true ↔ s.ports[p].link = .up ∧ s.ports[p].inService = true ∧
    s.service p = .feeding ∧ (∀ e ∈ s.ports[p].window, e.state = .taken) ∧ s.ports[p].sending = none := by
  simp only [State.mayOffer, Bool.and_eq_true, beq_iff_eq, Bool.not_eq_true', List.any_eq_false, SendEntry.unsettled,
    bne_iff_ne, ne_eq, not_not, Option.isNone_iff_eq_none, and_assoc]

theorem Agrees.offer (h : s.Agrees o) (hm : s.mayOffer p = true) (hp : s.ports[p].feedOwner = some j)
    (ha : s.jobs[j].state = .active) (hd : s.ports[p].window.length < s.ports[p].depth) (r : RecordId) :
    (s.offer p j r).Agrees o := by
  obtain ⟨hup, -, -, htaken, -⟩ := mayOffer_iff.1 hm
  refine h.of_moved ?_ ((s.offer_keeps p j r).part .pages)
  unfold State.offer
  dsimp only
  rw [press_view, updJob_view_same _ _ (Job.advance_view _), updPort_view]
  have hfit := h.view.fits p
  refine h.view.setPort rfl ⟨?_, hfit.depth, hfit.declared, ?_, ?_⟩ ?_ ?_ (h.view.starve p)
  · simpa [Port.view] using hd
  · intro e he
    refine htaken e ?_
    simpa [Port.view] using he
  · intro e he
    rcases List.mem_append.1 he with he | he
    · exact hfit.faces e he
    · rw [List.mem_singleton.1 he]
      exact h.sides r
  · intro _ hl
    exact absurd hup hl
  · intro e he
    rcases List.mem_append.1 he with he | he
    · exact .inl ⟨e, he, rfl, id⟩
    · rw [List.mem_singleton.1 he]
      exact .inr ⟨hp, ha⟩

/-- A job that holds the feed of a port without a STREAMING entry is STARVED, and its starve timer runs (R7, R103). -/
theorem Agrees.starve (h : s.Agrees o) (hp : s.ports[p].feedOwner = some j) (ha : s.jobs[j].state = .active)
    (hns : ∀ e ∈ s.ports[p].window, e.state = .taken) : (s.starve p j).Agrees o := by
  refine h.of_moved ?_ rfl
  have ha' : (s.view.job j).state = .active := ha
  have h1 : (s.view.setJob j { s.jobs[j].view with state := .starved }).Agrees o := by
    refine h.view.setJob rfl rfl rfl rfl rfl (by simp) (by simp [ha']) (by simp [JobView.Feeds, ha']) (by simp [ha'])
      (by simp [ha']) (by simp) ?_ (by simp)
    intro _ q e he hej hs
    subst hej
    have hq : q = p := Option.some.inj
      ((feedPort_of_owner h (h.view.streaming q e he hs).1).symm.trans (feedPort_of_owner h hp))
    subst hq
    simp [hns e he] at hs
  unfold State.starve
  rw [updPort_view, updJob_view]
  have hfit := h.view.fits p
  refine h1.setPort rfl ⟨hfit.length, hfit.depth, hfit.declared, hfit.older, hfit.faces⟩ (h.view.down p)
    (fun e he => .inl ⟨e, he, rfl, id⟩) (fun _ => ⟨j, hp, ?_⟩)
  simp [View.setJob_job]

theorem Agrees.beginSetup (h : s.Agrees o) (p : PortId) (m : Media) : (s.beginSetup p m).Agrees o :=
  h.of_view (s.beginSetup_view p m) rfl

theorem Agrees.releaseWaitingFlag (h : s.Agrees o) (r : WaitReason) (f : JobFlag) (hd : f ≠ .done) (hc : f ≠ .cancelled)
    (hp : s.ports[p].feedOwner = some j) (hns : ∀ e ∈ s.ports[p].window, e.state ≠ .streaming) :
    (((s.releaseFeed p j).makeWaiting j r).flagJob j f).Agrees o := by
  refine (h.releaseWaiting r hp hns).flagJob f ?_ hd hc
  simp

theorem Agrees.offerPage (h : s.Agrees o) (hm : s.mayOffer p = true) (hp : s.ports[p].feedOwner = some j)
    (ha : s.jobs[j].state = .active) (r : RecordId) : (s.offerPage p j r).Agrees o := by
  have hns : ∀ e ∈ s.ports[p].window, e.state ≠ .streaming :=
    fun e he => by simp [(mayOffer_iff.1 hm).2.2.2.1 e he]
  unfold State.offerPage
  dsimp only
  split
  · exact h
  · rename_i hd
    split
    · exact (h.releaseWaiting .route hp hns).feedReleased p
    · split
      · exact h.beginSetup p _
      · split
        · have h1 : (s.updAccount s.jobs[j].account (Account.reserve s.pages[r].sides)).Agrees o :=
            h.of_keeps (s.updAccount_keeps _ _)
          exact h1.offer hm hp ha (by simpa using hd) r
        · exact (h.releaseWaitingFlag .allowance .allowanceStop (by decide) (by decide) hp hns).feedReleased p

theorem Agrees.offerAttempt (h : s.Agrees o) (p : PortId) : (s.offerAttempt p).Agrees o := by
  unfold State.offerAttempt
  split
  · exact h
  · rename_i j hp
    split
    · rename_i hm
      split
      · rename_i hc
        split
        · exact h.starve hp hc.1 (mayOffer_iff.1 hm).2.2.2.1
        · exact h.offerPage hm hp hc.1 _
      · exact h
    · exact h

/-- A STARVED job becomes ACTIVE, and its port's starve timer stops (R7). -/
theorem Agrees.wake (h : s.Agrees o) (j : SlotId) : (s.wake j).Agrees o := by
  unfold State.wake
  split
  · rename_i hc
    split
    · exact h
    · rename_i p hf
      refine Agrees.offerAttempt ?_ p
      refine h.of_moved ?_ rfl
      have hp := owner_of_feedPort h hf
      have hs : (s.view.job j).state = .starved := hc.1
      have hfit := h.view.fits p
      have h1 : (s.view.setPort p { s.ports[p].view with starveTimer := none }).Agrees o :=
        h.view.setPort rfl ⟨hfit.length, hfit.depth, hfit.declared, hfit.older, hfit.faces⟩ (h.view.down p)
          (fun e he => .inl ⟨e, he, rfl, id⟩) (by simp)
      rw [updPort_view, updJob_view, View.setJob_setPort]
      refine h1.setJob rfl rfl rfl rfl rfl (by simp [Job.view, Job.enter]) (by simp [hs]) ?_ (by simp [hs]) (by simp [hs])
        (by simp [Job.view, Job.enter]) (by simp [Job.view, Job.enter]) ?_
      · simp [JobView.Feeds, hs, Job.view, Job.enter]
      · intro _ q hq
        by_cases hqp : q = p
        · simp [View.setPort_port, hqp]
        · rw [View.setPort_port, if_neg hqp] at hq
          exact absurd (Option.some.inj ((feedPort_of_owner h hq).symm.trans hf)) hqp
  · exact h

-- ## Dispatch

theorem Agrees.examine (h : s.Agrees o) (q : QueueId) : (s.examine q).Agrees o :=
  h.of_view (s.examine_view q) ((s.examine_keeps q).part .pages)

theorem Agrees.examineAgain (h : s.Agrees o) (q : QueueId) : (s.examineAgain q).Agrees o := (h.askIfRun q).examine q

/-- A port that is claimable has no feed owner (R74, R90). -/
theorem feedOwner_of_claimable (hc : s.claimable p = true) : s.ports[p].feedOwner = none := by
  simp only [State.claimable, Bool.and_eq_true, beq_iff_eq] at hc
  have hs := hc.2
  unfold State.service at hs
  split at hs
  · simp at hs
  · split at hs
    · simp at hs
    · split at hs
      · simp at hs
      · split at hs
        · simp at hs
        · simp_all

/-- The window entries of a job that may claim port `p` stand at `p` (R76 condition 4). -/
theorem entries_of_entriesAllow (h : s.Agrees o) (ha : s.entriesAllow p j = true) (q : PortId) (e : SendEntry)
    (he : e ∈ s.ports[q].window) (hej : e.job = j) : q = p := by
  unfold State.entriesAllow at ha
  have hsome : (s.entryPort j).isSome = true := hasEntries_iff.2 ⟨q, e, he, hej⟩
  obtain ⟨q', hq'⟩ := Option.isSome_iff_exists.1 hsome
  rw [hq'] at ha
  have hfound := List.find?_some hq'
  simp only [State.holdsEntry, List.any_eq_true, beq_iff_eq] at hfound
  obtain ⟨f, hf, hfj⟩ := hfound
  have : q = q' := h.view.home q q' e f he hf (hej.trans hfj.symm)
  rw [this]
  simpa using ha

theorem Agrees.grant (h : s.Agrees o) (q : QueueId) (x : Proposal) (hw : s.jobs[x.slot].state = .waiting)
    (he : s.eligible x.port x.slot = true) : (s.grant q x).Agrees o := by
  simp only [State.eligible, Bool.and_eq_true] at he
  obtain ⟨⟨⟨hc, -⟩, -⟩, hentries⟩ := he
  unfold State.grant
  dsimp only
  refine Agrees.offerAttempt ?_ _
  refine h.of_moved ?_ (by simp only [updProposal_pages, updRing_pages, updQueue_pages, updJob_pages, updPort_pages])
  have hcl := h.view.claim (feedOwner_of_claimable hc) hw (entries_of_entriesAllow h hentries)
  rw [updProposal_view, updRing_view, updQueue_view_same, updJob_view, updPort_view]
  · exact hcl
  · unfold Queue.claim
    split <;> rfl

theorem Agrees.decide (h : s.Agrees o) (p : PortId) : (s.decide p).Agrees o := by
  unfold State.decide
  split
  · exact h
  · rename_i q x hwin
    obtain ⟨q', -, hq'⟩ := List.exists_of_findSome?_eq_some hwin
    cases hx : s.proposals[q'] with
    | none => rw [hx] at hq'; simp at hq'
    | some y =>
      rw [hx] at hq'
      dsimp only at hq'
      split at hq'
      · rename_i hc
        obtain ⟨rfl, rfl⟩ : q' = q ∧ y = x := by simpa using hq'
        have hpass := hc.2
        simp only [State.proposalPasses, Bool.and_eq_true, beq_iff_eq] at hpass
        exact h.grant _ _ hpass.1.1.1.1.1.2 hpass.2
      · simp at hq'

theorem Agrees.updProposal (h : s.Agrees o) (q : QueueId) (f : Option Proposal → Option Proposal) :
    (s.updProposal q f).Agrees o := h.of_view rfl rfl

theorem Agrees.round (h : s.Agrees o) : s.round.Agrees o := by
  unfold State.round
  dsimp only
  have h0 : ({ s with freeCount := s.freeCount + 1 } : State).Agrees o := h.of_view rfl rfl
  refine Agrees.foldl (fun _ q ht => ht.examineAgain q) ?_ _
  refine Agrees.foldl (fun _ q ht => ht.updProposal q _) ?_ _
  exact h0.foldl (fun _ p ht => ht.decide p) _

theorem Agrees.rounds (h : s.Agrees o) (n : Nat) : (State.rounds n s).Agrees o := by
  induction n generalizing s with
  | zero => exact h
  | succ n ih =>
    unfold State.rounds
    split
    · exact h
    · exact ih h.round

theorem Agrees.pass (h : s.Agrees o) : s.pass.Agrees o :=
  (h.foldl (fun _ q ht => ht.examine q) _).rounds _

end State
end Sys2Proof.Machine
end

