-- ==== Sys2Proof/Proofs/AgreementStops.lean ====
section
/-! SUPPORT. Stop alerts and a port's link keep the agreement (R84 to R88, R98, R149 to R151). -/

namespace Sys2Proof.Machine

open Sys2Proof.Safety

variable {s t : State} {o : Option PortId} {j : SlotId} {p : PortId}

/-- A port whose window is empty need not be left open. -/
theorem View.Agrees.close {v : View} (h : v.Agrees (some p)) (hw : (v.port p).window = []) : v.Agrees none :=
  { h with
    down := fun q _ hl => by
      by_cases hq : p = q
      · exact hq ▸ hw
      · exact h.down q (by simpa using hq) hl }

namespace State

-- ## The settlement of a window

theorem settleEntries_view (p : PortId) (es : List SendEntry) :
    (es.foldl (fun t e => t.settleEntry p e) s).view = s.view := s.foldl_view (fun t e => t.settleEntry_view p e) es

theorem settleWindow_view (p : PortId) :
    (s.settleWindow p).view = s.view.setPort p { s.ports[p].view with window := [] } := by
  have hv := settleEntries_view (s := s) p s.ports[p].window
  have hp := congrArg (fun v => v.port p) hv
  unfold State.settleWindow
  rw [updPort_view, hv]
  exact congrArg (fun y : PortView => s.view.setPort p { y with window := [] }) hp

/-- The settlement of a window leaves it empty, so that its link may be down. -/
theorem Agrees.settleWindow (h : s.Agrees (some p)) : (s.settleWindow p).Agrees none := by
  have h1 := h.view.subWindow (p := p) (w := []) (List.nil_sublist _)
  refine ⟨?_, ?_⟩
  · rw [settleWindow_view]
    exact h1.close (by simp [View.setPort_port])
  · intro r
    rw [(s.settleWindow_keeps p).part .pages]
    exact h.sides r

-- ## The stopped jobs

/-- A stop alert of port `p` may stop job `j`: it is not FREE, and it holds no feed but that of `p`. -/
def Stoppable (s : State) (p : PortId) (j : SlotId) : Prop :=
  s.jobs[j].state ≠ .free ∧ ∀ q, s.jobs[j].feedPort = some q → q = p

theorem makeWaiting_view (j : SlotId) (r : WaitReason) :
    (s.makeWaiting j r).view = s.view.setJob j { s.jobs[j].view with state := .waiting } := by
  unfold State.makeWaiting
  rw [askIfRun_view, updJob_view]
  rfl

theorem state_of_view {s t : State} (h : t.view = s.view) (j : SlotId) : t.jobs[j].state = s.jobs[j].state :=
  congrArg (fun v : View => (v.job j).state) h

theorem feedPort_of_view {s t : State} (h : t.view = s.view) (j : SlotId) : t.jobs[j].feedPort = s.jobs[j].feedPort :=
  congrArg (fun v : View => (v.job j).feedPort) h

theorem window_of_view {s t : State} (h : t.view = s.view) (p : PortId) : t.ports[p].window = s.ports[p].window :=
  congrArg (fun v : View => (v.port p).window) h

/-- Step 3 of R151 makes an ACTIVE, STARVED, WAITING or HANDED job WAITING. -/
theorem stopState_waits (hs : s.jobs[j].state = .active ∨ s.jobs[j].state = .starved ∨ s.jobs[j].state = .waiting ∨
    s.jobs[j].state = .handed) : s.stopState j = s.makeWaiting j .jam := by
  unfold State.stopState
  rcases hs with hs | hs | hs | hs <;> rw [hs]

/-- Step 3 of R151 for a job without a feed. -/
theorem Agrees.stopState (h : s.Agrees o) (hf : s.jobs[j].feedPort = none) (hfree : s.jobs[j].state ≠ .free) :
    (s.stopState j).Agrees o ∧ (s.stopState j).jobs[j].state ≠ .free ∧ (s.stopState j).jobs[j].feedPort = none := by
  have hnf : ¬(s.view.job j).Feeds := (h.view.feeds j).not.1 (fun e => e hf)
  have hf' : s.jobs[j.val].feedPort = none := hf
  by_cases hw : s.jobs[j].state = .waiting ∨ s.jobs[j].state = .handed
  · rw [stopState_waits (by tauto)]
    exact ⟨h.makeWaiting _ (by tauto), by simp, by simp [hf']⟩
  · unfold State.stopState
    split
    · rename_i hs; exact absurd (.inl hs) hnf
    · rename_i hs; exact absurd (.inr hs) hnf
    · rename_i hs; exact absurd (.inl hs) hw
    · rename_i hs; exact absurd (.inr hs) hw
    · rename_i hs
      split
      · exact ⟨h, hfree, hf⟩
      · rename_i he
        have hs' : s.jobs[j.val].state = .cancelling := hs
        exact ⟨h.flagCancelled hs he, by simp [Job.flagged, hs'], by simp [Job.flagged, hf']⟩
    all_goals exact ⟨h, hfree, hf⟩

/-- Steps 1 to 3 of R151 for a job that the alert may stop. -/
theorem Agrees.stopSteps (h : s.Agrees o) (es : List SendEntry) (hw : s.ports[p].window = []) (hj : s.Stoppable p j) :
    (((s.releaseIfOwner p j).rewindTo j es).stopState j).Agrees o ∧
      (((s.releaseIfOwner p j).rewindTo j es).stopState j).jobs[j].state ≠ .free ∧
      (((s.releaseIfOwner p j).rewindTo j es).stopState j).jobs[j].feedPort = none := by
  by_cases hown : s.ports[p].feedOwner = some j
  · rw [State.releaseIfOwner, if_pos hown]
    have hview := (s.releaseFeed p j).rewindTo_view j es
    have hjv : ((s.releaseFeed p j).rewindTo j es).jobs[j].view = { s.jobs[j].view with feedPort := none } := by
      refine (congrArg (fun v : View => v.job j) hview).trans ?_
      rw [releaseFeed_view]
      simp [View.setJob_job]
    have hst : ((s.releaseFeed p j).rewindTo j es).jobs[j].state = s.jobs[j].state := congrArg JobView.state hjv
    have hact := feeds_of_feedPort h (feedPort_of_owner h hown)
    rw [stopState_waits (by rw [hst]; tauto)]
    have hmv : (((s.releaseFeed p j).rewindTo j es).makeWaiting j .jam).view =
        (s.view.setPort p s.ports[p].view.unfed).setJob j { s.jobs[j].view with feedPort := none, state := .waiting } := by
      rw [makeWaiting_view, hview, releaseFeed_view, hjv, View.setJob_setJob]
    refine ⟨h.of_moved ?_ ?_, by simp, ?_⟩
    · rw [hmv]
      exact h.releaseTo hown (fun e he => by rw [hw] at he; simp at he) (.inl rfl)
    · rw [(makeWaiting_keeps _ j _).part .pages, (rewindTo_keeps _ j es).part .pages]
      rfl
    · refine (congrArg (fun v : View => (v.job j).feedPort) hmv).trans ?_
      simp [View.setJob_job]
  · rw [State.releaseIfOwner, if_neg hown]
    have hview := s.rewindTo_view j es
    have hf : s.jobs[j].feedPort = none := by
      cases hfp : s.jobs[j].feedPort with
      | none => rfl
      | some q => exact absurd (owner_of_feedPort h (hj.2 q hfp ▸ hfp)) hown
    refine Agrees.stopState (h.of_view hview ((s.rewindTo_keeps j es).part .pages)) ?_ ?_
    · rw [feedPort_of_view hview, hf]
    · rw [state_of_view hview]
      exact hj.1

theorem Agrees.flagReroute (h : s.Agrees o) (hj : s.jobs[j].state ≠ .free) : (s.flagReroute j).Agrees o := by
  unfold State.flagReroute
  split
  · exact h.flagJob .rerouted hj
  · exact h

theorem flagReroute_job (j : SlotId) : (s.flagReroute j).jobs[j].state = s.jobs[j].state ∧
    (s.flagReroute j).jobs[j].feedPort = s.jobs[j].feedPort := by
  unfold State.flagReroute
  split
  · simp [Job.flagged]
  · exact ⟨rfl, rfl⟩

/-- One stopped job is dealt with (R151): the agreement stays, and the job holds no feed and is not FREE. -/
theorem Agrees.stopJob (h : s.Agrees o) (es : List SendEntry) (hw : s.ports[p].window = []) (hj : s.Stoppable p j) :
    (s.stopJob p es j).Agrees o ∧ (s.stopJob p es j).Stoppable p j := by
  obtain ⟨h3, hst, hf⟩ := h.stopSteps es hw hj
  unfold State.stopJob
  generalize ((s.releaseIfOwner p j).rewindTo j es).stopState j = u at h3 hst hf ⊢
  have hx := u.excludeJob_view p j
  have h4 : (u.excludeJob p j).Agrees o := h3.of_view hx rfl
  have h5 : ((u.excludeJob p j).flagReroute j).Agrees o := h4.flagReroute (by rw [state_of_view hx]; exact hst)
  have hl := ((u.excludeJob p j).flagReroute j).listAffected_view p j
  obtain ⟨e1, e2⟩ := (u.excludeJob p j).flagReroute_job j
  refine ⟨h5.of_view hl rfl, ?_, ?_⟩
  · rw [state_of_view hl, e1, state_of_view hx]
    exact hst
  · intro q hq
    rw [feedPort_of_view hl, e2, feedPort_of_view hx, hf] at hq
    exact absurd hq (by simp)

-- ## What the stop of one job leaves alone

theorem rewindTo_jobs_ne (es : List SendEntry) (k : SlotId) (h : k ≠ j) : (s.rewindTo j es).jobs[k] = s.jobs[k] := by
  unfold State.rewindTo
  split
  · rfl
  · exact updJob_jobs_ne _ _ _ _ h

theorem releaseIfOwner_jobs_ne (k : SlotId) (h : k ≠ j) : (s.releaseIfOwner p j).jobs[k] = s.jobs[k] := by
  unfold State.releaseIfOwner
  split
  · exact s.releaseFeed_jobs_ne _ _ _ h
  · rfl

theorem stopState_jobs_ne (k : SlotId) (h : k ≠ j) : (s.stopState j).jobs[k] = s.jobs[k] := by
  unfold State.stopState
  split
  case h_5 =>
    split
    · rfl
    · exact s.flagJob_jobs_ne _ _ _ h
  all_goals first | rfl | exact s.makeWaiting_jobs_ne _ _ _ h

theorem flagReroute_jobs_ne (k : SlotId) (h : k ≠ j) : (s.flagReroute j).jobs[k] = s.jobs[k] := by
  unfold State.flagReroute
  split
  · exact s.flagJob_jobs_ne _ _ _ h
  · rfl

/-- A stopped job's steps leave every other job as it is. -/
theorem stopJob_jobs_ne (es : List SendEntry) (k : SlotId) (h : k ≠ j) : (s.stopJob p es j).jobs[k] = s.jobs[k] := by
  unfold State.stopJob State.listAffected
  rw [updAlert_jobs, flagReroute_jobs_ne _ h, State.excludeJob, updJob_jobs_ne _ _ _ _ h, stopState_jobs_ne _ h,
    rewindTo_jobs_ne _ _ h, releaseIfOwner_jobs_ne _ h]

theorem releaseIfOwner_window (q : PortId) : (s.releaseIfOwner p j).ports[q].window = s.ports[q].window := by
  unfold State.releaseIfOwner
  split
  · by_cases hq : q = p
    · subst hq
      rw [Fin.getElem_fin, releaseFeed_ports_val]
      rfl
    · rw [s.releaseFeed_ports_ne _ _ _ hq]
  · rfl

theorem stopJob_window (es : List SendEntry) (q : PortId) : (s.stopJob p es j).ports[q].window = s.ports[q].window := by
  unfold State.stopJob
  rw [(listAffected_keeps _ p j).part .ports, (flagReroute_keeps _ j).part .ports, (excludeJob_keeps _ p j).part .ports,
    (stopState_keeps _ j).part .ports, (rewindTo_keeps _ j es).part .ports, releaseIfOwner_window]

-- ## The stop condition

theorem Agrees.stopJobs (h : s.Agrees o) (es : List SendEntry) (js : List SlotId) (hw : s.ports[p].window = [])
    (hj : ∀ j ∈ js, s.Stoppable p j) : (js.foldl (fun t j => t.stopJob p es j) s).Agrees o := by
  induction js generalizing s with
  | nil => exact h
  | cons j js ih =>
    obtain ⟨h1, hs⟩ := h.stopJob es hw (hj j (by simp))
    refine ih h1 (by rw [stopJob_window, hw]) (fun k hk => ?_)
    by_cases hkj : k = j
    · exact hkj ▸ hs
    · have := hj k (List.mem_cons_of_mem j hk)
      simpa only [Stoppable, stopJob_jobs_ne es k hkj] using this

theorem mem_entryJobs_fold (es : List SlotId) (js : List SlotId) (j : SlotId) :
    j ∈ es.foldl (fun js j => if js.contains j then js else js ++ [j]) js ↔ j ∈ js ∨ j ∈ es := by
  induction es generalizing js with
  | nil => simp
  | cons a es ih =>
    rw [List.foldl_cons, ih]
    by_cases ha : js.contains a = true
    · rw [if_pos ha]
      have : a ∈ js := by simpa using ha
      grind
    · rw [if_neg ha]
      grind

/-- The jobs of a list of entries are those that its entries name. -/
theorem mem_entryJobs (es : List SendEntry) (j : SlotId) : j ∈ entryJobs es ↔ ∃ e ∈ es, e.job = j := by
  unfold entryJobs
  rw [mem_entryJobs_fold]
  simp

/-- The stopped jobs are those with an entry, and the feed owner (R151). -/
theorem mem_stoppedJobs (es : List SendEntry) (owner : Option SlotId) (j : SlotId) :
    j ∈ stoppedJobs es owner ↔ (∃ e ∈ es, e.job = j) ∨ owner = some j := by
  unfold stoppedJobs
  split
  · simp [mem_entryJobs]
  · rename_i k
    split
    · rename_i hk
      have : k ∈ entryJobs es := by simpa using hk
      rw [mem_entryJobs] at this ⊢
      grind
    · rw [List.mem_append, mem_entryJobs]
      grind

theorem Agrees.settleStop (h : s.Agrees (some p)) : (s.settleStop p).Agrees none := by
  refine Agrees.stopJobs h.settleWindow _ _ ?_ ?_
  · exact (congrArg (fun v : View => (v.port p).window) (s.settleWindow_view p)).trans (by simp [View.setPort_port])
  · intro j hj
    have hjob : (s.settleWindow p).jobs[j].view = s.jobs[j].view := by
      have := congrArg (fun v : View => v.job j) (s.settleWindow_view p)
      exact this
    refine ⟨fun hf => ?_, fun q hq => ?_⟩
    · have hfree : s.jobs[j].state = .free := (congrArg JobView.state hjob).symm.trans hf
      rcases (mem_stoppedJobs _ _ _).1 hj with ⟨e, he, rfl⟩ | ho
      · exact (h.view.entryJob p e he).1 hfree
      · rcases feeds_of_feedPort h (feedPort_of_owner h ho) with hs | hs <;>
          exact absurd (hfree.symm.trans hs) (by decide)
    · have hfeed : s.jobs[j].feedPort = some q := (congrArg JobView.feedPort hjob).symm.trans hq
      rcases (mem_stoppedJobs _ _ _).1 hj with ⟨e, he, rfl⟩ | ho
      · exact (h.view.entryFeed p q e he hfeed).symm
      · exact Option.some.inj (hfeed.symm.trans (feedPort_of_owner h ho))

theorem Agrees.confirm (h : s.Agrees o) (p : PortId) (es : List SendEntry) : (s.confirm p es).Agrees o :=
  h.foldl (fun _ e ht => ht.sheetEvent p e) _

theorem Agrees.raiseStop (h : s.Agrees o) (p : PortId) (k : AlertKind) (l : Byte) : (s.raiseStop p k l).Agrees o :=
  h.of_view (s.raiseStop_view p k l) ((s.raiseStop_keeps p k l).part .pages)

/-- A stop condition settles its port's window (8.3), which may have been left open before. -/
theorem Agrees.stopCondition (h : s.Agrees (some p)) (k : AlertKind) (l : Byte) (n : Option Serial) :
    (s.stopCondition p k l n).Agrees none := ((h.raiseStop p k l).confirm p _).settleStop

-- ## Links

theorem Agrees.endSetup (h : s.Agrees o) (p : PortId) : (s.endSetup p).Agrees o :=
  h.of_view (s.endSetup_view p) ((s.endSetup_keeps p).part .pages)

theorem enterProbing_view (p : PortId) :
    (s.enterProbing p).view = s.view.setPort p { s.ports[p].view with link := .probing } := by
  unfold State.enterProbing
  dsimp only
  split
  · rw [flagPort_view, press_view, updPort_view]
    rfl
  · rw [press_view, updPort_view]
    rfl

theorem Agrees.enterProbing (h : s.Agrees o) (hw : o = some p ∨ s.ports[p].window = []) :
    (s.enterProbing p).Agrees o := by
  refine h.of_moved ?_ ((s.enterProbing_keeps p).part .pages)
  rw [enterProbing_view]
  exact h.view.setLink .probing (hw.imp id .inl)

theorem Agrees.linkLoss (h : s.Agrees none) (p : PortId) : (s.linkLoss p).Agrees none :=
  ((((h.opened (some p)).stopSend p).endSetup p).enterProbing (.inl rfl)).stopCondition _ _ _

theorem Agrees.orderFault (h : s.Agrees none) (p : PortId) : (s.orderFault p).Agrees none :=
  ((((h.opened (some p)).stopSend p).endSetup p).goDown _ (.inl rfl)).stopCondition _ _ _

/-- A link comes UP with a depth of at most 8, at least the window's length (R87). -/
theorem Agrees.comeUp (h : s.Agrees o) (p : PortId) (r : Rate) {d : Nat} (hd : d ≤ 8) (hw : s.ports[p].window.length ≤ d) :
    (s.comeUp p r d).Agrees o := by
  refine h.of_moved ?_ ((s.comeUp_keeps p r d).part .pages)
  unfold State.comeUp
  rw [askIfClaimable_view, flagPort_view, updPort_view]
  have hfit := h.view.fits p
  exact h.view.setPort rfl ⟨hw, hd, hfit.declared, hfit.older, hfit.faces⟩ (fun _ hl => absurd rfl hl)
    (fun e he => .inl ⟨e, he, rfl, id⟩) (h.view.starve p)

end State
end Sys2Proof.Machine
end

