-- ==== Sys2Proof/Proofs/AgreementRequests.lean ====
section
/-! SUPPORT. The taking of requests keeps the agreement. -/

namespace Sys2Proof.Machine

open Sys2Proof.Safety

variable {s t : State} {o : Option PortId} {j : SlotId} {p : PortId} {body : List Byte}

/-- A rule that lets its request through answers a state with the agreement. -/
def Judged.Agrees : Judged → Prop
  | .refused _ => True
  | .done t _ _ => t.Agrees none

theorem Judged.agrees_ok {t : State} {fields : List Byte} (h : t.Agrees none) : (ok t fields).Agrees := h

theorem Judged.agrees_refused (c : ResultCode) : (Judged.refused c).Agrees := trivial

theorem Judged.agrees_of_keeps {parts : List Part} {d : Judged} (h : s.Agrees none) (hk : Safety.Judged.Keeps parts s d)
    (hj : Part.jobs ∉ parts := by decide) (hp : Part.ports ∉ parts := by decide)
    (hq : Part.queues ∉ parts := by decide) (hn : Part.notices ∉ parts := by decide)
    (hpg : Part.pages ∉ parts := by decide) : d.Agrees := by
  cases d with
  | refused c => trivial
  | done t c fields => exact State.Agrees.of_keeps h hk hj hp hq hn hpg

theorem State.Agrees.request {kind tag : Byte} {encoded : Bool} {judge : State → Judged} (h : s.Agrees none)
    (hj : ∀ u : State, u.Agrees none → (judge u).Agrees) : (s.request kind tag body encoded judge).Agrees none := by
  have hpop : s.popInbox.Agrees none := h.of_view rfl rfl
  have hput : ∀ (u : State) (f : HostFrame), u.Agrees none → (u.placeReply f).Agrees none :=
    fun _ _ hu => hu.of_view rfl rfl
  unfold State.request
  split
  · split
    · split
      · exact hput _ _ hpop
      · rename_i hd
        have := hj _ hpop
        rw [hd] at this
        exact hput _ _ this
    · exact hput _ _ hpop
  · exact h

theorem State.withHandle_agrees {f : SlotId → Judged}
    (h : s.jobs[slotOf (byteAt body 0)].state ≠ .free → (f (slotOf (byteAt body 0))).Agrees) :
    (s.withHandle body f).Agrees := by
  unfold State.withHandle State.handleRefusal
  split
  · trivial
  · rename_i hn
    refine h ?_
    grind

theorem orRange_agrees {α : Type} {x : Option α} {f : α → Judged} (h : ∀ a, x = some a → (f a).Agrees) :
    (orRange x f).Agrees := by
  unfold orRange
  split
  · trivial
  · exact h _ rfl

namespace State

-- ## Job requests

theorem lowestFreeSlot_free (h : s.lowestFreeSlot = some j) : s.jobs[j].state = .free := by
  simpa using List.find?_some h

theorem admitPlace_perm (rush : Bool) (j : SlotId) (list : List SlotId) : (s.admitPlace rush j list).Perm (j :: list) := by
  unfold State.admitPlace
  split
  · exact List.perm_middle.trans (by rw [List.takeWhile_append_dropWhile])
  · exact List.perm_append_singleton j list

theorem Agrees.admitJob (h : s.Agrees o) (hj : s.jobs[j].state = .free) (q : QueueId) (a : AccountId) (body : List Byte) :
    (s.admitJob j q a body).Agrees o := by
  unfold State.admitJob
  refine Agrees.askIfRun ?_ q
  refine h.of_moved ?_ rfl
  rw [updJob_view, updQueue_view]
  exact h.view.enlist (j := j) (x := (Job.fromAdmit q a body s.clock s.jobs[j]).view) hj
    (s.admitPlace_perm _ j _) rfl rfl (by simp [Job.view, Job.fromAdmit, Job.freeSlot, hasBit])
    (by simp [Job.view, Job.fromAdmit, Job.freeSlot, hasBit]) rfl

theorem Agrees.judgeAdmit (h : s.Agrees none) : (judgeAdmit body s).Agrees := by
  unfold Machine.judgeAdmit
  split
  · trivial
  · rename_i j hj
    refine orRange_agrees fun q _ => ?_
    split
    · trivial
    · split
      · trivial
      · split
        · trivial
        · split
          · trivial
          · split
            · trivial
            · exact Judged.agrees_ok (h.admitJob (lowestFreeSlot_free hj) q _ body)

theorem Agrees.updPagePair (h : s.Agrees o) {r : RecordId} {f : PageRecord → PageRecord} {g : Job → Job}
    (hf : (f s.pages[r]).sides ≤ 2) (hg : (g s.jobs[j]).view = s.jobs[j].view) :
    ((s.updPage r f).updJob j g).Agrees o := (h.updPage hf).updJobSame hg

theorem attrSides_le (b : Byte) : attrSides b ≤ 2 := by
  unfold attrSides
  split <;> omega

theorem Agrees.beginPage (h : s.Agrees o) (j : SlotId) (r : RecordId) (attr : Byte) : (s.beginPage j r attr).Agrees o :=
  h.updPagePair (attrSides_le attr) rfl

theorem Agrees.appendData (h : s.Agrees o) (r : RecordId) (data : List Byte) : (s.appendData r data).Agrees o := by
  have h1 := h.updPage (r := r) (f := fun x => { x with
    length := x.length + data.length
    chain := s.pages[r].chain ++ s.freePool.take (blocksFor (s.pages[r].length + data.length) - s.pages[r].chain.length) })
    (h.sides r)
  exact ⟨h1.view, h1.sides⟩

theorem Agrees.sealPage (h : s.Agrees o) (j : SlotId) (r : RecordId) : (s.sealPage j r).Agrees o :=
  h.updPagePair (h.sides r) rfl

theorem Agrees.afterSeal (h : s.Agrees o) (j : SlotId) : (s.afterSeal j).Agrees o := by
  unfold State.afterSeal
  split
  · exact h.wake j
  · split
    · exact h
    · exact h.offerAttempt _
  · exact h.askIfRun _
  · exact h

theorem Agrees.pageData (h : s.Agrees o) (j : SlotId) (r : RecordId) (first last : Bool) (attr : Byte)
    (data : List Byte) : (s.pageData j r first last attr data).Agrees o := by
  have h1 : (if first = true then s.beginPage j r attr else s).Agrees o := by
    split
    · exact h.beginPage j r attr
    · exact h
  unfold State.pageData
  dsimp only
  split
  · exact ((h1.appendData r data).sealPage j r).afterSeal j
  · exact h1.appendData r data

theorem Agrees.judgeData (h : s.Agrees none) (j : SlotId) (r : RecordId) (first last : Bool) (attr : Byte)
    (data : List Byte) (old chained : Nat) : (s.judgeData j r first last attr data old chained).Agrees := by
  unfold State.judgeData
  split
  · trivial
  · split
    · trivial
    · exact Judged.agrees_ok (h.pageData j r first last attr data)

theorem Agrees.judgePageData (h : s.Agrees none) : (judgePageData body s).Agrees := by
  refine withHandle_agrees fun _ => ?_
  dsimp only
  split
  · trivial
  · split
    · trivial
    · split
      · trivial
      · split
        · trivial
        · split
          · exact h.judgeData ..
          · split
            · trivial
            · exact h.judgeData ..

theorem Agrees.judgePageDiscard (h : s.Agrees none) : (judgePageDiscard body s).Agrees := by
  refine withHandle_agrees fun _ => ?_
  split
  · trivial
  · split
    · trivial
    · exact Judged.agrees_ok ((h.freePage _).updJobSame rfl)

theorem Job.close_view (x : Job) : x.close.view = x.view := by
  unfold Job.close
  split <;> rfl

theorem Agrees.closeJob (h : s.Agrees o) (j : SlotId) : (s.closeJob j).Agrees o := by
  have h1 := (((h.updJobSame (f := Job.close) (Job.close_view s.jobs[j])).wake j).freeSheeted j).handedTest j
  unfold State.closeJob
  dsimp only
  split
  · exact h1.askIfRun _
  · exact h1

theorem Agrees.judgeCloseJob (h : s.Agrees none) : (judgeCloseJob body s).Agrees := by
  refine withHandle_agrees fun _ => ?_
  split
  · trivial
  · exact Judged.agrees_ok (h.closeJob _)

theorem Agrees.judgeCancelJob (h : s.Agrees none) : (judgeCancelJob body s).Agrees := by
  refine withHandle_agrees fun hf => ?_
  split
  · trivial
  · rename_i hs
    exact Judged.agrees_ok (h.cancelJob hf (fun e => hs (.inl e)) (fun e => hs (.inr e)))

/-- A job put at a place of a list that holds the job it comes behind. -/
theorem Position.place_perm (pos : Position) (j : SlotId) (list : List SlotId)
    (h : ∀ k, pos = .after k → k ∈ list) : (pos.place j list).Perm (j :: list) := by
  cases pos with
  | head => exact .refl _
  | tail => exact List.perm_append_singleton j list
  | after k =>
    have hk := h k rfl
    unfold Position.place
    have hd : list.dropWhile (fun x => x != k) = k :: (list.dropWhile (fun x => x != k)).tail := by
      induction list with
      | nil => simp at hk
      | cons a l ih =>
        by_cases ha : a = k
        · simp [ha]
        · have hkl : k ∈ l := by simpa [Ne.symm ha] using hk
          have hne : (a != k) = true := by simpa using ha
          simpa [List.dropWhile_cons, hne] using ih (by simpa using hkl) hkl
    have hperm : (k :: j :: (list.dropWhile (fun x => x != k)).tail).Perm (j :: list.dropWhile (fun x => x != k)) := by
      conv_rhs => rw [hd]
      exact List.Perm.swap ..
    exact ((List.Perm.append_left _ hperm).trans List.perm_middle).trans
      (by rw [List.takeWhile_append_dropWhile])

theorem Agrees.moveJob (h : s.Agrees o) (hj : s.jobs[j].state ≠ .free) (q : QueueId) (pos : Position)
    (hpos : ∀ k, pos = .after k → k ∈ s.queues[q].list ∧ k ≠ j) : (s.moveJob j q pos).Agrees o := by
  unfold State.moveJob
  refine Agrees.askIfRun ?_ q
  refine h.of_moved ?_ rfl
  have hv : (s.updQueue s.jobs[j].queue (fun x => { x with list := x.list.filter (fun k => k != j) })).view =
      s.view.unlist (s.view.job j).queue j := updQueue_view _ _ _
  have hl := congrArg (fun v : View => v.list q) hv
  rw [updJob_view, updQueue_view, hv]
  refine h.view.move (j := j) (q := q) hj ?_
  refine (Position.place_perm pos j _ fun k hk => ?_).trans (List.Perm.of_eq (congrArg (List.cons j) hl))
  obtain ⟨hk, hkj⟩ := hpos k hk
  refine (congrArg (fun l => k ∈ l) hl).mpr ?_
  have hmem : k ∈ s.view.list q := hk
  rw [View.unlist_list]
  grind

theorem Agrees.judgeMoveJob (h : s.Agrees none) : (judgeMoveJob body s).Agrees := by
  refine withHandle_agrees fun hf => orRange_agrees fun q _ => ?_
  have hmove : ∀ d : Judged, d.Agrees → (s.judgeMove (slotOf (byteAt body 0)) q d).Agrees := by
    intro d hd
    unfold State.judgeMove
    split
    · trivial
    · split
      · trivial
      · split
        · trivial
        · exact hd
  split
  · exact hmove _ (Judged.agrees_ok (h.moveJob hf q .head (by simp)))
  · split
    · exact hmove _ (Judged.agrees_ok (h.moveJob hf q .tail (by simp)))
    · split
      · refine hmove _ ?_
        unfold State.judgeAfter
        split
        · trivial
        · split
          · rename_i hk
            refine Judged.agrees_ok (h.moveJob hf q _ fun k e => ?_)
            obtain rfl : _ = k := Position.after.inj e
            exact hk
          · trivial
      · trivial

theorem Agrees.judgeRetryJob (h : s.Agrees none) : (judgeRetryJob body s).Agrees := by
  refine withHandle_agrees fun _ => ?_
  split
  · rename_i hs
    exact Judged.agrees_ok (h.makeWaiting .new (.inr (.inr hs)))
  · trivial

-- ## Queue requests

theorem Agrees.updQueueSame (h : s.Agrees o) {q : QueueId} {f : Queue → Queue}
    (hf : (f s.queues[q]).list = s.queues[q].list) : (s.updQueue q f).Agrees o := h.of_view (s.updQueue_view_same q hf) rfl

theorem Agrees.changeMode (h : s.Agrees none) (q : QueueId) (m : QueueMode) : (s.changeMode q m).Agrees := by
  have hclosed : (s.enterClosed q m).Agrees none := h.updQueueSame rfl
  have hrun : (s.enterRun q).Agrees none := Agrees.ask (h.updQueueSame rfl)
  have hhalt : (s.enterHalt q).Agrees none := by
    unfold State.enterHalt
    exact Agrees.foldl (fun _ j ht => ht.haltJob j) (h.updQueueSame rfl) _
  have hdrained : (if s.drained q then ok (s.enterClosed q m) [] else .refused .state).Agrees := by
    split
    · exact hclosed
    · trivial
  unfold State.changeMode
  cases s.queues[q].mode <;> cases m
  case disabled.load | load.disabled => exact hclosed
  case disabled.run | load.run | halt.run => exact hrun
  case run.halt => exact hhalt
  case halt.disabled | halt.load => exact hdrained
  case disabled.disabled | load.load | run.run | halt.halt => exact h
  all_goals trivial

theorem Agrees.giveMark (h : s.Agrees o) (q : QueueId) (m : Nat) : (s.giveMark q m).Agrees o :=
  h.of_view (s.giveMark_view q m) ((s.giveMark_keeps q m).part .pages)

theorem Agrees.markWritten (h : s.Agrees o) (q : QueueId) : (s.markWritten q).Agrees o := h.of_view rfl rfl

theorem Agrees.judgeQueueMode (h : s.Agrees none) : (judgeQueueMode body s).Agrees :=
  orRange_agrees fun q _ => orRange_agrees fun m _ => h.changeMode q m

theorem Agrees.judgeQueueDispatch (h : s.Agrees none) : (judgeQueueDispatch body s).Agrees :=
  orRange_agrees fun q _ => orRange_agrees fun _ _ =>
    Judged.agrees_ok ((Agrees.markWritten (h.updQueueSame rfl) q).askIfRun q)

theorem Agrees.judgeQueueOptions (h : s.Agrees none) : (judgeQueueOptions body s).Agrees :=
  orRange_agrees fun q _ => Judged.agrees_ok ((Agrees.markWritten (h.updQueueSame rfl) q).askIfRun q)

theorem Agrees.judgeMark (h : s.Agrees none) : (judgeMark body s).Agrees := by
  refine orRange_agrees fun q _ => orRange_agrees fun m _ => ?_
  split
  · trivial
  · split
    · exact Judged.agrees_ok (h.giveMark q m)
    · trivial

-- ## Port requests

theorem Agrees.serviceRelease (h : s.Agrees o) (hp : s.ports[p].feedOwner = some j)
    (hns : ∀ e ∈ s.ports[p].window, e.state ≠ .streaming) : (s.serviceRelease p j).Agrees o :=
  (h.releaseWaiting .route hp hns).feedReleased p

theorem Agrees.serviceOut (h : s.Agrees o) (p : PortId) (hold : Bool) : (s.serviceOut p hold).Agrees o := by
  have h1 : (s.updPort p (fun x => { x with inService := false, holdAsked := hold })).Agrees o := h.updPortSame rfl
  unfold State.serviceOut
  dsimp only
  refine Agrees.holdTest ?_ p
  split
  · exact h1
  · rename_i j hp
    split
    · exact h1.updPortSame rfl
    · rename_i hns
      refine h1.serviceRelease ?_ ?_
      · rw [updPort_ports_self]
        exact hp
      · rw [updPort_ports_self]
        simpa using hns

theorem Agrees.serviceIn (h : s.Agrees none) (p : PortId) : (s.serviceIn p).Agrees none := by
  have h1 : (s.updPort p (fun x => { x with inService := true, holdAsked := false, releaseOwed := false })).Agrees none :=
    h.updPortSame rfl
  unfold State.serviceIn
  split
  · exact h
  · dsimp only
    refine Agrees.askIfBecame (Agrees.offerAttempt ?_ p) p s
    split
    · rename_i hd
      refine h1.enterProbing (.inr ?_)
      rw [updPort_ports_self]
      exact h.view.down p (by simp) (fun e => absurd (hd.1.symm.trans e) (by decide))
    · exact h1

theorem Agrees.judgePortService (h : s.Agrees none) : (judgePortService body s).Agrees := by
  refine orRange_agrees fun p _ => ?_
  split
  · exact Judged.agrees_ok (h.serviceOut p _)
  · split
    · exact Judged.agrees_ok (h.serviceIn p)
    · trivial

theorem Agrees.resetJob (h : s.Agrees o) (j : SlotId) : (s.resetJob j).Agrees o := by
  unfold State.resetJob
  split
  · rename_i hs; exact h.makeWaiting _ (.inl hs)
  · rename_i hs; exact h.makeWaiting _ (.inr (.inl hs))
  · rename_i hs
    split
    · exact h
    · rename_i he; exact h.flagCancelled hs he
  · exact h

theorem serviceRelease_window (q : PortId) : (s.serviceRelease p j).ports[q].window = s.ports[q].window := by
  unfold State.serviceRelease
  rw [feedReleased_ports_window, (makeWaiting_keeps _ j .route).part .ports]
  by_cases hq : q = p
  · subst hq
    rw [Fin.getElem_fin, releaseFeed_ports_val]
    rfl
  · rw [s.releaseFeed_ports_ne _ _ _ hq]

theorem Agrees.resetJobs (h : s.Agrees o) (es : List SendEntry) (hw : s.ports[p].window = []) :
    (s.resetJobs p es s.ports[p].feedOwner).Agrees o ∧ (s.resetJobs p es s.ports[p].feedOwner).ports[p].window = [] := by
  have hport : ∀ (js : List SlotId) (u : State), (js.foldl (fun t j => t.resetJob j) u).ports = u.ports := fun js u =>
    (KeepsAllBut.foldl (fun t j => t.resetJob_keeps j) js u).part .ports
  unfold State.resetJobs
  dsimp only
  split
  · exact ⟨h.foldl (fun _ j ht => ht.resetJob j) _, by rw [hport, hw]⟩
  · rename_i j hp
    refine ⟨Agrees.foldl (fun _ j ht => ht.resetJob j) (h.serviceRelease hp (by rw [hw]; simp)) _, ?_⟩
    rw [hport, serviceRelease_window, hw]

theorem Agrees.resetWindow (h : s.Agrees none) (p : PortId) : (s.resetWindow p).Agrees none ∧
    (s.resetWindow p).view = s.view.setPort p { s.ports[p].view with window := [] } := by
  have hv : ((s.stopSend p).endSetup p).view = s.view := by simp
  have h1 : ((s.stopSend p).endSetup p).Agrees none := (h.stopSend p).endSetup p
  unfold State.resetWindow
  dsimp only
  refine ⟨Agrees.foldl (fun t j ht => ht.of_view (t.rewindTo_view j _) ((t.rewindTo_keeps j _).part .pages))
    (h1.opened (some p)).settleWindow _, ?_⟩
  refine (State.foldl_view _ (fun t j => t.rewindTo_view j _) _).trans ?_
  rw [settleWindow_view, hv]
  exact congrArg (fun y : PortView => s.view.setPort p { y with window := [] }) (congrArg (fun v : View => v.port p) hv)

theorem Agrees.portReset (h : s.Agrees none) (p : PortId) : (s.portReset p).Agrees none := by
  obtain ⟨h1, hv⟩ := h.resetWindow p
  have hport : (s.resetWindow p).ports[p].view = { s.ports[p].view with window := [] } := by
    refine (congrArg (fun v : View => v.port p) hv).trans ?_
    simp [View.setPort_port]
  have hown : (s.resetWindow p).ports[p].feedOwner = s.ports[p].feedOwner := congrArg PortView.feedOwner hport
  have h2 := h1.resetJobs s.ports[p].window (congrArg PortView.window hport)
  rw [hown] at h2
  obtain ⟨h2, hw⟩ := h2
  unfold State.portReset
  dsimp only
  refine Agrees.enterProbing (h2.updPortSame rfl) (.inr ?_)
  rw [updPort_ports_self]
  exact hw

theorem Agrees.judgePortReset (h : s.Agrees none) : (judgePortReset body s).Agrees :=
  orRange_agrees fun p _ => Judged.agrees_ok (h.portReset p)

theorem Agrees.judgePortMeters (h : s.Agrees none) : (judgePortMeters body s).Agrees := by
  refine orRange_agrees fun p _ => Judged.agrees_ok ?_
  unfold State.closeMeters
  split
  · exact h.updPortSame rfl
  · exact h

theorem Agrees.judgeAlertRelease (h : s.Agrees none) : (judgeAlertRelease body s).Agrees := by
  refine orRange_agrees fun a _ => ?_
  split
  · refine Judged.agrees_ok (h.of_view ?_ ((s.hostRelease_keeps _).part .pages))
    unfold State.hostRelease
    dsimp only
    split <;> simp
  · trivial

end State
end Sys2Proof.Machine
end

