-- ==== Sys2Proof/Proofs/AgreementEvents.lean ====
section
/-! SUPPORT. What the printers send, the timers, the frame boundaries and the resets keep the agreement, and so does every
step. -/

namespace Sys2Proof.Machine

open Sys2Proof.Safety

variable {s t : State} {o : Option PortId} {j : SlotId} {p : PortId}

namespace State

-- ## Printer messages

theorem Agrees.hear (h : s.Agrees o) (p : PortId) : (s.hear p).Agrees o := h.updPortSame rfl

theorem Agrees.pressMessage (h : s.Agrees none) (p : PortId) (fieldsOk : Bool) (taken : LinkState → Bool)
    {act : State → State} (ha : ∀ u : State, u.Agrees none → taken u.ports[p].link = true → (act u).Agrees none) :
    (s.pressMessage p fieldsOk taken act).Agrees none := by
  unfold State.pressMessage
  split
  · exact h
  · split
    · rename_i hc
      refine ha _ (h.hear p) ?_
      rw [State.hear, updPort_ports_self]
      exact ((Bool.and_eq_true _ _).mp hc).2
    · exact h.hear p

theorem settleStop_window : (s.settleStop p).ports[p].window = [] := by
  unfold State.settleStop
  have hfold : ∀ (js : List SlotId) (es : List SendEntry) (u : State),
      (js.foldl (fun t j => t.stopJob p es j) u).ports[p].window = u.ports[p].window := by
    intro js es u
    induction js generalizing u with
    | nil => rfl
    | cons j js ih => rw [List.foldl_cons, ih, stopJob_window]
  rw [hfold]
  exact (congrArg (fun v : View => (v.port p).window) (s.settleWindow_view p)).trans (by simp [View.setPort_port])

theorem linkLoss_window : (s.linkLoss p).ports[p].window = [] := settleStop_window

theorem Agrees.confirmAttendant (h : s.Agrees o) (p : PortId) : (s.confirmAttendant p).Agrees o :=
  h.of_view (s.confirmAttendant_view p) ((s.confirmAttendant_keeps p).part .pages)

/-- Bring-up over an empty window, with a declared depth of 1 to 8 (R85). -/
theorem Agrees.bringUp (h : s.Agrees o) {i : Ident} (hi : i.depth ≤ 8) (m : Media) (c : Bool)
    (hw : s.ports[p].window = []) : (s.bringUp p i m c).Agrees o := by
  have hfit := h.view.fits p
  have h1 : (s.updPort p (fun x => { x with ident := some i, loaded := m, rateWindow := none })).Agrees o := by
    refine h.of_moved ?_ rfl
    rw [updPort_view]
    exact h.view.setPort rfl ⟨hfit.length, hfit.depth, fun i' e => by obtain rfl := Option.some.inj e; exact hi,
      hfit.older, hfit.faces⟩ (fun _ _ => hw) (fun e he => .inl ⟨e, he, rfl, id⟩) (h.view.starve p)
  have hw1 : (s.updPort p (fun x => { x with ident := some i, loaded := m, rateWindow := none })).ports[p].window = [] := by
    rw [updPort_ports_self]
    exact hw
  unfold State.bringUp
  dsimp only
  generalize s.updPort p (fun x => { x with ident := some i, loaded := m, rateWindow := none }) = u at h1 hw1 ⊢
  have h2 : (if (c && u.alerts[stopSlot p].isOpen) = true then u.confirmAttendant p else u).Agrees o ∧
      (if (c && u.alerts[stopSlot p].isOpen) = true then u.confirmAttendant p else u).ports[p].window = [] := by
    split
    · exact ⟨h1.confirmAttendant p, by rw [window_of_view (u.confirmAttendant_view p), hw1]⟩
    · exact ⟨h1, hw1⟩
  generalize (if (c && u.alerts[stopSlot p].isOpen) = true then u.confirmAttendant p else u) = u2 at h2 ⊢
  split
  · refine h2.1.of_moved ?_ rfl
    rw [press_view, updPort_view]
    exact h2.1.view.setLink .rating (.inr (.inl h2.2))
  · refine h2.1.comeUp p .base ?_ (by rw [h2.2]; simp)
    unfold baseDepth
    omega

theorem identOf_depth (a b c d : Byte) : (identOf a b c d).depth ≤ 8 := by
  simp only [identOf]
  omega

theorem Agrees.identTaken (h : s.Agrees none) (p : PortId) {i : Ident} (hi : i.depth ≤ 8) (m : Media) (c : Bool) :
    (s.identTaken p i m c).Agrees none := by
  unfold State.identTaken
  split
  · exact ((h.linkLoss p).bringUp hi m c linkLoss_window).holdTest p
  · rename_i hl
    exact (h.bringUp hi m c (h.view.down p (by simp) hl)).holdTest p

theorem declaredDepth_le (h : s.Agrees o) (p : PortId) : s.ports[p].declaredDepth ≤ 8 := by
  unfold Port.declaredDepth
  cases hi : s.ports[p].ident with
  | none => simp
  | some i => exact (h.view.fits p).declared i hi

theorem Agrees.echoTaken (h : s.Agrees none) (hl : s.ports[p].link = .rating) : (s.echoTaken p).Agrees none := by
  have hw : s.ports[p].window = [] := h.view.down p (by simp) (fun e => absurd (hl.symm.trans e) (by decide))
  unfold State.echoTaken
  split
  · exact h
  · split
    · exact h.updPortSame rfl
    · exact (h.comeUp p .fast (declaredDepth_le h p) (by rw [hw]; simp)).holdTest p

theorem Agrees.waitEvent (h : s.Agrees o) (p : PortId) (a r : KindSet) : (s.waitEvent p a r).Agrees o :=
  h.of_view (s.waitEvent_view p a r) ((s.waitEvent_keeps p a r).part .pages)

theorem Agrees.statusTaken (h : s.Agrees o) (p : PortId) (r : ReasonSet) : (s.statusTaken p r).Agrees o := by
  have h1 := Agrees.waitEvent (h.updPortSame (p := p) (f := fun x => { x with status := r }) rfl) p
    (reasonKinds (minusBits r s.ports[p].status)) (reasonKinds (minusBits s.ports[p].status r))
  unfold State.statusTaken
  dsimp only
  split
  · exact h
  · split
    · exact (h1.offerAttempt p).askIfBecame p s
    · exact h1

theorem Agrees.report (h : s.Agrees none) (p : PortId) {entry : Option SendEntry} {act : SendEntry → State → State}
    (ha : ∀ e, entry = some e → (act e s).Agrees none) : (s.report p entry act).Agrees none := by
  unfold State.report
  split
  · exact h
  · split
    · exact (h.orderFault p).holdTest p
    · exact ha _ rfl

theorem mem_of_entryWith {x : Port} {n : Serial} {f : SendEntry → Bool} {e : SendEntry} (h : x.entryWith n f = some e) :
    e ∈ x.window ∧ f e = true := by
  have hf := List.find?_some h
  exact ⟨List.mem_of_find?_eq_some h, ((Bool.and_eq_true _ _).mp hf).2⟩

/-- Only the newest entry of a window may be unsettled: an unsettled entry is the last (R91). -/
theorem window_of_unsettled (h : s.Agrees o) {e : SendEntry} (he : e ∈ s.ports[p].window) (hu : e.state ≠ .taken) :
    ∃ l, s.ports[p].window = l ++ [e] ∧ ∀ f ∈ l, f.state = .taken := by
  have hne : s.ports[p].window ≠ [] := List.ne_nil_of_mem he
  have hold : ∀ f ∈ s.ports[p].window.dropLast, f.state = .taken := (h.view.fits p).older
  have hsplit := List.dropLast_append_getLast hne
  refine ⟨s.ports[p].window.dropLast, ?_, hold⟩
  rw [← hsplit] at he
  rcases List.mem_append.1 he with hm | hm
  · exact absurd (hold e hm) hu
  · rw [List.mem_singleton.1 hm]
    exact hsplit.symm

theorem takeEntry_view (e : SendEntry) (x : Port) : (x.takeEntry e).view = { x.view with
    window := x.window.map (fun y => if y.serial = e.serial then { y with state := .taken } else y) } := rfl

theorem Agrees.takeEntry (h : s.Agrees o) (p : PortId) (e : SendEntry) : (s.updPort p (Port.takeEntry e)).Agrees o := by
  refine h.of_moved ?_ rfl
  rw [updPort_view, takeEntry_view]
  refine h.view.mapWindow (p := p) (fun y => if y.serial = e.serial then { y with state := .taken } else y) ?_ ?_ ?_ ?_ <;>
    intro y <;> split <;> simp

/-- Once the printer has taken the unsettled entry every entry of the window is TAKEN (R91, R94). -/
theorem all_taken_of_takeEntry (h : s.Agrees o) {e : SendEntry} (he : e ∈ s.ports[p].window) (hu : e.state ≠ .taken) :
    ∀ f ∈ (s.updPort p (Port.takeEntry e)).ports[p].window, f.state = .taken := by
  obtain ⟨l, hl, htaken⟩ := window_of_unsettled h he hu
  rw [updPort_ports_self]
  have hw : (Port.takeEntry e s.ports[p]).window =
      s.ports[p].window.map (fun y => if y.serial = e.serial then { y with state := .taken } else y) := rfl
  intro f hf
  rw [hw, hl] at hf
  obtain ⟨y, hy, rfl⟩ := List.mem_map.1 hf
  rcases List.mem_append.1 hy with hy | hy
  · have := htaken y hy
    split <;> simp [this]
  · rw [List.mem_singleton.1 hy]
    simp

theorem completeJob_ports : (s.completeJob j).ports = s.ports := (s.completeJob_keeps j).part .ports

/-- The test of R9 leaves every window as it is. -/
theorem handedTest_window (j : SlotId) (q : PortId) : (s.handedTest j).ports[q].window = s.ports[q].window := by
  have hfin : ∀ (u : State) (b : Bool), (if (if b = true then u.flagJob j .handed else u).hasEntries j = true then
      (if b = true then u.flagJob j .handed else u)
      else (if b = true then u.flagJob j .handed else u).completeJob j).ports = u.ports := by
    intro u b
    have hflag : (if b = true then u.flagJob j .handed else u).ports = u.ports := by split <;> simp
    generalize (if b = true then u.flagJob j .handed else u) = u' at hflag ⊢
    split
    · exact hflag
    · rw [completeJob_ports, hflag]
  unfold State.handedTest
  dsimp only
  split
  · cases hf : s.jobs[j].feedPort with
    | none => exact congrArg (fun w : Vector Port 16 => w[q].window) (hfin _ _)
    | some p =>
      refine (congrArg (fun w : Vector Port 16 => w[q].window) (hfin _ _)).trans ?_
      rw [feedReleased_ports_window]
      by_cases hq : q = p
      · subst hq
        rw [Fin.getElem_fin, releaseFeed_ports_val]
        rfl
      · rw [releaseFeed_ports_ne _ _ _ _ hq, updJob_ports]
  · rfl

theorem Agrees.owedRelease (h : s.Agrees o) (p : PortId) (j : SlotId)
    (hns : ∀ e ∈ s.ports[p].window, e.state ≠ .streaming) : (s.owedRelease p j).Agrees o := by
  unfold State.owedRelease
  split
  · rename_i hc
    exact h.serviceRelease hc.2 hns
  · exact h

theorem Agrees.takenPassed (h : s.Agrees o) {e : SendEntry} (he : e ∈ s.ports[p].window) (hu : e.state ≠ .taken) :
    (s.takenPassed p e).Agrees o := by
  unfold State.takenPassed
  refine Agrees.holdTest (Agrees.offerAttempt (Agrees.owedRelease ((h.takeEntry p e).handedTest e.job) p e.job ?_) p) p
  intro f hf
  rw [handedTest_window] at hf
  simp [all_taken_of_takeEntry h he hu f hf]

theorem Agrees.sheetPassed (h : s.Agrees o) (p : PortId) (e : SendEntry) : (s.sheetPassed p e).Agrees o :=
  ((h.sheetEvent p e).offerAttempt p).holdTest p

theorem Agrees.abortedPassed (h : s.Agrees o) (p : PortId) (e : SendEntry) : (s.abortedPassed p e).Agrees o := by
  have h1 := ((h.releaseFaces e).dropEntry p e).updJobSame (j := e.job) (f := Job.rewind e.copy e.place)
    (Job.rewind_view _ _ _)
  exact ((h1.afterRemoval e.job).offerAttempt p).holdTest p

theorem dropEntry_owner (p : PortId) (e : SendEntry) : (s.dropEntry p e).ports[p].feedOwner = s.ports[p].feedOwner := by
  rw [Fin.getElem_fin, dropEntry_ports_val]
  rfl

theorem dropEntry_window (p : PortId) (e : SendEntry) :
    (s.dropEntry p e).ports[p].window = s.ports[p].window.erase e := by
  rw [Fin.getElem_fin, dropEntry_ports_val]
  rfl

/-- A refused STREAMING entry leaves, and its job gives up the feed for ERROR (R18, R97). -/
theorem Agrees.refuse (h : s.Agrees o) {e : SendEntry} (he : e ∈ s.ports[p].window) (hs : e.state = .streaming)
    (reason : Byte) : ((((s.releaseFaces e).dropEntry p e).updJob e.job (Job.rewind e.copy e.place)).releaseIfOwner p
      e.job |>.updJob e.job (Job.refuse reason)).Agrees o := by
  have hports : (s.releaseFaces e).ports = s.ports := (s.releaseFaces_keeps e).part .ports
  have h1 : (((s.releaseFaces e).dropEntry p e).updJob e.job (Job.rewind e.copy e.place)).Agrees o :=
    ((h.releaseFaces e).dropEntry p e).updJobSame (Job.rewind_view _ _ _)
  have hown : (((s.releaseFaces e).dropEntry p e).updJob e.job (Job.rewind e.copy e.place)).ports[p].feedOwner =
      some e.job := by
    rw [updJob_ports, dropEntry_owner, hports]
    exact (h.view.streaming p e he hs).1
  have hns : ∀ f ∈ (((s.releaseFaces e).dropEntry p e).updJob e.job (Job.rewind e.copy e.place)).ports[p].window,
      f.state ≠ .streaming := by
    obtain ⟨l, hl, htaken⟩ := window_of_unsettled h he (by simp [hs])
    have hel : e ∉ l := fun hm => by simp [htaken e hm] at hs
    rw [updJob_ports, dropEntry_window, hports, hl, List.erase_append_right _ hel]
    intro f hf
    have : f ∈ l := by simpa using hf
    simp [htaken f this]
  generalize (((s.releaseFaces e).dropEntry p e).updJob e.job (Job.rewind e.copy e.place)) = u at h1 hown hns ⊢
  rw [State.releaseIfOwner, if_pos hown]
  refine h1.of_moved ?_ rfl
  have hj : (Job.refuse reason (u.releaseFeed p e.job).jobs[e.job]).view =
      { u.jobs[e.job].view with feedPort := none, state := .error } := by
    have : (u.releaseFeed p e.job).jobs[e.job] = { u.jobs[e.job] with feedPort := none } := by simp
    rw [this]
    rfl
  rw [updJob_view, releaseFeed_view, View.setJob_setJob, hj]
  exact h1.releaseTo hown hns (by simp)

theorem Agrees.refusePassed (h : s.Agrees o) (reason : Byte) {e : SendEntry} (he : e ∈ s.ports[p].window)
    (hs : e.state = .streaming) : (s.refusePassed p reason e).Agrees o := by
  unfold State.refusePassed
  dsimp only
  refine Agrees.holdTest (Agrees.offerAttempt (Agrees.feedReleased ((h.refuse he hs reason).flagJob .error ?_) p) p) p
  rw [updJob_jobs_self]
  simp [Job.refuse, Job.enter]

theorem Agrees.jamTaken (h : s.Agrees none) (p : PortId) (l : Byte) (n : Option Serial) :
    (s.jamTaken p l n).Agrees none := (((h.opened (some p)).stopSend p).stopCondition _ _ _).holdTest p

theorem Agrees.clearedTaken (h : s.Agrees o) (p : PortId) : (s.clearedTaken p).Agrees o := by
  unfold State.clearedTaken
  split
  · exact h.confirmAttendant p
  · exact h

theorem cancelJob_state (j : SlotId) : (s.cancelJob j).jobs[j].state = .cancelling := by
  have hfin : ∀ u : State, u.jobs[j].state = .cancelling →
      (if u.hasEntries j = true then u else u.flagJob j .cancelled).jobs[j].state = .cancelling := by
    intro u hu
    have hu' : u.jobs[j.val].state = .cancelling := hu
    split
    · exact hu
    · simp [Job.flagged, hu']
  unfold State.cancelJob
  dsimp only
  refine hfin _ ?_
  split
  · simp [Job.enter]
  · rw [feedReleased_jobs_getElem, (abortStreaming_keeps _ _).part .jobs]
    simp [Job.enter]

theorem Agrees.cancelTaken (h : s.Agrees o) (p : PortId) : (s.cancelTaken p).Agrees o := by
  unfold State.cancelTaken
  split
  · exact h
  · rename_i j _
    have hcancel : s.jobs[j].state ≠ .free → s.jobs[j].state ≠ .done → s.jobs[j].state ≠ .cancelling →
        ((s.cancelJob j).flagJob j .atPress).Agrees o := fun h1 h2 h3 =>
      (h.cancelJob h1 h2 h3).flagJob .atPress (by rw [cancelJob_state]; decide)
    split
    · exact h
    · exact h
    · rename_i hs; exact h.flagJob .atPress (by rw [hs]; decide)
    all_goals
      rename_i hs
      exact hcancel (by rw [hs]; decide) (by rw [hs]; decide) (by rw [hs]; decide)

theorem Agrees.setupTaken (h : s.Agrees o) (p : PortId) (m : Media) : (s.setupTaken p m).Agrees o := by
  have h1 : (s.updPort p (fun x => { x with loaded := m })).Agrees o := h.updPortSame rfl
  unfold State.setupTaken
  dsimp only
  generalize s.updPort p (fun x => { x with loaded := m }) = u at h1 ⊢
  split
  · exact h1
  · split
    · exact (((h1.endSetup p).offerAttempt p).askIfBecame p _).holdTest p
    · unfold State.wrongMedia
      split
      · exact h1.updPortSame rfl
      · exact h1.of_view (u.reportStall_view p) ((u.reportStall_keeps p).part .pages)

-- ## Timers

theorem Agrees.starveExpiry (h : s.Agrees o) (ht : s.ports[p].starveTimer ≠ none) : (s.starveExpiry p).Agrees o := by
  unfold State.starveExpiry
  split
  · exact h
  · rename_i j hp
    obtain ⟨k, hk, hs⟩ := h.view.starve p ht
    obtain rfl : k = j := Option.some.inj (hk.symm.trans hp)
    exact (h.releaseWaitingFlag .starved .starved (by decide) (by decide) hp
      (not_streaming_of_starved h hp hs)).feedReleased p

theorem Agrees.rateWindowClose (h : s.Agrees none) (hl : s.ports[p].link = .rating) :
    (s.rateWindowClose p).Agrees none := by
  have hw : s.ports[p].window = [] := h.view.down p (by simp) (fun e => absurd (hl.symm.trans e) (by decide))
  have h1 : (s.comeUp p .base (baseDepth s.ports[p].declaredDepth)).Agrees none :=
    h.comeUp p .base (by unfold baseDepth; omega) (by rw [hw]; simp)
  exact (h1.of_view (flagPort_view _ p .rate) ((flagPort_keeps _ p .rate).part .pages)).holdTest p

theorem Agrees.sendEnd (h : s.Agrees o) (p : PortId) (e : SendEntry) : (s.sendEnd p e).Agrees o := by
  unfold State.sendEnd
  refine Agrees.offerAttempt ?_ p
  refine h.of_moved ?_ rfl
  rw [updPort_view, pressAll_view]
  refine h.view.mapWindow (p := p) (fun y => if y.serial = e.serial then { y with ended := true } else y) ?_ ?_ ?_ ?_ <;>
    intro y <;> split <;> simp

-- ## Frame boundaries

theorem Agrees.retire (h : s.Agrees o) (hs : s.jobs[j].state = .done ∨ s.jobs[j].state = .cancelling)
    (hno : ¬s.view.HasEntry j) (ho : s.jobs[j].noticeOwed = false) : (s.retire j).Agrees o := by
  have h1 := h.freeJobPages j
  refine h1.of_moved ?_ rfl
  have hv : (s.freeJobPages j).view = s.view := s.freeJobPages_view j
  have hq : ((s.freeJobPages j).updQueue s.jobs[j].queue (fun q => { q with list := q.list.filter (fun k => k != j) })).view
      = s.view.unlist (s.view.job j).queue j := by
    rw [updQueue_view, hv]
    exact congrArg (fun l : List SlotId => s.view.setList s.jobs[j].queue (l.filter (fun k => k != j)))
      (congrArg (fun v : View => v.list s.jobs[j].queue) hv)
  unfold State.retire
  rw [updJob_view, hq]
  have hnf : (s.view.job j).feedPort = none := by
    refine feedPort_none h ?_ ?_ <;> rcases hs with hs | hs <;> rw [hs] <;> decide
  exact h.view.retire hno hnf ho rfl rfl (by simp [Job.view, Job.freeSlot, hasBit])
    (by simp [Job.view, Job.freeSlot, hasBit]) rfl

/-- A notice leaves the queue and is composed (R173): a job notice with DONE or CANCELLED retires its slot. -/
theorem Agrees.composed (h : s.Agrees o) {src : Source} {rest : List Source} (hn : s.notices = src :: rest)
    (l : Option HostFrame) : (State.reported src { s with notices := rest, onLink := l }).Agrees o := by
  have hother : (∀ j, src ≠ .job j) → ({ s with notices := rest, onLink := l } : State).Agrees o := by
    intro hsrc
    refine h.of_view (State.view_ext s (fun _ => rfl) (fun _ => rfl) (fun _ => rfl) fun j => ?_) rfl
    rw [hn, List.count_cons]
    simp [hsrc j]
  cases src with
  | alert a => exact (hother (by simp)).of_view rfl rfl
  | port p =>
    exact (hother (by simp)).updPortSame (p := p) (f := fun x => { x with flags := 0, noticeOwed := false }) rfl
  | part => exact (hother (by simp)).of_view rfl rfl
  | job j =>
    have hpos : 0 < s.view.notices j := by
      rw [view_notices, hn]
      simp
    have hv : (({ s with notices := rest, onLink := l } : State).updJob j Job.reported).view = s.view.report j := by
      rw [updJob_view]
      refine View.ext ?_ rfl rfl (funext fun k => ?_)
      · have : (Job.reported s.jobs[j]).view =
            { s.view.job j with doneFlag := false, cancelledFlag := false, owes := false } := by
          simp [Job.view, Job.reported, hasBit, view_job]
        exact congrArg (fun x : JobView => Function.update s.view.job j x) this
      · rw [View.report_notices, view_notices, view_notices, hn, View.setJob_notices, view_notices]
        by_cases hk : k = j
        · simp [hk]
        · simp [hk, Ne.symm hk]
    have h1 : (({ s with notices := rest, onLink := l } : State).updJob j Job.reported).Agrees o :=
      h.of_moved (by rw [hv]; exact h.view.report hpos) rfl
    unfold State.reported
    dsimp only
    split
    · rename_i hr
      have hflags : hasBit s.jobs[j].flags 1 = true ∨ hasBit s.jobs[j].flags 2 = true := by
        simpa [retires, JobFlag.bit] using hr
      have hstate : s.jobs[j].state = .done ∨ s.jobs[j].state = .cancelling :=
        hflags.imp (h.view.done j) (h.view.cancelled j)
      have hno : ¬s.view.HasEntry j := by
        rintro ⟨p, e, he, rfl⟩
        obtain ⟨-, hd, hc⟩ := h.view.entryJob p e he
        rcases hflags with hf | hf
        · exact hd (h.view.done _ hf)
        · exact absurd (hf.symm.trans hc) (by decide)
      refine h1.retire ?_ ?_ ?_
      · rw [updJob_jobs_self]
        exact hstate
      · rw [hv]
        exact hno
      · rw [updJob_jobs_self]
        rfl
    · exact h1

theorem Agrees.boundary (h : s.Agrees o) : s.boundary.Agrees o := by
  unfold State.boundary
  split
  · exact h.of_view rfl rfl
  · split
    · exact h.of_view rfl rfl
    · split
      · exact h.of_view rfl rfl
      · rename_i hn
        exact h.composed hn _

-- ## Resets

/-- A state in which every job slot is FREE and every port fresh (R1, R25, R83). -/
theorem Agrees.of_fresh (hj : ∀ j : SlotId, ∃ g, s.jobs[j] = Job.freeSlot g)
    (hp : ∀ p : PortId, s.ports[p].view = Port.initial.view) (hq : ∀ q : QueueId, s.queues[q].list = [])
    (hn : ∀ j : SlotId, Source.job j ∉ s.notices) (hr : ∀ r : RecordId, s.pages[r].sides ≤ 2) : s.Agrees none := by
  have hview : s.view = { job := fun _ => (Job.freeSlot 0).view, port := fun _ => Port.initial.view
                          list := fun _ => [], notices := fun _ => 0 } := by
    refine View.ext (funext fun j => ?_) (funext hp) (funext hq) (funext fun j => List.count_eq_zero.2 (hn j))
    obtain ⟨g, hg⟩ := hj j
    rw [view_job, hg]
    rfl
  refine ⟨?_, hr⟩
  rw [hview]
  have hfit : Port.initial.view.Fits := by
    constructor <;> simp [Port.view, Port.initial]
  constructor
  case fits => exact fun _ => hfit
  all_goals simp [Job.view, Job.freeSlot, Port.view, Port.initial, JobView.Feeds, hasBit]

theorem Agrees.coldStart (c : StartCause) (s : State) : (s.coldStart c).Agrees none := by
  refine Agrees.of_fresh (fun j => ⟨0, ?_⟩) (fun p => ?_) (fun q => ?_) (fun j => ?_) (fun r => ?_)
  · simp [State.coldStart, State.reset]
  · simp [State.coldStart, State.reset]
  · simp [State.coldStart, State.reset, Queue.initial]
  · simp [State.coldStart, State.reset]
  · simp [State.coldStart, State.reset, PageRecord.freeRecord]

theorem Agrees.restartReset (s : State) : s.restartReset.Agrees none := by
  refine Agrees.of_fresh (fun j => ?_) (fun p => ?_) (fun q => ?_) (fun j => ?_) (fun r => ?_)
  · simp only [State.restartReset, Fin.getElem_fin, mapTable_getElem, Job.restart]
    split <;> exact ⟨_, rfl⟩
  · simp only [State.restartReset, Fin.getElem_fin, mapTable_getElem]
    rfl
  · simp [State.restartReset, Queue.initial]
  · simp [State.restartReset]
  · simp [State.restartReset, PageRecord.freeRecord]

end State
end Sys2Proof.Machine
end

