-- ==== Sys2Proof/Proofs/AgreementStep.lean ====
section
/-! SUPPORT. Every step keeps feeds, job states, job lists, window entries and owed job notices in agreement. -/

namespace Sys2Proof.Machine

open Sys2Proof.Safety

variable {s t : State} {o : Option PortId} {j : SlotId} {p : PortId}

namespace State

theorem probe_view (p : PortId) : (s.probe p).view = s.view := by
  unfold State.probe
  rw [press_view]
  exact s.updPort_view_same p rfl

/-- Every command keeps the agreement. -/
theorem Agrees.exec {i : Instr} (h : s.Agrees none) (he : Machine.exec i s = .next t) : t.Agrees none := by
  have hsame : ∀ u : State, u.view = s.view → u.pages = s.pages → u.Agrees none := fun _ hv hp => h.of_view hv hp
  cases i <;> obtain rfl := Host.Outcome.next.inj he
  case admitJob => exact h.request fun _ hu => hu.judgeAdmit
  case pageData => exact h.request fun _ hu => hu.judgePageData
  case pageDiscard => exact h.request fun _ hu => hu.judgePageDiscard
  case closeJob => exact h.request fun _ hu => hu.judgeCloseJob
  case cancelJob => exact h.request fun _ hu => hu.judgeCancelJob
  case moveJob => exact h.request fun _ hu => hu.judgeMoveJob
  case retryJob => exact h.request fun _ hu => hu.judgeRetryJob
  case queryJob => exact h.request fun _ hu => Judged.agrees_of_keeps hu (judgeQueryJob_keeps _ _)
  case queueMode => exact h.request fun _ hu => hu.judgeQueueMode
  case queueDispatch => exact h.request fun _ hu => hu.judgeQueueDispatch
  case queueOptions => exact h.request fun _ hu => hu.judgeQueueOptions
  case mark => exact h.request fun _ hu => hu.judgeMark
  case queryQueue => exact h.request fun _ hu => Judged.agrees_of_keeps hu (judgeQueryQueue_keeps _ _)
  case rowWrite => exact h.request fun _ hu => Judged.agrees_of_keeps hu (judgeRowWrite_keeps _ _)
  case memberSet => exact h.request fun _ hu => Judged.agrees_of_keeps hu (judgeMemberSet_keeps _ _)
  case memberClear => exact h.request fun _ hu => Judged.agrees_of_keeps hu (judgeMemberClear_keeps _ _)
  case routeSet => exact h.request fun _ hu => Judged.agrees_of_keeps hu (judgeRouteSet_keeps _ _)
  case routeStep => exact h.request fun _ hu => Judged.agrees_of_keeps hu (judgeRouteStep_keeps _ _)
  case portService => exact h.request fun _ hu => hu.judgePortService
  case portReset => exact h.request fun _ hu => hu.judgePortReset
  case portMeters => exact h.request fun _ hu => hu.judgePortMeters
  case queryPort => exact h.request fun _ hu => Judged.agrees_of_keeps hu (judgeQueryPort_keeps _ _)
  case tariffWrite => exact h.request fun _ hu => Judged.agrees_of_keeps hu (judgeTariffWrite_keeps _ _)
  case tariffRead => exact h.request fun _ hu => Judged.agrees_of_keeps hu (judgeTariffRead_keeps _ _)
  case accountSet => exact h.request fun _ hu => Judged.agrees_of_keeps hu (judgeAccountSet_keeps _ _)
  case accountCredit => exact h.request fun _ hu => Judged.agrees_of_keeps hu (judgeAccountCredit_keeps _ _)
  case accountClose => exact h.request fun _ hu => Judged.agrees_of_keeps hu (judgeAccountClose_keeps _ _)
  case queryAccount => exact h.request fun _ hu => Judged.agrees_of_keeps hu (judgeQueryAccount_keeps _ _)
  case alertAck => exact h.request fun _ hu => Judged.agrees_of_keeps hu (judgeAlertAck_keeps _ _)
  case alertRelease => exact h.request fun _ hu => hu.judgeAlertRelease
  case queryAlerts => exact h.request fun _ hu => Judged.agrees_of_keeps hu (judgeQueryAlerts_keeps _)
  case setTimers => exact h.request fun _ hu => Judged.agrees_of_keeps hu (judgeSetTimers_keeps _ _)
  case queryStore => exact h.request fun _ hu => Judged.agrees_ok hu
  case queryPart => exact h.request fun _ hu => Judged.agrees_ok hu
  case restart => exact h.request fun u hu => Judged.agrees_ok (hu.of_keeps u.restart_keeps)
  case unknownKindRequest => split <;> exact hsame _ rfl rfl
  case hostFrameReceived bytes => exact h.of_keeps (s.hostBytes_keeps bytes)
  case frameBoundary =>
    split
    · exact h
    · exact h.boundary
  case restartReset =>
    split
    · exact Agrees.restartReset s
    · exact h
  case startIntervalEnd => split <;> exact hsame _ rfl rfl
  case powerOn => exact Agrees.coldStart .power s
  case resetPin => exact Agrees.coldStart .pin s
  case finishingMarkEdge =>
    split
    · exact h
    · exact h.foldl (fun _ q ht => ht.giveMark q extBit) _
  case markPulseEnd => exact hsame _ rfl rfl
  case markPulseHighEnd => exact hsame _ rfl rfl
  case shopClockTick => exact hsame _ rfl rfl
  case starveTimerExpiry port =>
    split
    · rename_i ht; exact h.starveExpiry (by rw [ht]; simp)
    · exact h
  case setupTimerExpiry port =>
    split
    · exact h.of_view (s.reportStall_view port) ((s.reportStall_keeps port).part .pages)
    · exact h
  case escalationTimerExpiry slot =>
    split
    · exact hsame _ (State.flagAlert_view _ _ _) ((s.escalate_keeps slot).part .pages)
    · exact h
  case rerouteTick =>
    split
    · exact h.ask
    · exact h
  case probeDue port =>
    split
    · exact hsame _ (s.probe_view port) rfl
    · exact h
  case pressSilence port =>
    split
    · exact (h.linkLoss port).holdTest port
    · exact h
  case rateWindowClose =>
    split
    · rename_i hc; exact h.rateWindowClose hc.1
    · exact h
  case sendEnd port =>
    split
    · exact h
    · exact h.sendEnd port _
  case dispatchPass =>
    split
    · exact h.pass.of_keeps s.pass.endPass_keeps
    · exact h
  case ident port cc caps ms loaded depth =>
    split
    · exact h.pressMessage port _ _ fun _ hu _ => hu
    · exact h.pressMessage port _ _ fun _ hu _ => hu.identTaken port (identOf_depth ..) _ _
  case rateEcho port =>
    exact h.pressMessage port _ _ fun _ hu hl => hu.echoTaken (by simpa [takenEcho] using hl)
  case status port reasons => exact h.pressMessage port _ _ fun _ hu _ => hu.statusTaken port _
  case taken port serial =>
    refine h.pressMessage port _ _ fun u hu _ => hu.report port fun e he => ?_
    obtain ⟨hmem, hun⟩ := mem_of_entryWith he
    exact hu.takenPassed hmem (by simpa [SendEntry.unsettled] using hun)
  case sheet port serial => exact h.pressMessage port _ _ fun u hu _ => hu.report port fun e _ => hu.sheetPassed port e
  case aborted port serial =>
    exact h.pressMessage port _ _ fun u hu _ => hu.report port fun e _ => hu.abortedPassed port e
  case refuse port serial reason =>
    refine h.pressMessage port _ _ fun u hu _ => hu.report port fun e he => ?_
    obtain ⟨hmem, hun⟩ := mem_of_entryWith he
    split
    · exact hu.abortedPassed port e
    · rename_i ha
      refine hu.refusePassed reason hmem ?_
      cases hs : e.state <;> simp_all [SendEntry.unsettled, SendEntry.isAborting]
  case jam port location present serial => exact h.pressMessage port _ _ fun _ hu _ => hu.jamTaken port _ _
  case cleared port => exact h.pressMessage port _ _ fun _ hu _ => hu.clearedTaken port
  case pressCancel port => exact h.pressMessage port _ _ fun _ hu _ => hu.cancelTaken port
  case setupDone port media =>
    split
    · exact h.pressMessage port _ _ fun _ hu _ => hu
    · exact h.pressMessage port _ _ fun _ hu _ => hu.setupTaken port _
  case pressFrameDiscarded port bytes =>
    split
    · exact h
    · exact hsame _ (s.updPort_view_same port rfl) rfl

end State

/-- Settles O58: the four invariants are one agreement of the state's view, and every command moves the view as one of
its lemmas says. -/
theorem everyStepKeepsFeedsAndListsInAgreement : Obligations.EveryStepKeepsFeedsAndListsInAgreement := by
  intro s t hinv hstep
  have h : s.Agrees none := s.agrees_iff.2 hinv
  refine t.agrees_iff.1 ?_
  unfold step at hstep
  split at hstep
  · obtain rfl := Host.Outcome.next.inj hstep
    exact h
  · refine State.Agrees.exec ?_ hstep
    exact h.of_view (s.withPending_view _) rfl

end Sys2Proof.Machine
end

