-- ==== Sys2Proof/Proofs/ColdStart.lean ====
section
/-! SUPPORT. The power-on values (R1, R25, R50, R51, R71, R83, R111, R132, R144, R178), and that they meet every
invariant. -/

namespace Sys2Proof.Machine

open Sys2Proof.Safety

-- ## The records of the reset state

theorem State.reset_freePool : State.reset.freePool = List.range 65536 := by
  simp only [State.reset, fullPool, Config.blockCount]

theorem State.coldStart_freePool (s : State) (c : StartCause) : (s.coldStart c).freePool = List.range 65536 := by
  simp only [State.coldStart, State.reset, fullPool, Config.blockCount]

theorem State.reset_jobs (j : SlotId) : State.reset.jobs[j] = Job.freeSlot 0 := Vector.getElem_replicate _
theorem State.reset_queues (q : QueueId) : State.reset.queues[q] = .initial := Vector.getElem_replicate _
theorem State.reset_pages (r : RecordId) : State.reset.pages[r] = .freeRecord := Vector.getElem_replicate _
theorem State.reset_rows (n : Fin 64) : State.reset.rows[n] = 0 := Vector.getElem_replicate _
theorem State.reset_rings (q : QueueId) : State.reset.rings[q] = .initial := Vector.getElem_replicate _
theorem State.reset_proposals (q : QueueId) : State.reset.proposals[q] = none := Vector.getElem_replicate _
theorem State.reset_ports (p : PortId) : State.reset.ports[p] = .initial := Vector.getElem_replicate _
theorem State.reset_alerts (a : AlertId) : State.reset.alerts[a] = .clear := Vector.getElem_replicate _

theorem State.reset_tariffs (g : Fin 8) : State.reset.tariffs[g] = if g = 7 then .standing else .blank := by
  simp only [State.reset, Fin.getElem_fin, Vector.getElem_set, Vector.getElem_replicate]
  grind

theorem State.reset_accounts (a : AccountId) : State.reset.accounts[a] = if a = 0 then .house else .initial := by
  simp only [State.reset, Fin.getElem_fin, Vector.getElem_set, Vector.getElem_replicate]
  grind

theorem TariffPage.blank_rates (k : Fin 24) : TariffPage.blank.rates[k] = none := Vector.getElem_replicate _
theorem TariffPage.blank_surcharges (k : Fin 3) : TariffPage.blank.surcharges[k] = none := Vector.getElem_replicate _
theorem TariffPage.standing_rates (k : Fin 24) : TariffPage.standing.rates[k] = some { front := 0, back := 0 } :=
  Vector.getElem_replicate _
theorem TariffPage.standing_surcharges (k : Fin 3) : TariffPage.standing.surcharges[k] = some 0 :=
  Vector.getElem_replicate _

-- ## A stopped send

/-- What a stopped send has put on the link are the first frames of its page (R183). -/
theorem State.stoppedData_cutShort (s : State) (p : PortId) : CutShort s p (s.stoppedData p) := by
  have hdata : ∀ e : SendEntry, s.entryData e = match s.jobs[e.job].pageAt e.place with
      | none => []
      | some r => (List.range (((s.readOut r).length + 1023) / 1024)).map
          (fun i => PressMessage.pageData e.serial (((s.readOut r).drop (1024 * i)).take 1024)) := by
    intro e
    unfold State.entryData State.entryRecord
    cases s.jobs[e.job].pageAt e.place with
    | none => rfl
    | some r =>
      refine List.map_congr_left fun i _ => ?_
      rw [Nat.mul_comm 1024 i]
      rfl
  refine ⟨Config.framesSent p.val s.pressLog.length, ?_⟩
  unfold State.stoppedData
  cases s.ports[p].sendingEntry with
  | none => exact List.take_nil.symm
  | some e =>
    exact congrArg _ (hdata e)

/-- Settles O11: both commands are the cold start, whose records are those of the reset state. -/
theorem powerOnValues : Obligations.PowerOnValues := by
  intro s c hc
  have hexec : exec c s = .next (s.coldStart (if c = .powerOn then .power else .pin)) := by
    rcases hc with rfl | rfl <;> rfl
  refine ⟨_, hexec, fun j => ?_, State.reset_queues, rfl, State.reset_pages, ?_,
    State.reset_rows, State.reset_rings,
    State.reset_proposals, rfl, rfl, State.reset_ports, fun g hg => ⟨fun k => ?_, fun k => ?_⟩, fun k => ?_, fun k => ?_,
    ?_, fun a ha => ?_, State.reset_alerts, rfl, rfl, rfl, rfl, rfl, rfl, rfl, rfl, rfl, rfl, rfl, rfl, rfl, rfl,
    ⟨s.stoppedData, s.stoppedData_cutShort, rfl⟩, rfl, rfl⟩
  · have : (s.coldStart (if c = .powerOn then .power else .pin)).jobs[j] = Job.freeSlot 0 := State.reset_jobs j
    rw [this]
    exact ⟨rfl, rfl, rfl, rfl⟩
  · exact s.coldStart_freePool _
  · change State.reset.tariffs[g].rates[k] = none
    rw [State.reset_tariffs, if_neg hg]
    exact TariffPage.blank_rates k
  · change State.reset.tariffs[g].surcharges[k] = none
    rw [State.reset_tariffs, if_neg hg]
    exact TariffPage.blank_surcharges k
  · change State.reset.tariffs[(7 : Fin 8)].rates[k] = _
    rw [State.reset_tariffs, if_pos rfl]
    exact TariffPage.standing_rates k
  · change State.reset.tariffs[(7 : Fin 8)].surcharges[k] = _
    rw [State.reset_tariffs, if_pos rfl]
    exact TariffPage.standing_surcharges k
  · exact State.reset_accounts 0
  · exact (State.reset_accounts a).trans (if_neg ha)

-- ## The invariants

theorem storeSound_reset : StoreSound State.reset := by
  have hchains : allChains State.reset = [] := by
    unfold allChains
    rw [List.flatMap_eq_nil_iff]
    intro r hr
    have hp : State.reset.pages = Vector.replicate 4096 .freeRecord := rfl
    rw [hp, Vector.toList_replicate] at hr
    rw [List.eq_of_mem_replicate hr]
    rfl
  refine ⟨?_, fun j k r h => ?_, fun j r h => ?_, fun r _ => ?_, fun r => ?_⟩
  · unfold BlocksPartitioned
    rw [hchains, List.append_nil, State.reset_freePool, Config.blockCount]
  · rw [State.reset_jobs] at h
    simp [Job.freeSlot] at h
  · rw [State.reset_jobs] at h
    simp [Job.freeSlot] at h
  · rw [State.reset_pages]
    exact ⟨rfl, rfl⟩
  · rw [State.reset_pages]
    rfl

theorem standingPriced_reset : StandingPriced State.reset := by
  have h : State.reset.tariffs[standingPage] = .standing := (State.reset_tariffs standingPage).trans (if_pos rfl)
  unfold StandingPriced
  rw [h]
  exact ⟨fun k => by rw [TariffPage.standing_rates]; simp, fun k => by rw [TariffPage.standing_surcharges]; simp⟩

theorem windowFaces_reset (p : PortId) (f : SendEntry → Bool) : windowFaces State.reset p f = 0 := by
  unfold windowFaces
  rw [State.reset_ports]
  rfl

theorem reservationsSound_reset : ReservationsSound State.reset := by
  intro a
  have hf : facesInFlight State.reset a = 0 := by
    unfold facesInFlight
    simp only [windowFaces_reset]
    rfl
  rw [hf, State.reset_accounts]
  split <;> simp [Account.house, Account.initial]

theorem metersBalanced_reset : MetersBalanced State.reset := by
  intro p
  rw [windowFaces_reset, State.reset_ports]
  refine ⟨fun m hm => ?_, rfl⟩
  rcases hm with rfl | rfl <;> simp [Port.initial, MeterSet.zero]

/-- Settles O60: the agreement of a fresh state, and the values of each record. -/
theorem resetMeetsTheInvariants : Obligations.ResetMeetsTheInvariants := by
  have hagree : State.reset.Agrees none := by
    refine State.Agrees.of_fresh (fun j => ⟨0, State.reset_jobs j⟩) (fun p => by rw [State.reset_ports])
      (fun q => by rw [State.reset_queues]; rfl) (fun j => by simp [State.reset]) (fun r => ?_)
    rw [State.reset_pages]
    decide
  obtain ⟨hwindows, hfeeds, hlists, hnotices⟩ := State.reset.agrees_iff.1 hagree
  refine ⟨⟨by simp [State.reset], by simp [State.reset]⟩, fun q => ?_, standingPriced_reset, fun q => ?_, by unfold TimersInRange; decide,
    storeSound_reset, rfl, hwindows, ⟨List.nodup_nil, fun a => ?_⟩, ⟨fun a => ?_, fun p => ?_, rfl⟩, hfeeds, hlists,
    reservationsSound_reset, metersBalanced_reset, hnotices⟩
  · rw [State.reset_rings]
    simp [Ring.initial]
  · rw [State.reset_queues]
    simp [Queue.initial, hasBit]
  · rw [State.reset_alerts]
    simp [State.reset, AlertSlot.clear]
  · rw [State.reset_alerts]
    simp [State.reset, AlertSlot.clear]
  · rw [State.reset_ports]
    simp [State.reset, Port.initial]

end Sys2Proof.Machine
end

