-- ==== Sys2Proof/Proofs/HandleChecks.lean ====
section
/-! SUPPORT. The handle checks of the requests that name a job (R2, R20). -/

namespace Sys2Proof.Machine

open Sys2Proof.Safety

variable {s : State} {tag : Byte} {body : List Byte} {j k : SlotId} {q : QueueId}

/-- A request command that begins with its job's handle: another generation is STALE, a FREE slot is RANGE (R2). -/
theorem handle_refuses {c : Instr} {kind : Byte} {encoded : Bool} {f : State → SlotId → Judged}
    (hc : exec c s = .next (s.request kind tag body encoded (fun u => u.withHandle body (f u))))
    (ht : Takes s kind tag body) (he : encoded = true) (hj : (byteAt body 0).toNat = j.val) :
    (byteAt body 1 ≠ s.jobs[j].generation → Refuses c s kind tag 0x06) ∧
      (byteAt body 1 = s.jobs[j].generation → s.jobs[j].state = .free → Refuses c s kind tag 0x05) :=
  ⟨fun hg => exec_refused hc ht he (withHandle_refused (handleRefusal_stale hj hg) _),
    fun hg hf => exec_refused hc ht he (withHandle_refused (handleRefusal_range hj hg hf) _)⟩

/-- A well formed body of a request of fixed size has that size (R169). -/
theorem sized_of_form {kind : Byte} {n : Nat} (h : ¬badForm kind body) (hk : kind ≠ 0x02 := by decide)
    (hn : bodySize kind = n := by decide) : sized n body = true := by
  rw [sized_iff, ← hn]
  by_contra hne
  exact h (.inl (by rw [if_neg hk]; exact hne))

/-- The steps of a MOVE_JOB before its position is carried out pass (R20). -/
theorem judgeMoveJob_after (hn : Names s (byteAt body 0) (byteAt body 1) j) (hq : (byteAt body 2).toNat = q.val)
    (hpos : byteAt body 3 = 2) (hw : s.jobs[j].state = .waiting) (hm : s.queues[q].mode ≠ .disabled)
    (hset : hasBit s.jobs[j].waitSet q.val = false) :
    judgeMoveJob body s = s.judgeAfter j q (byteAt body 4) (byteAt body 5) := by
  unfold judgeMoveJob
  rw [withHandle_names hn, queueOf_eq hq, orRange_some, hpos, if_neg (by decide), if_neg (by decide), if_pos rfl]
  exact s.judgeMove_passes _ hw hm hset

/-- The second handle of a MOVE_JOB is refused as the first one would be (R20 step 6). -/
theorem judgeAfter_refused {slot generation : Byte} {c : ResultCode} (h : s.handleRefusal slot generation = some c) :
    s.judgeAfter j q slot generation = .refused c := by
  simp only [State.judgeAfter, h]

/-- Settles O5: the seven commands all read their job through the handle checks. -/
theorem handleChecksComeFirst : Obligations.HandleChecksComeFirst := by
  refine ⟨?_, ?_⟩
  · intro c s kind tag body j hframe hkind hwf ht hform hj
    cases c <;> simp only [Instr.requestFrame, Option.some.injEq, Prod.mk.injEq, reduceCtorEq] at hframe
    case unknownKindRequest =>
      obtain ⟨rfl, rfl, rfl⟩ := hframe
      simp only [Instr.wellFormed, Bool.and_eq_true, Bool.not_eq_true', List.contains_eq_mem, decide_eq_false_iff_not] at hwf
      refine absurd ?_ hwf.2
      simp only [List.mem_cons, List.not_mem_nil, or_false] at hkind
      rcases hkind with rfl | rfl | rfl | rfl | rfl | rfl | rfl <;> decide
    all_goals obtain ⟨rfl, rfl, rfl⟩ := hframe
    case pageData => exact handle_refuses rfl ht (pageDataOk_of hform) hj
    case pageDiscard => exact handle_refuses rfl ht (sized_of_form hform) hj
    case closeJob => exact handle_refuses rfl ht (sized_of_form hform) hj
    case cancelJob => exact handle_refuses rfl ht (sized_of_form hform) hj
    case moveJob => exact handle_refuses rfl ht (sized_of_form hform) hj
    case retryJob => exact handle_refuses rfl ht (sized_of_form hform) hj
    case queryJob => exact handle_refuses rfl ht (sized_of_form hform) hj
    all_goals exact absurd hkind (by decide)
  · intro s tag body j k q ht hlen hn hq hpos hw hm hset hk
    have hjudge := judgeMoveJob_after (s := s.popInbox) hn hq hpos hw hm hset
    refine ⟨fun hg => ?_, fun hg hf => ?_⟩
    · exact exec_refused rfl ht ((sized_iff 6).2 hlen)
        (hjudge.trans (judgeAfter_refused (handleRefusal_stale (s := s.popInbox) hk hg)))
    · exact exec_refused rfl ht ((sized_iff 6).2 hlen)
        (hjudge.trans (judgeAfter_refused (handleRefusal_range (s := s.popInbox) hk hg hf)))

end Sys2Proof.Machine
end

