-- ==== Sys2Proof/Proofs/ListRequests.lean ====
section
/-! SUPPORT. The requests that place a job in a queue's list, ADMIT, MOVE_JOB and RETRY_JOB (R3, R19, R20, R27). -/

namespace Sys2Proof.Machine

open Sys2Proof.Safety

variable {s t : State} {tag : Byte} {body : List Byte} {j k : SlotId} {q : QueueId}

/-- A taken request that passes its checks completes with an OK reply. -/
theorem completes_ok {c : Instr} {kind : Byte} {encoded : Bool} {judge : State → Judged} {post : State → Prop}
    {parts : List Part} {fields : List Byte} (hc : exec c s = .next (s.request kind tag body encoded judge))
    (h : Takes s kind tag body) (he : encoded = true) (hj : judge s.popInbox = ok t fields)
    (hk : KeepsAllBut parts s.popInbox t) (hp : Replied s (t.placeReply (replyFrame kind tag .ok fields)) kind tag 0x00 fields →
      KeepsAllBut (.inbox :: .replies :: parts) s (t.placeReply (replyFrame kind tag .ok fields)) →
      post (t.placeReply (replyFrame kind tag .ok fields)))
    (hi : Part.inbox ∉ parts := by decide) (hr : Part.replies ∉ parts := by decide) : Completes c s post :=
  completes_done hc h he hj hk hi hr hp

-- ## RETRY_JOB

theorem State.makeWaiting_asked (s : State) (j : SlotId) (r : WaitReason) :
    AskedIf (s.queues[s.jobs[j].queue].mode = .run) s (s.makeWaiting j r) :=
  (askIfRun_asked _ s.jobs[j].queue).after (.of_keeps (s.updJob_keeps j _))

/-- Settles O22: `makeWaiting` writes the state and the reason and asks for the pass. -/
theorem retryJobMakesAnErrorJobWait : Obligations.RetryJobMakesAnErrorJobWait := by
  intro s tag body j ht hlen hn
  have hsize := (sized_iff (body := body) 2).2 hlen
  have hjudge : judgeRetryJob body s.popInbox =
      if s.jobs[j].state = .error then ok (s.popInbox.makeWaiting j .new) [] else .refused .state :=
    withHandle_names (s := s.popInbox) hn _
  refine ⟨fun he => ?_, fun he => ?_⟩
  · exact exec_refused rfl ht hsize (by rw [hjudge, if_neg he])
  · exact completes_ok rfl ht hsize (by rw [hjudge, if_pos he]) (State.makeWaiting_keeps _ j .new) fun hr hk => ⟨hr, s.popInbox.makeWaiting_jobs_val j .new, fun k hne =>
        s.popInbox.makeWaiting_jobs_ne j .new k hne, s.popInbox.makeWaiting_asked j .new, hk⟩

-- ## MOVE_JOB

/-- The list of the target queue without the moved job (R20). -/
def State.listWithout (s : State) (j : SlotId) (q : QueueId) : List SlotId :=
  if s.jobs[j].queue = q then s.queues[q].list.filter (fun k => k != j) else s.queues[q].list

theorem State.moveJob_queues_target (s : State) (j : SlotId) (q : QueueId) (pos : Position) :
    (s.moveJob j q pos).queues[q] = { s.queues[q] with list := pos.place j (s.listWithout j q) } := by
  unfold State.moveJob State.listWithout
  by_cases h : s.jobs[j].queue = q
  · simp only [State.askIfRun_queues, State.updJob_queues, State.updQueue_queues_self, h, if_true]
  · simp only [State.askIfRun_queues, State.updJob_queues, State.updQueue_queues_self, if_neg h,
      State.updQueue_queues_ne _ _ _ _ (Ne.symm h)]

theorem State.moveJob_queues_left (s : State) (j : SlotId) (pos : Position) (h : s.jobs[j].queue ≠ q) :
    (s.moveJob j q pos).queues[s.jobs[j].queue] = { s.queues[s.jobs[j].queue] with
      list := s.queues[s.jobs[j].queue].list.filter (fun k => k != j) } := by
  unfold State.moveJob
  rw [State.askIfRun_queues, State.updJob_queues, State.updQueue_queues_ne _ _ _ _ h, State.updQueue_queues_self]

theorem State.moveJob_queues_ne (s : State) (j : SlotId) (pos : Position) (k : QueueId) (hq : k ≠ q)
    (h : k ≠ s.jobs[j].queue) : (s.moveJob j q pos).queues[k] = s.queues[k] := by
  unfold State.moveJob
  rw [State.askIfRun_queues, State.updJob_queues, State.updQueue_queues_ne _ _ _ _ hq, State.updQueue_queues_ne _ _ _ _ h]

theorem State.moveJob_jobs_self (s : State) (j : SlotId) (q : QueueId) (pos : Position) :
    (s.moveJob j q pos).jobs[j] = { s.jobs[j] with queue := q } := by
  unfold State.moveJob
  rw [State.askIfRun_jobs, State.updJob_jobs_self]
  rfl

theorem State.moveJob_jobs_ne (s : State) (j : SlotId) (q : QueueId) (pos : Position) (k : SlotId) (h : k ≠ j) :
    (s.moveJob j q pos).jobs[k] = s.jobs[k] := by
  unfold State.moveJob
  rw [State.askIfRun_jobs, State.updJob_jobs_ne _ _ _ _ h]
  rfl

theorem State.moveJob_asked (s : State) (j : SlotId) (q : QueueId) (pos : Position) :
    AskedIf (s.queues[q].mode = .run) s (s.moveJob j q pos) := by
  have hmode : (s.moveJob j q pos).queues[q].mode = s.queues[q].mode := by rw [s.moveJob_queues_target]
  unfold State.moveJob at hmode ⊢
  rw [State.askIfRun_queues] at hmode
  rw [← hmode]
  exact (askIfRun_asked _ q).after ⟨rfl, rfl⟩

/-- The place behind job `k` splits the list at its first occurrence (R20). -/
theorem Position.place_after {list : List SlotId} (h : k ∈ list) (j : SlotId) : ∃ front back, list = front ++ k :: back ∧
    k ∉ front ∧ (Position.after k).place j list = front ++ k :: j :: back := by
  refine ⟨list.takeWhile (fun x => x != k), (list.dropWhile (fun x => x != k)).tail, ?_, fun hm => ?_, rfl⟩
  · have hd : list.dropWhile (fun x => x != k) = k :: (list.dropWhile (fun x => x != k)).tail := by
      have hne : list.dropWhile (fun x => x != k) ≠ [] := fun e => by
        have := List.dropWhile_eq_nil_iff.1 e k h
        simp at this
      have hhead := List.head_dropWhile_not (fun x => x != k) hne
      have hk : (list.dropWhile (fun x => x != k)).head hne = k := by simpa using hhead
      exact (List.cons_head_tail hne).symm.trans (by rw [hk])
    rw [← hd, List.takeWhile_append_dropWhile]
  · simpa using List.mem_takeWhile_imp hm

/-- The position that a MOVE_JOB's body names (R20, 11.4). -/
def positionOf (body : List Byte) : Position :=
  if byteAt body 3 = 0 then .head else if byteAt body 3 = 1 then .tail else .after (slotOf (byteAt body 4))

theorem judgeMoveJob_named (hn : Names s (byteAt body 0) (byteAt body 1) j) (hq : (byteAt body 2).toNat = q.val) :
    judgeMoveJob body s =
      if byteAt body 3 = 0 then s.judgeMove j q (ok (s.moveJob j q .head) [])
      else if byteAt body 3 = 1 then s.judgeMove j q (ok (s.moveJob j q .tail) [])
      else if byteAt body 3 = 2 then s.judgeMove j q (s.judgeAfter j q (byteAt body 4) (byteAt body 5))
      else .refused .range := by
  unfold judgeMoveJob
  rw [withHandle_names hn, queueOf_eq hq, orRange_some]

/-- A position byte that the part knows (11.4). -/
theorem position_cases {b : Byte} (h : b.toNat ≤ 2) : b = 0 ∨ b = 1 ∨ b = 2 := by
  bv_omega

/-- Steps 3 to 5 of R20 refuse before the position is looked at. -/
theorem judgeMoveJob_refused (hn : Names s (byteAt body 0) (byteAt body 1) j) (hq : (byteAt body 2).toNat = q.val)
    (hpos : (byteAt body 3).toNat ≤ 2) {c : ResultCode} (h : ∀ x, s.judgeMove j q x = .refused c) :
    judgeMoveJob body s = .refused c := by
  rw [judgeMoveJob_named hn hq]
  rcases position_cases hpos with e | e | e <;> simp [e, h]

/-- Every check of R20 passes: the job moves to the position that the body names. -/
theorem judgeMoveJob_passes (hn : Names s (byteAt body 0) (byteAt body 1) j) (hq : (byteAt body 2).toNat = q.val)
    (hpos : (byteAt body 3).toNat ≤ 2) (hw : s.jobs[j].state = .waiting) (hm : s.queues[q].mode ≠ .disabled)
    (hset : hasBit s.jobs[j].waitSet q.val = false)
    (hafter : byteAt body 3 = 2 → ∃ k : SlotId, Names s (byteAt body 4) (byteAt body 5) k ∧ k ∈ s.queues[q].list ∧ k ≠ j) :
    judgeMoveJob body s = ok (s.moveJob j q (positionOf body)) [] := by
  rw [judgeMoveJob_named hn hq]
  simp only [s.judgeMove_passes _ hw hm hset, positionOf]
  rcases position_cases hpos with e | e | e
  · simp [e]
  · simp [e]
  · obtain ⟨k, hk, hmem, hne⟩ := hafter e
    have hslot := slotOf_eq hk.1
    have hmem' : k ∈ s.queues[q.val].list := hmem
    simp [e, State.judgeAfter, handleRefusal_names hk, hslot, hmem', hne]

/-- Settles O21: the checks in order, and the two list writes of `moveJob`. -/
theorem moveJobMovesItsPlace : Obligations.MoveJobMovesItsPlace := by
  intro s tag body j ht hlen hn
  have hsize := (sized_iff (body := body) 6).2 hlen
  have hn' : Names s.popInbox (byteAt body 0) (byteAt body 1) j := hn
  refine ⟨fun hrange => exec_refused rfl ht hsize (rc := .range) ?_, fun q hq hpos => ⟨fun hw => ?_, fun hw => ⟨fun hm => ?_,
    fun hm => ⟨fun hset => ?_, fun hset => ⟨fun k hafter hk hbad => ?_, fun rest hrest hafter => ?_⟩⟩⟩⟩⟩
  · by_cases hq : (byteAt body 2).toNat < 8
    · have hpos : 2 < (byteAt body 3).toNat := by omega
      have h0 : byteAt body 3 ≠ 0 ∧ byteAt body 3 ≠ 1 ∧ byteAt body 3 ≠ 2 := by
        refine ⟨?_, ?_, ?_⟩ <;> intro e <;> simp [e] at hpos
      rw [judgeMoveJob_named (q := ⟨_, hq⟩) hn' rfl, if_neg h0.1, if_neg h0.2.1, if_neg h0.2.2]
    · unfold judgeMoveJob
      rw [withHandle_names hn', queueOf, dif_neg hq, orRange_none]
  · exact exec_refused rfl ht hsize (judgeMoveJob_refused hn' hq hpos fun x => if_pos hw) rfl
  · exact exec_refused rfl ht hsize (judgeMoveJob_refused hn' hq hpos fun x =>
      (if_neg (not_not.2 hw)).trans (if_pos hm)) rfl
  · exact exec_refused rfl ht hsize (judgeMoveJob_refused hn' hq hpos fun x =>
      (if_neg (not_not.2 hw)).trans ((if_neg hm).trans (if_pos hset))) rfl
  · refine exec_refused rfl ht hsize (rc := .range) ((judgeMoveJob_after hn' hq hafter hw hm hset).trans ?_)
    have hslot := slotOf_eq hk.1
    rw [State.judgeAfter, handleRefusal_names (s := s.popInbox) hk, hslot]
    exact if_neg fun h => hbad.elim (fun hnot => hnot h.1) h.2
  · have hlist : s.popInbox.listWithout j q = rest := hrest.symm
    have hqueue := s.popInbox.moveJob_queues_target j q (positionOf body)
    rw [hlist] at hqueue
    refine completes_ok rfl ht hsize (judgeMoveJob_passes hn' hq hpos hw hm hset hafter)
      (State.moveJob_keeps _ j q _) fun hr hk => ⟨hr, s.popInbox.moveJob_jobs_self j q _,
        s.popInbox.moveJob_jobs_ne j q _, ?_, fun hp => ?_, fun hp => ?_, fun k hp hnk => ?_,
        s.popInbox.moveJob_queues_left j _, fun k => s.popInbox.moveJob_queues_ne j _ k,
        s.popInbox.moveJob_asked j q _, hk⟩
    · rw [State.placeReply_queues, hqueue]
      rfl
    · rw [State.placeReply_queues, hqueue, positionOf, if_pos hp]
      rfl
    · rw [State.placeReply_queues, hqueue, positionOf, if_neg (by rw [hp]; decide), if_pos hp]
      rfl
    · have hmem : k ∈ rest := by
        obtain ⟨k', hn', hmem, hne⟩ := hafter hp
        obtain rfl : k' = k := Fin.ext (hn'.1.symm.trans hnk.1)
        rw [hrest]
        split
        · exact List.mem_filter.2 ⟨hmem, by simpa using hne⟩
        · exact hmem
      rw [State.placeReply_queues, hqueue, positionOf, if_neg (by rw [hp]; decide), if_neg (by rw [hp]; decide),
        slotOf_eq hnk.1]
      exact Position.place_after hmem j

-- ## ADMIT

theorem lowestFreeSlot_none (h : ∀ k : SlotId, s.jobs[k].state ≠ .free) : s.lowestFreeSlot = none := by
  unfold State.lowestFreeSlot
  rw [List.find?_eq_none]
  intro k _
  simpa using h k

theorem lowestFreeSlot_eq (h : s.jobs[j].state = .free) (hmin : ∀ k : SlotId, k < j → s.jobs[k].state ≠ .free) :
    s.lowestFreeSlot = some j := by
  cases hf : s.lowestFreeSlot with
  | none => exact absurd (List.find?_eq_none.1 hf j (List.mem_finRange j)) (by simpa using h)
  | some k =>
    have hk := State.lowestFreeSlot_free hf
    rcases lt_trichotomy k j with hlt | rfl | hgt
    · exact absurd hk (hmin k hlt)
    · rfl
    · obtain ⟨_, as, bs, hlist, hbefore⟩ := List.find?_eq_some_iff_append.1 hf
      have hmem : j ∈ as := by
        have hsorted := List.pairwise_lt_finRange 256
        have hj := List.mem_finRange j
        rw [hlist] at hsorted hj
        rcases List.mem_append.1 hj with h | h
        · exact h
        · have htail := (List.pairwise_cons.1 (List.pairwise_append.1 hsorted).2.1).1
          rcases List.mem_cons.1 h with rfl | h
          · exact absurd hgt (lt_irrefl _)
          · exact absurd (htail j h) (not_lt.2 hgt.le)
      exact absurd (hbefore j hmem) (by simpa using h)

/-- A rushed job is placed directly in front of the first never-started job (R27). -/
theorem State.admitPlace_rush (s : State) (j : SlotId) (list : List SlotId) : ∃ front back, list = front ++ back ∧
    s.admitPlace true j list = front ++ j :: back ∧ (∀ k ∈ front, s.jobs[k].started = true ∨ s.jobs[k].proofRun = true) ∧
    ∀ k, back.head? = some k → s.jobs[k].started = false ∧ s.jobs[k].proofRun = false := by
  refine ⟨_, _, (List.takeWhile_append_dropWhile (p := fun k => !s.jobs[k].neverStarted)).symm, rfl, fun k hk => ?_,
    fun k hk => ?_⟩
  · have := List.mem_takeWhile_imp hk
    simp only [Job.neverStarted] at this
    grind
  · have := List.head?_dropWhile_not (fun k => !s.jobs[k].neverStarted) list
    rw [hk] at this
    simpa [Job.neverStarted] using this

theorem State.admitPlace_tail (s : State) (j : SlotId) (list : List SlotId) : s.admitPlace false j list = list ++ [j] := rfl

theorem State.admitJob_jobs_self (s : State) (j : SlotId) (q : QueueId) (a : AccountId) (body : List Byte) :
    (s.admitJob j q a body).jobs[j] = s.jobs[j].fromAdmit q a body s.clock := by
  unfold State.admitJob
  rw [State.askIfRun_jobs, State.updJob_jobs_self]
  rfl

theorem State.admitJob_jobs_ne (s : State) (j : SlotId) (q : QueueId) (a : AccountId) (body : List Byte) (k : SlotId)
    (h : k ≠ j) : (s.admitJob j q a body).jobs[k] = s.jobs[k] := by
  unfold State.admitJob
  rw [State.askIfRun_jobs, State.updJob_jobs_ne _ _ _ _ h]
  rfl

theorem State.admitJob_queues_self (s : State) (j : SlotId) (q : QueueId) (a : AccountId) (body : List Byte) :
    (s.admitJob j q a body).queues[q] =
      { s.queues[q] with list := s.admitPlace ((byteAt body 2).getLsbD 1) j s.queues[q].list } := by
  unfold State.admitJob
  rw [State.askIfRun_queues, State.updJob_queues, State.updQueue_queues_self]

theorem State.admitJob_queues_ne (s : State) (j : SlotId) (q : QueueId) (a : AccountId) (body : List Byte) (k : QueueId)
    (h : k ≠ q) : (s.admitJob j q a body).queues[k] = s.queues[k] := by
  unfold State.admitJob
  rw [State.askIfRun_queues, State.updJob_queues, State.updQueue_queues_ne _ _ _ _ h]

theorem State.admitJob_asked (s : State) (j : SlotId) (q : QueueId) (a : AccountId) (body : List Byte) :
    AskedIf (s.queues[q].mode = .run) s (s.admitJob j q a body) := by
  have hmode : (s.admitJob j q a body).queues[q].mode = s.queues[q].mode := by rw [s.admitJob_queues_self]
  unfold State.admitJob at hmode ⊢
  rw [State.askIfRun_queues] at hmode
  rw [← hmode]
  exact (askIfRun_asked _ q).after ⟨rfl, rfl⟩

/-- The checks of R3 behind the free slot and the queue, in their order. -/
theorem judgeAdmit_open {a : AccountId} (hj : s.lowestFreeSlot = some j) (hq : (byteAt body 0).toNat = q.val)
    (hm : s.queues[q].mode ≠ .disabled) (ha : (byteAt body 1).toNat = a.val) : judgeAdmit body s =
      if s.accounts[a].enabled = false then .refused .account
      else if (byteAt body 3).toNat < 1 ∨ 99 < (byteAt body 3).toNat ∨ 3 < (byteAt body 4).toNat then .refused .range
      else if hasBit (marksAt body 5) q.val then .refused .range
      else ok (s.admitJob j q a body) [u8 j.val, s.jobs[j].generation] := by
  simp only [judgeAdmit, hj, queueOf_eq hq, orRange_some, if_neg hm, accountOf_eq ha]

/-- Settles O14: the checks in order, and the record and the list place of `admitJob`. -/
theorem admitFollowsItsTable : Obligations.AdmitFollowsItsTable := by
  intro s tag body ht hform
  have hok := admitOk_of hform
  refine ⟨fun hfull => exec_refused rfl ht hok (rc := .full) ?_, fun j hfree hmin => ?_⟩
  · rw [judgeAdmit, lowestFreeSlot_none (s := s.popInbox) hfull]
  have hj : s.popInbox.lowestFreeSlot = some j := lowestFreeSlot_eq (s := s.popInbox) hfree hmin
  refine ⟨fun hrange => exec_refused rfl ht hok (rc := .range) ?_, fun q hq => ⟨fun hm =>
    exec_refused rfl ht hok (rc := .queueClosed) ?_, fun hm => ⟨fun hrange =>
    exec_refused rfl ht hok (rc := .account) ?_, fun a ha => ?_⟩⟩⟩
  · simp only [judgeAdmit, hj, queueOf, dif_neg (Nat.not_lt.2 (Nat.lt_of_lt_of_le hrange (Nat.le_refl _))), orRange_none]
  · simp only [judgeAdmit, hj, queueOf_eq hq, orRange_some]
    exact if_pos hm
  · simp only [judgeAdmit, hj, queueOf_eq hq, orRange_some, accountOf, dif_neg (show ¬(byteAt body 1).toNat < 128 by omega)]
    exact if_neg hm
  have hjudge := judgeAdmit_open (s := s.popInbox) (body := body) hj hq hm ha
  have hcopies : ¬(byteAt body 3).toNat < 1 ↔ byteAt body 3 ≠ 0 := by
    rw [Ne, ← BitVec.toNat_inj]
    simp
  refine ⟨fun he => exec_refused rfl ht hok (hjudge.trans (if_pos he)), fun he => ?_⟩
  have he' : ¬s.accounts[a].enabled = false := by rw [he]; decide
  refine ⟨fun hrange => exec_refused rfl ht hok (hjudge.trans ((if_neg he').trans (if_pos ?_))), fun h0 h99 h3 => ?_⟩
  · exact hrange.imp_left fun h => by simp [h]
  have hin : ¬((byteAt body 3).toNat < 1 ∨ 99 < (byteAt body 3).toNat ∨ 3 < (byteAt body 4).toNat) := by
    have := hcopies.2 h0
    omega
  refine ⟨fun hset => exec_refused rfl ht hok (hjudge.trans ((if_neg he').trans ((if_neg hin).trans (if_pos hset)))),
    fun hset => ?_⟩
  have hpass := hjudge.trans ((if_neg he').trans ((if_neg hin).trans (if_neg (by simpa [marksAt] using hset))))
  have hqueue := s.popInbox.admitJob_queues_self j q a body
  refine completes_ok rfl ht hok hpass (State.admitJob_keeps _ _ j q a) fun hr hk => ⟨hr,
    s.popInbox.admitJob_jobs_self j q a body, s.popInbox.admitJob_jobs_ne j q a body, ?_,
    s.popInbox.admitJob_queues_ne j q a body, fun hrush => ?_, fun hrush => ?_, s.popInbox.admitJob_asked j q a body, hk⟩
  · rw [State.placeReply_queues, hqueue]
    rfl
  · rw [State.placeReply_queues, hqueue]
    dsimp only
    rw [show (byteAt body 2).getLsbD 1 = false from hrush]
    rfl
  · rw [State.placeReply_queues, hqueue]
    dsimp only
    rw [show (byteAt body 2).getLsbD 1 = true from hrush]
    exact s.popInbox.admitPlace_rush j _

end Sys2Proof.Machine
end

