-- ==== Sys2Proof/Proofs/Fields.lean ====
section
/-! SUPPORT. The fields of replies and notices (11.2, 11.5): bytes that are laid out as runs of binary fields and packed
decimals hold each of them at its offset. -/

namespace Sys2Proof.Machine

open Sys2Proof.Safety

variable {s : State} {pre post bytes : List Byte}

-- ## Numbers and bytes

theorem beBytes_length (k n : Nat) : (beBytes k n).length = k := by
  induction k with
  | zero => rfl
  | succ k ih => simp [beBytes, ih]

theorem bcdBytes_length (k n : Nat) : (bcdBytes k n).length = k := by
  induction k with
  | zero => rfl
  | succ k ih => simp [bcdBytes, ih]

theorem foldl_base (base : Nat) (f : Byte → Nat) (a : Nat) (bs : List Byte) :
    bs.foldl (fun n b => n * base + f b) a = a * base ^ bs.length + bs.foldl (fun n b => n * base + f b) 0 := by
  induction bs generalizing a with
  | nil => simp
  | cons b bs ih =>
    rw [List.foldl_cons, List.foldl_cons, ih, ih (0 * base + f b), List.length_cons, pow_succ]
    ring

theorem beValue_beBytes (k n : Nat) : beValue (beBytes k n) = n % 256 ^ k := by
  induction k with
  | zero => simp [beBytes, beValue, Nat.mod_one]
  | succ k ih =>
    have h : beValue (beBytes (k + 1) n) = n / 256 ^ k % 256 * 256 ^ k + beValue (beBytes k n) := by
      simp only [beValue, beBytes, List.foldl_cons]
      rw [foldl_base, beBytes_length]
      simp
    rw [h, ih, Nat.mod_pow_succ]
    ring

theorem digits_of_pair (n : Nat) : (BitVec.ofNat 8 (n / 10 % 10 * 16 + n % 10)).toNat / 16 = n / 10 % 10 ∧
    (BitVec.ofNat 8 (n / 10 % 10 * 16 + n % 10)).toNat % 16 = n % 10 := by
  rw [BitVec.toNat_ofNat]
  omega

theorem bcdValue_bcdBytes (k n : Nat) : bcdValue (bcdBytes k n) = n % 100 ^ k := by
  induction k with
  | zero => simp [bcdBytes, bcdValue, Nat.mod_one]
  | succ k ih =>
    obtain ⟨hhigh, hlow⟩ := digits_of_pair (n / 100 ^ k)
    have h : bcdValue (bcdBytes (k + 1) n) = n / 100 ^ k % 100 * 100 ^ k + bcdValue (bcdBytes k n) := by
      simp only [bcdValue, bcdBytes, List.foldl_cons]
      rw [foldl_base, bcdBytes_length, hhigh, hlow]
      congr 2
      omega
    rw [h, ih, Nat.mod_pow_succ]
    ring

theorem digitsOk_bcdBytes (k n : Nat) : ∀ b ∈ bcdBytes k n, digitsOk b = true := by
  induction k with
  | zero => simp [bcdBytes]
  | succ k ih =>
    intro b hb
    rcases List.mem_cons.1 hb with rfl | hb
    · obtain ⟨hhigh, hlow⟩ := digits_of_pair (n / 100 ^ k)
      simp only [digitsOk, hhigh, hlow, Bool.and_eq_true, decide_eq_true_eq]
      omega
    · exact ih b hb

-- ## Runs of fields

/-- The bytes of consecutive binary fields, each given by its size and its value. -/
def fieldBytes (l : List (Nat × Nat)) : List Byte := l.flatMap (fun x => beBytes x.1 x.2)

/-- Consecutive fields with their offsets, the first one's given. -/
def fieldsFrom : Nat → List (Nat × Nat) → List (Nat × Nat × Nat)
  | _, [] => []
  | o, (k, n) :: l => (o, k, n) :: fieldsFrom (o + k) l

theorem drop_take_middle (pre seg post : List Byte) {o k : Nat} (ho : pre.length = o) (hk : seg.length = k) :
    ((pre ++ (seg ++ post)).drop o).take k = seg := by
  subst ho hk
  simp

/-- A run of fields holds each of them, wherever it stands in the body. -/
theorem hasFields_run (l : List (Nat × Nat)) (pre post : List Byte) {o : Nat} (ho : pre.length = o) :
    HasFields (pre ++ (fieldBytes l ++ post)) (fieldsFrom o l) := by
  induction l generalizing pre o with
  | nil => simp [HasFields, fieldsFrom]
  | cons x l ih =>
    obtain ⟨k, n⟩ := x
    have hsplit : pre ++ (fieldBytes ((k, n) :: l) ++ post) = pre ++ (beBytes k n ++ (fieldBytes l ++ post)) := by
      simp [fieldBytes]
    have hrest := ih (pre ++ beBytes k n) (o := o + k) (by simp [ho, beBytes_length])
    intro y hy
    rcases List.mem_cons.1 hy with rfl | hy
    · rw [hsplit]
      refine ⟨?_, ?_⟩
      · simp only [List.length_append, beBytes_length]
        omega
      · rw [drop_take_middle _ _ _ ho (beBytes_length k n), beValue_beBytes]
    · rw [hsplit, ← List.append_assoc]
      exact hrest y hy

theorem hasDecimal_run (k n : Nat) (pre post : List Byte) {o : Nat} (ho : pre.length = o) :
    HasDecimal (pre ++ (bcdBytes k n ++ post)) o k n := by
  unfold HasDecimal
  rw [drop_take_middle _ _ _ ho (bcdBytes_length k n)]
  refine ⟨?_, digitsOk_bcdBytes k n, bcdValue_bcdBytes k n⟩
  simp only [List.length_append, bcdBytes_length]
  omega

theorem HasFields.append {t u : List (Nat × Nat × Nat)} (ht : HasFields bytes t) (hu : HasFields bytes u) :
    HasFields bytes (t ++ u) := fun x hx => (List.mem_append.1 hx).elim (ht x) (hu x)

theorem HasFields.after {t : List (Nat × Nat × Nat)} (h : HasFields bytes t) (post : List Byte) :
    HasFields (bytes ++ post) t := by
  intro x hx
  obtain ⟨hl, hv⟩ := h x hx
  refine ⟨by simp only [List.length_append]; omega, ?_⟩
  rw [← hv, List.drop_append_of_le_length (by omega), List.take_append_of_le_length (by simp only [List.length_drop]; omega)]

theorem fieldBytes_append (l m : List (Nat × Nat)) : fieldBytes (l ++ m) = fieldBytes l ++ fieldBytes m :=
  List.flatMap_append

theorem fieldBytes_length (l : List (Nat × Nat)) : (fieldBytes l).length = (l.map Prod.fst).sum := by
  simp [fieldBytes, List.length_flatMap, beBytes_length]

-- ## One byte of a field

theorem beBytes_one (n : Nat) : beBytes 1 n = [u8 n] := by simp [beBytes, u8]

@[simp] theorem u8_toNat (b : Byte) : u8 b.toNat = b := BitVec.ofNat_toNat 8 b

theorem u8_setWidth {n : Nat} (b : BitVec n) : u8 b.toNat = b.setWidth 8 := by
  rw [u8, BitVec.ofNat_toNat]

@[simp] theorem u8_bitsOf (bs : List Bool) : u8 (bitsOf bs) = bitsByte bs := by
  induction bs with
  | nil => rfl
  | cons b bs ih =>
    have h : bitsByte (b :: bs) = bitsByte bs * 2 + (if b then 1 else 0) := rfl
    rw [h, ← ih]
    apply BitVec.eq_of_toNat_eq
    cases b <;> simp [u8, bitsOf, BitVec.toNat_add, BitVec.toNat_mul] <;> omega

@[simp] theorem bitsByte_singleton (b : Bool) : bitsByte [b] = yesNo b := by cases b <;> rfl

@[simp] theorem u8_optPort (p : Option PortId) : u8 (optPort p) = optPortByte p := by cases p <;> rfl

theorem tickBytes_eq (t : Option Tick) : tickBytes (t.getD 0) = beBytes 4 (tickOf t) := by cases t <;> rfl

theorem fieldBytes_cons (k n : Nat) (l : List (Nat × Nat)) : fieldBytes ((k, n) :: l) = beBytes k n ++ fieldBytes l := rfl

@[simp] theorem fieldBytes_nil : fieldBytes [] = [] := rfl

/-- A list of records of one size holds each of them at its place. -/
theorem flatMap_split {α : Type} {f : α → List Byte} {l : List α} {m n : Nat} {x : α} (hf : ∀ y, (f y).length = m)
    (h : l[n]? = some x) : ∃ pre post, l.flatMap f = pre ++ (f x ++ post) ∧ pre.length = m * n := by
  induction l generalizing n with
  | nil => simp at h
  | cons y l ih =>
    cases n with
    | zero =>
      obtain rfl : y = x := by simpa using h
      exact ⟨[], l.flatMap f, by simp, rfl⟩
    | succ n =>
      obtain ⟨pre, post, hsplit, hlen⟩ := ih (n := n) (by simpa using h)
      refine ⟨f y ++ pre, post, by simp [hsplit], ?_⟩
      rw [List.length_append, hf, hlen]
      ring

-- ## Whole bodies

/-- A body of fields, a packed decimal, and fields again. -/
theorem holds_decimal_between {l m : List (Nat × Nat)} {k n o : Nat} (h : bytes = fieldBytes l ++ (bcdBytes k n ++ fieldBytes m))
    (ho : (l.map Prod.fst).sum = o) {c : Nat} (hc : (m.map Prod.fst).sum = c) : bytes.length = o + k + c ∧
      HasFields bytes (fieldsFrom 0 l ++ fieldsFrom (o + k) m) ∧ HasDecimal bytes o k n := by
  have hl : (fieldBytes l).length = o := (fieldBytes_length l).trans ho
  have hlk : (fieldBytes l ++ bcdBytes k n).length = o + k := by rw [List.length_append, hl, bcdBytes_length]
  have hback := hasFields_run m (fieldBytes l ++ bcdBytes k n) [] hlk
  rw [List.append_nil, List.append_assoc] at hback
  subst h
  refine ⟨?_, HasFields.append (hasFields_run l [] _ rfl) hback, hasDecimal_run k n _ _ hl⟩
  rw [← List.append_assoc, List.length_append, hlk, fieldBytes_length, hc]

/-- A body of fields, a table of records of `w` bytes each, and fields again. -/
theorem holds_table_between {α : Type} {l m : List (Nat × Nat)} {g : α → List (Nat × Nat)} {xs : List α} {w o : Nat}
    (h : bytes = fieldBytes l ++ (xs.flatMap (fun x => fieldBytes (g x)) ++ fieldBytes m))
    (ho : (l.map Prod.fst).sum = o) (hw : ∀ x, ((g x).map Prod.fst).sum = w) {c : Nat}
    (hc : (m.map Prod.fst).sum = c) : bytes.length = o + w * xs.length + c ∧
      HasFields bytes (fieldsFrom 0 l ++ fieldsFrom (o + w * xs.length) m) ∧
      ∀ (n : Nat) (x : α), xs[n]? = some x → HasFields bytes (fieldsFrom (o + w * n) (g x)) := by
  have hl : (fieldBytes l).length = o := (fieldBytes_length l).trans ho
  have hg : ∀ x, (fieldBytes (g x)).length = w := fun x => (fieldBytes_length (g x)).trans (hw x)
  have ht : (xs.flatMap (fun x => fieldBytes (g x))).length = w * xs.length := by
    simp [List.length_flatMap, hg, Nat.mul_comm]
  have hlt : (fieldBytes l ++ xs.flatMap (fun x => fieldBytes (g x))).length = o + w * xs.length := by
    rw [List.length_append, hl, ht]
  have hback := hasFields_run m (fieldBytes l ++ xs.flatMap (fun x => fieldBytes (g x))) [] hlt
  rw [List.append_nil, List.append_assoc] at hback
  subst h
  refine ⟨?_, HasFields.append (hasFields_run l [] _ rfl) hback, fun n x hx => ?_⟩
  · rw [← List.append_assoc, List.length_append, hlt, fieldBytes_length, hc]
  · obtain ⟨pre, post, hsplit, hpre⟩ := flatMap_split (f := fun x => fieldBytes (g x)) hg hx
    have hrun := hasFields_run (g x) (fieldBytes l ++ pre) (post ++ fieldBytes m) (o := o + w * n)
      (by rw [List.length_append, hl, hpre])
    simpa only [hsplit, List.append_assoc] using hrun

-- ## The job notice

/-- The binary fields of a job notice in front of the charge (11.5). -/
def State.noticeFields (s : State) (j : SlotId) : List (Nat × Nat) :=
  let r := s.jobs[j]
  [(1, j.val), (1, r.generation.toNat), (2, r.flags.toNat), (1, r.state.code), (1, WaitReason.code r.reason),
    (1, r.queue.val), (1, r.cursorCopy), (2, r.cursorPage), (1, optPort r.feedPort),
    (1, optPort (r.exclusion.map (fun e => e.port))), (4, tickOf (r.exclusion.map (fun e => e.tick))), (3, r.sheets),
    (3, r.faces), (3, r.proofFaces), (1, r.copiesDone), (1, r.proofsDone)]

theorem jobNotice_eq (s : State) (j : SlotId) (reason : Byte) : s.jobNotice j reason =
    fieldBytes (s.noticeFields j) ++ (chargeBytes s.jobs[j].charge ++
      fieldBytes [(1, bitsOf [s.jobs[j].saturated]), (1, reason.toNat)]) := by
  simp only [State.jobNotice, State.noticeFields, fieldBytes_cons, fieldBytes_nil, beBytes_one, tickBytes_eq, u8_toNat,
    u8_bitsOf, u8_optPort, bitsByte_singleton, List.append_assoc, List.cons_append, List.nil_append]

end Sys2Proof.Machine
end

