-- ==== Sys2Proof/Proofs/Retirement.lean ====
section
/-! SUPPORT. The retirement of a slot (R23, R65), and the notice of a job that is DONE or CANCELLED. -/

namespace Sys2Proof.Machine

open Sys2Proof.Safety

variable {s : State} {j : SlotId} {r k : RecordId} {rs : List RecordId}

-- ## Pages freed

theorem freePage_pages (s : State) (r : RecordId) :
    (s.freePage r).pages = (s.updPage r (fun _ => PageRecord.freeRecord)).pages := rfl

theorem freePage_pages_self (s : State) (r : RecordId) : (s.freePage r).pages[r] = PageRecord.freeRecord := by
  simp only [freePage_pages]
  exact State.updPage_pages_self s r _

theorem freePage_pages_ne (h : k ≠ r) : (s.freePage r).pages[k] = s.pages[k] := by
  simp only [freePage_pages]
  exact State.updPage_pages_ne s r _ k h

/-- Page records are freed, one after the other. -/
def State.freePages (rs : List RecordId) (s : State) : State := rs.foldl (fun t r => t.freePage r) s

theorem freePages_pages_of_mem (h : k ∈ rs) : (s.freePages rs).pages[k] = PageRecord.freeRecord := by
  induction rs generalizing s with
  | nil => simp at h
  | cons r rs ih =>
    by_cases hk : k ∈ rs
    · exact ih hk
    · obtain rfl : k = r := (List.mem_cons.1 h).resolve_right hk
      exact keeps rs (s.freePage k) hk (freePage_pages_self s k)
where
  keeps (rs : List RecordId) (t : State) {k : RecordId} {x : PageRecord} (h : k ∉ rs) (ht : t.pages[k] = x) :
      (t.freePages rs).pages[k] = x := by
    induction rs generalizing t with
    | nil => exact ht
    | cons r rs ih =>
      rw [List.mem_cons, not_or] at h
      exact ih (t.freePage r) h.2 ((freePage_pages_ne h.1).trans ht)

theorem freePages_pages_of_not_mem (h : k ∉ rs) : (s.freePages rs).pages[k] = s.pages[k] :=
  freePages_pages_of_mem.keeps rs s h rfl

/-- The blocks of the freed records stand at the free pool's tail in chain order (R50). -/
theorem freePages_freePool (h : rs.Nodup) :
    (s.freePages rs).freePool = s.freePool ++ rs.flatMap (fun r => s.pages[r].chain) := by
  induction rs generalizing s with
  | nil => simp [State.freePages]
  | cons r rs ih =>
    obtain ⟨hr, hnodup⟩ := List.nodup_cons.1 h
    have hrest : rs.flatMap (fun k => (s.freePage r).pages[k].chain) = rs.flatMap (fun k => s.pages[k].chain) :=
      List.flatMap_congr fun k hk => by rw [freePage_pages_ne (show k ≠ r from fun e => hr (e ▸ hk))]
    have hstep : (s.freePages (r :: rs)).freePool = ((s.freePage r).freePages rs).freePool := rfl
    rw [hstep, ih hnodup, hrest, List.flatMap_cons, ← List.append_assoc]
    rfl

/-- The page records that a job holds: its sealed pages in place order, then its filling page (R65). -/
def Job.held (x : Job) : List RecordId := x.pages.filterMap id ++ x.filling.toList

theorem freeJobPages_eq (s : State) (j : SlotId) : s.freeJobPages j = s.freePages s.jobs[j].held := rfl

-- ## The slot

theorem retire_jobs_self (s : State) (j : SlotId) :
    (s.retire j).jobs[j] = Job.freeSlot (s.jobs[j].generation + 1) := by
  unfold State.retire
  rw [State.updJob_jobs_self, State.updQueue_jobs, (s.freeJobPages_keeps j).part .jobs]

theorem retire_jobs_ne {k : SlotId} (h : k ≠ j) : (s.retire j).jobs[k] = s.jobs[k] := by
  unfold State.retire
  rw [State.updJob_jobs_ne _ _ _ _ h, State.updQueue_jobs, (s.freeJobPages_keeps j).part .jobs]

theorem retire_queues_self (s : State) (j : SlotId) : (s.retire j).queues[s.jobs[j].queue] =
    { s.queues[s.jobs[j].queue] with list := s.queues[s.jobs[j].queue].list.filter (fun k => k != j) } := by
  unfold State.retire
  rw [State.updJob_queues, State.updQueue_queues_self, (s.freeJobPages_keeps j).part .queues]

theorem retire_queues_ne {q : QueueId} (h : q ≠ s.jobs[j].queue) : (s.retire j).queues[q] = s.queues[q] := by
  unfold State.retire
  rw [State.updJob_queues, State.updQueue_queues_ne _ _ _ _ h, (s.freeJobPages_keeps j).part .queues]

theorem retire_pages (s : State) (j : SlotId) : (s.retire j).pages = (s.freePages s.jobs[j].held).pages := rfl

theorem retire_freePool (s : State) (j : SlotId) : (s.retire j).freePool = (s.freePages s.jobs[j].held).freePool := rfl

-- ## The notice

theorem noticeFields_size (s : State) (j : SlotId) : ((s.noticeFields j).map Prod.fst).sum = 27 := by
  simp only [State.noticeFields, List.map_cons, List.map_nil, List.sum_cons, List.sum_nil, Nat.reduceAdd]

theorem jobNoticeOf_notice (s : State) (j : SlotId) : JobNoticeOf s j (s.jobNotice j s.jobs[j].noticeReason) := by
  have hreason : s.jobs[j].noticeReason.toNat = if hasBit s.jobs[j].flags 4 then s.jobs[j].refuseReason.toNat else 0 := by
    rw [Job.noticeReason, apply_ite BitVec.toNat]
    rfl
  obtain ⟨hlen, hfields, hcharge⟩ := holds_decimal_between (jobNotice_eq s j s.jobs[j].noticeReason)
    (noticeFields_size s j) (c := 2) rfl
  rw [hreason] at hfields
  exact ⟨hlen, hcharge, hfields⟩

/-- Settles O10: the boundary composes the notice from the record as it stood, and the slot retires. -/
theorem noticeOfDoneOrCancelledRetires : Obligations.NoticeOfDoneOrCancelledRetires := by
  intro s j rest held hstart hreplies hrestart hnotices hflags hheld hnodup
  have hret : retires s.jobs[j].flags = true := by
    simpa [retires, JobFlag.bit] using hflags
  have hnext : s.boundary = State.retire j
      (State.updJob j Job.reported { s with notices := rest, onLink := some (s.notice (.job j)) }) :=
    (boundary_notice s hreplies hrestart hnotices).trans (if_pos hret)
  generalize hu : State.updJob j Job.reported { s with notices := rest, onLink := some (s.notice (.job j)) } = u at hnext
  have hjob : u.jobs[j] = s.jobs[j].reported := by rw [← hu, State.updJob_jobs_self]
  have hothers : ∀ k : SlotId, k ≠ j → u.jobs[k] = s.jobs[k] := fun k hk => by rw [← hu, State.updJob_jobs_ne _ _ _ _ hk]
  have hqueue : u.jobs[j].queue = s.jobs[j].queue := by rw [hjob]; rfl
  have hu0 : KeepsAllBut [.notices, .onLink, .jobs] s u := by
    intro x hx
    subst hu
    cases x <;> first | rfl | simp at hx
  have hqueues : u.queues = s.queues := hu0.part .queues
  have hheld' : u.jobs[j].held = held := by rw [hjob, hheld]; rfl
  have hlink : u.notices = rest ∧ u.onLink = some (s.notice (.job j)) := by subst hu; exact ⟨rfl, rfl⟩
  have hkeeps := u.retire_keeps j
  refine ⟨_, (exec_frameBoundary s hstart (.inr hrestart)).trans (congrArg _ hnext), (hkeeps.part .notices).trans hlink.1,
    ⟨_, (hkeeps.part .onLink).trans hlink.2, jobNoticeOf_notice s j⟩, ?_, fun k hk => (retire_jobs_ne hk).trans (hothers k hk),
    ?_, fun q hq => ?_, fun r hr => ?_, fun r hr => ?_, ?_, (hu0.trans hkeeps).mono⟩
  · rw [retire_jobs_self, hjob]
    rfl
  · have h := retire_queues_self u j
    simp only [hqueue, hqueues] at h
    exact h
  · rw [retire_queues_ne (hqueue ▸ hq), hqueues]
  · rw [retire_pages, hheld']
    exact freePages_pages_of_mem hr
  · rw [retire_pages, hheld', freePages_pages_of_not_mem hr, hu0.part .pages]
  · rw [retire_freePool, hheld', freePages_freePool hnodup, hu0.part .pages, hu0.part .freePool]

end Sys2Proof.Machine
end

