-- ==== Sys2Proof/Proofs/QueryReplies.lean ====
section
/-! SUPPORT. The queries (R21, R48, R66, R109, R113, R142, R164, R179): the body of each reply, field by field. -/

namespace Sys2Proof.Machine

open Sys2Proof.Safety

variable {s : State} {kind tag : Byte} {body : List Byte} {j : SlotId} {q : QueueId} {p : PortId} {a : AlertId}

/-- A taken query that passes its checks answers its fields and changes nothing. -/
theorem completes_query {c : Instr} {encoded : Bool} {judge : State → Judged} {fields : List Byte}
    {post : List Byte → Prop} (hc : exec c s = .next (s.request kind tag body encoded judge)) (h : Takes s kind tag body)
    (he : encoded = true) (hj : judge s.popInbox = ok s.popInbox fields) (hp : post fields) :
    Completes c s (fun t => KeepsAllBut [.inbox, .replies] s t ∧ ∃ fields, Replied s t kind tag 0x00 fields ∧ post fields) :=
  completes_ok hc h he hj (.refl [] _) fun hr hk => ⟨hk, fields, hr, hp⟩

/-- Two tables with the same offsets, sizes and values. -/
theorem HasFields.congr {bytes : List Byte} {t u : List (Nat × Nat × Nat)} (h : HasFields bytes t) (e : t = u) :
    HasFields bytes u := e ▸ h

-- ## QUERY_JOB

/-- The fields of a QUERY_JOB reply behind the charge (11.5). -/
def Job.replyFields (x : Job) : List (Nat × Nat) :=
  [(1, bitsOf [x.saturated]), (1, x.refuseReason.toNat), (1, x.account.val), (1, bitsOf [x.stream, x.rush, x.double]),
    (1, x.copies), (1, x.finishing), (2, x.waitSet.toNat), (2, x.giveSet.toNat),
    (1, bitsOf [x.closed, x.started, x.proofRun]), (2, x.pages.length), (1, bitsOf [x.filling.isSome]),
    (1, x.needsMedia.toNat), (1, bitsOf [x.needsColour, x.needsDuplex]), (2, x.portsUsed.toNat), (4, x.admitted.toNat)]

theorem jobReply_eq (s : State) (j : SlotId) : s.jobReply j =
    fieldBytes (s.noticeFields j) ++ (bcdBytes 6 s.jobs[j].charge ++ fieldBytes s.jobs[j].replyFields) := by
  simp only [State.jobReply, jobNotice_eq, Job.replyFields, fieldBytes_cons, fieldBytes_nil, beBytes_one, u8_toNat,
    u8_bitsOf, bitsByte_singleton, List.append_assoc, List.cons_append, List.nil_append, List.append_nil, tickBytes,
    chargeBytes]

theorem replyFields_size (x : Job) : (x.replyFields.map Prod.fst).sum = 22 := by
  simp only [Job.replyFields, List.map_cons, List.map_nil, List.sum_cons, List.sum_nil, Nat.reduceAdd]

-- ## QUERY_QUEUE

/-- The fields of a QUERY_QUEUE reply in front of the list (11.5). -/
def State.queueFields (s : State) (q : QueueId) : List (Nat × Nat) :=
  let x := s.queues[q]
  let r := s.rings[q]
  [(1, x.mode.code), (1, x.dispatch.code), (1, bitsOf [x.rotate, x.reroute]), (2, x.received.toNat), (2, x.list.length),
    (2, (x.list.filter (fun j => s.busyJob j)).length), (1, r.first), (1, r.last), (1, r.current), (1, bitsOf [r.pinned])]

/-- The fields of one job of a QUERY_QUEUE reply (11.5). -/
def State.listedFields (s : State) (j : SlotId) : List (Nat × Nat) :=
  [(1, j.val), (1, s.jobs[j].generation.toNat), (1, s.jobs[j].state.code), (1, WaitReason.code s.jobs[j].reason)]

theorem queueReply_eq (s : State) (q : QueueId) : s.queueReply q =
    fieldBytes (s.queueFields q) ++ (s.queues[q].list.flatMap (fun j => fieldBytes (s.listedFields j)) ++ fieldBytes []) := by
  simp only [State.queueReply, State.queueFields, State.listedFields, Ring.bytes, fieldBytes_cons, fieldBytes_nil,
    beBytes_one, u8_toNat, u8_bitsOf, bitsByte_singleton, List.append_assoc, List.cons_append, List.nil_append,
    List.append_nil]

-- ## QUERY_PORT

/-- The fields of a QUERY_PORT reply in front of the window (11.5). -/
def State.portFields (s : State) (p : PortId) : List (Nat × Nat) :=
  let x := s.ports[p]
  [(1, x.link.code), (1, DownCause.code x.downCause), (1, x.rate.code), (1, x.depth), (1, bitsOf [x.ident.isSome]),
    (1, ((x.ident.map (fun i => i.classCode.toNat)).getD 0)),
    (1, ((x.ident.map (fun i => bitsOf [i.colour, i.duplex, i.fastCapable])).getD 0)),
    (1, ((x.ident.map (fun i => i.media.toNat)).getD 0)), (1, ((x.ident.map (fun i => i.depth)).getD 0)),
    (1, bitsOf [x.inService, x.holdAsked, x.releaseOwed]), (1, (s.service p).code), (1, x.status.toNat),
    (1, x.loaded.val), (1, bitsOf [x.feedOwner.isSome]), (1, ((x.feedOwner.map (fun j => j.val)).getD 0)),
    (1, ((x.feedOwner.map (fun j => s.jobs[j].generation.toNat)).getD 0)), (1, ((x.setup.map (fun m => m.val)).getD 255)),
    (1, bitsOf [x.stallReported]), (2, x.nextSerial.toNat), (1, x.window.length)]

/-- The fields of one window entry (11.5). -/
def State.entryFields (s : State) (e : SendEntry) : List (Nat × Nat) :=
  [(2, e.serial.toNat), (1, e.job.val), (1, s.jobs[e.job].generation.toNat), (2, e.place), (1, e.copy), (1, e.faces),
    (1, e.colour.code), (1, e.state.code), (1, bitsOf [e.ended])]

/-- The running mark and the expiry tick of a timer (11.5). -/
def timerFields (t : Option Tick) : List (Nat × Nat) := [(1, bitsOf [t.isSome]), (4, tickOf t)]

theorem timerBytes_eq (t : Option Tick) : timerBytes t = fieldBytes (timerFields t) := by
  cases t <;> simp [timerBytes, timerFields, tickBytes, tickOf, fieldBytes_cons, beBytes_one, yesNo]

theorem identBytes_eq (i : Option Ident) : identBytes i = fieldBytes
    [(1, ((i.map (fun i => i.classCode.toNat)).getD 0)),
      (1, ((i.map (fun i => bitsOf [i.colour, i.duplex, i.fastCapable])).getD 0)),
      (1, ((i.map (fun i => i.media.toNat)).getD 0)), (1, ((i.map (fun i => i.depth)).getD 0))] := by
  cases i with
  | none => rfl
  | some i => simp [identBytes, fieldBytes_cons, beBytes_one]

theorem u8_zero : u8 0 = 0 := rfl

theorem u8_absent : u8 255 = 0xFF := rfl

theorem entryBytes_eq (s : State) (e : SendEntry) : s.entryBytes e = fieldBytes (s.entryFields e) := by
  simp only [State.entryBytes, State.entryFields, fieldBytes_cons, fieldBytes_nil, beBytes_one, u8_toNat, u8_bitsOf,
    bitsByte_singleton, List.append_assoc, List.cons_append, List.nil_append, List.append_nil]

theorem portReply_eq (s : State) (p : PortId) : s.portReply p = fieldBytes (s.portFields p) ++
    (s.ports[p].window.flatMap (fun e => fieldBytes (s.entryFields e)) ++
      fieldBytes (timerFields s.ports[p].starveTimer ++ timerFields s.ports[p].setupTimer)) := by
  have hentry : s.entryBytes = fun e => fieldBytes (s.entryFields e) := funext (entryBytes_eq s)
  cases hsetup : s.ports[p].setup <;> cases howner : s.ports[p].feedOwner <;>
    simp only [State.portReply, State.portFields, hentry, hsetup, howner, timerBytes_eq, identBytes_eq,
      fieldBytes_append, fieldBytes_cons, fieldBytes_nil, beBytes_one, u8_toNat, u8_bitsOf, bitsByte_singleton,
      u8_setWidth, u8_zero, u8_absent, Option.map_none, Option.map_some, Option.getD_none, Option.getD_some,
      List.append_assoc, List.cons_append, List.nil_append, List.append_nil]

-- ## TARIFF_READ

/-- The stored value of a tariff item, a surcharge with a second value of 0 (11.5). -/
def TariffPage.stored (x : TariffPage) : TariffItem → Option (Nat × Nat)
  | .rate k => x.rates[k].map (fun r => (r.front, r.back))
  | .surcharge k => x.surcharges[k].map (fun n => (n, 0))

/-- The nine bytes of a tariff value (11.5). -/
def valueBytes (v : Option (Nat × Nat)) : List Byte :=
  fieldBytes [(1, bitsOf [v.isNone])] ++ (bcdBytes 4 (v.getD (0, 0)).1 ++ bcdBytes 4 (v.getD (0, 0)).2)

theorem rateBytes_eq (r : Option RatePair) : rateBytes r = valueBytes (r.map (fun r => (r.front, r.back))) := by
  cases r <;> simp [rateBytes, valueBytes, amountBytes, fieldBytes_cons, beBytes_one, yesNo]

theorem surchargeBytes_eq (n : Option Nat) : surchargeBytes n = valueBytes (n.map (fun n => (n, 0))) := by
  cases n <;> simp [surchargeBytes, valueBytes, amountBytes, fieldBytes_cons, beBytes_one, yesNo]

theorem itemBytes_eq (x : TariffPage) (item : TariffItem) : x.itemBytes item = valueBytes (x.stored item) := by
  cases item with
  | rate k => exact rateBytes_eq _
  | surcharge k => exact surchargeBytes_eq _

theorem lookupRate_eq (s : State) (g : Fin 8) (k : Fin 24) :
    s.lookupRate g k = s.tariffs[g].rates[k].getD ((s.tariffs[(7 : Fin 8)].rates[k]).getD { front := 0, back := 0 }) := by
  unfold State.lookupRate standingPage
  cases s.tariffs[g].rates[k] <;> rfl

theorem lookupSurcharge_eq (s : State) (g : Fin 8) (k : Fin 3) :
    s.lookupSurcharge g k = s.tariffs[g].surcharges[k].getD ((s.tariffs[(7 : Fin 8)].surcharges[k]).getD 0) := by
  unfold State.lookupSurcharge standingPage
  cases s.tariffs[g].surcharges[k] <;> rfl

/-- The resolved value of an item: the stored one, or where it is BLANK the standing page's, or 0 (R113 to R115). -/
def State.resolved (s : State) (g : Fin 8) (item : TariffItem) : Nat × Nat :=
  (s.tariffs[g].stored item).getD ((s.tariffs[(7 : Fin 8)].stored item).getD (0, 0))

theorem resolvedBytes_eq (s : State) (g : Fin 8) (item : TariffItem) :
    s.resolvedBytes g item = valueBytes (some (s.resolved g item)) := by
  cases item with
  | rate k =>
    simp only [State.resolvedBytes, State.resolved, TariffPage.stored, lookupRate_eq, rateBytes_eq]
    cases s.tariffs[g].rates[k] <;> cases s.tariffs[(7 : Fin 8)].rates[k] <;> rfl
  | surcharge k =>
    simp only [State.resolvedBytes, State.resolved, TariffPage.stored, lookupSurcharge_eq, surchargeBytes_eq]
    cases s.tariffs[g].surcharges[k] <;> cases s.tariffs[(7 : Fin 8)].surcharges[k] <;> rfl

theorem colour_ofCode (c : Colour) : Colour.ofCode c.code = some c := by cases c <;> rfl

theorem itemOf_rate {x y : Byte} {m : Media} {c : Colour} (hm : x.toNat = m.val) (hc : y.toNat = c.code) :
    itemOf 0 x y = some (.rate (rateKey m c)) := by
  simp [itemOf, mediaOf_eq hm, hc, colour_ofCode]

theorem itemOf_surcharge {x y : Byte} {k : Fin 3} (hk : x.toNat = k.val + 1) : itemOf 1 x y = some (.surcharge k) := by
  simp [itemOf, hk]

/-- The two values of a TARIFF_READ reply (11.5). -/
theorem values_hold (v w : Option (Nat × Nat)) : (valueBytes v ++ valueBytes w).length = 18 ∧
    HasFields (valueBytes v ++ valueBytes w) [(0, 1, bitsOf [v.isNone]), (9, 1, bitsOf [w.isNone])] ∧
    HasDecimal (valueBytes v ++ valueBytes w) 1 4 (v.getD (0, 0)).1 ∧
    HasDecimal (valueBytes v ++ valueBytes w) 5 4 (v.getD (0, 0)).2 ∧
    HasDecimal (valueBytes v ++ valueBytes w) 10 4 (w.getD (0, 0)).1 ∧
    HasDecimal (valueBytes v ++ valueBytes w) 14 4 (w.getD (0, 0)).2 := by
  have hmark : ∀ u : Option (Nat × Nat), (fieldBytes [(1, bitsOf [u.isNone])]).length = 1 := fun u => rfl
  have hfour : ∀ n : Nat, (bcdBytes 4 n).length = 4 := bcdBytes_length 4
  have hnine : (valueBytes v).length = 9 := by simp only [valueBytes, List.length_append, hmark, hfour]
  refine ⟨by simp only [valueBytes, List.length_append, hmark, hfour], HasFields.append (t := [_]) (u := [_]) ?_ ?_, ?_, ?_,
    ?_, ?_⟩
  · exact hasFields_run [(1, bitsOf [v.isNone])] [] _ rfl
  · exact hasFields_run [(1, bitsOf [w.isNone])] (valueBytes v) _ hnine
  · have h := hasDecimal_run 4 (v.getD (0, 0)).1 (fieldBytes [(1, bitsOf [v.isNone])])
      (bcdBytes 4 (v.getD (0, 0)).2 ++ valueBytes w) (hmark v)
    simpa only [valueBytes, List.append_assoc] using h
  · have h := hasDecimal_run 4 (v.getD (0, 0)).2 (fieldBytes [(1, bitsOf [v.isNone])] ++ bcdBytes 4 (v.getD (0, 0)).1)
      (valueBytes w) (o := 5) (by rw [List.length_append, hmark, hfour])
    simpa only [valueBytes, List.append_assoc] using h
  · have h := hasDecimal_run 4 (w.getD (0, 0)).1 (valueBytes v ++ fieldBytes [(1, bitsOf [w.isNone])])
      (bcdBytes 4 (w.getD (0, 0)).2) (o := 10) (by rw [List.length_append, hnine, hmark])
    simpa only [valueBytes, List.append_assoc] using h
  · have h := hasDecimal_run 4 (w.getD (0, 0)).2
      (valueBytes v ++ (fieldBytes [(1, bitsOf [w.isNone])] ++ bcdBytes 4 (w.getD (0, 0)).1)) [] (o := 14)
      (by rw [List.length_append, List.length_append, hnine, hmark, hfour])
    simpa only [valueBytes, List.append_assoc, List.append_nil] using h

-- ## QUERY_ACCOUNT

/-- The fields of an account record in front of the charge (11.5). -/
def Account.fields (x : Account) : List (Nat × Nat) :=
  [(1, bitsOf [x.enabled, x.unmetered]), (1, x.group.val), (2, x.discount), (3, x.allowance), (3, x.reserved),
    (3, x.periodFaces)]

theorem accountBytes_eq (x : Account) :
    x.bytes = fieldBytes x.fields ++ (bcdBytes 6 x.periodCharge ++ fieldBytes [(1, bitsOf [x.saturated])]) := by
  simp only [Account.bytes, Account.fields, chargeBytes, fieldBytes_cons, fieldBytes_nil, beBytes_one, u8_bitsOf,
    bitsByte_singleton, List.append_assoc, List.cons_append, List.nil_append]

-- ## QUERY_ALERTS

/-- The fields of an open alert in front of the handles of the affected jobs (11.5). -/
def State.alertFields (s : State) (a : AlertId) : List (Nat × Nat) :=
  let x := s.alerts[a]
  [(1, a.val), (1, 0), (1, bitsOf [x.isOpen]), (1, AlertKind.code x.primary), (1, x.additional.toNat),
    (1, x.standing.toNat), (1, x.location.toNat), (4, x.raised.toNat), (1, x.level),
    (1, bitsOf [x.acknowledged, x.attendant, x.hostReleased]), (1, x.repeats), (1, x.affected.length)]

/-- The fields of a handle (11.2). -/
def handleFields (h : Handle) : List (Nat × Nat) := [(1, h.slot.val), (1, h.generation.toNat)]

/-- The expiry tick that an open alert's record shows; the `n`-th free value if its timer is stopped (11.5). -/
def State.shownExpiry (s : State) (n : Nat) (a : AlertId) : Nat :=
  ((s.alerts[a].timer).getD (Config.stoppedExpiry n a.val)).toNat

/-- The record of one open alert in a QUERY_ALERTS reply (R164). -/
def State.alertRecord (s : State) (a : AlertId) : List Byte := s.alertBytes a 0 ++ s.escalationBytes s.freeCount a

theorem escalationBytes_eq (s : State) (n : Nat) (a : AlertId) :
    s.escalationBytes n a = fieldBytes [(4, s.shownExpiry n a), (1, bitsOf [s.alerts[a].timer.isSome])] := by
  unfold State.escalationBytes State.shownExpiry
  cases s.alerts[a].timer <;> simp [tickBytes, fieldBytes_cons, beBytes_one, yesNo]

theorem alertRecord_eq (s : State) (a : AlertId) : s.alertRecord a = fieldBytes (s.alertFields a) ++
    (s.alerts[a].affected.flatMap (fun h => fieldBytes (handleFields h)) ++
      fieldBytes [(4, s.shownExpiry s.freeCount a), (1, bitsOf [s.alerts[a].timer.isSome])]) := by
  simp only [State.alertRecord, State.alertBytes, State.alertFields, escalationBytes_eq, handleFields, tickBytes,
    fieldBytes_cons, fieldBytes_nil, beBytes_one, u8_toNat, u8_bitsOf, bitsByte_singleton, u8_setWidth, u8_zero,
    List.append_assoc, List.cons_append, List.nil_append, List.append_nil]

-- ## QUERY_STORE and QUERY_PART

/-- The fields of a QUERY_STORE reply (11.5). -/
def State.storeFields (s : State) : List (Nat × Nat) :=
  [(4, s.freePool.length), (2, (s.recordsIn .free).length), (2, (s.recordsIn .filling).length),
    (2, (s.recordsIn .sealed).length), (4, chainedBlocks (s.recordsIn .filling)), (4, chainedBlocks (s.recordsIn .sealed))]

theorem storeReply_eq (s : State) : s.storeReply = fieldBytes s.storeFields := by
  simp only [State.storeReply, State.storeFields, fieldBytes_cons, fieldBytes_nil, List.append_assoc, List.append_nil]

/-- The fields of a QUERY_PART reply (11.5). -/
def State.partFields (s : State) : List (Nat × Nat) :=
  [(2, 3), (1, s.startCause.code), (4, s.clock.toNat), (1, s.timers.starve), (2, s.timers.setupStall),
    (2, s.timers.escalation1), (2, s.timers.escalation2), (2, s.timers.reroute), (2, s.freeSlots), (2, s.notices.length),
    (1, s.inbox.length), (1, s.replies.length)]

theorem partReply_eq (s : State) : s.partReply = fieldBytes s.partFields := by
  simp only [State.partReply, State.partFields, Config.revision, tickBytes, TimerSettings.bytes, fieldBytes_cons,
    fieldBytes_nil, beBytes_one, List.append_assoc, List.cons_append, List.nil_append]

-- ## The replies

theorem busyJob_iff (s : State) (j : SlotId) : s.busyJob j = (s.jobs[j].feedPort.isSome ||
    (List.finRange 16).any (fun p => s.ports[p].window.any (fun e => e.job == j))) := by
  have h : s.hasEntries j = (List.finRange 16).any (fun p => s.ports[p].window.any (fun e => e.job == j)) := by
    rw [Bool.eq_iff_iff, State.hasEntries, State.entryPort, List.find?_isSome, List.any_eq_true]
    rfl
  rw [State.busyJob, h]

theorem queueReply_holds (s : State) (q : QueueId) {r : Nat} (hr : r = s.queues[q].list.length) :
    (s.queueReply q).length = 13 + 4 * r ∧ HasFields (s.queueReply q) (fieldsFrom 0 (s.queueFields q)) ∧
    ∀ (n : Nat) (j : SlotId), s.queues[q].list[n]? = some j → HasFields (s.queueReply q) [(13 + 4 * n, 1, j.val),
      (14 + 4 * n, 1, s.jobs[j].generation.toNat), (15 + 4 * n, 1, s.jobs[j].state.code),
      (16 + 4 * n, 1, WaitReason.code s.jobs[j].reason)] := by
  obtain ⟨hlength, hfields, hlisted⟩ := holds_table_between (queueReply_eq s q) (o := 13) (w := 4) (c := 0)
    (by rfl) (fun _ => rfl) rfl
  subst hr
  refine ⟨hlength, HasFields.congr hfields (List.append_nil _), fun n j hj => HasFields.congr (hlisted n j hj) ?_⟩
  simp only [fieldsFrom, State.listedFields, List.cons.injEq, Prod.mk.injEq, and_true, true_and]
  omega

theorem portReply_holds (s : State) (p : PortId) {n : Nat} (hn : n = 11 * s.ports[p].window.length) :
    (s.portReply p).length = 31 + n ∧
    HasFields (s.portReply p) (fieldsFrom 0 (s.portFields p) ++ [(21 + n, 1, bitsOf [s.ports[p].starveTimer.isSome]),
      (22 + n, 4, tickOf s.ports[p].starveTimer), (26 + n, 1, bitsOf [s.ports[p].setupTimer.isSome]),
      (27 + n, 4, tickOf s.ports[p].setupTimer)]) ∧
    ∀ (k : Nat) (e : SendEntry), s.ports[p].window[k]? = some e → HasFields (s.portReply p) [
      (21 + 11 * k, 2, e.serial.toNat), (23 + 11 * k, 1, e.job.val), (24 + 11 * k, 1, s.jobs[e.job].generation.toNat),
      (25 + 11 * k, 2, e.place), (27 + 11 * k, 1, e.copy), (28 + 11 * k, 1, e.faces), (29 + 11 * k, 1, e.colour.code),
      (30 + 11 * k, 1, e.state.code), (31 + 11 * k, 1, bitsOf [e.ended])] := by
  obtain ⟨hlength, hfields, hentries⟩ := holds_table_between (portReply_eq s p) (o := 21) (w := 11) (c := 10)
    (by simp [State.portFields]) (fun _ => by simp [State.entryFields]) (by simp [timerFields])
  subst hn
  refine ⟨by omega, HasFields.congr hfields ?_, fun k e he => HasFields.congr (hentries k e he) ?_⟩
  · simp only [fieldsFrom, timerFields, List.cons_append, List.nil_append, List.append_cancel_left_eq, List.cons.injEq,
      Prod.mk.injEq, and_true, true_and]
    omega
  · simp only [fieldsFrom, State.entryFields, List.cons.injEq, Prod.mk.injEq, and_true, true_and]
    omega

theorem alertRecord_holds (s : State) (a : AlertId) {n : Nat} (hn : n = 2 * s.alerts[a].affected.length) :
    (s.alertRecord a).length = 20 + n ∧
    HasFields (s.alertRecord a) (fieldsFrom 0 (s.alertFields a) ++ [(19 + n, 1, bitsOf [s.alerts[a].timer.isSome])]) ∧
    HasFields (s.alertRecord a) [(15 + n, 4, s.shownExpiry s.freeCount a)] ∧
    ∀ (i : Nat) (h : Handle), s.alerts[a].affected[i]? = some h → HasFields (s.alertRecord a) [
      (15 + 2 * i, 1, h.slot.val), (16 + 2 * i, 1, h.generation.toNat)] := by
  obtain ⟨hlength, hfields, hhandles⟩ := holds_table_between (alertRecord_eq s a) (o := 15) (w := 2) (c := 5)
    (by rfl) (fun _ => rfl) rfl
  subst hn
  have hback : fieldsFrom (15 + 2 * s.alerts[a].affected.length)
      [(4, s.shownExpiry s.freeCount a), (1, bitsOf [s.alerts[a].timer.isSome])] =
      [(15 + 2 * s.alerts[a].affected.length, 4, s.shownExpiry s.freeCount a),
        (19 + 2 * s.alerts[a].affected.length, 1, bitsOf [s.alerts[a].timer.isSome])] := by
    simp only [fieldsFrom, List.cons.injEq, Prod.mk.injEq, and_true, true_and]
    omega
  rw [hback] at hfields
  refine ⟨by omega, fun x hx => hfields x ?_, fun x hx => hfields x ?_, fun i h hi => HasFields.congr (hhandles i h hi) ?_⟩
  · simp only [List.mem_append, List.mem_cons] at hx ⊢
    tauto
  · simp only [List.mem_append, List.mem_cons] at hx ⊢
    tauto
  · simp only [fieldsFrom, handleFields, List.cons.injEq, Prod.mk.injEq, and_true, true_and]
    omega

/-- A body that is one run of fields holds them. -/
theorem run_holds {bytes : List Byte} {l : List (Nat × Nat)} (h : bytes = fieldBytes l) {n : Nat}
    (hn : (l.map Prod.fst).sum = n) : bytes.length = n ∧ HasFields bytes (fieldsFrom 0 l) := by
  have hrun := hasFields_run l [] [] rfl
  rw [List.append_nil, List.nil_append, ← h] at hrun
  exact ⟨by rw [h, fieldBytes_length, hn], hrun⟩

theorem recordsIn_eq (s : State) (c : PageState) : s.recordsIn c = s.pages.toList.filter (fun r => r.state == c) := rfl

theorem alertsReply_eq (s : State) :
    s.alertsReply = yesNo s.alarm :: u8 s.openAlerts.length :: (s.openAlerts.map s.alertRecord).flatten := by
  rw [← List.flatMap_def]
  rfl

theorem tariffRead_item {g : Fin 8} {item : TariffItem} (hg : (byteAt body 0).toNat = g.val)
    (hitem : tariffItemOf body = some item) : judgeTariffRead body s =
      ok s (valueBytes (s.tariffs[g].stored item) ++ valueBytes (some (s.resolved g item))) := by
  rw [judgeTariffRead, groupOf_eq hg, orRange_some, hitem, orRange_some, itemBytes_eq, resolvedBytes_eq]

/-- Settles O23: each reply is a run of fields, laid out by its `_eq` lemma. -/
theorem queriesReadAndChangeNothing : Obligations.QueriesReadAndChangeNothing := by
  intro s tag body
  refine ⟨fun j x ht hlen hn hx => ?_, fun q x r ht hlen hq hx hr => ?_, fun p x n ht hlen hp hx hn => ?_,
    fun g stored resolved ht hlen hg hitem => ?_, fun a x ht hlen ha hx => ?_, fun ht => ?_, fun count hcount ht => ?_,
    fun ht => ?_⟩
  · subst hx
    exact completes_query rfl ht ((sized_iff 2).2 hlen) (withHandle_names (s := s.popInbox) hn _)
      (holds_decimal_between (jobReply_eq s.popInbox j) (noticeFields_size s.popInbox j) (replyFields_size _))
  · subst hx hr
    refine completes_query rfl ht ((sized_iff 1).2 hlen) (by rw [judgeQueryQueue, queueOf_eq hq, orRange_some]) ?_
    simp only [← busyJob_iff]
    exact queueReply_holds s.popInbox q rfl
  · subst hx
    exact completes_query rfl ht ((sized_iff 1).2 hlen) (by rw [judgeQueryPort, portOf_eq hp, orRange_some])
      (portReply_holds s.popInbox p hn)
  · have hread : ∃ item, tariffItemOf body = some item ∧ stored = s.tariffs[g].stored item ∧ resolved = s.resolved g item := by
      rcases hitem with ⟨m, c, h0, hm, hc, rfl, rfl⟩ | ⟨k, h1, hk, rfl, rfl⟩
      · exact ⟨_, by rw [tariffItemOf, h0]; exact itemOf_rate hm hc, rfl, rfl⟩
      · exact ⟨_, by rw [tariffItemOf, h1]; exact itemOf_surcharge hk, rfl, rfl⟩
    clear hitem
    obtain ⟨item, hitem, rfl, rfl⟩ := hread
    exact completes_query rfl ht ((sized_iff 4).2 hlen) (tariffRead_item hg hitem)
      (values_hold (s.tariffs[g].stored item) (some (s.resolved g item)))
  · subst hx
    exact completes_query rfl ht ((sized_iff 1).2 hlen) (by rw [judgeQueryAccount, accountOf_eq ha, orRange_some]; rfl)
      (holds_decimal_between (accountBytes_eq s.accounts[a]) (o := 13) (by rfl) (c := 1) rfl)
  · refine completes_ok (parts := [.freeCount]) rfl ht rfl rfl ?_ fun hr hk => ⟨hk, s.openAlerts.map s.alertRecord, ?_,
      List.length_map _, fun k a x fields n ha hfields hx hn => ?_⟩
    · exact judgeQueryAlerts_keeps (s := s.popInbox)
    · rw [alertsReply_eq] at hr
      exact hr
    · subst hx
      obtain rfl : s.alertRecord a = fields := by simpa [ha] using hfields
      obtain ⟨hlength, hall, hexpiry, hhandles⟩ := alertRecord_holds s a hn
      refine ⟨hlength, hall, fun e he => ?_, hhandles⟩
      rw [State.shownExpiry, he] at hexpiry
      exact hexpiry
  · simp only [hcount, ← recordsIn_eq]
    exact completes_query rfl ht rfl rfl (run_holds (storeReply_eq s.popInbox) (n := 18) (by rfl))
  · have hinbox : s.inbox.length - 1 = s.popInbox.inbox.length := (List.length_tail).symm
    rw [hinbox]
    exact completes_query rfl ht rfl rfl (run_holds (partReply_eq s.popInbox) (n := 22) (by rfl))

end Sys2Proof.Machine
end

