-- ==== Sys2Proof/Proofs/Cancel.lean ====
section
/-! SUPPORT. What CANCEL_JOB does (R15, R16, R96, R104): the feed released, the STREAMING entry aborted, and CANCELLED at
once for a job without entries. -/

namespace Sys2Proof.Machine

open Sys2Proof.Safety

variable {s t u : State} {tag : Byte} {body : List Byte} {j k : SlotId} {p q : PortId} {ms : List PressMessage}

-- ## What a job's entries and a send in progress depend on

theorem hasEntries_any (s : State) (j : SlotId) :
    s.hasEntries j = (List.finRange 16).any (fun p => (s.ports[p].window.map SendEntry.job).any (fun k => k == j)) := by
  rw [Bool.eq_iff_iff, State.hasEntries, State.entryPort, List.find?_isSome, List.any_eq_true]
  simp only [State.holdsEntry, List.any_map]
  rfl

/-- Whether a job has entries depends on the jobs of the window entries alone. -/
theorem hasEntries_congr (h : ∀ q : PortId, t.ports[q].window.map SendEntry.job = s.ports[q].window.map SendEntry.job)
    (j : SlotId) : t.hasEntries j = s.hasEntries j := by
  simp only [hasEntries_any, h]

/-- What a stopped send leaves on the link depends on the send, the page lists and the page bytes alone (R183). -/
theorem CutShort.of_same (h : CutShort u p ms) (hport : u.ports[p].sendingEntry = s.ports[p].sendingEntry)
    (hjobs : ∀ k : SlotId, u.jobs[k].pages = s.jobs[k].pages) (hpages : u.pages = s.pages) (hdram : u.dram = s.dram) :
    CutShort s p ms := by
  obtain ⟨n, hn⟩ := h
  have hat : ∀ (k : SlotId) (i : Nat), u.jobs[k].pageAt i = s.jobs[k].pageAt i := fun k i => by
    simp only [Job.pageAt, hjobs k]
  have hread : ∀ r, u.readOut r = s.readOut r := fun r => by simp only [State.readOut, hpages, hdram]
  simp only [hport, hat, hread] at hn
  exact ⟨n, hn⟩

-- ## The STREAMING entry aborted

theorem abortStreaming_none (h : s.ports[p].window.find? (fun e => e.state == .streaming) = none) :
    s.abortStreaming p = s := by
  simp only [State.abortStreaming, h]

theorem abortStreaming_some {e : SendEntry} (h : s.ports[p].window.find? (fun e => e.state == .streaming) = some e) :
    s.abortStreaming p = ((if e.ended then s else s.stopSend p).updPort p (fun x => { x with
      window := x.window.map (fun y => if y.state = .streaming then { y with state := .aborting } else y) })).press p
        (.abort e.serial) := by
  simp only [State.abortStreaming, h]

/-- A port without a STREAMING entry has none to abort. -/
theorem map_abort_of_none {w : List SendEntry} (h : w.find? (fun e => e.state == .streaming) = none) :
    w.map (fun e => if e.state = .streaming then { e with state := .aborting } else e) = w := by
  refine (List.map_congr_left fun e he => if_neg ?_).trans (List.map_id w)
  simpa using List.find?_eq_none.1 h e he

theorem abortStreaming_ports_self (s : State) (p : PortId) : (s.abortStreaming p).ports[p] = { s.ports[p] with
    window := s.ports[p].window.map (fun e => if e.state = .streaming then { e with state := .aborting } else e)
    sending := match s.ports[p].window.find? (fun e => e.state == .streaming) with
      | none => s.ports[p].sending
      | some e => if e.ended then s.ports[p].sending else none } := by
  cases h : s.ports[p].window.find? (fun e => e.state == .streaming) with
  | none => rw [abortStreaming_none h, map_abort_of_none h]
  | some e =>
    rw [abortStreaming_some h]
    cases hended : e.ended <;> simp [hended]

theorem abortStreaming_ports_ne (h : q ≠ p) : (s.abortStreaming p).ports[q] = s.ports[q] := by
  cases hf : s.ports[p].window.find? (fun e => e.state == .streaming) with
  | none => rw [abortStreaming_none hf]
  | some e =>
    rw [abortStreaming_some hf, State.press_ports, State.updPort_ports_ne _ _ _ _ h]
    split
    · rfl
    · exact s.stopSend_ports_ne _ _ h

/-- An aborted port has put on its link what the stopped send left, and then the ABORT (R96, R183). -/
theorem abortStreaming_sent {e : SendEntry} (h : s.ports[p].window.find? (fun e => e.state == .streaming) = some e) :
    ∃ cut, (e.ended = true → cut = []) ∧ CutShort s p cut ∧ Sent s (s.abortStreaming p) p (cut ++ [.abort e.serial]) := by
  rw [abortStreaming_some h]
  by_cases he : e.ended = true
  · exact ⟨[], fun _ => rfl, ⟨0, rfl⟩, by simp [Sent, he]⟩
  · exact ⟨s.stoppedData p, fun h => absurd h he, s.stoppedData_cutShort p, by simp [Sent, he]⟩

-- ## The feed released

/-- A cancelled job before the test for its entries (R15): CANCELLING, its feed released, its STREAMING entry aborted. -/
def State.cancelFeed (s : State) (j : SlotId) : State :=
  match s.jobs[j].feedPort with
  | none => s.updJob j (Job.enter .cancelling)
  | some p => (((s.updJob j (Job.enter .cancelling)).releaseFeed p j).abortStreaming p).feedReleased p

theorem cancelFeed_none (h : s.jobs[j].feedPort = none) : s.cancelFeed j = s.updJob j (Job.enter .cancelling) := by
  simp only [State.cancelFeed, h]

theorem cancelFeed_some (h : s.jobs[j].feedPort = some p) : s.cancelFeed j =
    (((s.updJob j (Job.enter .cancelling)).releaseFeed p j).abortStreaming p).feedReleased p := by
  simp only [State.cancelFeed, h]

/-- The state in which the STREAMING entry of a cancelled job is aborted. -/
def State.cancelReleased (s : State) (p : PortId) (j : SlotId) : State :=
  (s.updJob j (Job.enter .cancelling)).releaseFeed p j

theorem cancelReleased_ports_self (s : State) (p : PortId) (j : SlotId) :
    (s.cancelReleased p j).ports[p] = s.ports[p].dropFeed := by
  rw [State.cancelReleased, Fin.getElem_fin, State.releaseFeed_ports_val]
  rfl

theorem cancelReleased_keeps (s : State) (p : PortId) (j : SlotId) : KeepsAllBut [.jobs, .ports] s (s.cancelReleased p j) :=
  ((s.updJob_keeps j _).trans (State.releaseFeed_keeps _ p j)).mono

theorem cancelReleased_jobs_self (s : State) (p : PortId) (j : SlotId) :
    (s.cancelReleased p j).jobs[j] = { s.jobs[j] with state := .cancelling, reason := none, feedPort := none } := by
  rw [State.cancelReleased, Fin.getElem_fin, State.releaseFeed_jobs_val, State.updJob_jobs_val]
  rfl

theorem cancelReleased_jobs_ne (h : k ≠ j) : (s.cancelReleased p j).jobs[k] = s.jobs[k] := by
  rw [State.cancelReleased, State.releaseFeed_jobs_ne _ _ _ _ h, State.updJob_jobs_ne _ _ _ _ h]

theorem cancelFeed_jobs_self (s : State) (j : SlotId) :
    (s.cancelFeed j).jobs[j] = { s.jobs[j] with state := .cancelling, reason := none, feedPort := none } := by
  cases h : s.jobs[j].feedPort with
  | none =>
    rw [cancelFeed_none h, State.updJob_jobs_self, Job.enter, h]
  | some p =>
    rw [cancelFeed_some h, State.feedReleased_jobs_getElem, (State.abortStreaming_keeps _ p).part .jobs]
    exact cancelReleased_jobs_self s p j

theorem cancelFeed_jobs_ne (h : k ≠ j) : (s.cancelFeed j).jobs[k] = s.jobs[k] := by
  cases hf : s.jobs[j].feedPort with
  | none => rw [cancelFeed_none hf, State.updJob_jobs_ne _ _ _ _ h]
  | some p =>
    rw [cancelFeed_some hf, State.feedReleased_jobs_getElem, (State.abortStreaming_keeps _ p).part .jobs]
    exact cancelReleased_jobs_ne h

/-- A released feed's port, apart from what the hold test does to its link (R89, R104). -/
theorem cancelFeed_ports_self (h : s.jobs[j].feedPort = some p) : ∃ l c w x f n, (s.cancelFeed j).ports[p] =
    { ((s.cancelReleased p j).abortStreaming p).ports[p] with
      link := l, downCause := c, rateWindow := w, sending := x, flags := f, noticeOwed := n } := by
  rw [cancelFeed_some h]
  exact State.feedReleased_ports_val _ p

theorem cancelFeed_ports_ne (h : s.jobs[j].feedPort = some p) (hq : q ≠ p) : (s.cancelFeed j).ports[q] = s.ports[q] := by
  rw [cancelFeed_some h, State.feedReleased_ports_ne _ _ _ hq, abortStreaming_ports_ne hq,
    State.releaseFeed_ports_ne _ _ _ _ hq, State.updJob_ports]

theorem cancelFeed_pressLog (h : s.jobs[j].feedPort = some p) :
    (s.cancelFeed j).pressLog = ((s.cancelReleased p j).abortStreaming p).pressLog := by
  rw [cancelFeed_some h, (State.feedReleased_keeps _ p).part .pressLog]
  rfl

theorem cancelFeed_hasEntries (s : State) (j k : SlotId) : (s.cancelFeed j).hasEntries k = s.hasEntries k := by
  refine hasEntries_congr (fun q => ?_) k
  cases h : s.jobs[j].feedPort with
  | none => rw [cancelFeed_none h, State.updJob_ports]
  | some p =>
    by_cases hq : q = p
    · subst hq
      obtain ⟨l, c, w, x, f, n, hport⟩ := cancelFeed_ports_self h
      rw [hport, abortStreaming_ports_self, cancelReleased_ports_self]
      simp only [List.map_map, Port.dropFeed]
      refine List.map_congr_left fun e _ => ?_
      simp only [Function.comp_apply]
      split <;> rfl
    · rw [cancelFeed_ports_ne h hq]

theorem cancelJob_eq (s : State) (j : SlotId) :
    s.cancelJob j = if s.hasEntries j then s.cancelFeed j else (s.cancelFeed j).flagJob j .cancelled := by
  have h : s.cancelJob j =
      if (s.cancelFeed j).hasEntries j then s.cancelFeed j else (s.cancelFeed j).flagJob j .cancelled := by
    unfold State.cancelJob State.cancelFeed
    cases s.jobs[j].feedPort <;> rfl
  rw [h, cancelFeed_hasEntries]

theorem cancelJob_keeps_feed (s : State) (j : SlotId) : KeepsAllBut [.jobs, .notices] (s.cancelFeed j) (s.cancelJob j) := by
  rw [cancelJob_eq]
  exact .ite (.refl _ _) (State.flagJob_keeps _ j .cancelled)

theorem cancelJob_jobs_self (s : State) (j : SlotId) : (s.cancelJob j).jobs[j] = { s.jobs[j] with
    state := .cancelling, reason := none, feedPort := none
    flags := if s.hasEntries j then s.jobs[j].flags else addBit s.jobs[j].flags 2
    noticeOwed := s.jobs[j].noticeOwed || !s.hasEntries j } := by
  rw [cancelJob_eq]
  cases s.hasEntries j with
  | true => simpa using cancelFeed_jobs_self s j
  | false =>
    rw [if_neg (by decide), Fin.getElem_fin, State.flagJob_jobs_val]
    have h := cancelFeed_jobs_self s j
    rw [Fin.getElem_fin] at h
    rw [h]
    simp [Job.flagged, JobFlag.bit]

theorem cancelJob_jobs_ne (h : k ≠ j) : (s.cancelJob j).jobs[k] = s.jobs[k] := by
  rw [cancelJob_eq]
  split
  · exact cancelFeed_jobs_ne h
  · rw [State.flagJob_jobs_ne _ _ _ _ h, cancelFeed_jobs_ne h]

/-- Without a feed only the record and the owed notice change. -/
theorem cancelJob_notices (h : s.jobs[j].feedPort = none) : (s.cancelJob j).notices =
    s.notices ++ (if s.hasEntries j = false ∧ s.jobs[j].noticeOwed = false then [.job j] else []) := by
  have hself := cancelFeed_jobs_self s j
  have hnotices : (s.cancelFeed j).notices = s.notices := by rw [cancelFeed_none h]; rfl
  rw [cancelJob_eq]
  cases s.hasEntries j with
  | true => simpa using hnotices
  | false =>
    rw [if_neg (by decide), State.flagJob_notices, hself, hnotices]
    cases s.jobs[j].noticeOwed <;> rfl

theorem cancelJob_keeps_none (h : s.jobs[j].feedPort = none) : KeepsAllBut [.jobs, .notices] s (s.cancelJob j) := by
  have hfeed : KeepsAllBut [.jobs] s (s.cancelFeed j) := cancelFeed_none h ▸ s.updJob_keeps j _
  exact (hfeed.trans (cancelJob_keeps_feed s j)).mono

/-- Where the hold test finds nothing to do, a released feed asks for a pass at most (R89, R104). -/
theorem feedReleased_stay (h : s.ports[p].holdsDown = false) : s.feedReleased p = s.askIfClaimable p := by
  have hdown : (s.askIfClaimable p).ports[p].holdsDown = false := by rw [State.askIfClaimable_ports, h]
  rw [State.feedReleased, State.holdTest, if_neg (by rw [hdown]; decide)]

theorem feedReleased_ports_stay (h : s.ports[p].holdsDown = false) : (s.feedReleased p).ports = s.ports := by
  rw [feedReleased_stay h, State.askIfClaimable_ports]

theorem holdsDown_unheld {x : Port} (h : x.holdAsked = false) : x.holdsDown = false := by simp [Port.holdsDown, h]

theorem holdsDown_inService {x : Port} (h : x.inService = true) : x.holdsDown = false := by simp [Port.holdsDown, h]

theorem cancelFeed_ports_unheld (h : s.jobs[j].feedPort = some p) (hhold : s.ports[p].holdAsked = false) :
    (s.cancelFeed j).ports[p] = ((s.cancelReleased p j).abortStreaming p).ports[p] := by
  have hhold' : ((s.cancelReleased p j).abortStreaming p).ports[p].holdAsked = false := by
    rw [abortStreaming_ports_self, cancelReleased_ports_self]
    exact hhold
  have hports : (s.cancelFeed j).ports = ((s.cancelReleased p j).abortStreaming p).ports := by
    rw [cancelFeed_some h]
    exact feedReleased_ports_stay (holdsDown_unheld hhold')
  simp only [hports]

/-- The messages of a cancelled job's port: none without a STREAMING entry, else what the stop of a send that was not
ended left on the link, and the ABORT behind it (R15, R96, R183). -/
theorem cancelReleased_sent (s : State) (p : PortId) (j : SlotId) :
    match s.ports[p].window.find? (fun e => e.state == .streaming) with
    | none => Sent s ((s.cancelReleased p j).abortStreaming p) p []
    | some e => ∃ cut, (e.ended = true → cut = []) ∧ CutShort s p cut ∧
        Sent s ((s.cancelReleased p j).abortStreaming p) p (cut ++ [.abort e.serial]) := by
  have hkeeps := cancelReleased_keeps s p j
  have hwindow : (s.cancelReleased p j).ports[p].window = s.ports[p].window := by
    rw [cancelReleased_ports_self]
    rfl
  cases hf : s.ports[p].window.find? (fun e => e.state == .streaming) with
  | none =>
    rw [abortStreaming_none (by rw [hwindow, hf])]
    exact (hkeeps.part .pressLog).trans (List.append_nil _).symm
  | some e =>
    obtain ⟨cut, hended, hcut, hsent⟩ := abortStreaming_sent (s := s.cancelReleased p j) (by rw [hwindow, hf])
    refine ⟨cut, hended, CutShort.of_same hcut ?_ (fun k => ?_) (hkeeps.part .pages) (hkeeps.part .dram), ?_⟩
    · rw [cancelReleased_ports_self]
      rfl
    · by_cases hk : k = j
      · rw [hk, cancelReleased_jobs_self]
      · rw [cancelReleased_jobs_ne hk]
    · unfold Sent at hsent ⊢
      rw [hsent, hkeeps.part .pressLog]

/-- What the cancelled job's port shows once its feed is released and its STREAMING entry aborted. -/
theorem cancelled_port (hf : s.jobs[j].feedPort = some p) (hports : t.ports = (s.cancelFeed j).ports)
    (hlog : t.pressLog = ((s.cancelReleased p j).abortStreaming p).pressLog) :
    t.ports[p].feedOwner = none ∧ t.ports[p].releaseOwed = false ∧ t.ports[p].starveTimer = none ∧
    t.ports[p].setup = s.ports[p].setup ∧ (s.ports[p].holdAsked = false → StreamingAborted s t p) ∧
    t.ports[p].window = s.ports[p].window.map
      (fun e => if e.state = .streaming then { e with state := .aborting } else e) ∧
    (∃ ms, (s.ports[p].window.find? (fun e => e.state == .streaming) = none → ms = []) ∧
      (∀ e, s.ports[p].window.find? (fun e => e.state == .streaming) = some e →
        ∃ cut, (e.ended = true → cut = []) ∧ CutShort s p cut ∧ ms = cut ++ [.abort e.serial]) ∧ Sent s t p ms) ∧
    OtherPortsSame p s t := by
  have hsent := cancelReleased_sent s p j
  have haborted : ((s.cancelReleased p j).abortStreaming p).ports[p] = { s.ports[p].dropFeed with
      window := s.ports[p].window.map (fun e => if e.state = .streaming then { e with state := .aborting } else e)
      sending := match s.ports[p].window.find? (fun e => e.state == .streaming) with
        | none => s.ports[p].sending
        | some e => if e.ended then s.ports[p].sending else none } := by
    rw [abortStreaming_ports_self, cancelReleased_ports_self]
    rfl
  obtain ⟨l, c, w, x, f, n, hself⟩ := cancelFeed_ports_self hf
  rw [haborted] at hself
  have hport : t.ports[p] = (s.cancelFeed j).ports[p] := by rw [hports]
  rw [hself] at hport
  refine ⟨by rw [hport]; rfl, by rw [hport]; rfl, by rw [hport]; rfl, by rw [hport]; rfl, fun hhold => ⟨by rw [hport], ?_⟩,
    by rw [hport], ?_, fun q hq => ?_⟩
  · have hsending : t.ports[p].sending = match s.ports[p].window.find? (fun e => e.state == .streaming) with
        | none => s.ports[p].sending
        | some e => if e.ended then s.ports[p].sending else none := by
      simp only [hports, cancelFeed_ports_unheld hf hhold, haborted]
    cases hstream : s.ports[p].window.find? (fun e => e.state == .streaming) with
    | none =>
      rw [hstream] at hsent hsending
      exact ⟨hsending, hlog.trans hsent⟩
    | some e =>
      rw [hstream] at hsent hsending
      obtain ⟨cut, hended, hcut, hsent⟩ := hsent
      exact ⟨hsending, cut, hended, hcut, hlog.trans hsent⟩
  · cases hstream : s.ports[p].window.find? (fun e => e.state == .streaming) with
    | none =>
      rw [hstream] at hsent
      exact ⟨[], fun _ => rfl, fun e he => absurd he (by simp), hlog.trans hsent⟩
    | some e =>
      rw [hstream] at hsent
      obtain ⟨cut, hended, hcut, hsent⟩ := hsent
      refine ⟨cut ++ [PressMessage.abort e.serial], fun h => absurd h (by simp), fun f hf => ?_, hlog.trans hsent⟩
      obtain rfl : e = f := Option.some.inj hf
      exact ⟨cut, hended, hcut, rfl⟩
  · rw [hports]
    exact cancelFeed_ports_ne hf hq

/-- Settles O20: the record, and with a feed the port's window and the messages on its link. -/
theorem cancelJobReleasesAndDrains : Obligations.CancelJobReleasesAndDrains := by
  intro s tag body j ht hlen hn
  have hsize := (sized_iff (body := body) 2).2 hlen
  have hjudge : judgeCancelJob body s.popInbox =
      if s.jobs[j].state = .done ∨ s.jobs[j].state = .cancelling then .refused .state
      else ok (s.popInbox.cancelJob j) [] := withHandle_names (s := s.popInbox) hn _
  refine ⟨fun h => exec_refused rfl ht hsize (hjudge.trans (if_pos h)), fun hd hc => ?_⟩
  have hfeed := cancelJob_keeps_feed s.popInbox j
  refine completes_ok rfl ht hsize (hjudge.trans (if_neg (by tauto))) (State.cancelJob_keeps _ j) fun hr hk =>
    ⟨hr, cancelJob_jobs_self s.popInbox j, fun k => cancelJob_jobs_ne, fun hf => ⟨cancelJob_notices (s := s.popInbox) hf, ?_⟩,
      fun p hf => ?_⟩
  · exact ((s.popInbox_keeps.trans (cancelJob_keeps_none (s := s.popInbox) hf)).trans (State.placeReply_keeps _ _)).mono
  · obtain ⟨howner, howed, htimer, hsetup, haborted, hwindow, hsent, hothers⟩ :=
      cancelled_port (s := s.popInbox) (t := (s.popInbox.cancelJob j).placeReply (replyFrame 0x05 tag .ok [])) hf
        (hfeed.part .ports) ((hfeed.part .pressLog).trans (cancelFeed_pressLog (s := s.popInbox) hf))
    exact ⟨howner, howed, htimer, hsetup, haborted, hwindow, hsent, hothers, hk⟩

end Sys2Proof.Machine
end

