-- ==== Sys2Proof/Proofs/OfferAttempt.lean ====
section
/-! SUPPORT. What an offer attempt does, by the steps of R92. -/

namespace Sys2Proof.Machine

open Sys2Proof.Safety

variable {s : State} {j k : SlotId} {p q : PortId} {r : RecordId}

-- ## When an attempt reaches step 4

theorem sentOut_iff (x : Job) : x.sentOut = true ↔ x.closed = true ∧ x.pages.length < x.cursorPage ∧
    x.cursorCopy = if x.proofRun then 1 else x.copies := by
  simp only [Job.sentOut, Job.pastEnd, Job.finalCopy, Bool.and_eq_true, decide_eq_true_eq, beq_iff_eq, and_assoc]

theorem noAttempt_iff (s : State) (p : PortId) (j : SlotId) :
    NoAttempt s p j ↔ ¬(s.mayOffer p = true ∧ s.jobs[j].state = .active ∧ s.jobs[j].sentOut = false) := by
  have hout : s.jobs[j].sentOut = false ↔ ¬(s.jobs[j].closed = true ∧ s.jobs[j].pages.length < s.jobs[j].cursorPage ∧
      s.jobs[j].cursorCopy = if s.jobs[j].proofRun then 1 else s.jobs[j].copies) := by
    rw [← sentOut_iff, Bool.not_eq_true]
  rw [State.mayOffer_iff, hout]
  unfold NoAttempt
  grind

theorem offerAttempt_idle (hp : s.ports[p].feedOwner = some j) (h : NoAttempt s p j) : s.offerAttempt p = s := by
  rw [noAttempt_iff] at h
  unfold State.offerAttempt
  rw [hp]
  dsimp only
  split
  · rename_i hm
    exact if_neg fun hc => h ⟨hm, hc⟩
  · rfl

/-- Steps 1 to 3 of R92 hold for an ACTIVE owner that is not sent out. -/
theorem attempt_conditions (h : ¬NoAttempt s p j) :
    s.mayOffer p = true ∧ s.jobs[j].state = .active ∧ s.jobs[j].sentOut = false := by
  rwa [noAttempt_iff, not_not] at h

theorem offerAttempt_starve (hp : s.ports[p].feedOwner = some j) (h : ¬NoAttempt s p j) (hn : s.jobs[j].nextPage = none) :
    s.offerAttempt p = s.starve p j := by
  obtain ⟨hm, ha, ho⟩ := attempt_conditions h
  simp only [State.offerAttempt, hp, hm, ha, ho, hn, and_self, if_true]

theorem offerAttempt_page (hp : s.ports[p].feedOwner = some j) (h : ¬NoAttempt s p j) (hn : s.jobs[j].nextPage = some r) :
    s.offerAttempt p = s.offerPage p j r := by
  obtain ⟨hm, ha, ho⟩ := attempt_conditions h
  simp only [State.offerAttempt, hp, hm, ha, ho, hn, and_self, if_true]

-- ## The port and the job that each outcome leaves

theorem starve_ports_self (s : State) (p : PortId) (j : SlotId) : (s.starve p j).ports[p] =
    { s.ports[p] with starveTimer := some (s.clock + BitVec.ofNat 32 s.timers.starve) } :=
  State.updPort_ports_self _ p _

theorem starve_jobs_self (s : State) (p : PortId) (j : SlotId) :
    (s.starve p j).jobs[j] = { s.jobs[j] with state := .starved, reason := none } := by
  rw [State.starve, State.updPort_jobs, State.updJob_jobs_self]
  rfl

theorem releaseWaiting_ports (s : State) (p : PortId) (j : SlotId) (why : WaitReason) :
    ((s.releaseFeed p j).makeWaiting j why).ports = (s.releaseFeed p j).ports :=
  (State.makeWaiting_keeps _ j why).part .ports

theorem releaseWaiting_jobs_self (s : State) (p : PortId) (j : SlotId) (why : WaitReason) :
    ((s.releaseFeed p j).makeWaiting j why).jobs[j] =
      { s.jobs[j] with state := .waiting, reason := some why, feedPort := none } := by
  rw [Fin.getElem_fin, State.makeWaiting_jobs_val, State.releaseFeed_jobs_val]
  rfl

theorem releaseWaiting_jobs_ne (h : k ≠ j) (why : WaitReason) :
    ((s.releaseFeed p j).makeWaiting j why).jobs[k] = s.jobs[k] := by
  rw [State.makeWaiting_jobs_ne _ _ _ _ h, State.releaseFeed_jobs_ne _ _ _ _ h]

/-- A pass that has been asked for stays asked for through a released feed. -/
theorem feedReleased_asks (h : s.passInProgress = true) (p : PortId) : (s.feedReleased p).passInProgress = true := by
  have hask : (s.askIfClaimable p).passInProgress = true := by
    by_cases hc : s.claimable p = true
    · exact ((askIfClaimable_asked s p).1 hc).1
    · exact ((askIfClaimable_asked s p).2 hc).1.trans h
  exact ((State.holdTest_keeps _ p).part .passInProgress).trans hask

theorem releaseWaiting_asks (s : State) (p : PortId) (j : SlotId) (why : WaitReason)
    (h : s.queues[s.jobs[j].queue].mode = .run) : ((s.releaseFeed p j).makeWaiting j why).passInProgress = true := by
  have hqueue : (s.releaseFeed p j).jobs[j].queue = s.jobs[j].queue := by
    rw [Fin.getElem_fin, State.releaseFeed_jobs_val]
    rfl
  have hask := ((s.releaseFeed p j).makeWaiting_asked j why).1
  simp only [hqueue] at hask
  exact (hask h).1

/-- The state that a released feed is reported from: the job WAITING, and its flag set if there is one. -/
def State.releasedWith (s : State) (p : PortId) (j : SlotId) (why : WaitReason) : Option JobFlag → State
  | none => (s.releaseFeed p j).makeWaiting j why
  | some f => ((s.releaseFeed p j).makeWaiting j why).flagJob j f

theorem releasedWith_keeps (s : State) (p : PortId) (j : SlotId) (why : WaitReason) (flag : Option JobFlag) :
    KeepsAllBut [.jobs, .ports, .notices, .passInProgress, .passOwed] s (s.releasedWith p j why flag) := by
  cases flag with
  | none => exact ((State.releaseFeed_keeps _ p j).trans (State.makeWaiting_keeps _ j why)).mono
  | some f =>
    exact (((State.releaseFeed_keeps _ p j).trans (State.makeWaiting_keeps _ j why)).trans (State.flagJob_keeps _ j f)).mono

theorem releasedWith_ports (s : State) (p : PortId) (j : SlotId) (why : WaitReason) (flag : Option JobFlag) :
    (s.releasedWith p j why flag).ports = (s.releaseFeed p j).ports := by
  cases flag with
  | none => exact releaseWaiting_ports s p j why
  | some f => exact ((State.flagJob_keeps _ j f).part .ports).trans (releaseWaiting_ports s p j why)

theorem releasedWith_jobs_self (s : State) (p : PortId) (j : SlotId) (why : WaitReason) (flag : Option JobFlag) :
    (s.releasedWith p j why flag).jobs[j] = { s.jobs[j] with
      state := .waiting, reason := some why, feedPort := none
      flags := (match flag.map JobFlag.bit with | none => s.jobs[j].flags | some k => addBit s.jobs[j].flags k)
      noticeOwed := s.jobs[j].noticeOwed || (flag.map JobFlag.bit).isSome } := by
  have h := releaseWaiting_jobs_self s p j why
  cases flag with
  | none =>
    rw [State.releasedWith, h]
    simp
  | some f =>
    rw [Fin.getElem_fin] at h
    rw [State.releasedWith, Fin.getElem_fin, State.flagJob_jobs_val, h]
    simp [Job.flagged]

theorem releasedWith_jobs_ne (h : k ≠ j) (why : WaitReason) (flag : Option JobFlag) :
    (s.releasedWith p j why flag).jobs[k] = s.jobs[k] := by
  cases flag with
  | none => exact releaseWaiting_jobs_ne h why
  | some f => exact (State.flagJob_jobs_ne _ _ _ _ h).trans (releaseWaiting_jobs_ne h why)

theorem releasedWith_asks (s : State) (p : PortId) (j : SlotId) (why : WaitReason) (flag : Option JobFlag)
    (h : s.queues[s.jobs[j].queue].mode = .run) : (s.releasedWith p j why flag).passInProgress = true := by
  cases flag with
  | none => exact releaseWaiting_asks s p j why h
  | some f => exact ((State.flagJob_keeps _ j f).part .passInProgress).trans (releaseWaiting_asks s p j why h)

/-- A flagged job stands in the notice queue if it owed no notice before (R22). -/
theorem releasedWith_notices {flag : Option JobFlag} (hflag : flag ≠ none) (h : s.jobs[j].noticeOwed = false)
    (why : WaitReason) : Source.job j ∈ (s.releasedWith p j why flag).notices := by
  obtain ⟨f, rfl⟩ := Option.ne_none_iff_exists'.1 hflag
  have howed : ((s.releaseFeed p j).makeWaiting j why).jobs[j].noticeOwed = false := by
    rw [releaseWaiting_jobs_self]
    exact h
  rw [State.releasedWith, State.flagJob_notices, howed]
  simp

/-- A feed ends in an attempt (R8, R104): the port drops it, and its owner waits with this reason and this flag. -/
theorem attemptReleases_of (hs : s.ports[p].inService = true) (why : WaitReason) (flag : Option JobFlag) :
    AttemptReleases s ((s.releasedWith p j why flag).feedReleased p) p j why (flag.map JobFlag.bit) ∧
      OtherJobsSame j s ((s.releasedWith p j why flag).feedReleased p) ∧
      OtherPortsSame p s ((s.releasedWith p j why flag).feedReleased p) := by
  have hport : (s.releasedWith p j why flag).ports[p] = s.ports[p].dropFeed := by
    simp only [releasedWith_ports]
    exact s.releaseFeed_ports_val p j
  have hstay : (s.releasedWith p j why flag).ports[p].holdsDown = false :=
    holdsDown_inService (by rw [hport]; exact hs)
  have hports : ((s.releasedWith p j why flag).feedReleased p).ports = (s.releaseFeed p j).ports := by
    rw [feedReleased_ports_stay hstay, releasedWith_ports]
  have hkeeps := (releasedWith_keeps s p j why flag).trans (State.feedReleased_keeps _ p)
  have hsame : ∀ k : SlotId, ((s.releasedWith p j why flag).feedReleased p).jobs[k] = (s.releasedWith p j why flag).jobs[k] :=
    fun k => State.feedReleased_jobs_getElem k
  refine ⟨⟨?_, (hsame j).trans (releasedWith_jobs_self s p j why flag), fun hflag howed => ?_, fun hrun =>
    feedReleased_asks (releasedWith_asks s p j why flag hrun) p, hkeeps.part .accounts,
    (hkeeps.part .pressLog).trans (List.append_nil _).symm⟩, fun k hk => (hsame k).trans (releasedWith_jobs_ne hk why flag),
    fun q hq => ?_⟩
  · simp only [hports]
    exact s.releaseFeed_ports_val p j
  · have hmem := releasedWith_notices (s := s) (p := p) (j := j) (flag := flag) (by simpa using hflag) howed why
    rw [feedReleased_stay hstay, State.askIfClaimable_notices]
    exact hmem
  · rw [hports]
    exact s.releaseFeed_ports_ne p j q hq

-- ## Offers

theorem nextPage_some {x : Job} (h : x.nextPage = some r) : 1 ≤ x.cursorPage ∧ x.cursorPage ≤ x.pages.length ∧
    x.pages[x.cursorPage - 1]? = some (some r) := by
  unfold Job.nextPage Job.pageAt at h
  split at h
  · exact absurd h (by simp)
  · rename_i h0
    rw [Option.join_eq_some_iff] at h
    have hlt := (List.getElem?_eq_some_iff.1 h).1
    exact ⟨by omega, by omega, h⟩

/-- The offer of a sendable page moves the cursor to the next copy exactly behind the last place (R6). -/
theorem advance_of_nextPage {x : Job} (h : x.nextPage = some r) : x.advance =
    if x.pages.length = x.cursorPage ∧ x.closed = true ∧ x.proofRun = false ∧ x.cursorCopy < x.copies then
      { x with cursorCopy := x.cursorCopy + 1, cursorPage := 1 }
    else { x with cursorPage := x.cursorPage + 1 } := by
  obtain ⟨-, hle, -⟩ := nextPage_some h
  have hlast : x.pages.length < x.cursorPage + 1 ↔ x.pages.length = x.cursorPage := by omega
  simp only [Job.advance, hlast]

/-- The offer of record `r` with its faces reserved (R93, R134). -/
def State.reservedOffer (s : State) (p : PortId) (j : SlotId) (r : RecordId) : State :=
  (s.updAccount s.jobs[j].account (Account.reserve s.pages[r].sides)).offer p j r

theorem reservedOffer_jobs_self (s : State) (p : PortId) (j : SlotId) (r : RecordId) :
    (s.reservedOffer p j r).jobs[j] = s.jobs[j].advance := by
  unfold State.reservedOffer State.offer
  rw [State.press_jobs, State.updJob_jobs_self]
  rfl

theorem reservedOffer_jobs_ne (h : k ≠ j) : (s.reservedOffer p j r).jobs[k] = s.jobs[k] := by
  unfold State.reservedOffer State.offer
  rw [State.press_jobs, State.updJob_jobs_ne _ _ _ _ h]
  rfl

theorem reservedOffer_ports_self (s : State) (p : PortId) (j : SlotId) (r : RecordId) :
    (s.reservedOffer p j r).ports[p] = { s.ports[p] with
      nextSerial := s.ports[p].nextSerial + 1, sending := some s.ports[p].nextSerial
      window := s.ports[p].window ++ [{
        serial := s.ports[p].nextSerial, job := j, place := s.jobs[j].cursorPage, copy := s.jobs[j].cursorCopy
        faces := s.pages[r].sides, colour := s.pages[r].colour, state := .streaming, ended := false }] } := by
  unfold State.reservedOffer State.offer
  rw [State.press_ports, State.updJob_ports, State.updPort_ports_self]
  rfl

theorem reservedOffer_ports_ne (h : q ≠ p) : (s.reservedOffer p j r).ports[q] = s.ports[q] := by
  unfold State.reservedOffer State.offer
  rw [State.press_ports, State.updJob_ports, State.updPort_ports_ne _ _ _ _ h]
  rfl

theorem reservedOffer_accounts (s : State) (p : PortId) (j : SlotId) (r : RecordId) : (s.reservedOffer p j r).accounts =
    (s.updAccount s.jobs[j].account (Account.reserve s.pages[r].sides)).accounts := rfl

theorem attemptOffers_of (hn : s.jobs[j].nextPage = some r) : AttemptOffers s (s.reservedOffer p j r) p j r := by
  refine ⟨reservedOffer_ports_self s p j r, (reservedOffer_jobs_self s p j r).trans (advance_of_nextPage hn), ?_,
    fun a ha => ?_, rfl⟩
  · rw [reservedOffer_accounts, State.updAccount_accounts_self]
    rfl
  · rw [reservedOffer_accounts, State.updAccount_accounts_ne _ _ _ _ ha]

-- ## The steps behind the window

theorem offerPage_full (h : s.ports[p].depth ≤ s.ports[p].window.length) : s.offerPage p j r = s := if_pos h

/-- Steps 5 to 8 of R92, of a window with a free place. -/
theorem offerPage_open (h : ¬s.ports[p].depth ≤ s.ports[p].window.length) : s.offerPage p j r =
    if (s.ports[p].ident.map (fun i => i.covers s.pages[r])).getD false = false then
      (s.releasedWith p j .route none).feedReleased p
    else if s.ports[p].loaded ≠ s.pages[r].media then s.beginSetup p s.pages[r].media
    else if s.accounts[s.jobs[j].account].canReserve s.pages[r].sides then s.reservedOffer p j r
    else (s.releasedWith p j .allowance (some .allowanceStop)).feedReleased p := if_neg h

theorem beginSetup_ports_self (s : State) (p : PortId) (m : Media) : (s.beginSetup p m).ports[p] = { s.ports[p] with
    setup := some m, stallReported := false
    setupTimer := some (s.clock + BitVec.ofNat 32 (10 * s.timers.setupStall)) } := by
  rw [State.beginSetup, State.press_ports, State.updPort_ports_self]
  rfl

theorem beginSetup_ports_ne (h : q ≠ p) (m : Media) : (s.beginSetup p m).ports[q] = s.ports[q] := by
  rw [State.beginSetup, State.press_ports, State.updPort_ports_ne _ _ _ _ h]

/-- Steps 4 to 8 of R92 touch the feed owner and the port alone. -/
theorem offerPage_others (hs : s.ports[p].inService = true) :
    OtherJobsSame j s (s.offerPage p j r) ∧ OtherPortsSame p s (s.offerPage p j r) := by
  by_cases hfull : s.ports[p].depth ≤ s.ports[p].window.length
  · rw [offerPage_full hfull]
    exact ⟨fun _ _ => rfl, fun _ _ => rfl⟩
  · rw [offerPage_open hfull]
    split
    · exact (attemptReleases_of hs .route none).2
    · split
      · exact ⟨fun _ _ => rfl, fun q hq => beginSetup_ports_ne hq _⟩
      · split
        · exact ⟨fun k hk => reservedOffer_jobs_ne hk, fun q hq => reservedOffer_ports_ne hq⟩
        · exact (attemptReleases_of hs .allowance (some .allowanceStop)).2

theorem sent_nothing (s : State) (p : PortId) : Sent s s p [] := (List.append_nil _).symm

theorem attemptIdle_refl (s : State) (p : PortId) (j : SlotId) : AttemptIdle s s p j := ⟨rfl, rfl, rfl, sent_nothing s p⟩

/-- An offer attempt of a port for its feed owner goes by the steps of R92. -/
theorem offerAttempt_attempted (hp : s.ports[p].feedOwner = some j) : Attempted s (s.offerAttempt p) p j := by
  by_cases hno : NoAttempt s p j
  · rw [offerAttempt_idle hp hno]
    exact ⟨fun _ _ => rfl, fun _ _ => rfl, fun _ => attemptIdle_refl s p j, fun h => absurd hno h⟩
  have hs : s.ports[p].inService = true := by
    exact (State.mayOffer_iff.1 (attempt_conditions hno).1).2.1
  cases hn : s.jobs[j].nextPage with
  | none =>
    rw [offerAttempt_starve hp hno hn]
    refine ⟨fun k hk => State.updJob_jobs_ne _ _ _ _ hk, fun q hq => State.updPort_ports_ne _ _ _ _ hq,
      fun h => absurd h hno, fun _ => ⟨fun _ => ⟨starve_ports_self s p j, starve_jobs_self s p j, rfl, sent_nothing s p⟩,
        fun r _ _ h => ?_⟩⟩
    rw [hn] at h
    exact absurd h (by simp)
  | some r =>
    rw [offerAttempt_page hp hno hn]
    obtain ⟨hjobs, hports⟩ := offerPage_others (j := j) (r := r) hs
    refine ⟨hjobs, hports, fun h => absurd h hno, fun _ => ⟨fun h => ?_, fun r' covered fits hr' hcovered hfits => ?_⟩⟩
    · rw [hn] at h
      exact absurd h (by simp)
    obtain rfl : r = r' := Option.some.inj (hn.symm.trans hr')
    have hcover : (s.ports[p].ident.map (fun i => i.covers s.pages[r])).getD false = covered := by
      rw [hcovered]
      cases s.ports[p].ident <;> rfl
    by_cases hfull : s.ports[p].depth ≤ s.ports[p].window.length
    · rw [if_pos hfull, offerPage_full hfull]
      exact attemptIdle_refl s p j
    rw [if_neg hfull, offerPage_open hfull, hcover]
    by_cases hc : covered = false
    · rw [if_pos hc, if_pos hc]
      exact (attemptReleases_of hs .route none).1
    rw [if_neg hc, if_neg hc]
    by_cases hm : s.ports[p].loaded ≠ s.pages[r].media
    · rw [if_pos hm, if_pos hm]
      exact ⟨beginSetup_ports_self s p _, rfl, rfl, rfl⟩
    rw [if_neg hm, if_neg hm, show s.accounts[s.jobs[j].account].canReserve s.pages[r].sides = fits from hfits.symm]
    by_cases hf : fits = true
    · rw [if_pos hf, if_pos hf]
      exact attemptOffers_of hn
    · rw [if_neg hf, if_neg hf]
      exact (attemptReleases_of hs .allowance (some .allowanceStop)).1

end Sys2Proof.Machine
end

