-- ==== Sys2Proof/Proofs/ClosedPages.lean ====
section
/-! SUPPORT. What CLOSE_JOB is made of (R14): the record closed, the pages freed that are sheeted in every copy (R63), and
the test of R9. -/

namespace Sys2Proof.Machine

open Sys2Proof.Safety

variable {s t u : State} {j k : SlotId} {p q : PortId} {r : RecordId}

-- ## What a job's feed and window leave of its record

/-- The part of a record that feeds, offers and completion leave: Closed, Copies and the page list. -/
def Job.filed (x : Job) : Bool × Nat × List (Option RecordId) := (x.closed, x.copies, x.pages)

theorem Job.filed_iff (x y : Job) : x.filed = y.filed ↔ x.closed = y.closed ∧ x.copies = y.copies ∧ x.pages = y.pages := by
  simp only [Job.filed, Prod.mk.injEq]

/-- Every job keeps Closed, Copies and its page list. -/
def FiledStay (s t : State) : Prop := ∀ k : SlotId, t.jobs[k].filed = s.jobs[k].filed

theorem FiledStay.trans (h : FiledStay s t) (h2 : FiledStay t u) : FiledStay s u := fun k => (h2 k).trans (h k)

theorem FiledStay.of_jobs (h : t.jobs = s.jobs) : FiledStay s t := fun k => by rw [h]

/-- A write of one record that keeps these fields. -/
theorem FiledStay.of_record (h : OtherJobsSame j s t) (hj : t.jobs[j].filed = s.jobs[j].filed) : FiledStay s t := by
  intro k
  by_cases hk : k = j
  · rw [hk, hj]
  · rw [h k hk]

theorem updJob_filed {f : Job → Job} (h : (f s.jobs[j]).filed = s.jobs[j].filed) : FiledStay s (s.updJob j f) :=
  .of_record (fun k hk => s.updJob_jobs_ne j f k hk) (by rw [State.updJob_jobs_self, h])

theorem flagJob_filed (s : State) (j : SlotId) (f : JobFlag) : FiledStay s (s.flagJob j f) :=
  .of_record (fun k hk => s.flagJob_jobs_ne j f k hk) (by rw [Fin.getElem_fin, State.flagJob_jobs_val]; rfl)

theorem makeWaiting_filed (s : State) (j : SlotId) (w : WaitReason) : FiledStay s (s.makeWaiting j w) :=
  .of_record (fun k hk => s.makeWaiting_jobs_ne j w k hk) (by rw [Fin.getElem_fin, State.makeWaiting_jobs_val]; rfl)

theorem releaseFeed_filed (s : State) (p : PortId) (j : SlotId) : FiledStay s (s.releaseFeed p j) :=
  .of_record (fun k hk => s.releaseFeed_jobs_ne p j k hk) (by rw [Fin.getElem_fin, State.releaseFeed_jobs_val]; rfl)

theorem releasedWith_filed (s : State) (p : PortId) (j : SlotId) (why : WaitReason) (flag : Option JobFlag) :
    FiledStay s ((s.releasedWith p j why flag).feedReleased p) :=
  FiledStay.trans (.of_record (fun _ hk => releasedWith_jobs_ne hk why flag) (by rw [releasedWith_jobs_self]; rfl))
    (.of_jobs ((State.feedReleased_keeps _ p).part .jobs))

theorem advance_filed (x : Job) : x.advance.filed = x.filed := by
  unfold Job.advance
  split <;> rfl

theorem offerPage_filed (s : State) (p : PortId) (j : SlotId) (r : RecordId) : FiledStay s (s.offerPage p j r) := by
  by_cases hfull : s.ports[p].depth ≤ s.ports[p].window.length
  · rw [offerPage_full hfull]
    exact .of_jobs rfl
  · rw [offerPage_open hfull]
    split
    · exact releasedWith_filed s p j _ _
    · split
      · exact .of_jobs rfl
      · split
        · exact .of_record (fun k hk => reservedOffer_jobs_ne hk)
            (by rw [reservedOffer_jobs_self, advance_filed])
        · exact releasedWith_filed s p j _ _

theorem offerAttempt_filed (s : State) (p : PortId) : FiledStay s (s.offerAttempt p) := by
  cases hp : s.ports[p].feedOwner with
  | none =>
    refine .of_jobs ?_
    rw [State.offerAttempt, hp]
  | some j =>
    by_cases hno : NoAttempt s p j
    · exact .of_jobs (by rw [offerAttempt_idle hp hno])
    · cases hn : s.jobs[j].nextPage with
      | none =>
        rw [offerAttempt_starve hp hno hn]
        exact updJob_filed rfl
      | some r =>
        rw [offerAttempt_page hp hno hn]
        exact offerPage_filed s p j r

/-- The state in which a woken job's port makes its offer attempt (R7). -/
def State.woken (s : State) (p : PortId) (j : SlotId) : State :=
  (s.updJob j (Job.enter .active)).updPort p (fun x => { x with starveTimer := none })

theorem wake_stays (h : ¬(s.jobs[j].state = .starved ∧ s.jobs[j].nextPage.isSome)) : s.wake j = s := if_neg h

theorem wake_fires (hs : s.jobs[j].state = .starved) (hn : s.jobs[j].nextPage.isSome) (hp : s.jobs[j].feedPort = some p) :
    s.wake j = (s.woken p j).offerAttempt p := by
  unfold State.wake
  rw [if_pos ⟨hs, hn⟩, hp]
  rfl

theorem wake_filed (s : State) (j : SlotId) : FiledStay s (s.wake j) := by
  by_cases h : s.jobs[j].state = .starved ∧ s.jobs[j].nextPage.isSome
  · cases hp : s.jobs[j].feedPort with
    | none =>
      refine .of_jobs ?_
      rw [State.wake, if_pos h, hp]
    | some p =>
      rw [wake_fires h.1 h.2 hp]
      exact FiledStay.trans (t := s.woken p j) (updJob_filed (j := j) (f := Job.enter .active) rfl) (offerAttempt_filed _ p)
  · rw [wake_stays h]
    exact .of_jobs rfl

-- ## The pages that are sheeted in every copy

theorem freeSheeted_none (h : ∀ r, some r ∈ s.jobs[j].pages → s.pages[r].sheeted ≠ s.jobs[j].copies) :
    s.freeSheeted j = s := by
  have hplace : ∀ i, s.fullySheeted j (i + 1) = false := by
    intro i
    unfold State.fullySheeted
    cases hr : s.jobs[j].pageAt (i + 1) with
    | none => rfl
    | some r =>
      have hmem : some r ∈ s.jobs[j].pages := by
        rw [Job.pageAt, if_neg (by omega), Option.join_eq_some_iff] at hr
        exact List.mem_of_getElem? hr
      simpa using h r hmem
  have hfold : ∀ l : List Nat,
      l.foldl (fun t i => if t.fullySheeted j (i + 1) then t.freePlace j (i + 1) else t) s = s := by
    intro l
    induction l with
    | nil => rfl
    | cons i l ih => rw [List.foldl_cons, if_neg (by rw [hplace]; decide), ih]
  exact hfold _

/-- What a place of job `j`'s page list holds once the pages are freed that are sheeted in every copy (R63). -/
def State.placeLeft (s : State) (j : SlotId) (x : Option RecordId) : Option RecordId :=
  x.bind (fun r => if s.pages[r].sheeted = s.jobs[j].copies then none else some r)

/-- The pages of the first `n` places of job `j` that are sheeted in every copy have been freed. -/
def SheetedFreed (s t : State) (j : SlotId) (n : Nat) : Prop :=
  t.jobs[j] = { s.jobs[j] with pages := (s.jobs[j].pages.take n).map (s.placeLeft j) ++ s.jobs[j].pages.drop n } ∧
    OtherJobsSame j s t ∧
    ∀ r, t.pages[r] = if some r ∈ s.jobs[j].pages.take n ∧ s.pages[r].sheeted = s.jobs[j].copies then
      PageRecord.freeRecord else s.pages[r]

/-- A record that a later place holds is held by no earlier one. -/
theorem not_mem_take_of_nodup {l : List (Option RecordId)} {n : Nat} (h : (l.filterMap id).Nodup) (hn : l[n]? = some (some r)) :
    some r ∉ l.take n := by
  intro hmem
  have hsplit : l = l.take n ++ some r :: l.drop (n + 1) := by
    obtain ⟨hlt, hget⟩ := List.getElem?_eq_some_iff.1 hn
    rw [← hget, List.getElem_cons_drop, List.take_append_drop]
  rw [hsplit, List.filterMap_append] at h
  have hdisjoint := (List.nodup_append.1 h).2.2
  exact hdisjoint r (List.mem_filterMap.2 ⟨some r, hmem, rfl⟩) r (by simp) rfl

theorem freePlace_some {place : Nat} (h : s.jobs[j].pageAt place = some r) : s.freePlace j place =
    (s.freePage r).updJob j (fun x => { x with pages := x.pages.set (place - 1) none }) := by
  simp only [State.freePlace, h]

theorem SheetedFreed.zero (s : State) (j : SlotId) : SheetedFreed s s j 0 :=
  ⟨rfl, fun _ _ => rfl, fun r => by simp⟩

/-- The place behind the ones gone through still holds what it held. -/
theorem SheetedFreed.pageAt {n : Nat} (h : SheetedFreed s t j n) (hn : n < s.jobs[j].pages.length) :
    t.jobs[j].pageAt (n + 1) = s.jobs[j].pages[n] := by
  have hlen : ((s.jobs[j].pages.take n).map (s.placeLeft j)).length = n := by
    rw [List.length_map, List.length_take, Nat.min_eq_left hn.le]
  rw [Job.pageAt, if_neg (by omega), h.1, Nat.add_sub_cancel]
  dsimp only
  rw [List.getElem?_append_right hlen.le, hlen, Nat.sub_self, List.getElem?_drop, Nat.add_zero,
    List.getElem?_eq_getElem hn]
  rfl

/-- A place whose page stays keeps its entry. -/
theorem SheetedFreed.succ_of_left {n : Nat} (h : SheetedFreed s t j n) (hn : n < s.jobs[j].pages.length)
    (hleft : s.placeLeft j s.jobs[j].pages[n] = s.jobs[j].pages[n]) : SheetedFreed s t j (n + 1) := by
  obtain ⟨hself, hothers, hpages⟩ := h
  refine ⟨?_, hothers, fun r => ?_⟩
  · rw [hself, List.take_succ_eq_append_getElem hn, List.map_append, List.map_singleton, hleft, List.append_assoc,
      List.singleton_append, List.getElem_cons_drop]
  · simp only [hpages r, List.take_succ_eq_append_getElem hn, List.mem_append, List.mem_singleton]
    have hnot : ¬(some r = s.jobs[j].pages[n] ∧ s.pages[r].sheeted = s.jobs[j].copies) := by
      rintro ⟨hr, hsheeted⟩
      rw [← hr, State.placeLeft, Option.bind_some, if_pos hsheeted] at hleft
      exact absurd hleft (by simp)
    grind

/-- A place whose page is sheeted in every copy becomes a freed place (R62, R63). -/
theorem SheetedFreed.succ_of_freed {n : Nat} (h : SheetedFreed s t j n) (hn : n < s.jobs[j].pages.length)
    (hr : s.jobs[j].pages[n] = some r) (hsheeted : s.pages[r].sheeted = s.jobs[j].copies) :
    SheetedFreed s (t.freePlace j (n + 1)) j (n + 1) := by
  have hat := h.pageAt hn
  rw [hr] at hat
  obtain ⟨hself, hothers, hpages⟩ := h
  have hlen : ((s.jobs[j].pages.take n).map (s.placeLeft j)).length = n := by
    rw [List.length_map, List.length_take, Nat.min_eq_left hn.le]
  rw [freePlace_some hat, Nat.add_sub_cancel]
  refine ⟨?_, fun k hk => ?_, fun r' => ?_⟩
  · rw [State.updJob_jobs_self]
    have hjobs : (t.freePage r).jobs[j] = t.jobs[j] := rfl
    rw [hjobs, hself]
    dsimp only
    rw [List.set_append_right _ _ hlen.le, hlen, Nat.sub_self, ← List.getElem_cons_drop hn, List.set_cons_zero,
      List.take_succ_eq_append_getElem hn, List.map_append, List.map_singleton, hr, State.placeLeft, Option.bind_some,
      if_pos hsheeted, List.append_assoc, List.singleton_append]
  · rw [State.updJob_jobs_ne _ _ _ _ hk]
    exact hothers k hk
  · simp only [List.take_succ_eq_append_getElem hn, List.mem_append, List.mem_singleton, hr, State.updJob_pages]
    by_cases he : r' = r
    · rw [he, freePage_pages_self, if_pos ⟨.inr rfl, hsheeted⟩]
    · rw [freePage_pages_ne he, hpages r']
      have hne : ¬(some r' = some r) := by simpa using he
      simp only [hne, or_false]

theorem SheetedFreed.succ {n : Nat} (hnodup : (s.jobs[j].pages.filterMap id).Nodup) (hn : n < s.jobs[j].pages.length)
    (h : SheetedFreed s t j n) :
    SheetedFreed s (if t.fullySheeted j (n + 1) then t.freePlace j (n + 1) else t) j (n + 1) := by
  have hat := h.pageAt hn
  cases hr : s.jobs[j].pages[n] with
  | none =>
    have hfull : t.fullySheeted j (n + 1) = false := by rw [State.fullySheeted, hat, hr]
    rw [if_neg (by rw [hfull]; decide)]
    exact h.succ_of_left hn (by rw [hr]; rfl)
  | some r =>
    have hpage : t.pages[r] = s.pages[r] := by
      rw [h.2.2 r, if_neg fun hm => not_mem_take_of_nodup hnodup (by rw [List.getElem?_eq_getElem hn, hr]) hm.1]
    have hfull : t.fullySheeted j (n + 1) = (s.pages[r].sheeted == s.jobs[j].copies) := by
      rw [State.fullySheeted, hat, hr]
      dsimp only
      rw [hpage, h.1]
    rw [hfull]
    by_cases hsheeted : s.pages[r].sheeted = s.jobs[j].copies
    · rw [if_pos (by simpa using hsheeted)]
      exact h.succ_of_freed hn hr hsheeted
    · rw [if_neg (by simpa using hsheeted)]
      exact h.succ_of_left hn (by rw [hr, State.placeLeft, Option.bind_some, if_neg hsheeted])

/-- Step 3 of R14 frees exactly the pages that are sheeted in every copy, if no record stands in the list twice. -/
theorem freeSheeted_freed (hnodup : (s.jobs[j].pages.filterMap id).Nodup) :
    SheetedFreed s (s.freeSheeted j) j s.jobs[j].pages.length := by
  have hall : ∀ n, n ≤ s.jobs[j].pages.length → SheetedFreed s ((List.range n).foldl
      (fun t i => if t.fullySheeted j (i + 1) then t.freePlace j (i + 1) else t) s) j n := by
    intro n
    induction n with
    | zero => exact fun _ => .zero s j
    | succ n ih =>
      intro hn
      rw [List.range_succ, List.foldl_append, List.foldl_cons, List.foldl_nil]
      exact (ih (by omega)).succ hnodup (by omega)
  exact hall _ le_rfl

theorem freeSheeted_jobs_self (hnodup : (s.jobs[j].pages.filterMap id).Nodup) : (s.freeSheeted j).jobs[j] =
    { s.jobs[j] with pages := s.jobs[j].pages.map (s.placeLeft j) } := by
  rw [(freeSheeted_freed hnodup).1, List.take_length, List.drop_length, List.append_nil]

end Sys2Proof.Machine
end

