-- ==== Sys2Proof/Proofs/CloseJob.lean ====
section
/-! SUPPORT. The test of R9, and what CLOSE_JOB does (R14). -/

namespace Sys2Proof.Machine

open Sys2Proof.Safety

variable {s t u : State} {tag : Byte} {body : List Byte} {j k : SlotId} {p q : PortId} {r : RecordId}

-- ## The test of R9

theorem handedTest_stays (h : s.jobs[j].state = .error ∨ s.jobs[j].sentOut = false ∨ s.hasUnsettled j = true) :
    s.handedTest j = s := by
  unfold State.handedTest
  refine if_neg ?_
  rintro ⟨hstate, hout, hsettled⟩
  rcases h with h | h | h
  · rw [h] at hstate
    simp at hstate
  · rw [h] at hout
    exact absurd hout (by decide)
  · rw [h] at hsettled
    exact absurd hsettled (by decide)

/-- The feed of a job that is sent out is released on both sides (R9, R104). -/
def State.handedFeed (s : State) (j : SlotId) : State :=
  match s.jobs[j].feedPort with
  | none => s.updJob j (Job.enter .handed)
  | some p => ((s.updJob j (Job.enter .handed)).releaseFeed p j).feedReleased p

/-- A job that is sent out, HANDED and without a feed, flagged HANDED under DOUBLE (R9). -/
def State.handedOver (s : State) (j : SlotId) : State :=
  if s.jobs[j].double then (s.handedFeed j).flagJob j .handed else s.handedFeed j

theorem handedFeed_none (h : s.jobs[j].feedPort = none) : s.handedFeed j = s.updJob j (Job.enter .handed) := by
  rw [State.handedFeed, h]

theorem handedFeed_some (h : s.jobs[j].feedPort = some p) :
    s.handedFeed j = ((s.updJob j (Job.enter .handed)).releaseFeed p j).feedReleased p := by
  rw [State.handedFeed, h]

theorem handedFeed_jobs_self (s : State) (j : SlotId) :
    (s.handedFeed j).jobs[j] = { s.jobs[j] with state := .handed, reason := none, feedPort := none } := by
  cases h : s.jobs[j].feedPort with
  | none =>
    rw [handedFeed_none h, State.updJob_jobs_self, Job.enter, h]
  | some p =>
    rw [handedFeed_some h, State.feedReleased_jobs_getElem, Fin.getElem_fin, State.releaseFeed_jobs_val,
      State.updJob_jobs_val]
    rfl

theorem handedFeed_window (s : State) (j : SlotId) (q : PortId) :
    (s.handedFeed j).ports[q].window = s.ports[q].window := by
  cases h : s.jobs[j].feedPort with
  | none => rw [handedFeed_none h, State.updJob_ports]
  | some p =>
    rw [handedFeed_some h, State.feedReleased_ports_window]
    by_cases hq : q = p
    · rw [hq, Fin.getElem_fin, State.releaseFeed_ports_val]
      rfl
    · rw [State.releaseFeed_ports_ne _ _ _ _ hq, State.updJob_ports]

theorem handedFeed_feedOwner (h : s.jobs[j].feedPort = some p) : (s.handedFeed j).ports[p].feedOwner = none := by
  obtain ⟨_, _, _, _, _, _, hport⟩ := ((s.updJob j (Job.enter .handed)).releaseFeed p j).feedReleased_ports_val p
  rw [handedFeed_some h, Fin.getElem_fin, hport, State.releaseFeed_ports_val]
  rfl

theorem handedOver_ports (s : State) (j : SlotId) : (s.handedOver j).ports = (s.handedFeed j).ports := by
  unfold State.handedOver
  split
  · exact (State.flagJob_keeps _ j .handed).part .ports
  · rfl

theorem handedOver_jobs_self (s : State) (j : SlotId) : (s.handedOver j).jobs[j] = { s.jobs[j] with
    state := .handed, reason := none, feedPort := none
    flags := if s.jobs[j].double then addBit s.jobs[j].flags 0 else s.jobs[j].flags
    noticeOwed := s.jobs[j].noticeOwed || s.jobs[j].double } := by
  have h := handedFeed_jobs_self s j
  unfold State.handedOver
  cases s.jobs[j].double with
  | false => simpa using h
  | true =>
    rw [Fin.getElem_fin] at h
    rw [if_pos rfl, Fin.getElem_fin, State.flagJob_jobs_val, h]
    simp [Job.flagged, JobFlag.bit]

/-- The test of R9 fires: the job is handed over, and completes if it has no entries. -/
theorem handedTest_fires (hstate : s.jobs[j].state = .active ∨ s.jobs[j].state = .starved ∨ s.jobs[j].state = .waiting)
    (hout : s.jobs[j].sentOut = true) (hsettled : s.hasUnsettled j = false) :
    s.handedTest j = if s.hasEntries j then s.handedOver j else (s.handedOver j).completeJob j := by
  have hentries : (s.handedOver j).hasEntries j = s.hasEntries j := hasEntries_congr (fun q => by
    rw [handedOver_ports, handedFeed_window]) j
  rw [← hentries]
  unfold State.handedTest State.handedOver State.handedFeed
  dsimp only
  refine (if_pos ⟨hstate, hout, hsettled⟩).trans ?_
  cases s.jobs[j].feedPort <;> rfl

-- ## Completion

/-- A job that becomes DONE keeps its record but for the state, the reason and the flag (R11, R22). -/
theorem becomeDone_jobs_self (s : State) (j : SlotId) : (s.becomeDone j).jobs[j] = { s.jobs[j] with
    state := .done, reason := none, flags := addBit s.jobs[j].flags 1, noticeOwed := true } := by
  have hgives : ((s.updJob j (Job.enter .done)).deliverGives j).jobs = (s.updJob j (Job.enter .done)).jobs :=
    (State.deliverGives_keeps _ j).part .jobs
  rw [State.becomeDone, Fin.getElem_fin, State.flagJob_jobs_val, hgives, State.updJob_jobs_val]
  rfl

theorem completeProof_jobs_self (s : State) (j : SlotId) : (s.completeProof j).jobs[j] = { s.jobs[j] with
    state := .waiting, reason := some .hold, proofRun := false, cursorCopy := 1, cursorPage := 1
    proofsDone := byteCount s.jobs[j].proofsDone, flags := addBit s.jobs[j].flags JobFlag.proofDone.bit
    noticeOwed := true } := by
  rw [State.completeProof, Fin.getElem_fin, State.makeWaiting_jobs_val, State.flagJob_jobs_val, State.updJob_jobs_val]
  rfl

theorem completeJob_filed (s : State) (j : SlotId) : (s.completeJob j).jobs[j].filed = s.jobs[j].filed ∧
    (s.completeJob j).jobs[j].feedPort = s.jobs[j].feedPort := by
  unfold State.completeJob
  split
  · rw [completeProof_jobs_self]
    exact ⟨rfl, rfl⟩
  · rw [becomeDone_jobs_self]
    exact ⟨rfl, rfl⟩

theorem handedTest_filed (s : State) (j : SlotId) : (s.handedTest j).jobs[j].filed = s.jobs[j].filed := by
  by_cases h : (s.jobs[j].state = .active ∨ s.jobs[j].state = .starved ∨ s.jobs[j].state = .waiting) ∧
      s.jobs[j].sentOut = true ∧ s.hasUnsettled j = false
  · obtain ⟨hstate, hout, hsettled⟩ := h
    have hover : (s.handedOver j).jobs[j].filed = s.jobs[j].filed := by
      rw [handedOver_jobs_self]
      rfl
    rw [handedTest_fires hstate hout hsettled]
    split
    · exact hover
    · exact (completeJob_filed _ j).1.trans hover
  · unfold State.handedTest
    dsimp only
    rw [if_neg h]

-- ## CLOSE_JOB

theorem closeRefused_iff (x : Job) : x.closeRefused = true ↔
    x.state = .done ∨ x.state = .cancelling ∨ x.closed = true ∨ x.filling ≠ none ∨ x.pages = [] := by
  simp only [Job.closeRefused, Bool.or_eq_true, beq_iff_eq, List.isEmpty_iff, Option.isSome_iff_ne_none, or_assoc]

/-- Step 2 of R14: the cursor stands past the end of a copy that is not the last one, outside a proof run. -/
def Job.Crosses (x : Job) : Prop := x.pages.length < x.cursorPage ∧ x.cursorCopy < x.copies ∧ x.proofRun = false

theorem close_crosses {x : Job} (h : x.Crosses) :
    x.close = { x with closed := true, cursorCopy := x.cursorCopy + 1, cursorPage := 1 } :=
  if_pos ⟨by simpa [Job.pastEnd] using h.1, h.2⟩

theorem close_stays {x : Job} (h : ¬x.Crosses) : x.close = { x with closed := true } :=
  if_neg fun hc => h ⟨by simpa [Job.pastEnd] using hc.1, hc.2⟩

/-- Closing a record writes Closed and the cursor alone (R14). -/
theorem close_eq (x : Job) : ∃ c n, x.close = { x with closed := true, cursorCopy := c, cursorPage := n } := by
  unfold Job.close
  split
  · exact ⟨_, _, rfl⟩
  · exact ⟨_, _, rfl⟩

/-- The state after steps 1 to 3 of R14, before the test of R9. -/
def State.closedStore (s : State) (j : SlotId) : State := ((s.updJob j Job.close).wake j).freeSheeted j

theorem closeJob_eq (s : State) (j : SlotId) : s.closeJob j =
    if s.jobs[j].state = .waiting then ((s.closedStore j).handedTest j).askIfRun s.jobs[j].queue
    else (s.closedStore j).handedTest j := rfl

theorem closed_jobs_self (s : State) (j : SlotId) : (s.updJob j Job.close).jobs[j] = s.jobs[j].close :=
  State.updJob_jobs_self s j _

theorem close_pages (x : Job) : x.close.pages = x.pages := by
  obtain ⟨c, n, h⟩ := close_eq x
  rw [h]

theorem close_copies (x : Job) : x.close.copies = x.copies := by
  obtain ⟨c, n, h⟩ := close_eq x
  rw [h]

theorem close_closed (x : Job) : x.close.closed = true := by
  obtain ⟨c, n, h⟩ := close_eq x
  rw [h]

theorem closedStore_closed (hnodup : (s.jobs[j].pages.filterMap id).Nodup) : (s.closedStore j).jobs[j].closed = true := by
  have hwake : ((s.updJob j Job.close).wake j).jobs[j].filed = s.jobs[j].close.filed := by
    rw [wake_filed, closed_jobs_self]
  obtain ⟨hclosed, -, hpages⟩ := (Job.filed_iff _ _).1 hwake
  rw [close_pages] at hpages
  rw [close_closed] at hclosed
  rw [State.closedStore, freeSheeted_jobs_self (by rw [hpages]; exact hnodup)]
  exact hclosed

/-- The queue's request for a pass leaves the jobs and the ports (R39). -/
theorem closeJob_same (s : State) (j : SlotId) : (s.closeJob j).jobs = ((s.closedStore j).handedTest j).jobs ∧
    (s.closeJob j).ports = ((s.closedStore j).handedTest j).ports := by
  rw [closeJob_eq]
  by_cases h : s.jobs[j].state = .waiting
  · rw [if_pos h]
    exact ⟨State.askIfRun_jobs _ _, State.askIfRun_ports _ _⟩
  · rw [if_neg h]
    exact ⟨rfl, rfl⟩

/-- Whatever else it does, CLOSE_JOB leaves the job Closed (R14). -/
theorem closeJob_closed (hnodup : (s.jobs[j].pages.filterMap id).Nodup) : (s.closeJob j).jobs[j].closed = true := by
  have htest : ((s.closedStore j).handedTest j).jobs[j].closed = true :=
    ((Job.filed_iff _ _).1 (handedTest_filed _ j)).1.trans (closedStore_closed hnodup)
  rw [(closeJob_same s j).1]
  exact htest

/-- A job that is not STARVED, or has nothing sendable at its cursor, is not woken. -/
theorem closedStore_eq (h : ¬(s.jobs[j].state = .starved ∧ s.jobs[j].close.nextPage.isSome)) :
    s.closedStore j = (s.updJob j Job.close).freeSheeted j := by
  have hstate : s.jobs[j].close.state = s.jobs[j].state := by
    obtain ⟨c, n, hc⟩ := close_eq s.jobs[j]
    rw [hc]
  rw [State.closedStore, wake_stays]
  rw [closed_jobs_self, hstate]
  exact h

theorem closedStore_keeps_idle (s : State) (j : SlotId) :
    KeepsAllBut [.jobs, .pages, .freePool] s ((s.updJob j Job.close).freeSheeted j) :=
  ((s.updJob_keeps j _).trans (State.freeSheeted_keeps _ j)).mono

theorem closedStore_freed (hnodup : (s.jobs[j].pages.filterMap id).Nodup) :
    SheetedFreed (s.updJob j Job.close) ((s.updJob j Job.close).freeSheeted j) j s.jobs[j].pages.length ∧
      ((s.updJob j Job.close).freeSheeted j).jobs[j] = { s.jobs[j].close with pages := s.jobs[j].pages.map (s.placeLeft j) } := by
  have hpages : (s.updJob j Job.close).jobs[j].pages = s.jobs[j].pages := by rw [closed_jobs_self, close_pages]
  have hnodup' : ((s.updJob j Job.close).jobs[j].pages.filterMap id).Nodup := by rw [hpages]; exact hnodup
  have hleft : (s.updJob j Job.close).placeLeft j = s.placeLeft j := by
    funext x
    simp only [State.placeLeft, closed_jobs_self, close_copies, State.updJob_pages]
  refine ⟨hpages ▸ freeSheeted_freed hnodup', ?_⟩
  rw [freeSheeted_jobs_self hnodup', hpages, hleft, closed_jobs_self]

theorem sentOut_false {x : Job} (h : x.cursorPage ≤ x.pages.length) : x.sentOut = false := by
  rw [← Bool.not_eq_true, sentOut_iff]
  omega

/-- The cursor of a closed job that is not sent out by its closing stands on a page of its list. -/
theorem close_cursor {x : Job} (hpages : x.pages ≠ []) (h : x.pages.length < x.cursorPage → x.Crosses) :
    x.close.cursorPage ≤ x.pages.length := by
  by_cases hc : x.Crosses
  · rw [close_crosses hc]
    exact List.length_pos_iff.2 hpages
  · rw [close_stays hc]
    exact not_lt.1 fun hlt => hc (h hlt)

theorem close_ifs {x : Job} (h : x.pages.length < x.cursorPage → x.Crosses) : x.close = { x with
    closed := true
    cursorCopy := if x.pages.length < x.cursorPage then x.cursorCopy + 1 else x.cursorCopy
    cursorPage := if x.pages.length < x.cursorPage then 1 else x.cursorPage } := by
  by_cases hlt : x.pages.length < x.cursorPage
  · rw [close_crosses (h hlt), if_pos hlt, if_pos hlt]
  · rw [close_stays fun hc => hlt hc.1, if_neg hlt, if_neg hlt]

/-- A WAITING or ERROR job that its closing does not send out: its pages are freed and its queue asks (R14, R39). -/
theorem closeJob_idle (hstate : s.jobs[j].state = .waiting ∨ s.jobs[j].state = .error) (hpages : s.jobs[j].pages ≠ [])
    (hnodup : (s.jobs[j].pages.filterMap id).Nodup) (h : s.jobs[j].pages.length < s.jobs[j].cursorPage → s.jobs[j].Crosses) :
    s.closeJob j = if s.jobs[j].state = .waiting then ((s.updJob j Job.close).freeSheeted j).askIfRun s.jobs[j].queue
      else (s.updJob j Job.close).freeSheeted j := by
  have hstore : s.closedStore j = (s.updJob j Job.close).freeSheeted j := closedStore_eq fun hs => by
    rcases hstate with he | he <;> rw [he] at hs <;> exact absurd hs.1 (by decide)
  have hjob := (closedStore_freed hnodup).2
  have hout : ((s.updJob j Job.close).freeSheeted j).jobs[j].sentOut = false := by
    rw [hjob]
    refine sentOut_false ?_
    rw [List.length_map]
    exact close_cursor hpages h
  rw [closeJob_eq, hstore, handedTest_stays (.inr (.inl hout))]

/-- What the closing of a WAITING or ERROR job asks for, and what it leaves as it is (R14, R39). -/
theorem closeJob_idle_frame (hidle : s.closeJob j = if s.jobs[j].state = .waiting then
      ((s.updJob j Job.close).freeSheeted j).askIfRun s.jobs[j].queue else (s.updJob j Job.close).freeSheeted j) :
    (s.closeJob j).jobs = ((s.updJob j Job.close).freeSheeted j).jobs ∧
      (s.closeJob j).pages = ((s.updJob j Job.close).freeSheeted j).pages ∧
      AskedIf (s.jobs[j].state = .waiting ∧ s.queues[s.jobs[j].queue].mode = .run) s (s.closeJob j) ∧
      KeepsAllBut [.jobs, .pages, .freePool, .passInProgress, .passOwed] s (s.closeJob j) := by
  have hkeeps := closedStore_keeps_idle s j
  have hstill : NotAsked s ((s.updJob j Job.close).freeSheeted j) := .of_keeps hkeeps
  have hqueues : ((s.updJob j Job.close).freeSheeted j).queues = s.queues := hkeeps.part .queues
  rw [hidle]
  by_cases hw : s.jobs[j].state = .waiting
  · rw [if_pos hw]
    have hasked := (askIfRun_asked ((s.updJob j Job.close).freeSheeted j) s.jobs[j].queue).after hstill
    rw [hqueues] at hasked
    exact ⟨State.askIfRun_jobs _ _, State.askIfRun_pages _ _, ⟨fun h => hasked.1 h.2, fun h => hasked.2 fun hr => h ⟨hw, hr⟩⟩,
      (hkeeps.trans (State.askIfRun_keeps _ _)).mono⟩
  · rw [if_neg hw]
    exact ⟨rfl, rfl, ⟨fun h => absurd h.1 hw, fun _ => hstill⟩, hkeeps.mono⟩

/-- The record and the pages that the closing of a WAITING or ERROR job leaves (R14, R63). -/
theorem closeJob_idle_record (hnodup : (s.jobs[j].pages.filterMap id).Nodup)
    (h : s.jobs[j].pages.length < s.jobs[j].cursorPage → s.jobs[j].Crosses) :
    ((s.updJob j Job.close).freeSheeted j).jobs[j] = { s.jobs[j] with
        closed := true
        cursorCopy := if s.jobs[j].pages.length < s.jobs[j].cursorPage then s.jobs[j].cursorCopy + 1 else s.jobs[j].cursorCopy
        cursorPage := if s.jobs[j].pages.length < s.jobs[j].cursorPage then 1 else s.jobs[j].cursorPage
        pages := s.jobs[j].pages.map (s.placeLeft j) } ∧
      OtherJobsSame j s ((s.updJob j Job.close).freeSheeted j) ∧
      (∀ r, some r ∈ s.jobs[j].pages → s.pages[r].sheeted = s.jobs[j].copies →
        ((s.updJob j Job.close).freeSheeted j).pages[r] = PageRecord.freeRecord) ∧
      ∀ r, (some r ∈ s.jobs[j].pages → s.pages[r].sheeted ≠ s.jobs[j].copies) →
        ((s.updJob j Job.close).freeSheeted j).pages[r] = s.pages[r] := by
  obtain ⟨⟨-, hothers, hfreed⟩, hjob⟩ := closedStore_freed hnodup
  have hlist : (s.updJob j Job.close).jobs[j].pages = s.jobs[j].pages := by rw [closed_jobs_self, close_pages]
  have hcopies : (s.updJob j Job.close).jobs[j].copies = s.jobs[j].copies := by rw [closed_jobs_self, close_copies]
  simp only [hlist, hcopies, List.take_length, State.updJob_pages] at hfreed
  refine ⟨?_, fun k hk => (hothers k hk).trans (s.updJob_jobs_ne j _ k hk), fun r hr hs => ?_, fun r hr => ?_⟩
  · rw [hjob, close_ifs h]
  · rw [hfreed r, if_pos ⟨hr, hs⟩]
  · rw [hfreed r, if_neg fun hc => hr hc.1 hc.2]

/-- What a place is left with, as the obligation spells it. -/
theorem placeLeft_eq (s : State) (j : SlotId) : s.placeLeft j = fun x => match x with
    | none => none
    | some r => if s.pages[r].sheeted = s.jobs[j].copies then none else some r := by
  funext x
  cases x <;> rfl

/-- A WAITING, ACTIVE or STARVED job whose closing sends it out is handed over (R9, R14). -/
theorem closedStore_sentOut (hnodup : (s.jobs[j].pages.filterMap id).Nodup)
    (hpast : s.jobs[j].pages.length < s.jobs[j].cursorPage)
    (hfinal : s.jobs[j].cursorCopy = if s.jobs[j].proofRun then 1 else s.jobs[j].copies) :
    (s.closedStore j).jobs[j] = { s.jobs[j] with closed := true, pages := s.jobs[j].pages.map (s.placeLeft j) } ∧
      (s.closedStore j).jobs[j].sentOut = true ∧ (s.closedStore j).ports = s.ports := by
  have hclose : s.jobs[j].close = { s.jobs[j] with closed := true } := close_stays fun hc => by
    obtain ⟨-, hcopy, hproof⟩ := hc
    rw [hproof, if_neg (by decide)] at hfinal
    exact absurd hcopy (by rw [hfinal]; exact lt_irrefl _)
  have hnext : s.jobs[j].close.nextPage = none := by
    cases hn : s.jobs[j].close.nextPage with
    | none => rfl
    | some r =>
      have hle := (nextPage_some hn).2.1
      rw [hclose] at hle
      exact absurd hpast (not_lt.2 hle)
  have hstore : s.closedStore j = (s.updJob j Job.close).freeSheeted j := closedStore_eq fun hs => by
    rw [hnext] at hs
    exact absurd hs.2 (by decide)
  have hjob := (closedStore_freed hnodup).2
  rw [hclose] at hjob
  rw [hstore]
  refine ⟨hjob, ?_, (closedStore_keeps_idle s j).part .ports⟩
  rw [hjob, sentOut_iff, List.length_map]
  exact ⟨rfl, hpast, hfinal⟩

/-- What the test of R9 makes of a job that is sent out and has no unsettled entry. -/
theorem handedTest_sentOut (hstate : s.jobs[j].state = .active ∨ s.jobs[j].state = .starved ∨ s.jobs[j].state = .waiting)
    (hout : s.jobs[j].sentOut = true) (hsettled : s.hasUnsettled j = false) :
    (s.handedTest j).jobs[j].feedPort = none ∧
      (∀ p, s.jobs[j].feedPort = some p → (s.handedTest j).ports[p].feedOwner = none) ∧
      (s.hasEntries j = true → (s.handedTest j).jobs[j].state = .handed ∧ (s.handedTest j).jobs[j].reason = none ∧
        (s.jobs[j].double = true →
          hasBit (s.handedTest j).jobs[j].flags 0 = true ∧ (s.handedTest j).jobs[j].noticeOwed = true)) ∧
      (s.hasEntries j = false → s.jobs[j].proofRun = false → (s.handedTest j).jobs[j].state = .done ∧
        hasBit (s.handedTest j).jobs[j].flags 1 = true ∧ (s.handedTest j).jobs[j].noticeOwed = true) := by
  have hover := handedOver_jobs_self s j
  have howner : ∀ p, s.jobs[j].feedPort = some p → (s.handedOver j).ports[p].feedOwner = none := fun p hp => by
    rw [handedOver_ports, handedFeed_feedOwner hp]
  rw [handedTest_fires hstate hout hsettled]
  cases hentries : s.hasEntries j with
  | true =>
    rw [if_pos rfl, hover]
    refine ⟨rfl, howner, fun _ => ⟨rfl, rfl, fun hd => ?_⟩, fun h => absurd h (by decide)⟩
    dsimp only
    rw [hd, if_pos rfl, Bool.or_true]
    exact ⟨by simp, rfl⟩
  | false =>
    rw [if_neg (by decide)]
    refine ⟨?_, fun p hp => ?_, fun h => absurd h (by decide), fun _ hproof => ?_⟩
    · rw [(completeJob_filed _ j).2, hover]
    · rw [State.completeJob_ports, howner p hp]
    · rw [State.completeJob, if_neg (by rw [hover]; simpa using hproof), becomeDone_jobs_self]
      exact ⟨rfl, by simp, rfl⟩

/-- The record of a job that its closing hands over (R9, R11, R14). -/
theorem closeJob_sentOut (hnodup : (s.jobs[j].pages.filterMap id).Nodup)
    (hstate : s.jobs[j].state = .waiting ∨ s.jobs[j].state = .active ∨ s.jobs[j].state = .starved)
    (hpast : s.jobs[j].pages.length < s.jobs[j].cursorPage)
    (hfinal : s.jobs[j].cursorCopy = if s.jobs[j].proofRun then 1 else s.jobs[j].copies)
    (hsettled : s.hasUnsettled j = false) : (s.closeJob j).jobs[j].feedPort = none ∧
      (∀ p, s.jobs[j].feedPort = some p → (s.closeJob j).ports[p].feedOwner = none) ∧
      (s.hasEntries j = true → (s.closeJob j).jobs[j].state = .handed ∧ (s.closeJob j).jobs[j].reason = none ∧
        (s.jobs[j].double = true → hasBit (s.closeJob j).jobs[j].flags 0 = true ∧ (s.closeJob j).jobs[j].noticeOwed = true)) ∧
      (s.hasEntries j = false → s.jobs[j].proofRun = false → (s.closeJob j).jobs[j].state = .done ∧
        hasBit (s.closeJob j).jobs[j].flags 1 = true ∧ (s.closeJob j).jobs[j].noticeOwed = true) := by
  obtain ⟨hjob, hout, hports⟩ := closedStore_sentOut hnodup hpast hfinal
  have hentries : (s.closedStore j).hasEntries j = s.hasEntries j := hasEntries_congr (fun q => by rw [hports]) j
  have hsettled' : (s.closedStore j).hasUnsettled j = false := by
    unfold State.hasUnsettled at hsettled ⊢
    rw [hports]
    exact hsettled
  have hfrom : (s.closedStore j).jobs[j].state = s.jobs[j].state := by rw [hjob]
  have hstates : (s.closedStore j).jobs[j].state = .active ∨ (s.closedStore j).jobs[j].state = .starved ∨
      (s.closedStore j).jobs[j].state = .waiting := by
    rw [hfrom]
    exact hstate.elim (.inr ∘ .inr) (.imp_right .inl)
  have htest := handedTest_sentOut hstates hout hsettled'
  obtain ⟨hjobs, hports'⟩ := closeJob_same s j
  rw [hjobs, hports', ← hentries]
  have hfeed : (s.closedStore j).jobs[j].feedPort = s.jobs[j].feedPort := by rw [hjob]
  have hdouble : (s.closedStore j).jobs[j].double = s.jobs[j].double := by rw [hjob]
  have hproof : (s.closedStore j).jobs[j].proofRun = s.jobs[j].proofRun := by rw [hjob]
  rw [hfeed, hdouble, hproof] at htest
  exact htest

/-- Without a page sheeted in every copy step 3 of R14 changes nothing. -/
theorem freeSheeted_stays (hcopies : t.jobs[j].copies = s.jobs[j].copies) (hlist : t.jobs[j].pages = s.jobs[j].pages)
    (hpages : t.pages = s.pages) (h : ∀ r, some r ∈ s.jobs[j].pages → s.pages[r].sheeted ≠ s.jobs[j].copies) :
    t.freeSheeted j = t := by
  refine freeSheeted_none fun r hr => ?_
  rw [hcopies, hpages]
  exact h r (hlist ▸ hr)

/-- An offer attempt leaves the cursor of a feed owner with a sendable page, or an unsettled entry of it (R92, R93). -/
theorem offerAttempt_cursor (hp : s.ports[p].feedOwner = some j) (hn : s.jobs[j].nextPage = some r) :
    (s.offerAttempt p).jobs[j].cursorPage = s.jobs[j].cursorPage ∨ (s.offerAttempt p).hasUnsettled j = true := by
  by_cases hno : NoAttempt s p j
  · rw [offerAttempt_idle hp hno]
    exact .inl rfl
  rw [offerAttempt_page hp hno hn]
  by_cases hfull : s.ports[p].depth ≤ s.ports[p].window.length
  · rw [offerPage_full hfull]
    exact .inl rfl
  rw [offerPage_open hfull]
  split
  · exact .inl (by rw [State.feedReleased_jobs_getElem, releasedWith_jobs_self])
  · split
    · exact .inl rfl
    · split
      · refine .inr (List.any_eq_true.2 ⟨p, List.mem_finRange p, ?_⟩)
        rw [reservedOffer_ports_self]
        simp [SendEntry.unsettled]
      · exact .inl (by rw [State.feedReleased_jobs_getElem, releasedWith_jobs_self])

/-- Closing an ACTIVE job between two copies moves its cursor and nothing else (R14). -/
theorem closeJob_active (hactive : s.jobs[j].state = .active) (hpages : s.jobs[j].pages ≠ []) (hcross : s.jobs[j].Crosses)
    (h : ∀ r, some r ∈ s.jobs[j].pages → s.pages[r].sheeted ≠ s.jobs[j].copies) :
    s.closeJob j = s.updJob j Job.close := by
  have hstore : s.closedStore j = s.updJob j Job.close := by
    rw [closedStore_eq fun hs => by rw [hactive] at hs; exact absurd hs.1 (by decide)]
    refine freeSheeted_stays (s := s) ?_ ?_ rfl h
    · rw [closed_jobs_self, close_copies]
    · rw [closed_jobs_self, close_pages]
  have hout : (s.updJob j Job.close).jobs[j].sentOut = false := by
    rw [closed_jobs_self]
    refine sentOut_false ?_
    rw [close_pages]
    exact close_cursor hpages fun _ => hcross
  rw [closeJob_eq, if_neg (by rw [hactive]; decide), hstore, handedTest_stays (.inr (.inl hout))]

/-- Closing a STARVED job between two copies wakes it, if the first page of the next one is sendable (R7, R14). -/
theorem closeJob_starved (hstarved : s.jobs[j].state = .starved) (hpages : s.jobs[j].pages ≠ [])
    (hfeed : s.jobs[j].feedPort = some p) (howner : s.ports[p].feedOwner = some j) (hcross : s.jobs[j].Crosses)
    (hfirst : s.jobs[j].pages[0]? = some (some r))
    (h : ∀ r, some r ∈ s.jobs[j].pages → s.pages[r].sheeted ≠ s.jobs[j].copies) :
    s.closeJob j = ((s.updJob j Job.close).woken p j).offerAttempt p := by
  have hclose := close_crosses hcross
  have hwoken : ((s.updJob j Job.close).woken p j).jobs[j] = Job.enter .active s.jobs[j].close := by
    rw [State.woken, State.updPort_jobs, State.updJob_jobs_self, closed_jobs_self]
  have hnext : s.jobs[j].close.nextPage = some r := by
    rw [hclose, Job.nextPage, Job.pageAt, if_neg Nat.one_ne_zero]
    dsimp only
    rw [Nat.sub_self, hfirst]
    rfl
  have howner' : ((s.updJob j Job.close).woken p j).ports[p].feedOwner = some j := by
    rw [State.woken, State.updPort_ports_self]
    exact howner
  have hfiled := offerAttempt_filed ((s.updJob j Job.close).woken p j) p j
  obtain ⟨-, hcopies, hlist⟩ := (Job.filed_iff _ _).1 hfiled
  rw [hwoken] at hcopies hlist
  have hlist' := hlist.trans (close_pages s.jobs[j])
  have hwake : (s.updJob j Job.close).wake j = ((s.updJob j Job.close).woken p j).offerAttempt p := by
    refine wake_fires ?_ ?_ ?_
    · rw [closed_jobs_self, hclose]
      exact hstarved
    · rw [closed_jobs_self, hnext]
      rfl
    · rw [closed_jobs_self, hclose]
      exact hfeed
  have hstore : s.closedStore j = ((s.updJob j Job.close).woken p j).offerAttempt p := by
    rw [State.closedStore, hwake]
    exact freeSheeted_stays (s := s) (hcopies.trans (close_copies _)) hlist'
      ((State.offerAttempt_keeps _ p).part .pages) h
  have htest : (((s.updJob j Job.close).woken p j).offerAttempt p).jobs[j].sentOut = false ∨
      (((s.updJob j Job.close).woken p j).offerAttempt p).hasUnsettled j = true := by
    refine (offerAttempt_cursor (r := r) howner' (by rw [hwoken]; exact hnext)).imp_left fun hcursor => sentOut_false ?_
    rw [hcursor, hwoken, hlist', hclose]
    exact List.length_pos_iff.2 hpages
  rw [closeJob_eq, if_neg (by rw [hstarved]; decide), hstore, handedTest_stays (.inr htest)]

theorem woken_eq (s : State) (p : PortId) (j : SlotId) (f : Job → Job) : (s.updJob j f).woken p j =
    { s with
      jobs := s.jobs.set j.val (Job.enter .active (f s.jobs[j]))
      ports := s.ports.set p.val { s.ports[p] with starveTimer := none } } := by
  simp [State.woken, State.updJob, State.updPort]

/-- Settles O19: the record closed, and by its state and cursor the freed pages, the hand-over and the woken feed. -/
theorem closeJobClosesAndSendsOut : Obligations.CloseJobClosesAndSendsOut := by
  intro s tag body j ht hlen hn
  have hsize := (sized_iff (body := body) 2).2 hlen
  have hjudge : judgeCloseJob body s.popInbox =
      if s.jobs[j].closeRefused then .refused .state else ok (s.popInbox.closeJob j) [] :=
    withHandle_names (s := s.popInbox) hn _
  refine ⟨fun h => exec_refused rfl ht hsize (hjudge.trans (if_pos ((closeRefused_iff _).2 h))),
    fun hd hc hopen hfill hpages hnodup howner => ?_⟩
  have hpass := hjudge.trans (if_neg fun h => by
    rcases (closeRefused_iff _).1 h with h | h | h | h | h
    · exact hd h
    · exact hc h
    · rw [hopen] at h
      exact absurd h (by decide)
    · exact h hfill
    · exact hpages h)
  refine completes_ok rfl ht hsize hpass (State.closeJob_keeps _ j) fun hr hk => ⟨hr, closeJob_closed (s := s.popInbox) hnodup,
    fun hstate hnone hcross => ?_, fun hstate hpast hfinal hsettled => ?_, fun p hfeed hpast hcopy hproof hsheeted => ?_⟩
  · have hcross' : s.jobs[j].pages.length < s.jobs[j].cursorPage → s.jobs[j].Crosses := fun h => ⟨h, hcross h⟩
    obtain ⟨hjobs, hstore, hasked, hkeeps⟩ := closeJob_idle_frame
      (closeJob_idle (s := s.popInbox) (j := j) hstate hpages hnodup hcross')
    obtain ⟨hjob, hothers, hfreed, hkept⟩ := closeJob_idle_record (s := s.popInbox) (j := j) hnodup hcross'
    rw [placeLeft_eq] at hjob
    simp only [State.placeReply_jobs, State.placeReply_pages, hjobs, hstore]
    refine ⟨hjob, hfreed, hkept, fun k hk => ?_, hasked, ?_⟩
    · simp only [State.placeReply_jobs, hjobs]
      exact hothers k hk
    · exact ((s.popInbox_keeps.trans hkeeps).trans (State.placeReply_keeps _ _)).mono
  · exact closeJob_sentOut (s := s.popInbox) hnodup hstate hpast hfinal hsettled
  · have hcross : s.jobs[j].Crosses := ⟨hpast, hcopy, hproof⟩
    refine ⟨fun hactive => ?_, fun hstarved hfirst => ?_⟩
    · rw [closeJob_active (s := s.popInbox) hactive hpages hcross hsheeted]
      refine ⟨(closed_jobs_self s.popInbox j).trans (close_crosses hcross), fun k hk =>
        s.popInbox.updJob_jobs_ne j _ k hk, ?_⟩
      exact ((s.popInbox_keeps.trans (State.updJob_keeps _ j _)).trans (State.placeReply_keeps _ _)).mono
    · obtain ⟨r, hr⟩ := hfirst
      have howner' := howner p hfeed
      have hnext := closeJob_starved (s := s.popInbox) hstarved hpages hfeed howner' hcross hr hsheeted
      have hattempt := offerAttempt_attempted (s := (s.popInbox.updJob j Job.close).woken p j) (p := p) (j := j)
        (by rw [State.woken, State.updPort_ports_self]; exact howner')
      rw [← hnext, woken_eq] at hattempt
      have hrecord : Job.enter .active s.popInbox.jobs[j].close = { s.jobs[j] with
          state := .active, reason := none, closed := true, cursorCopy := s.jobs[j].cursorCopy + 1, cursorPage := 1 } := by
        rw [close_crosses (x := s.popInbox.jobs[j]) hcross]
        rfl
      rw [hrecord] at hattempt
      refine ⟨hattempt, ?_⟩
      have hwoken : KeepsAllBut [.jobs, .ports] s.popInbox ((s.popInbox.updJob j Job.close).woken p j) :=
        (((s.popInbox.updJob_keeps j _).trans (State.updJob_keeps _ j _)).trans (State.updPort_keeps _ p _)).mono
      have hkeeps := hwoken.trans (State.offerAttempt_keeps _ p)
      rw [← hnext] at hkeeps
      exact ((s.popInbox_keeps.trans hkeeps).trans (State.placeReply_keeps _ _)).mono

end Sys2Proof.Machine
end

