-- ==== Sys2Proof/Proofs/SheetCounts.lean ====
section
/-! SUPPORT. What a sheet event counts and charges (R10 steps 1 to 4, R62, R95, R107, R136). -/

namespace Sys2Proof.Machine

open Sys2Proof.Safety

variable {s t u : State} {j k : SlotId} {p q : PortId} {r : RecordId} {e : SendEntry}

-- ## The event up to the entry's leaving

/-- The state whose page a sheet event counts: the send stopped, the meters and the job's counts up. -/
def State.sheetMetered (s : State) (p : PortId) (e : SendEntry) : State :=
  ((s.stopSendOf p e).updPort p (Port.count (MeterSet.countSheet e.colour e.faces))).updJob e.job (Job.countSheet e.faces)

/-- The page counted and the sheet charged to the job and its account (R10 steps 2 to 4, R136). -/
def State.sheetCharged (s : State) (p : PortId) (e : SendEntry) : State :=
  (((s.sheetMetered p e).countPage e).updJob e.job
    (Job.chargeSheet (s.jobs[e.job].endsCopySet e.place) (s.sheetNet e))).updAccount s.jobs[e.job].account
      (fun a => Account.convert e.faces (Account.addSheet (s.sheetNet e) e.faces a))

/-- A sheet event before what follows the entry's leaving (R10 steps 1 to 4, R95). -/
def State.sheetCounted (s : State) (p : PortId) (e : SendEntry) : State :=
  (s.sheetCharged p e).updPort p (Port.dropEntry e)

theorem sheetEvent_eq (s : State) (p : PortId) (e : SendEntry) :
    s.sheetEvent p e = (s.sheetCounted p e).afterSheet e.job := rfl

theorem stopSendOf_ports_self (s : State) (p : PortId) (e : SendEntry) : (s.stopSendOf p e).ports[p] = { s.ports[p] with
    sending := if s.ports[p].sending = some e.serial then none else s.ports[p].sending } := by
  rw [State.stopSendOf]
  by_cases h : s.ports[p].sending = some e.serial
  · rw [if_pos h, if_pos h, Fin.getElem_fin, State.stopSend_ports_val]
    rfl
  · rw [if_neg h, if_neg h]

theorem stopSendOf_ports_ne (h : q ≠ p) : (s.stopSendOf p e).ports[q] = s.ports[q] := by
  rw [State.stopSendOf]
  split
  · exact s.stopSend_ports_ne p q h
  · rfl

/-- What the stopped send of an entry has put on the link: nothing if the entry was not being sent (R93, R183). -/
theorem stopSendOf_sent (s : State) (p : PortId) (e : SendEntry) :
    ∃ cut, CutShort s p cut ∧ (s.ports[p].sending ≠ some e.serial → cut = []) ∧ Sent s (s.stopSendOf p e) p cut := by
  rw [State.stopSendOf]
  by_cases h : s.ports[p].sending = some e.serial
  · exact ⟨s.stoppedData p, s.stoppedData_cutShort p, fun hn => absurd h hn, by rw [if_pos h]; rfl⟩
  · exact ⟨[], ⟨0, rfl⟩, fun _ => rfl, by rw [if_neg h]; exact sent_nothing s p⟩

-- ## The page

/-- The state whose page is counted: the job's counts are up (R10 step 1). -/
theorem countPage_proof (h : s.jobs[e.job].proofRun = true) : s.countPage e = s := by
  simp only [State.countPage, h, if_true]

/-- A page's sheeted count rises (R10 step 2). -/
def PageRecord.countSheeted (x : PageRecord) : PageRecord := { x with sheeted := x.sheeted + 1 }

theorem countPage_real (h : s.jobs[e.job].proofRun = false) (hr : s.jobs[e.job].pageAt e.place = some r) : s.countPage e =
    if s.jobs[e.job].closed ∧ s.pages[r].sheeted + 1 = s.jobs[e.job].copies then
      (s.updPage r PageRecord.countSheeted).freePlace e.job e.place
    else s.updPage r PageRecord.countSheeted := by
  unfold State.countPage
  simp only [h, hr]
  rfl

theorem freePage_updPage (s : State) (r : RecordId) (f : PageRecord → PageRecord) (hf : ∀ x, (f x).chain = x.chain) :
    ((s.updPage r f).freePage r).pages = (s.freePage r).pages ∧
      ((s.updPage r f).freePage r).freePool = s.freePool ++ s.pages[r].chain := by
  refine ⟨?_, ?_⟩
  · simp only [freePage_pages, State.updPage]
    simp
  · have h : (s.updPage r f).pages[r].chain = s.pages[r].chain := by rw [State.updPage_pages_self, hf]
    unfold State.freePage
    rw [h]
    rfl

/-- The counted page, the free pool and the page list by the three cases of R10 step 2 and R62. -/
theorem countPage_cases (hr : s.jobs[e.job].pageAt e.place = some r) :
    (s.jobs[e.job].proofRun = false → s.jobs[e.job].closed = true → s.pages[r].sheeted + 1 = s.jobs[e.job].copies →
      (s.countPage e).pages[r] = PageRecord.freeRecord ∧ (s.countPage e).freePool = s.freePool ++ s.pages[r].chain ∧
      (s.countPage e).jobs[e.job] = { s.jobs[e.job] with pages := s.jobs[e.job].pages.set (e.place - 1) none }) ∧
    (s.jobs[e.job].proofRun = false → (s.jobs[e.job].closed = false ∨ s.pages[r].sheeted + 1 ≠ s.jobs[e.job].copies) →
      (s.countPage e).pages[r] = { s.pages[r] with sheeted := s.pages[r].sheeted + 1 } ∧
      (s.countPage e).freePool = s.freePool ∧ (s.countPage e).jobs[e.job] = s.jobs[e.job]) ∧
    (s.jobs[e.job].proofRun = true → s.countPage e = s) ∧ OtherJobsSame e.job s (s.countPage e) ∧
    OtherPagesSame r s (s.countPage e) ∧ ∃ l, (s.countPage e).jobs[e.job] = { s.jobs[e.job] with pages := l } := by
  have hat : (s.updPage r PageRecord.countSheeted).jobs[e.job].pageAt e.place = some r := hr
  obtain ⟨hpages, hpool⟩ := freePage_updPage s r PageRecord.countSheeted (fun _ => rfl)
  cases hproof : s.jobs[e.job].proofRun with
  | true =>
    rw [countPage_proof hproof]
    exact ⟨fun h => absurd h (by decide), fun h => absurd h (by decide), fun _ => rfl, fun _ _ => rfl, fun _ _ => rfl, _, rfl⟩
  | false =>
    rw [countPage_real hproof hr]
    by_cases hfull : s.jobs[e.job].closed ∧ s.pages[r].sheeted + 1 = s.jobs[e.job].copies
    · rw [if_pos hfull, freePlace_some hat]
      have hjob : (((s.updPage r PageRecord.countSheeted).freePage r).updJob e.job (fun x => { x with
          pages := x.pages.set (e.place - 1) none })).jobs[e.job] =
          { s.jobs[e.job] with pages := s.jobs[e.job].pages.set (e.place - 1) none } := State.updJob_jobs_self _ _ _
      refine ⟨fun _ _ _ => ⟨?_, hpool, hjob⟩, fun _ hnot => ?_, fun h => absurd h (by decide), fun k hk =>
        State.updJob_jobs_ne _ _ _ _ hk, fun k hk => ?_, _, hjob⟩
      · simp only [State.updJob_pages, hpages]
        exact freePage_pages_self s r
      · rcases hnot with h | h
        · rw [h] at hfull
          exact absurd hfull.1 (by decide)
        · exact absurd hfull.2 h
      · simp only [State.updJob_pages, hpages]
        exact freePage_pages_ne hk
    · rw [if_neg hfull]
      refine ⟨fun _ hc hs => absurd ⟨hc, hs⟩ hfull, fun _ _ => ⟨State.updPage_pages_self s r _, rfl, rfl⟩,
        fun h => absurd h (by decide), fun _ _ => rfl, fun k hk => State.updPage_pages_ne s r _ k hk, _, rfl⟩

/-- Step 2 of R10 writes the page list of its job alone, whether or not the page is still held. -/
theorem countPage_frame (s : State) (e : SendEntry) : OtherJobsSame e.job s (s.countPage e) ∧
    ∃ l, (s.countPage e).jobs[e.job] = { s.jobs[e.job] with pages := l } := by
  cases hr : s.jobs[e.job].pageAt e.place with
  | some r =>
    obtain ⟨-, -, -, hothers, -, hpages⟩ := countPage_cases hr
    exact ⟨hothers, hpages⟩
  | none =>
    have h : s.countPage e = s := by
      unfold State.countPage
      simp only [hr, ite_self]
    rw [h]
    exact ⟨fun _ _ => rfl, _, rfl⟩

-- ## The port, the job and the account

theorem sheetMetered_jobs_self (s : State) (p : PortId) (e : SendEntry) :
    (s.sheetMetered p e).jobs[e.job] = s.jobs[e.job].countSheet e.faces := by
  rw [State.sheetMetered, State.updJob_jobs_self, State.updPort_jobs, (State.stopSendOf_keeps _ p e).part .jobs]

theorem sheetMetered_jobs_ne (h : k ≠ e.job) : (s.sheetMetered p e).jobs[k] = s.jobs[k] := by
  rw [State.sheetMetered, State.updJob_jobs_ne _ _ _ _ h, State.updPort_jobs, (State.stopSendOf_keeps _ p e).part .jobs]

theorem sheetMetered_keeps (s : State) (p : PortId) (e : SendEntry) :
    KeepsAllBut [.jobs, .ports, .pressLog] s (s.sheetMetered p e) :=
  (((State.stopSendOf_keeps _ p e).trans (State.updPort_keeps _ p _)).trans (State.updJob_keeps _ e.job _)).mono

theorem sheetCharged_keeps (s : State) (p : PortId) (e : SendEntry) :
    KeepsAllBut [.jobs, .pages, .freePool, .accounts] (s.sheetMetered p e) (s.sheetCharged p e) :=
  (((State.countPage_keeps _ e).trans (State.updJob_keeps _ e.job _)).trans (State.updAccount_keeps _ _ _)).mono

theorem sheetCounted_keeps (s : State) (p : PortId) (e : SendEntry) :
    KeepsAllBut [.jobs, .ports, .pages, .freePool, .accounts, .pressLog] s (s.sheetCounted p e) :=
  (((sheetMetered_keeps s p e).trans (sheetCharged_keeps s p e)).trans (State.updPort_keeps _ p _)).mono

theorem sheetCounted_ports_self (s : State) (p : PortId) (e : SendEntry) : (s.sheetCounted p e).ports[p] = { s.ports[p] with
    window := s.ports[p].window.erase e
    lifetime := s.ports[p].lifetime.countSheet e.colour e.faces
    period := s.ports[p].period.countSheet e.colour e.faces
    sending := if s.ports[p].sending = some e.serial then none else s.ports[p].sending } := by
  rw [State.sheetCounted, State.updPort_ports_self, (sheetCharged_keeps s p e).part .ports, State.sheetMetered,
    State.updJob_ports, State.updPort_ports_self, stopSendOf_ports_self]
  rfl

theorem sheetCounted_ports_ne (h : q ≠ p) : (s.sheetCounted p e).ports[q] = s.ports[q] := by
  rw [State.sheetCounted, State.updPort_ports_ne _ _ _ _ h, (sheetCharged_keeps s p e).part .ports, State.sheetMetered,
    State.updJob_ports, State.updPort_ports_ne _ _ _ _ h, stopSendOf_ports_ne h]

theorem sheetCounted_sent (s : State) (p : PortId) (e : SendEntry) :
    ∃ cut, CutShort s p cut ∧ (s.ports[p].sending ≠ some e.serial → cut = []) ∧ Sent s (s.sheetCounted p e) p cut := by
  have hlog : (s.sheetCounted p e).pressLog = (s.stopSendOf p e).pressLog := (sheetCharged_keeps s p e).part .pressLog
  obtain ⟨cut, hcut, hnone, hsent⟩ := stopSendOf_sent s p e
  exact ⟨cut, hcut, hnone, hlog.trans hsent⟩

/-- A meter set counts the sheet and the faces of its colour (R107). -/
theorem MeterSet.countSheet_eq (c : Colour) (n : Nat) (x : MeterSet) : x.countSheet c n = { x with
    sheets := (x.sheets + 1) % 1000000000
    mono := if c = .mono then (x.mono + n) % 1000000000 else x.mono
    spot := if c = .spot then (x.spot + n) % 1000000000 else x.spot
    full := if c = .full then (x.full + n) % 1000000000 else x.full } := by
  cases c <;> simp [MeterSet.countSheet, meterAdd, Config.meterModulus]

theorem sheetCounted_jobs_self (s : State) (p : PortId) (e : SendEntry) : (s.sheetCounted p e).jobs[e.job] =
    ((s.sheetMetered p e).countPage e).jobs[e.job].chargeSheet (s.jobs[e.job].endsCopySet e.place) (s.sheetNet e) := by
  rw [State.sheetCounted, State.updPort_jobs, State.sheetCharged, State.updAccount_jobs, State.updJob_jobs_self]

theorem sheetCounted_jobs_ne (h : k ≠ e.job) : (s.sheetCounted p e).jobs[k] = s.jobs[k] := by
  rw [State.sheetCounted, State.updPort_jobs, State.sheetCharged, State.updAccount_jobs, State.updJob_jobs_ne _ _ _ _ h,
    (countPage_frame _ e).1 k h, sheetMetered_jobs_ne h]

/-- The record that a sheet leaves: its counts and its charge are up, and its page list may have one more freed place. -/
theorem sheetCounted_record (hr : s.jobs[e.job].pageAt e.place = some r) : (s.sheetCounted p e).jobs[e.job] =
    { s.jobs[e.job] with
      sheets := min (s.jobs[e.job].sheets + 1) 16777215
      faces := min (s.jobs[e.job].faces + e.faces) 16777215
      proofFaces := if s.jobs[e.job].proofRun then min (s.jobs[e.job].proofFaces + e.faces) 16777215
        else s.jobs[e.job].proofFaces
      copiesDone := if s.jobs[e.job].endsCopySet e.place = true ∧ s.jobs[e.job].proofRun = false then
        s.jobs[e.job].copiesDone + 1 else s.jobs[e.job].copiesDone
      charge := min (s.jobs[e.job].charge + s.sheetNet e) 999999999999
      saturated := s.jobs[e.job].saturated || decide (999999999999 ≤ s.jobs[e.job].charge + s.sheetNet e)
      pages := (s.sheetCounted p e).jobs[e.job].pages } := by
  have hat : (s.sheetMetered p e).jobs[e.job].pageAt e.place = some r := by
    rw [sheetMetered_jobs_self]
    exact hr
  obtain ⟨-, -, -, -, -, l, hl⟩ := countPage_cases hat
  have hsat : saturates s.jobs[e.job].charge (s.sheetNet e) =
      decide (999999999999 ≤ s.jobs[e.job].charge + s.sheetNet e) := by
    rw [Bool.eq_iff_iff, decide_eq_true_eq, saturates, accumulate, Config.maxCharge, beq_iff_eq]
    omega
  rw [sheetCounted_jobs_self, hl, sheetMetered_jobs_self]
  simp only [Job.chargeSheet, Job.addCharge, Job.countSheet, countTo, accumulate, hsat, Config.maxCount, Config.maxCharge]
  rfl

theorem sheetCounted_accounts_self (s : State) (p : PortId) (e : SendEntry) :
    (s.sheetCounted p e).accounts[s.jobs[e.job].account] =
      Account.convert e.faces (s.accounts[s.jobs[e.job].account].addSheet (s.sheetNet e) e.faces) := by
  have h : (((s.sheetMetered p e).countPage e).updJob e.job (Job.chargeSheet (s.jobs[e.job].endsCopySet e.place)
      (s.sheetNet e))).accounts = s.accounts :=
    ((State.countPage_keeps _ e).part .accounts).trans ((sheetMetered_keeps s p e).part .accounts)
  rw [State.sheetCounted, State.updPort_accounts, State.sheetCharged, State.updAccount_accounts_self, h]

theorem sheetCounted_accounts_ne {a : AccountId} (h : a ≠ s.jobs[e.job].account) :
    (s.sheetCounted p e).accounts[a] = s.accounts[a] := by
  rw [State.sheetCounted, State.updPort_accounts, State.sheetCharged, State.updAccount_accounts_ne _ _ _ _ h,
    State.updJob_accounts, (State.countPage_keeps _ e).part .accounts, (sheetMetered_keeps s p e).part .accounts]

/-- An account's period and allowance after a sheet (R121, R123, R136). -/
theorem convert_addSheet (net faces : Nat) (a : Account) : Account.convert faces (a.addSheet net faces) = { a with
    periodFaces := min (a.periodFaces + faces) 16777215
    periodCharge := min (a.periodCharge + net) 999999999999
    saturated := a.saturated || decide (999999999999 ≤ a.periodCharge + net)
    allowance := if a.unmetered then a.allowance else a.allowance - faces
    reserved := a.reserved - faces } := by
  have hsat : saturates a.periodCharge net = decide (999999999999 ≤ a.periodCharge + net) := by
    rw [Bool.eq_iff_iff, decide_eq_true_eq, saturates, accumulate, Config.maxCharge, beq_iff_eq]
    omega
  simp only [Account.convert, Account.addSheet, countTo, accumulate, hsat, Config.maxCount, Config.maxCharge]

/-- The page, the free pool and the page list after a sheet (R10 step 2, R62). -/
theorem sheetCounted_pages (hr : s.jobs[e.job].pageAt e.place = some r) :
    (s.jobs[e.job].proofRun = false → s.jobs[e.job].closed = true → s.pages[r].sheeted + 1 = s.jobs[e.job].copies →
      (s.sheetCounted p e).pages[r] = PageRecord.freeRecord ∧
      (s.sheetCounted p e).freePool = s.freePool ++ s.pages[r].chain ∧
      (s.sheetCounted p e).jobs[e.job].pages = s.jobs[e.job].pages.set (e.place - 1) none) ∧
    (s.jobs[e.job].proofRun = false → (s.jobs[e.job].closed = false ∨ s.pages[r].sheeted + 1 ≠ s.jobs[e.job].copies) →
      (s.sheetCounted p e).pages[r] = { s.pages[r] with sheeted := s.pages[r].sheeted + 1 } ∧
      (s.sheetCounted p e).freePool = s.freePool ∧ (s.sheetCounted p e).jobs[e.job].pages = s.jobs[e.job].pages) ∧
    (s.jobs[e.job].proofRun = true → (s.sheetCounted p e).pages = s.pages ∧ (s.sheetCounted p e).freePool = s.freePool ∧
      (s.sheetCounted p e).jobs[e.job].pages = s.jobs[e.job].pages) ∧ OtherPagesSame r s (s.sheetCounted p e) := by
  have hat : (s.sheetMetered p e).jobs[e.job].pageAt e.place = some r := by
    rw [sheetMetered_jobs_self]
    exact hr
  obtain ⟨hfreed, hkept, hproof, -, hothers, -⟩ := countPage_cases hat
  have hstore : (s.sheetMetered p e).pages = s.pages ∧ (s.sheetMetered p e).freePool = s.freePool :=
    ⟨(sheetMetered_keeps s p e).part .pages, (sheetMetered_keeps s p e).part .freePool⟩
  have hpages : (s.sheetCounted p e).pages = ((s.sheetMetered p e).countPage e).pages := by
    rw [State.sheetCounted, State.updPort_pages, State.sheetCharged, State.updAccount_pages, State.updJob_pages]
  have hpool : (s.sheetCounted p e).freePool = ((s.sheetMetered p e).countPage e).freePool := by
    rw [State.sheetCounted, State.updPort_freePool, State.sheetCharged, State.updAccount_freePool, State.updJob_freePool]
  have hlist : (s.sheetCounted p e).jobs[e.job].pages = ((s.sheetMetered p e).countPage e).jobs[e.job].pages := by
    rw [sheetCounted_jobs_self]
    rfl
  simp only [sheetMetered_jobs_self, Job.countSheet, hstore] at hfreed hkept hproof
  rw [hpages, hpool, hlist]
  refine ⟨fun h1 h2 h3 => ?_, fun h1 h2 => ?_, fun h1 => ?_, fun k hk => ?_⟩
  · obtain ⟨hpage, hfree, hjob⟩ := hfreed h1 h2 h3
    exact ⟨hpage, hfree, by rw [hjob]⟩
  · obtain ⟨hpage, hfree, hjob⟩ := hkept h1 h2
    exact ⟨hpage, hfree, by rw [hjob]⟩
  · rw [hproof h1]
    exact ⟨hstore.1, hstore.2, by rw [sheetMetered_jobs_self]; rfl⟩
  · rw [hpages, hothers k hk]
    simp only [hstore]

-- ## The net charge

theorem pageAt_of_place {x : Job} {n : Nat} (h0 : 0 < n) (h : x.pages[n - 1]? = some (some r)) : x.pageAt n = some r := by
  rw [Job.pageAt, if_neg (by omega), h]
  rfl

/-- The surcharge of a sheet, with the fallback to the standing page written out (R115, R118). -/
theorem surchargeOf_eq (s : State) (g : Fin 8) (n : Nat) (last : Bool) : s.surchargeOf g n last =
    if h : last = true ∧ 1 ≤ n ∧ n ≤ 3 then
      ((s.tariffs[g].surcharges[n - 1]'(by omega)).getD ((s.tariffs[(7 : Fin 8)].surcharges[n - 1]'(by omega)).getD 0))
    else 0 := by
  unfold State.surchargeOf
  split
  · rw [lookupSurcharge_eq]
    rfl
  · rfl

theorem sheetNet_eq (hr : s.jobs[e.job].pageAt e.place = some r) : s.sheetNet e =
    netCharge (grossCharge (s.lookupRate s.accounts[s.jobs[e.job].account].group (rateKey s.pages[r].media e.colour))
      e.faces (s.surchargeOf s.accounts[s.jobs[e.job].account].group s.jobs[e.job].finishing
        (s.jobs[e.job].endsCopySet e.place))) s.accounts[s.jobs[e.job].account].discount := by
  have hmedia : s.entryMedia e = s.pages[r].media := by simp only [State.entryMedia, hr]
  rw [← hmedia]
  rfl

end Sys2Proof.Machine
end

