-- ==== Sys2Proof/Proofs/SheetMessage.lean ====
section
/-! SUPPORT. What follows the leaving of a sheeted entry (R10 step 5, R16, R181), and the SHEET message (R95). -/

namespace Sys2Proof.Machine

open Sys2Proof.Safety

variable {s t u : State} {j k : SlotId} {p q : PortId} {r : RecordId} {e : SendEntry} {rest : List SendEntry}

-- ## Behind the entry's leaving

theorem flagJob_jobs_self (s : State) (j : SlotId) (f : JobFlag) :
    (s.flagJob j f).jobs[j] = { s.jobs[j] with flags := addBit s.jobs[j].flags f.bit, noticeOwed := true } := by
  rw [Fin.getElem_fin, State.flagJob_jobs_val]
  rfl

theorem becomeDone_jobs_ne (h : k ≠ j) : (s.becomeDone j).jobs[k] = s.jobs[k] := by
  have hgives : ((s.updJob j (Job.enter .done)).deliverGives j).jobs = (s.updJob j (Job.enter .done)).jobs :=
    (State.deliverGives_keeps _ j).part .jobs
  rw [State.becomeDone, State.flagJob_jobs_ne _ _ _ _ h, hgives, State.updJob_jobs_ne _ _ _ _ h]

theorem completeProof_jobs_ne (h : k ≠ j) : (s.completeProof j).jobs[k] = s.jobs[k] := by
  rw [State.completeProof, State.makeWaiting_jobs_ne _ _ _ _ h, State.flagJob_jobs_ne _ _ _ _ h,
    State.updJob_jobs_ne _ _ _ _ h]

theorem completeJob_jobs_ne (h : k ≠ j) : (s.completeJob j).jobs[k] = s.jobs[k] := by
  unfold State.completeJob
  split
  · exact completeProof_jobs_ne h
  · exact becomeDone_jobs_ne h

theorem afterSheet_entries (h : s.hasEntries j = true) : s.afterSheet j = s := if_pos h

/-- Without entries left a HANDED job completes (R10 step 5). -/
theorem afterSheet_handed (h : s.hasEntries j = false) (hs : s.jobs[j].state = .handed) :
    s.afterSheet j = s.completeJob j := by
  simp only [State.afterSheet, h, hs, Bool.false_eq_true, if_false]

/-- Without entries left a CANCELLING job is CANCELLED (R16). -/
theorem afterSheet_cancelling (h : s.hasEntries j = false) (hs : s.jobs[j].state = .cancelling) :
    s.afterSheet j = s.flagJob j .cancelled := by
  simp only [State.afterSheet, h, hs, Bool.false_eq_true, if_false]

/-- Without entries left a WAITING job's queue asks for a pass (R181). -/
theorem afterSheet_waiting (h : s.hasEntries j = false) (hs : s.jobs[j].state = .waiting) :
    s.afterSheet j = s.askIfRun s.jobs[j].queue := by
  simp only [State.afterSheet, h, hs, Bool.false_eq_true, if_false]

/-- A job that is neither HANDED nor CANCELLING, or has entries left, keeps its record. -/
theorem afterSheet_jobs_stay (h : (s.jobs[j].state ≠ .handed ∧ s.jobs[j].state ≠ .cancelling) ∨ s.hasEntries j = true) :
    (s.afterSheet j).jobs = s.jobs := by
  cases hentries : s.hasEntries j with
  | true => rw [afterSheet_entries hentries]
  | false =>
    rw [hentries] at h
    obtain ⟨hh, hc⟩ := h.resolve_right (by decide)
    unfold State.afterSheet
    rw [if_neg (by rw [hentries]; decide)]
    split
    · exact absurd ‹_› hh
    · exact absurd ‹_› hc
    · exact State.askIfRun_jobs _ _
    · rfl

theorem afterSheet_jobs_ne (h : k ≠ j) : (s.afterSheet j).jobs[k] = s.jobs[k] := by
  by_cases hstay : (s.jobs[j].state ≠ .handed ∧ s.jobs[j].state ≠ .cancelling) ∨ s.hasEntries j = true
  · rw [afterSheet_jobs_stay hstay]
  · obtain ⟨hstate, hentries⟩ := not_or.1 hstay
    rw [Bool.not_eq_true] at hentries
    by_cases hh : s.jobs[j].state = .handed
    · rw [afterSheet_handed hentries hh, completeJob_jobs_ne h]
    · have hc : s.jobs[j].state = .cancelling := by
        by_contra hc
        exact hstate ⟨hh, hc⟩
      rw [afterSheet_cancelling hentries hc, State.flagJob_jobs_ne _ _ _ _ h]

/-- Completion leaves what a sheet has counted and charged (R11, R12). -/
theorem afterSheet_counts (s : State) (j : SlotId) : ∃ st re pr cc cp pd fl no, (s.afterSheet j).jobs[j] = { s.jobs[j] with
    state := st, reason := re, proofRun := pr, cursorCopy := cc, cursorPage := cp, proofsDone := pd, flags := fl
    noticeOwed := no } := by
  by_cases hstay : (s.jobs[j].state ≠ .handed ∧ s.jobs[j].state ≠ .cancelling) ∨ s.hasEntries j = true
  · exact ⟨_, _, _, _, _, _, _, _, by rw [afterSheet_jobs_stay hstay]⟩
  · obtain ⟨hstate, hentries⟩ := not_or.1 hstay
    rw [Bool.not_eq_true] at hentries
    by_cases hh : s.jobs[j].state = .handed
    · rw [afterSheet_handed hentries hh, State.completeJob]
      split
      · exact ⟨_, _, _, _, _, _, _, _, completeProof_jobs_self s j⟩
      · exact ⟨_, _, _, _, _, _, _, _, becomeDone_jobs_self s j⟩
    · have hc : s.jobs[j].state = .cancelling := by
        by_contra hc
        exact hstate ⟨hh, hc⟩
      rw [afterSheet_cancelling hentries hc]
      exact ⟨_, _, _, _, _, _, _, _, flagJob_jobs_self s j .cancelled⟩

-- ## The hold test behind an offer attempt

theorem holdTest_stays (h : s.ports[p].holdsDown = false) : s.holdTest p = s := if_neg (by rw [h]; decide)

theorem holdsDown_feeding {x : Port} (h : x.feedOwner = some j) : x.holdsDown = false := by simp [Port.holdsDown, h]

/-- An offer attempt leaves the port in service, or feeding as it was (R92). -/
theorem offerAttempt_holdsDown (hp : s.ports[p].feedOwner = some j) : (s.offerAttempt p).ports[p].holdsDown = false := by
  by_cases hno : NoAttempt s p j
  · rw [offerAttempt_idle hp hno]
    exact holdsDown_feeding hp
  have hs : s.ports[p].inService = true := (State.mayOffer_iff.1 (attempt_conditions hno).1).2.1
  cases hn : s.jobs[j].nextPage with
  | none =>
    rw [offerAttempt_starve hp hno hn, starve_ports_self]
    exact holdsDown_inService hs
  | some r =>
    rw [offerAttempt_page hp hno hn]
    by_cases hfull : s.ports[p].depth ≤ s.ports[p].window.length
    · rw [offerPage_full hfull]
      exact holdsDown_feeding hp
    rw [offerPage_open hfull]
    split
    · rw [(attemptReleases_of hs .route none).1.1]
      exact holdsDown_inService hs
    · split
      · rw [beginSetup_ports_self]
        exact holdsDown_inService hs
      · split
        · rw [reservedOffer_ports_self]
          exact holdsDown_inService hs
        · rw [(attemptReleases_of hs .allowance (some .allowanceStop)).1.1]
          exact holdsDown_inService hs

theorem offerAttempt_holdTest (hp : s.ports[p].feedOwner = some j) :
    (s.offerAttempt p).holdTest p = s.offerAttempt p := holdTest_stays (offerAttempt_holdsDown hp)

theorem offerAttempt_unowned (hp : s.ports[p].feedOwner = none) : s.offerAttempt p = s := by
  simp only [State.offerAttempt, hp]

-- ## The message

theorem hear_ports_self (s : State) (p : PortId) : (s.hear p).ports[p] = heardPort s p := by
  rw [State.hear, State.updPort_ports_self]
  rfl

theorem hear_ports_ne (h : q ≠ p) : (s.hear p).ports[q] = s.ports[q] := State.updPort_ports_ne _ _ _ _ h

theorem hear_service (s : State) (p : PortId) : (s.hear p).service p = s.service p := by
  simp only [State.service, hear_ports_self]
  rfl

theorem sheetEntry_head {x : Port} (hw : x.window = e :: rest) (ht : e.state = .taken) : x.sheetEntry e.serial = some e := by
  simp [Port.sheetEntry, hw, ht]

/-- The state after a SHEET for the oldest entry of the window, which is TAKEN (R95). -/
theorem exec_sheet (hup : s.ports[p].link = .up) (hs : s.service p ≠ .stopped) (hw : s.ports[p].window = e :: rest)
    (ht : e.state = .taken) :
    exec (.sheet p e.serial) s = .next ((((s.hear p).sheetEvent p e).offerAttempt p).holdTest p) := by
  have hentry : (s.hear p).ports[p].sheetEntry e.serial = some e := by
    rw [hear_ports_self]
    exact sheetEntry_head hw ht
  have hservice : ¬(s.hear p).service p = .stopped := by rwa [hear_service]
  change execSheet p e.serial s = _
  simp only [execSheet, State.pressMessage, hup, takenUp, State.report, hservice, hentry, State.sheetPassed,
    reduceCtorEq, if_false, BEq.rfl, Bool.and_self, if_true]

end Sys2Proof.Machine
end

