-- ==== Sys2Proof/Proofs/Sheet.lean ====
section
/-! SUPPORT. A sheet event whose entry's page is held, and what follows it at the port (R10, R95, R119, R120). -/

namespace Sys2Proof.Machine

open Sys2Proof.Safety

variable {s t u : State} {j k : SlotId} {p q : PortId} {r : RecordId} {e : SendEntry} {rest : List SendEntry}

theorem sheetEvent_keeps_counted (s : State) (p : PortId) (e : SendEntry) :
    KeepsAllBut [.jobs, .queues, .markLine, .notices, .passInProgress, .passOwed] (s.sheetCounted p e) (s.sheetEvent p e) :=
  State.afterSheet_keeps _ _

theorem sheetEvent_ports (s : State) (p : PortId) (e : SendEntry) : (s.sheetEvent p e).ports = (s.sheetCounted p e).ports :=
  (sheetEvent_keeps_counted s p e).part .ports

/-- The sheeted entry's port: the window's head gone, both meter sets up, a send of it stopped (R95, R107). -/
theorem sheetEvent_ports_heard (hw : s.ports[p].window = e :: rest) : ((s.hear p).sheetEvent p e).ports[p] =
    { heardPort s p with
      window := rest
      lifetime := s.ports[p].lifetime.countSheet e.colour e.faces
      period := s.ports[p].period.countSheet e.colour e.faces
      sending := if s.ports[p].sending = some e.serial then none else s.ports[p].sending } := by
  have herase : (heardPort s p).window.erase e = rest := by
    rw [show (heardPort s p).window = e :: rest from hw, List.erase_cons_head]
  simp only [sheetEvent_ports, sheetCounted_ports_self, hear_ports_self, herase]
  rfl

theorem sheetEvent_ports_ne (h : q ≠ p) : ((s.hear p).sheetEvent p e).ports[q] = s.ports[q] := by
  rw [sheetEvent_ports, sheetCounted_ports_ne h, hear_ports_ne h]

/-- A CutShort of the heard port is one of the port as it stood. -/
theorem cutShort_of_hear {ms : List PressMessage} (h : CutShort (s.hear p) p ms) : CutShort s p ms :=
  CutShort.of_same h (by rw [hear_ports_self]; rfl) (fun _ => rfl) rfl rfl

/-- What the page data of a stopped send are in a sheet event (R93, R183). -/
theorem sheetEvent_sent (s : State) (p : PortId) (e : SendEntry) : ∃ cut, CutShort s p cut ∧
    (s.ports[p].sending ≠ some e.serial → cut = []) ∧ Sent s ((s.hear p).sheetEvent p e) p cut := by
  obtain ⟨cut, hcut, hnone, hsent⟩ := sheetCounted_sent (s.hear p) p e
  have hsending : (s.hear p).ports[p].sending = s.ports[p].sending := by
    rw [hear_ports_self]
    rfl
  rw [hsending] at hnone
  exact ⟨cut, cutShort_of_hear hcut, hnone, ((sheetEvent_keeps_counted (s.hear p) p e).part .pressLog).trans hsent⟩

theorem hasEntries_of_mem (h : e ∈ s.ports[p].window) : s.hasEntries e.job = true := by
  rw [hasEntries_any, List.any_eq_true]
  exact ⟨p, List.mem_finRange p, List.any_eq_true.2 ⟨e.job, List.mem_map_of_mem h, by simp⟩⟩

/-- A sheet counts and charges its job and leaves the rest of the record (R10). -/
theorem sheetCounted_frame (s : State) (p : PortId) (e : SendEntry) : (s.sheetCounted p e).jobs[e.job] = { s.jobs[e.job] with
    sheets := (s.sheetCounted p e).jobs[e.job].sheets, faces := (s.sheetCounted p e).jobs[e.job].faces
    proofFaces := (s.sheetCounted p e).jobs[e.job].proofFaces
    copiesDone := (s.sheetCounted p e).jobs[e.job].copiesDone, charge := (s.sheetCounted p e).jobs[e.job].charge
    saturated := (s.sheetCounted p e).jobs[e.job].saturated, pages := (s.sheetCounted p e).jobs[e.job].pages } := by
  obtain ⟨-, l, hl⟩ := countPage_frame (s.sheetMetered p e) e
  rw [sheetCounted_jobs_self, hl, sheetMetered_jobs_self]
  rfl

/-- The record of a job that is neither HANDED nor CANCELLING, or has more entries at the port. -/
theorem sheetEvent_jobs_stay (hw : s.ports[p].window = e :: rest)
    (h : (s.jobs[e.job].state ≠ .handed ∧ s.jobs[e.job].state ≠ .cancelling) ∨ (∃ f ∈ rest, f.job = e.job)) :
    ((s.hear p).sheetEvent p e).jobs = ((s.hear p).sheetCounted p e).jobs := by
  rw [sheetEvent_eq]
  refine afterSheet_jobs_stay ?_
  rcases h with hstate | ⟨f, hf, hjob⟩
  · refine .inl ?_
    rw [sheetCounted_frame (s.hear p) p e]
    exact hstate
  · refine .inr ?_
    have hwindow : ((s.hear p).sheetCounted p e).ports[p].window = rest := by
      rw [← sheetEvent_ports, sheetEvent_ports_heard hw]
    have hmem : f ∈ ((s.hear p).sheetCounted p e).ports[p].window := hwindow ▸ hf
    rw [← hjob]
    exact hasEntries_of_mem hmem

theorem sheetEvent_jobs_ne (h : k ≠ e.job) :
    ((s.hear p).sheetEvent p e).jobs[k] = s.jobs[k] := by
  rw [sheetEvent_eq, afterSheet_jobs_ne h, sheetCounted_jobs_ne (s := s.hear p) h]
  rfl

/-- A port without a feed owner is left to the hold test (R89, R95). -/
theorem holdTest_frame (s : State) (p : PortId) : (s.ports[p].holdAsked = false → s.holdTest p = s) ∧
    OtherPortsSame p s (s.holdTest p) ∧ (s.holdTest p).ports[p].window = s.ports[p].window ∧
    (s.holdTest p).ports[p].lifetime = s.ports[p].lifetime ∧ (s.holdTest p).ports[p].period = s.ports[p].period ∧
    KeepsAllBut [.ports, .notices] s (s.holdTest p) := by
  obtain ⟨_, _, _, _, _, _, hport⟩ := s.holdTest_ports_val p
  rw [← Fin.getElem_fin, ← Fin.getElem_fin] at hport
  refine ⟨fun h => holdTest_stays (holdsDown_unheld h), fun q hq => s.holdTest_ports_ne p q hq, ?_, ?_, ?_, s.holdTest_keeps p⟩
  · rw [hport]
  · rw [hport]
  · rw [hport]

/-- What a sheet counts and charges on its job's record (R10, R121, R122). -/
theorem sheetEvent_record (s : State) (p : PortId) (hr : s.jobs[e.job].pageAt e.place = some r) :
    (s.sheetEvent p e).jobs[e.job].sheets = min (s.jobs[e.job].sheets + 1) 16777215 ∧
    (s.sheetEvent p e).jobs[e.job].faces = min (s.jobs[e.job].faces + e.faces) 16777215 ∧
    (s.sheetEvent p e).jobs[e.job].proofFaces = (if s.jobs[e.job].proofRun then
      min (s.jobs[e.job].proofFaces + e.faces) 16777215 else s.jobs[e.job].proofFaces) ∧
    (s.sheetEvent p e).jobs[e.job].copiesDone = (if s.jobs[e.job].endsCopySet e.place = true ∧
      s.jobs[e.job].proofRun = false then s.jobs[e.job].copiesDone + 1 else s.jobs[e.job].copiesDone) ∧
    (s.sheetEvent p e).jobs[e.job].charge = min (s.jobs[e.job].charge + s.sheetNet e) 999999999999 ∧
    (s.sheetEvent p e).jobs[e.job].saturated =
      (s.jobs[e.job].saturated || decide (999999999999 ≤ s.jobs[e.job].charge + s.sheetNet e)) ∧
    (s.sheetEvent p e).jobs[e.job].pages = (s.sheetCounted p e).jobs[e.job].pages := by
  obtain ⟨st, re, pr, cc, cp, pd, fl, no, hafter⟩ := afterSheet_counts (s.sheetCounted p e) e.job
  rw [sheetEvent_eq, hafter, sheetCounted_record hr]
  exact ⟨rfl, rfl, rfl, rfl, rfl, rfl, rfl⟩

/-- The accounts, pages and free pool stay behind the counting. -/
theorem sheetEvent_store (s : State) (p : PortId) (e : SendEntry) :
    (s.sheetEvent p e).accounts = (s.sheetCounted p e).accounts ∧ (s.sheetEvent p e).pages = (s.sheetCounted p e).pages ∧
      (s.sheetEvent p e).freePool = (s.sheetCounted p e).freePool :=
  ⟨(sheetEvent_keeps_counted s p e).part .accounts, (sheetEvent_keeps_counted s p e).part .pages,
    (sheetEvent_keeps_counted s p e).part .freePool⟩

/-- The net charge by the obligation's own formulas (R114, R115, R118 to R120). -/
theorem net_of_formulas {rate : RatePair} {last : Bool} {extra gross net : Nat}
    (hr : s.jobs[e.job].pageAt e.place = some r)
    (hrate : rate = (s.tariffs[s.accounts[s.jobs[e.job].account].group].rates[rateKey s.pages[r].media e.colour]).getD
      ((s.tariffs[(7 : Fin 8)].rates[rateKey s.pages[r].media e.colour]).getD { front := 0, back := 0 }))
    (hlast : last = (s.jobs[e.job].closed && e.place == s.jobs[e.job].pages.length))
    (hextra : extra = s.surchargeOf s.accounts[s.jobs[e.job].account].group s.jobs[e.job].finishing last)
    (hgross : gross = rate.front + (if e.faces = 2 then rate.back else 0) + extra)
    (hnet : net = gross - (gross * s.accounts[s.jobs[e.job].account].discount + 500) / 1000) : net = s.sheetNet e := by
  subst hrate hlast hextra hgross hnet
  rw [sheetNet_eq hr, lookupRate_eq]
  rfl

/-- Settles O41: the counts, the charge and the page of `sheetCounted`, and the attempt behind them. -/
theorem sheetIsCountedAndCharged : Obligations.SheetIsCountedAndCharged := by
  intro s p e rest r x a rate last extra gross net hup hs hw ht hx h0 hpage ha hrate hlast hextra hgross hnet
  subst hx ha
  have hr : s.jobs[e.job].pageAt e.place = some r := pageAt_of_place h0 hpage
  have hnet : net = (s.hear p).sheetNet e :=
    net_of_formulas (s := s.hear p) hr hrate hlast (hextra.trans (surchargeOf_eq s _ _ _).symm) hgross hnet
  have hport := sheetEvent_ports_heard hw
  have hkeeps := (State.hear_keeps s p).trans (State.sheetEvent_keeps (s.hear p) p e)
  have howner : ((s.hear p).sheetEvent p e).ports[p].feedOwner = s.ports[p].feedOwner := by rw [hport]; rfl
  obtain ⟨haccounts, hpages, hpool⟩ := sheetEvent_store (s.hear p) p e
  obtain ⟨hsheets, hfaces, hproof, hcopies, hcharge, hsaturated, hlist⟩ := sheetEvent_record (s.hear p) p hr
  obtain ⟨hfreed, hkept, hproofPages, hotherPages⟩ := sheetCounted_pages (s := s.hear p) (p := p) hr
  refine ⟨_, exec_sheet hup hs hw ht, (s.hear p).sheetEvent p e, ?_, fun q hq => sheetEvent_ports_ne hq,
    sheetEvent_sent s p e, fun set set' hset => ?_, hsheets, hfaces, hproof, ?_, ?_, ?_, fun hstate => ?_,
    fun k hk => sheetEvent_jobs_ne hk, ?_, fun b hb => ?_, fun h1 h2 h3 => ?_, fun h1 h2 => ?_, fun h1 => ?_, fun k hk => ?_,
    hkeeps.mono, fun hnone => ?_, fun j hj => ?_, ?_⟩
  · rw [hport]
  · rcases hset with ⟨rfl, rfl⟩ | ⟨rfl, rfl⟩
    · rw [hport]
      exact MeterSet.countSheet_eq _ _ _
    · rw [hport]
      exact MeterSet.countSheet_eq _ _ _
  · rw [hcopies, hlast]
    rfl
  · rw [hcharge, hnet]
    rfl
  · rw [hsaturated, hnet]
    rfl
  · rw [sheetEvent_jobs_stay hw hstate]
    exact sheetCounted_frame (s.hear p) p e
  · rw [haccounts, hnet]
    exact (sheetCounted_accounts_self (s.hear p) p e).trans (convert_addSheet _ _ _)
  · rw [haccounts]
    exact sheetCounted_accounts_ne (s := s.hear p) hb
  · rw [hpages, hpool, hlist]
    exact hfreed h1 h2 h3
  · rw [hpages, hpool, hlist]
    exact hkept h1 h2
  · rw [hpages, hpool, hlist]
    exact hproofPages h1
  · rw [hpages]
    exact hotherPages k hk
  · rw [offerAttempt_unowned (howner.trans hnone)]
    obtain ⟨hunheld, hothers, hwindow, hlife, hperiod, hframe⟩ := holdTest_frame ((s.hear p).sheetEvent p e) p
    refine ⟨fun h => hunheld ?_, hothers, hwindow.trans ?_, hlife, hperiod, hframe⟩
    · rw [hport]
      exact h
    · rw [hport]
  · rw [offerAttempt_holdTest (howner.trans hj)]
    exact offerAttempt_attempted (howner.trans hj)
  · exact ((State.offerAttempt_keeps _ p).trans (State.holdTest_keeps _ p)).mono

end Sys2Proof.Machine
end

