-- ==== Sys2Proof/Proofs/LastSheet.lean ====
section
/-! SUPPORT. The last sheet of a job: its completion with the give set delivered (R11, R12, R44, R45), its cancellation
(R16), and the hold test of its port (R89). -/

namespace Sys2Proof.Machine

open Sys2Proof.Safety

variable {s t u : State} {j k : SlotId} {p : PortId} {q : QueueId} {e : SendEntry} {x : Job}

-- ## Marks given

theorem addBit_of_hasBit {n : Nat} {x : BitVec n} {i : Nat} (h : hasBit x i = true) : addBit x i = x := by
  apply BitVec.eq_of_getLsbD_eq
  intro k hk
  have hbit := hasBit_addBit x i k
  unfold hasBit at hbit h
  rw [hbit]
  grind

/-- What a mark of member `m` makes of a queue's record (R42). -/
def Queue.given (m : Nat) (x : Queue) : Queue :=
  if x.mode = .run ∨ x.mode = .halt then { x with received := addBit x.received m } else x

theorem giveMark_queues_self (s : State) (q : QueueId) (m : Nat) : (s.giveMark q m).queues[q] = s.queues[q].given m := by
  unfold State.giveMark Queue.given
  by_cases hmode : s.queues[q].mode = .run ∨ s.queues[q].mode = .halt
  · rw [if_pos hmode, if_pos hmode]
    by_cases hb : hasBit s.queues[q].received m = true
    · rw [if_pos hb, addBit_of_hasBit hb]
    · rw [if_neg hb, State.askIfRun_queues, State.updQueue_queues_self]
  · rw [if_neg hmode, if_neg hmode]

theorem giveMark_queues_ne {k : QueueId} (h : k ≠ q) (m : Nat) : (s.giveMark q m).queues[k] = s.queues[k] := by
  unfold State.giveMark
  split
  · split
    · rfl
    · simp only [State.askIfRun_queues]
      exact State.updQueue_queues_ne _ _ _ _ h
  · rfl

/-- A give to some of the queues of a list without repetition reaches each of them once. -/
theorem giveMarks_queues (m : Nat) (c : QueueId → Bool) (l : List QueueId) (hl : l.Nodup) (s : State) (k : QueueId) :
    (l.foldl (fun t q => if c q then t.giveMark q m else t) s).queues[k] =
      if k ∈ l ∧ c k = true then s.queues[k].given m else s.queues[k] := by
  induction l generalizing s with
  | nil => simp
  | cons q l ih =>
    obtain ⟨hq, hnodup⟩ := List.nodup_cons.1 hl
    have hstep : (if c q then s.giveMark q m else s).queues[k] =
        if k = q ∧ c k = true then s.queues[k].given m else s.queues[k] := by
      by_cases hk : k = q
      · subst hk
        cases hc : c k with
        | true => rw [if_pos rfl, giveMark_queues_self, if_pos ⟨rfl, rfl⟩]
        | false => rw [if_neg (by decide), if_neg (by simp)]
      · have hnot : ¬(k = q ∧ c k = true) := fun h => hk h.1
        rw [if_neg hnot]
        split
        · exact giveMark_queues_ne hk m
        · rfl
    rw [List.foldl_cons, ih hnodup, hstep]
    grind

/-- The queues of a give set but the job's own get its queue's mark (R44). -/
theorem deliverGives_queues (s : State) (j : SlotId) (k : QueueId) : (s.deliverGives j).queues[k] =
    if hasBit s.jobs[j].giveSet k.val = true ∧ k ≠ s.jobs[j].queue then s.queues[k].given s.jobs[j].queue.val
    else s.queues[k] := by
  have h := giveMarks_queues s.jobs[j].queue.val (fun q => hasBit s.jobs[j].giveSet q.val && q != s.jobs[j].queue)
    (List.finRange 8) (List.nodup_finRange 8) s k
  have hqueues : (s.deliverGives j).queues = ((List.finRange 8).foldl (fun t q =>
      if hasBit s.jobs[j].giveSet q.val && q != s.jobs[j].queue then t.giveMark q s.jobs[j].queue.val else t) s).queues := by
    unfold State.deliverGives
    dsimp only
    split <;> rfl
  rw [hqueues, h]
  simp only [List.mem_finRange, true_and, Bool.and_eq_true, bne_iff_ne, ne_eq]

/-- A give to EXT makes the mark output owe one more pulse (R44, R45). -/
theorem deliverGives_markLine (s : State) (j : SlotId) : (s.deliverGives j).markLine =
    if hasBit s.jobs[j].giveSet 8 then s.markLine.owe else s.markLine := by
  have hline : ((List.finRange 8).foldl (fun t q =>
      if hasBit s.jobs[j].giveSet q.val && q != s.jobs[j].queue then t.giveMark q s.jobs[j].queue.val else t) s).markLine =
      s.markLine := by
    have hkeeps : KeepsAllBut [.queues, .passInProgress, .passOwed] s ((List.finRange 8).foldl (fun t q =>
        if hasBit s.jobs[j].giveSet q.val && q != s.jobs[j].queue then t.giveMark q s.jobs[j].queue.val else t) s) :=
      .foldl (fun t q => .ite (t.giveMark_keeps q _) (.refl _ t)) _ s
    exact hkeeps.part .markLine
  unfold State.deliverGives
  dsimp only
  rw [show extBit = 8 from rfl]
  split
  · rw [hline]
  · exact hline

theorem owe_owed (m : MarkLine) : m.owe.owed = min (m.owed + 1) 255 ∧
    m.owe.phase = if m.phase = .idle then .high else m.phase := by
  have hpos : 0 < min (m.owed + 1) 255 := by omega
  unfold MarkLine.owe MarkLine.begin
  by_cases h : m.phase = .idle
  · simp [h, hpos]
  · simp [h]

-- ## Behind the last sheet

/-- The job of a last sheet has no entries left. -/
theorem lastSheet_noEntries (hw : s.ports[p].window = [e])
    (halone : ∀ k : PortId, k ≠ p → ∀ f ∈ s.ports[k].window, f.job ≠ e.job) :
    ((s.hear p).sheetCounted p e).hasEntries e.job = false := by
  rw [hasEntries_any, List.any_eq_false]
  intro k _
  rw [Bool.not_eq_true, List.any_eq_false]
  intro i hi
  obtain ⟨f, hf, rfl⟩ := List.mem_map.1 hi
  by_cases hk : k = p
  · subst hk
    rw [← sheetEvent_ports, sheetEvent_ports_heard hw] at hf
    simp at hf
  · rw [sheetCounted_ports_ne hk, hear_ports_ne hk] at hf
    simpa using halone k hk f hf

/-- A job that is not ACTIVE stays as it is in an offer attempt (R92 step 3). -/
theorem offerAttempt_jobs_idle (h : s.jobs[k].state ≠ .active) (p : PortId) : (s.offerAttempt p).jobs[k] = s.jobs[k] := by
  cases hp : s.ports[p].feedOwner with
  | none => rw [offerAttempt_unowned hp]
  | some j =>
    by_cases hk : k = j
    · subst hk
      rw [offerAttempt_idle hp (.inr (.inr (.inr (.inr (.inr (.inl h))))))]
    · exact (offerAttempt_attempted hp).1 k hk

/-- The record that a sheet leaves is the one that its message leaves, unless the job is ACTIVE (R95). -/
theorem sheetPassed_jobs (h : (s.sheetEvent p e).jobs[e.job].state ≠ .active) :
    (((s.sheetEvent p e).offerAttempt p).holdTest p).jobs[e.job] = (s.sheetEvent p e).jobs[e.job] := by
  rw [(State.holdTest_keeps _ p).part .jobs, offerAttempt_jobs_idle h]

/-- An attempt and the hold test leave the queues and the mark output. -/
theorem sheetPassed_keeps (s : State) (p : PortId) (e : SendEntry) :
    KeepsAllBut [.jobs, .ports, .accounts, .pressLog, .notices, .passInProgress, .passOwed] (s.sheetEvent p e)
      (((s.sheetEvent p e).offerAttempt p).holdTest p) :=
  ((State.offerAttempt_keeps _ p).trans (State.holdTest_keeps _ p)).mono

-- ## Notices only join

/-- No notice leaves the queue. -/
def NoticesStay (s t : State) : Prop := ∀ x ∈ s.notices, x ∈ t.notices

theorem NoticesStay.refl (s : State) : NoticesStay s s := fun _ h => h

theorem NoticesStay.trans (h : NoticesStay s t) (h2 : NoticesStay t u) : NoticesStay s u := fun x hx => h2 x (h x hx)

theorem NoticesStay.of_eq (h : t.notices = s.notices) : NoticesStay s t := fun x hx => by rwa [h]

theorem flagJob_noticesStay (s : State) (j : SlotId) (f : JobFlag) : NoticesStay s (s.flagJob j f) := fun x hx => by
  rw [State.flagJob_notices]
  exact List.mem_append_left _ hx

theorem goDown_noticesStay (s : State) (p : PortId) (c : DownCause) : NoticesStay s (s.goDown p c) := fun x hx => by
  unfold State.goDown
  dsimp only
  split
  · rw [State.flagPort_notices]
    exact List.mem_append_left _ hx
  · exact hx

theorem holdTest_noticesStay (s : State) (p : PortId) : NoticesStay s (s.holdTest p) := by
  unfold State.holdTest
  split
  · exact goDown_noticesStay s p .hold
  · exact .refl s

theorem feedReleased_noticesStay (s : State) (p : PortId) : NoticesStay s (s.feedReleased p) :=
  NoticesStay.trans (.of_eq (State.askIfClaimable_notices s p)) (holdTest_noticesStay _ p)

theorem releasedWith_noticesStay (s : State) (p : PortId) (j : SlotId) (why : WaitReason) (flag : Option JobFlag) :
    NoticesStay s (s.releasedWith p j why flag) := by
  have hwait : NoticesStay s ((s.releaseFeed p j).makeWaiting j why) :=
    .of_eq (((State.releaseFeed_keeps _ p j).trans (State.makeWaiting_keeps _ j why)).part .notices)
  cases flag with
  | none => exact hwait
  | some f => exact hwait.trans (flagJob_noticesStay _ j f)

theorem offerAttempt_noticesStay (s : State) (p : PortId) : NoticesStay s (s.offerAttempt p) := by
  cases hp : s.ports[p].feedOwner with
  | none =>
    rw [offerAttempt_unowned hp]
    exact .refl s
  | some j =>
    by_cases hno : NoAttempt s p j
    · rw [offerAttempt_idle hp hno]
      exact .refl s
    cases hn : s.jobs[j].nextPage with
    | none =>
      rw [offerAttempt_starve hp hno hn]
      exact .refl s
    | some r =>
      rw [offerAttempt_page hp hno hn]
      by_cases hfull : s.ports[p].depth ≤ s.ports[p].window.length
      · rw [offerPage_full hfull]
        exact .refl s
      rw [offerPage_open hfull]
      split
      · exact (releasedWith_noticesStay s p j _ _).trans (feedReleased_noticesStay _ p)
      · split
        · exact .refl s
        · split
          · exact .refl s
          · exact (releasedWith_noticesStay s p j _ _).trans (feedReleased_noticesStay _ p)

-- ## Completion, field by field

/-- The queues of the give set, but the job's own, take its mark as it becomes DONE (R11, R44). -/
theorem becomeDone_queues (s : State) (j : SlotId) (k : QueueId) : (s.becomeDone j).queues[k] =
    if hasBit s.jobs[j].giveSet k.val = true ∧ k ≠ s.jobs[j].queue then s.queues[k].given s.jobs[j].queue.val
    else s.queues[k] := by
  rw [State.becomeDone, State.flagJob_queues, deliverGives_queues, State.updJob_jobs_self]
  rfl

theorem becomeDone_markLine (s : State) (j : SlotId) : (s.becomeDone j).markLine =
    if hasBit s.jobs[j].giveSet 8 then s.markLine.owe else s.markLine := by
  rw [State.becomeDone, State.flagJob_markLine, deliverGives_markLine, State.updJob_jobs_self]
  rfl

theorem becomeDone_notices (h : s.jobs[j].noticeOwed = false) : Source.job j ∈ (s.becomeDone j).notices := by
  have howed : ((s.updJob j (Job.enter .done)).deliverGives j).jobs[j].noticeOwed = false := by
    rw [(State.deliverGives_keeps _ j).part .jobs, State.updJob_jobs_self]
    exact h
  rw [State.becomeDone, State.flagJob_notices, howed]
  simp

theorem completeProof_keeps_marks (s : State) (j : SlotId) :
    (s.completeProof j).queues = s.queues ∧ (s.completeProof j).markLine = s.markLine := by
  have hkeeps := ((s.updJob_keeps j (fun x => { x with
    proofRun := false, cursorCopy := 1, cursorPage := 1, proofsDone := byteCount x.proofsDone })).trans
    (State.flagJob_keeps _ j .proofDone)).trans (State.makeWaiting_keeps _ j .hold)
  exact ⟨hkeeps.part .queues, hkeeps.part .markLine⟩

/-- A link that is UP goes DOWN and the port reports DETACHED (R87). -/
theorem goDown_ports_up (hup : s.ports[p].link = .up) (c : DownCause) : (s.goDown p c).ports[p] = { s.ports[p] with
    link := .down, downCause := some c, rateWindow := none, sending := none
    flags := addBit s.ports[p].flags PortFlag.detached.bit, noticeOwed := true } := by
  unfold State.goDown
  dsimp only
  rw [if_pos hup, Fin.getElem_fin, State.flagPort_ports_val, ← Fin.getElem_fin, State.updPort_ports_self]

-- ## The state behind a last sheet

/-- The job's record as the counting leaves it (R10 steps 1 to 4). -/
theorem heardCounted_record (s : State) (p : PortId) (e : SendEntry) :
    ∃ x, ((s.hear p).sheetCounted p e).jobs[e.job] = x ∧ x.state = s.jobs[e.job].state ∧ x.reason = s.jobs[e.job].reason ∧
      x.proofRun = s.jobs[e.job].proofRun ∧ x.proofsDone = s.jobs[e.job].proofsDone ∧ x.flags = s.jobs[e.job].flags ∧
      x.noticeOwed = s.jobs[e.job].noticeOwed ∧ x.giveSet = s.jobs[e.job].giveSet ∧ x.queue = s.jobs[e.job].queue ∧
      x.cursorCopy = s.jobs[e.job].cursorCopy ∧ x.cursorPage = s.jobs[e.job].cursorPage := by
  refine ⟨_, rfl, ?_⟩
  rw [sheetCounted_frame (s.hear p) p e]
  exact ⟨rfl, rfl, rfl, rfl, rfl, rfl, rfl, rfl, rfl, rfl⟩

theorem heardCounted_keeps (s : State) (p : PortId) (e : SendEntry) :
    KeepsAllBut [.jobs, .ports, .pages, .freePool, .accounts, .pressLog] s ((s.hear p).sheetCounted p e) :=
  ((State.hear_keeps s p).trans (sheetCounted_keeps (s.hear p) p e)).mono

/-- The sheet's counting leaves its job without entries (R10 step 5). -/
def AtLastSheet (s : State) (p : PortId) (e : SendEntry) : Prop :=
  ((s.hear p).sheetCounted p e).hasEntries e.job = false

/-- The state of a sheet event with its attempt and its hold test (R95). -/
def State.sheeted (s : State) (p : PortId) (e : SendEntry) : State :=
  (((s.hear p).sheetEvent p e).offerAttempt p).holdTest p

theorem sheeted_jobs (h : ((s.hear p).sheetEvent p e).jobs[e.job].state ≠ .active) :
    (s.sheeted p e).jobs[e.job] = ((s.hear p).sheetEvent p e).jobs[e.job] := sheetPassed_jobs h

theorem sheeted_noticesStay (s : State) (p : PortId) (e : SendEntry) :
    NoticesStay ((s.hear p).sheetEvent p e) (s.sheeted p e) :=
  (offerAttempt_noticesStay _ p).trans (holdTest_noticesStay _ p)

theorem sheeted_marks (s : State) (p : PortId) (e : SendEntry) :
    (s.sheeted p e).queues = ((s.hear p).sheetEvent p e).queues ∧
      (s.sheeted p e).markLine = ((s.hear p).sheetEvent p e).markLine :=
  ⟨(sheetPassed_keeps (s.hear p) p e).part .queues, (sheetPassed_keeps (s.hear p) p e).part .markLine⟩

/-- A HANDED job outside a proof run is DONE and gives its marks (R11, R44, R45). -/
theorem sheeted_done (h : AtLastSheet s p e) (hstate : s.jobs[e.job].state = .handed)
    (hproof : s.jobs[e.job].proofRun = false) :
    (s.sheeted p e).jobs[e.job].state = .done ∧ (s.sheeted p e).jobs[e.job].reason = none ∧
    (s.sheeted p e).jobs[e.job].flags = addBit s.jobs[e.job].flags 1 ∧ (s.sheeted p e).jobs[e.job].noticeOwed = true ∧
    (s.jobs[e.job].noticeOwed = false → Source.job e.job ∈ (s.sheeted p e).notices) ∧
    (∀ q : QueueId, (s.sheeted p e).queues[q] =
      if hasBit s.jobs[e.job].giveSet q.val = true ∧ q ≠ s.jobs[e.job].queue then s.queues[q].given s.jobs[e.job].queue.val
      else s.queues[q]) ∧
    (s.sheeted p e).markLine = if hasBit s.jobs[e.job].giveSet 8 then s.markLine.owe else s.markLine := by
  obtain ⟨x, hx, hxstate, -, hxproof, -, hxflags, hxowed, hxgive, hxqueue, -⟩ := heardCounted_record s p e
  have hm : (s.hear p).sheetEvent p e = ((s.hear p).sheetCounted p e).becomeDone e.job := by
    rw [sheetEvent_eq, afterSheet_handed h (by rw [hx, hxstate, hstate]), State.completeJob,
      if_neg (by rw [hx, hxproof, hproof]; decide)]
  have hjob := becomeDone_jobs_self ((s.hear p).sheetCounted p e) e.job
  rw [hx] at hjob
  have hstay : (s.sheeted p e).jobs[e.job] = _ := sheeted_jobs (by rw [hm, hjob]; simp)
  obtain ⟨hqueues, hline⟩ := sheeted_marks s p e
  rw [hstay, hqueues, hline, hm, hjob]
  refine ⟨rfl, rfl, ?_, rfl, fun howed => sheeted_noticesStay s p e _ ?_, fun q => ?_, ?_⟩
  · rw [hxflags]
  · rw [hm]
    exact becomeDone_notices (by rw [hx, hxowed, howed])
  · rw [becomeDone_queues, hx, hxgive, hxqueue, (heardCounted_keeps s p e).part .queues]
  · rw [becomeDone_markLine, hx, hxgive, (heardCounted_keeps s p e).part .markLine]

/-- A HANDED job in a proof run completes it and waits for HOLD (R12). -/
theorem sheeted_proof (h : AtLastSheet s p e) (hstate : s.jobs[e.job].state = .handed)
    (hproof : s.jobs[e.job].proofRun = true) :
    (s.sheeted p e).jobs[e.job].state = .waiting ∧ (s.sheeted p e).jobs[e.job].reason = some .hold ∧
    (s.sheeted p e).jobs[e.job].proofRun = false ∧ (s.sheeted p e).jobs[e.job].cursorCopy = 1 ∧
    (s.sheeted p e).jobs[e.job].cursorPage = 1 ∧
    (s.sheeted p e).jobs[e.job].proofsDone = min (s.jobs[e.job].proofsDone + 1) 255 ∧
    (s.sheeted p e).jobs[e.job].flags = addBit s.jobs[e.job].flags 7 ∧
    (s.sheeted p e).jobs[e.job].noticeOwed = true ∧ (s.sheeted p e).queues = s.queues ∧
    (s.sheeted p e).markLine = s.markLine := by
  obtain ⟨x, hx, hxstate, -, hxproof, hxdone, hxflags, -⟩ := heardCounted_record s p e
  have hm : (s.hear p).sheetEvent p e = ((s.hear p).sheetCounted p e).completeProof e.job := by
    rw [sheetEvent_eq, afterSheet_handed h (by rw [hx, hxstate, hstate]), State.completeJob,
      if_pos (by rw [hx, hxproof, hproof])]
  have hjob := completeProof_jobs_self ((s.hear p).sheetCounted p e) e.job
  rw [hx] at hjob
  have hstay : (s.sheeted p e).jobs[e.job] = _ := sheeted_jobs (by rw [hm, hjob]; simp)
  obtain ⟨hqueues, hline⟩ := sheeted_marks s p e
  obtain ⟨hproofQueues, hproofLine⟩ := completeProof_keeps_marks ((s.hear p).sheetCounted p e) e.job
  rw [hstay, hqueues, hline, hm, hjob, hproofQueues, hproofLine]
  refine ⟨rfl, rfl, rfl, rfl, rfl, ?_, ?_, rfl, (heardCounted_keeps s p e).part .queues,
    (heardCounted_keeps s p e).part .markLine⟩
  · rw [hxdone]
    rfl
  · rw [hxflags]
    rfl

/-- A CANCELLING job is CANCELLED (R16). -/
theorem sheeted_cancelled (h : AtLastSheet s p e) (hstate : s.jobs[e.job].state = .cancelling) :
    (s.sheeted p e).jobs[e.job].state = .cancelling ∧
    (s.sheeted p e).jobs[e.job].flags = addBit s.jobs[e.job].flags 2 ∧
    (s.sheeted p e).jobs[e.job].noticeOwed = true ∧ (s.sheeted p e).queues = s.queues ∧
    (s.sheeted p e).markLine = s.markLine := by
  obtain ⟨x, hx, hxstate, -, -, -, hxflags, -⟩ := heardCounted_record s p e
  have hm : (s.hear p).sheetEvent p e = ((s.hear p).sheetCounted p e).flagJob e.job .cancelled := by
    rw [sheetEvent_eq, afterSheet_cancelling h (by rw [hx, hxstate, hstate])]
  have hjob := flagJob_jobs_self ((s.hear p).sheetCounted p e) e.job .cancelled
  rw [hx] at hjob
  have hcancelling : x.state = .cancelling := hxstate.trans hstate
  have hstay : (s.sheeted p e).jobs[e.job] = _ := sheeted_jobs (by rw [hm, hjob]; simp [hcancelling])
  obtain ⟨hqueues, hline⟩ := sheeted_marks s p e
  rw [hstay, hqueues, hline, hm, hjob, State.flagJob_queues, State.flagJob_markLine]
  refine ⟨hcancelling, ?_, rfl, (heardCounted_keeps s p e).part .queues, (heardCounted_keeps s p e).part .markLine⟩
  rw [hxflags]
  rfl

/-- Without a feed owner only the hold test follows the sheet's message (R89, R92). -/
theorem sheeted_unowned (hw : s.ports[p].window = [e]) (hnone : s.ports[p].feedOwner = none) :
    s.sheeted p e = ((s.hear p).sheetEvent p e).holdTest p := by
  have hm : ((s.hear p).sheetEvent p e).ports[p].feedOwner = none := by
    rw [sheetEvent_ports_heard hw]
    exact hnone
  rw [State.sheeted, offerAttempt_unowned hm]

/-- A WAITING job keeps waiting, and its queue asks for a pass if it is in RUN (R181). -/
theorem sheeted_waiting (h : AtLastSheet s p e) (hw : s.ports[p].window = [e])
    (hstate : s.jobs[e.job].state = .waiting) (hnone : s.ports[p].feedOwner = none) :
    (s.sheeted p e).jobs[e.job].state = .waiting ∧ (s.sheeted p e).jobs[e.job].reason = s.jobs[e.job].reason ∧
    ((s.sheeted p e).jobs[e.job].cursorCopy, (s.sheeted p e).jobs[e.job].cursorPage) =
      (s.jobs[e.job].cursorCopy, s.jobs[e.job].cursorPage) ∧ OtherJobsSame e.job s (s.sheeted p e) ∧
    AskedIf (s.queues[s.jobs[e.job].queue].mode = .run) s (s.sheeted p e) ∧ OtherPortsSame p s (s.sheeted p e) ∧
    KeepsAllBut [.jobs, .ports, .pages, .freePool, .accounts, .notices, .passInProgress, .passOwed, .pressLog] s
      (s.sheeted p e) := by
  obtain ⟨x, hx, hxstate, hxreason, -, -, -, -, -, hxqueue, hxcopy, hxpage⟩ := heardCounted_record s p e
  have hcounted := heardCounted_keeps s p e
  have hm : (s.hear p).sheetEvent p e = ((s.hear p).sheetCounted p e).askIfRun s.jobs[e.job].queue := by
    rw [sheetEvent_eq, afterSheet_waiting h (by rw [hx, hxstate, hstate]), hx, hxqueue]
  have hheld := State.holdTest_keeps ((s.hear p).sheetEvent p e) p
  have ht := sheeted_unowned hw hnone
  have hjobs : (s.sheeted p e).jobs = ((s.hear p).sheetCounted p e).jobs := by
    rw [ht, hheld.part .jobs, hm, State.askIfRun_jobs]
  have hasked := askIfRun_asked ((s.hear p).sheetCounted p e) s.jobs[e.job].queue
  rw [hcounted.part .queues, ← hm] at hasked
  rw [hjobs, hx, hxstate, hxreason, hxcopy, hxpage]
  refine ⟨hstate, rfl, rfl, fun k hk => ?_, ?_, fun k hk => ?_, ?_⟩
  · rw [hjobs]
    exact sheetCounted_jobs_ne (s := s.hear p) hk
  · rw [ht]
    exact (hasked.after (.of_keeps hcounted)).before (.of_keeps hheld)
  · rw [ht, State.holdTest_ports_ne _ p k hk]
    exact sheetEvent_ports_ne hk
  · rw [ht]
    have hask := State.askIfRun_keeps (s := (s.hear p).sheetCounted p e) s.jobs[e.job].queue
    rw [← hm] at hask
    exact ((hcounted.trans hask).trans hheld).mono

/-- The port of a last sheet without a feed owner, before and after the hold test (R89). -/
theorem sheeted_port (hup : s.ports[p].link = .up) (hw : s.ports[p].window = [e]) (hnone : s.ports[p].feedOwner = none) :
    (s.sheeted p e).ports[p].window = [] ∧
    (s.ports[p].holdAsked = true → s.ports[p].inService = false → s.ports[p].setup = none →
      (s.sheeted p e).ports[p].link = .down ∧ (s.sheeted p e).ports[p].downCause = some .hold ∧
      hasBit (s.sheeted p e).ports[p].flags 1 = true ∧ (s.sheeted p e).ports[p].noticeOwed = true) ∧
    (s.ports[p].holdAsked = false → (s.sheeted p e).ports[p].link = .up ∧
      (s.sheeted p e).ports[p].flags = s.ports[p].flags) := by
  have hport := sheetEvent_ports_heard hw
  have hlink : ((s.hear p).sheetEvent p e).ports[p].link = .up := by
    rw [hport]
    exact hup
  obtain ⟨hunheld, -, hwindow, -⟩ := holdTest_frame ((s.hear p).sheetEvent p e) p
  rw [sheeted_unowned hw hnone]
  refine ⟨?_, fun hasked hout hsetup => ?_, fun hasked => ?_⟩
  · rw [hwindow, hport]
  · have hdown : ((s.hear p).sheetEvent p e).ports[p].holdsDown = true := by
      rw [hport]
      simp only [Port.holdsDown, heardPort, hasked, hout, hsetup, hnone, hup]
      rfl
    rw [State.holdTest, if_pos hdown, goDown_ports_up hlink]
    exact ⟨rfl, rfl, by rw [hasBit_addBit]; simp [PortFlag.bit], rfl⟩
  · rw [hunheld (by rw [hport]; exact hasked), hport]
    exact ⟨hup, rfl⟩

/-- Settles O42: what the counting leaves is the job without entries, and the cases follow its state. -/
theorem lastSheetCompletesTheJob : Obligations.LastSheetCompletesTheJob := by
  intro s p e x hup hs hw ht hx halone
  subst hx
  have hexec : exec (.sheet p e.serial) s = .next (s.sheeted p e) := exec_sheet hup hs hw ht
  have hlast : AtLastSheet s p e := lastSheet_noEntries hw halone
  refine ⟨fun hstate hproof => ?_, fun hstate hproof => ⟨_, hexec, sheeted_proof hlast hstate hproof⟩,
    fun hstate => ⟨_, hexec, sheeted_cancelled hlast hstate⟩,
    fun hstate hnone => ⟨_, hexec, sheeted_waiting hlast hw hstate hnone⟩,
    fun hnone => ⟨_, hexec, sheeted_port hup hw hnone⟩⟩
  obtain ⟨hdone, hreason, hflags, howed, hnotices, hqueues, hline⟩ := sheeted_done hlast hstate hproof
  refine ⟨_, hexec, hdone, hreason, hflags, howed, hnotices, fun q => ?_, fun hext => ?_, fun hext => ?_⟩
  · rw [hqueues q, Queue.given]
    grind
  · rw [hline, if_neg (by rw [hext]; decide)]
  · rw [hline, if_pos hext]
    exact owe_owed s.markLine

end Sys2Proof.Machine
end

