-- ==== Sys2Proof/Proofs/Eligibility.lean ====
section
/-! SUPPORT. Which ports a job may claim (R76) and what the ring search finds (R77). -/

namespace Sys2Proof.Machine

open Sys2Proof.Safety

variable {s t : State} {j k : SlotId} {p : PortId} {q : QueueId} {r : RecordId} {n : Fin 64}

-- ## The four conditions of R76

theorem subBits_iff {w : Nat} {a b : BitVec w} : subBits a b = true ↔ ∀ i, hasBit a i = true → hasBit b i = true := by
  unfold subBits minusBits hasBit
  rw [beq_iff_eq]
  constructor
  · intro h i hi
    have hbit := congrArg (fun v => v.getLsbD i) h
    simp only [BitVec.getLsbD_and, BitVec.getLsbD_not, hi, Bool.true_and] at hbit
    have hlt : i < w := BitVec.lt_of_getLsbD hi
    simpa [hlt] using hbit
  · intro h
    apply BitVec.eq_of_getLsbD_eq
    intro i hi
    have hi' := h i
    simp only [BitVec.getLsbD_and, BitVec.getLsbD_not, hi, decide_true, Bool.true_and]
    cases ha : a.getLsbD i <;> simp_all

theorem claimable_iff (s : State) (p : PortId) :
    s.claimable p = true ↔ s.ports[p].link = .up ∧ s.service p = .ready := by
  simp only [State.claimable, Bool.and_eq_true, beq_iff_eq]

theorem coversNeeds_iff (i : Ident) (x : Job) : i.coversNeeds x = true ↔ (x.needsColour = true → i.colour = true) ∧
    (x.needsDuplex = true → i.duplex = true) ∧
    ∀ m : Media, hasBit x.needsMedia m.val = true → hasBit i.media m.val = true := by
  have hmedia : subBits x.needsMedia i.media = true ↔
      ∀ m : Media, hasBit x.needsMedia m.val = true → hasBit i.media m.val = true := by
    rw [subBits_iff]
    refine ⟨fun h m => h m.val, fun h m hm => h ⟨m, ?_⟩ hm⟩
    exact BitVec.lt_of_getLsbD hm
  rw [Ident.coversNeeds, Bool.and_eq_true, Bool.and_eq_true, hmedia, and_assoc]
  cases x.needsColour <;> cases x.needsDuplex <;> simp

/-- The entries of job `j`, if there are any, stand at port `p`. -/
def EntriesAt (s : State) (j : SlotId) (p : PortId) : Prop := ∀ (k : PortId) (e : SendEntry), e ∈ s.ports[k].window → e.job = j → k = p

theorem holdsEntry_iff (s : State) (p : PortId) (j : SlotId) : s.holdsEntry p j = true ↔ ∃ e ∈ s.ports[p].window, e.job = j := by
  simp only [State.holdsEntry, List.any_eq_true, beq_iff_eq]

/-- The port of a job whose entries stand at one port (R76 condition 4). -/
theorem entryPort_of_entriesAt (h : EntriesAt s j p) : s.entryPort j = if s.holdsEntry p j then some p else none := by
  have hat : ∀ k, s.holdsEntry k j = true → k = p := fun k hk => by
    obtain ⟨e, he, hej⟩ := (holdsEntry_iff s k j).1 hk
    exact h k e he hej
  cases hf : s.entryPort j with
  | none =>
    have hnot := List.find?_eq_none.1 hf p (List.mem_finRange p)
    rw [if_neg hnot]
  | some k =>
    have hk := List.find?_some hf
    obtain rfl := hat k hk
    rw [if_pos hk]

theorem entriesAllow_iff (h : EntriesAt s j p) (k : PortId) : s.entriesAllow k j = true ↔
    (∃ e ∈ s.ports[k].window, e.job = j) ∨ ∀ (i : PortId) (e : SendEntry), e ∈ s.ports[i].window → e.job ≠ j := by
  unfold State.entriesAllow
  rw [entryPort_of_entriesAt h]
  by_cases hp : s.holdsEntry p j = true
  · rw [if_pos hp]
    obtain ⟨e, he, hej⟩ := (holdsEntry_iff s p j).1 hp
    simp only [beq_iff_eq]
    constructor
    · rintro rfl
      exact .inl ⟨e, he, hej⟩
    · rintro (⟨f, hf, hfj⟩ | hno)
      · exact (h k f hf hfj).symm
      · exact absurd hej (hno p e he)
  · rw [if_neg hp]
    refine ⟨fun _ => .inr fun i e he hej => hp ?_, fun _ => rfl⟩
    obtain rfl := h i e he hej
    exact (holdsEntry_iff s i j).2 ⟨e, he, hej⟩

theorem exclusionAllows_iff (s : State) (k : PortId) (j : SlotId) : s.exclusionAllows k j = true ↔
    ∀ x, s.jobs[j].exclusion = some x → x.port ≠ k ∧ s.queues[s.jobs[j].queue].reroute = true ∧
      (s.clock - x.tick).toNat < 2147483648 := by
  unfold State.exclusionAllows
  cases s.jobs[j].exclusion with
  | none => simp
  | some x => simp [Exclusion.hasCome, and_assoc]

theorem identCovers_iff (s : State) (k : PortId) (x : Job) :
    (s.ports[k].ident.map (fun i => i.coversNeeds x)).getD false = true ↔
      ∃ i, s.ports[k].ident = some i ∧ i.coversNeeds x = true := by
  cases s.ports[k].ident <;> simp

/-- The model's test of a port is R76's, for a job whose entries stand at one port. -/
theorem eligible_iff_mayClaim (h : EntriesAt s j p) (k : PortId) : s.eligible k j = true ↔ MayClaim s k j := by
  simp only [State.eligible, Bool.and_eq_true, claimable_iff, identCovers_iff, coversNeeds_iff, exclusionAllows_iff,
    entriesAllow_iff h, MayClaim, and_assoc]

-- ## First hits

/-- The first hit of a search over all indices. -/
theorem findSome?_finRange_eq {m : Nat} {α : Type} {f : Fin m → Option α} {i : Fin m} {b : α} (hi : f i = some b)
    (hbefore : ∀ k < i, f k = none) : (List.finRange m).findSome? f = some b := by
  rw [← Fin.findSome?_eq_findSome?_finRange]
  exact Fin.findSome?_eq_some_iff.2 ⟨i, hi, hbefore⟩

theorem find?_finRange_eq {m : Nat} {f : Fin m → Bool} {i : Fin m} (hi : f i = true) (hbefore : ∀ k < i, f k = false) :
    (List.finRange m).find? f = some i := by
  rw [← Fin.find?_eq_find?_finRange]
  exact Fin.find?_eq_some_iff.2 ⟨hi, hbefore⟩

/-- The first hit of a search over the numbers below a bound. -/
theorem findSome?_range_eq {m i : Nat} {α : Type} {f : Nat → Option α} {b : α} (him : i < m) (hi : f i = some b)
    (hbefore : ∀ k < i, f k = none) : (List.range m).findSome? f = some b := by
  induction m with
  | zero => omega
  | succ m ih =>
    rw [List.range_succ, List.findSome?_append]
    by_cases h : i < m
    · rw [ih h]
      rfl
    · obtain rfl : i = m := by omega
      have hnone : (List.range i).findSome? f = none :=
        List.findSome?_eq_none_iff.2 fun k hk => hbefore k (List.mem_range.1 hk)
      rw [hnone]
      simp [hi]

-- ## The ring search

theorem rowSet_val (s : State) (n : Fin 64) : s.rowSet n.val = s.rows[n] := by
  unfold State.rowSet
  simp

theorem rowSet_past {n : Nat} (h : 64 ≤ n) (s : State) : s.rowSet n = 0 := by
  unfold State.rowSet
  rw [Vector.getElem?_eq_none (by simpa using h)]
  rfl

theorem hasBit_zero (w i : Nat) : hasBit (0 : BitVec w) i = false := by simp [hasBit]

theorem mem_searchRows {x : Ring} {m : Nat} (hm : m ∈ x.searchRows) (hfirst : x.first ≤ x.current)
    (hlast : x.current ≤ x.last) : x.first ≤ m ∧ m ≤ x.last := by
  unfold Ring.searchRows at hm
  split at hm
  · rw [List.mem_singleton] at hm
    omega
  · simp only [List.mem_append, List.mem_map, List.mem_range] at hm
    rcases hm with ⟨i, hi, rfl⟩ | ⟨i, hi, rfl⟩
    · omega
    · omega

/-- A row in which no port may be claimed by the job gives none. -/
theorem rowPort_none {m : Nat} (h : ∀ k : PortId, hasBit (s.rowSet m) k.val = true → s.eligible k j = false) :
    s.rowPort j m = none := by
  unfold State.rowPort
  rw [List.find?_eq_none]
  intro k _
  rw [Bool.and_eq_true]
  rintro ⟨hk, he⟩
  rw [h k hk] at he
  exact absurd he (by decide)

/-- A search finds none when no row of the ring, from its first to its last, has a port that the job may claim. -/
theorem ringSearch_none (hfirst : s.rings[q].first ≤ s.rings[q].current) (hlast : s.rings[q].current ≤ s.rings[q].last)
    (h : ∀ (m : Fin 64) (k : PortId), s.rings[q].first ≤ m.val → m.val ≤ s.rings[q].last →
      hasBit s.rows[m] k.val = true → s.eligible k j = false) : s.ringSearch q j = none := by
  unfold State.ringSearch
  rw [List.findSome?_eq_none_iff]
  intro m hm
  obtain ⟨h1, h2⟩ := mem_searchRows hm hfirst hlast
  rw [Option.map_eq_none_iff]
  refine rowPort_none fun k hk => ?_
  by_cases hlt : m < 64
  · refine h ⟨m, hlt⟩ k h1 h2 ?_
    rw [← rowSet_val]
    exact hk
  · rw [rowSet_past (by omega), hasBit_zero] at hk
    exact absurd hk (by decide)

/-- A search finds the lowest eligible port of the first row, from the ring's current one, that has one (R77). -/
theorem ringSearch_eq (hrow : s.rowPort j n.val = some p) (hcurrent : s.rings[q].current ≤ n.val)
    (hlast : n.val ≤ s.rings[q].last) (hpin : s.rings[q].pinned = true → n.val = s.rings[q].current)
    (hbefore : ∀ m : Fin 64, s.rings[q].current ≤ m.val → m.val < n.val → s.rowPort j m.val = none) :
    s.ringSearch q j = some (p, n.val) := by
  unfold State.ringSearch Ring.searchRows
  split
  · rename_i hp
    rw [← hpin hp]
    simp [hrow]
  · have hhit : ((List.range (s.rings[q].last + 1 - s.rings[q].current)).map
        (fun k => s.rings[q].current + k)).findSome? (fun m => (s.rowPort j m).map (fun p => (p, m))) =
        some (p, n.val) := by
      rw [List.findSome?_map]
      refine findSome?_range_eq (i := n.val - s.rings[q].current) (by omega) ?_ fun k hk => ?_
      · rw [Function.comp_apply, Nat.add_sub_cancel' hcurrent, hrow]
        rfl
      · have hlt : s.rings[q].current + k < 64 := by omega
        have hnone := hbefore ⟨s.rings[q].current + k, hlt⟩ (Nat.le_add_right _ _) (by simp only; omega)
        rw [Function.comp_apply]
        simp only at hnone
        rw [hnone]
        rfl
    rw [List.findSome?_append, hhit]
    rfl

-- ## A job that passes every test

/-- The fields of `Dispatchable` that name the port and its row, taken apart with names. -/
theorem dispatchable_claims (h : Dispatchable s q j p n r) : EntriesAt s j p ∧ MayClaim s p j ∧
    s.rowPort j n.val = some p ∧ s.ringSearch q j = some (p, n.val) := by
  obtain ⟨-, -, hqueue, -, -, -, -, hhome, hexcl, hup, hready, ⟨i, hident, hneeds, -⟩, hbit, hlower, hcurrent, hlast, hpin,
    hrows⟩ := h
  have hclaim : MayClaim s p j := by
    refine ⟨hup, hready, ⟨i, hident, (coversNeeds_iff i _).1 hneeds⟩, hqueue ▸ hexcl, ?_⟩
    by_cases hp : ∃ e ∈ s.ports[p].window, e.job = j
    · exact .inl hp
    · refine .inr fun k e he hej => hp ?_
      obtain rfl := hhome k e he hej
      exact ⟨e, he, hej⟩
  have hnot : ∀ k, ¬MayClaim s k j → s.eligible k j = false := fun k hk => by
    rw [← Bool.not_eq_true, eligible_iff_mayClaim hhome]
    exact hk
  have hrow : s.rowPort j n.val = some p := by
    refine find?_finRange_eq ?_ fun k hk => ?_
    · rw [rowSet_val, hbit, (eligible_iff_mayClaim hhome p).2 hclaim]
      rfl
    · rw [rowSet_val]
      cases hb : hasBit s.rows[n] k.val with
      | false => rfl
      | true => rw [hnot k (hlower k hk hb)]; rfl
  refine ⟨hhome, hclaim, hrow, ringSearch_eq hrow hcurrent hlast hpin fun m h1 h2 => rowPort_none fun k hk => ?_⟩
  rw [rowSet_val] at hk
  exact hnot k (hrows m k h1 h2 hk)

end Sys2Proof.Machine
end

