-- ==== Sys2Proof/Proofs/Examination.lean ====
section
/-! SUPPORT. The dispatch examination (R38, R39): what it reads, and the proposal and the reasons that a walk down a list
leaves, told from the verdicts of the state before it. -/

namespace Sys2Proof.Machine

open Sys2Proof.Safety

variable {s t u : State} {j k : SlotId} {q : QueueId}

-- ## What an examination reads

/-- Job reasons, proposals and the asking for a pass are all that two states may differ in: an examination reads none of
them. -/
structure SameTests (s t : State) : Prop where
  keeps : KeepsAllBut [.jobs, .proposals, .passInProgress, .passOwed, .freeCount] s t
  jobs : ∀ k : SlotId, t.jobs[k] = { s.jobs[k] with reason := t.jobs[k].reason }

theorem SameTests.refl (s : State) : SameTests s s := ⟨.refl _ s, fun _ => rfl⟩

theorem SameTests.trans (h : SameTests s t) (h2 : SameTests t u) : SameTests s u :=
  ⟨h.keeps.next h2.keeps, fun k => by rw [h2.jobs k, h.jobs k]⟩

theorem SameTests.of_keeps {parts : List Part} (h : KeepsAllBut parts s t)
    (hparts : parts ⊆ [.proposals, .passInProgress, .passOwed, .freeCount] := by decide) : SameTests s t :=
  ⟨h.mono (fun x hx => List.mem_cons_of_mem _ (hparts hx)), fun k => by
    rw [h.part .jobs fun hx => absurd (hparts hx) (by decide)]⟩

section SameTests

variable (h : SameTests s t)

include h

theorem SameTests.queues : t.queues = s.queues := h.keeps.part .queues
theorem SameTests.pages : t.pages = s.pages := h.keeps.part .pages
theorem SameTests.rows : t.rows = s.rows := h.keeps.part .rows
theorem SameTests.rings : t.rings = s.rings := h.keeps.part .rings
theorem SameTests.ports : t.ports = s.ports := h.keeps.part .ports
theorem SameTests.accounts : t.accounts = s.accounts := h.keeps.part .accounts
theorem SameTests.alerts : t.alerts = s.alerts := h.keeps.part .alerts
theorem SameTests.clock : t.clock = s.clock := h.keeps.part .clock

theorem SameTests.entryPort (j : SlotId) : t.entryPort j = s.entryPort j := by
  simp only [State.entryPort, State.holdsEntry, h.ports]

theorem SameTests.claimable (p : PortId) : t.claimable p = s.claimable p := by
  simp only [State.claimable, State.service, h.ports, h.alerts]

theorem SameTests.eligible (p : PortId) (j : SlotId) : t.eligible p j = s.eligible p j := by
  have hexclusion : t.jobs[j].exclusion = s.jobs[j].exclusion := by rw [h.jobs j]
  have hqueue : t.jobs[j].queue = s.jobs[j].queue := by rw [h.jobs j]
  have hneeds : ∀ i : Ident, i.coversNeeds t.jobs[j] = i.coversNeeds s.jobs[j] := fun i => by
    rw [h.jobs j]
    rfl
  simp only [State.eligible, State.exclusionAllows, State.entriesAllow, h.claimable, h.entryPort, h.ports, h.queues,
    h.clock, hexclusion, hqueue, hneeds]

theorem SameTests.rowSet (n : Nat) : t.rowSet n = s.rowSet n := by
  simp only [State.rowSet, h.rows]

theorem SameTests.ringSearch (q : QueueId) (j : SlotId) : t.ringSearch q j = s.ringSearch q j := by
  simp only [State.ringSearch, State.rowPort, h.eligible, h.rowSet, h.rings]

theorem SameTests.drainOk (j : SlotId) : t.drainOk j = s.drainOk j := by
  simp only [State.drainOk, h.entryPort, h.claimable]

/-- The verdict on a job is the same in two states that differ in what no test reads. -/
theorem SameTests.examineJob (q : QueueId) (j : SlotId) : t.examineJob q j = s.examineJob q j := by
  have hpermits : ∀ d : DispatchState, d.permits t.jobs[j] = d.permits s.jobs[j] := fun d => by
    rw [h.jobs j]
    rfl
  have hkind : ∀ d : DispatchState, d.kindOf t.jobs[j] = d.kindOf s.jobs[j] := fun d => by
    rw [h.jobs j]
    rfl
  have hnext : t.jobs[j].nextPage = s.jobs[j].nextPage := by
    rw [h.jobs j]
    rfl
  obtain ⟨hstate, hclosed, hstream, hwait, haccount, hgeneration⟩ :
      t.jobs[j].state = s.jobs[j].state ∧ t.jobs[j].closed = s.jobs[j].closed ∧ t.jobs[j].stream = s.jobs[j].stream ∧
        t.jobs[j].waitSet = s.jobs[j].waitSet ∧ t.jobs[j].account = s.jobs[j].account ∧
        t.jobs[j].generation = s.jobs[j].generation := by
    rw [h.jobs j]
    exact ⟨rfl, rfl, rfl, rfl, rfl, rfl⟩
  simp only [State.examineJob, h.drainOk, h.ringSearch, h.queues, h.accounts, h.pages, hpermits, hkind, hnext, hstate,
    hclosed, hstream, hwait, haccount, hgeneration]

end SameTests

-- ## The walk down a list

/-- The reason that a verdict writes. -/
def Verdict.reason? : Verdict → Option WaitReason
  | .waits r => some r
  | _ => none

/-- The proposal that a verdict makes. -/
def Verdict.proposal? : Verdict → Option Proposal
  | .proposes p => some p
  | _ => none

/-- A job takes a wait reason, if there is one to take. -/
def Job.takeReason (r : Option WaitReason) (x : Job) : Job := { x with reason := r.or x.reason }

theorem Job.takeReason_none (x : Job) : x.takeReason none = x := rfl

theorem Job.takeReason_twice (r : Option WaitReason) (x : Job) : (x.takeReason r).takeReason r = x.takeReason r := by
  cases r <;> rfl

theorem sameTests_updReason (s : State) (j : SlotId) (r : Option WaitReason) :
    SameTests s (s.updJob j (Job.takeReason r)) := by
  refine ⟨(s.updJob_keeps j _).mono, fun k => ?_⟩
  by_cases hk : k = j
  · subst hk
    rw [State.updJob_jobs_self]
    rfl
  · rw [State.updJob_jobs_ne _ _ _ _ hk]

/-- One step of a walk, by the verdict on the list's first job. -/
theorem walk_cons (q : QueueId) (j : SlotId) (l : List SlotId) (s : State) : State.walk q (j :: l) s =
    match (s.examineJob q j).proposal? with
    | some p => (s, some p)
    | none => State.walk q l (s.updJob j (Job.takeReason (s.examineJob q j).reason?)) := by
  have hsame : s.updJob j (Job.takeReason none) = s :=
    congrArg (fun v => { s with jobs := v }) (Vector.set_getElem_self _)
  rw [State.walk]
  cases s.examineJob q j with
  | passedOver =>
    simp only [Verdict.proposal?, Verdict.reason?]
    rw [hsame]
  | waits r => rfl
  | proposes p => rfl

/-- The jobs of a list that a walk passes before it meets one that passes every test. -/
def State.walked (s : State) (q : QueueId) (l : List SlotId) : List SlotId :=
  l.takeWhile (fun j => (s.examineJob q j).proposal?.isNone)

/-- The proposal of a walk: that of the first job that passes every test. -/
def State.firstProposal (s : State) (q : QueueId) (l : List SlotId) : Option Proposal :=
  l.findSome? (fun j => (s.examineJob q j).proposal?)

/-- The reason that a walk writes to job `k`, if any. -/
def State.writtenReason (s : State) (q : QueueId) (l : List SlotId) (k : SlotId) : Option WaitReason :=
  if k ∈ s.walked q l then (s.examineJob q k).reason? else none

theorem SameTests.firstProposal (h : SameTests s t) (q : QueueId) (l : List SlotId) :
    t.firstProposal q l = s.firstProposal q l := by
  simp only [State.firstProposal, h.examineJob]

theorem SameTests.writtenReason (h : SameTests s t) (q : QueueId) (l : List SlotId) (k : SlotId) :
    t.writtenReason q l k = s.writtenReason q l k := by
  have hwalked : t.walked q l = s.walked q l := by
    simp only [State.walked, h.examineJob]
  rw [State.writtenReason, State.writtenReason, hwalked, h.examineJob]

theorem walk_sameTests (q : QueueId) (l : List SlotId) (s : State) : SameTests s (State.walk q l s).1 := by
  induction l generalizing s with
  | nil => exact .refl s
  | cons j l ih =>
    rw [walk_cons]
    split
    · exact .refl s
    · exact (sameTests_updReason s j _).trans (ih _)

theorem walk_proposal (q : QueueId) (l : List SlotId) (s : State) : (State.walk q l s).2 = s.firstProposal q l := by
  induction l generalizing s with
  | nil => rfl
  | cons j l ih =>
    rw [walk_cons, State.firstProposal, List.findSome?_cons]
    cases (s.examineJob q j).proposal? with
    | some p => rfl
    | none => exact (ih _).trans ((sameTests_updReason s j _).firstProposal q l)

theorem walk_jobs (q : QueueId) (l : List SlotId) (s : State) (k : SlotId) :
    (State.walk q l s).1.jobs[k] = s.jobs[k].takeReason (s.writtenReason q l k) := by
  induction l generalizing s with
  | nil => rfl
  | cons j l ih =>
    rw [walk_cons, State.writtenReason, State.walked, List.takeWhile_cons]
    cases hv : (s.examineJob q j).proposal? with
    | some p => simp [Job.takeReason_none]
    | none =>
      simp only [Option.isNone_none, if_true, List.mem_cons]
      refine (ih _).trans ?_
      rw [(sameTests_updReason s j _).writtenReason, State.writtenReason, State.walked]
      by_cases hk : k = j
      · subst hk
        rw [State.updJob_jobs_self, if_pos (Or.inl rfl)]
        split
        · exact Job.takeReason_twice _ _
        · rfl
      · rw [State.updJob_jobs_ne _ _ _ _ hk]
        simp only [hk, false_or]

-- ## The examination of a queue

/-- The proposal of an examination of queue `q` (R39, R80). -/
def State.proposalFor (s : State) (q : QueueId) : Option Proposal :=
  if s.queues[q].mode = .run then s.firstProposal q s.queues[q].list else none

/-- The reason that an examination of queue `q` writes to job `k`, if any (R39). -/
def State.reasonFor (s : State) (q : QueueId) (k : SlotId) : Option WaitReason :=
  if s.queues[q].mode = .run then s.writtenReason q s.queues[q].list k else none

theorem SameTests.proposalFor (h : SameTests s t) (q : QueueId) : t.proposalFor q = s.proposalFor q := by
  simp only [State.proposalFor, h.queues, h.firstProposal]

theorem SameTests.reasonFor (h : SameTests s t) (q : QueueId) (k : SlotId) : t.reasonFor q k = s.reasonFor q k := by
  simp only [State.reasonFor, h.queues, h.writtenReason]

/-- What one examination of queue `q` makes of a state, the asking for a pass apart. -/
structure Examined (s : State) (q : QueueId) (t : State) : Prop where
  same : SameTests s t
  proposal : t.proposals[q] = s.proposalFor q
  others : ∀ k : QueueId, k ≠ q → t.proposals[k] = s.proposals[k]
  jobs : ∀ k : SlotId, t.jobs[k] = s.jobs[k].takeReason (s.reasonFor q k)

theorem examine_examined (s : State) (q : QueueId) : Examined s q (s.examine q) := by
  by_cases hrun : s.queues[q].mode = .run
  · have hwalk := walk_sameTests q s.queues[q].list s
    rw [State.examine, if_pos hrun]
    refine ⟨hwalk.trans (.of_keeps (State.updProposal_keeps _ q _)), ?_, fun k hk => ?_, fun k => ?_⟩
    · rw [State.updProposal_proposals_self, walk_proposal, State.proposalFor, if_pos hrun]
    · rw [State.updProposal_proposals_ne _ _ _ _ hk, (State.walk_keeps q _ s).part .proposals]
    · rw [State.updProposal_jobs, walk_jobs, State.reasonFor, if_pos hrun]
  · rw [State.examine, if_neg hrun]
    refine ⟨.of_keeps (s.updProposal_keeps q _), ?_, fun k hk => ?_, fun k => ?_⟩
    · rw [State.updProposal_proposals_self, State.proposalFor, if_neg hrun]
    · rw [State.updProposal_proposals_ne _ _ _ _ hk]
    · rw [State.updProposal_jobs, State.reasonFor, if_neg hrun, Job.takeReason_none]

theorem examineAgain_examined (s : State) (q : QueueId) : Examined s q (s.examineAgain q) := by
  have hask : SameTests s (s.askIfRun q) := .of_keeps (s.askIfRun_keeps q)
  obtain ⟨hsame, hproposal, hothers, hjobs⟩ := examine_examined (s.askIfRun q) q
  refine ⟨hask.trans hsame, hproposal.trans (hask.proposalFor q), fun k hk => (hothers k hk).trans ?_, fun k => ?_⟩
  · rw [(s.askIfRun_keeps q).part .proposals]
  · exact (hjobs k).trans (by rw [hask.reasonFor, State.askIfRun_jobs])

/-- Examinations of the queues of a list, one after the other. -/
theorem examined_foldl {f : State → QueueId → State} (hf : ∀ t q, Examined t q (f t q)) (ks : List QueueId) (s : State) :
    SameTests s (ks.foldl f s) ∧
    (∀ q : QueueId, (ks.foldl f s).proposals[q] = if q ∈ ks then s.proposalFor q else s.proposals[q]) ∧
    ∀ k : SlotId, (ks.foldl f s).jobs[k] = ks.foldl (fun x q => x.takeReason (s.reasonFor q k)) s.jobs[k] := by
  induction ks generalizing s with
  | nil => exact ⟨.refl s, fun q => by simp, fun k => rfl⟩
  | cons q ks ih =>
    obtain ⟨hsame, hproposal, hothers, hjobs⟩ := hf s q
    obtain ⟨hsame', hproposals', hjobs'⟩ := ih (f s q)
    refine ⟨hsame.trans hsame', fun i => ?_, fun k => ?_⟩
    · rw [List.foldl_cons, hproposals', hsame.proposalFor]
      by_cases hi : i = q
      · subst hi
        rw [hproposal]
        simp
      · rw [hothers i hi]
        simp [hi]
    · rw [List.foldl_cons, List.foldl_cons, hjobs', hjobs]
      simp only [hsame.reasonFor]

theorem takeReasons_none {f : QueueId → Option WaitReason} {ks : List QueueId} (h : ∀ i ∈ ks, f i = none) (x : Job) :
    ks.foldl (fun x i => x.takeReason (f i)) x = x := by
  induction ks generalizing x with
  | nil => rfl
  | cons i ks ih =>
    rw [List.foldl_cons, h i (List.mem_cons_self ..), Job.takeReason_none]
    exact ih (fun k hk => h k (List.mem_cons_of_mem _ hk)) x

/-- Of the reasons offered in turn only one queue's is one. -/
theorem takeReasons_one {f : QueueId → Option WaitReason} {ks : List QueueId} (hq : q ∈ ks)
    (h : ∀ i ∈ ks, i ≠ q → f i = none) (x : Job) : ks.foldl (fun x i => x.takeReason (f i)) x = x.takeReason (f q) := by
  induction ks generalizing x with
  | nil => simp at hq
  | cons i ks ih =>
    have hrest : ∀ k ∈ ks, k ≠ q → f k = none := fun k hk => h k (List.mem_cons_of_mem _ hk)
    rw [List.foldl_cons]
    by_cases hmem : q ∈ ks
    · rw [ih hmem hrest]
      by_cases hi : i = q
      · rw [hi, Job.takeReason_twice]
      · rw [h i (List.mem_cons_self ..) hi, Job.takeReason_none]
    · obtain rfl : q = i := by simpa [hmem] using hq
      exact takeReasons_none (fun k hk => hrest k hk fun he => hmem (he ▸ hk)) _

end Sys2Proof.Machine
end

