-- ==== Sys2Proof/Proofs/Verdicts.lean ====
section
/-! SUPPORT. The verdicts of an examination (R38), the grant of a port (R82) and the attempt that it makes (R92). -/

namespace Sys2Proof.Machine

open Sys2Proof.Safety

variable {s t : State} {j k : SlotId} {p : PortId} {q : QueueId} {r : RecordId} {n : Fin 64}

-- ## Verdicts

theorem neverStarted_iff (x : Job) : x.neverStarted = true ↔ x.started = false ∧ x.proofRun = false := by
  rw [Job.neverStarted, Bool.and_eq_true, Bool.not_eq_true', Bool.not_eq_true']

/-- When a dispatch state does not permit a job (R34). -/
theorem permits_eq_false {d : DispatchState} {x : Job} (h : x.started = false ∧ x.proofRun = false)
    (hd : d = .hold ∨ (d = .proof ∧ x.closed = false)) : d.permits x = false := by
  have hnever := (neverStarted_iff x).2 h
  rcases hd with rfl | ⟨rfl, hclosed⟩
  · simp [DispatchState.permits, hnever]
  · simp [DispatchState.permits, hnever, hclosed]

theorem examineJob_passedOver (h : PassedOver s q k) : s.examineJob q k = .passedOver := by
  unfold State.examineJob
  dsimp only
  by_cases hfirst : s.jobs[k].state ≠ .waiting ∨ s.queues[q].dispatch.permits s.jobs[k] = false ∨
      (s.jobs[k].closed || s.jobs[k].stream) = false
  · exact if_pos hfirst
  · rw [if_neg hfirst]
    rcases h with hstate | ⟨hclosed, hstream⟩ | hnext | ⟨hstarted, hproof, hd⟩
    · exact absurd (Or.inl hstate) hfirst
    · exact absurd (Or.inr (Or.inr (by rw [hclosed, hstream]; rfl))) hfirst
    · simp only [hnext]
    · exact absurd (Or.inr (Or.inl (permits_eq_false ⟨hstarted, hproof⟩ hd))) hfirst

theorem permits_of_started {d : DispatchState} {x : Job} (h : x.neverStarted = false) : d.permits x = true := by
  cases d <;> simp [DispatchState.permits, h]

/-- The proposal of queue `q` for its job `j` and port `p`, found in row `m` (R79). -/
def State.claimOf (s : State) (q : QueueId) (j : SlotId) (p : PortId) (m : Nat) : Proposal where
  slot := j
  generation := s.jobs[j].generation
  port := p
  row := m
  kind := s.queues[q].dispatch.kindOf s.jobs[j]
  written := false

/-- Tests 6 to 9 of R38, for a job that passes tests 2 to 5. -/
theorem examineJob_sendable (hstate : s.jobs[k].state = .waiting)
    (hfull : s.jobs[k].closed = true ∨ s.jobs[k].stream = true)
    (hpermits : s.queues[q].dispatch.permits s.jobs[k] = true) (hnext : s.jobs[k].nextPage = some r) :
    s.examineJob q k =
      if s.queues[q].dispatch.kindOf s.jobs[k] = .firstRealStart ∧
          subBits s.jobs[k].waitSet s.queues[q].received = false then .waits .marks
      else if s.accounts[s.jobs[k].account].canReserve s.pages[r].sides = false then .waits .allowance
      else if s.drainOk k = false then .waits .drain
      else (s.ringSearch q k).elim (.waits .route) (fun found => .proposes (s.claimOf q k found.1 found.2)) := by
  have hnot : ¬(s.jobs[k].state ≠ .waiting ∨ s.queues[q].dispatch.permits s.jobs[k] = false ∨
      (s.jobs[k].closed || s.jobs[k].stream) = false) := by
    rw [hpermits, Bool.or_eq_false_iff]
    rintro (h | h | ⟨hc, hs⟩)
    · exact h hstate
    · exact absurd h (by decide)
    · rw [hc, hs] at hfull
      exact absurd hfull (by decide)
  unfold State.examineJob
  dsimp only
  rw [if_neg hnot]
  simp only [hnext]
  cases s.ringSearch q k <;> rfl

theorem kindOf_started {x : Job} {d : DispatchState} (h : ¬(x.started = false ∧ x.proofRun = false)) :
    d.kindOf x = .reclaim := by
  have hnot : x.neverStarted = false := by rw [← Bool.not_eq_true, neverStarted_iff]; exact h
  rw [DispatchState.kindOf, if_pos hnot]

theorem kindOf_neverStarted {x : Job} {d : DispatchState} (h : x.started = false ∧ x.proofRun = false) :
    d.kindOf x = if d = .proof then .proofStart else .firstRealStart := by
  rw [DispatchState.kindOf, if_neg (by rw [(neverStarted_iff x).2 h]; decide)]

theorem examineJob_marks (h : LacksMarks s q k) : s.examineJob q k = .waits .marks := by
  obtain ⟨hstate, hclosed, hnext, hstarted, hproof, hd, hmarks⟩ := h
  obtain ⟨r, hr⟩ := Option.ne_none_iff_exists'.1 hnext
  have hpermits : s.queues[q].dispatch.permits s.jobs[k] = true := by rcases hd with hd | hd <;> rw [hd] <;> rfl
  have hkind : s.queues[q].dispatch.kindOf s.jobs[k] = .firstRealStart := by
    rw [kindOf_neverStarted ⟨hstarted, hproof⟩, if_neg]
    rcases hd with hd | hd <;> rw [hd] <;> decide
  rw [examineJob_sendable hstate (.inl hclosed) hpermits hr, if_pos ⟨hkind, hmarks⟩]

theorem claimable_of_mayClaim (h : MayClaim s p j) : s.claimable p = true := by
  obtain ⟨hup, hready, -⟩ := h
  exact (claimable_iff s p).2 ⟨hup, hready⟩

theorem drainOk_of_entriesAt (h : EntriesAt s j p) (hp : s.claimable p = true) : s.drainOk j = true := by
  unfold State.drainOk
  rw [entryPort_of_entriesAt h]
  split
  · rfl
  · rename_i k hk
    obtain rfl : p = k := by
      split at hk
      · exact Option.some.inj hk
      · exact absurd hk (by simp)
    exact hp

theorem canReserve_iff (a : Account) (f : Nat) :
    a.canReserve f = true ↔ a.unmetered = true ∨ a.reserved + f ≤ a.allowance := by
  rw [Account.canReserve, Bool.or_eq_true, decide_eq_true_eq]

theorem dispatchable_run (h : Dispatchable s q j p n r) : s.queues[q].mode = .run := by
  obtain ⟨hrun, -⟩ := h
  exact hrun

theorem permits_of_dispatchable (h : Dispatchable s q j p n r) : s.queues[q].dispatch.permits s.jobs[j] = true := by
  obtain ⟨-, -, -, -, -, hstart, -⟩ := h
  have hnever : s.jobs[j].started = true ∨ s.jobs[j].proofRun = true → s.jobs[j].neverStarted = false := by
    intro h
    rw [← Bool.not_eq_true, neverStarted_iff]
    rintro ⟨h1, h2⟩
    rw [h1, h2] at h
    exact absurd h (by decide)
  rcases hstart with h | h | ⟨hd | hd, -⟩ | ⟨hd, hclosed⟩
  · exact permits_of_started (hnever (.inl h))
  · exact permits_of_started (hnever (.inr h))
  · rw [hd]
    rfl
  · rw [hd]
    rfl
  · rw [hd, DispatchState.permits, hclosed, Bool.or_true]

/-- Test 6 of R38 does not stop a job that passes every test. -/
theorem marks_of_dispatchable (h : Dispatchable s q j p n r) :
    ¬(s.queues[q].dispatch.kindOf s.jobs[j] = .firstRealStart ∧
      subBits s.jobs[j].waitSet s.queues[q].received = false) := by
  obtain ⟨-, -, -, -, -, hstart, -⟩ := h
  rintro ⟨hkind, hmarks⟩
  rcases hstart with h | h | ⟨-, hsub⟩ | ⟨hd, -⟩
  · rw [kindOf_started (by rw [h]; simp)] at hkind
    exact absurd hkind (by decide)
  · rw [kindOf_started (by rw [h]; simp)] at hkind
    exact absurd hkind (by decide)
  · rw [hsub] at hmarks
    exact absurd hmarks (by decide)
  · unfold DispatchState.kindOf at hkind
    rw [hd] at hkind
    split at hkind
    · exact absurd hkind (by decide)
    · exact absurd hkind (by decide)

theorem examineJob_proposes (h : Dispatchable s q j p n r) : s.examineJob q j = .proposes (s.claimOf q j p n.val) := by
  obtain ⟨hhome, hclaim, -, hsearch⟩ := dispatchable_claims h
  have hpermits := permits_of_dispatchable h
  have hmarks := marks_of_dispatchable h
  obtain ⟨-, hstate, -, hfull, hnext, -, hallow, -⟩ := h
  rw [examineJob_sendable hstate hfull hpermits hnext, if_neg hmarks,
    if_neg (by rw [(canReserve_iff _ _).2 hallow]; decide),
    if_neg (by rw [drainOk_of_entriesAt hhome (claimable_of_mayClaim hclaim)]; decide), hsearch]
  rfl

end Sys2Proof.Machine
end

