-- ==== Sys2Proof/Proofs/Grant.lean ====
section
/-! SUPPORT. The grant of a port (R5, R40, R43, R78, R82) and the attempt that it makes (R92). -/

namespace Sys2Proof.Machine

open Sys2Proof.Safety

variable {s t : State} {j k : SlotId} {p : PortId} {q : QueueId} {r : RecordId} {n : Fin 64} {x : Proposal}

-- ## What a grant writes

/-- The state of a grant before the attempt that it makes (R82). -/
def State.claimed (q : QueueId) (x : Proposal) (s : State) : State :=
  ((((s.updPort x.port (fun r => { r with feedOwner := some x.slot })).updJob x.slot (Job.claim x.port x.kind)).updQueue q
    (Queue.claim s.jobs[x.slot].waitSet x.kind)).updRing q (Ring.rotate s.queues[q].rotate x.row)).updProposal q
    (fun _ => none)

theorem grant_eq (q : QueueId) (x : Proposal) (s : State) : s.grant q x = (s.claimed q x).offerAttempt x.port := rfl

theorem claimed_keeps (q : QueueId) (x : Proposal) (s : State) :
    KeepsAllBut [.jobs, .queues, .ports, .rings, .proposals] s (s.claimed q x) :=
  (((((s.updPort_keeps x.port _).trans (State.updJob_keeps _ x.slot _)).trans (State.updQueue_keeps _ q _)).trans
    (State.updRing_keeps _ q _)).trans (State.updProposal_keeps _ q _)).mono

theorem claimed_jobs_self (q : QueueId) (x : Proposal) (s : State) :
    (s.claimed q x).jobs[x.slot] = s.jobs[x.slot].claim x.port x.kind := by
  simp only [State.claimed, State.updProposal_jobs, State.updRing_jobs, State.updQueue_jobs, State.updJob_jobs_self,
    State.updPort_jobs]

theorem claimed_jobs_ne (hk : k ≠ x.slot) : (s.claimed q x).jobs[k] = s.jobs[k] := by
  simp only [State.claimed, State.updProposal_jobs, State.updRing_jobs, State.updQueue_jobs]
  rw [State.updJob_jobs_ne _ _ _ _ hk, State.updPort_jobs]

theorem claimed_queues_self (q : QueueId) (x : Proposal) (s : State) :
    (s.claimed q x).queues[q] = s.queues[q].claim s.jobs[x.slot].waitSet x.kind := by
  simp only [State.claimed, State.updProposal_queues, State.updRing_queues, State.updQueue_queues_self,
    State.updJob_queues, State.updPort_queues]

theorem claimed_queues_ne {i : QueueId} (hi : i ≠ q) : (s.claimed q x).queues[i] = s.queues[i] := by
  simp only [State.claimed, State.updProposal_queues, State.updRing_queues]
  rw [State.updQueue_queues_ne _ _ _ _ hi, State.updJob_queues, State.updPort_queues]

theorem claimed_ports_self (q : QueueId) (x : Proposal) (s : State) :
    (s.claimed q x).ports[x.port] = { s.ports[x.port] with feedOwner := some x.slot } := by
  simp only [State.claimed, State.updProposal_ports, State.updRing_ports, State.updQueue_ports, State.updJob_ports,
    State.updPort_ports_self]

theorem claimed_ports_ne {i : PortId} (hi : i ≠ x.port) : (s.claimed q x).ports[i] = s.ports[i] := by
  simp only [State.claimed, State.updProposal_ports, State.updRing_ports, State.updQueue_ports, State.updJob_ports]
  exact s.updPort_ports_ne _ _ _ hi

theorem claimed_rings_self (q : QueueId) (x : Proposal) (s : State) :
    (s.claimed q x).rings[q] = s.rings[q].rotate s.queues[q].rotate x.row := by
  simp only [State.claimed, State.updProposal_rings, State.updRing_rings_self, State.updQueue_rings, State.updJob_rings,
    State.updPort_rings]

theorem claimed_rings_ne {i : QueueId} (hi : i ≠ q) : (s.claimed q x).rings[i] = s.rings[i] := by
  simp only [State.claimed, State.updProposal_rings]
  rw [State.updRing_rings_ne _ _ _ _ hi, State.updQueue_rings, State.updJob_rings, State.updPort_rings]

theorem claimed_proposals_self (q : QueueId) (x : Proposal) (s : State) : (s.claimed q x).proposals[q] = none :=
  State.updProposal_proposals_self _ q _

theorem claimed_proposals_ne {i : QueueId} (hi : i ≠ q) : (s.claimed q x).proposals[i] = s.proposals[i] := by
  rw [State.claimed, State.updProposal_proposals_ne _ _ _ _ hi]
  rfl

-- ## An attempt with a page that fits

/-- What an attempt may change of a state whose feed owner has a sendable page that fits: a place of the window, the
cursor, the account's reservation and the setup hold, and no feed. -/
structure AttemptFits (s t : State) (p : PortId) (j : SlotId) : Prop where
  keeps : KeepsAllBut [.jobs, .ports, .accounts, .pressLog] s t
  jobs : OtherJobsSame j s t
  job : t.jobs[j] = { s.jobs[j] with cursorCopy := t.jobs[j].cursorCopy, cursorPage := t.jobs[j].cursorPage }
  ports : OtherPortsSame p s t
  owner : t.ports[p].feedOwner = s.ports[p].feedOwner
  accounts : OtherAccountsSame s.jobs[j].account s t
  window : t.ports[p].window = s.ports[p].window ∨ ∃ e : SendEntry, t.ports[p].window = s.ports[p].window ++ [e] ∧
    e.job = j ∧ e.state = .streaming ∧ e.place = s.jobs[j].cursorPage ∧ e.copy = s.jobs[j].cursorCopy

theorem AttemptFits.refl (s : State) (p : PortId) (j : SlotId) : AttemptFits s s p j :=
  ⟨.refl _ s, fun _ _ => rfl, rfl, fun _ _ => rfl, rfl, fun _ _ => rfl, .inl rfl⟩

theorem beginSetup_fits (s : State) (p : PortId) (j : SlotId) (m : Media) : AttemptFits s (s.beginSetup p m) p j := by
  have hport := beginSetup_ports_self s p m
  refine ⟨(s.beginSetup_keeps p m).mono, fun _ _ => rfl, rfl, fun _ hk => beginSetup_ports_ne hk m, ?_,
    fun _ _ => rfl, .inl ?_⟩
  · rw [hport]
  · rw [hport]

theorem reservedOffer_fits (s : State) (p : PortId) (j : SlotId) (r : RecordId) :
    AttemptFits s (s.reservedOffer p j r) p j := by
  have hport := reservedOffer_ports_self s p j r
  have hjob := reservedOffer_jobs_self s p j r
  refine ⟨?_, fun _ hk => reservedOffer_jobs_ne hk, ?_, fun _ hk => reservedOffer_ports_ne hk, ?_, fun a ha => ?_,
    .inr ⟨_, (by rw [hport]), rfl, rfl, rfl, rfl⟩⟩
  · exact ((s.updAccount_keeps s.jobs[j].account (Account.reserve s.pages[r].sides)).trans (State.offer_keeps _ p j r)).mono
  · rw [hjob]
    unfold Job.advance
    split <;> rfl
  · rw [hport]
  · rw [reservedOffer_accounts, State.updAccount_accounts_ne _ _ _ _ ha]

/-- An attempt whose page the Ident covers and the account can pay for releases no feed (R92 steps 5 and 7). -/
theorem offerAttempt_fits (hp : s.ports[p].feedOwner = some j) (hn : s.jobs[j].nextPage = some r)
    (hcover : ∃ i, s.ports[p].ident = some i ∧ i.covers s.pages[r] = true)
    (hreserve : s.accounts[s.jobs[j].account].canReserve s.pages[r].sides = true) :
    AttemptFits s (s.offerAttempt p) p j := by
  by_cases hno : NoAttempt s p j
  · rw [offerAttempt_idle hp hno]
    exact .refl s p j
  rw [offerAttempt_page hp hno hn]
  by_cases hfull : s.ports[p].depth ≤ s.ports[p].window.length
  · rw [offerPage_full hfull]
    exact .refl s p j
  obtain ⟨i, hident, hcovers⟩ := hcover
  rw [offerPage_open hfull, if_neg (by rw [hident, Option.map_some, Option.getD_some, hcovers]; decide)]
  by_cases hmedia : s.ports[p].loaded ≠ s.pages[r].media
  · rw [if_pos hmedia]
    exact beginSetup_fits s p j _
  · rw [if_neg hmedia, if_pos hreserve]
    exact reservedOffer_fits s p j r

-- ## The grant

theorem kindOf_first (d : DispatchState) (x : Job) :
    (d.kindOf x == .firstRealStart) = (!x.started && !x.proofRun && d != .proof) := by
  unfold DispatchState.kindOf Job.neverStarted
  cases x.started <;> cases x.proofRun <;> cases d <;> rfl

theorem kindOf_proof (d : DispatchState) (x : Job) :
    (d.kindOf x == .proofStart) = (!x.started && !x.proofRun && d == .proof) := by
  unfold DispatchState.kindOf Job.neverStarted
  cases x.started <;> cases x.proofRun <;> cases d <;> rfl

theorem Queue.claim_eq (w : MarkSet) (kind : ProposalKind) (x : Queue) : x.claim w kind = { x with
    received := if kind == .firstRealStart then minusBits x.received w else x.received
    dispatch := if kind == .proofStart || (kind == .firstRealStart && x.dispatch == .step) then .hold else x.dispatch } := by
  cases kind with
  | reclaim => rfl
  | proofStart => rfl
  | firstRealStart => cases hd : x.dispatch <;> simp [Queue.claim, hd]

theorem Ring.rotate_eq (on : Bool) (used : Nat) (x : Ring) : x.rotate on used = { x with
    current := if x.pinned = false ∧ on = true then (if used = x.last then x.first else used + 1) else x.current } := by
  unfold Ring.rotate
  split <;> rfl

/-- What a grant makes of its queue and its job, by the kind of the start (R5, R40, R43). -/
theorem granted_of (h : AttemptFits (s.claimed q (s.claimOf q j p n.val)) t p j) : Granted s t q j p n := by
  have hjob : (s.claimed q (s.claimOf q j p n.val)).jobs[j] =
      s.jobs[j].claim p (s.queues[q].dispatch.kindOf s.jobs[j]) := claimed_jobs_self q (s.claimOf q j p n.val) s
  have hport : (s.claimed q (s.claimOf q j p n.val)).ports[p] = { s.ports[p] with feedOwner := some j } :=
    claimed_ports_self q (s.claimOf q j p n.val) s
  have hqueues : t.queues = (s.claimed q (s.claimOf q j p n.val)).queues := h.keeps.part .queues
  have hrings : t.rings = (s.claimed q (s.claimOf q j p n.val)).rings := h.keeps.part .rings
  refine ⟨fun first proof hfirst hproof => ⟨?_, ?_⟩, ?_, ?_, ?_⟩
  · rw [h.job, hjob, hfirst, hproof, ← kindOf_first, ← kindOf_proof]
    rfl
  · rw [hqueues, claimed_queues_self, Queue.claim_eq, hfirst, hproof, ← kindOf_first, ← kindOf_proof]
    rfl
  · rw [h.owner, hport]
  · rw [hrings, claimed_rings_self, Ring.rotate_eq]
    rfl
  · have hwindow := h.window
    rw [hport, hjob] at hwindow
    exact hwindow

end Sys2Proof.Machine
end

