-- ==== Sys2Proof/Proofs/Round.lean ====
section
/-! SUPPORT. A dispatch pass of one round in which every proposal names one port (R39, R79 to R82). -/

namespace Sys2Proof.Machine

open Sys2Proof.Safety

variable {s t : State} {j k : SlotId} {p : PortId} {q : QueueId} {r : RecordId} {n : Fin 64} {x : Proposal}

-- ## Deciding one port

theorem named_iff (s : State) (p : PortId) :
    s.named p = true ↔ ∃ (q : QueueId) (x : Proposal), s.proposals[q] = some x ∧ x.port = p := by
  simp only [State.named, List.any_eq_true, List.mem_finRange, true_and, beq_iff_eq, Option.map_eq_some_iff]

theorem decisionOrder_one (h : ∀ k, s.named k = true ↔ k = p) : s.decisionOrder = [p] := by
  have hfilter : (List.finRange 16).filter s.named = [p] := by
    have hsame : (List.finRange 16).filter s.named = (List.finRange 16).filter (· == p) :=
      List.filter_congr fun k _ => by rw [Bool.eq_iff_iff, h, beq_iff_eq]
    rw [hsame, List.filter_beq, List.count_eq_one_of_mem (List.nodup_finRange 16) (List.mem_finRange p)]
    rfl
  rw [State.decisionOrder, hfilter]
  rfl

/-- The lowest-numbered queue whose proposal passes wins its port (R81). -/
theorem winner_lowest (hx : s.proposals[q] = some x) (hpass : s.proposalPasses q x = true)
    (hlower : ∀ i < q, s.proposals[i] = none) : s.winner x.port = some (q, x) := by
  refine findSome?_finRange_eq (i := q) ?_ fun i hi => ?_
  · simp only [hx, hpass, and_self, if_true]
  · simp only [hlower i hi]

theorem mem_proposers (s : State) (q : QueueId) : q ∈ s.proposers ↔ s.proposals[q] ≠ none := by
  simp only [State.proposers, List.mem_filter, List.mem_finRange, true_and, Option.isSome_iff_ne_none]

theorem proposalPasses_sameTests (h : SameTests s t) (q : QueueId) (x : Proposal) :
    t.proposalPasses q x = s.proposalPasses q x := by
  obtain ⟨hstate, hgeneration⟩ : t.jobs[x.slot].state = s.jobs[x.slot].state ∧
      t.jobs[x.slot].generation = s.jobs[x.slot].generation := by
    rw [h.jobs x.slot]
    exact ⟨rfl, rfl⟩
  simp only [State.proposalPasses, h.queues, h.rowSet, h.eligible, hstate, hgeneration]

theorem passes_of_dispatchable (h : Dispatchable s q j p n r) (hj : j ∈ s.queues[q].list) :
    s.proposalPasses q (s.claimOf q j p n.val) = true := by
  obtain ⟨hhome, hclaim, hrow, -⟩ := dispatchable_claims h
  have hbit : hasBit (s.rowSet n.val) p.val = true := by
    have hfound := List.find?_some hrow
    rw [Bool.and_eq_true] at hfound
    exact hfound.1
  obtain ⟨hrun, hstate, -⟩ := h
  simpa [State.proposalPasses, State.claimOf, hbit, (eligible_iff_mayClaim hhome p).2 hclaim] using
    And.intro (And.intro hrun hstate) hj

-- ## The end of a round

/-- The proposal table is empty. -/
def NoProposals (s : State) : Prop := ∀ i : QueueId, s.proposals[i] = none

/-- The places of the queues of a list are emptied (R80). -/
def State.emptied (ks : List QueueId) (s : State) : State := ks.foldl (fun t q => t.updProposal q (fun _ => none)) s

theorem emptied_keeps (ks : List QueueId) (s : State) : KeepsAllBut [.proposals] s (s.emptied ks) :=
  .foldl (fun t q => t.updProposal_keeps q _) ks s

theorem emptied_proposals (ks : List QueueId) (s : State) (q : QueueId) :
    (s.emptied ks).proposals[q] = if q ∈ ks then none else s.proposals[q] := by
  induction ks generalizing s with
  | nil => simp [State.emptied]
  | cons i ks ih =>
    have hstep := ih (s.updProposal i (fun _ => none))
    rw [State.emptied, List.foldl_cons]
    refine hstep.trans ?_
    by_cases hi : q = i
    · subst hi
      rw [State.updProposal_proposals_self]
      simp
    · rw [State.updProposal_proposals_ne _ _ _ _ hi]
      simp [hi]

/-- A queue in RUN that asks while a pass is in progress leaves one owed (R39, R79). -/
theorem examinesAgain_owed (ks : List QueueId) (hpass : s.passInProgress = true)
    (h : s.passOwed = true ∨ ∃ q ∈ ks, s.queues[q].mode = .run) :
    (ks.foldl (fun t q => t.examineAgain q) s).passInProgress = true ∧
      (ks.foldl (fun t q => t.examineAgain q) s).passOwed = true := by
  induction ks generalizing s with
  | nil => exact ⟨hpass, h.resolve_right (by simp)⟩
  | cons q ks ih =>
    have hexamine := State.examine_keeps (s := s.askIfRun q) q
    have hin : (s.examineAgain q).passInProgress = (s.askIfRun q).passInProgress := hexamine.part .passInProgress
    have howed : (s.examineAgain q).passOwed = (s.askIfRun q).passOwed := hexamine.part .passOwed
    have hmodes : (s.examineAgain q).queues = s.queues := (examineAgain_examined s q).same.queues
    rw [List.foldl_cons]
    by_cases hrun : s.queues[q].mode = .run
    · have hask : s.askIfRun q = { s with passOwed := true } := by
        rw [State.askIfRun, if_pos hrun, State.ask, if_pos hpass]
      rw [hask] at hin howed
      exact ih (hin.trans hpass) (.inl howed)
    · have hask : s.askIfRun q = s := if_neg hrun
      rw [hask] at hin howed
      refine ih (hin.trans hpass) (h.imp howed.trans ?_)
      rintro ⟨i, hi, hmode⟩
      rcases List.mem_cons.1 hi with rfl | hi
      · exact absurd hmode hrun
      · exact ⟨i, hi, by rw [hmodes]; exact hmode⟩

/-- The end of a round behind its decisions: the places of the queues `ks` are emptied, and they examine again (R80). -/
def State.roundEnd (ks : List QueueId) (s : State) : State := ks.foldl (fun t q => t.examineAgain q) (s.emptied ks)

theorem emptied_sameTests (ks : List QueueId) (s : State) : SameTests s (s.emptied ks) := .of_keeps (emptied_keeps ks s)

theorem roundEnd_sameTests (ks : List QueueId) (s : State) : SameTests s (s.roundEnd ks) :=
  (emptied_sameTests ks s).trans (examined_foldl examineAgain_examined ks _).1

theorem roundEnd_jobs (ks : List QueueId) (s : State) (k : SlotId) :
    (s.roundEnd ks).jobs[k] = ks.foldl (fun x q => x.takeReason (s.reasonFor q k)) s.jobs[k] := by
  obtain ⟨-, -, hjobs⟩ := examined_foldl examineAgain_examined ks (s.emptied ks)
  have hempty : (s.emptied ks).jobs = s.jobs := (emptied_keeps ks s).part .jobs
  simp only [(emptied_sameTests ks s).reasonFor, hempty] at hjobs
  exact hjobs k

/-- The table is empty when no queue of the round proposes again and no other had a proposal. -/
theorem roundEnd_noProposals {ks : List QueueId} (hagain : ∀ i ∈ ks, s.proposalFor i = none)
    (hothers : ∀ i, i ∉ ks → s.proposals[i] = none) : NoProposals (s.roundEnd ks) := by
  obtain ⟨-, hproposals, -⟩ := examined_foldl examineAgain_examined ks (s.emptied ks)
  intro i
  refine (hproposals i).trans ?_
  by_cases hi : i ∈ ks
  · rw [if_pos hi, (emptied_sameTests ks s).proposalFor, hagain i hi]
  · rw [if_neg hi, emptied_proposals, if_neg hi, hothers i hi]

theorem roundEnd_owed {ks : List QueueId} (hpass : s.passInProgress = true) (hq : q ∈ ks)
    (hrun : s.queues[q].mode = .run) : (s.roundEnd ks).passInProgress = true ∧ (s.roundEnd ks).passOwed = true := by
  have hempty := emptied_keeps ks s
  have hin : (s.emptied ks).passInProgress = s.passInProgress := hempty.part .passInProgress
  have hqueues : (s.emptied ks).queues = s.queues := hempty.part .queues
  exact examinesAgain_owed ks (hin.trans hpass) (.inr ⟨q, hq, by rw [hqueues]; exact hrun⟩)

-- ## The pass

/-- The state of a pass behind the examinations of its first round (R80). No proof looks into the fold. -/
@[irreducible] def State.examinedAll (s : State) : State := (List.finRange 8).foldl (fun t q => t.examine q) s

theorem pass_eq (s : State) : s.pass = State.rounds 512 s.examinedAll := by
  rw [State.examinedAll]
  rfl

/-- A round draws the free value of its order (log entry 11). -/
def State.drawn (s : State) : State := { s with freeCount := s.freeCount + 1 }

theorem examinedAll_laws (s : State) : SameTests s s.examinedAll ∧
    (∀ q : QueueId, s.examinedAll.proposals[q] = s.proposalFor q) ∧
    ∀ k : SlotId, s.examinedAll.jobs[k] =
      (List.finRange 8).foldl (fun x q => x.takeReason (s.reasonFor q k)) s.jobs[k] := by
  obtain ⟨hsame, hproposals, hjobs⟩ := examined_foldl examine_examined (List.finRange 8) s
  rw [State.examinedAll]
  exact ⟨hsame, fun q => (hproposals q).trans (if_pos (List.mem_finRange q)), hjobs⟩

theorem drawn_sameTests (s : State) : SameTests s s.drawn := by
  refine .of_keeps (parts := [.freeCount]) fun y hy => ?_
  cases y with
  | freeCount => simp at hy
  | _ => rfl

/-- A round that decides one port is the grant to its winner and the round's end. -/
theorem round_one (hx : s.proposals[q] = some x) (hnamed : ∀ (i : QueueId) (y : Proposal), s.proposals[i] = some y →
    y.port = x.port ∧ q ≤ i) (hpass : s.proposalPasses q x = true) :
    s.round = (s.drawn.grant q x).roundEnd s.proposers := by
  have horder : s.decisionOrder = [x.port] := decisionOrder_one fun k => by
    rw [named_iff]
    constructor
    · rintro ⟨i, y, hy, rfl⟩
      exact (hnamed i y hy).1
    · rintro rfl
      exact ⟨q, x, hx, rfl⟩
  have hwinner : s.drawn.winner x.port = some (q, x) := by
    refine winner_lowest hx ((proposalPasses_sameTests (drawn_sameTests s) q x).trans hpass) fun i hi => ?_
    by_contra hne
    obtain ⟨y, hy⟩ := Option.ne_none_iff_exists'.1 hne
    exact absurd (hnamed i y hy).2 (not_le.2 hi)
  have hdecide : s.drawn.decide x.port = s.drawn.grant q x := by
    simp only [State.decide, hwinner]
  have hround : s.round = (s.decisionOrder.foldl (fun t p => t.decide p) s.drawn).roundEnd s.proposers := rfl
  rw [hround, horder, List.foldl_cons, List.foldl_nil, hdecide]

/-- Rounds end when one leaves the table empty (R80). -/
theorem rounds_two (m : Nat) (h : s.proposers ≠ []) (hround : NoProposals s.round) :
    State.rounds (m + 2) s = s.round := by
  have hlast : s.round.proposers = [] :=
    List.eq_nil_iff_forall_not_mem.2 fun i hi => (mem_proposers _ i).1 hi (hround i)
  rw [State.rounds, if_neg (by simpa using h), State.rounds, if_pos (by rw [hlast]; rfl)]

/-- The state in which a pass has granted its one port to the proposal `x` of queue `q`. -/
def State.decidedFor (s : State) (q : QueueId) (x : Proposal) : State := s.examinedAll.drawn.grant q x

/-- The queues with a proposal behind the first examinations. -/
def State.claimants (s : State) : List QueueId := s.examinedAll.proposers

theorem mem_claimants (s : State) (q : QueueId) : q ∈ s.claimants ↔ s.proposalFor q ≠ none := by
  rw [State.claimants, mem_proposers, (examinedAll_laws s).2.1]

/-- A pass whose proposals name one port, and whose losers and winner propose nothing again, ends behind one round. -/
theorem pass_onePort (hx : s.proposalFor q = some x)
    (hnamed : ∀ (i : QueueId) (y : Proposal), s.proposalFor i = some y → y.port = x.port ∧ q ≤ i)
    (hpass : s.proposalPasses q x = true)
    (hfits : AttemptFits (s.examinedAll.drawn.claimed q x) (s.decidedFor q x) x.port x.slot)
    (hnone : ∀ i : QueueId, s.proposalFor i ≠ none → (s.decidedFor q x).proposalFor i = none) :
    s.pass = (s.decidedFor q x).roundEnd s.claimants ∧ NoProposals s.pass := by
  obtain ⟨hsame, hproposals, -⟩ := examinedAll_laws s
  have hq : q ∈ s.claimants := (mem_claimants s q).2 (by rw [hx]; simp)
  have hkept : (s.decidedFor q x).proposals = (s.examinedAll.drawn.claimed q x).proposals := hfits.keeps.part .proposals
  have hgone : NoProposals ((s.decidedFor q x).roundEnd s.claimants) := by
    refine roundEnd_noProposals (fun i hi => hnone i ((mem_claimants s i).1 hi)) fun i hi => ?_
    have hne : i ≠ q := by
      rintro rfl
      exact hi hq
    rw [hkept, claimed_proposals_ne hne]
    refine (hproposals i).trans ?_
    by_contra hne
    exact hi ((mem_claimants s i).2 hne)
  have hround : s.examinedAll.round = (s.decidedFor q x).roundEnd s.claimants :=
    round_one ((hproposals q).trans hx) (fun i y hy => hnamed i y ((hproposals i).symm.trans hy))
      ((proposalPasses_sameTests hsame q x).trans hpass)
  have hrounds : State.rounds (510 + 2) s.examinedAll = s.examinedAll.round :=
    rounds_two 510 (List.ne_nil_of_mem hq) (by rw [hround]; exact hgone)
  have hpassEq : s.pass = s.examinedAll.round := (pass_eq s).trans hrounds
  rw [hpassEq, hround]
  exact ⟨rfl, hgone⟩

end Sys2Proof.Machine
end

