-- ==== Sys2Proof/Proofs/DecidedState.lean ====
section
/-! SUPPORT. What a pass that grants one port leaves (R39, R80 to R82). -/

namespace Sys2Proof.Machine

open Sys2Proof.Safety

variable {s t g : State} {j k : SlotId} {p : PortId} {q : QueueId} {r : RecordId} {n : Fin 64}

-- ## The granted state

/-- A grant is told alike from states that agree in its job, its queue, its ring and its port. -/
theorem granted_congr {v : State} (h : Granted v g q j p n) (hjob : v.jobs[j] = s.jobs[j])
    (hqueue : v.queues[q] = s.queues[q]) (hring : v.rings[q] = s.rings[q]) (hport : v.ports[p] = s.ports[p])
    (htjob : t.jobs[j] = g.jobs[j]) (htqueue : t.queues[q] = g.queues[q]) (htring : t.rings[q] = g.rings[q])
    (htport : t.ports[p] = g.ports[p]) : Granted s t q j p n := by
  unfold Granted at h ⊢
  rw [hjob, hqueue, hring, hport] at h
  rw [htjob, htqueue, htring, htport]
  exact h

/-- What the state `g` of a first grant reads, against the state `s` in which its pass began. -/
structure Decided (s g : State) (q : QueueId) (j : SlotId) (p : PortId) (n : Fin 64) : Prop where
  granted : Granted s g q j p n
  active : g.jobs[j].state = .active
  dispatch : g.queues[q].dispatch = (s.queues[q].claim s.jobs[j].waitSet (s.queues[q].dispatch.kindOf s.jobs[j])).dispatch
  received : g.queues[q].received = (s.queues[q].claim s.jobs[j].waitSet (s.queues[q].dispatch.kindOf s.jobs[j])).received
  list : g.queues[q].list = s.queues[q].list
  mode : g.queues[q].mode = s.queues[q].mode
  jobs : ∀ k : SlotId, k ≠ j → g.jobs[k] = s.examinedAll.jobs[k]
  queues : OtherQueuesSame q s g
  ports : OtherPortsSame p s g
  accounts : OtherAccountsSame s.jobs[j].account s g
  rings : ∀ k : QueueId, k ≠ q → g.rings[k] = s.rings[k]
  passes : NotAsked s g
  keeps : KeepsAllBut [.jobs, .queues, .ports, .rings, .proposals, .accounts, .pressLog, .freeCount] s g

theorem examinedAll_keeps (s : State) : KeepsAllBut [.jobs, .proposals] s s.examinedAll :=
  by rw [State.examinedAll]; exact .foldl (fun t q => t.examine_keeps q) _ s

theorem drawn_keeps (s : State) : KeepsAllBut [.freeCount] s s.drawn := fun y hy => by
  cases y with
  | freeCount => simp at hy
  | _ => rfl

theorem Queue.claim_list (w : MarkSet) (kind : ProposalKind) (x : Queue) :
    (x.claim w kind).list = x.list ∧ (x.claim w kind).mode = x.mode := by
  rw [Queue.claim_eq]
  exact ⟨rfl, rfl⟩

/-- A grant to a job that passes every test, in a state that agrees with that of the tests in what they read. -/
theorem decided_of_grant {v : State} (h : Dispatchable s q j p n r) (hjob : v.jobs[j] = s.jobs[j])
    (hothers : ∀ k : SlotId, v.jobs[k] = s.examinedAll.jobs[k])
    (hkeeps : KeepsAllBut [.jobs, .proposals, .freeCount] s v) :
    AttemptFits (v.claimed q (s.claimOf q j p n.val)) (v.grant q (s.claimOf q j p n.val)) p j ∧
      Decided s (v.grant q (s.claimOf q j p n.val)) q j p n := by
  have hqueues : v.queues = s.queues := hkeeps.part .queues
  have hports : v.ports = s.ports := hkeeps.part .ports
  have hrings : v.rings = s.rings := hkeeps.part .rings
  have hclaim : v.claimOf q j p n.val = s.claimOf q j p n.val := by
    simp only [State.claimOf, hjob, hqueues]
  have hckeeps := claimed_keeps q (s.claimOf q j p n.val) v
  have hcjob : (v.claimed q (s.claimOf q j p n.val)).jobs[j] = s.jobs[j].claim p (s.queues[q].dispatch.kindOf s.jobs[j]) := by
    have hself : (v.claimed q (s.claimOf q j p n.val)).jobs[j] = v.jobs[j].claim p (s.queues[q].dispatch.kindOf s.jobs[j]) :=
      claimed_jobs_self q (s.claimOf q j p n.val) v
    rw [hself, hjob]
  have hcport : (v.claimed q (s.claimOf q j p n.val)).ports[p] = { s.ports[p] with feedOwner := some j } := by
    rw [← hports]
    exact claimed_ports_self q (s.claimOf q j p n.val) v
  have hcqueue : (v.claimed q (s.claimOf q j p n.val)).queues[q] =
      s.queues[q].claim s.jobs[j].waitSet (s.queues[q].dispatch.kindOf s.jobs[j]) := by
    have hself : (v.claimed q (s.claimOf q j p n.val)).queues[q] =
        v.queues[q].claim v.jobs[j].waitSet (s.queues[q].dispatch.kindOf s.jobs[j]) :=
      claimed_queues_self q (s.claimOf q j p n.val) v
    rw [hself, hjob, hqueues]
  have hcpages : (v.claimed q (s.claimOf q j p n.val)).pages = s.pages :=
    (hckeeps.part .pages).trans (hkeeps.part .pages)
  have hcaccounts : (v.claimed q (s.claimOf q j p n.val)).accounts = s.accounts :=
    (hckeeps.part .accounts).trans (hkeeps.part .accounts)
  have hcaccount : (v.claimed q (s.claimOf q j p n.val)).jobs[j].account = s.jobs[j].account := by
    rw [hcjob]
    rfl
  obtain ⟨-, -, -, -, hnext, -, hallow, -, -, -, -, ⟨i, hident, -, hcovers⟩, -⟩ := h
  have hfits : AttemptFits (v.claimed q (s.claimOf q j p n.val)) (v.grant q (s.claimOf q j p n.val)) p j := by
    have hgrant : v.grant q (s.claimOf q j p n.val) = (v.claimed q (s.claimOf q j p n.val)).offerAttempt p := rfl
    rw [hgrant]
    refine offerAttempt_fits (r := r) ?_ ?_ ⟨i, ?_, ?_⟩ ?_
    · rw [hcport]
    · rw [hcjob]
      exact hnext
    · rw [hcport]
      exact hident
    · rw [hcpages]
      exact hcovers
    · simp only [hcpages, hcaccounts, hcaccount]
      exact (canReserve_iff _ _).2 hallow
  have hgqueues : (v.grant q (s.claimOf q j p n.val)).queues = (v.claimed q (s.claimOf q j p n.val)).queues :=
    hfits.keeps.part .queues
  have hgrings : (v.grant q (s.claimOf q j p n.val)).rings = (v.claimed q (s.claimOf q j p n.val)).rings :=
    hfits.keeps.part .rings
  obtain ⟨hlist, hmode⟩ := s.queues[q].claim_list s.jobs[j].waitSet (s.queues[q].dispatch.kindOf s.jobs[j])
  refine ⟨hfits, {
    granted := ?_, active := ?_, dispatch := ?_, received := ?_, list := ?_, mode := ?_, jobs := fun k hk => ?_
    queues := fun k hk => ?_, ports := fun k hk => ?_, accounts := fun a ha => ?_, rings := fun k hk => ?_
    passes := .of_keeps ((hkeeps.trans hckeeps).trans hfits.keeps)
    keeps := ((hkeeps.trans hckeeps).trans hfits.keeps).mono }⟩
  · rw [← hclaim] at hfits ⊢
    exact granted_congr (granted_of hfits) hjob (by rw [hqueues]) (by rw [hrings]) (by rw [hports]) rfl rfl rfl rfl
  · rw [hfits.job, hcjob]
    rfl
  · rw [hgqueues, hcqueue]
  · rw [hgqueues, hcqueue]
  · rw [hgqueues, hcqueue, hlist]
  · rw [hgqueues, hcqueue, hmode]
  · rw [hfits.jobs k hk, claimed_jobs_ne (x := s.claimOf q j p n.val) hk, hothers]
  · rw [hgqueues, claimed_queues_ne hk, hqueues]
  · rw [hfits.ports k hk, claimed_ports_ne (x := s.claimOf q j p n.val) hk, hports]
  · rw [hfits.accounts a (by rw [hcaccount]; exact ha), hcaccounts]
  · rw [hgrings, claimed_rings_ne hk, hrings]

/-- The first grant of a pass, to a job whose record the first examinations leave as it is. -/
theorem decided_of_dispatchable (h : Dispatchable s q j p n r) (hjob : s.examinedAll.jobs[j] = s.jobs[j]) :
    AttemptFits (s.examinedAll.drawn.claimed q (s.claimOf q j p n.val)) (s.decidedFor q (s.claimOf q j p n.val)) p j ∧
      Decided s (s.decidedFor q (s.claimOf q j p n.val)) q j p n :=
  decided_of_grant h hjob (fun _ => rfl) ((examinedAll_keeps s).trans (drawn_keeps _)).mono

end Sys2Proof.Machine
end

