-- ==== Sys2Proof/Proofs/GrantingPass.lean ====
section
/-! SUPPORT. The verdicts of the second examinations of a pass, and the pass that grants one port as a whole (R39, R80). -/

namespace Sys2Proof.Machine

open Sys2Proof.Safety

variable {s t g : State} {j k : SlotId} {p : PortId} {q i : QueueId} {r : RecordId} {n : Fin 64}

-- ## Lists without a job that passes

theorem walked_all {l : List SlotId} (h : ∀ k ∈ l, (s.examineJob q k).proposal? = none) :
    s.walked q l = l ∧ s.firstProposal q l = none := by
  refine ⟨?_, List.findSome?_eq_none_iff.2 h⟩
  unfold State.walked
  rw [List.takeWhile_eq_self_iff]
  intro k hk
  rw [h k hk]
  rfl

/-- A walk down a list passes the jobs in front of the first that passes every test. -/
theorem walked_front {front back : List SlotId} {x : Proposal} (h : ∀ k ∈ front, (s.examineJob q k).proposal? = none)
    (hj : s.examineJob q j = .proposes x) : s.walked q (front ++ j :: back) = front ∧
      s.firstProposal q (front ++ j :: back) = some x := by
  constructor
  · unfold State.walked
    rw [List.takeWhile_append_of_pos fun k hk => by rw [h k hk]; rfl, List.takeWhile_cons_of_neg (by rw [hj]; simp [Verdict.proposal?]),
      List.append_nil]
  · unfold State.firstProposal
    rw [List.findSome?_append, List.findSome?_eq_none_iff.2 h, List.findSome?_cons, hj]
    rfl

-- ## Verdicts behind the grant

theorem claim_dispatch (w : MarkSet) (kind : ProposalKind) (x : Queue) :
    (x.claim w kind).dispatch = x.dispatch ∨ (x.claim w kind).dispatch = .hold := by
  rw [Queue.claim_eq]
  dsimp only
  split
  · exact .inr rfl
  · exact .inl rfl

/-- The first start of a queue that is not in FREE leaves it in HOLD (R40, R43). -/
theorem claim_holds {x : Job} {y : Queue} (w : MarkSet) (hx : x.started = false ∧ x.proofRun = false)
    (hd : y.dispatch ≠ .free) : (y.claim w (y.dispatch.kindOf x)).dispatch = .hold := by
  rw [kindOf_neverStarted hx, Queue.claim_eq]
  cases h : y.dispatch with
  | free => exact absurd h hd
  | hold => rfl
  | step => rfl
  | proof => rfl

/-- A grant takes marks out of its queue's received set and puts none in. -/
theorem claim_lacks {a w : MarkSet} {kind : ProposalKind} {y : Queue} (h : subBits a y.received = false) :
    subBits a (y.claim w kind).received = false := by
  rw [← Bool.not_eq_true, subBits_iff] at h ⊢
  refine fun hall => h fun i hi => ?_
  have hbit := hall i hi
  rw [Queue.claim_eq] at hbit
  dsimp only at hbit
  split at hbit
  · unfold hasBit minusBits at hbit
    rw [BitVec.getLsbD_and, Bool.and_eq_true] at hbit
    exact hbit.1
  · exact hbit

/-- The jobs but the granted one read as before the pass, their reasons apart. -/
theorem Decided.job (d : Decided s g q j p n) (hk : k ≠ j) : ∃ reason, g.jobs[k] = { s.jobs[k] with reason := reason } :=
  ⟨_, by rw [d.jobs k hk]; exact (examinedAll_laws s).1.jobs k⟩

theorem Decided.passedOver (d : Decided s g q j p n) (hk : k ≠ j) (h : PassedOver s q k) : PassedOver g q k := by
  obtain ⟨reason, hjob⟩ := d.job hk
  unfold PassedOver at h ⊢
  rw [hjob, d.dispatch]
  refine h.imp_right (.imp_right (.imp_right fun ⟨hstarted, hproof, hd⟩ => ⟨hstarted, hproof, ?_⟩))
  rcases claim_dispatch s.jobs[j].waitSet (s.queues[q].dispatch.kindOf s.jobs[j]) s.queues[q] with heq | hhold
  · rw [heq]
    exact hd
  · exact .inl hhold

theorem Decided.lacksMarks (d : Decided s g q j p n) (hk : k ≠ j) (h : LacksMarks s q k) :
    LacksMarks g q k ∨ PassedOver g q k := by
  obtain ⟨reason, hjob⟩ := d.job hk
  obtain ⟨hstate, hclosed, hnext, hstarted, hproof, hd, hmarks⟩ := h
  unfold LacksMarks PassedOver
  rw [hjob, d.dispatch, d.received]
  rcases claim_dispatch s.jobs[j].waitSet (s.queues[q].dispatch.kindOf s.jobs[j]) s.queues[q] with heq | hhold
  · rw [heq]
    exact .inl ⟨hstate, hclosed, hnext, hstarted, hproof, hd, claim_lacks hmarks⟩
  · exact .inr (.inr (.inr (.inr ⟨hstarted, hproof, .inl hhold⟩)))

/-- Behind a first start that leaves HOLD no other never-started job is permitted. -/
theorem Decided.neverStarted (d : Decided s g q j p n) (hk : k ≠ j) (hstarted : s.jobs[k].started = false)
    (hproof : s.jobs[k].proofRun = false) (hj : s.jobs[j].started = false ∧ s.jobs[j].proofRun = false)
    (hd : s.queues[q].dispatch ≠ .free) : PassedOver g q k := by
  obtain ⟨reason, hjob⟩ := d.job hk
  unfold PassedOver
  rw [hjob, d.dispatch, claim_holds _ hj hd]
  exact .inr (.inr (.inr ⟨hstarted, hproof, .inl rfl⟩))

theorem Decided.owner (d : Decided s g q j p n) : PassedOver g q j := .inl (by rw [d.active]; decide)

-- ## The pass as a whole

theorem exec_dispatchPass (h : s.passInProgress = true) : exec .dispatchPass s = .next s.pass.endPass :=
  congrArg Host.Outcome.next (if_pos h)

/-- What a pass that grants port `p` to job `j` leaves, the reasons of the other jobs apart. -/
structure PassGrants (s t : State) (q : QueueId) (j : SlotId) (p : PortId) (n : Fin 64) : Prop where
  granted : Granted s t q j p n
  queues : OtherQueuesSame q s t
  ports : OtherPortsSame p s t
  accounts : OtherAccountsSame s.jobs[j].account s t
  rings : ∀ k : QueueId, k ≠ q → t.rings[k] = s.rings[k]
  proposals : NoProposals t
  passes : t.passInProgress = true ∧ t.passOwed = false
  keeps : KeepsAllBut [.jobs, .queues, .ports, .rings, .proposals, .passInProgress, .passOwed, .accounts, .pressLog,
    .freeCount] s t

/-- A pass in which every proposal names port `p`, that of queue `q` for its job `j` is the lowest-numbered queue's, and
none of these queues proposes again. -/
theorem dispatchPass_grants (h : Dispatchable s q j p n r) (hlist : j ∈ s.queues[q].list) (hin : s.passInProgress = true)
    (hjob : s.examinedAll.jobs[j] = s.jobs[j]) (hfirst : s.proposalFor q = some (s.claimOf q j p n.val))
    (hnamed : ∀ (i : QueueId) (y : Proposal), s.proposalFor i = some y → y.port = p ∧ q ≤ i)
    (hagain : ∀ g, Decided s g q j p n → ∀ i : QueueId, s.proposalFor i ≠ none →
      g.proposalFor i = none ∧ g.reasonFor i j = none) :
    ∃ t g, exec .dispatchPass s = .next t ∧ Decided s g q j p n ∧ PassGrants s t q j p n ∧ ∀ k : SlotId, t.jobs[k] =
      s.claimants.foldl (fun x i => x.takeReason (g.reasonFor i k)) g.jobs[k] := by
  obtain ⟨hfits, d⟩ := decided_of_dispatchable h hjob
  have hrun := dispatchable_run h
  obtain ⟨hpass, hgone⟩ := pass_onePort hfirst hnamed (passes_of_dispatchable h hlist) hfits
    fun i hi => (hagain _ d i hi).1
  have hexec := exec_dispatchPass hin
  generalize s.pass = u at hpass hgone hexec
  refine ⟨_, _, hexec, d, ?_⟩
  generalize s.decidedFor q (s.claimOf q j p n.val) = g at hpass hagain d ⊢
  have hq : q ∈ s.claimants := (mem_claimants s q).2 (by rw [hfirst]; simp)
  obtain ⟨hing, howedg⟩ := d.passes
  obtain ⟨hinround, howed⟩ := roundEnd_owed (s := g) (ks := s.claimants) (hing.trans hin) hq (d.mode.trans hrun)
  have hsame : SameTests g u := by
    rw [hpass]
    exact roundEnd_sameTests s.claimants g
  have hend : u.endPass = { u with passOwed := false } := by
    rw [State.endPass, if_pos (by rw [hpass]; exact howed)]
  have hjobs : ∀ k : SlotId, u.endPass.jobs[k] =
      s.claimants.foldl (fun x i => x.takeReason (g.reasonFor i k)) g.jobs[k] := fun k => by
    rw [hend, ← roundEnd_jobs, ← hpass]
  have howner : u.endPass.jobs[j] = g.jobs[j] :=
    (hjobs j).trans (takeReasons_none (fun i hi => (hagain g d i ((mem_claimants s i).1 hi)).2) _)
  have hkeeps : KeepsAllBut [.jobs, .proposals, .passInProgress, .passOwed, .freeCount] g u.endPass := by
    rw [hend]
    intro y hy
    have hsamePart := hsame.keeps y hy
    cases y with
    | passOwed => simp at hy
    | _ => exact hsamePart
  have hqueues : u.endPass.queues = g.queues := hkeeps.part .queues
  have hports : u.endPass.ports = g.ports := hkeeps.part .ports
  have hrings : u.endPass.rings = g.rings := hkeeps.part .rings
  have haccounts : u.endPass.accounts = g.accounts := hkeeps.part .accounts
  refine ⟨{
    granted := granted_congr d.granted rfl rfl rfl rfl howner (by rw [hqueues]) (by rw [hrings]) (by rw [hports])
    queues := fun k hk => by rw [hqueues, d.queues k hk]
    ports := fun k hk => by rw [hports, d.ports k hk]
    accounts := fun k hk => by rw [haccounts, d.accounts k hk]
    rings := fun k hk => by rw [hrings, d.rings k hk]
    proposals := ?_
    passes := ?_
    keeps := (d.keeps.trans hkeeps).mono }, hjobs⟩
  · rw [hend]
    exact hgone
  · rw [hend]
    exact ⟨by rw [← hinround, hpass], rfl⟩

end Sys2Proof.Machine
end

