-- ==== Sys2Proof/Proofs/OneQueuePass.lean ====
section
/-! SUPPORT. A pass over one queue's list, a pass in which two queues want one port, and the obligation on both (R38 to
R40, R80 to R82). -/

namespace Sys2Proof.Machine

open Sys2Proof.Safety

variable {s t g : State} {j j' k : SlotId} {p : PortId} {q q' i : QueueId} {r r' : RecordId} {n n' : Fin 64}
  {front back : List SlotId}

theorem proposalFor_idle (h : s.queues[i].mode ≠ .run) : s.proposalFor i = none := if_neg h

theorem reasonFor_idle (h : s.queues[i].mode ≠ .run) (k : SlotId) : s.reasonFor i k = none := if_neg h

/-- A queue none of whose jobs passes every test proposes nothing and writes the verdict on each. -/
theorem examined_none (hrun : s.queues[q].mode = .run)
    (h : ∀ k ∈ s.queues[q].list, (s.examineJob q k).proposal? = none) : s.proposalFor q = none ∧
      ∀ k, s.reasonFor q k = if k ∈ s.queues[q].list then (s.examineJob q k).reason? else none := by
  obtain ⟨hwalked, hfound⟩ := walked_all h
  refine ⟨(if_pos hrun).trans hfound, fun k => (if_pos hrun).trans ?_⟩
  rw [State.writtenReason, hwalked]

/-- A queue proposes for the first job of its list that passes every test and writes the verdicts on those before it. -/
theorem examined_first (h : Dispatchable s q j p n r) (hlist : s.queues[q].list = front ++ j :: back)
    (hfront : ∀ k ∈ front, (s.examineJob q k).proposal? = none) : s.proposalFor q = some (s.claimOf q j p n.val) ∧
      ∀ k, s.reasonFor q k = if k ∈ front then (s.examineJob q k).reason? else none := by
  obtain ⟨hwalked, hfound⟩ := walked_front (back := back) hfront (examineJob_proposes h)
  have hrun := dispatchable_run h
  rw [← hlist] at hwalked hfound
  refine ⟨(if_pos hrun).trans hfound, fun k => (if_pos hrun).trans ?_⟩
  rw [State.writtenReason, hwalked]

/-- The first examinations when only queue `q` writes reasons to a job. -/
theorem examinedAll_job (h : ∀ i : QueueId, i ≠ q → s.reasonFor i k = none) :
    s.examinedAll.jobs[k] = s.jobs[k].takeReason (s.reasonFor q k) :=
  ((examinedAll_laws s).2.2 k).trans (takeReasons_one (List.mem_finRange q) (fun i _ hi => h i hi) _)

-- ## One queue

theorem verdict_of_passedOver (h : PassedOver s q k) :
    (s.examineJob q k).proposal? = none ∧ (s.examineJob q k).reason? = none := by
  rw [examineJob_passedOver h]
  exact ⟨rfl, rfl⟩

theorem verdict_of_lacksMarks (h : LacksMarks s q k) :
    (s.examineJob q k).proposal? = none ∧ (s.examineJob q k).reason? = some .marks := by
  rw [examineJob_marks h]
  exact ⟨rfl, rfl⟩

/-- Behind the grant every job of the list is passed over, or lacks marks as it did (R80). -/
theorem second_verdict (d : Decided s g q j p n) (hlist : s.queues[q].list = front ++ j :: back) (hj : j ∉ front)
    (hfront : ∀ k ∈ front, PassedOver s q k ∨ LacksMarks s q k)
    (hback : ∀ k ∈ back, PassedOver s q k ∨ (s.jobs[k].started = false ∧ s.jobs[k].proofRun = false ∧
      s.jobs[j].started = false ∧ s.jobs[j].proofRun = false ∧ s.queues[q].dispatch ≠ .free))
    (hk : k ∈ g.queues[q].list) : PassedOver g q k ∨ (k ∈ front ∧ LacksMarks s q k ∧ LacksMarks g q k) := by
  by_cases hkj : k = j
  · subst hkj
    exact .inl d.owner
  rw [d.list, hlist, List.mem_append, List.mem_cons] at hk
  rcases hk with hk | hk | hk
  · rcases hfront k hk with hpassed | hlacks
    · exact .inl (d.passedOver hkj hpassed)
    · exact (d.lacksMarks hkj hlacks).symm.imp_right fun h => ⟨hk, hlacks, h⟩
  · exact absurd hk hkj
  · rcases hback k hk with hpassed | ⟨hstarted, hproof, hjstarted, hjproof, hd⟩
    · exact .inl (d.passedOver hkj hpassed)
    · exact .inl (d.neverStarted hkj hstarted hproof ⟨hjstarted, hjproof⟩ hd)

/-- A pass with one queue in RUN (R38, R39). -/
theorem oneQueue_pass (hin : s.passInProgress = true) (hmodes : ∀ k : QueueId, k ≠ q → s.queues[k].mode ≠ .run)
    (hlist : s.queues[q].list = front ++ j :: back) (hj : j ∉ front) (h : Dispatchable s q j p n r)
    (hfront : ∀ k ∈ front, PassedOver s q k ∨ LacksMarks s q k)
    (hback : ∀ k ∈ back, PassedOver s q k ∨ (s.jobs[k].started = false ∧ s.jobs[k].proofRun = false ∧
      s.jobs[j].started = false ∧ s.jobs[j].proofRun = false ∧ s.queues[q].dispatch ≠ .free)) :
    ∃ t, exec .dispatchPass s = .next t ∧ PassGrants s t q j p n ∧
      (∀ k ∈ front, PassedOver s q k → t.jobs[k] = s.jobs[k]) ∧
      (∀ k ∈ front, LacksMarks s q k → t.jobs[k] = { s.jobs[k] with reason := some .marks }) ∧
      ∀ k : SlotId, k ≠ j → k ∉ front → t.jobs[k] = s.jobs[k] := by
  obtain ⟨hproposal, hreason⟩ := examined_first h hlist fun k hk => (hfront k hk).elim
    (fun hp => (verdict_of_passedOver hp).1) (fun hl => (verdict_of_lacksMarks hl).1)
  have hidle : ∀ i : QueueId, s.proposalFor i ≠ none → i = q := fun i hi => by
    by_contra hne
    exact hi (proposalFor_idle (hmodes i hne))
  have hexamined : ∀ k : SlotId, s.examinedAll.jobs[k] = s.jobs[k].takeReason (s.reasonFor q k) := fun k =>
    examinedAll_job fun i hi => reasonFor_idle (hmodes i hi) k
  have hrun := dispatchable_run h
  have hsecond : ∀ g, Decided s g q j p n → g.proposalFor q = none ∧
      ∀ k, g.reasonFor q k = if k ∈ g.queues[q].list then (g.examineJob q k).reason? else none := fun g d =>
    examined_none (d.mode.trans hrun) fun k hk => (second_verdict d hlist hj hfront hback hk).elim
      (fun hp => (verdict_of_passedOver hp).1) (fun hl => (verdict_of_lacksMarks hl.2.2).1)
  obtain ⟨t, g, hexec, d, hgrants, hjobs⟩ := dispatchPass_grants h (by rw [hlist]; simp) hin
    (by rw [hexamined, hreason, if_neg hj, Job.takeReason_none]) hproposal
    (fun i y hy => by
      obtain rfl := hidle i (by rw [hy]; simp)
      obtain rfl : s.claimOf i j p n.val = y := Option.some.inj (hproposal.symm.trans hy)
      exact ⟨rfl, le_rfl⟩)
    (fun g d i hi => by
      obtain rfl := hidle i hi
      obtain ⟨hnone, hreasons⟩ := hsecond g d
      refine ⟨hnone, ?_⟩
      rw [hreasons, (verdict_of_passedOver d.owner).2, ite_self])
  have hclaimant : q ∈ s.claimants := (mem_claimants s q).2 (by rw [hproposal]; simp)
  obtain ⟨-, hreasons⟩ := hsecond g d
  have hafter : ∀ k : SlotId, k ≠ j →
      t.jobs[k] = (s.jobs[k].takeReason (s.reasonFor q k)).takeReason (g.reasonFor q k) := fun k hk => by
    rw [hjobs, takeReasons_one hclaimant (fun i hi hne => absurd (hidle i ((mem_claimants s i).1 hi)) hne), d.jobs k hk,
      hexamined]
  have hverdict : ∀ k : SlotId, k ∈ front → k ≠ j := fun k hk he => hj (he ▸ hk)
  refine ⟨t, hexec, hgrants, fun k hk hp => ?_, fun k hk hl => ?_, fun k hkj hk => ?_⟩
  · rw [hafter k (hverdict k hk), hreason, (verdict_of_passedOver hp).2, ite_self, hreasons,
      (verdict_of_passedOver (d.passedOver (hverdict k hk) hp)).2, ite_self]
    rfl
  · have hkg : k ∈ g.queues[q].list := by
      rw [d.list, hlist]
      exact List.mem_append_left _ hk
    rw [hafter k (hverdict k hk), hreason, if_pos hk, (verdict_of_lacksMarks hl).2, hreasons, if_pos hkg]
    rcases d.lacksMarks (hverdict k hk) hl with h | h
    · rw [(verdict_of_lacksMarks h).2]
      rfl
    · rw [(verdict_of_passedOver h).2]
      rfl
  · have hnone : g.reasonFor q k = none := by
      rw [hreasons]
      by_cases hkg : k ∈ g.queues[q].list
      · rw [if_pos hkg]
        rcases second_verdict d hlist hj hfront hback hkg with hp | ⟨hkf, -⟩
        · exact (verdict_of_passedOver hp).2
        · exact absurd hkf hk
      · rw [if_neg hkg]
    rw [hafter k hkj, hreason, if_neg hk, hnone]
    rfl

end Sys2Proof.Machine
end

