-- ==== Sys2Proof/Proofs/Contests.lean ====
section
/-! SUPPORT. A pass in which two queues want one port (R81), and the obligation on contests. -/

namespace Sys2Proof.Machine

open Sys2Proof.Safety

variable {s t g : State} {j j' k : SlotId} {p : PortId} {q q' i : QueueId} {r r' : RecordId} {n n' : Fin 64}

-- ## What the loser finds

theorem Decided.owned (d : Decided s g q j p n) : g.ports[p].feedOwner = some j := by
  obtain ⟨-, howner, -⟩ := d.granted
  exact howner

theorem Decided.notClaimable (d : Decided s g q j p n) : g.claimable p = false := by
  rw [← Bool.not_eq_true]
  intro h
  have hnone := State.feedOwner_of_claimable h
  rw [d.owned] at hnone
  exact absurd hnone (by simp)

/-- The grant's window holds the entries of the other jobs as they stood. -/
theorem Decided.window (d : Decided s g q j p n) (hj : j' ≠ j) (i : PortId) (e : SendEntry) (he : e.job = j') :
    e ∈ g.ports[i].window ↔ e ∈ s.ports[i].window := by
  by_cases hi : i = p
  · subst hi
    obtain ⟨-, -, -, hwindow⟩ := d.granted
    rcases hwindow with hsame | ⟨f, hoffer, hf, -⟩
    · rw [hsame]
    · have hne : e ≠ f := by
        rintro rfl
        exact hj (he.symm.trans hf)
      rw [hoffer, List.mem_append, List.mem_singleton]
      exact ⟨fun h => h.resolve_right hne, .inl⟩
  · rw [d.ports i hi]

theorem Decided.entriesAt (d : Decided s g q j p n) (hj : j' ≠ j) (h : EntriesAt s j' p) : EntriesAt g j' p :=
  fun k e he hej => h k e ((d.window hj k e hej).1 he) hej

theorem Decided.holdsEntry (d : Decided s g q j p n) (hj : j' ≠ j) : g.holdsEntry p j' = s.holdsEntry p j' := by
  rw [Bool.eq_iff_iff, holdsEntry_iff, holdsEntry_iff]
  exact exists_congr fun e => and_congr_left fun he => d.window hj p e he

theorem Decided.service (d : Decided s g q j p n) {i : PortId} (hi : i ≠ p) : g.service i = s.service i := by
  have halerts : g.alerts = s.alerts := d.keeps.part .alerts
  simp only [State.service, halerts, d.ports i hi]

/-- A port that the loser may claim behind the grant it could claim before. -/
theorem Decided.mayClaim (d : Decided s g q j p n) (hj : j' ≠ j) (hjob : g.jobs[j'] = s.jobs[j'])
    (hq : s.jobs[j'].queue ≠ q) {i : PortId} (hi : i ≠ p) (h : MayClaim g i j') : MayClaim s i j' := by
  have hclock : g.clock = s.clock := d.keeps.part .clock
  obtain ⟨hup, hready, hident, hexclusion, hentries⟩ := h
  rw [d.ports i hi] at hup hident hentries
  rw [d.service hi] at hready
  simp only [hjob] at hident hexclusion
  rw [hclock, d.queues _ hq] at hexclusion
  refine ⟨hup, hready, hident, hexclusion, hentries.imp_right fun hno k e he hej => ?_⟩
  exact hno k e ((d.window hj k e hej).2 he) hej

/-- The loser's ring has no port left that its job may claim (R76, R77). -/
theorem Decided.ringSearch (d : Decided s g q j p n) (h : Dispatchable s q' j' p n' r') (hq : q' ≠ q) (hj : j' ≠ j)
    (hjob : g.jobs[j'] = s.jobs[j']) (honly : ∀ (m : Fin 64) (k : PortId), s.rings[q'].first ≤ m.val →
      m.val ≤ s.rings[q'].last → hasBit s.rows[m] k.val = true → k ≠ p → ¬MayClaim s k j')
    (hfirst : s.rings[q'].first ≤ s.rings[q'].current) : g.ringSearch q' j' = none := by
  obtain ⟨hhome, -⟩ := dispatchable_claims h
  obtain ⟨-, -, hqueue, -, -, -, -, -, -, -, -, -, -, -, hcurrent, hlast, -⟩ := h
  have hrows : g.rows = s.rows := d.keeps.part .rows
  refine ringSearch_none (by rw [d.rings q' hq]; exact hfirst) (by rw [d.rings q' hq]; omega) fun m k h1 h2 hbit => ?_
  rw [d.rings q' hq] at h1 h2
  rw [hrows] at hbit
  by_cases hk : k = p
  · subst hk
    rw [State.eligible, d.notClaimable]
    rfl
  · rw [← Bool.not_eq_true, eligible_iff_mayClaim (d.entriesAt hj hhome)]
    exact fun hmay => honly m k h1 h2 hbit hk (d.mayClaim hj hjob (by rw [hqueue]; exact hq) hk hmay)

/-- The loser's job reads DRAIN if it has entries at the port, and else ROUTE (R38 tests 8 and 9). -/
theorem Decided.loser (d : Decided s g q j p n) (h : Dispatchable s q' j' p n' r') (hq : q' ≠ q) (hj : j' ≠ j)
    (hjob : g.jobs[j'] = s.jobs[j']) (haccount : s.jobs[j'].account ≠ s.jobs[j].account)
    (honly : ∀ (m : Fin 64) (k : PortId), s.rings[q'].first ≤ m.val → m.val ≤ s.rings[q'].last →
      hasBit s.rows[m] k.val = true → k ≠ p → ¬MayClaim s k j')
    (hfirst : s.rings[q'].first ≤ s.rings[q'].current) :
    g.examineJob q' j' = .waits (if s.holdsEntry p j' then .drain else .route) := by
  obtain ⟨hhome, -⟩ := dispatchable_claims h
  have hsearch := d.ringSearch h hq hj hjob honly hfirst
  have hpermits := permits_of_dispatchable h
  have hmarks := marks_of_dispatchable h
  have hpages : g.pages = s.pages := d.keeps.part .pages
  have hdrain : g.drainOk j' = !s.holdsEntry p j' := by
    rw [State.drainOk, entryPort_of_entriesAt (d.entriesAt hj hhome), d.holdsEntry hj]
    cases s.holdsEntry p j' with
    | true => exact d.notClaimable
    | false => rfl
  obtain ⟨-, hstate, -, hfull, hnext, -, hallow, -⟩ := h
  have hreserve : g.accounts[g.jobs[j'].account].canReserve g.pages[r'].sides = true := by
    simp only [hjob, hpages]
    rw [d.accounts _ haccount]
    exact (canReserve_iff _ _).2 hallow
  rw [← hjob] at hstate hfull hnext hpermits hmarks
  rw [← d.queues q' hq] at hpermits hmarks
  rw [examineJob_sendable hstate hfull hpermits hnext, if_neg hmarks, if_neg (by rw [hreserve]; decide), hdrain, hsearch]
  cases s.holdsEntry p j' <;> rfl

/-- The winner of a list of one job proposes nothing again. -/
theorem Decided.winner_rests (d : Decided s g q j p n) (hrun : s.queues[q].mode = .run) (hlist : s.queues[q].list = [j]) :
    g.proposalFor q = none ∧ ∀ k, g.reasonFor q k = none := by
  have hverdict : ∀ k ∈ g.queues[q].list, (g.examineJob q k).proposal? = none ∧ (g.examineJob q k).reason? = none :=
    fun k hk => by
      rw [d.list, hlist, List.mem_singleton] at hk
      subst hk
      exact verdict_of_passedOver d.owner
  obtain ⟨hnone, hreasons⟩ := examined_none (d.mode.trans hrun) fun k hk => (hverdict k hk).1
  refine ⟨hnone, fun k => ?_⟩
  rw [hreasons]
  split
  · rename_i hk
    exact (hverdict k hk).2
  · rfl

/-- A queue whose one job waits for a reason behind the grant proposes nothing and writes that reason. -/
theorem Decided.loser_rests (d : Decided s g q j p n) (hq : q' ≠ q) (hrun : s.queues[q'].mode = .run)
    (hlist : s.queues[q'].list = [j']) {why : WaitReason} (hwaits : g.examineJob q' j' = .waits why) :
    g.proposalFor q' = none ∧ ∀ k, g.reasonFor q' k = if k = j' then some why else none := by
  have hlistg : g.queues[q'].list = [j'] := by rw [d.queues q' hq, hlist]
  obtain ⟨hnone, hreasons⟩ := examined_none (s := g) (q := q') (by rw [d.queues q' hq, hrun]) fun k hk => by
    rw [hlistg, List.mem_singleton] at hk
    rw [hk, hwaits]
    rfl
  refine ⟨hnone, fun k => ?_⟩
  rw [hreasons, hlistg]
  by_cases hk : k = j'
  · rw [if_pos (List.mem_singleton.2 hk), if_pos hk, hk, hwaits]
    rfl
  · rw [if_neg (by simpa using hk), if_neg hk]

-- ## The pass

/-- A pass in which two queues want one port (R81). -/
theorem twoQueues_pass (hin : s.passInProgress = true) (hqq : q < q')
    (hmodes : ∀ k : QueueId, k ≠ q → k ≠ q' → s.queues[k].mode ≠ .run) (hlist : s.queues[q].list = [j])
    (hlist' : s.queues[q'].list = [j']) (h : Dispatchable s q j p n r) (h' : Dispatchable s q' j' p n' r')
    (haccounts : s.jobs[j].account ≠ s.jobs[j'].account)
    (honly : ∀ (m : Fin 64) (k : PortId), s.rings[q'].first ≤ m.val → m.val ≤ s.rings[q'].last →
      hasBit s.rows[m] k.val = true → k ≠ p → ¬MayClaim s k j')
    (hfirst : s.rings[q'].first ≤ s.rings[q'].current) :
    ∃ t, exec .dispatchPass s = .next t ∧ PassGrants s t q j p n ∧
      t.jobs[j'] = { s.jobs[j'] with reason := some (if s.holdsEntry p j' then .drain else .route) } ∧
      ∀ k : SlotId, k ≠ j → k ≠ j' → t.jobs[k] = s.jobs[k] := by
  have hne : q' ≠ q := ne_of_gt hqq
  have hj : j' ≠ j := by
    rintro rfl
    exact haccounts rfl
  obtain ⟨hproposal, hreason⟩ := examined_first (front := []) (back := []) h hlist (by simp)
  obtain ⟨hproposal', hreason'⟩ := examined_first (front := []) (back := []) h' hlist' (by simp)
  have hunwritten : ∀ (i : QueueId) (k : SlotId), s.reasonFor i k = none := fun i k => by
    by_cases hi : i = q
    · rw [hi, hreason]
      rfl
    by_cases hi' : i = q'
    · rw [hi', hreason']
      rfl
    · exact reasonFor_idle (hmodes i hi hi') k
  have hexamined : ∀ k : SlotId, s.examinedAll.jobs[k] = s.jobs[k] := fun k => by
    rw [examinedAll_job (q := q) fun i _ => hunwritten i k, hunwritten, Job.takeReason_none]
  have hproposers : ∀ i : QueueId, s.proposalFor i ≠ none → i = q ∨ i = q' := fun i hi => by
    by_contra hno
    rw [not_or] at hno
    exact hi (proposalFor_idle (hmodes i hno.1 hno.2))
  have hsecond : ∀ g, Decided s g q j p n → g.proposalFor q = none ∧ ∀ k, g.reasonFor q k = none := fun g d =>
    d.winner_rests (dispatchable_run h) hlist
  have hsecond' : ∀ g, Decided s g q j p n → g.proposalFor q' = none ∧ ∀ k, g.reasonFor q' k =
      if k = j' then some (if s.holdsEntry p j' then .drain else .route) else none := fun g d =>
    d.loser_rests hne (dispatchable_run h') hlist'
      (d.loser h' hne hj ((d.jobs j' hj).trans (hexamined j')) haccounts.symm honly hfirst)
  obtain ⟨t, g, hexec, d, hgrants, hjobs⟩ := dispatchPass_grants h (by rw [hlist]; simp) hin (hexamined j) hproposal
    (fun i y hy => by
      rcases hproposers i (by rw [hy]; simp) with rfl | rfl
      · obtain rfl := Option.some.inj (hproposal.symm.trans hy)
        exact ⟨rfl, le_rfl⟩
      · obtain rfl := Option.some.inj (hproposal'.symm.trans hy)
        exact ⟨rfl, le_of_lt hqq⟩)
    (fun g d i hi => by
      rcases hproposers i hi with rfl | rfl
      · exact ⟨(hsecond g d).1, (hsecond g d).2 j⟩
      · exact ⟨(hsecond' g d).1, by rw [(hsecond' g d).2, if_neg (Ne.symm hj)]⟩)
  obtain ⟨-, hnoReason⟩ := hsecond g d
  obtain ⟨-, hloserReason⟩ := hsecond' g d
  have hclaimant : q' ∈ s.claimants := (mem_claimants s q').2 (by rw [hproposal']; simp)
  have hafter : ∀ k : SlotId, k ≠ j → t.jobs[k] = s.jobs[k].takeReason (g.reasonFor q' k) := fun k hk => by
    rw [hjobs, takeReasons_one hclaimant, d.jobs k hk, hexamined]
    intro i hi hiq
    rcases hproposers i ((mem_claimants s i).1 hi) with rfl | rfl
    · exact hnoReason k
    · exact absurd rfl hiq
  refine ⟨t, hexec, hgrants, ?_, fun k hk hk' => ?_⟩
  · rw [hafter j' hj, hloserReason, if_pos rfl]
    rfl
  · rw [hafter k hk, hloserReason, if_neg hk']
    rfl

/-- Settles O31: one queue's list by the verdicts before and behind the grant, and two queues by the lower number. -/
theorem dispatchPassDecidesContests : Obligations.DispatchPassDecidesContests := by
  refine ⟨fun s q j p n r front back hin hmodes hlist hj h hfront hback => ?_,
    fun s q q' j j' p n n' r r' hin hqq hmodes hlist hlist' h h' haccounts honly hfirst => ?_⟩
  · obtain ⟨t, hexec, g, hpassed, hlacks, hothers⟩ := oneQueue_pass hin hmodes hlist hj h hfront hback
    exact ⟨t, hexec, g.granted, hpassed, hlacks, hothers, g.queues, g.ports, g.accounts, g.rings, g.proposals, g.passes.1,
      g.passes.2, g.keeps⟩
  · obtain ⟨t, hexec, g, hloser, hothers⟩ :=
      twoQueues_pass hin hqq hmodes hlist hlist' h h' haccounts honly hfirst
    exact ⟨t, hexec, g.granted, hloser, hothers, g.queues, g.ports, g.accounts, g.rings, g.proposals, g.passes.1,
      g.passes.2, g.keeps⟩

end Sys2Proof.Machine
end

