-- ==== Sys2Proof/Proofs/CommandFrames.lean ====
section
/-! SUPPORT. What each command is, the taking of a request or an event, and the parts of the state that it can change. -/

set_option Elab.async false

namespace Sys2Proof

open Sys2Proof.Machine Sys2Proof.Safety

variable {s t : State} {i : Instr}

/-- The parts of the state that a command's own rule can change: of a request command, what the rule changes beside the
inbox and the reply queue. -/
def Instr.changes : Instr → List Part
  | .admitJob .. | .moveJob .. => [.jobs, .queues, .passInProgress, .passOwed]
  | .pageData .. =>
    [.jobs, .pages, .freePool, .dram, .ports, .accounts, .pressLog, .notices, .passInProgress, .passOwed]
  | .pageDiscard .. => [.jobs, .pages, .freePool]
  | .closeJob .. =>
    [.jobs, .pages, .freePool, .ports, .accounts, .pressLog, .queues, .markLine, .notices, .passInProgress, .passOwed]
  | .cancelJob .. => [.jobs, .ports, .pressLog, .notices, .passInProgress, .passOwed]
  | .retryJob .. => [.jobs, .passInProgress, .passOwed]
  | .queryJob .. | .queryQueue .. | .queryPort .. | .tariffRead .. | .queryAccount .. | .queryStore .. | .queryPart .. => []
  | .queueMode .. => [.queues, .jobs, .ports, .pressLog, .notices, .passInProgress, .passOwed]
  | .queueDispatch .. | .queueOptions .. => [.queues, .proposals, .passInProgress, .passOwed]
  | .mark .. => [.queues, .passInProgress, .passOwed]
  | .rowWrite .. | .memberSet .. | .memberClear .. => [.rows, .passInProgress, .passOwed]
  | .routeSet .. | .routeStep .. => [.rings, .proposals, .passInProgress, .passOwed]
  | .portService .. => [.jobs, .ports, .accounts, .pressLog, .notices, .passInProgress, .passOwed]
  | .portReset .. => [.jobs, .ports, .accounts, .alerts, .openAlerts, .notices, .passInProgress, .passOwed, .pressLog]
  | .portMeters .. => [.ports]
  | .tariffWrite .. => [.tariffs]
  | .accountSet .. | .accountCredit .. => [.accounts, .passInProgress, .passOwed]
  | .accountClose .. => [.accounts]
  | .alertAck .. => [.alerts]
  | .alertRelease .. => [.alerts, .notices, .openAlerts, .jobs, .passInProgress, .passOwed]
  | .queryAlerts .. => [.freeCount]
  | .setTimers .. => [.timers]
  | .restart .. => [.restarting, .inbox]
  | .unknownKindRequest .. => [.inbox, .replies]
  | .hostFrameReceived .. => [.checker, .inbox, .replies]
  | .frameBoundary =>
    [.replies, .notices, .onLink, .jobs, .queues, .pages, .freePool, .alerts, .ports, .startFlag, .partOwed]
  | .restartReset => [.checker, .inbox, .replies, .notices, .onLink, .startInterval, .startFlag, .partOwed, .startCause,
      .restarting, .jobs, .queues, .markLine, .pages, .freePool, .proposals, .passInProgress, .passOwed, .ports,
      .pressLog, .accounts, .alerts, .openAlerts]
  | .startIntervalEnd => [.startInterval, .onLink]
  | .powerOn | .resetPin => [.checker, .inbox, .replies, .notices, .onLink, .startInterval, .startFlag, .partOwed,
      .startCause, .restarting, .jobs, .queues, .markLine, .pages, .freePool, .rows, .rings, .proposals, .passInProgress,
      .passOwed, .ports, .pressLog, .tariffs, .accounts, .alerts, .openAlerts, .clock, .timers]
  | .finishingMarkEdge => [.queues, .passInProgress, .passOwed]
  | .markPulseEnd | .markPulseHighEnd => [.markLine]
  | .starveTimerExpiry .. => [.jobs, .ports, .notices, .passInProgress, .passOwed]
  | .setupTimerExpiry .. => [.ports, .alerts, .notices, .openAlerts]
  | .escalationTimerExpiry .. => [.alerts, .notices]
  | .rerouteTick .. => [.passInProgress, .passOwed]
  | .probeDue .. => [.ports, .pressLog]
  | .rateWindowClose .. => [.ports, .notices, .passInProgress, .passOwed]
  | .sendEnd .. => [.ports, .pressLog, .jobs, .accounts, .notices, .passInProgress, .passOwed]
  | .dispatchPass => [.jobs, .queues, .rings, .proposals, .ports, .accounts, .pressLog, .notices, .passInProgress, .passOwed,
      .freeCount]
  | .ident .. | .rateEcho .. | .status .. | .taken .. | .sheet .. | .aborted .. | .refuse .. | .jam .. | .cleared ..
  | .pressCancel .. | .setupDone .. | .pressSilence .. => pressParts
  | .pressFrameDiscarded .. => [.ports]
  | .shopClockTick => [.clock]

/-- What a command is: the taking of a request by a rule that changes no more than `Instr.changes`, or an event whose
effect does not. -/
inductive Instr.Does (i : Instr) : Prop
  | request (kind tag : Byte) (body : List Byte) (encoded : Bool) (judge : State → Judged)
      (hexec : ∀ s, exec i s = .next (s.request kind tag body encoded judge))
      (hkeeps : ∀ u, Judged.Keeps i.changes u (judge u))
  | event (f : State → State) (hexec : ∀ s, exec i s = .next (f s)) (hkeeps : ∀ s, KeepsAllBut i.changes s (f s))

/-- A request's rule. -/
theorem Instr.Does.of_judge {kind tag : Byte} {body : List Byte} {encoded : Bool} {judge : State → Judged}
    (hkeeps : ∀ u, Judged.Keeps i.changes u (judge u))
    (hexec : ∀ s, exec i s = .next (s.request kind tag body encoded judge) := by exact fun _ => rfl) : i.Does :=
  .request kind tag body encoded judge hexec hkeeps

/-- An event that has its effect under a condition, and else none (log entry 1). -/
theorem Instr.Does.of_event {f : State → State} {c : State → Prop} [DecidablePred c]
    (hkeeps : ∀ s, KeepsAllBut i.changes s (f s))
    (hexec : ∀ s, exec i s = .next (if c s then f s else s) := by exact fun _ => rfl) : i.Does :=
  .event _ hexec fun s => .ite (hkeeps s) (.refl _ s)

/-- A printer's message. -/
theorem Instr.Does.of_message {p : PortId} {fieldsOk : Bool} {taken : LinkState → Bool} {act : State → State}
    {parts : List Part} (h : ∀ s, KeepsAllBut parts s (act s)) (hs : parts ⊆ pressParts := by decide)
    (hi : i.changes = pressParts := by rfl)
    (hexec : ∀ s, exec i s = .next (s.pressMessage p fieldsOk taken act) := by exact fun _ => rfl) : i.Does :=
  .event _ hexec fun s => hi ▸ pressMessage_keeps' s p fieldsOk taken h hs

theorem coldStart_keeps (c : StartCause) (s : State) : KeepsAllBut Instr.powerOn.changes s (s.coldStart c) := by
  intro x hx
  cases x with
  | dram | freeCount | pending => rfl
  | _ => simp [Instr.changes] at hx

theorem restartReset_keeps (s : State) : KeepsAllBut Instr.restartReset.changes s s.restartReset := by
  intro x hx
  cases x with
  | dram | rows | rings | tariffs | clock | timers | freeCount | pending => rfl
  | _ => simp [Instr.changes] at hx

theorem startIntervalEnd_keeps (s : State) :
    KeepsAllBut Instr.startIntervalEnd.changes s { s with startInterval := false, onLink := none } := by
  intro x hx
  cases x with
  | startInterval | onLink => simp [Instr.changes] at hx
  | _ => rfl

theorem shopClockTick_keeps (s : State) : KeepsAllBut Instr.shopClockTick.changes s { s with clock := s.clock + 1 } := by
  intro x hx
  cases x with
  | clock => simp [Instr.changes] at hx
  | _ => rfl

theorem markLine_keeps (m : MarkLine) (s : State) : KeepsAllBut [.markLine] s { s with markLine := m } := by
  intro x hx
  cases x with
  | markLine => simp at hx
  | _ => rfl

/-- Every command is the taking of a request or an event, and changes no more than `Instr.changes`. -/
theorem Instr.does (i : Instr) : i.Does := by
  cases i with
  | admitJob _ body => exact .of_judge fun u => judgeAdmit_keeps u body
  | pageData _ body => exact .of_judge fun u => judgePageData_keeps u body
  | pageDiscard _ body => exact .of_judge fun u => judgePageDiscard_keeps u body
  | closeJob _ body => exact .of_judge fun u => judgeCloseJob_keeps u body
  | cancelJob _ body => exact .of_judge fun u => judgeCancelJob_keeps u body
  | moveJob _ body => exact .of_judge fun u => judgeMoveJob_keeps u body
  | retryJob _ body => exact .of_judge fun u => judgeRetryJob_keeps u body
  | queryJob _ body => exact .of_judge fun u => judgeQueryJob_keeps u body
  | queueMode _ body => exact .of_judge fun u => judgeQueueMode_keeps u body
  | queueDispatch _ body => exact .of_judge fun u => judgeQueueDispatch_keeps u body
  | queueOptions _ body => exact .of_judge fun u => judgeQueueOptions_keeps u body
  | mark _ body => exact .of_judge fun u => judgeMark_keeps u body
  | queryQueue _ body => exact .of_judge fun u => judgeQueryQueue_keeps u body
  | rowWrite _ body => exact .of_judge fun u => judgeRowWrite_keeps u body
  | memberSet _ body => exact .of_judge fun u => judgeMemberSet_keeps u body
  | memberClear _ body => exact .of_judge fun u => judgeMemberClear_keeps u body
  | routeSet _ body => exact .of_judge fun u => judgeRouteSet_keeps u body
  | routeStep _ body => exact .of_judge fun u => judgeRouteStep_keeps u body
  | portService _ body => exact .of_judge fun u => judgePortService_keeps u body
  | portReset _ body => exact .of_judge fun u => judgePortReset_keeps u body
  | portMeters _ body => exact .of_judge fun u => judgePortMeters_keeps u body
  | queryPort _ body => exact .of_judge fun u => judgeQueryPort_keeps u body
  | tariffWrite _ body => exact .of_judge fun u => judgeTariffWrite_keeps u body
  | tariffRead _ body => exact .of_judge fun u => judgeTariffRead_keeps u body
  | accountSet _ body => exact .of_judge fun u => judgeAccountSet_keeps u body
  | accountCredit _ body => exact .of_judge fun u => judgeAccountCredit_keeps u body
  | accountClose _ body => exact .of_judge fun u => judgeAccountClose_keeps u body
  | queryAccount _ body => exact .of_judge fun u => judgeQueryAccount_keeps u body
  | alertAck _ body => exact .of_judge fun u => judgeAlertAck_keeps u body
  | alertRelease _ body => exact .of_judge fun u => judgeAlertRelease_keeps u body
  | queryAlerts => exact .of_judge judgeQueryAlerts_keeps
  | setTimers _ body => exact .of_judge fun u => judgeSetTimers_keeps u body
  | queryStore => exact .of_judge (judge := fun t => ok t t.storeReply) (KeepsAllBut.refl [])
  | queryPart => exact .of_judge (judge := fun t => ok t t.partReply) (KeepsAllBut.refl [])
  | restart => exact .of_judge (judge := fun t => ok t.restart []) State.restart_keeps
  | unknownKindRequest kind tag =>
    have hrefused : ∀ s : State, KeepsAllBut [.inbox, .replies] s (s.popInbox.placeReply (replyFrame kind tag .kind [])) :=
      fun s => s.popInbox_keeps.trans (State.placeReply_keeps _ _)
    exact .of_event hrefused
  | hostFrameReceived bytes => exact .event _ (fun _ => rfl) fun s => s.hostBytes_keeps bytes
  | frameBoundary =>
    exact .event _ (fun _ => rfl) fun s => .ite (.refl _ s) s.boundary_keeps
  | restartReset => exact .of_event restartReset_keeps
  | startIntervalEnd => exact .of_event startIntervalEnd_keeps
  | powerOn => exact .event _ (fun _ => rfl) (coldStart_keeps .power)
  | resetPin => exact .event _ (fun _ => rfl) (coldStart_keeps .pin)
  | finishingMarkEdge => exact .event _ (fun _ => rfl) fun s => .ite (.refl _ s) s.markEdge_keeps
  | markPulseEnd => exact .event _ (fun _ => rfl) fun s => markLine_keeps s.markLine.pulseEnd s
  | markPulseHighEnd => exact .event _ (fun _ => rfl) fun s => markLine_keeps s.markLine.highEnd s
  | starveTimerExpiry port => exact .of_event fun s => s.starveExpiry_keeps port
  | setupTimerExpiry port => exact .of_event fun s => s.reportStall_keeps port
  | escalationTimerExpiry slot => exact .of_event fun s => s.escalate_keeps slot
  | rerouteTick => exact .of_event State.ask_keeps
  | probeDue port => exact .of_event fun s => s.probe_keeps port
  | pressSilence port =>
    exact .of_event fun s => ((s.linkLoss_keeps port).trans (State.holdTest_keeps _ port)).mono (b := pressParts)
  | rateWindowClose port => exact .of_event fun s => s.rateWindowClose_keeps port
  | sendEnd port =>
    refine .event _ (fun _ => rfl) fun s => ?_
    cases s.ports[port].sendingEntry with
    | none => exact .refl _ s
    | some e => exact s.sendEnd_keeps port e
  | dispatchPass =>
    exact .of_event fun s => (s.pass_keeps.trans s.pass.endPass_keeps).mono
  | ident port classCode caps mediaSet loaded depth =>
    refine .event _ (fun _ => rfl) fun s => ?_
    cases mediaOf loaded with
    | none => exact pressMessage_keeps' s port _ _ (.refl [])
    | some m => exact pressMessage_keeps' s port _ _ fun t => t.identTaken_keeps port _ m _
  | rateEcho port => exact .of_message fun s => s.echoTaken_keeps port
  | status port reasons => exact .of_message fun s => s.statusTaken_keeps port _
  | taken port serial =>
    exact .of_message fun s => s.report_keeps port _ (State.takenPassed port) fun e t => t.takenPassed_keeps port e
  | sheet port serial =>
    exact .of_message fun s => s.report_keeps port _ (State.sheetPassed port) fun e t => t.sheetPassed_keeps port e
  | aborted port serial =>
    exact .of_message fun s => s.report_keeps port _ (State.abortedPassed port) fun e t => t.abortedPassed_keeps port e
  | refuse port serial reason =>
    exact .of_message fun s => s.report_keeps port _
      (fun e u => if e.isAborting then u.abortedPassed port e else u.refusePassed port reason e)
      fun e t => .ite (t.abortedPassed_keeps port e) (t.refusePassed_keeps port reason e)
  | jam port location present serial => exact .of_message fun s => s.jamTaken_keeps port location _
  | cleared port => exact .of_message fun s => s.clearedTaken_keeps port
  | pressCancel port => exact .of_message fun s => s.cancelTaken_keeps port
  | setupDone port media =>
    refine .event _ (fun _ => rfl) fun s => ?_
    cases mediaOf media with
    | none => exact pressMessage_keeps' s port _ _ (.refl [])
    | some m => exact pressMessage_keeps' s port _ _ fun t => t.setupTaken_keeps port m
  | pressFrameDiscarded port bytes =>
    exact .event _ (fun _ => rfl) fun s => .ite (.refl _ s) (s.updPort_keeps port _)
  | shopClockTick => exact .event _ (fun _ => rfl) shopClockTick_keeps

/-- A command keeps every part but the inbox, the reply queue and what its rule changes. -/
theorem exec_keeps (h : exec i s = .next t) : KeepsAllBut (.inbox :: .replies :: i.changes) s t := by
  cases i.does with
  | request kind tag body encoded judge hexec hkeeps =>
    obtain rfl := Host.Outcome.next.inj ((hexec s).symm.trans h)
    refine request_keeps (by simp) (by simp) fun u => ?_
    have hu := hkeeps u
    cases hj : judge u with
    | refused c => trivial
    | done t c fields =>
      rw [hj] at hu
      exact KeepsAllBut.mono hu (fun x hx => by simp [hx])
  | event f hexec hkeeps =>
    obtain rfl := Host.Outcome.next.inj ((hexec s).symm.trans h)
    exact (hkeeps s).mono (fun x hx => by simp [hx])

end Sys2Proof
end

