-- ==== Sys2Proof/Proofs/TableInvariants.lean ====
section
/-! SUPPORT. Invariants that read one part of the state: a command keeps one whose part it does not change, and a
request one that its rule keeps. -/

set_option Elab.async false

namespace Sys2Proof.Safety

open Sys2Proof.Machine

variable {s t : State} {i : Instr} {inv : State → Prop} {x : Part} {kind tag : Byte} {body : List Byte} {encoded : Bool}
  {judge : State → Judged}

/-- The invariant reads no part of the state but `x`. -/
def ReadsOnly (x : Part) (inv : State → Prop) : Prop := ∀ s t : State, x.same s t → inv s → inv t

/-- A rule that lets its request through answers a state with the invariant. -/
def Judged.Meets (inv : State → Prop) : Judged → Prop
  | .refused _ => True
  | .done t _ _ => inv t

theorem ReadsOnly.of_keeps {parts : List Part} (hread : ReadsOnly x inv) (h : inv s) (hk : KeepsAllBut parts s t)
    (hx : x ∉ parts := by decide) : inv t := hread s t (hk x hx) h

/-- A command that does not change the part that the invariant reads keeps the invariant. -/
theorem ReadsOnly.of_exec (hread : ReadsOnly x inv) (h : inv s) (he : exec i s = .next t)
    (hx : x ∉ .inbox :: .replies :: i.changes) : inv t := hread.of_keeps h (exec_keeps he) hx

theorem orRange_meets {α : Type} {a : Option α} {f : α → Judged} (h : ∀ b, a = some b → Judged.Meets inv (f b)) :
    Judged.Meets inv (orRange a f) := by
  cases a with
  | none => trivial
  | some b => exact h b rfl

theorem withHandle_meets {f : SlotId → Judged} (h : ∀ j, Judged.Meets inv (f j)) :
    Judged.Meets inv (s.withHandle body f) := by
  unfold State.withHandle
  split
  · trivial
  · exact h _

/-- A rule that leaves the part that the invariant reads keeps the invariant. -/
theorem ReadsOnly.of_judge {parts : List Part} {d : Judged} (hread : ReadsOnly x inv) (h : inv s)
    (hk : Judged.Keeps parts s d) (hx : x ∉ parts := by decide) : Judged.Meets inv d := by
  cases d with
  | refused c => trivial
  | done t c fields => exact hread.of_keeps h hk hx

/-- A request keeps an invariant of another part than the inbox and the reply queue if its rule keeps it. -/
theorem ReadsOnly.request (hread : ReadsOnly x inv) (h : inv s) (hj : ∀ u, inv u → Judged.Meets inv (judge u))
    (hi : x ∉ [.inbox] := by decide) (hr : x ∉ [.replies] := by decide) :
    inv (s.request kind tag body encoded judge) := by
  have hpop : inv s.popInbox := hread.of_keeps h s.popInbox_keeps hi
  have hput : ∀ (u : State) (f : HostFrame), inv u → inv (u.placeReply f) := fun u f hu =>
    hread.of_keeps hu (u.placeReply_keeps f) hr
  unfold State.request
  split
  · split
    · split
      · exact hput _ _ hpop
      · rename_i hd
        have hdone := hj _ hpop
        rw [hd] at hdone
        exact hput _ _ hdone
    · exact hput _ _ hpop
  · exact h

/-- Operations in turn keep an invariant that each of them keeps. -/
theorem foldl_meets {α : Type} {f : State → α → State} (hf : ∀ t a, inv t → inv (f t a)) (xs : List α) (h : inv s) :
    inv (xs.foldl f s) := by
  induction xs generalizing s with
  | nil => exact h
  | cons a xs ih => exact ih (hf s a h)

-- ## The parts that the invariants of the tables read

theorem ringsOrdered_reads : ReadsOnly .rings RingsOrdered := fun s t (hsame : t.rings = s.rings) h q => by
  rw [hsame]
  exact h q

theorem standingPriced_reads : ReadsOnly .tariffs StandingPriced := fun s t (hsame : t.tariffs = s.tariffs) h => by
  unfold StandingPriced
  rw [hsame]
  exact h

theorem marksLegal_reads : ReadsOnly .queues MarksLegal := fun s t (hsame : t.queues = s.queues) h q => by
  rw [hsame]
  exact h q

theorem timersInRange_reads : ReadsOnly .timers TimersInRange := fun s t (hsame : t.timers = s.timers) h => by
  unfold TimersInRange
  rw [hsame]
  exact h

-- ## The standing page and the timer settings

/-- No entry and no surcharge of a tariff page is BLANK (R111). -/
def Priced (y : TariffPage) : Prop := (∀ k : Fin 24, y.rates[k] ≠ none) ∧ ∀ k : Fin 3, y.surcharges[k] ≠ none

/-- A value written to an item is no BLANK, and the other items stay (R112). -/
theorem Priced.write {y : TariffPage} (item : TariffItem) (body : List Byte) (h : Priced y) :
    Priced (y.write item false body) := by
  obtain ⟨hrates, hsurcharges⟩ := h
  cases item with
  | rate n =>
    refine ⟨fun k => ?_, hsurcharges⟩
    by_cases hk : n.val = k.val
    · simp [TariffPage.write, hk]
    · have hold := hrates k
      simpa [TariffPage.write, Vector.getElem_set, hk] using hold
  | surcharge n =>
    refine ⟨hrates, fun k => ?_⟩
    by_cases hk : n.val = k.val
    · simp [TariffPage.write, hk]
    · have hold := hsurcharges k
      simpa [TariffPage.write, Vector.getElem_set, hk] using hold

theorem StandingPriced.updTariff {g : Fin 8} {f : TariffPage → TariffPage} (h : StandingPriced s)
    (hf : g = standingPage → Priced (f s.tariffs[g])) : StandingPriced (s.updTariff g f) := by
  unfold StandingPriced
  by_cases hg : g = standingPage
  · have hwritten := hf hg
    subst hg
    rw [State.updTariff_tariffs_self]
    exact hwritten
  · rw [State.updTariff_tariffs_ne _ _ _ _ (Ne.symm hg)]
    exact h

/-- BLANK is refused to an item of the standing page (R112). -/
theorem judgeTariffWrite_priced (h : StandingPriced s) : Judged.Meets StandingPriced (judgeTariffWrite body s) := by
  refine orRange_meets fun g _ => orRange_meets fun item _ => ?_
  dsimp only
  split
  · trivial
  · split
    · trivial
    · rename_i hblank
      refine StandingPriced.updTariff h fun hg => ?_
      have hvalue : (byteAt body 4 == 1) = false := by simpa [hg] using hblank
      subst hg
      rw [hvalue]
      exact Priced.write item body h

theorem standingPriced_exec (h : StandingPriced s) (he : exec i s = .next t) : StandingPriced t := by
  cases i with
  | tariffWrite tag body =>
    obtain rfl := Host.Outcome.next.inj he
    exact standingPriced_reads.request h fun _ => judgeTariffWrite_priced
  | powerOn | resetPin =>
    obtain rfl := Host.Outcome.next.inj he
    exact standingPriced_reads State.reset _ rfl standingPriced_reset
  | _ => exact standingPriced_reads.of_exec h he (by simp [Instr.changes, pressParts])

theorem clampTo_range {lo hi : Nat} (h : lo ≤ hi) (n : Nat) : lo ≤ clampTo lo hi n ∧ clampTo lo hi n ≤ hi :=
  ⟨Nat.le_max_left _ _, Nat.max_le.2 ⟨h, Nat.min_le_right _ _⟩⟩

theorem timersInRange_exec (h : TimersInRange s) (he : exec i s = .next t) : TimersInRange t := by
  cases i with
  | setTimers tag body =>
    obtain rfl := Host.Outcome.next.inj he
    refine timersInRange_reads.request h fun u _ => ?_
    exact ⟨clampTo_range (by decide) _, clampTo_range (by decide) _, clampTo_range (by decide) _,
      clampTo_range (by decide) _, (clampTo_range (by decide) _).2⟩
  | powerOn | resetPin =>
    obtain rfl := Host.Outcome.next.inj he
    exact timersInRange_reads State.reset _ rfl (by unfold TimersInRange; decide)
  | _ => exact timersInRange_reads.of_exec h he (by simp [Instr.changes, pressParts])

end Sys2Proof.Safety
end

