-- ==== Sys2Proof/Proofs/LegalMarks.lean ====
section
/-! SUPPORT. Received sets stay legal (R32, R42, R44 to R47): no operation gives a queue its own member, and a queue in
DISABLED or LOAD holds none. -/

set_option Elab.async false

namespace Sys2Proof.Safety

open Sys2Proof.Machine

variable {s t : State} {j : SlotId} {p : PortId} {q : QueueId} {e : SendEntry} {body : List Byte}

-- ## One queue's record

/-- The received set of queue `q`'s record is legal (R42). -/
def LegalMarks (q : QueueId) (x : Queue) : Prop :=
  hasBit x.received q.val = false ∧ (x.mode = .disabled ∨ x.mode = .load → x.received = 0)

theorem LegalMarks.addBit {x : Queue} {m : Nat} (h : LegalMarks q x) (hm : m ≠ q.val) (hx : x.mode = .run ∨ x.mode = .halt) :
    LegalMarks q { x with received := Machine.addBit x.received m } := by
  refine ⟨?_, fun hclosed => ?_⟩
  · have hown := h.1
    have hne : decide (m = q.val) = false := decide_eq_false hm
    rw [hasBit_addBit, hown, hne, Bool.false_or, Bool.and_false]
  · rcases hx with hx | hx <;> simp [hx] at hclosed

theorem LegalMarks.claim {x : Queue} (h : LegalMarks q x) (w : MarkSet) (kind : ProposalKind) :
    LegalMarks q (x.claim w kind) := by
  obtain ⟨hown, hclosed⟩ := h
  rw [Queue.claim_eq]
  refine ⟨?_, fun hmode => ?_⟩
  · dsimp only
    split
    · unfold hasBit minusBits at *
      rw [BitVec.getLsbD_and, hown, Bool.false_and]
    · exact hown
  · dsimp only at hmode ⊢
    rw [hclosed hmode]
    split
    · exact BitVec.zero_and
    · rfl

-- ## Operations on the queues

theorem MarksLegal.of_keeps {parts : List Part} (h : MarksLegal s) (hk : KeepsAllBut parts s t)
    (hq : Part.queues ∉ parts := by decide) : MarksLegal t := marksLegal_reads.of_keeps h hk hq

theorem MarksLegal.updQueue (h : MarksLegal s) {f : Queue → Queue} (hf : LegalMarks q (f s.queues[q])) :
    MarksLegal (s.updQueue q f) := fun i => by
  by_cases hi : i = q
  · subst hi
    rw [State.updQueue_queues_self]
    exact hf
  · rw [State.updQueue_queues_ne _ _ _ _ hi]
    exact h i

/-- A mark of a member that is not the queue's own (R42). -/
theorem MarksLegal.giveMark (h : MarksLegal s) {m : Nat} (hm : m ≠ q.val) : MarksLegal (s.giveMark q m) := by
  unfold State.giveMark
  split
  · rename_i hmode
    split
    · exact h
    · exact (h.updQueue (LegalMarks.addBit (h q) hm hmode)).of_keeps (State.askIfRun_keeps _ q)
  · exact h

/-- Gives go to other queues than the job's own (R44). -/
theorem MarksLegal.deliverGives (h : MarksLegal s) (j : SlotId) : MarksLegal (s.deliverGives j) := by
  have hgiven : MarksLegal ((List.finRange 8).foldl (fun t q => if hasBit s.jobs[j].giveSet q.val && q != s.jobs[j].queue
      then t.giveMark q s.jobs[j].queue.val else t) s) := by
    refine foldl_meets (inv := MarksLegal) (fun t q ht => ?_) _ h
    split
    · rename_i hc
      rw [Bool.and_eq_true, bne_iff_ne] at hc
      exact ht.giveMark fun he => hc.2 (Fin.ext he.symm)
    · exact ht
  unfold State.deliverGives
  dsimp only
  split
  · exact hgiven
  · exact hgiven

/-- The finishing line's mark is EXT, which is no queue's own member (R46). -/
theorem MarksLegal.markEdge (h : MarksLegal s) : MarksLegal s.markEdge :=
  foldl_meets (inv := MarksLegal) (fun _ q ht => ht.giveMark (show extBit ≠ q.val from Nat.ne_of_gt q.isLt)) _ h

-- ## A job that completes

theorem MarksLegal.completeJob (h : MarksLegal s) (j : SlotId) : MarksLegal (s.completeJob j) := by
  unfold State.completeJob
  split
  · exact h.of_keeps (((s.updJob_keeps j _).trans (State.flagJob_keeps _ j .proofDone)).trans
      (State.makeWaiting_keeps _ j .hold))
  · exact (MarksLegal.deliverGives (h.of_keeps (s.updJob_keeps j (Job.enter .done))) j).of_keeps
      (State.flagJob_keeps _ j .done)

theorem MarksLegal.afterSheet (h : MarksLegal s) (j : SlotId) : MarksLegal (s.afterSheet j) := by
  unfold State.afterSheet
  split
  · exact h
  · split
    · exact h.completeJob j
    · exact h.of_keeps (s.flagJob_keeps j .cancelled)
    · exact h.of_keeps (s.askIfRun_keeps _)
    · exact h

theorem handedOver_keeps (s : State) (j : SlotId) :
    KeepsAllBut [.jobs, .ports, .notices, .passInProgress, .passOwed] s (s.handedOver j) := by
  have hfeed : KeepsAllBut [.jobs, .ports, .notices, .passInProgress, .passOwed] s (s.handedFeed j) := by
    unfold State.handedFeed
    split
    · exact (s.updJob_keeps j _).mono
    · exact (((s.updJob_keeps j _).trans (State.releaseFeed_keeps _ _ j)).trans (State.feedReleased_keeps _ _)).mono
  exact .ite (hfeed.next (State.flagJob_keeps _ j .handed).mono) hfeed

theorem MarksLegal.handedTest (h : MarksLegal s) (j : SlotId) : MarksLegal (s.handedTest j) := by
  by_cases hfires : (s.jobs[j].state = .active ∨ s.jobs[j].state = .starved ∨ s.jobs[j].state = .waiting) ∧
      s.jobs[j].sentOut = true ∧ s.hasUnsettled j = false
  · obtain ⟨hstate, hout, hsettled⟩ := hfires
    have hover : MarksLegal (s.handedOver j) := h.of_keeps (handedOver_keeps s j)
    rw [handedTest_fires hstate hout hsettled]
    split
    · exact hover
    · exact hover.completeJob j
  · have hstays : s.handedTest j = s := if_neg hfires
    rw [hstays]
    exact h

theorem MarksLegal.sheetEvent (h : MarksLegal s) (p : PortId) (e : SendEntry) : MarksLegal (s.sheetEvent p e) := by
  unfold State.sheetEvent
  refine MarksLegal.afterSheet (h.of_keeps (((((((s.stopSendOf_keeps p e).trans (State.updPort_keeps _ p _)).trans
    (State.updJob_keeps _ e.job _)).trans (State.countPage_keeps _ e)).trans (State.updJob_keeps _ e.job _)).trans
    (State.updAccount_keeps _ s.jobs[e.job].account _)).trans (State.updPort_keeps _ p _))) e.job

-- ## Stops and a port's link

theorem MarksLegal.stopCondition (h : MarksLegal s) (p : PortId) (k : AlertKind) (l : Byte) (n : Option Serial) :
    MarksLegal (s.stopCondition p k l n) :=
  (foldl_meets (inv := MarksLegal) (fun _ e ht => ht.sheetEvent p e) _ (h.of_keeps (s.raiseStop_keeps p k l))).of_keeps
    (State.settleStop_keeps _ p)

theorem MarksLegal.linkLoss (h : MarksLegal s) (p : PortId) : MarksLegal (s.linkLoss p) :=
  MarksLegal.stopCondition (h.of_keeps (((s.stopSend_keeps p).trans (State.endSetup_keeps _ p)).trans
    (State.enterProbing_keeps _ p))) p _ _ _

theorem MarksLegal.orderFault (h : MarksLegal s) (p : PortId) : MarksLegal (s.orderFault p) :=
  MarksLegal.stopCondition (h.of_keeps (((s.stopSend_keeps p).trans (State.endSetup_keeps _ p)).trans
    (State.goDown_keeps _ p _))) p _ _ _

-- ## The printers' messages

theorem MarksLegal.pressMessage (h : MarksLegal s) (p : PortId) (fieldsOk : Bool) (taken : LinkState → Bool)
    {act : State → State} (hact : ∀ u, MarksLegal u → MarksLegal (act u)) :
    MarksLegal (s.pressMessage p fieldsOk taken act) := by
  have hheard : MarksLegal (s.hear p) := h.of_keeps (s.hear_keeps p)
  unfold State.pressMessage
  split
  · exact h
  · split
    · exact hact _ hheard
    · exact hheard

/-- A message whose effect leaves the queues as they are. -/
theorem MarksLegal.keptMessage (h : MarksLegal s) (p : PortId) (fieldsOk : Bool) (taken : LinkState → Bool)
    {act : State → State} {parts : List Part} (hk : ∀ u, KeepsAllBut parts u (act u))
    (hq : Part.queues ∉ parts := by decide) : MarksLegal (s.pressMessage p fieldsOk taken act) :=
  h.pressMessage p fieldsOk taken fun u hu => hu.of_keeps (hk u) hq

theorem MarksLegal.report (h : MarksLegal s) (p : PortId) (entry : Option SendEntry) {act : SendEntry → State → State}
    (hact : ∀ e u, MarksLegal u → MarksLegal (act e u)) : MarksLegal (s.report p entry act) := by
  unfold State.report
  split
  · exact h
  · cases entry with
    | none => exact (h.orderFault p).of_keeps (State.holdTest_keeps _ p)
    | some e => exact hact e s h

theorem MarksLegal.identTaken (h : MarksLegal s) (p : PortId) (i : Ident) (m : Media) (c : Bool) :
    MarksLegal (s.identTaken p i m c) := by
  have hlost : MarksLegal (if s.ports[p].link = .up then s.linkLoss p else s) := by
    split
    · exact h.linkLoss p
    · exact h
  exact hlost.of_keeps ((State.bringUp_keeps _ p i m c).trans (State.holdTest_keeps _ p))

theorem MarksLegal.takenPassed (h : MarksLegal s) (p : PortId) (e : SendEntry) : MarksLegal (s.takenPassed p e) :=
  (MarksLegal.handedTest (h.of_keeps (s.updPort_keeps p (Port.takeEntry e))) e.job).of_keeps
    (((State.owedRelease_keeps _ p e.job).trans (State.offerAttempt_keeps _ p)).trans (State.holdTest_keeps _ p))

theorem MarksLegal.sheetPassed (h : MarksLegal s) (p : PortId) (e : SendEntry) : MarksLegal (s.sheetPassed p e) :=
  (h.sheetEvent p e).of_keeps ((State.offerAttempt_keeps _ p).trans (State.holdTest_keeps _ p))

theorem MarksLegal.abortedPassed (h : MarksLegal s) (p : PortId) (e : SendEntry) : MarksLegal (s.abortedPassed p e) :=
  h.of_keeps ((((((s.releaseFaces_keeps e).trans (State.dropEntry_keeps _ p e)).trans
    (State.updJob_keeps _ e.job (Job.rewind e.copy e.place))).trans (State.afterRemoval_keeps _ e.job)).trans
    (State.offerAttempt_keeps _ p)).trans (State.holdTest_keeps _ p))

theorem MarksLegal.refusePassed (h : MarksLegal s) (p : PortId) (reason : Byte) (e : SendEntry) :
    MarksLegal (s.refusePassed p reason e) :=
  h.of_keeps (((((((((s.releaseFaces_keeps e).trans (State.dropEntry_keeps _ p e)).trans
    (State.updJob_keeps _ e.job (Job.rewind e.copy e.place))).trans (State.releaseIfOwner_keeps _ p e.job)).trans
    (State.updJob_keeps _ e.job (Job.refuse reason))).trans (State.flagJob_keeps _ e.job .error)).trans
    (State.feedReleased_keeps _ p)).trans (State.offerAttempt_keeps _ p)).trans (State.holdTest_keeps _ p))

-- ## Dispatch

theorem MarksLegal.decide (h : MarksLegal s) (p : PortId) : MarksLegal (s.decide p) := by
  unfold State.decide
  split
  · exact h
  · rename_i q x _
    have hclaimed : MarksLegal (s.claimed q x) := fun i => by
      by_cases hi : i = q
      · subst hi
        rw [claimed_queues_self]
        exact LegalMarks.claim (h i) _ _
      · rw [claimed_queues_ne hi]
        exact h i
    rw [grant_eq]
    exact hclaimed.of_keeps (State.offerAttempt_keeps _ x.port)

theorem MarksLegal.round (h : MarksLegal s) : MarksLegal s.round := by
  have hdecided : MarksLegal (s.decisionOrder.foldl (fun t p => t.decide p) s.drawn) :=
    foldl_meets (inv := MarksLegal) (fun _ p ht => ht.decide p) _ h
  exact hdecided.of_keeps (.next (.foldl (fun t q => (t.updProposal_keeps q (fun _ => none)).mono) s.proposers _)
    (.foldl (fun t q => t.examineAgain_keeps q) s.proposers _))

theorem MarksLegal.pass (h : MarksLegal s) : MarksLegal s.pass := by
  have hrounds : ∀ (n : Nat) (u : State), MarksLegal u → MarksLegal (State.rounds n u) := by
    intro n
    induction n with
    | zero => exact fun u hu => hu
    | succ n ih =>
      intro u hu
      unfold State.rounds
      split
      · exact hu
      · exact ih _ hu.round
  rw [pass_eq]
  exact hrounds 512 _ (h.of_keeps (examinedAll_keeps s))

-- ## Notices

theorem MarksLegal.retire (h : MarksLegal s) (j : SlotId) : MarksLegal (s.retire j) :=
  have hfreed : MarksLegal (s.freeJobPages j) := h.of_keeps (s.freeJobPages_keeps j)
  (hfreed.updQueue (f := fun x => { x with list := x.list.filter (fun k => k != j) }) (hfreed _)).of_keeps
    (State.updJob_keeps _ j _)

theorem MarksLegal.reported (h : MarksLegal s) (src : Source) : MarksLegal (State.reported src s) := by
  cases src with
  | job j =>
    have hread : MarksLegal (s.updJob j Job.reported) := h.of_keeps (s.updJob_keeps j _)
    unfold State.reported
    dsimp only
    split
    · exact hread.retire j
    · exact hread
  | alert a => exact h.of_keeps (s.updAlert_keeps a _)
  | port p => exact h.of_keeps (s.updPort_keeps p _)
  | part => exact h

theorem MarksLegal.boundary (h : MarksLegal s) : MarksLegal s.boundary := by
  have hsame : ∀ n r o, MarksLegal { s with notices := n, replies := r, onLink := o } := fun _ _ _ => h
  unfold State.boundary
  split
  · exact hsame _ _ _
  · split
    · exact hsame _ _ _
    · split
      · exact hsame _ _ _
      · exact (hsame _ _ _).reported _

theorem MarksLegal.fresh (h : ∀ q : QueueId, s.queues[q] = .initial) : MarksLegal s := fun q => by
  rw [h q]
  exact ⟨by simp [Queue.initial, hasBit], fun _ => rfl⟩

end Sys2Proof.Safety
end

