-- ==== Sys2Proof/Proofs/LegalRings.lean ====
section
/-! SUPPORT. The rings stay ordered (R71 to R73, R78): a pass turns a ring only to a row between its first and its last,
because a proposal's row was found by a search of the ring as it stands. -/

set_option Elab.async false

namespace Sys2Proof.Safety

open Sys2Proof.Machine

variable {s t : State} {i : Instr} {q : QueueId} {y : Ring} {x : Proposal}

-- ## One ring

/-- A ring's bounds hold (R71). -/
def Ordered (y : Ring) : Prop := y.first ≤ y.current ∧ y.current ≤ y.last ∧ y.last ≤ 63

theorem ordered_of_written (h : y.ordered = true) : Ordered y := by
  simp only [Ring.ordered, Bool.and_eq_true, decide_eq_true_eq] at h
  obtain ⟨⟨⟨-, hlast⟩, hfirst⟩, hcurrent⟩ := h
  exact ⟨hfirst, hcurrent, hlast⟩

/-- A row from the first to the last is followed by such a row, with the wrap (R73, R78). -/
theorem Ordered.turn {used : Nat} (h : Ordered y) (hused : y.first ≤ used ∧ used ≤ y.last) :
    Ordered { y with current := if used = y.last then y.first else used + 1 } := by
  obtain ⟨hfirst, hcurrent, hlast⟩ := h
  unfold Ordered
  dsimp only
  split <;> omega

theorem Ordered.turnBack (h : Ordered y) :
    Ordered { y with current := if y.current = y.first then y.last else y.current - 1 } := by
  obtain ⟨hfirst, hcurrent, hlast⟩ := h
  unfold Ordered
  dsimp only
  split <;> omega

theorem Ordered.stepped {z : Ring} {direction : Byte} (h : Ordered y) (hz : y.stepped direction = some z) : Ordered z := by
  unfold Ring.stepped at hz
  split at hz
  · obtain rfl := Option.some.inj hz
    obtain ⟨hfirst, hcurrent, hlast⟩ := h
    exact Ordered.turn ⟨hfirst, hcurrent, hlast⟩ ⟨hfirst, hcurrent⟩
  · split at hz
    · obtain rfl := Option.some.inj hz
      exact h.turnBack
    · simp at hz

theorem Ordered.rotate {used : Nat} (on : Bool) (h : Ordered y) (hused : y.first ≤ used ∧ used ≤ y.last) :
    Ordered (y.rotate on used) := by
  unfold Ring.rotate
  split
  · exact h.turn hused
  · exact h

-- ## Rings written by a request

theorem RingsOrdered.writeRing (h : RingsOrdered s) (hy : Ordered y) : RingsOrdered (s.writeRing q y) := by
  have hring : RingsOrdered (s.updRing q fun _ => y) := fun k => by
    by_cases hk : k = q
    · subst hk
      rw [State.updRing_rings_self]
      exact hy
    · rw [State.updRing_rings_ne _ _ _ _ hk]
      exact h k
  exact ringsOrdered_reads.of_keeps hring ((State.markWritten_keeps _ q).trans (State.ask_keeps (s := _)))

-- ## Rings turned by a pass

/-- The rings are ordered, and each proposal's row stands between the first and the last of its queue's ring. -/
def RowsWithin (s : State) : Prop :=
  RingsOrdered s ∧ ∀ (q : QueueId) (x : Proposal), s.proposals[q] = some x →
    s.rings[q].first ≤ x.row ∧ x.row ≤ s.rings[q].last

/-- A verdict proposes a row that the ring's search tries (R77). -/
theorem row_of_examineJob {j : SlotId} (h : (s.examineJob q j).proposal? = some x) : x.row ∈ s.rings[q].searchRows := by
  unfold State.examineJob at h
  dsimp only at h
  split at h
  · simp [Verdict.proposal?] at h
  · split at h
    · simp [Verdict.proposal?] at h
    · split at h
      · simp [Verdict.proposal?] at h
      · split at h
        · simp [Verdict.proposal?] at h
        · split at h
          · simp [Verdict.proposal?] at h
          · split at h
            · simp [Verdict.proposal?] at h
            · rename_i p row hsearch
              obtain rfl := Option.some.inj h
              obtain ⟨n, hn, hrow⟩ := List.exists_of_findSome?_eq_some hsearch
              obtain ⟨k, -, hk⟩ := Option.map_eq_some_iff.1 hrow
              obtain ⟨-, rfl⟩ := Prod.mk.inj hk
              exact hn

theorem row_of_proposalFor (h : RingsOrdered s) (hx : s.proposalFor q = some x) :
    s.rings[q].first ≤ x.row ∧ x.row ≤ s.rings[q].last := by
  unfold State.proposalFor at hx
  split at hx
  · obtain ⟨j, -, hj⟩ := List.exists_of_findSome?_eq_some hx
    obtain ⟨hfirst, hlast, -⟩ := h q
    exact mem_searchRows (row_of_examineJob hj) hfirst hlast
  · simp at hx

theorem RowsWithin.of_keeps {parts : List Part} (h : RowsWithin s) (hk : KeepsAllBut parts s t)
    (hr : Part.rings ∉ parts := by decide) (hp : Part.proposals ∉ parts := by decide) : RowsWithin t := by
  have hrings : t.rings = s.rings := hk.part .rings hr
  have hproposals : t.proposals = s.proposals := hk.part .proposals hp
  obtain ⟨hordered, hrows⟩ := h
  refine ⟨ringsOrdered_reads s t hrings hordered, fun q x hx => ?_⟩
  rw [hproposals] at hx
  rw [hrings]
  exact hrows q x hx

theorem RowsWithin.emptied (h : RowsWithin s) (q : QueueId) : RowsWithin (s.updProposal q fun _ => none) := by
  obtain ⟨hordered, hrows⟩ := h
  refine ⟨hordered, fun k x hx => ?_⟩
  by_cases hk : k = q
  · subst hk
    rw [State.updProposal_proposals_self] at hx
    simp at hx
  · rw [State.updProposal_proposals_ne _ _ _ _ hk] at hx
    exact hrows k x hx

theorem RowsWithin.examined (h : RowsWithin s) (he : Examined s q t) : RowsWithin t := by
  obtain ⟨hordered, hrows⟩ := h
  obtain ⟨hsame, hproposal, hothers, -⟩ := he
  refine ⟨ringsOrdered_reads s t hsame.rings hordered, fun k x hx => ?_⟩
  rw [hsame.rings]
  by_cases hk : k = q
  · subst hk
    exact row_of_proposalFor hordered (hproposal.symm.trans hx)
  · exact hrows k x ((hothers k hk).symm.trans hx)

theorem rowsWithin_examinedAll (h : RingsOrdered s) : RowsWithin s.examinedAll := by
  obtain ⟨hsame, hproposals, -⟩ := examinedAll_laws s
  refine ⟨ringsOrdered_reads s _ hsame.rings h, fun q x hx => ?_⟩
  rw [hsame.rings]
  exact row_of_proposalFor h ((hproposals q).symm.trans hx)

/-- A grant turns its queue's ring by the row used and empties its place (R78, R82). -/
theorem RowsWithin.claimed (h : RowsWithin s) (hx : s.proposals[q] = some x) : RowsWithin (s.claimed q x) := by
  obtain ⟨hordered, hrows⟩ := h
  refine ⟨fun k => ?_, fun k y hy => ?_⟩
  · by_cases hk : k = q
    · subst hk
      rw [claimed_rings_self]
      exact Ordered.rotate _ (hordered k) (hrows k x hx)
    · rw [claimed_rings_ne hk]
      exact hordered k
  · by_cases hk : k = q
    · subst hk
      rw [claimed_proposals_self] at hy
      simp at hy
    · rw [claimed_proposals_ne hk] at hy
      rw [claimed_rings_ne hk]
      exact hrows k y hy

/-- The winner of a port is a proposal of the table (R81). -/
theorem winner_proposed {p : PortId} (h : s.winner p = some (q, x)) : s.proposals[q] = some x := by
  obtain ⟨k, -, hk⟩ := List.exists_of_findSome?_eq_some h
  split at hk
  · simp at hk
  · rename_i y hy
    split at hk
    · obtain ⟨rfl, rfl⟩ := Prod.mk.inj (Option.some.inj hk)
      exact hy
    · simp at hk

theorem RowsWithin.decide (h : RowsWithin s) (p : PortId) : RowsWithin (s.decide p) := by
  unfold State.decide
  split
  · exact h
  · rename_i q x hwinner
    rw [grant_eq]
    exact (h.claimed (winner_proposed hwinner)).of_keeps (State.offerAttempt_keeps _ x.port)

theorem RowsWithin.round (h : RowsWithin s) : RowsWithin s.round := by
  have hdrawn : RowsWithin s.drawn := h
  have hdecided : RowsWithin (s.decisionOrder.foldl (fun t p => t.decide p) s.drawn) :=
    foldl_meets (fun _ p ht => ht.decide p) _ hdrawn
  exact foldl_meets (fun t q ht => ht.examined (examineAgain_examined t q)) _
    (foldl_meets (fun _ q ht => ht.emptied q) _ hdecided)

theorem RowsWithin.rounds (h : RowsWithin s) (n : Nat) : RowsWithin (State.rounds n s) := by
  induction n generalizing s with
  | zero => exact h
  | succ n ih =>
    unfold State.rounds
    split
    · exact h
    · exact ih h.round

theorem RingsOrdered.pass (h : RingsOrdered s) : RingsOrdered s.pass := by
  rw [pass_eq]
  exact ((rowsWithin_examinedAll h).rounds 512).1

-- ## Every command

theorem ringsOrdered_reset : RingsOrdered State.reset := fun q => by
  rw [State.reset_rings]
  simp [Ring.initial]

theorem ringsOrdered_exec (h : RingsOrdered s) (he : exec i s = .next t) : RingsOrdered t := by
  cases i with
  | routeSet tag body =>
    obtain rfl := Host.Outcome.next.inj he
    refine ringsOrdered_reads.request h fun u hu => orRange_meets fun q _ => orRange_meets fun y _ => ?_
    split
    · rename_i hordered
      exact RingsOrdered.writeRing hu (ordered_of_written hordered)
    · trivial
  | routeStep tag body =>
    obtain rfl := Host.Outcome.next.inj he
    refine ringsOrdered_reads.request h fun u hu => orRange_meets fun q _ => orRange_meets fun y hy => ?_
    exact RingsOrdered.writeRing hu (Ordered.stepped (hu q) hy)
  | dispatchPass =>
    obtain rfl := Host.Outcome.next.inj he
    split
    · exact ringsOrdered_reads.of_keeps (RingsOrdered.pass h) (State.endPass_keeps (s := s.pass))
    · exact h
  | powerOn | resetPin =>
    obtain rfl := Host.Outcome.next.inj he
    exact ringsOrdered_reads State.reset _ rfl ringsOrdered_reset
  | _ => exact ringsOrdered_reads.of_exec h he (by simp [Instr.changes, pressParts])

end Sys2Proof.Safety
end

