-- ==== Sys2Proof/Proofs/LegalTables.lean ====
section
/-! SUPPORT. Received sets and the host link's queues over every command, and with them every invariant of the tables
(R42, R71, R111, R168, R170, R178). -/

set_option Elab.async false

namespace Sys2Proof.Safety

open Sys2Proof.Machine

variable {s t : State} {i : Instr} {q : QueueId} {body : List Byte}

-- ## Received sets: requests

/-- A queue that enters RUN or HALT keeps its received set (R29). -/
theorem LegalMarks.opened {y : Queue} {m : QueueMode} (h : LegalMarks q y) (hm : m = .run ∨ m = .halt) :
    LegalMarks q { y with mode := m } := by
  refine ⟨h.1, fun hclosed => ?_⟩
  rcases hm with rfl | rfl <;> simp at hclosed

theorem legalMarks_empty {y : Queue} (h : y.received = 0) : LegalMarks q y := by
  refine ⟨?_, fun _ => h⟩
  rw [h, hasBit_zero]

/-- A list is written; the marks stay. -/
theorem MarksLegal.relist (h : MarksLegal s) (q : QueueId) (f : Queue → List SlotId) :
    MarksLegal (s.updQueue q fun y => { y with list := f y }) := h.updQueue (f := fun y => { y with list := f y }) (h q)

theorem MarksLegal.changeMode (h : MarksLegal s) (q : QueueId) (m : QueueMode) :
    Judged.Meets MarksLegal (s.changeMode q m) := by
  have hclosed : MarksLegal (s.enterClosed q m) :=
    h.updQueue (f := fun y => { y with mode := m, received := 0 }) (legalMarks_empty rfl)
  have hrun : MarksLegal (s.enterRun q) :=
    (h.updQueue (f := fun y => { y with mode := .run }) (LegalMarks.opened (h q) (.inl rfl))).of_keeps
      (State.ask_keeps (s := _))
  have hhalt : MarksLegal (s.enterHalt q) :=
    (h.updQueue (f := fun y => { y with mode := .halt }) (LegalMarks.opened (h q) (.inr rfl))).of_keeps
      (.foldl (fun t j => t.haltJob_keeps j) _ _)
  unfold State.changeMode
  cases s.queues[q].mode with
  | disabled =>
    cases m with
    | disabled => exact h
    | load => exact hclosed
    | run => exact hrun
    | halt => trivial
  | load =>
    cases m with
    | disabled => exact hclosed
    | load => exact h
    | run => exact hrun
    | halt => trivial
  | run =>
    cases m with
    | disabled => trivial
    | load => trivial
    | run => exact h
    | halt => exact hhalt
  | halt =>
    cases m with
    | run => exact hrun
    | halt => exact h
    | _ =>
      dsimp only
      split
      · exact hclosed
      · trivial

theorem judgeAdmit_marksLegal (h : MarksLegal s) : Judged.Meets MarksLegal (judgeAdmit body s) := by
  have hadmit : ∀ j q a, MarksLegal (s.admitJob j q a body) := fun j q a =>
    (h.relist q _).of_keeps ((State.updJob_keeps _ j _).trans (State.askIfRun_keeps _ q))
  unfold judgeAdmit
  split
  · trivial
  · refine orRange_meets fun q _ => ?_
    split
    · trivial
    · split
      · trivial
      · split
        · trivial
        · split
          · trivial
          · split
            · trivial
            · exact hadmit _ _ _

theorem judgeCloseJob_marksLegal (h : MarksLegal s) : Judged.Meets MarksLegal (judgeCloseJob body s) := by
  refine withHandle_meets fun j => ?_
  split
  · trivial
  · have hclosed : MarksLegal ((((s.updJob j Job.close).wake j).freeSheeted j).handedTest j) :=
      MarksLegal.handedTest (h.of_keeps (((s.updJob_keeps j _).trans (State.wake_keeps _ j)).trans
        (State.freeSheeted_keeps _ j))) j
    show MarksLegal (s.closeJob j)
    unfold State.closeJob
    dsimp only
    split
    · exact hclosed.of_keeps (State.askIfRun_keeps _ _)
    · exact hclosed

theorem MarksLegal.moveJob (h : MarksLegal s) (j : SlotId) (q : QueueId) (pos : Position) :
    MarksLegal (s.moveJob j q pos) :=
  ((h.relist s.jobs[j].queue _).relist q _).of_keeps ((State.updJob_keeps _ j _).trans (State.askIfRun_keeps _ q))

theorem judgeMove_marksLegal {j : SlotId} {d : Judged} (h : Judged.Meets MarksLegal d) :
    Judged.Meets MarksLegal (s.judgeMove j q d) := by
  unfold State.judgeMove
  split
  · trivial
  · split
    · trivial
    · split
      · trivial
      · exact h

theorem judgeMoveJob_marksLegal (h : MarksLegal s) : Judged.Meets MarksLegal (judgeMoveJob body s) := by
  have hafter : ∀ (j : SlotId) (q : QueueId) (a b : Byte), Judged.Meets MarksLegal (s.judgeAfter j q a b) := by
    intro j q a b
    unfold State.judgeAfter
    split
    · trivial
    · split
      · exact h.moveJob _ _ _
      · trivial
  refine withHandle_meets fun j => orRange_meets fun q _ => ?_
  split
  · exact judgeMove_marksLegal (h.moveJob j q .head)
  · split
    · exact judgeMove_marksLegal (h.moveJob j q .tail)
    · split
      · exact judgeMove_marksLegal (hafter _ _ _ _)
      · trivial

theorem MarksLegal.writeDispatch (h : MarksLegal s) (q : QueueId) (d : DispatchState) :
    MarksLegal (s.writeDispatch q d) :=
  (h.updQueue (f := fun y => { y with dispatch := d }) (h q)).of_keeps
    ((State.markWritten_keeps _ q).trans (State.askIfRun_keeps _ q))

theorem MarksLegal.writeOptions (h : MarksLegal s) (q : QueueId) (rotate reroute : Bool) :
    MarksLegal (s.writeOptions q rotate reroute) :=
  (h.updQueue (f := fun y => { y with rotate := rotate, reroute := reroute }) (h q)).of_keeps
    ((State.markWritten_keeps _ q).trans (State.askIfRun_keeps _ q))

/-- MARK refuses the queue's own member (R47). -/
theorem judgeMark_marksLegal (h : MarksLegal s) : Judged.Meets MarksLegal (judgeMark body s) := by
  refine orRange_meets fun q _ => orRange_meets fun m _ => ?_
  split
  · trivial
  · rename_i hm
    split
    · exact h.giveMark hm
    · trivial

/-- A JAM is a stop condition (R100). -/
theorem MarksLegal.jamTaken (h : MarksLegal s) (p : PortId) (l : Byte) (n : Option Serial) : MarksLegal (s.jamTaken p l n) :=
  (MarksLegal.stopCondition (h.of_keeps (s.stopSend_keeps p)) p .jam l n).of_keeps (State.holdTest_keeps _ p)

-- ## Received sets: every command

theorem marksLegal_exec (h : MarksLegal s) (he : exec i s = .next t) : MarksLegal t := by
  have hread := marksLegal_reads
  cases i with
  | admitJob tag body =>
    obtain rfl := Host.Outcome.next.inj he
    exact hread.request h fun _ => judgeAdmit_marksLegal
  | closeJob tag body =>
    obtain rfl := Host.Outcome.next.inj he
    exact hread.request h fun _ => judgeCloseJob_marksLegal
  | moveJob tag body =>
    obtain rfl := Host.Outcome.next.inj he
    exact hread.request h fun _ => judgeMoveJob_marksLegal
  | queueMode tag body =>
    obtain rfl := Host.Outcome.next.inj he
    exact hread.request h fun u hu => orRange_meets fun q _ => orRange_meets fun m _ => MarksLegal.changeMode hu q m
  | queueDispatch tag body =>
    obtain rfl := Host.Outcome.next.inj he
    exact hread.request h fun u hu => orRange_meets fun q _ => orRange_meets fun d _ => MarksLegal.writeDispatch hu q d
  | queueOptions tag body =>
    obtain rfl := Host.Outcome.next.inj he
    exact hread.request h fun u hu => orRange_meets fun q _ => MarksLegal.writeOptions hu q _ _
  | mark tag body =>
    obtain rfl := Host.Outcome.next.inj he
    exact hread.request h fun _ => judgeMark_marksLegal
  | frameBoundary =>
    obtain rfl := Host.Outcome.next.inj he
    split
    · exact h
    · exact h.boundary
  | restartReset =>
    obtain rfl := Host.Outcome.next.inj he
    split
    · exact MarksLegal.fresh fun q => Vector.getElem_replicate ..
    · exact h
  | powerOn | resetPin =>
    obtain rfl := Host.Outcome.next.inj he
    exact hread State.reset _ rfl (MarksLegal.fresh State.reset_queues)
  | finishingMarkEdge =>
    obtain rfl := Host.Outcome.next.inj he
    split
    · exact h
    · exact h.markEdge
  | dispatchPass =>
    obtain rfl := Host.Outcome.next.inj he
    split
    · exact h.pass.of_keeps (State.endPass_keeps (s := s.pass))
    · exact h
  | pressSilence port =>
    obtain rfl := Host.Outcome.next.inj he
    split
    · exact (h.linkLoss port).of_keeps (State.holdTest_keeps _ port)
    · exact h
  | ident port cc caps ms loaded depth =>
    obtain rfl := Host.Outcome.next.inj he
    cases mediaOf loaded with
    | none => exact h.pressMessage port _ _ fun _ hu => hu
    | some m => exact h.pressMessage port _ _ fun _ hu => hu.identTaken port _ m _
  | setupDone port media =>
    obtain rfl := Host.Outcome.next.inj he
    cases mediaOf media with
    | none => exact h.pressMessage port _ _ fun _ hu => hu
    | some m => exact h.keptMessage port _ _ fun u => u.setupTaken_keeps port m
  | rateEcho port =>
    obtain rfl := Host.Outcome.next.inj he
    exact h.keptMessage port _ _ fun u => u.echoTaken_keeps port
  | status port reasons =>
    obtain rfl := Host.Outcome.next.inj he
    exact h.keptMessage port _ _ fun u => u.statusTaken_keeps port _
  | cleared port =>
    obtain rfl := Host.Outcome.next.inj he
    exact h.keptMessage port _ _ fun u => u.clearedTaken_keeps port
  | pressCancel port =>
    obtain rfl := Host.Outcome.next.inj he
    exact h.keptMessage port _ _ fun u => u.cancelTaken_keeps port
  | taken port serial =>
    obtain rfl := Host.Outcome.next.inj he
    exact h.pressMessage port _ _ fun _ hu => hu.report port _ fun e _ hv => hv.takenPassed port e
  | sheet port serial =>
    obtain rfl := Host.Outcome.next.inj he
    exact h.pressMessage port _ _ fun _ hu => hu.report port _ fun e _ hv => hv.sheetPassed port e
  | aborted port serial =>
    obtain rfl := Host.Outcome.next.inj he
    exact h.pressMessage port _ _ fun _ hu => hu.report port _ fun e _ hv => hv.abortedPassed port e
  | refuse port serial reason =>
    obtain rfl := Host.Outcome.next.inj he
    refine h.pressMessage port _ _ fun _ hu => hu.report port _ fun e _ hv => ?_
    split
    · exact hv.abortedPassed port e
    · exact hv.refusePassed port reason e
  | jam port location present serial =>
    obtain rfl := Host.Outcome.next.inj he
    exact h.pressMessage port _ _ fun _ hu => hu.jamTaken port _ _
  | _ => exact hread.of_exec h he (by simp [Instr.changes])

-- ## The host link's queues

theorem HliBounded.of_same (h : HliBounded s) (hi : t.inbox = s.inbox) (hr : t.replies = s.replies) : HliBounded t := by
  unfold HliBounded
  rw [hi, hr]
  exact h

/-- A taken request leaves the inbox, and its reply takes a free place (R169, R170). -/
theorem HliBounded.request {kind tag : Byte} {encoded : Bool} {judge : State → Judged} (h : HliBounded s)
    (hj : ∀ u : State, Judged.Meets (fun v => v.inbox.length ≤ u.inbox.length ∧ v.replies = u.replies) (judge u)) :
    HliBounded (s.request kind tag body encoded judge) := by
  unfold State.request
  split
  · rename_i htakes
    obtain ⟨-, hroom, -⟩ := takes_iff.1 htakes
    have hput : ∀ (u : State) (f : HostFrame), u.inbox.length ≤ s.popInbox.inbox.length → u.replies = s.replies →
        HliBounded (u.placeReply f) := fun u f hi hr => by
      have htail : s.popInbox.inbox.length ≤ s.inbox.length := by
        rw [State.popInbox, List.length_tail]
        exact Nat.sub_le _ _
      refine ⟨(hi.trans htail).trans h.1, ?_⟩
      rw [State.placeReply, List.length_append, hr]
      exact hroom
    split
    · have hrule := hj s.popInbox
      split
      · exact hput _ _ le_rfl rfl
      · rename_i hd
        rw [hd] at hrule
        exact hput _ _ hrule.1 hrule.2
    · exact hput _ _ le_rfl rfl
  · exact h

/-- A command that changes neither queue beside its own request and reply. -/
theorem hliBounded_of_does (hi : Part.inbox ∉ i.changes) (hr : Part.replies ∉ i.changes) (h : HliBounded s)
    (he : exec i s = .next t) : HliBounded t := by
  cases i.does with
  | request kind tag body encoded judge hexec hkeeps =>
    obtain rfl := Host.Outcome.next.inj ((hexec s).symm.trans he)
    refine h.request fun u => ?_
    have hrule := hkeeps u
    cases hd : judge u with
    | refused c => trivial
    | done v c fields =>
      rw [hd] at hrule
      have hinbox : v.inbox = u.inbox := hrule _ hi
      exact ⟨by rw [hinbox], hrule _ hr⟩
  | event f hexec hkeeps =>
    obtain rfl := Host.Outcome.next.inj ((hexec s).symm.trans he)
    exact h.of_same (hkeeps s _ hi) (hkeeps s _ hr)

theorem HliBounded.placeIfRoom (h : HliBounded s) (f : HostFrame) : HliBounded (s.placeIfRoom f) := by
  unfold State.placeIfRoom
  split
  · rename_i hroom
    refine ⟨h.1, ?_⟩
    rw [State.placeReply, List.length_append]
    exact hroom
  · exact h

theorem HliBounded.arrive (h : HliBounded s) (kind tag : Byte) (body : List Byte) :
    HliBounded (s.arrive kind tag body) := by
  unfold State.arrive
  split
  · rename_i hroom
    refine ⟨?_, h.2⟩
    rw [List.length_append]
    exact hroom
  · exact h.placeIfRoom _

theorem HliBounded.hostByte (h : HliBounded s) (b : Byte) : HliBounded (s.hostByte b) := by
  have hread : ∀ c, HliBounded { s with checker := c } := fun _ => h
  unfold State.hostByte
  dsimp only
  split
  · exact hread _
  · unfold State.checkerEvent
    split
    · exact hread _
    · split
      · exact (hread _).placeIfRoom _
      · exact (hread _).placeIfRoom _
      · exact (hread _).arrive _ _ _

theorem HliBounded.hostBytes (h : HliBounded s) (bytes : List Byte) : HliBounded (s.hostBytes bytes) :=
  foldl_meets (inv := HliBounded) (fun _ b ht => ht.hostByte b) bytes h

/-- A frame boundary takes at most one frame from the reply queue (R171). -/
theorem HliBounded.boundary (h : HliBounded s) : HliBounded s.boundary := by
  obtain ⟨hinbox, hreplies⟩ := h
  unfold State.boundary
  split
  · rename_i f rest hlist
    rw [hlist] at hreplies
    exact ⟨hinbox, (Nat.le_succ _).trans hreplies⟩
  · split
    · exact ⟨hinbox, hreplies⟩
    · split
      · exact ⟨hinbox, hreplies⟩
      · exact HliBounded.of_same ⟨hinbox, hreplies⟩ ((State.reported_keeps _ _).part .inbox)
          ((State.reported_keeps _ _).part .replies)

theorem hliBounded_exec (h : HliBounded s) (he : exec i s = .next t) : HliBounded t := by
  cases i with
  | restart tag body =>
    obtain rfl := Host.Outcome.next.inj he
    exact h.request fun u => ⟨Nat.zero_le _, rfl⟩
  | unknownKindRequest kind tag body =>
    obtain rfl := Host.Outcome.next.inj he
    split
    · rename_i hc
      rw [Bool.and_eq_true] at hc
      obtain ⟨-, hroom, -⟩ := takes_iff.1 hc.1
      refine ⟨?_, ?_⟩
      · exact (List.length_tail.trans_le (Nat.sub_le _ _)).trans h.1
      · rw [State.placeReply, List.length_append]
        exact hroom
    · exact h
  | hostFrameReceived bytes =>
    obtain rfl := Host.Outcome.next.inj he
    exact h.hostBytes bytes
  | frameBoundary =>
    obtain rfl := Host.Outcome.next.inj he
    split
    · exact h
    · exact h.boundary
  | restartReset =>
    obtain rfl := Host.Outcome.next.inj he
    split
    · exact ⟨Nat.zero_le _, Nat.zero_le _⟩
    · exact h
  | powerOn | resetPin =>
    obtain rfl := Host.Outcome.next.inj he
    exact ⟨Nat.zero_le _, Nat.zero_le _⟩
  | _ => exact hliBounded_of_does (by simp [Instr.changes, pressParts]) (by simp [Instr.changes, pressParts]) h he

theorem withPending_keeps (q : List Instr) (s : State) : KeepsAllBut [.pending] s (s.withPending q) := by
  intro x hx
  cases x with
  | pending => simp at hx
  | _ => rfl

/-- Settles O54: each of the five invariants is kept by every command on its own. -/
theorem everyStepKeepsTheTablesLegal : Obligations.EveryStepKeepsTheTablesLegal := by
  rintro s t ⟨hhli, hrings, hstanding, hmarks, htimers⟩ hstep
  unfold step at hstep
  split at hstep
  · obtain rfl := Host.Outcome.next.inj hstep
    exact ⟨hhli, hrings, hstanding, hmarks, htimers⟩
  · rename_i c rest _
    have hpending := withPending_keeps rest s
    exact ⟨hliBounded_exec (hhli.of_same (hpending.part .inbox) (hpending.part .replies)) hstep,
      ringsOrdered_exec (ringsOrdered_reads.of_keeps hrings hpending) hstep,
      standingPriced_exec (standingPriced_reads.of_keeps hstanding hpending) hstep,
      marksLegal_exec (hmarks.of_keeps hpending) hstep,
      timersInRange_exec (timersInRange_reads.of_keeps htimers hpending) hstep⟩

end Sys2Proof.Safety
end

