-- ==== Sys2Proof/Proofs/QueueWrites.lean ====
section
/-! SUPPORT. The writes of a queue's mode, dispatch state and options (R29, R31 to R33, R37, R42), and the obligations on
them. -/

set_option Elab.async false

namespace Sys2Proof.Safety

open Sys2Proof.Machine

variable {s t : State} {q : QueueId} {tag : Byte} {body : List Byte}

-- ## Operands

theorem queueOf_none {b : Byte} (h : 7 < b.toNat) : queueOf b = none := dif_neg (by omega)

theorem QueueMode.ofCode_code (m : QueueMode) : QueueMode.ofCode m.code = some m := by
  cases m <;> rfl

theorem QueueMode.ofCode_none {n : Nat} (h : 3 < n) : QueueMode.ofCode n = none := by
  unfold QueueMode.ofCode
  rw [if_neg (by omega), if_neg (by omega), if_neg (by omega), if_neg (by omega)]

theorem DispatchState.ofCode_code (d : DispatchState) : DispatchState.ofCode d.code = some d := by
  cases d <;> rfl

theorem DispatchState.ofCode_none {n : Nat} (h : 3 < n) : DispatchState.ofCode n = none := by
  unfold DispatchState.ofCode
  rw [if_neg (by omega), if_neg (by omega), if_neg (by omega), if_neg (by omega)]

/-- A rule refuses RANGE when the first or the second of its operands is outside its range. -/
theorem orRange_refuses {α β : Type} {a : Option α} {b : Option β} {f : α → β → Judged} (h : a = none ∨ b = none) :
    (orRange a fun x => orRange b fun y => f x y) = .refused .range := by
  rcases h with rfl | rfl
  · rfl
  · cases a <;> rfl

-- ## One queue's record written

theorem updQueue_others (s : State) (q : QueueId) (f : Queue → Queue) : OtherQueuesSame q s (s.updQueue q f) :=
  fun k hk => s.updQueue_queues_ne q f k hk

/-- What a write of queue `q`'s dispatch state or options makes of a state (R33, R37, R81). -/
structure QueueWritten (s t : State) (q : QueueId) (x : Queue) : Prop where
  queue : t.queues[q] = x
  others : OtherQueuesSame q s t
  proposal : t.proposals[q] = s.proposals[q].map (fun y => { y with written := true })
  proposals : ∀ k : QueueId, k ≠ q → t.proposals[k] = s.proposals[k]
  asked : AskedIf (s.queues[q].mode = .run) s t

/-- A write that keeps the queue's mode marks a standing proposal and asks in RUN. -/
theorem queueWritten (s : State) (q : QueueId) (f : Queue → Queue) (hmode : (f s.queues[q]).mode = s.queues[q].mode) :
    QueueWritten s (((s.updQueue q f).markWritten q).askIfRun q) q (f s.queues[q]) := by
  refine ⟨?_, fun k hk => ?_, ?_, fun k hk => ?_, ?_⟩
  · simp [State.markWritten]
  · simpa [State.markWritten] using s.updQueue_queues_ne q f k hk
  · simp [State.markWritten]
  · simpa [State.markWritten] using (s.updQueue q f).updProposal_proposals_ne q _ k hk
  · have hasked := askIfRun_asked ((s.updQueue q f).markWritten q) q
    have hsame : ((s.updQueue q f).markWritten q).queues[q].mode = s.queues[q].mode := by
      rw [← hmode]
      simp [State.markWritten]
    rw [hsame] at hasked
    exact hasked.after ⟨rfl, rfl⟩

theorem writeDispatch_written (s : State) (q : QueueId) (d : DispatchState) :
    QueueWritten s (s.writeDispatch q d) q { s.queues[q] with dispatch := d } :=
  queueWritten s q (fun x => { x with dispatch := d }) rfl

theorem writeOptions_written (s : State) (q : QueueId) (rotate reroute : Bool) :
    QueueWritten s (s.writeOptions q rotate reroute) q { s.queues[q] with rotate := rotate, reroute := reroute } :=
  queueWritten s q (fun x => { x with rotate := rotate, reroute := reroute }) rfl

/-- Settles O26: each request writes its record by `queueWritten`. -/
theorem dispatchStateAndOptionsAreWritten : Obligations.DispatchStateAndOptionsAreWritten := by
  intro s tag body hsize
  refine ⟨fun htakes => ⟨fun hrange => ?_, fun q d hq hd => ?_⟩, fun htakes hbits => ⟨fun hrange => ?_, fun q hq => ?_⟩⟩
  · refine exec_refused rfl htakes ((sized_iff 2).2 hsize) (rc := .range) ?_
    exact orRange_refuses (hrange.imp queueOf_none DispatchState.ofCode_none)
  · have hjudge : judgeQueueDispatch body s.popInbox = ok (s.popInbox.writeDispatch q d) [] := by
      rw [judgeQueueDispatch, queueOf_eq hq, hd, DispatchState.ofCode_code]
      rfl
    refine completes_ok rfl htakes ((sized_iff 2).2 hsize) hjudge (State.writeDispatch_keeps _ q d) fun hreplied hkeeps => ?_
    obtain ⟨hqueue, hothers, hproposal, hproposals, hasked⟩ := writeDispatch_written s.popInbox q d
    exact ⟨hreplied, hqueue, hothers, hproposal, hproposals, hasked, hkeeps⟩
  · have hform : queueOptionsOk body = true := by simp [queueOptionsOk, sized_iff, zeroFrom_iff, hsize, hbits]
    refine exec_refused rfl htakes hform (rc := .range) ?_
    rw [judgeQueueOptions, queueOf_none hrange]
    rfl
  · have hform : queueOptionsOk body = true := by simp [queueOptionsOk, sized_iff, zeroFrom_iff, hsize, hbits]
    have hjudge : judgeQueueOptions body s.popInbox =
        ok (s.popInbox.writeOptions q (hasBit (byteAt body 1) 0) (hasBit (byteAt body 1) 1)) [] := by
      rw [judgeQueueOptions, queueOf_eq hq]
      rfl
    refine completes_ok rfl htakes hform hjudge (State.writeOptions_keeps _ q _ _) fun hreplied hkeeps => ?_
    obtain ⟨hqueue, hothers, hproposal, hproposals, hasked⟩ :=
      writeOptions_written s.popInbox q (hasBit (byteAt body 1) 0) (hasBit (byteAt body 1) 1)
    exact ⟨hreplied, hqueue, hothers, hproposal, hproposals, hasked, hkeeps⟩

-- ## The table of R29

theorem hasEntries_iff_exists (s : State) (j : SlotId) :
    s.hasEntries j = true ↔ ∃ p : PortId, ∃ e ∈ s.ports[p].window, e.job = j := by
  simp only [State.hasEntries, State.entryPort, List.find?_isSome, List.mem_finRange, true_and, holdsEntry_iff]

theorem busyJob_iff (s : State) (j : SlotId) :
    s.busyJob j = true ↔ s.jobs[j].feedPort ≠ none ∨ ∃ p : PortId, ∃ e ∈ s.ports[p].window, e.job = j := by
  rw [State.busyJob, Bool.or_eq_true, hasEntries_iff_exists, Option.isSome_iff_ne_none]

theorem drained_iff (s : State) (q : QueueId) : s.drained q = true ↔ ∀ j ∈ s.queues[q].list,
    s.jobs[j].feedPort = none ∧ ∀ p : PortId, ∀ e ∈ s.ports[p].window, e.job ≠ j := by
  have hidle : ∀ j, (!s.busyJob j) = true ↔
      s.jobs[j].feedPort = none ∧ ∀ p : PortId, ∀ e ∈ s.ports[p].window, e.job ≠ j := fun j => by
    rw [Bool.not_eq_true', ← Bool.not_eq_true, busyJob_iff]
    push Not
    rfl
  simp only [State.drained, List.all_eq_true, hidle]

/-- A change to the mode that the queue has changes nothing. -/
theorem changeMode_same {m : QueueMode} (h : s.queues[q].mode = m) : s.changeMode q m = ok s [] := by
  unfold State.changeMode
  rw [h]
  cases m <;> rfl

theorem changeMode_run (h : s.queues[q].mode ≠ .run) : s.changeMode q .run = ok (s.enterRun q) [] := by
  unfold State.changeMode
  cases hm : s.queues[q].mode with
  | run => exact absurd hm h
  | _ => rfl

theorem changeMode_halt (h : s.queues[q].mode = .run) : s.changeMode q .halt = ok (s.enterHalt q) [] := by
  unfold State.changeMode
  rw [h]

/-- From HALT, DISABLED and LOAD wait for the queue to be drained (R31). -/
theorem changeMode_fromHalt {m : QueueMode} (h : s.queues[q].mode = .halt) (hm : m = .disabled ∨ m = .load) :
    s.changeMode q m = if s.drained q then ok (s.enterClosed q m) [] else .refused .state := by
  unfold State.changeMode
  rw [h]
  rcases hm with rfl | rfl <;> rfl

theorem changeMode_refused {m : QueueMode} (h : (s.queues[q].mode = .disabled ∨ s.queues[q].mode = .load) ∧ m = .halt ∨
    s.queues[q].mode = .run ∧ (m = .disabled ∨ m = .load) ∨
    s.queues[q].mode = .halt ∧ (m = .disabled ∨ m = .load) ∧ (∃ j ∈ s.queues[q].list,
      s.jobs[j].feedPort ≠ none ∨ ∃ p : PortId, ∃ e ∈ s.ports[p].window, e.job = j)) :
    s.changeMode q m = .refused .state := by
  rcases h with ⟨hmode, rfl⟩ | ⟨hmode, hm⟩ | ⟨hmode, hm, j, hj, hbusy⟩
  · unfold State.changeMode
    rcases hmode with hmode | hmode <;> rw [hmode]
  · unfold State.changeMode
    rw [hmode]
    rcases hm with rfl | rfl <;> rfl
  · rw [changeMode_fromHalt hmode hm, if_neg]
    intro hdrained
    obtain ⟨hfeed, hentries⟩ := (drained_iff s q).1 hdrained j hj
    rcases hbusy with hbusy | ⟨p, e, he, hej⟩
    · exact hbusy hfeed
    · exact hentries p e he hej

theorem changeMode_closes {m : QueueMode} (h : s.queues[q].mode = .disabled ∧ m = .load ∨
    s.queues[q].mode = .load ∧ m = .disabled ∨
    s.queues[q].mode = .halt ∧ (m = .disabled ∨ m = .load) ∧ (∀ j ∈ s.queues[q].list,
      s.jobs[j].feedPort = none ∧ ∀ p : PortId, ∀ e ∈ s.ports[p].window, e.job ≠ j)) :
    s.changeMode q m = ok (s.enterClosed q m) [] := by
  rcases h with ⟨hmode, rfl⟩ | ⟨hmode, rfl⟩ | ⟨hmode, hm, hidle⟩
  · unfold State.changeMode
    rw [hmode]
  · unfold State.changeMode
    rw [hmode]
  · rw [changeMode_fromHalt hmode hm, if_pos ((drained_iff s q).2 hidle)]

/-- A taken QUEUE_MODE whose operands are in their ranges is judged by the table. -/
theorem judgeQueueMode_eq {m : QueueMode} (hq : (byteAt body 0).toNat = q.val) (hm : (byteAt body 1).toNat = m.code)
    (s : State) : judgeQueueMode body s = s.changeMode q m := by
  rw [judgeQueueMode, queueOf_eq hq, hm, QueueMode.ofCode_code]
  rfl

/-- Settles O24: each clause is one case of the table. -/
theorem queueModeFollowsItsTable : Obligations.QueueModeFollowsItsTable := by
  intro s tag body htakes hsize
  have hform : sized 2 body = true := (sized_iff 2).2 hsize
  refine ⟨fun hrange => ?_, fun q m hq hm => ⟨fun hsame => ?_, fun hrefused => ?_, fun hcloses => ?_, fun hmode hrun => ?_⟩⟩
  · exact exec_refused rfl htakes hform (orRange_refuses (hrange.imp queueOf_none QueueMode.ofCode_none))
  · have hjudge := (judgeQueueMode_eq hq hm s.popInbox).trans (changeMode_same hsame)
    exact completes_ok rfl htakes hform hjudge (.refl [] s.popInbox) fun hreplied hkeeps => ⟨hreplied, hkeeps⟩
  · exact exec_refused rfl htakes hform ((judgeQueueMode_eq hq hm s.popInbox).trans (changeMode_refused hrefused))
  · have hjudge := (judgeQueueMode_eq hq hm s.popInbox).trans (changeMode_closes hcloses)
    refine completes_ok rfl htakes hform hjudge (State.updQueue_keeps _ q _) fun hreplied hkeeps => ?_
    exact ⟨hreplied, s.popInbox.updQueue_queues_self q (fun x => { x with mode := m, received := 0 }),
      updQueue_others s.popInbox q fun x => { x with mode := m, received := 0 }, hkeeps⟩
  · subst hrun
    have hjudge := (judgeQueueMode_eq hq hm s.popInbox).trans (changeMode_run hmode)
    refine completes_ok rfl htakes hform hjudge (State.enterRun_keeps _ q) fun hreplied hkeeps => ?_
    have hqueues : (s.popInbox.enterRun q).queues = (s.popInbox.updQueue q fun x => { x with mode := .run }).queues :=
      (State.ask_keeps (s := _)).part .queues
    refine ⟨hreplied, ?_, fun k hk => ?_, (ask_asked _).after ⟨rfl, rfl⟩, hkeeps⟩
    · rw [State.placeReply_queues, hqueues]
      exact s.popInbox.updQueue_queues_self q _
    · rw [State.placeReply_queues, hqueues]
      exact updQueue_others s.popInbox q _ k hk

end Sys2Proof.Safety
end

