-- ==== Sys2Proof/Proofs/MarksGiven.lean ====
section
/-! SUPPORT. Marks from the host and from the finishing line (R42, R46, R47), the pulses of the mark output (R45), and the
obligation on them. -/

set_option Elab.async false

namespace Sys2Proof.Safety

open Sys2Proof.Machine

variable {s t u : State} {q : QueueId} {tag : Byte} {body : List Byte} {a b : Prop}

-- ## Passes asked for by several queues

/-- Of several requests for a pass, some are made exactly when `b` holds (R39, R79): then a pass is in progress, and one
is owed if one was in progress before. -/
def SomeAsk (b : Prop) (s t : State) : Prop :=
  (b → t.passInProgress = true ∧ (s.passInProgress = true → t.passOwed = true)) ∧ (¬b → NotAsked s t)

theorem SomeAsk.of_askedIf (h : AskedIf b s t) : SomeAsk b s t := by
  refine ⟨fun hb => ?_, h.2⟩
  obtain ⟨hpass, howed⟩ := h.1 hb
  refine ⟨hpass, fun hs => ?_⟩
  rw [howed, hs, Bool.or_true]

/-- Requests made one after the other: a pass in progress and an owed pass stay. -/
theorem SomeAsk.trans (h : SomeAsk a s u) (h2 : SomeAsk b u t) : SomeAsk (a ∨ b) s t := by
  obtain ⟨hasked, hnot⟩ := h
  obtain ⟨hasked2, hnot2⟩ := h2
  refine ⟨fun hab => ?_, fun hab => (hnot fun ha => hab (.inl ha)).trans (hnot2 fun hb => hab (.inr hb))⟩
  by_cases hb : b
  · obtain ⟨hpass, howed⟩ := hasked2 hb
    refine ⟨hpass, fun hs => howed ?_⟩
    by_cases ha : a
    · exact (hasked ha).1
    · rw [(hnot ha).1]
      exact hs
  · obtain ⟨hpass, howed⟩ := hasked (hab.resolve_right hb)
    obtain ⟨hpassSame, howedSame⟩ := hnot2 hb
    rw [hpassSame, howedSame]
    exact ⟨hpass, howed⟩

-- ## Marks

/-- A mark of member `m` is new to queue `q`, which is in RUN: it asks for a pass (R39). -/
def NewMark (s : State) (m : Nat) (q : QueueId) : Prop :=
  s.queues[q].mode = .run ∧ hasBit s.queues[q].received m = false

theorem newMark_congr {m : Nat} (h : t.queues[q] = s.queues[q]) : NewMark t m q ↔ NewMark s m q := by
  rw [NewMark, NewMark, h]

theorem giveMark_asked (s : State) (q : QueueId) (m : Nat) : AskedIf (NewMark s m q) s (s.giveMark q m) := by
  unfold State.giveMark
  by_cases hmode : s.queues[q].mode = .run ∨ s.queues[q].mode = .halt
  · rw [if_pos hmode]
    cases hb : hasBit s.queues[q].received m with
    | true =>
      rw [if_pos rfl]
      exact ⟨fun hnew => absurd (hb.symm.trans hnew.2) (by decide), fun _ => .refl s⟩
    | false =>
      rw [if_neg (by decide)]
      have hasked := askIfRun_asked (s.updQueue q fun x => { x with received := addBit x.received m }) q
      rw [State.updQueue_queues_self] at hasked
      have hrun : NewMark s m q ↔ s.queues[q].mode = .run := and_iff_left hb
      rw [hrun]
      exact hasked.after ⟨rfl, rfl⟩
  · rw [if_neg hmode]
    exact ⟨fun hnew => absurd (.inl hnew.1) hmode, fun _ => .refl s⟩

theorem giveMarks_asked (m : Nat) (l : List QueueId) (hl : l.Nodup) (s : State) :
    SomeAsk (∃ q ∈ l, NewMark s m q) s (l.foldl (fun t q => t.giveMark q m) s) := by
  induction l generalizing s with
  | nil => exact ⟨fun ⟨q, hq, _⟩ => absurd hq (by simp), fun _ => .refl s⟩
  | cons q l ih =>
    obtain ⟨hq, hnodup⟩ := List.nodup_cons.1 hl
    have hrest : (∃ k ∈ l, NewMark (s.giveMark q m) m k) ↔ ∃ k ∈ l, NewMark s m k := by
      refine exists_congr fun k => and_congr_right fun hk => newMark_congr (giveMark_queues_ne ?_ m)
      rintro rfl
      exact hq hk
    have hboth := (SomeAsk.of_askedIf (giveMark_asked s q m)).trans (ih hnodup (s.giveMark q m))
    rw [hrest] at hboth
    simpa only [List.foldl_cons, List.exists_mem_cons_iff] using hboth

/-- The finishing line's edge marks every queue with EXT (R46). -/
theorem markEdge_queues (s : State) (q : QueueId) : s.markEdge.queues[q] = s.queues[q].given 8 := by
  have hmarks := giveMarks_queues extBit (fun _ => true) (List.finRange 8) (List.nodup_finRange 8) s q
  rw [if_pos ⟨List.mem_finRange q, rfl⟩] at hmarks
  exact hmarks

theorem markEdge_asked (s : State) : SomeAsk (∃ q, NewMark s 8 q) s s.markEdge := by
  have hasked := giveMarks_asked extBit (List.finRange 8) (List.nodup_finRange 8) s
  simp only [List.mem_finRange, true_and] at hasked
  exact hasked

-- ## MARK

theorem senderOf_none {c : Byte} (h : 8 < c.toNat) : senderOf c = none := if_neg (by omega)

theorem senderOf_eq {c : Byte} (h : c.toNat ≤ 8) : senderOf c = some c.toNat := if_pos h

theorem judgeMark_own (h : byteAt body 1 = byteAt body 0) : judgeMark body s = .refused .range := by
  by_cases hq : 7 < (byteAt body 0).toNat
  · rw [judgeMark, queueOf_none hq]
    rfl
  · have hlt : (byteAt body 0).toNat < 8 := by omega
    have hown : (byteAt body 0).toNat = (⟨(byteAt body 0).toNat, hlt⟩ : QueueId).val := rfl
    rw [judgeMark, queueOf_eq hown, h, senderOf_eq (by omega), orRange_some, orRange_some]
    exact if_pos rfl

/-- A MARK of another member is judged by the queue's mode (R47). -/
theorem judgeMark_eq (hq : (byteAt body 0).toNat = q.val) (hm : (byteAt body 1).toNat ≤ 8)
    (hne : (byteAt body 1).toNat ≠ q.val) (s : State) : judgeMark body s =
      if s.queues[q].mode = .run ∨ s.queues[q].mode = .halt then
        ok (s.giveMark q (byteAt body 1).toNat)
          (beBytes 2 (s.giveMark q (byteAt body 1).toNat).queues[q].received.toNat)
      else .refused .state := by
  rw [judgeMark, queueOf_eq hq, senderOf_eq hm, orRange_some, orRange_some, if_neg hne]

theorem given_open {x : Queue} (h : x.mode = .run ∨ x.mode = .halt) (m : Nat) :
    x.given m = { x with received := addBit x.received m } := if_pos h

-- ## The obligation

/-- An end of a pulse begins the next one that is owed (R45). -/
theorem pulseEnd_gap {m : MarkLine} (h : m.phase = .gap) {n : Nat} (hn : n = if m.counted then m.owed - 1 else m.owed) :
    m.pulseEnd = { owed := n, phase := if 0 < n then .high else .idle, counted := true } := by
  subst hn
  rw [MarkLine.pulseEnd, if_pos h, MarkLine.begin]
  by_cases hpos : 0 < if m.counted then m.owed - 1 else m.owed
  · rw [if_pos ⟨rfl, hpos⟩, if_pos hpos]
  · rw [if_neg fun hc => hpos hc.2, if_neg hpos]

theorem mark_clauses (htakes : Takes s 0x13 tag body) (hsize : body.length = 2) :
    (7 < (byteAt body 0).toNat ∨ 8 < (byteAt body 1).toNat ∨ byteAt body 1 = byteAt body 0 →
      Refuses (.mark tag body) s 0x13 tag 0x05) ∧
    ∀ (q : QueueId) (m : Nat), (byteAt body 0).toNat = q.val → (byteAt body 1).toNat = m → m ≤ 8 → m ≠ q.val →
      (s.queues[q].mode = .disabled ∨ s.queues[q].mode = .load → Refuses (.mark tag body) s 0x13 tag 0x07) ∧
      (s.queues[q].mode = .run ∨ s.queues[q].mode = .halt → Completes (.mark tag body) s (fun t =>
        Replied s t 0x13 tag 0x00 (beBytes 2 (addBit s.queues[q].received m).toNat) ∧
        t.queues[q] = { s.queues[q] with received := addBit s.queues[q].received m } ∧ OtherQueuesSame q s t ∧
        AskedIf (s.queues[q].mode = .run ∧ hasBit s.queues[q].received m = false) s t ∧
        KeepsAllBut [.inbox, .replies, .queues, .passInProgress, .passOwed] s t)) := by
  have hform : sized 2 body = true := (sized_iff 2).2 hsize
  refine ⟨fun hrange => exec_refused rfl htakes hform (rc := .range) ?_, fun q m hq hm hle hne => ?_⟩
  · rcases hrange with hqueue | hsender | hown
    · exact orRange_refuses (.inl (queueOf_none hqueue))
    · exact orRange_refuses (.inr (senderOf_none hsender))
    · exact judgeMark_own hown
  subst hm
  have hjudge := judgeMark_eq hq hle hne s.popInbox
  refine ⟨fun hclosed => ?_, fun hopen => ?_⟩
  · have hnot : ¬(s.popInbox.queues[q].mode = .run ∨ s.popInbox.queues[q].mode = .halt) := by
      show ¬(s.queues[q].mode = .run ∨ s.queues[q].mode = .halt)
      rcases hclosed with h | h
      · rw [h]
        decide
      · rw [h]
        decide
    exact exec_refused rfl htakes hform (hjudge.trans (if_neg hnot))
  · have hgiven : (s.popInbox.giveMark q (byteAt body 1).toNat).queues[q] =
        { s.queues[q] with received := addBit s.queues[q].received (byteAt body 1).toNat } :=
      (giveMark_queues_self s.popInbox q _).trans (given_open hopen _)
    have hdone := hjudge.trans (if_pos hopen)
    rw [hgiven] at hdone
    refine completes_ok rfl htakes hform hdone (State.giveMark_keeps _ q _) fun hreplied hkeeps => ?_
    exact ⟨hreplied, hgiven, fun k hk => giveMark_queues_ne hk _, giveMark_asked s.popInbox q _, hkeeps⟩

theorem finishingMark_clause (h : s.startInterval = false) : Completes .finishingMarkEdge s (fun t =>
    (∀ q : QueueId, t.queues[q] = if s.queues[q].mode = .run ∨ s.queues[q].mode = .halt then
      { s.queues[q] with received := addBit s.queues[q].received 8 } else s.queues[q]) ∧
    ((∃ q : QueueId, s.queues[q].mode = .run ∧ hasBit s.queues[q].received 8 = false) →
      t.passInProgress = true ∧ (s.passInProgress = true → t.passOwed = true)) ∧
    ((∀ q : QueueId, s.queues[q].mode = .run → hasBit s.queues[q].received 8 = true) → NotAsked s t) ∧
    KeepsAllBut [.queues, .passInProgress, .passOwed] s t) := by
  obtain ⟨hasked, hnot⟩ := markEdge_asked s
  refine ⟨s.markEdge, congrArg Host.Outcome.next (if_neg (by rw [h]; decide)), markEdge_queues s, hasked,
    fun hold => hnot ?_, s.markEdge_keeps⟩
  rintro ⟨q, hrun, hnew⟩
  exact absurd (hnew.symm.trans (hold q hrun)) (by decide)

/-- Settles O27: MARK and the edge give marks by `giveMark`, one queue after the other. -/
theorem marksReachTheirQueues : Obligations.MarksReachTheirQueues := by
  refine ⟨fun s tag body htakes hsize => mark_clauses htakes hsize, fun s => ⟨fun hstart => ?_, finishingMark_clause⟩,
    fun s => ⟨fun hhigh => ?_, fun hhigh => ?_, fun hgap n hn => ?_, fun hgap => ?_⟩⟩
  · exact congrArg Host.Outcome.next (if_pos hstart)
  · have hline : s.markLine.highEnd = { s.markLine with phase := .gap } := if_pos hhigh
    show Host.Outcome.next { s with markLine := s.markLine.highEnd } = _
    rw [hline]
  · have hline : s.markLine.highEnd = s.markLine := if_neg hhigh
    show Host.Outcome.next { s with markLine := s.markLine.highEnd } = _
    rw [hline]
  · show Host.Outcome.next { s with markLine := s.markLine.pulseEnd } = _
    rw [pulseEnd_gap hgap hn]
  · have hline : s.markLine.pulseEnd = s.markLine := if_neg hgap
    show Host.Outcome.next { s with markLine := s.markLine.pulseEnd } = _
    rw [hline]

end Sys2Proof.Safety
end

