-- ==== Sys2Proof/Proofs/HaltedQueue.lean ====
section
/-! SUPPORT. A queue that enters HALT from RUN (R30): what becomes of one job and its port, and of the jobs of a list, one
after the other; and the obligation on it. -/

set_option Elab.async false

namespace Sys2Proof.Machine

open Sys2Proof.Safety

variable {s t u : State} {j k : SlotId} {p i : PortId} {q : QueueId} {l : List SlotId}

-- ## One job

/-- The job is ACTIVE or STARVED: it holds a feed (R8). -/
def Job.Fed (x : Job) : Prop := x.state = .active ∨ x.state = .starved

/-- The record of a job whose queue enters HALT (R30). -/
def Job.halted (x : Job) : Job := { x with state := .waiting, reason := some .halt, feedPort := none }

theorem Job.halted_not_fed (x : Job) : ¬x.halted.Fed := by
  unfold Job.Fed Job.halted
  simp

/-- Port `p` has released its feed and aborted its STREAMING entry (R30, R96, R104). -/
structure PortHalted (s t : State) (p : PortId) : Prop where
  owner : t.ports[p].feedOwner = none
  owed : t.ports[p].releaseOwed = false
  timer : t.ports[p].starveTimer = none
  setup : t.ports[p].setup = s.ports[p].setup
  serial : t.ports[p].nextSerial = s.ports[p].nextSerial
  window : t.ports[p].window = s.ports[p].window.map
    (fun e => if e.state = .streaming then { e with state := .aborting } else e)
  sent : ∀ e, s.ports[p].window.find? (fun x => x.state == .streaming) = some e →
    (p, PressMessage.abort e.serial) ∈ t.pressLog

/-- The port reads alike before, and afterwards, where the press log may have grown. -/
theorem PortHalted.congr (h : PortHalted u t p) (hbefore : u.ports[p] = s.ports[p]) : PortHalted s t p := by
  obtain ⟨howner, howed, htimer, hsetup, hserial, hwindow, hsent⟩ := h
  rw [hbefore] at hsetup hserial hwindow hsent
  exact ⟨howner, howed, htimer, hsetup, hserial, hwindow, hsent⟩

theorem PortHalted.stays (h : PortHalted s u p) (hafter : t.ports[p] = u.ports[p])
    (hlog : ∀ m ∈ u.pressLog, m ∈ t.pressLog) : PortHalted s t p := by
  obtain ⟨howner, howed, htimer, hsetup, hserial, hwindow, hsent⟩ := h
  refine ⟨?_, ?_, ?_, ?_, ?_, ?_, fun e he => hlog _ (hsent e he)⟩ <;> rwa [hafter]

/-- The state in which the STREAMING entry of a job whose queue enters HALT is aborted. -/
def State.haltReleased (s : State) (p : PortId) (j : SlotId) : State :=
  (s.updJob j (fun x => { x with state := .waiting, reason := some .halt })).releaseFeed p j

theorem haltReleased_ports_self (s : State) (p : PortId) (j : SlotId) :
    (s.haltReleased p j).ports[p] = s.ports[p].dropFeed := by
  rw [State.haltReleased, Fin.getElem_fin, State.releaseFeed_ports_val]
  rfl

theorem haltReleased_ports_ne (h : i ≠ p) : (s.haltReleased p j).ports[i] = s.ports[i] := by
  rw [State.haltReleased, State.releaseFeed_ports_ne _ _ _ _ h, State.updJob_ports]

theorem haltReleased_jobs_self (s : State) (p : PortId) (j : SlotId) :
    (s.haltReleased p j).jobs[j] = s.jobs[j].halted := by
  rw [State.haltReleased, Fin.getElem_fin, State.releaseFeed_jobs_val, State.updJob_jobs_val]
  rfl

theorem haltReleased_jobs_ne (h : k ≠ j) : (s.haltReleased p j).jobs[k] = s.jobs[k] := by
  rw [State.haltReleased, State.releaseFeed_jobs_ne _ _ _ _ h, State.updJob_jobs_ne _ _ _ _ h]

theorem haltReleased_pressLog (s : State) (p : PortId) (j : SlotId) : (s.haltReleased p j).pressLog = s.pressLog :=
  ((s.updJob_keeps j _).trans (State.releaseFeed_keeps _ p j)).part .pressLog

theorem haltJob_unfed (h : ¬s.jobs[j].Fed) : s.haltJob j = s := if_neg h

theorem haltJob_none (h : s.jobs[j].Fed) (hf : s.jobs[j].feedPort = none) :
    s.haltJob j = s.updJob j (fun x => { x with state := .waiting, reason := some .halt }) := by
  unfold Job.Fed at h
  simp only [State.haltJob, if_pos h, hf]

theorem haltJob_some (h : s.jobs[j].Fed) (hf : s.jobs[j].feedPort = some p) :
    s.haltJob j = ((s.haltReleased p j).abortStreaming p).feedReleased p := by
  unfold Job.Fed at h
  simp only [State.haltJob, if_pos h, hf]
  rfl

theorem haltJob_jobs_self (h : s.jobs[j].Fed) : (s.haltJob j).jobs[j] = s.jobs[j].halted := by
  cases hf : s.jobs[j].feedPort with
  | none => rw [haltJob_none h hf, State.updJob_jobs_self, Job.halted, hf]
  | some p =>
    rw [haltJob_some h hf, State.feedReleased_jobs_getElem, (State.abortStreaming_keeps _ p).part .jobs]
    exact haltReleased_jobs_self s p j

theorem haltJob_jobs_ne (h : k ≠ j) : (s.haltJob j).jobs[k] = s.jobs[k] := by
  by_cases hfed : s.jobs[j].Fed
  · cases hf : s.jobs[j].feedPort with
    | none => rw [haltJob_none hfed hf, State.updJob_jobs_ne _ _ _ _ h]
    | some p =>
      rw [haltJob_some hfed hf, State.feedReleased_jobs_getElem, (State.abortStreaming_keeps _ p).part .jobs]
      exact haltReleased_jobs_ne h
  · rw [haltJob_unfed hfed]

theorem haltJob_ports_ne (h : s.jobs[j].feedPort ≠ some i) : (s.haltJob j).ports[i] = s.ports[i] := by
  by_cases hfed : s.jobs[j].Fed
  · cases hf : s.jobs[j].feedPort with
    | none => rw [haltJob_none hfed hf, State.updJob_ports]
    | some p =>
      have hi : i ≠ p := by
        rintro rfl
        exact h hf
      rw [haltJob_some hfed hf, State.feedReleased_ports_ne _ _ _ hi, abortStreaming_ports_ne hi,
        haltReleased_ports_ne hi]
  · rw [haltJob_unfed hfed]

/-- What an abort puts on a link stands behind what was there. -/
theorem abortStreaming_log (s : State) (p : PortId) : ∀ m ∈ s.pressLog, m ∈ (s.abortStreaming p).pressLog := by
  intro m hm
  cases hf : s.ports[p].window.find? (fun e => e.state == .streaming) with
  | none => rwa [abortStreaming_none hf]
  | some e =>
    obtain ⟨cut, -, -, hsent⟩ := abortStreaming_sent hf
    rw [hsent]
    exact List.mem_append_left _ hm

theorem haltJob_pressLog (h : s.jobs[j].Fed) (hf : s.jobs[j].feedPort = some p) :
    (s.haltJob j).pressLog = ((s.haltReleased p j).abortStreaming p).pressLog := by
  rw [haltJob_some h hf, (State.feedReleased_keeps _ p).part .pressLog]

theorem haltJob_log (s : State) (j : SlotId) : ∀ m ∈ s.pressLog, m ∈ (s.haltJob j).pressLog := by
  intro m hm
  by_cases hfed : s.jobs[j].Fed
  · cases hf : s.jobs[j].feedPort with
    | none => rwa [haltJob_none hfed hf, (s.updJob_keeps j _).part .pressLog]
    | some p =>
      rw [haltJob_pressLog hfed hf]
      refine abortStreaming_log _ p m ?_
      rwa [haltReleased_pressLog]
  · rwa [haltJob_unfed hfed]

/-- The port of a fed job releases its feed and aborts its STREAMING entry; the hold test changes its link alone (R89). -/
theorem haltJob_port (h : s.jobs[j].Fed) (hf : s.jobs[j].feedPort = some p) : PortHalted s (s.haltJob j) p := by
  have haborted : ((s.haltReleased p j).abortStreaming p).ports[p] = { s.ports[p].dropFeed with
      window := s.ports[p].window.map (fun e => if e.state = .streaming then { e with state := .aborting } else e)
      sending := match s.ports[p].window.find? (fun e => e.state == .streaming) with
        | none => s.ports[p].sending
        | some e => if e.ended then s.ports[p].sending else none } := by
    rw [abortStreaming_ports_self, haltReleased_ports_self]
    rfl
  obtain ⟨l, c, w, x, f, n, hport⟩ := State.feedReleased_ports_val ((s.haltReleased p j).abortStreaming p) p
  have hself : (s.haltJob j).ports[p] = _ := (congrArg (fun v : State => v.ports[p]) (haltJob_some h hf)).trans hport
  simp only [← Fin.getElem_fin, haborted] at hself
  refine ⟨by rw [hself]; rfl, by rw [hself]; rfl, by rw [hself]; rfl, by rw [hself]; rfl, by rw [hself]; rfl,
    by rw [hself], fun e he => ?_⟩
  have hstream : (s.haltReleased p j).ports[p].window.find? (fun x => x.state == .streaming) = some e := by
    rw [haltReleased_ports_self]
    exact he
  obtain ⟨cut, -, -, hsent⟩ := abortStreaming_sent hstream
  rw [haltJob_pressLog h hf, hsent]
  simp

-- ## The jobs of a list

/-- The jobs of a list have given up their feeds: what the state `t` shows of jobs, ports and the press log of `s`. -/
structure Halted (s : State) (l : List SlotId) (t : State) : Prop where
  fed : ∀ j ∈ l, s.jobs[j].Fed → t.jobs[j] = s.jobs[j].halted
  unfed : ∀ j, (j ∈ l → ¬s.jobs[j].Fed) → t.jobs[j] = s.jobs[j]
  ports : ∀ j ∈ l, s.jobs[j].Fed → ∀ p, s.jobs[j].feedPort = some p → PortHalted s t p
  others : ∀ p, (∀ j ∈ l, s.jobs[j].feedPort ≠ some p) → t.ports[p] = s.ports[p]

theorem Halted.nil (s : State) : Halted s [] s :=
  ⟨fun _ hj => absurd hj (by simp), fun _ _ => rfl, fun _ hj => absurd hj (by simp), fun _ _ => rfl⟩

/-- A job that stands in the list already, or that is not fed, stays. -/
theorem Halted.skip (h : Halted s l t) (hj : j ∈ l ∨ ¬s.jobs[j].Fed) : Halted s (l ++ [j]) (t.haltJob j) := by
  obtain ⟨hfed, hunfed, hports, hothers⟩ := h
  have hstill : ¬t.jobs[j].Fed := by
    by_cases hs : s.jobs[j].Fed
    · rw [hfed j (hj.resolve_right (not_not_intro hs)) hs]
      exact Job.halted_not_fed _
    · rwa [hunfed j fun _ => hs]
  have hmem : ∀ k ∈ l ++ [j], s.jobs[k].Fed → k ∈ l := by
    intro k hk hs
    rcases List.mem_append.1 hk with hk | hk
    · exact hk
    · obtain rfl := List.mem_singleton.1 hk
      exact hj.resolve_right (not_not_intro hs)
  rw [haltJob_unfed hstill]
  exact ⟨fun k hk hs => hfed k (hmem k hk hs) hs, fun k hk => hunfed k fun hl => hk (List.mem_append_left _ hl),
    fun k hk hs => hports k (hmem k hk hs) hs, fun p hp => hothers p fun k hk => hp k (List.mem_append_left _ hk)⟩

/-- A fed job behind the list gives up its feed; no other job has its port. -/
theorem Halted.next (h : Halted s l t) (hone : ∀ (k : SlotId) (p : PortId), s.jobs[j].feedPort = some p →
    s.jobs[k].feedPort = some p → k = j) (hj : j ∉ l) (hs : s.jobs[j].Fed) : Halted s (l ++ [j]) (t.haltJob j) := by
  obtain ⟨hfed, hunfed, hports, hothers⟩ := h
  have hself : t.jobs[j] = s.jobs[j] := hunfed j fun hl => absurd hl hj
  have hnow : t.jobs[j].Fed := by rwa [hself]
  refine ⟨fun k hk hks => ?_, fun k hk => ?_, fun k hk hks p hp => ?_, fun p hp => ?_⟩
  · by_cases hkj : k = j
    · subst hkj
      rw [haltJob_jobs_self hnow, hself]
    · rw [haltJob_jobs_ne hkj]
      exact hfed k (by simpa [hkj] using hk) hks
  · have hkj : k ≠ j := by
      rintro rfl
      exact hk (by simp) hs
    rw [haltJob_jobs_ne hkj]
    exact hunfed k fun hl => hk (List.mem_append_left _ hl)
  · by_cases hkj : k = j
    · subst hkj
      have hfree : t.ports[p] = s.ports[p] := hothers p fun i hi hip => hj (hone i p hp hip ▸ hi)
      exact (haltJob_port hnow (by rw [hself, hp])).congr hfree
    · refine (hports k (by simpa [hkj] using hk) hks p hp).stays (haltJob_ports_ne ?_) (haltJob_log t j)
      rw [hself]
      exact fun hjp => hkj (hone k p hjp hp)
  · rw [haltJob_ports_ne]
    · exact hothers p fun k hk => hp k (List.mem_append_left _ hk)
    · rw [hself]
      exact hp j (by simp)

theorem halted_foldl (hone : ∀ (j k : SlotId) (p : PortId), s.jobs[j].feedPort = some p →
    s.jobs[k].feedPort = some p → k = j) (l : List SlotId) : Halted s l (l.foldl (fun t j => t.haltJob j) s) := by
  induction l using List.reverseRecOn with
  | nil => exact .nil s
  | append_singleton l j ih =>
    rw [List.foldl_append, List.foldl_cons, List.foldl_nil]
    by_cases hj : j ∈ l ∨ ¬s.jobs[j].Fed
    · exact ih.skip hj
    · rw [not_or, not_not] at hj
      exact ih.next (hone j) hj.1 hj.2

-- ## The obligation

theorem enterHalt_halted (h : FeedsAgree s) (q : QueueId) : Halted s s.queues[q].list (s.enterHalt q) := by
  obtain ⟨howner, -⟩ := h
  have hone : ∀ (j k : SlotId) (p : PortId), s.jobs[j].feedPort = some p → s.jobs[k].feedPort = some p → k = j := by
    intro j k p hj hk
    have hj' := (howner p j).2 hj
    have hk' := (howner p k).2 hk
    exact Option.some.inj (hk'.symm.trans hj')
  obtain ⟨hfed, hunfed, hports, hothers⟩ :=
    halted_foldl (s := s.updQueue q fun x => { x with mode := .halt }) hone s.queues[q].list
  exact ⟨hfed, hunfed, fun j hj hs p hp => (hports j hj hs p hp).congr rfl, hothers⟩

theorem enterHalt_queues (s : State) (q : QueueId) :
    (s.enterHalt q).queues = (s.updQueue q fun x => { x with mode := .halt }).queues :=
  (KeepsAllBut.foldl (fun t j => State.haltJob_keeps t j) _ _).part .queues

/-- Settles O25: the list's jobs are halted one after the other, and FeedsAgree keeps their ports apart. -/
theorem haltTakesTheFeedsOfItsQueue : Obligations.HaltTakesTheFeedsOfItsQueue := by
  intro s tag body q htakes hsize hq hcode hrun hfeeds
  have hm : (byteAt body 1).toNat = QueueMode.halt.code := by rw [hcode]; rfl
  have hjudge := (judgeQueueMode_eq hq hm s.popInbox).trans (changeMode_halt hrun)
  refine completes_ok rfl htakes ((sized_iff 2).2 hsize) hjudge (State.enterHalt_keeps _ q) fun hreplied hkeeps => ?_
  have hhalted := enterHalt_halted (s := s.popInbox) hfeeds q
  have hqueues := enterHalt_queues s.popInbox q
  refine ⟨hreplied, ?_, fun k hk => ?_, fun j hj hs => ⟨hhalted.fed j hj hs, fun p hp => ?_⟩, fun j hj => ?_,
    fun p hp => ?_, hkeeps⟩
  · rw [State.placeReply_queues, hqueues]
    exact s.popInbox.updQueue_queues_self q _
  · rw [State.placeReply_queues, hqueues]
    exact updQueue_others s.popInbox q _ k hk
  · obtain ⟨howner, howed, htimer, hsetup, hserial, hwindow, hsent⟩ := hhalted.ports j hj hs p hp
    exact ⟨howner, howed, htimer, hsetup, hserial, hwindow, hsent⟩
  · exact hhalted.unfed j fun hl hs => hs.elim (hj hl).1 (hj hl).2
  · exact hhalted.others p fun j hj hjp => hp j ((hfeeds.1 p j).2 hjp) hj

end Sys2Proof.Machine
end

