-- ==== Sys2Proof/Proofs/SilentPass.lean ====
section
/-! SUPPORT. A pass that proposes nothing (R38, R39, R80), and the obligation on the reasons that it writes. -/

set_option Elab.async false

namespace Sys2Proof.Machine

open Sys2Proof.Safety

variable {s t : State} {j k : SlotId} {p : PortId} {q : QueueId} {r : RecordId} {why : WaitReason}

-- ## A pass without proposals

theorem rounds_idle (m : Nat) (h : NoProposals s) : State.rounds m s = s := by
  have hnone : s.proposers = [] := List.eq_nil_iff_forall_not_mem.2 fun i hi => (mem_proposers s i).1 hi (h i)
  cases m with
  | zero => rfl
  | succ m => rw [State.rounds, if_pos (by rw [hnone]; rfl)]

/-- An owed pass begins at the end of one, or none is in progress (R79, R80). -/
theorem endPass_passes (h : s.passInProgress = true) :
    s.endPass.passInProgress = s.passOwed ∧ s.endPass.passOwed = false := by
  unfold State.endPass
  cases s.passOwed with
  | true =>
    rw [if_pos rfl]
    exact ⟨h, rfl⟩
  | false =>
    rw [if_neg (by decide)]
    exact ⟨rfl, rfl⟩

/-- What a pass leaves in which no queue proposes: the reasons that the first examinations write, and an empty table. -/
structure PassSilent (s t : State) : Prop where
  jobs : ∀ k : SlotId, t.jobs[k] = s.examinedAll.jobs[k]
  proposals : NoProposals t
  inProgress : t.passInProgress = s.passOwed
  owed : t.passOwed = false
  keeps : KeepsAllBut [.jobs, .proposals, .passInProgress, .passOwed] s t

theorem pass_silent (hin : s.passInProgress = true) (h : ∀ i : QueueId, s.proposalFor i = none) :
    ∃ t, exec .dispatchPass s = .next t ∧ PassSilent s t := by
  obtain ⟨-, hproposals, -⟩ := examinedAll_laws s
  have hempty : NoProposals s.examinedAll := fun i => (hproposals i).trans (h i)
  have hpass : s.pass = s.examinedAll := (pass_eq s).trans (rounds_idle 512 hempty)
  have hexec := exec_dispatchPass hin
  rw [hpass] at hexec
  have hexamined := examinedAll_keeps s
  have hend := State.endPass_keeps (s := s.examinedAll)
  obtain ⟨hinProgress, howed⟩ := endPass_passes ((hexamined.part .passInProgress).trans hin)
  have hproposalsEnd : s.examinedAll.endPass.proposals = s.examinedAll.proposals := hend.part .proposals
  have hjobsEnd : s.examinedAll.endPass.jobs = s.examinedAll.jobs := hend.part .jobs
  have howedBefore : s.examinedAll.passOwed = s.passOwed := hexamined.part .passOwed
  exact ⟨_, hexec, fun k => by rw [hjobsEnd], fun i => by rw [hproposalsEnd]; exact hempty i,
    hinProgress.trans howedBefore, howed, (hexamined.trans hend).mono⟩

/-- Where no record of the Job Table changes, the table is the same. -/
theorem keeps_without_jobs {parts : List Part} (h : KeepsAllBut (.jobs :: parts) s t)
    (hjobs : ∀ k : SlotId, t.jobs[k] = s.jobs[k]) : KeepsAllBut parts s t := fun y hy => by
  by_cases hy' : y = .jobs
  · subst hy'
    exact Vector.ext fun i hi => hjobs ⟨i, hi⟩
  · exact h y (by simp [hy', hy])

-- ## A job that no port may claim

/-- A port that passes the model's test may be claimed by R76. -/
theorem mayClaim_of_eligible (h : s.eligible p j = true) : MayClaim s p j := by
  simp only [State.eligible, Bool.and_eq_true, claimable_iff, identCovers_iff, coversNeeds_iff,
    exclusionAllows_iff] at h
  obtain ⟨⟨⟨⟨hup, hready⟩, hident⟩, hexclusion⟩, hentries⟩ := h
  refine ⟨hup, hready, hident, hexclusion, ?_⟩
  unfold State.entriesAllow at hentries
  split at hentries
  · rename_i hnone
    refine .inr fun k e he hej => ?_
    exact List.find?_eq_none.1 hnone k (List.mem_finRange k) ((holdsEntry_iff s k j).2 ⟨e, he, hej⟩)
  · rename_i k hk
    obtain rfl := beq_iff_eq.1 hentries
    have hholds : s.holdsEntry k j = true := List.find?_some (p := fun i => s.holdsEntry i j) hk
    exact .inl ((holdsEntry_iff s k j).1 hholds)

/-- The rows that a search tries: the current one of a pinned ring, every one from the first to the last of another
(R77). -/
theorem tried_of_mem {y : Ring} {m : Nat} (hm : m ∈ y.searchRows) (hfirst : y.first ≤ y.current)
    (hlast : y.current ≤ y.last) : if y.pinned then m = y.current else y.first ≤ m ∧ m ≤ y.last := by
  split
  · rename_i hpinned
    rw [Ring.searchRows, if_pos hpinned] at hm
    exact List.mem_singleton.1 hm
  · exact mem_searchRows hm hfirst hlast

theorem ringSearch_unclaimed (hfirst : s.rings[q].first ≤ s.rings[q].current)
    (hlast : s.rings[q].current ≤ s.rings[q].last)
    (h : ∀ (n : Fin 64) (p : PortId), hasBit s.rows[n] p.val = true →
      (if s.rings[q].pinned then n.val = s.rings[q].current
        else s.rings[q].first ≤ n.val ∧ n.val ≤ s.rings[q].last) → ¬MayClaim s p j) : s.ringSearch q j = none := by
  unfold State.ringSearch
  rw [List.findSome?_eq_none_iff]
  intro m hm
  rw [Option.map_eq_none_iff]
  refine rowPort_none fun p hbit => ?_
  by_cases hlt : m < 64
  · have hrow : hasBit s.rows[(⟨m, hlt⟩ : Fin 64)] p.val = true := by
      rw [← rowSet_val]
      exact hbit
    exact Bool.eq_false_iff.2 fun he => h ⟨m, hlt⟩ p hrow (tried_of_mem hm hfirst hlast) (mayClaim_of_eligible he)
  · rw [rowSet_past (by omega), hasBit_zero] at hbit
    exact absurd hbit (by decide)

-- ## The first test that fails

theorem permits_of_start {d : DispatchState} {x : Job} (h : x.started = true ∨ x.proofRun = true ∨ d = .step ∨
    d = .free ∨ (d = .proof ∧ x.closed = true)) : d.permits x = true := by
  rcases h with h | h | rfl | rfl | ⟨rfl, hclosed⟩
  · exact permits_of_started (by simp [Job.neverStarted, h])
  · exact permits_of_started (by simp [Job.neverStarted, h])
  · rfl
  · rfl
  · simp [DispatchState.permits, hclosed]

theorem kindOf_firstRealStart (d : DispatchState) (x : Job) :
    d.kindOf x = .firstRealStart ↔ x.started = false ∧ x.proofRun = false ∧ d ≠ .proof := by
  by_cases hnever : x.started = false ∧ x.proofRun = false
  · rw [kindOf_neverStarted hnever]
    by_cases hd : d = .proof
    · simp [hd]
    · simp [hd, hnever]
  · rw [kindOf_started hnever]
    simp only [reduceCtorEq, false_iff]
    exact fun h => hnever ⟨h.1, h.2.1⟩

theorem canReserve_eq_false (a : Account) (f : Nat) :
    a.canReserve f = false ↔ a.unmetered = false ∧ a.allowance < a.reserved + f := by
  rw [← Bool.not_eq_true, canReserve_iff, not_or, Bool.not_eq_true, not_le]

theorem drainOk_eq_false (s : State) (j : SlotId) :
    s.drainOk j = false ↔ ∃ p, s.entryPort j = some p ∧ s.claimable p = false := by
  unfold State.drainOk
  cases s.entryPort j with
  | none => simp
  | some p => simp

/-- Tests 6 to 9 of R38, for a job that passes tests 2 to 5: the reason is that of the first test that fails, and the
last one fails when no port of the rows tried may be claimed. -/
theorem examineJob_waits (hstate : s.jobs[j].state = .waiting)
    (hfull : s.jobs[j].closed = true ∨ s.jobs[j].stream = true) (hnext : s.jobs[j].nextPage = some r)
    (hstart : s.jobs[j].started = true ∨ s.jobs[j].proofRun = true ∨ s.queues[q].dispatch = .step ∨
      s.queues[q].dispatch = .free ∨ (s.queues[q].dispatch = .proof ∧ s.jobs[j].closed = true))
    (hfirst : s.rings[q].first ≤ s.rings[q].current) (hlast : s.rings[q].current ≤ s.rings[q].last)
    (hwhy : if s.jobs[j].started = false ∧ s.jobs[j].proofRun = false ∧ s.queues[q].dispatch ≠ .proof ∧
        subBits s.jobs[j].waitSet s.queues[q].received = false then why = .marks
      else if s.accounts[s.jobs[j].account].unmetered = false ∧ s.accounts[s.jobs[j].account].allowance <
        s.accounts[s.jobs[j].account].reserved + s.pages[r].sides then why = .allowance
      else if ∃ p, s.entryPort j = some p ∧ s.claimable p = false then why = .drain
      else why = .route ∧ ∀ (n : Fin 64) (p : PortId), hasBit s.rows[n] p.val = true →
        (if s.rings[q].pinned then n.val = s.rings[q].current
          else s.rings[q].first ≤ n.val ∧ n.val ≤ s.rings[q].last) → ¬MayClaim s p j) :
    s.examineJob q j = .waits why := by
  rw [examineJob_sendable hstate hfull (permits_of_start hstart) hnext]
  simp only [kindOf_firstRealStart, canReserve_eq_false, drainOk_eq_false, and_assoc]
  split at hwhy
  · rename_i hmarks
    rw [if_pos hmarks, hwhy]
  · rename_i hmarks
    rw [if_neg hmarks]
    split at hwhy
    · rename_i hallowance
      rw [if_pos hallowance, hwhy]
    · rename_i hallowance
      rw [if_neg hallowance]
      split at hwhy
      · rename_i hdrain
        rw [if_pos hdrain, hwhy]
      · rename_i hdrain
        obtain ⟨rfl, hrows⟩ := hwhy
        rw [if_neg hdrain, ringSearch_unclaimed hfirst hlast hrows]
        rfl

-- ## The obligation

/-- A pass over the one job of the one queue in RUN, which proposes nothing: the job takes the reason of its verdict. -/
theorem oneJob_silent (hin : s.passInProgress = true) (hrun : s.queues[q].mode = .run)
    (hmodes : ∀ k : QueueId, k ≠ q → s.queues[k].mode ≠ .run) (hlist : s.queues[q].list = [j])
    (hverdict : (s.examineJob q j).proposal? = none) : ∃ t, exec .dispatchPass s = .next t ∧ PassSilent s t ∧
      t.jobs[j] = s.jobs[j].takeReason (s.examineJob q j).reason? ∧ OtherJobsSame j s t := by
  obtain ⟨hnone, hreason⟩ := examined_none hrun fun k hk => by
    rw [hlist, List.mem_singleton] at hk
    rw [hk]
    exact hverdict
  obtain ⟨t, hexec, hsilent⟩ := pass_silent hin fun i => by
    by_cases hi : i = q
    · rw [hi]
      exact hnone
    · exact proposalFor_idle (hmodes i hi)
  have hjobs : ∀ k : SlotId, t.jobs[k] = s.jobs[k].takeReason (s.reasonFor q k) := fun k =>
    (hsilent.jobs k).trans (examinedAll_job fun i hi => reasonFor_idle (hmodes i hi) k)
  refine ⟨t, hexec, hsilent, ?_, fun k hk => ?_⟩
  · rw [hjobs, hreason, if_pos (by rw [hlist]; exact List.mem_singleton_self j)]
  · rw [hjobs, hreason, if_neg (by rw [hlist, List.mem_singleton]; exact hk)]
    rfl

/-- Settles O32: the verdict on the list's one job decides, and no queue proposes. -/
theorem examinationWritesTheFirstFailedTest : Obligations.ExaminationWritesTheFirstFailedTest := by
  refine ⟨fun s hnot => ?_, fun s hin hmodes => ?_, fun s q j hin hrun hmodes hlist =>
    ⟨fun hpassed => ?_, fun r why hstate hfull hnext hstart hwhy hfirst hlast _ => ?_⟩⟩
  · exact congrArg Host.Outcome.next (if_neg (by rw [hnot]; decide))
  · obtain ⟨t, hexec, hsilent⟩ := pass_silent hin fun i => proposalFor_idle (hmodes i)
    refine ⟨t, hexec, hsilent.proposals, hsilent.inProgress, hsilent.owed, keeps_without_jobs hsilent.keeps fun k => ?_⟩
    have hjob := examinedAll_job (q := 0) (k := k) fun i _ => reasonFor_idle (hmodes i) k
    rw [hsilent.jobs, hjob, reasonFor_idle (hmodes 0), Job.takeReason_none]
  · have hover : PassedOver s q j := by
      refine hpassed.imp_right (.imp_right (.imp_left fun hnone => ?_))
      exact Option.eq_none_iff_forall_ne_some.2 hnone
    obtain ⟨hproposal, hreason⟩ := verdict_of_passedOver hover
    obtain ⟨t, hexec, hsilent, hjob, hothers⟩ := oneJob_silent hin hrun hmodes hlist hproposal
    rw [hreason] at hjob
    refine ⟨t, hexec, hsilent.proposals, hsilent.inProgress, hsilent.owed, keeps_without_jobs hsilent.keeps fun k => ?_⟩
    by_cases hk : k = j
    · rw [hk]
      exact hjob
    · exact hothers k hk
  · have hverdict := examineJob_waits hstate hfull hnext hstart hfirst hlast hwhy
    obtain ⟨t, hexec, hsilent, hjob, hothers⟩ := oneJob_silent hin hrun hmodes hlist (by rw [hverdict]; rfl)
    rw [hverdict] at hjob
    exact ⟨t, hexec, hjob, hothers, hsilent.proposals, hsilent.inProgress, hsilent.owed, hsilent.keeps⟩

end Sys2Proof.Machine
end

