-- ==== Sys2Proof/Proofs/FirstStart.lean ====
section
/-! SUPPORT. The first real start of a queue's one job, with the offer or the setup hold that the grant brings (R5, R82,
R92, R93, R101), and the obligation on it. -/

set_option Elab.async false

namespace Sys2Proof.Machine

open Sys2Proof.Safety

variable {s t : State} {j : SlotId} {p : PortId} {q : QueueId} {r : RecordId} {n : Fin 64} {i : Ident}

-- ## The pass

/-- A pass over the one job of the one queue in RUN grants, and leaves what the decided state has, reasons and the asking
for a pass apart. -/
theorem oneJob_granted (hin : s.passInProgress = true) (hmodes : ∀ k : QueueId, k ≠ q → s.queues[k].mode ≠ .run)
    (hlist : s.queues[q].list = [j]) (h : Dispatchable s q j p n r) :
    ∃ t, exec .dispatchPass s = .next t ∧ PassGrants s t q j p n ∧ OtherJobsSame j s t ∧
      SameTests (s.decidedFor q (s.claimOf q j p n.val)) t := by
  have hfront : ∀ k ∈ ([] : List SlotId), (s.examineJob q k).proposal? = none := by simp
  obtain ⟨hproposal, hreason⟩ := examined_first (front := []) (back := []) h hlist hfront
  have hidle : ∀ k : QueueId, s.proposalFor k ≠ none → k = q := fun k hk => by
    by_contra hne
    exact hk (proposalFor_idle (hmodes k hne))
  have hjob : s.examinedAll.jobs[j] = s.jobs[j] := by
    rw [examinedAll_job fun k hk => reasonFor_idle (hmodes k hk) j, hreason, if_neg (by simp), Job.takeReason_none]
  obtain ⟨hfits, d⟩ := decided_of_dispatchable h hjob
  have hnone : (s.decidedFor q (s.claimOf q j p n.val)).proposalFor q = none := by
    refine (examined_none (d.mode.trans (dispatchable_run h)) fun k hk => ?_).1
    rw [d.list, hlist, List.mem_singleton] at hk
    rw [hk]
    exact (verdict_of_passedOver d.owner).1
  have hnamed : ∀ (k : QueueId) (y : Proposal), s.proposalFor k = some y → y.port = p ∧ q ≤ k := fun k y hy => by
    obtain rfl := hidle k (by rw [hy]; simp)
    obtain rfl : s.claimOf k j p n.val = y := Option.some.inj (hproposal.symm.trans hy)
    exact ⟨rfl, le_rfl⟩
  obtain ⟨hpass, -⟩ := pass_onePort hproposal hnamed (passes_of_dispatchable h (by rw [hlist]; simp)) hfits
    fun k hk => by
      obtain rfl := hidle k hk
      exact hnone
  obtain ⟨t, hexec, hgrants, -, -, hothers⟩ :=
    oneQueue_pass (front := []) (back := []) hin hmodes hlist (by simp) h (by simp) (by simp)
  obtain rfl : s.pass.endPass = t := Host.Outcome.next.inj ((exec_dispatchPass hin).symm.trans hexec)
  refine ⟨_, hexec, hgrants, fun k hk => hothers k hk (by simp), ?_⟩
  have hround : SameTests (s.decidedFor q (s.claimOf q j p n.val)) s.pass := by
    rw [hpass]
    exact roundEnd_sameTests s.claimants _
  exact hround.trans (.of_keeps (State.endPass_keeps (s := s.pass)))

-- ## The attempt of the grant

/-- A READY port that gets a feed owner is FEEDING (R90). -/
theorem service_feeding (hready : s.service p = .ready) (halerts : t.alerts = s.alerts)
    (hport : t.ports[p] = { s.ports[p] with feedOwner := some j }) :
    t.service p = .feeding ∧ s.ports[p].inService = true := by
  unfold State.service at hready ⊢
  rw [halerts, hport]
  dsimp only
  split at hready
  · simp at hready
  · rename_i hstop
    rw [if_neg hstop]
    split at hready
    · simp at hready
    · rename_i hstatus
      rw [if_neg hstatus]
      split at hready
      · simp at hready
      · rename_i hsetup
        rw [if_neg hsetup]
        split at hready
        · simp at hready
        · split at hready
          · simp at hready
          · rename_i hservice
            exact ⟨rfl, by simpa using hservice⟩

/-- The state of the grant before its attempt, for the one job of a queue. -/
def State.startClaimed (s : State) (q : QueueId) (j : SlotId) (p : PortId) (n : Fin 64) : State :=
  s.examinedAll.drawn.claimed q (s.claimOf q j p n.val)

theorem decidedFor_eq (s : State) (q : QueueId) (j : SlotId) (p : PortId) (n : Fin 64) :
    s.decidedFor q (s.claimOf q j p n.val) = (s.startClaimed q j p n).offerAttempt p := rfl

theorem startClaimed_keeps (s : State) (q : QueueId) (j : SlotId) (p : PortId) (n : Fin 64) :
    KeepsAllBut [.jobs, .queues, .ports, .rings, .proposals, .freeCount] s (s.startClaimed q j p n) :=
  (((examinedAll_keeps s).trans (drawn_keeps _)).trans (claimed_keeps q _ _)).mono

theorem startClaimed_port (s : State) (q : QueueId) (j : SlotId) (p : PortId) (n : Fin 64) :
    (s.startClaimed q j p n).ports[p] = { s.ports[p] with feedOwner := some j } := by
  have hports : s.examinedAll.drawn.ports = s.ports := ((examinedAll_keeps s).trans (drawn_keeps _)).part .ports
  rw [← hports]
  exact claimed_ports_self q (s.claimOf q j p n.val) s.examinedAll.drawn

/-- The claimed record is the job's own but for the state, the feed and the reason: pages, cursor and account stay. -/
theorem startClaimed_job (s : State) (q : QueueId) (j : SlotId) (p : PortId) (n : Fin 64) : ∃ reason,
    (s.startClaimed q j p n).jobs[j] =
      ({ s.jobs[j] with reason := reason } : Job).claim p (s.queues[q].dispatch.kindOf s.jobs[j]) := by
  have hself : (s.startClaimed q j p n).jobs[j] =
      s.examinedAll.jobs[j].claim p (s.queues[q].dispatch.kindOf s.jobs[j]) :=
    claimed_jobs_self q (s.claimOf q j p n.val) s.examinedAll.drawn
  exact ⟨_, by rw [hself]; exact congrArg (Job.claim p _) ((examinedAll_laws s).1.jobs j)⟩

/-- What an offer reads of the job is what it was before the grant. -/
theorem startClaimed_reads (s : State) (q : QueueId) (j : SlotId) (p : PortId) (n : Fin 64) :
    (s.startClaimed q j p n).jobs[j].pages = s.jobs[j].pages ∧
    (s.startClaimed q j p n).jobs[j].cursorPage = s.jobs[j].cursorPage ∧
    (s.startClaimed q j p n).jobs[j].cursorCopy = s.jobs[j].cursorCopy ∧
    (s.startClaimed q j p n).jobs[j].copies = s.jobs[j].copies ∧
    (s.startClaimed q j p n).jobs[j].closed = s.jobs[j].closed ∧
    (s.startClaimed q j p n).jobs[j].account = s.jobs[j].account ∧
    (s.startClaimed q j p n).jobs[j].nextPage = s.jobs[j].nextPage := by
  obtain ⟨reason, hjob⟩ := startClaimed_job s q j p n
  rw [hjob]
  exact ⟨rfl, rfl, rfl, rfl, rfl, rfl, rfl⟩

/-- The grant's attempt reaches the page: the port feeds, its window is settled, no send is in progress, and the owner is
not sent out. -/
theorem startClaimed_attempts (hup : s.ports[p].link = .up) (hready : s.service p = .ready)
    (hsettled : ∀ e ∈ s.ports[p].window, e.state = .taken) (hsending : s.ports[p].sending = none)
    (hnext : s.jobs[j].nextPage = some r) (q : QueueId) (n : Fin 64) : ¬NoAttempt (s.startClaimed q j p n) p j := by
  have hport := startClaimed_port s q j p n
  obtain ⟨reason, hjob⟩ := startClaimed_job s q j p n
  obtain ⟨hfeeding, hservice⟩ := service_feeding hready ((startClaimed_keeps s q j p n).part .alerts) hport
  obtain ⟨-, hle, -⟩ := nextPage_some hnext
  unfold NoAttempt
  rw [hport, hjob]
  rintro (h | h | h | ⟨e, he, hne⟩ | h | h | ⟨-, h, -⟩)
  · exact h hup
  · exact absurd (h.symm.trans hservice) (by decide)
  · exact h hfeeding
  · exact hne (hsettled e he)
  · exact h hsending
  · exact h rfl
  · exact absurd (show s.jobs[j].pages.length < s.jobs[j].cursorPage from h) (by omega)

/-- Steps 5 to 8 of R92 for a page that the Ident covers and the account can pay for. -/
theorem offerPage_fits (hroom : s.ports[p].window.length < s.ports[p].depth) (hident : s.ports[p].ident = some i)
    (hcovers : i.covers s.pages[r] = true)
    (hreserve : s.accounts[s.jobs[j].account].canReserve s.pages[r].sides = true) : s.offerPage p j r =
      if s.ports[p].loaded ≠ s.pages[r].media then s.beginSetup p s.pages[r].media else s.reservedOffer p j r := by
  rw [offerPage_open (not_le.2 hroom), hident, Option.map_some, Option.getD_some, hcovers, if_neg (by decide),
    if_pos hreserve]

/-- With the page's media loaded the grant offers the page; else it begins a setup hold (R92, R93, R101). -/
theorem startClaimed_outcome (hup : s.ports[p].link = .up) (hready : s.service p = .ready)
    (hsettled : ∀ e ∈ s.ports[p].window, e.state = .taken) (hsending : s.ports[p].sending = none)
    (hroom : s.ports[p].window.length < s.ports[p].depth) (hnext : s.jobs[j].nextPage = some r)
    (hident : s.ports[p].ident = some i) (hcovers : i.covers s.pages[r] = true)
    (hallow : s.accounts[s.jobs[j].account].unmetered = true ∨
      s.accounts[s.jobs[j].account].reserved + s.pages[r].sides ≤ s.accounts[s.jobs[j].account].allowance)
    (q : QueueId) (n : Fin 64) : s.decidedFor q (s.claimOf q j p n.val) =
      if s.ports[p].loaded ≠ s.pages[r].media then (s.startClaimed q j p n).beginSetup p s.pages[r].media
      else (s.startClaimed q j p n).reservedOffer p j r := by
  have hattempts := startClaimed_attempts hup hready hsettled hsending hnext q n
  have hport := startClaimed_port s q j p n
  have hkeeps := startClaimed_keeps s q j p n
  obtain ⟨-, -, -, -, -, haccount, hpage⟩ := startClaimed_reads s q j p n
  rw [decidedFor_eq]
  generalize s.startClaimed q j p n = c at hattempts hport hkeeps haccount hpage ⊢
  have hpages : c.pages = s.pages := hkeeps.part .pages
  have haccounts : c.accounts = s.accounts := hkeeps.part .accounts
  have hcroom : c.ports[p].window.length < c.ports[p].depth := by
    rw [hport]
    exact hroom
  have hcident : c.ports[p].ident = some i := by
    rw [hport]
    exact hident
  have hreserve : c.accounts[c.jobs[j].account].canReserve c.pages[r].sides = true := by
    simp only [haccount, haccounts, hpages]
    exact (canReserve_iff _ _).2 hallow
  rw [offerAttempt_page (by rw [hport]) hattempts (hpage.trans hnext),
    offerPage_fits hcroom hcident (by rw [hpages]; exact hcovers) hreserve, hport, hpages]

/-- The cursor behind the offer of a page of a closed job for real (R6). -/
theorem advance_cursor {x : Job} (hclosed : x.closed = true) (hproof : x.proofRun = false) (hnext : x.nextPage = some r) :
    (x.advance.cursorCopy, x.advance.cursorPage) =
      if x.cursorPage = x.pages.length ∧ x.cursorCopy < x.copies then (x.cursorCopy + 1, 1)
      else (x.cursorCopy, x.cursorPage + 1) := by
  rw [advance_of_nextPage hnext]
  by_cases hlast : x.cursorPage = x.pages.length ∧ x.cursorCopy < x.copies
  · rw [if_pos ⟨hlast.1.symm, hclosed, hproof, hlast.2⟩, if_pos hlast]
  · rw [if_neg fun ⟨hend, _, _, hcopy⟩ => hlast ⟨hend.symm, hcopy⟩, if_neg hlast]

-- ## The obligation

/-- What a pass that granted and offered shows of the port, the account, the press log and the cursor. -/
theorem shown_of_offer (hg : SameTests ((s.startClaimed q j p n).reservedOffer p j r) t)
    (hclosed : s.jobs[j].closed = true) (hproof : s.jobs[j].proofRun = false)
    (hkind : s.queues[q].dispatch.kindOf s.jobs[j] = .firstRealStart) (hnext : s.jobs[j].nextPage = some r) :
    t.accounts[s.jobs[j].account] = { s.accounts[s.jobs[j].account] with
      reserved := s.accounts[s.jobs[j].account].reserved + s.pages[r].sides } ∧
    OtherAccountsSame s.jobs[j].account s t ∧
    t.ports[p].window = s.ports[p].window ++
      [{ serial := s.ports[p].nextSerial, job := j, place := s.jobs[j].cursorPage, copy := s.jobs[j].cursorCopy
         faces := s.pages[r].sides, colour := s.pages[r].colour, state := .streaming, ended := false }] ∧
    t.ports[p].nextSerial = s.ports[p].nextSerial + 1 ∧
    t.ports[p].sending = some s.ports[p].nextSerial ∧
    t.pressLog = s.pressLog ++ [(p, .offer s.ports[p].nextSerial (u8 j.val) (u8 s.jobs[j].cursorCopy)
      s.pages[r].attr s.pages[r].length)] ∧
    (t.jobs[j].cursorCopy, t.jobs[j].cursorPage) =
      if s.jobs[j].cursorPage = s.jobs[j].pages.length ∧ s.jobs[j].cursorCopy < s.jobs[j].copies then
        (s.jobs[j].cursorCopy + 1, 1)
      else (s.jobs[j].cursorCopy, s.jobs[j].cursorPage + 1) := by
  obtain ⟨hplaces, hpage, hcopy, hcopies, hfull, haccount, hsendable⟩ := startClaimed_reads s q j p n
  have hreal : (s.startClaimed q j p n).jobs[j].proofRun = false := by
    obtain ⟨reason, hjob⟩ := startClaimed_job s q j p n
    rw [hjob, hkind]
    exact (Bool.or_false _).trans hproof
  have hkeeps := startClaimed_keeps s q j p n
  have hfeed := startClaimed_port s q j p n
  generalize s.startClaimed q j p n = c at hg hplaces hpage hcopy hcopies hfull haccount hsendable hreal hkeeps hfeed
  have hpages : c.pages = s.pages := hkeeps.part .pages
  have haccounts : c.accounts = s.accounts := hkeeps.part .accounts
  have hlog : c.pressLog = s.pressLog := hkeeps.part .pressLog
  have htlog : t.pressLog = (c.reservedOffer p j r).pressLog := hg.keeps.part .pressLog
  have hport : t.ports[p] = (c.reservedOffer p j r).ports[p] := by rw [hg.ports]
  rw [reservedOffer_ports_self, hfeed, hpage, hcopy, hpages] at hport
  have hcursor := advance_cursor (hfull.trans hclosed) hreal (hsendable.trans hnext)
  rw [hplaces, hpage, hcopy, hcopies] at hcursor
  have hsent : (c.reservedOffer p j r).pressLog = c.pressLog ++ [(p, .offer c.ports[p].nextSerial (u8 j.val)
    (u8 c.jobs[j].cursorCopy) c.pages[r].attr c.pages[r].length)] := rfl
  refine ⟨?_, fun a ha => ?_, by rw [hport], by rw [hport], by rw [hport], ?_, ?_⟩
  · rw [hg.accounts, reservedOffer_accounts, haccount, State.updAccount_accounts_self, haccounts, hpages]
    rfl
  · rw [hg.accounts, reservedOffer_accounts, haccount, State.updAccount_accounts_ne _ _ _ _ ha, haccounts]
  · rw [htlog, hsent, hlog, hfeed, hcopy, hpages]
  · rw [hg.jobs j, reservedOffer_jobs_self]
    exact hcursor

/-- What a pass that granted and began a setup hold shows. -/
theorem shown_of_setup {m : Media} (hg : SameTests ((s.startClaimed q j p n).beginSetup p m) t) :
    t.accounts = s.accounts ∧ t.ports[p].window = s.ports[p].window ∧ t.ports[p].setup = some m ∧
    t.ports[p].stallReported = false ∧
    t.ports[p].setupTimer = some (s.clock + BitVec.ofNat 32 (10 * s.timers.setupStall)) ∧
    t.pressLog = s.pressLog ++ [(p, .setup m)] ∧
    (t.jobs[j].cursorCopy, t.jobs[j].cursorPage) = (s.jobs[j].cursorCopy, s.jobs[j].cursorPage) := by
  obtain ⟨-, hpage, hcopy, -⟩ := startClaimed_reads s q j p n
  have hkeeps := startClaimed_keeps s q j p n
  have hfeed := startClaimed_port s q j p n
  generalize s.startClaimed q j p n = c at hg hpage hcopy hkeeps hfeed
  have hclock : c.clock = s.clock := hkeeps.part .clock
  have htimers : c.timers = s.timers := hkeeps.part .timers
  have hlog : c.pressLog = s.pressLog := hkeeps.part .pressLog
  have htlog : t.pressLog = (c.beginSetup p m).pressLog := hg.keeps.part .pressLog
  have hsent : (c.beginSetup p m).pressLog = c.pressLog ++ [(p, .setup m)] := rfl
  have hport : t.ports[p] = (c.beginSetup p m).ports[p] := by rw [hg.ports]
  rw [beginSetup_ports_self, hfeed, hclock, htimers] at hport
  refine ⟨hg.accounts.trans (hkeeps.part .accounts), by rw [hport], by rw [hport], by rw [hport], by rw [hport], ?_, ?_⟩
  · rw [htlog, hsent, hlog]
  · rw [hg.jobs j, ← hpage, ← hcopy]
    rfl

/-- Settles O30: the pass is the one of `oneJob_granted`, and its grant's attempt the one of `startClaimed_outcome`. -/
theorem dispatchPassStartsAJob : Obligations.DispatchPassStartsAJob := by
  intro s q j p n r i hin hrun hmodes hdispatch hlist hstate hqueue hstarted hproof hclosed hmarks hexclusion hentries
    hcursor hplace hallow hcurrent hlast hbit hlower hup hready hident hneeds hcovers hroom hsettled hsending
  have hnext : s.jobs[j].nextPage = some r := by
    rw [Job.nextPage, Job.pageAt, if_neg (by omega), hplace]
    rfl
  have hnone : ∀ (k : PortId) (e : SendEntry), e ∈ s.ports[k].window → e.job = j → k = p := fun k e he hej => by
    have hholds := (hasEntries_iff_exists s j).2 ⟨k, e, he, hej⟩
    exact absurd (hentries.symm.trans hholds) (by decide)
  have h : Dispatchable s q j p n r :=
    ⟨hrun, hstate, hqueue, .inl hclosed, hnext, .inr (.inr (.inl ⟨hdispatch, hmarks⟩)), hallow, hnone,
      fun x hx => absurd (hexclusion.symm.trans hx) (by simp), hup, hready, ⟨i, hident, hneeds, hcovers⟩, hbit, hlower,
      hcurrent.le, hcurrent ▸ hlast, fun _ => hcurrent.symm, fun m k hm hm' => absurd hm' (by omega)⟩
  obtain ⟨t, hexec, hgrants, hothers, hdecided⟩ := oneJob_granted hin hmodes hlist h
  rw [startClaimed_outcome hup hready hsettled hsending hroom hnext hident hcovers hallow q n] at hdecided
  have hproofless : s.queues[q].dispatch ≠ .proof := by
    rcases hdispatch with hd | hd <;> rw [hd] <;> decide
  have hkind : s.queues[q].dispatch.kindOf s.jobs[j] = .firstRealStart :=
    (kindOf_firstRealStart _ _).2 ⟨hstarted, hproof, hproofless⟩
  obtain ⟨hgrant, howner, hring, -⟩ := hgrants.granted
  obtain ⟨hjob, hqueueAfter⟩ := hgrant true false
    (by rw [hstarted, hproof]; simpa using hproofless) (by rw [hstarted, hproof]; simpa using hproofless)
  refine ⟨t, hexec, ?_, ?_, ?_, ?_, ?_, ?_, hothers, howner, hgrants.ports, ?_, hgrants.queues, ?_, hgrants.rings,
    hgrants.proposals, hgrants.passes.1, hgrants.passes.2, fun hmedia => ?_, fun hmedia => ?_, hgrants.keeps⟩
  · rw [hjob]
  · rw [hjob]
  · rw [hjob]
  · rw [hjob]
    exact Bool.or_true _
  · rw [hjob]
    exact (Bool.or_false _).trans hproof
  · rw [hjob]
  · rw [hqueueAfter]
    simp
  · rw [hring, hcurrent]
  · rw [if_neg (not_not_intro hmedia)] at hdecided
    exact shown_of_offer hdecided hclosed hproof hkind hnext
  · rw [if_pos hmedia] at hdecided
    exact shown_of_setup hdecided

end Sys2Proof.Machine
end

