-- ==== Sys2Proof/Proofs/StoreView.lean ====
section
/-! SUPPORT. What the Page Store reads of a state (Chapter 3): each job's pages and Needs, the page records, the free
pool and the DRAM's bytes. One lemma for each operation that changes job records and leaves all of this as it is. -/

set_option Elab.async false

namespace Sys2Proof.Machine

open Sys2Proof.Safety

/-- What the Page Store reads and writes of a job record (R1, R52, R58). -/
@[ext] structure Holding where
  pages : List (Option RecordId)
  filling : Option RecordId
  needsMedia : MediaSet
  needsColour : Bool
  needsDuplex : Bool

/-- The Page Store's part of a state. -/
@[ext] structure StoreView where
  holding : SlotId → Holding
  pages : Vector PageRecord 4096
  freePool : List Nat
  dram : List Host.Cell

def Job.holding (x : Job) : Holding where
  pages := x.pages
  filling := x.filling
  needsMedia := x.needsMedia
  needsColour := x.needsColour
  needsDuplex := x.needsDuplex

def State.store (s : State) : StoreView where
  holding j := s.jobs[j].holding
  pages := s.pages
  freePool := s.freePool
  dram := s.dram

variable {s t : State} {parts : List Part}

-- ## The Page Store's part of the updates

/-- What changes none of the four parts leaves the Page Store as it is. -/
theorem State.store_of_keeps (h : KeepsAllBut parts s t) (hj : Part.jobs ∉ parts := by decide)
    (hp : Part.pages ∉ parts := by decide) (hf : Part.freePool ∉ parts := by decide)
    (hd : Part.dram ∉ parts := by decide) : t.store = s.store := by
  have ej : t.jobs = s.jobs := h .jobs hj
  have ep : t.pages = s.pages := h .pages hp
  have ef : t.freePool = s.freePool := h .freePool hf
  have ed : t.dram = s.dram := h .dram hd
  simp only [State.store, ej, ep, ef, ed]

/-- What changes the job records, but no page, filling page or Need, leaves the Page Store as it is. -/
theorem State.store_of_holding (h : KeepsAllBut parts s t) (hj : ∀ j : SlotId, t.jobs[j].holding = s.jobs[j].holding)
    (hp : Part.pages ∉ parts := by decide) (hf : Part.freePool ∉ parts := by decide)
    (hd : Part.dram ∉ parts := by decide) : t.store = s.store :=
  StoreView.ext (funext hj) (h .pages hp) (h .freePool hf) (h .dram hd)

theorem State.store_holding (h : t.store = s.store) (j : SlotId) : t.jobs[j].holding = s.jobs[j].holding :=
  congrArg (fun v => v.holding j) h

theorem State.store_pages (h : t.store = s.store) : t.pages = s.pages := congrArg StoreView.pages h

theorem State.store_freePool (h : t.store = s.store) : t.freePool = s.freePool := congrArg StoreView.freePool h

theorem State.store_dram (h : t.store = s.store) : t.dram = s.dram := congrArg StoreView.dram h

variable (s)

/-- A change of a job record that the Page Store does not read. -/
@[simp] theorem State.updJob_store (j : SlotId) {f : Job → Job} (h : ∀ x, (f x).holding = x.holding) :
    (s.updJob j f).store = s.store := by
  refine State.store_of_holding (s.updJob_keeps j f) fun k => ?_
  by_cases hk : k = j
  · subst hk
    rw [State.updJob_jobs_self]
    exact h _
  · rw [State.updJob_jobs_ne _ _ _ _ hk]

@[simp] theorem State.updPort_store (p : PortId) (f : Port → Port) : (s.updPort p f).store = s.store := rfl
@[simp] theorem State.updQueue_store (q : QueueId) (f : Queue → Queue) : (s.updQueue q f).store = s.store := rfl
@[simp] theorem State.updAccount_store (a : AccountId) (f : Account → Account) : (s.updAccount a f).store = s.store := rfl
@[simp] theorem State.updAlert_store (a : AlertId) (f : AlertSlot → AlertSlot) : (s.updAlert a f).store = s.store := rfl
@[simp] theorem State.updProposal_store (q : QueueId) (f : Option Proposal → Option Proposal) :
    (s.updProposal q f).store = s.store := rfl
@[simp] theorem State.press_store (p : PortId) (m : PressMessage) : (s.press p m).store = s.store := rfl
@[simp] theorem State.popInbox_store : s.popInbox.store = s.store := rfl
@[simp] theorem State.placeReply_store (f : HostFrame) : (s.placeReply f).store = s.store := rfl

@[simp] theorem State.ask_store : s.ask.store = s.store := State.store_of_keeps s.ask_keeps

@[simp] theorem State.askIfRun_store (q : QueueId) : (s.askIfRun q).store = s.store :=
  State.store_of_keeps (s.askIfRun_keeps q)

@[simp] theorem State.askIfClaimable_store (p : PortId) : (s.askIfClaimable p).store = s.store :=
  State.store_of_keeps (s.askIfClaimable_keeps p)

@[simp] theorem State.askIfBecame_store (p : PortId) (b : State) : (s.askIfBecame p b).store = s.store :=
  State.store_of_keeps (s.askIfBecame_keeps p b)

@[simp] theorem State.flagPort_store (p : PortId) (f : PortFlag) : (s.flagPort p f).store = s.store :=
  State.store_of_keeps (s.flagPort_keeps p f)

@[simp] theorem State.deliverGives_store (j : SlotId) : (s.deliverGives j).store = s.store :=
  State.store_of_keeps (s.deliverGives_keeps j)

@[simp] theorem State.releaseFaces_store (e : SendEntry) : (s.releaseFaces e).store = s.store :=
  State.store_of_keeps (s.releaseFaces_keeps e)

@[simp] theorem State.goDown_store (p : PortId) (c : DownCause) : (s.goDown p c).store = s.store :=
  State.store_of_keeps (s.goDown_keeps p c)

@[simp] theorem State.holdTest_store (p : PortId) : (s.holdTest p).store = s.store :=
  State.store_of_keeps (s.holdTest_keeps p)

@[simp] theorem State.feedReleased_store (p : PortId) : (s.feedReleased p).store = s.store :=
  State.store_of_keeps (s.feedReleased_keeps p)

@[simp] theorem State.pressAll_store (p : PortId) (ms : List PressMessage) : (s.pressAll p ms).store = s.store := rfl

@[simp] theorem State.stopSend_store (p : PortId) : (s.stopSend p).store = s.store :=
  State.store_of_keeps (s.stopSend_keeps p)

@[simp] theorem State.stopSendOf_store (p : PortId) (e : SendEntry) : (s.stopSendOf p e).store = s.store :=
  State.store_of_keeps (s.stopSendOf_keeps p e)

@[simp] theorem State.dropEntry_store (p : PortId) (e : SendEntry) : (s.dropEntry p e).store = s.store :=
  State.store_of_keeps (s.dropEntry_keeps p e)

@[simp] theorem State.abortStreaming_store (p : PortId) : (s.abortStreaming p).store = s.store :=
  State.store_of_keeps (s.abortStreaming_keeps p)

@[simp] theorem State.beginSetup_store (p : PortId) (m : Media) : (s.beginSetup p m).store = s.store :=
  State.store_of_keeps (s.beginSetup_keeps p m)

@[simp] theorem State.raiseStop_store (p : PortId) (k : AlertKind) (l : Byte) : (s.raiseStop p k l).store = s.store :=
  State.store_of_keeps (s.raiseStop_keeps p k l)

@[simp] theorem State.closeSlot_store (a : AlertId) : (s.closeSlot a).store = s.store :=
  State.store_of_keeps (s.closeSlot_keeps a)

@[simp] theorem State.waitEvent_store (p : PortId) (k l : KindSet) : (s.waitEvent p k l).store = s.store :=
  State.store_of_keeps (s.waitEvent_keeps p k l)

@[simp] theorem State.settleWindow_store (p : PortId) : (s.settleWindow p).store = s.store :=
  State.store_of_keeps (s.settleWindow_keeps p)

@[simp] theorem State.listAffected_store (p : PortId) (j : SlotId) : (s.listAffected p j).store = s.store :=
  State.store_of_keeps (s.listAffected_keeps p j)

@[simp] theorem State.enterProbing_store (p : PortId) : (s.enterProbing p).store = s.store :=
  State.store_of_keeps (s.enterProbing_keeps p)

@[simp] theorem State.endSetup_store (p : PortId) : (s.endSetup p).store = s.store :=
  State.store_of_keeps (s.endSetup_keeps p)

@[simp] theorem State.reportStall_store (p : PortId) : (s.reportStall p).store = s.store :=
  State.store_of_keeps (s.reportStall_keeps p)

@[simp] theorem State.comeUp_store (p : PortId) (r : Rate) (d : Nat) : (s.comeUp p r d).store = s.store :=
  State.store_of_keeps (s.comeUp_keeps p r d)

@[simp] theorem State.hear_store (p : PortId) : (s.hear p).store = s.store := rfl

/-- Operations that leave the Page Store as it is leave it so one after the other. -/
theorem State.foldl_store {α : Type} {f : State → α → State} (h : ∀ t x, (f t x).store = t.store) (xs : List α) :
    (xs.foldl f s).store = s.store := by
  induction xs generalizing s with
  | nil => rfl
  | cons x xs ih => exact (ih (f s x)).trans (h s x)

-- ## Changes of a job's record

theorem Job.rewind_holding (copy place : Nat) (x : Job) : (x.rewind copy place).holding = x.holding := by
  unfold Job.rewind
  split
  · rfl
  · split <;> rfl

theorem Job.advance_holding (x : Job) : x.advance.holding = x.holding := by
  unfold Job.advance
  split <;> rfl

theorem Job.close_holding (x : Job) : x.close.holding = x.holding := by
  unfold Job.close
  split <;> rfl

theorem Job.dropExclusion_holding (p : PortId) (x : Job) : (x.dropExclusion p).holding = x.holding := by
  unfold Job.dropExclusion
  split <;> rfl

@[simp] theorem State.flagJob_store (j : SlotId) (f : JobFlag) : (s.flagJob j f).store = s.store := by
  refine State.store_of_holding (s.flagJob_keeps j f) fun k => ?_
  by_cases hk : k = j
  · subst hk
    rw [Fin.getElem_fin, State.flagJob_jobs_val]
    rfl
  · rw [State.flagJob_jobs_ne _ _ _ _ hk]

@[simp] theorem State.makeWaiting_store (j : SlotId) (r : WaitReason) : (s.makeWaiting j r).store = s.store := by
  rw [State.makeWaiting, State.askIfRun_store]
  exact s.updJob_store j fun _ => rfl

@[simp] theorem State.releaseFeed_store (p : PortId) (j : SlotId) : (s.releaseFeed p j).store = s.store :=
  (State.updJob_store _ j (f := fun x => { x with feedPort := none }) fun _ => rfl).trans (s.updPort_store p _)

@[simp] theorem State.releaseIfOwner_store (p : PortId) (j : SlotId) : (s.releaseIfOwner p j).store = s.store := by
  unfold State.releaseIfOwner
  split
  · exact s.releaseFeed_store p j
  · rfl

@[simp] theorem State.rewindTo_store (j : SlotId) (es : List SendEntry) : (s.rewindTo j es).store = s.store := by
  unfold State.rewindTo
  split
  · rfl
  · exact s.updJob_store j fun x => x.rewind_holding _ _

-- ## Completion and cancelling

@[simp] theorem State.completeJob_store (j : SlotId) : (s.completeJob j).store = s.store := by
  unfold State.completeJob
  split
  · rw [State.completeProof, State.makeWaiting_store, State.flagJob_store]
    exact s.updJob_store j fun _ => rfl
  · rw [State.becomeDone, State.flagJob_store, State.deliverGives_store]
    exact s.updJob_store j fun _ => rfl

@[simp] theorem State.afterSheet_store (j : SlotId) : (s.afterSheet j).store = s.store := by
  unfold State.afterSheet
  split
  · rfl
  · split <;> simp

@[simp] theorem State.afterRemoval_store (j : SlotId) : (s.afterRemoval j).store = s.store := by
  unfold State.afterRemoval
  split
  · rfl
  · split <;> simp

theorem handedFeed_store (j : SlotId) : (s.handedFeed j).store = s.store := by
  have hstate : (s.updJob j (Job.enter .handed)).store = s.store := s.updJob_store j fun _ => rfl
  unfold State.handedFeed
  split
  · exact hstate
  · rw [State.feedReleased_store, State.releaseFeed_store, hstate]

theorem handedOver_store (j : SlotId) : (s.handedOver j).store = s.store := by
  unfold State.handedOver
  split
  · rw [State.flagJob_store, handedFeed_store]
  · exact handedFeed_store s j

@[simp] theorem State.handedTest_store (j : SlotId) : (s.handedTest j).store = s.store := by
  by_cases h : (s.jobs[j].state = .active ∨ s.jobs[j].state = .starved ∨ s.jobs[j].state = .waiting) ∧
      s.jobs[j].sentOut = true ∧ s.hasUnsettled j = false
  · obtain ⟨hstate, hout, hsettled⟩ := h
    rw [handedTest_fires hstate hout hsettled]
    split
    · exact handedOver_store s j
    · rw [State.completeJob_store, handedOver_store]
  · exact congrArg State.store (if_neg h)

@[simp] theorem State.cancelJob_store (j : SlotId) : (s.cancelJob j).store = s.store := by
  have hstate : (s.updJob j (Job.enter .cancelling)).store = s.store := s.updJob_store j fun _ => rfl
  unfold State.cancelJob
  cases s.jobs[j].feedPort <;> dsimp only <;> split <;> simp [hstate]

-- ## Offers

@[simp] theorem State.offer_store (p : PortId) (j : SlotId) (r : RecordId) : (s.offer p j r).store = s.store := by
  rw [State.offer, State.press_store, State.updJob_store _ j Job.advance_holding, State.updPort_store]

@[simp] theorem State.starve_store (p : PortId) (j : SlotId) : (s.starve p j).store = s.store :=
  (State.updPort_store _ p _).trans (s.updJob_store j fun _ => rfl)

@[simp] theorem State.offerPage_store (p : PortId) (j : SlotId) (r : RecordId) : (s.offerPage p j r).store = s.store := by
  unfold State.offerPage
  dsimp only
  repeat' split
  all_goals simp

@[simp] theorem State.offerAttempt_store (p : PortId) : (s.offerAttempt p).store = s.store := by
  unfold State.offerAttempt
  repeat' split
  all_goals simp

theorem woken_store (p : PortId) (j : SlotId) : (s.woken p j).store = s.store :=
  (State.updPort_store _ p _).trans (s.updJob_store j fun _ => rfl)

@[simp] theorem State.wake_store (j : SlotId) : (s.wake j).store = s.store := by
  by_cases h : s.jobs[j].state = .starved ∧ s.jobs[j].nextPage.isSome
  · cases hp : s.jobs[j].feedPort with
    | none =>
      unfold State.wake
      rw [if_pos h, hp]
    | some p => rw [wake_fires h.1 h.2 hp, State.offerAttempt_store, woken_store]
  · rw [wake_stays h]

@[simp] theorem State.afterSeal_store (j : SlotId) : (s.afterSeal j).store = s.store := by
  unfold State.afterSeal
  repeat' split
  all_goals simp

-- ## Stops

@[simp] theorem State.stopState_store (j : SlotId) : (s.stopState j).store = s.store := by
  unfold State.stopState
  repeat' split
  all_goals simp

@[simp] theorem State.excludeJob_store (p : PortId) (j : SlotId) : (s.excludeJob p j).store = s.store :=
  s.updJob_store j fun _ => rfl

@[simp] theorem State.flagReroute_store (j : SlotId) : (s.flagReroute j).store = s.store := by
  unfold State.flagReroute
  split <;> simp

@[simp] theorem State.stopJob_store (p : PortId) (es : List SendEntry) (j : SlotId) :
    (s.stopJob p es j).store = s.store := by simp [State.stopJob]

@[simp] theorem State.settleStop_store (p : PortId) : (s.settleStop p).store = s.store :=
  (State.foldl_store _ (fun t j => t.stopJob_store p _ j) _).trans (s.settleWindow_store p)

@[simp] theorem State.dropExclusions_store (p : PortId) : (s.dropExclusions p).store = s.store := by
  unfold State.dropExclusions
  split
  · rw [State.ask_store]
    refine StoreView.ext (funext fun j => ?_) rfl rfl rfl
    simp only [State.store, Fin.getElem_fin, mapTable_getElem]
    exact Job.dropExclusion_holding p _
  · rfl

@[simp] theorem State.closeStop_store (p : PortId) : (s.closeStop p).store = s.store := by simp [State.closeStop]

@[simp] theorem State.confirmAttendant_store (p : PortId) : (s.confirmAttendant p).store = s.store := by
  unfold State.confirmAttendant
  dsimp only
  split <;> simp

@[simp] theorem State.hostRelease_store (p : PortId) : (s.hostRelease p).store = s.store := by
  unfold State.hostRelease
  dsimp only
  split <;> simp

@[simp] theorem State.bringUp_store (p : PortId) (i : Ident) (m : Media) (c : Bool) :
    (s.bringUp p i m c).store = s.store := by
  unfold State.bringUp
  dsimp only
  repeat' split
  all_goals simp

-- ## Dispatch

theorem State.walk_store (q : QueueId) (js : List SlotId) : (State.walk q js s).1.store = s.store := by
  induction js generalizing s with
  | nil => rfl
  | cons j rest ih =>
    unfold State.walk
    split
    · exact ih s
    · exact (ih _).trans (s.updJob_store j fun _ => rfl)
    · rfl

@[simp] theorem State.examine_store (q : QueueId) : (s.examine q).store = s.store := by
  unfold State.examine
  split
  · exact s.walk_store q _
  · rfl

theorem claimed_store (q : QueueId) (x : Proposal) : (s.claimed q x).store = s.store := by
  refine State.store_of_holding (claimed_keeps q x s) fun k => ?_
  by_cases hk : k = x.slot
  · subst hk
    rw [claimed_jobs_self]
    rfl
  · rw [claimed_jobs_ne hk]

@[simp] theorem State.decide_store (p : PortId) : (s.decide p).store = s.store := by
  unfold State.decide
  split
  · rfl
  · rename_i q x _
    rw [grant_eq, State.offerAttempt_store, claimed_store]

@[simp] theorem State.round_store : s.round.store = s.store := by
  have hdecided := s.drawn.foldl_store (fun t p => t.decide_store p) s.decisionOrder
  have hemptied := fun u : State => u.foldl_store (fun t q => t.updProposal_store q (fun _ => none)) s.proposers
  have hexamined := fun u : State => u.foldl_store (f := fun t q => t.examineAgain q)
    (fun t q => by simp [State.examineAgain]) s.proposers
  exact ((hexamined _).trans (hemptied _)).trans hdecided

@[simp] theorem State.pass_store : s.pass.store = s.store := by
  have hrounds : ∀ (n : Nat) (u : State), (State.rounds n u).store = u.store := by
    intro n
    induction n with
    | zero => exact fun _ => rfl
    | succ n ih =>
      intro u
      unfold State.rounds
      split
      · rfl
      · rw [ih, State.round_store]
  rw [pass_eq, hrounds, State.examinedAll]
  exact s.foldl_store (fun t q => t.examine_store q) _

@[simp] theorem State.endPass_store : s.endPass.store = s.store := State.store_of_keeps s.endPass_keeps

-- ## Ports

@[simp] theorem State.serviceRelease_store (p : PortId) (j : SlotId) : (s.serviceRelease p j).store = s.store := by
  simp [State.serviceRelease]

@[simp] theorem State.serviceOut_store (p : PortId) (hold : Bool) : (s.serviceOut p hold).store = s.store := by
  unfold State.serviceOut
  dsimp only
  repeat' split
  all_goals simp

@[simp] theorem State.serviceIn_store (p : PortId) : (s.serviceIn p).store = s.store := by
  unfold State.serviceIn
  dsimp only
  repeat' split
  all_goals simp

@[simp] theorem State.resetJob_store (j : SlotId) : (s.resetJob j).store = s.store := by
  unfold State.resetJob
  repeat' split
  all_goals simp

@[simp] theorem State.resetWindow_store (p : PortId) : (s.resetWindow p).store = s.store := by
  rw [State.resetWindow, State.foldl_store _ (fun t j => t.rewindTo_store j _)]
  simp

@[simp] theorem State.resetJobs_store (p : PortId) (es : List SendEntry) (owner : Option SlotId) :
    (s.resetJobs p es owner).store = s.store := by
  unfold State.resetJobs
  rw [State.foldl_store _ (fun t j => t.resetJob_store j)]
  cases owner <;> simp

@[simp] theorem State.portReset_store (p : PortId) : (s.portReset p).store = s.store := by simp [State.portReset]

@[simp] theorem State.starveExpiry_store (p : PortId) : (s.starveExpiry p).store = s.store := by
  unfold State.starveExpiry
  split <;> simp

@[simp] theorem State.sendEnd_store (p : PortId) (e : SendEntry) : (s.sendEnd p e).store = s.store := by
  simp [State.sendEnd]

-- ## Jobs and queues

@[simp] theorem State.haltJob_store (j : SlotId) : (s.haltJob j).store = s.store := by
  have hstate : (s.updJob j fun x => { x with state := .waiting, reason := some .halt }).store = s.store :=
    s.updJob_store j fun _ => rfl
  unfold State.haltJob
  split
  · dsimp only
    split <;> simp [hstate]
  · rfl

@[simp] theorem State.enterHalt_store (q : QueueId) : (s.enterHalt q).store = s.store :=
  (State.foldl_store _ (fun t j => t.haltJob_store j) _).trans (s.updQueue_store q _)

@[simp] theorem State.moveJob_store (j : SlotId) (q : QueueId) (pos : Position) :
    (s.moveJob j q pos).store = s.store := by
  have hqueue : ∀ t : State, (t.updJob j fun x => { x with queue := q }).store = t.store :=
    fun t => t.updJob_store j fun _ => rfl
  simp [State.moveJob, hqueue]

-- ## The printers' messages

@[simp] theorem State.takenPassed_store (p : PortId) (e : SendEntry) : (s.takenPassed p e).store = s.store := by
  unfold State.takenPassed State.owedRelease
  split <;> simp

@[simp] theorem State.abortedPassed_store (p : PortId) (e : SendEntry) : (s.abortedPassed p e).store = s.store := by
  simp [State.abortedPassed, Job.rewind_holding]

@[simp] theorem State.refusePassed_store (p : PortId) (reason : Byte) (e : SendEntry) :
    (s.refusePassed p reason e).store = s.store := by
  have hrefused : ∀ t : State, (t.updJob e.job (Job.refuse reason)).store = t.store :=
    fun t => t.updJob_store e.job fun _ => rfl
  simp [State.refusePassed, Job.rewind_holding, hrefused]

@[simp] theorem State.cancelTaken_store (p : PortId) : (s.cancelTaken p).store = s.store := by
  unfold State.cancelTaken
  repeat' split
  all_goals simp

@[simp] theorem State.clearedTaken_store (p : PortId) : (s.clearedTaken p).store = s.store := by
  unfold State.clearedTaken
  split <;> simp

@[simp] theorem State.statusTaken_store (p : PortId) (r : ReasonSet) : (s.statusTaken p r).store = s.store := by
  unfold State.statusTaken
  dsimp only
  repeat' split
  all_goals simp

@[simp] theorem State.setupTaken_store (p : PortId) (m : Media) : (s.setupTaken p m).store = s.store := by
  unfold State.setupTaken State.setupEnds State.wrongMedia
  dsimp only
  repeat' split
  all_goals simp

end Sys2Proof.Machine
end

