-- ==== Sys2Proof/Proofs/StoreSound.lean ====
section
/-! SUPPORT. The Page Store's invariant in two halves (R50 to R52): the blocks, the chains and the DRAM, and the owners of
the held records; and what the store's own operations (R53 to R65) keep of each. -/

set_option Elab.async false

namespace Sys2Proof.Machine

open Sys2Proof.Safety

variable {s t : State} {j : SlotId} {r : RecordId} {place : Nat}

-- ## What the store's operations make of a record and a job

/-- The record of a page just begun for job `j` (R54). -/
def PageRecord.begun (j : SlotId) (attr : Byte) : PageRecord where
  state := .filling
  owner := some j
  media := attrMedia attr
  sides := attrSides attr
  colour := attrColour attr
  length := 0
  chain := []
  place := none
  sheeted := 0

theorem beginPage_pages_self (s : State) (j : SlotId) (r : RecordId) (attr : Byte) :
    (s.beginPage j r attr).pages[r] = PageRecord.begun j attr :=
  State.updPage_pages_self s r fun _ => PageRecord.begun j attr

theorem beginPage_pages_ne {k : RecordId} {attr : Byte} (h : k ≠ r) : (s.beginPage j r attr).pages[k] = s.pages[k] :=
  State.updPage_pages_ne s r (fun _ => PageRecord.begun j attr) k h

theorem beginPage_jobs_self (s : State) (j : SlotId) (r : RecordId) (attr : Byte) :
    (s.beginPage j r attr).jobs[j] = { s.jobs[j] with filling := some r } := by
  rw [State.beginPage, State.updJob_jobs_self]
  rfl

/-- The new blocks that a page takes for `n` more bytes (R51, R55). -/
def State.moreBlocks (s : State) (r : RecordId) (n : Nat) : Nat :=
  blocksFor (s.pages[r].length + n) - s.pages[r].chain.length

theorem appendData_pages_self (s : State) (r : RecordId) (data : List Byte) : (s.appendData r data).pages[r] =
    { s.pages[r] with
      length := s.pages[r].length + data.length
      chain := s.pages[r].chain ++ s.freePool.take (s.moreBlocks r data.length) } :=
  State.updPage_pages_self s r fun x => { x with
    length := x.length + data.length
    chain := s.pages[r].chain ++ s.freePool.take (s.moreBlocks r data.length) }

theorem appendData_pages_ne {k : RecordId} {data : List Byte} (h : k ≠ r) :
    (s.appendData r data).pages[k] = s.pages[k] :=
  State.updPage_pages_ne s r (fun x => { x with
    length := x.length + data.length
    chain := s.pages[r].chain ++ s.freePool.take (s.moreBlocks r data.length) }) k h

theorem appendData_freePool (s : State) (r : RecordId) (data : List Byte) :
    (s.appendData r data).freePool = s.freePool.drop (s.moreBlocks r data.length) := rfl

theorem appendData_dram (s : State) (r : RecordId) (data : List Byte) : (s.appendData r data).dram =
    writePage (s.pages[r].chain ++ s.freePool.take (s.moreBlocks r data.length)) s.pages[r].length data s.dram := rfl

theorem sealPage_pages_self (s : State) (j : SlotId) (r : RecordId) : (s.sealPage j r).pages[r] =
    { s.pages[r] with state := .sealed, place := some (s.jobs[j].pages.length + 1) } :=
  State.updPage_pages_self s r fun x => { x with state := .sealed, place := some (s.jobs[j].pages.length + 1) }

theorem sealPage_pages_ne {k : RecordId} (h : k ≠ r) : (s.sealPage j r).pages[k] = s.pages[k] :=
  State.updPage_pages_ne s r (fun x => { x with state := .sealed, place := some (s.jobs[j].pages.length + 1) }) k h

theorem sealPage_jobs_self (s : State) (j : SlotId) (r : RecordId) : (s.sealPage j r).jobs[j] =
    Job.foldNeeds s.pages[r] { s.jobs[j] with pages := s.jobs[j].pages ++ [some r], filling := none } := by
  rw [State.sealPage, State.updJob_jobs_self]
  rfl

-- ## The two halves

/-- Each block is in one place, a FREE record has no blocks, every chain is as long as its length needs (R50, R51), and
the DRAM's bytes are in canonical form. -/
structure State.BlocksSound (s : State) : Prop where
  partition : BlocksPartitioned s
  free : ∀ r : RecordId, s.pages[r].state = .free → s.pages[r].chain = [] ∧ s.pages[r].length = 0
  chains : ∀ r : RecordId, s.pages[r].chain.length = blocksFor s.pages[r].length
  dram : DramCanonical s

/-- A place of a page list names a SEALED record of that owner and place, a filling page a FILLING record of that owner
(R52). -/
structure State.Owned (s : State) : Prop where
  listed : ∀ (j : SlotId) (k : Nat) (r : RecordId), s.jobs[j].pages[k]? = some (some r) →
    s.pages[r].state = .sealed ∧ s.pages[r].owner = some j ∧ s.pages[r].place = some (k + 1)
  filling : ∀ (j : SlotId) (r : RecordId), s.jobs[j].filling = some r →
    s.pages[r].state = .filling ∧ s.pages[r].owner = some j

/-- The Page Store is sound and the DRAM's bytes are in canonical form. -/
def State.Sound (s : State) : Prop := s.BlocksSound ∧ s.Owned

theorem State.sound_iff (s : State) : s.Sound ↔ StoreSound s ∧ DramCanonical s :=
  ⟨fun ⟨⟨hpart, hfree, hchains, hdram⟩, ⟨hlisted, hfill⟩⟩ => ⟨⟨hpart, hlisted, hfill, hfree, hchains⟩, hdram⟩,
    fun ⟨⟨hpart, hlisted, hfill, hfree, hchains⟩, hdram⟩ => ⟨⟨hpart, hfree, hchains, hdram⟩, ⟨hlisted, hfill⟩⟩⟩

namespace State

-- ## What the halves read

theorem BlocksSound.of_same (h : s.BlocksSound) (hp : t.pages = s.pages) (hf : t.freePool = s.freePool)
    (hd : t.dram = s.dram) : t.BlocksSound := by
  obtain ⟨hpart, hfree, hchains, hdram⟩ := h
  refine ⟨?_, fun r => ?_, fun r => ?_, ?_⟩
  · unfold BlocksPartitioned allChains at hpart ⊢
    rw [hp, hf]
    exact hpart
  · rw [hp]
    exact hfree r
  · rw [hp]
    exact hchains r
  · unfold DramCanonical
    rw [hd]
    exact hdram

theorem Sound.of_store (h : s.Sound) (hst : t.store = s.store) : t.Sound := by
  have hpages := store_pages hst
  refine ⟨h.1.of_same hpages (store_freePool hst) (store_dram hst), ⟨fun j k r hk => ?_, fun j r hr => ?_⟩⟩
  · rw [show t.jobs[j].pages = s.jobs[j].pages from congrArg Holding.pages (store_holding hst j)] at hk
    rw [hpages]
    exact h.2.listed j k r hk
  · rw [show t.jobs[j].filling = s.jobs[j].filling from congrArg Holding.filling (store_holding hst j)] at hr
    rw [hpages]
    exact h.2.filling j r hr

theorem Sound.of_keeps {parts : List Part} (h : s.Sound) (hk : KeepsAllBut parts s t)
    (hj : Part.jobs ∉ parts := by decide) (hp : Part.pages ∉ parts := by decide)
    (hf : Part.freePool ∉ parts := by decide) (hd : Part.dram ∉ parts := by decide) : t.Sound :=
  h.of_store (store_of_keeps hk hj hp hf hd)

-- ## One record's chain

/-- The blocks of one record's chain, and of the records but that one. -/
theorem allChains_perm (s : State) (r : RecordId) : ∃ others : List Nat,
    (allChains s).Perm (s.pages[r].chain ++ others) ∧
      ∀ (t : State) (x : PageRecord), t.pages = s.pages.set r.val x → (allChains t).Perm (x.chain ++ others) := by
  have hr : r.val < s.pages.toList.length := by simp
  have hmove : ∀ (a : List Nat) (before after : List PageRecord),
      (before.flatMap (·.chain) ++ (a ++ after.flatMap (·.chain))).Perm
        (a ++ (before.flatMap (·.chain) ++ after.flatMap (·.chain))) := fun a before after => by
    rw [← List.append_assoc, ← List.append_assoc]
    exact List.perm_append_comm.append_right _
  refine ⟨(s.pages.toList.take r.val).flatMap (·.chain) ++ (s.pages.toList.drop (r.val + 1)).flatMap (·.chain), ?_,
    fun t x ht => ?_⟩
  · have hsplit : s.pages.toList = s.pages.toList.take r.val ++ s.pages[r] :: s.pages.toList.drop (r.val + 1) := by
      rw [show s.pages[r] = s.pages.toList[r.val] from rfl, List.getElem_cons_drop, List.take_append_drop]
    unfold allChains
    conv_lhs => rw [hsplit]
    rw [List.flatMap_append, List.flatMap_cons]
    exact hmove _ _ _
  · unfold allChains
    rw [ht, Vector.toList_set, List.set_eq_take_append_cons_drop, if_pos hr, List.flatMap_append, List.flatMap_cons]
    exact hmove _ _ _

/-- One record is rewritten; the free pool takes the blocks that its chain loses and gives those that it gains. -/
theorem partition_set {x : PageRecord} (h : BlocksPartitioned s) (hp : t.pages = s.pages.set r.val x)
    (hf : (t.freePool ++ x.chain).Perm (s.freePool ++ s.pages[r].chain)) : BlocksPartitioned t := by
  obtain ⟨others, hs, ht⟩ := allChains_perm s r
  unfold BlocksPartitioned at h ⊢
  calc t.freePool ++ allChains t
    _ |>.Perm (t.freePool ++ x.chain ++ others) := by
      rw [List.append_assoc]
      exact (ht t x hp).append_left _
    _ |>.Perm (s.freePool ++ s.pages[r].chain ++ others) := hf.append_right _
    _ |>.Perm (s.freePool ++ allChains s) := by
      rw [List.append_assoc]
      exact hs.symm.append_left _
    _ |>.Perm (List.range Config.blockCount) := h

/-- One record is rewritten within the block rules. -/
theorem BlocksSound.set {x : PageRecord} (h : s.BlocksSound) (hp : t.pages = s.pages.set r.val x)
    (hf : (t.freePool ++ x.chain).Perm (s.freePool ++ s.pages[r].chain)) (hd : DramCanonical t)
    (hfree : x.state = .free → x.chain = [] ∧ x.length = 0) (hchain : x.chain.length = blocksFor x.length) :
    t.BlocksSound := by
  have hself : t.pages[r] = x := by
    simp only [hp]
    exact Vector.getElem_set_self ..
  have hother : ∀ k : RecordId, k ≠ r → t.pages[k] = s.pages[k] := fun k hk => by
    simp only [hp]
    exact Vector.getElem_set_ne _ _ fun e => hk (Fin.ext e.symm)
  refine ⟨partition_set h.partition hp hf, fun k hk => ?_, fun k => ?_, hd⟩
  · by_cases hkr : k = r
    · rw [hkr, hself] at hk ⊢
      exact hfree hk
    · rw [hother k hkr] at hk ⊢
      exact h.free k hk
  · by_cases hkr : k = r
    · rw [hkr, hself]
      exact hchain
    · rw [hother k hkr]
      exact h.chains k

-- ## One job and one record

/-- A record that is FREE or job `j`'s own is named by no other job. -/
theorem Owned.apart (h : s.Owned) (hr : s.pages[r].state = .free ∨ s.pages[r].owner = some j) {k : SlotId} (hk : k ≠ j) :
    (∀ n : Nat, s.jobs[k].pages[n]? ≠ some (some r)) ∧ s.jobs[k].filling ≠ some r := by
  have hno : ∀ st : PageState, st ≠ .free → ¬(s.pages[r].state = st ∧ s.pages[r].owner = some k) := by
    rintro st hst ⟨hs, ho⟩
    rcases hr with hr | hr
    · exact hst (hs.symm.trans hr)
    · exact hk (Option.some.inj (ho.symm.trans hr))
  refine ⟨fun n hn => ?_, fun hf => ?_⟩
  · obtain ⟨hs, ho, -⟩ := h.listed k n r hn
    exact hno .sealed (by decide) ⟨hs, ho⟩
  · exact hno .filling (by decide) (h.filling k r hf)

/-- Only job `j`'s pages and a record that is FREE or its own change; each page that the job names it named before, in a
record left as it was, or it is that record in its new form. -/
theorem Owned.change (h : s.Owned) (hr : s.pages[r].state = .free ∨ s.pages[r].owner = some j)
    (hjobs : OtherJobsSame j s t) (hpages : OtherPagesSame r s t)
    (hlist : ∀ (k : Nat) (i : RecordId), t.jobs[j].pages[k]? = some (some i) →
      (i ≠ r ∧ s.jobs[j].pages[k]? = some (some i)) ∨
        (i = r ∧ t.pages[r].state = .sealed ∧ t.pages[r].owner = some j ∧ t.pages[r].place = some (k + 1)))
    (hfill : ∀ i : RecordId, t.jobs[j].filling = some i → (i ≠ r ∧ s.jobs[j].filling = some i) ∨
      (i = r ∧ t.pages[r].state = .filling ∧ t.pages[r].owner = some j)) : t.Owned := by
  refine ⟨fun k n i hn => ?_, fun k i hi => ?_⟩
  · by_cases hk : k = j
    · subst hk
      rcases hlist n i hn with ⟨hir, hold⟩ | ⟨rfl, hnew⟩
      · rw [hpages i hir]
        exact h.listed k n i hold
      · exact hnew
    · rw [hjobs k hk] at hn
      have hir : i ≠ r := fun e => (h.apart hr hk).1 n (e ▸ hn)
      rw [hpages i hir]
      exact h.listed k n i hn
  · by_cases hk : k = j
    · subst hk
      rcases hfill i hi with ⟨hir, hold⟩ | ⟨rfl, hnew⟩
      · rw [hpages i hir]
        exact h.filling k i hold
      · exact hnew
    · rw [hjobs k hk] at hi
      have hir : i ≠ r := fun e => (h.apart hr hk).2 (e ▸ hi)
      rw [hpages i hir]
      exact h.filling k i hi

/-- A record is rewritten with its state, its owner and its place as they were. -/
theorem Owned.updPage (h : s.Owned) {f : PageRecord → PageRecord} (hs : (f s.pages[r]).state = s.pages[r].state)
    (ho : (f s.pages[r]).owner = s.pages[r].owner) (hp : (f s.pages[r]).place = s.pages[r].place) :
    (s.updPage r f).Owned := by
  have hsame : ∀ k : RecordId, (s.updPage r f).pages[k].state = s.pages[k].state ∧
      (s.updPage r f).pages[k].owner = s.pages[k].owner ∧ (s.updPage r f).pages[k].place = s.pages[k].place := fun k => by
    by_cases hk : k = r
    · subst hk
      rw [State.updPage_pages_self]
      exact ⟨hs, ho, hp⟩
    · rw [State.updPage_pages_ne _ _ _ _ hk]
      exact ⟨rfl, rfl, rfl⟩
  refine ⟨fun j n i hn => ?_, fun j i hi => ?_⟩
  · obtain ⟨h1, h2, h3⟩ := hsame i
    rw [h1, h2, h3]
    exact h.listed j n i hn
  · obtain ⟨h1, h2, -⟩ := hsame i
    rw [h1, h2]
    exact h.filling j i hi

-- ## Pages freed

theorem BlocksSound.freePage (h : s.BlocksSound) (r : RecordId) : (s.freePage r).BlocksSound :=
  h.set (x := .freeRecord) rfl (by simp [State.freePage, PageRecord.freeRecord]) h.dram (fun _ => ⟨rfl, rfl⟩) rfl

/-- A place of a job's list becomes a freed place (R62). -/
theorem Sound.freePlace (h : s.Sound) (j : SlotId) (place : Nat) : (s.freePlace j place).Sound := by
  cases hat : s.jobs[j].pageAt place with
  | none =>
    unfold State.freePlace
    rw [hat]
    exact h
  | some r =>
    obtain ⟨hblocks, howned⟩ := h
    have hplace : place ≠ 0 ∧ s.jobs[j].pages[place - 1]? = some (some r) := by
      unfold Job.pageAt at hat
      split at hat
      · exact absurd hat (by simp)
      · exact ⟨‹_›, Option.join_eq_some_iff.1 hat⟩
    obtain ⟨hsealed, howner, hnumber⟩ := howned.listed j _ r hplace.2
    rw [freePlace_some hat]
    refine ⟨(hblocks.freePage r).of_same rfl rfl rfl, howned.change (.inr howner)
      (fun k hk => State.updJob_jobs_ne _ _ _ _ hk) (fun k hk => freePage_pages_ne hk) (fun k i hk => .inl ?_)
      fun i hi => .inl ?_⟩
    · rw [State.updJob_jobs_self, State.freePage_jobs, List.getElem?_set] at hk
      split at hk
      · split at hk <;> simp at hk
      · refine ⟨fun e => ?_, hk⟩
        obtain ⟨-, -, hi⟩ := howned.listed j k i hk
        rw [e, hnumber] at hi
        have := Option.some.inj hi
        omega
    · rw [State.updJob_jobs_self, State.freePage_jobs] at hi
      refine ⟨fun e => ?_, hi⟩
      have hfilling := (howned.filling j i hi).1
      rw [e, hsealed] at hfilling
      exact absurd hfilling (by decide)

theorem Sound.freeSheeted (h : s.Sound) (j : SlotId) : (s.freeSheeted j).Sound := by
  refine foldl_meets (inv := State.Sound) (fun t i ht => ?_) _ h
  split
  · exact ht.freePlace j _
  · exact ht

/-- A count of a page record that neither its owner nor its blocks depend on. -/
theorem Sound.count (h : s.Sound) (r : RecordId) (n : Nat) :
    (s.updPage r fun x => { x with sheeted := n }).Sound :=
  ⟨h.1.set (x := { s.pages[r] with sheeted := n }) rfl (List.Perm.refl _) h.1.dram (h.1.free r) (h.1.chains r),
    h.2.updPage (f := fun x => { x with sheeted := n }) rfl rfl rfl⟩

/-- Step 2 of R10. -/
theorem Sound.countPage (h : s.Sound) (e : SendEntry) : (s.countPage e).Sound := by
  unfold State.countPage
  dsimp only
  split
  · exact h
  · split
    · exact h
    · rename_i r _
      have hcount := h.count r (s.pages[r].sheeted + 1)
      split
      · exact hcount.freePlace _ _
      · exact hcount

/-- The slot's pages are freed, and it holds nothing from then on (R23, R65). -/
theorem Sound.retire (h : s.Sound) (j : SlotId) : (s.retire j).Sound := by
  obtain ⟨hblocks, howned⟩ := h
  have hfreed : (s.freePages s.jobs[j].held).BlocksSound :=
    foldl_meets (inv := State.BlocksSound) (fun _ r ht => ht.freePage r) _ hblocks
  have hheld : ∀ r ∈ s.jobs[j].held, s.pages[r].owner = some j := fun r hr => by
    rcases List.mem_append.1 hr with hr | hr
    · obtain ⟨x, hx, rfl⟩ := List.mem_filterMap.1 hr
      obtain ⟨n, hn, hget⟩ := List.getElem_of_mem hx
      exact (howned.listed j n r (List.getElem?_eq_some_iff.2 ⟨hn, hget⟩)).2.1
    · exact (howned.filling j r (Option.mem_toList.1 hr)).2
  have hkept : ∀ {k : SlotId} {r : RecordId}, k ≠ j → s.pages[r].owner = some k →
      (s.retire j).pages[r] = s.pages[r] := fun {k r} hk hr => by
    rw [retire_pages]
    exact freePages_pages_of_not_mem fun hm => hk (Option.some.inj (hr.symm.trans (hheld r hm)))
  refine ⟨hfreed.of_same (retire_pages s j) (retire_freePool s j) ?_, ⟨fun k n r hn => ?_, fun k r hr => ?_⟩⟩
  · exact ((s.retire_keeps j).part .dram).trans ((s.freeJobPages_keeps j).part .dram).symm
  · by_cases hk : k = j
    · rw [hk, retire_jobs_self] at hn
      simp [Job.freeSlot] at hn
    · rw [retire_jobs_ne hk] at hn
      have hold := howned.listed k n r hn
      rw [hkept hk hold.2.1]
      exact hold
  · by_cases hk : k = j
    · rw [hk, retire_jobs_self] at hr
      simp [Job.freeSlot] at hr
    · rw [retire_jobs_ne hk] at hr
      have hold := howned.filling k r hr
      rw [hkept hk hold.2]
      exact hold

/-- The filling page is dropped (R60). -/
theorem Sound.discardPage (h : s.Sound) (hr : s.jobs[j].filling = some r) : (s.discardPage j r).Sound := by
  obtain ⟨hblocks, howned⟩ := h
  obtain ⟨hfilling, howner⟩ := howned.filling j r hr
  refine ⟨(hblocks.freePage r).of_same rfl rfl rfl, howned.change (.inr howner)
    (fun k hk => State.updJob_jobs_ne _ _ _ _ hk) (fun k hk => freePage_pages_ne hk) (fun k i hk => .inl ?_)
    fun i hi => ?_⟩
  · rw [State.discardPage, State.updJob_jobs_self, State.freePage_jobs] at hk
    refine ⟨fun e => ?_, hk⟩
    have hsealed := (howned.listed j k i hk).1
    rw [e, hfilling] at hsealed
    exact absurd hsealed (by decide)
  · rw [State.discardPage, State.updJob_jobs_self] at hi
    exact absurd hi (by simp)

-- ## A page begun, filled and sealed

/-- A page is begun in a FREE record (R54). -/
theorem Sound.beginPage (h : s.Sound) (j : SlotId) (hr : s.pages[r].state = .free) (attr : Byte) :
    (s.beginPage j r attr).Sound := by
  obtain ⟨hblocks, howned⟩ := h
  obtain ⟨hchain, -⟩ := hblocks.free r hr
  refine ⟨hblocks.set (x := .begun j attr) rfl ?_ hblocks.dram nofun (show 0 = blocksFor 0 from rfl),
    howned.change (.inl hr) (fun k hk => State.updJob_jobs_ne _ _ _ _ hk) (fun k hk => beginPage_pages_ne hk)
      (fun k i hk => .inl ?_) fun i hi => .inr ?_⟩
  · rw [hchain]
    exact List.Perm.refl _
  · rw [beginPage_jobs_self] at hk
    refine ⟨fun e => ?_, hk⟩
    have hsealed := (howned.listed j k i hk).1
    rw [e, hr] at hsealed
    exact absurd hsealed (by decide)
  · rw [beginPage_jobs_self] at hi
    rw [beginPage_pages_self]
    exact ⟨(Option.some.inj hi).symm, rfl, rfl⟩

theorem blocksFor_mono {m n : Nat} (h : m ≤ n) : blocksFor m ≤ blocksFor n := Nat.div_le_div_right (by omega)

/-- Data are appended to a record that is not FREE, with blocks enough in the free pool (R53 step 8, R55). -/
theorem Sound.appendData (h : s.Sound) (hr : s.pages[r].state ≠ .free) (data : List Byte)
    (hroom : s.moreBlocks r data.length ≤ s.freePool.length) :
    (s.appendData r data).Sound := by
  obtain ⟨hblocks, howned⟩ := h
  refine ⟨hblocks.set (r := r) rfl ?_ (writePage_wf _ _ _ hblocks.dram) (fun e => absurd e hr) ?_, ?_⟩
  · rw [appendData_freePool]
    refine List.perm_append_comm.trans ?_
    rw [List.append_assoc, ← State.moreBlocks, List.take_append_drop]
    exact List.perm_append_comm
  · unfold State.moreBlocks at hroom
    have hlen := hblocks.chains r
    have hmore := blocksFor_mono (Nat.le_add_right s.pages[r].length data.length)
    dsimp only
    rw [List.length_append, List.length_take]
    omega
  · have hcount := howned.updPage (r := r) (f := fun x => { x with
      length := x.length + data.length
      chain := s.pages[r].chain ++ s.freePool.take (s.moreBlocks r data.length) }) rfl rfl rfl
    exact ⟨hcount.listed, hcount.filling⟩

/-- The filling page joins the page list as its last place (R56). -/
theorem Sound.sealPage (h : s.Sound) (hr : s.jobs[j].filling = some r) : (s.sealPage j r).Sound := by
  obtain ⟨hblocks, howned⟩ := h
  obtain ⟨hfilling, howner⟩ := howned.filling j r hr
  refine ⟨hblocks.set (r := r) rfl (List.Perm.refl _) hblocks.dram nofun (hblocks.chains r),
    howned.change (.inr howner) (fun k hk => State.updJob_jobs_ne _ _ _ _ hk) (fun k hk => sealPage_pages_ne hk)
      (fun k i hk => ?_) fun i hi => ?_⟩
  · rw [sealPage_jobs_self] at hk
    have hk' : (s.jobs[j].pages ++ [some r])[k]? = some (some i) := hk
    rw [List.getElem?_append] at hk'
    split at hk'
    · refine .inl ⟨fun e => ?_, hk'⟩
      have hsealed := (howned.listed j k i hk').1
      rw [e, hfilling] at hsealed
      exact absurd hsealed (by decide)
    · obtain ⟨hlt, hi⟩ := List.getElem?_eq_some_iff.1 hk'
      simp only [List.length_singleton, List.getElem_singleton, Option.some.injEq] at hlt hi
      rw [sealPage_pages_self]
      refine .inr ⟨hi.symm, rfl, howner, ?_⟩
      exact congrArg some (by omega)
  · rw [sealPage_jobs_self] at hi
    exact absurd hi (by simp [Job.foldNeeds])

end State
end Sys2Proof.Machine
end

