-- ==== Sys2Proof/Proofs/StoreStep.lean ====
section
/-! SUPPORT. The Page Store's invariant over every command: sheet events and stops, retirement and resets, PAGE_DATA and
the other requests, and with them every step (R50 to R67). -/

set_option Elab.async false

namespace Sys2Proof.Safety

open Sys2Proof.Machine

/-- A rule that leaves the Page Store as it is, if it lets its request through. -/
def Judged.SameStore (s : State) (d : Judged) : Prop := Judged.Meets (fun t => t.store = s.store) d

end Sys2Proof.Safety

namespace Sys2Proof.Machine.State

open Sys2Proof.Safety

variable {s t : State} {i : Instr} {j : SlotId} {r : RecordId} {body : List Byte}

-- ## Sheet events and stops

theorem Sound.sheetEvent (h : s.Sound) (p : PortId) (e : SendEntry) : (s.sheetEvent p e).Sound := by
  have hcounted : (((s.stopSendOf p e).updPort p (Port.count (MeterSet.countSheet e.colour e.faces))).updJob e.job
      (Job.countSheet e.faces)).Sound := h.of_store <| by
    rw [updJob_store (f := Job.countSheet e.faces) _ _ fun _ => rfl, updPort_store, stopSendOf_store]
  refine (hcounted.countPage e).of_store ?_
  unfold State.sheetEvent
  dsimp only
  rw [afterSheet_store, updPort_store, updAccount_store, updJob_store (f := Job.chargeSheet _ _) _ _ fun _ => rfl]

theorem Sound.stopCondition (h : s.Sound) (p : PortId) (k : AlertKind) (l : Byte) (n : Option Serial) :
    (s.stopCondition p k l n).Sound := by
  have hraised : (s.raiseStop p k l).Sound := h.of_store (s.raiseStop_store p k l)
  have hconfirmed := foldl_meets (inv := State.Sound) (fun _ e ht => ht.sheetEvent p e)
    (confirmedEntries s.ports[p].window n) hraised
  exact hconfirmed.of_store (settleStop_store _ p)

theorem Sound.linkLoss (h : s.Sound) (p : PortId) : (s.linkLoss p).Sound :=
  Sound.stopCondition (h.of_store (by simp)) p _ _ _

theorem Sound.orderFault (h : s.Sound) (p : PortId) : (s.orderFault p).Sound :=
  Sound.stopCondition (h.of_store (by simp)) p _ _ _

-- ## The printers' messages

theorem Sound.pressMessage (h : s.Sound) (p : PortId) (fieldsOk : Bool) (taken : LinkState → Bool) {act : State → State}
    (hact : ∀ u : State, u.Sound → (act u).Sound) : (s.pressMessage p fieldsOk taken act).Sound := by
  have hheard : (s.hear p).Sound := h.of_store (s.hear_store p)
  unfold State.pressMessage
  split
  · exact h
  · split
    · exact hact _ hheard
    · exact hheard

/-- A message whose effect leaves the Page Store as it is. -/
theorem Sound.keptMessage (h : s.Sound) (p : PortId) (fieldsOk : Bool) (taken : LinkState → Bool) {act : State → State}
    (hact : ∀ u : State, (act u).store = u.store) : (s.pressMessage p fieldsOk taken act).Sound :=
  h.pressMessage p fieldsOk taken fun u hu => hu.of_store (hact u)

theorem Sound.report (h : s.Sound) (p : PortId) (entry : Option SendEntry) {act : SendEntry → State → State}
    (hact : ∀ (e : SendEntry) (u : State), u.Sound → (act e u).Sound) : (s.report p entry act).Sound := by
  unfold State.report
  split
  · exact h
  · cases entry with
    | none => exact (h.orderFault p).of_store (holdTest_store _ p)
    | some e => exact hact e s h

theorem Sound.identTaken (h : s.Sound) (p : PortId) (i : Ident) (m : Media) (c : Bool) :
    (s.identTaken p i m c).Sound := by
  have hlost : (if s.ports[p].link = .up then s.linkLoss p else s).Sound := by
    split
    · exact h.linkLoss p
    · exact h
  exact hlost.of_store (by simp [State.identTaken])

theorem Sound.sheetPassed (h : s.Sound) (p : PortId) (e : SendEntry) : (s.sheetPassed p e).Sound :=
  (h.sheetEvent p e).of_store (by simp [State.sheetPassed])

theorem Sound.jamTaken (h : s.Sound) (p : PortId) (l : Byte) (n : Option Serial) : (s.jamTaken p l n).Sound :=
  (Sound.stopCondition (h.of_store (s.stopSend_store p)) p .jam l n).of_store (holdTest_store _ p)

-- ## Notices and resets

theorem Sound.reported (h : s.Sound) (src : Source) : (State.reported src s).Sound := by
  cases src with
  | job j =>
    have hread : (s.updJob j Job.reported).Sound := h.of_store (s.updJob_store j fun _ => rfl)
    unfold State.reported
    dsimp only
    split
    · exact hread.retire j
    · exact hread
  | alert a => exact h.of_store (s.updAlert_store a _)
  | port p => exact h.of_store (s.updPort_store p _)
  | part => exact h.of_store rfl

theorem Sound.boundary (h : s.Sound) : s.boundary.Sound := by
  have hsame : ∀ n r o, State.Sound { s with notices := n, replies := r, onLink := o } := fun _ _ _ => h.of_store rfl
  unfold State.boundary
  split
  · exact hsame _ _ _
  · split
    · exact hsame _ _ _
    · split
      · exact hsame _ _ _
      · exact (hsame _ _ _).reported _

/-- Every record is FREE, the pool is full, and no job holds a page (R67). -/
theorem Sound.fresh (hp : t.pages = reset.pages) (hf : t.freePool = reset.freePool)
    (hj : ∀ j : SlotId, t.jobs[j].pages = [] ∧ t.jobs[j].filling = none) (hd : DramCanonical t) : t.Sound := by
  obtain ⟨hpart, -, -, hfree, hchains⟩ := storeSound_reset
  refine ⟨⟨?_, fun r => ?_, fun r => ?_, hd⟩, ⟨fun j k r hk => ?_, fun j r hr => ?_⟩⟩
  · unfold BlocksPartitioned allChains at hpart ⊢
    rw [hp, hf]
    exact hpart
  · rw [hp]
    exact hfree r
  · rw [hp]
    exact hchains r
  · rw [(hj j).1] at hk
    exact absurd hk (by simp)
  · rw [(hj j).2] at hr
    exact absurd hr (by simp)

theorem Sound.coldStart (h : s.Sound) (c : StartCause) : (s.coldStart c).Sound := by
  refine .fresh rfl ((s.coldStart_freePool c).trans reset_freePool.symm) (fun j => ?_) h.1.dram
  have hjob : (s.coldStart c).jobs[j] = .freeSlot 0 := reset_jobs j
  rw [hjob]
  exact ⟨rfl, rfl⟩

theorem Sound.restartReset (h : s.Sound) : s.restartReset.Sound := by
  refine .fresh rfl (by simp only [State.restartReset, State.reset]) (fun j => ?_) h.1.dram
  simp only [State.restartReset, Fin.getElem_fin, mapTable_getElem, Job.restart]
  split <;> exact ⟨rfl, rfl⟩

-- ## Requests

theorem Sound.request {kind tag : Byte} {encoded : Bool} {judge : State → Judged} (h : s.Sound)
    (hj : ∀ u : State, u.Sound → Judged.Meets State.Sound (judge u)) :
    (s.request kind tag body encoded judge).Sound := by
  have hpop : s.popInbox.Sound := h.of_store s.popInbox_store
  have hput : ∀ (u : State) (f : HostFrame), u.Sound → (u.placeReply f).Sound := fun u f hu =>
    hu.of_store (u.placeReply_store f)
  unfold State.request
  split
  · split
    · split
      · exact hput _ _ hpop
      · rename_i hd
        have hdone := hj _ hpop
        rw [hd] at hdone
        exact hput _ _ hdone
    · exact hput _ _ hpop
  · exact h

/-- A request whose rule leaves the Page Store as it is. -/
theorem Sound.keptRequest {kind tag : Byte} {encoded : Bool} {judge : State → Judged} (h : s.Sound)
    (hj : ∀ u : State, Judged.SameStore u (judge u)) : (s.request kind tag body encoded judge).Sound := by
  refine h.request fun u hu => ?_
  have hsame := hj u
  cases hd : judge u with
  | refused c => trivial
  | done t c fields =>
    rw [hd] at hsame
    exact hu.of_store hsame

/-- A job's record is replaced by one that holds no page. -/
theorem Sound.emptied (h : s.Sound) {f : Job → Job} (hf : ∀ x, (f x).pages = [] ∧ (f x).filling = none) :
    (s.updJob j f).Sound := by
  refine ⟨h.1.of_same rfl rfl rfl, ⟨fun k n r hn => ?_, fun k r hr => ?_⟩⟩
  · by_cases hk : k = j
    · rw [hk, updJob_jobs_self, (hf _).1] at hn
      exact absurd hn (by simp)
    · rw [updJob_jobs_ne _ _ _ _ hk] at hn
      exact h.2.listed k n r hn
  · by_cases hk : k = j
    · rw [hk, updJob_jobs_self, (hf _).2] at hr
      exact absurd hr (by simp)
    · rw [updJob_jobs_ne _ _ _ _ hk] at hr
      exact h.2.filling k r hr

/-- An admitted job holds no page (R3). -/
theorem Sound.admitJob (h : s.Sound) (j : SlotId) (q : QueueId) (a : AccountId) : (s.admitJob j q a body).Sound := by
  have hlisted : (s.updQueue q fun x =>
      { x with list := s.admitPlace ((byteAt body 2).getLsbD 1) j x.list }).Sound := h.of_store rfl
  exact (hlisted.emptied (f := Job.fromAdmit q a body s.clock) fun _ => ⟨rfl, rfl⟩).of_store (askIfRun_store _ q)

theorem Sound.judgeAdmit (h : s.Sound) : Judged.Meets State.Sound (judgeAdmit body s) := by
  unfold Machine.judgeAdmit
  split
  · trivial
  · refine orRange_meets fun q _ => ?_
    split
    · trivial
    · split
      · trivial
      · split
        · trivial
        · split
          · trivial
          · split
            · trivial
            · exact h.admitJob _ q _

/-- The page of a PAGE_DATA: begun with FIRST, in a FREE record, and otherwise the job's filling page (R53). -/
theorem Sound.pageData (h : s.Sound) {first : Bool} (last : Bool) (attr : Byte) (data : List Byte)
    (hr : if first then s.pages[r].state = .free else s.jobs[j].filling = some r)
    (hroom : (if first then blocksFor data.length else s.moreBlocks r data.length) ≤ s.freePool.length) :
    (s.pageData j r first last attr data).Sound := by
  have hbegun : (if first then s.beginPage j r attr else s).Sound ∧
      (if first then s.beginPage j r attr else s).jobs[j].filling = some r ∧
      (if first then s.beginPage j r attr else s).moreBlocks r data.length ≤
        (if first then s.beginPage j r attr else s).freePool.length := by
    cases first with
    | false => exact ⟨h, hr, hroom⟩
    | true =>
      refine ⟨h.beginPage j hr attr, ?_, ?_⟩
      · rw [if_pos rfl, beginPage_jobs_self]
      · rw [if_pos rfl, State.moreBlocks, beginPage_pages_self, PageRecord.begun, Nat.zero_add]
        exact hroom
  unfold State.pageData
  dsimp only
  generalize (if first then s.beginPage j r attr else s) = u at hbegun
  obtain ⟨hu, hfill, hfits⟩ := hbegun
  have hfilled : (u.appendData r data).Sound :=
    hu.appendData (by rw [(hu.2.filling j r hfill).1]; decide) data hfits
  split
  · exact (hfilled.sealPage hfill).of_store (afterSeal_store _ j)
  · exact hfilled

theorem lowestFreeRecord_free (h : s.lowestFreeRecord = some r) : s.pages[r].state = .free := by
  simpa using List.find?_some h

theorem Sound.judgeData (h : s.Sound) {first : Bool} {last : Bool} {attr : Byte} {data : List Byte} {old chained : Nat}
    (hr : if first then s.pages[r].state = .free else s.jobs[j].filling = some r)
    (hold : if first then old = 0 ∧ chained = 0 else old = s.pages[r].length ∧ chained = s.pages[r].chain.length) :
    Judged.Meets State.Sound (s.judgeData j r first last attr data old chained) := by
  unfold State.judgeData
  split
  · trivial
  · split
    · trivial
    · rename_i hroom
      refine h.pageData last attr data hr ?_
      cases first with
      | false =>
        obtain ⟨rfl, rfl⟩ := hold
        exact Nat.le_of_not_lt hroom
      | true =>
        obtain ⟨rfl, rfl⟩ := hold
        simpa using hroom

theorem Sound.judgePageData (h : s.Sound) : Judged.Meets State.Sound (judgePageData body s) := by
  refine withHandle_meets fun j => ?_
  dsimp only
  split
  · trivial
  split
  · trivial
  split
  · trivial
  split
  · trivial
  split
  · rename_i r hfill
    exact h.judgeData (first := false) hfill ⟨rfl, rfl⟩
  split
  · trivial
  · rename_i r hfree
    exact h.judgeData (first := true) (lowestFreeRecord_free hfree) ⟨rfl, rfl⟩

theorem Sound.judgePageDiscard (h : s.Sound) : Judged.Meets State.Sound (judgePageDiscard body s) := by
  refine withHandle_meets fun j => ?_
  split
  · trivial
  · split
    · trivial
    · rename_i r hfill
      exact h.discardPage hfill

theorem Sound.closeJob (h : s.Sound) (j : SlotId) : (s.closeJob j).Sound := by
  have hclosed : ((s.updJob j Job.close).wake j).Sound := h.of_store <| by
    rw [wake_store, updJob_store _ j Job.close_holding]
  have hfreed := hclosed.freeSheeted j
  unfold State.closeJob
  dsimp only
  split
  · exact hfreed.of_store (by simp)
  · exact hfreed.of_store (by simp)

theorem Sound.judgeCloseJob (h : s.Sound) : Judged.Meets State.Sound (judgeCloseJob body s) := by
  refine withHandle_meets fun j => ?_
  split
  · trivial
  · exact h.closeJob j

-- ## Requests that leave the Page Store as it is

theorem judgeCancelJob_sameStore (s : State) : Judged.SameStore s (judgeCancelJob body s) := by
  refine withHandle_meets fun j => ?_
  split
  · trivial
  · exact s.cancelJob_store j

theorem judgeMove_sameStore {d : Judged} (q : QueueId) (h : Judged.SameStore s d) :
    Judged.SameStore s (s.judgeMove j q d) := by
  unfold State.judgeMove
  split
  · trivial
  · split
    · trivial
    · split
      · trivial
      · exact h

theorem judgeMoveJob_sameStore (s : State) : Judged.SameStore s (judgeMoveJob body s) := by
  have hafter : ∀ (j : SlotId) (q : QueueId) (a b : Byte), Judged.SameStore s (s.judgeAfter j q a b) := by
    intro j q a b
    unfold State.judgeAfter
    split
    · trivial
    · split
      · exact s.moveJob_store j q _
      · trivial
  refine withHandle_meets fun j => orRange_meets fun q _ => ?_
  split
  · exact judgeMove_sameStore q (s.moveJob_store j q .head)
  · split
    · exact judgeMove_sameStore q (s.moveJob_store j q .tail)
    · split
      · exact judgeMove_sameStore q (hafter j q _ _)
      · trivial

theorem judgeRetryJob_sameStore (s : State) : Judged.SameStore s (judgeRetryJob body s) := by
  refine withHandle_meets fun j => ?_
  split
  · exact s.makeWaiting_store j .new
  · trivial

theorem changeMode_sameStore (s : State) (q : QueueId) (m : QueueMode) : Judged.SameStore s (s.changeMode q m) := by
  have hrun : (s.enterRun q).store = s.store := by simp [State.enterRun]
  unfold State.changeMode
  split
  · exact s.updQueue_store q _
  · exact s.updQueue_store q _
  · exact hrun
  · exact hrun
  · exact hrun
  · exact s.enterHalt_store q
  · split
    · exact s.updQueue_store q _
    · trivial
  · split
    · exact s.updQueue_store q _
    · trivial
  all_goals trivial

theorem judgePortService_sameStore (s : State) : Judged.SameStore s (judgePortService body s) := by
  refine orRange_meets fun p _ => ?_
  split
  · exact s.serviceOut_store p _
  · split
    · exact s.serviceIn_store p
    · trivial

theorem judgeAlertRelease_sameStore (s : State) : Judged.SameStore s (judgeAlertRelease body s) := by
  refine orRange_meets fun a _ => ?_
  split
  · exact s.hostRelease_store (alertPort a)
  · trivial

-- ## Every command

theorem sound_exec (h : s.Sound) (he : exec i s = .next t) : t.Sound := by
  cases i with
  | admitJob tag body =>
    obtain rfl := Host.Outcome.next.inj he
    exact h.request fun _ hu => hu.judgeAdmit
  | pageData tag body =>
    obtain rfl := Host.Outcome.next.inj he
    exact h.request fun _ hu => hu.judgePageData
  | pageDiscard tag body =>
    obtain rfl := Host.Outcome.next.inj he
    exact h.request fun _ hu => hu.judgePageDiscard
  | closeJob tag body =>
    obtain rfl := Host.Outcome.next.inj he
    exact h.request fun _ hu => hu.judgeCloseJob
  | cancelJob tag body =>
    obtain rfl := Host.Outcome.next.inj he
    exact h.keptRequest judgeCancelJob_sameStore
  | moveJob tag body =>
    obtain rfl := Host.Outcome.next.inj he
    exact h.keptRequest judgeMoveJob_sameStore
  | retryJob tag body =>
    obtain rfl := Host.Outcome.next.inj he
    exact h.keptRequest judgeRetryJob_sameStore
  | queueMode tag body =>
    obtain rfl := Host.Outcome.next.inj he
    exact h.keptRequest fun u => orRange_meets fun q _ => orRange_meets fun m _ => changeMode_sameStore u q m
  | portService tag body =>
    obtain rfl := Host.Outcome.next.inj he
    exact h.keptRequest judgePortService_sameStore
  | portReset tag body =>
    obtain rfl := Host.Outcome.next.inj he
    exact h.keptRequest fun u => orRange_meets fun p _ => u.portReset_store p
  | alertRelease tag body =>
    obtain rfl := Host.Outcome.next.inj he
    exact h.keptRequest judgeAlertRelease_sameStore
  | frameBoundary =>
    obtain rfl := Host.Outcome.next.inj he
    split
    · exact h
    · exact h.boundary
  | restartReset =>
    obtain rfl := Host.Outcome.next.inj he
    split
    · exact h.restartReset
    · exact h
  | powerOn | resetPin =>
    obtain rfl := Host.Outcome.next.inj he
    exact h.coldStart _
  | starveTimerExpiry port =>
    obtain rfl := Host.Outcome.next.inj he
    split
    · exact h.of_store (s.starveExpiry_store port)
    · exact h
  | pressSilence port =>
    obtain rfl := Host.Outcome.next.inj he
    split
    · exact (h.linkLoss port).of_store (holdTest_store _ port)
    · exact h
  | sendEnd port =>
    obtain rfl := Host.Outcome.next.inj he
    cases s.ports[port].sendingEntry with
    | none => exact h
    | some e => exact h.of_store (s.sendEnd_store port e)
  | dispatchPass =>
    obtain rfl := Host.Outcome.next.inj he
    split
    · exact h.of_store (by simp)
    · exact h
  | ident port cc caps ms loaded depth =>
    obtain rfl := Host.Outcome.next.inj he
    cases mediaOf loaded with
    | none => exact h.keptMessage port _ _ fun _ => rfl
    | some m => exact h.pressMessage port _ _ fun _ hu => hu.identTaken port _ m _
  | setupDone port media =>
    obtain rfl := Host.Outcome.next.inj he
    cases mediaOf media with
    | none => exact h.keptMessage port _ _ fun _ => rfl
    | some m => exact h.keptMessage port _ _ fun u => u.setupTaken_store port m
  | rateEcho port =>
    obtain rfl := Host.Outcome.next.inj he
    exact h.keptMessage port _ _ fun u => store_of_keeps (u.echoTaken_keeps port)
  | status port reasons =>
    obtain rfl := Host.Outcome.next.inj he
    exact h.keptMessage port _ _ fun u => u.statusTaken_store port _
  | cleared port =>
    obtain rfl := Host.Outcome.next.inj he
    exact h.keptMessage port _ _ fun u => u.clearedTaken_store port
  | pressCancel port =>
    obtain rfl := Host.Outcome.next.inj he
    exact h.keptMessage port _ _ fun u => u.cancelTaken_store port
  | taken port serial =>
    obtain rfl := Host.Outcome.next.inj he
    exact h.pressMessage port _ _ fun _ hu => hu.report port _ fun e v hv => hv.of_store (v.takenPassed_store port e)
  | sheet port serial =>
    obtain rfl := Host.Outcome.next.inj he
    exact h.pressMessage port _ _ fun _ hu => hu.report port _ fun e _ hv => hv.sheetPassed port e
  | aborted port serial =>
    obtain rfl := Host.Outcome.next.inj he
    exact h.pressMessage port _ _ fun _ hu => hu.report port _ fun e v hv => hv.of_store (v.abortedPassed_store port e)
  | refuse port serial reason =>
    obtain rfl := Host.Outcome.next.inj he
    refine h.pressMessage port _ _ fun _ hu => hu.report port _ fun e v hv => ?_
    split
    · exact hv.of_store (v.abortedPassed_store port e)
    · exact hv.of_store (v.refusePassed_store port reason e)
  | jam port location present serial =>
    obtain rfl := Host.Outcome.next.inj he
    exact h.pressMessage port _ _ fun _ hu => hu.jamTaken port _ _
  | _ =>
    exact h.of_keeps (exec_keeps he) (by simp [Instr.changes]) (by simp [Instr.changes]) (by simp [Instr.changes])
      (by simp [Instr.changes])

/-- Settles O55: the blocks' half and the owners' half of the invariant are kept together by every command. -/
theorem everyStepKeepsThePageStoreSound : Obligations.EveryStepKeepsThePageStoreSound := by
  intro s t hs hstep
  have h := (State.sound_iff s).2 hs
  refine (State.sound_iff t).1 ?_
  unfold step at hstep
  split at hstep
  · obtain rfl := Host.Outcome.next.inj hstep
    exact h
  · rename_i c rest _
    exact sound_exec (h.of_keeps (s.withPending_keeps rest)) hstep

end Sys2Proof.Machine.State
end

