-- ==== Sys2Proof/Proofs/PageData.lean ====
section
/-! SUPPORT. The Page Store's requests: what a PAGE_DATA that passes R53 makes of its record, its job and the free pool
(R54, R55), the refusals of R53 in their order, and PAGE_DISCARD (R60). -/

set_option Elab.async false

namespace Sys2Proof.Machine

open Sys2Proof.Safety

variable {s : State} {tag : Byte} {body : List Byte} {j : SlotId} {r : RecordId}

-- ## The byte of a new page's attributes

theorem attrOk_iff (b : Byte) : attrOk b = true ↔ b.toNat < 48 := by
  have hcolour : (Colour.ofCode (b.toNat / 16)).isSome = true ↔ b.toNat / 16 < 3 := by
    unfold Colour.ofCode
    generalize b.toNat / 16 = n
    match n with
    | 0 | 1 | 2 => simp
    | n + 3 => simp
  rw [attrOk, Bool.and_eq_true, zeroFrom_iff, hcolour]
  omega

/-- A byte of attributes that step 5 of R53 accepts gives the record of 11.2. -/
theorem dataRecord_begun (hfirst : hasBit (byteAt body 2) 0 = true) (hattr : (byteAt body 3).toNat < 48) :
    dataRecord s body j r = PageRecord.begun j (byteAt body 3) := by
  have hcolour : attrColour (byteAt body 3) = if (byteAt body 3).toNat / 16 = 0 then .mono
      else if (byteAt body 3).toNat / 16 = 1 then .spot else .full := by
    have hcode : (byteAt body 3).toNat / 16 < 3 := by omega
    unfold attrColour Colour.ofCode
    generalize (byteAt body 3).toNat / 16 = n at hcode
    match n with
    | 0 | 1 | 2 => rfl
  rw [dataRecord, if_pos hfirst, PageRecord.begun, hcolour]
  rfl

theorem dataRecord_filling (hnext : ¬hasBit (byteAt body 2) 0 = true) : dataRecord s body j r = s.pages[r] :=
  if_neg hnext

-- ## The record ready for its data

/-- The state in which record `r` takes the data: with FIRST the page has been begun (R54). -/
def State.readied (s : State) (body : List Byte) (j : SlotId) (r : RecordId) : State :=
  if hasBit (byteAt body 2) 0 then s.beginPage j r (byteAt body 3) else s

/-- The state with the data in the record (R54, R55). -/
def State.withData (s : State) (body : List Byte) (j : SlotId) (r : RecordId) : State :=
  (s.readied body j r).appendData r (body.drop 4)

theorem pageData_eq (s : State) (body : List Byte) (j : SlotId) (r : RecordId) (last : Bool) :
    s.pageData j r (hasBit (byteAt body 2) 0) last (byteAt body 3) (body.drop 4) =
      if last then ((s.withData body j r).sealPage j r).afterSeal j else s.withData body j r := rfl

theorem readied_pages_self (h : PageDataPasses s body j r) : (s.readied body j r).pages[r] = dataRecord s body j r := by
  obtain ⟨-, -, -, -, -, hpage, -⟩ := h
  unfold State.readied
  by_cases hfirst : hasBit (byteAt body 2) 0 = true
  · rw [if_pos hfirst] at hpage
    rw [if_pos hfirst, beginPage_pages_self, dataRecord_begun hfirst hpage.2.1]
  · rw [if_neg hfirst, dataRecord_filling hfirst]

theorem readied_pages_ne (s : State) (body : List Byte) (j : SlotId) {k : RecordId} (hk : k ≠ r) :
    (s.readied body j r).pages[k] = s.pages[k] := by
  unfold State.readied
  split
  · exact beginPage_pages_ne hk
  · rfl

theorem readied_jobs_self (h : PageDataPasses s body j r) :
    (s.readied body j r).jobs[j] = { s.jobs[j] with filling := some r } := by
  obtain ⟨-, -, -, -, -, hpage, -⟩ := h
  unfold State.readied
  by_cases hfirst : hasBit (byteAt body 2) 0 = true
  · rw [if_pos hfirst, beginPage_jobs_self]
  · rw [if_neg hfirst] at hpage ⊢
    rw [← hpage]

theorem readied_jobs_ne (s : State) (body : List Byte) (r : RecordId) {k : SlotId} (hk : k ≠ j) :
    (s.readied body j r).jobs[k] = s.jobs[k] := by
  unfold State.readied
  split
  · exact State.updJob_jobs_ne _ _ _ _ hk
  · rfl

theorem readied_keeps (s : State) (body : List Byte) (j : SlotId) (r : RecordId) :
    KeepsAllBut [.jobs, .pages] s (s.readied body j r) := .ite (s.beginPage_keeps j r _) (.refl _ s)

/-- The blocks that the data take are those that R55 counts. -/
theorem readied_moreBlocks (h : PageDataPasses s body j r) :
    (s.readied body j r).moreBlocks r (body.drop 4).length = newBlocks s body j r := by
  rw [State.moreBlocks, readied_pages_self h]
  rfl

-- ## The record with its data

theorem withData_pages_self (h : PageDataPasses s body j r) : (s.withData body j r).pages[r] =
    { dataRecord s body j r with
      length := (dataRecord s body j r).length + (body.drop 4).length
      chain := (dataRecord s body j r).chain ++ s.freePool.take (newBlocks s body j r) } := by
  rw [State.withData, appendData_pages_self, readied_moreBlocks h, readied_pages_self h,
    (readied_keeps s body j r).part .freePool]

theorem withData_pages_ne (s : State) (body : List Byte) (j : SlotId) {k : RecordId} (hk : k ≠ r) :
    (s.withData body j r).pages[k] = s.pages[k] := (appendData_pages_ne hk).trans (readied_pages_ne s body j hk)

theorem withData_freePool (h : PageDataPasses s body j r) :
    (s.withData body j r).freePool = s.freePool.drop (newBlocks s body j r) := by
  rw [State.withData, appendData_freePool, readied_moreBlocks h, (readied_keeps s body j r).part .freePool]

theorem withData_dram (h : PageDataPasses s body j r) : (s.withData body j r).dram =
    writePage (s.withData body j r).pages[r].chain (dataRecord s body j r).length (body.drop 4) s.dram := by
  rw [withData_pages_self h, State.withData, appendData_dram, readied_moreBlocks h, readied_pages_self h,
    (readied_keeps s body j r).part .freePool, (readied_keeps s body j r).part .dram]

theorem withData_jobs_self (h : PageDataPasses s body j r) :
    (s.withData body j r).jobs[j] = { s.jobs[j] with filling := some r } := readied_jobs_self h

theorem withData_jobs_ne (s : State) (body : List Byte) (r : RecordId) {k : SlotId} (hk : k ≠ j) :
    (s.withData body j r).jobs[k] = s.jobs[k] := readied_jobs_ne s body r hk

theorem withData_keeps (s : State) (body : List Byte) (j : SlotId) (r : RecordId) :
    KeepsAllBut [.jobs, .pages, .freePool, .dram] s (s.withData body j r) :=
  ((readied_keeps s body j r).trans (State.appendData_keeps _ r _)).mono

-- ## The checks of R53

theorem lowestFreeRecord_eq (h : s.pages[r].state = .free) (hmin : ∀ k : RecordId, k < r → s.pages[k].state ≠ .free) :
    s.lowestFreeRecord = some r :=
  find?_finRange_eq (by rw [h]; rfl) fun k hk => by simpa using hmin k hk

theorem lowestFreeRecord_none (h : ∀ k : RecordId, s.pages[k].state ≠ .free) : s.lowestFreeRecord = none :=
  List.find?_eq_none.2 fun k _ => by simpa using h k

/-- Steps 2 to 4 of R53 refuse the request. -/
@[reducible] def PageDataUnfit (x : Job) (body : List Byte) : Prop :=
  x.state = .done ∨ x.state = .cancelling ∨ x.closed = true ∨ x.filling.isSome = hasBit (byteAt body 2) 0

/-- Step 5 of R53 refuses the request. -/
@[reducible] def PageDataOutOfRange (body : List Byte) : Prop :=
  4096 < (body.drop 4).length ∨ (hasBit (byteAt body 2) 0 = true ∧ 48 ≤ (byteAt body 3).toNat)

/-- Record `k` is the one that the request names: the lowest FREE one with FIRST, else the filling page. -/
@[reducible] def State.DataGoesTo (s : State) (body : List Byte) (j : SlotId) (k : RecordId) : Prop :=
  if hasBit (byteAt body 2) 0 then s.lowestFreeRecord = some k else s.jobs[j].filling = some k

theorem not_unfit_iff (x : Job) (body : List Byte) : ¬PageDataUnfit x body ↔
    ¬(x.state = .done ∨ x.state = .cancelling) ∧ ¬x.closed = true ∧ ¬hasBit (byteAt body 2) 0 = x.filling.isSome := by
  rw [PageDataUnfit, ← or_assoc, not_or, not_or (p := x.closed = true), eq_comm (a := x.filling.isSome)]

theorem outOfRange_iff (body : List Byte) : PageDataOutOfRange body ↔ Config.maxDataBytes < (body.drop 4).length ∨
    (hasBit (byteAt body 2) 0 = true ∧ attrOk (byteAt body 3) = false) := by
  rw [PageDataOutOfRange, ← Bool.not_eq_true (attrOk _), attrOk_iff, Nat.not_lt, Config.maxDataBytes]

theorem filling_none_of_first (h : ¬PageDataUnfit s.jobs[j] body) (hfirst : hasBit (byteAt body 2) 0 = true) :
    s.jobs[j].filling = none := by
  obtain ⟨-, -, hfill⟩ := (not_unfit_iff _ _).1 h
  cases hf : s.jobs[j].filling with
  | none => rfl
  | some k => exact absurd (by rw [hf, hfirst]; rfl) hfill

theorem judgePageData_unfit (hn : Names s (byteAt body 0) (byteAt body 1) j) (h : PageDataUnfit s.jobs[j] body) :
    judgePageData body s = .refused .state := by
  refine (withHandle_names hn _).trans ?_
  dsimp only
  split
  · rfl
  · rename_i hstate
    split
    · rfl
    · rename_i hopen
      refine if_pos (not_not.1 fun hfill => (not_unfit_iff _ _).2 ⟨hstate, hopen, hfill⟩ h)

/-- What the checks from step 5 of R53 on judge. -/
theorem judgePageData_fit (hn : Names s (byteAt body 0) (byteAt body 1) j) (h : ¬PageDataUnfit s.jobs[j] body) :
    (PageDataOutOfRange body → judgePageData body s = .refused .range) ∧
    (¬PageDataOutOfRange body → hasBit (byteAt body 2) 0 = true → s.lowestFreeRecord = none →
      judgePageData body s = .refused .pageLimit) ∧
    (¬PageDataOutOfRange body → ∀ k : RecordId, s.DataGoesTo body j k →
      judgePageData body s = s.judgeData j k (hasBit (byteAt body 2) 0) (hasBit (byteAt body 2) 1) (byteAt body 3)
        (body.drop 4) (dataRecord s body j k).length (dataRecord s body j k).chain.length) := by
  obtain ⟨hstate, hopen, hfill⟩ := (not_unfit_iff _ _).1 h
  have hjudge : judgePageData body s = _ :=
    (withHandle_names hn _).trans ((if_neg hstate).trans ((if_neg hopen).trans (if_neg hfill)))
  rw [hjudge]
  refine ⟨fun hr => if_pos ((outOfRange_iff body).1 hr), fun hr hfirst hnone => ?_, fun hr k hk => ?_⟩
  · refine (if_neg (mt (outOfRange_iff body).2 hr)).trans ?_
    simp only [filling_none_of_first h hfirst, hnone]
  · refine (if_neg (mt (outOfRange_iff body).2 hr)).trans ?_
    by_cases hfirst : hasBit (byteAt body 2) 0 = true
    · rw [State.DataGoesTo, if_pos hfirst] at hk
      simp only [filling_none_of_first h hfirst, hk, dataRecord, hfirst]
      rfl
    · rw [State.DataGoesTo, if_neg hfirst] at hk
      simp only [hk, dataRecord_filling hfirst, Bool.eq_false_iff.2 hfirst]
      rfl

theorem passes_fit (h : PageDataPasses s body j r) :
    ¬PageDataUnfit s.jobs[j] body ∧ ¬PageDataOutOfRange body ∧ s.DataGoesTo body j r := by
  obtain ⟨-, hdone, hcancelling, hopen, hlen, hpage, -⟩ := h
  have hfit (hfill : hasBit (byteAt body 2) 0 ≠ s.jobs[j].filling.isSome) : ¬PageDataUnfit s.jobs[j] body :=
    (not_unfit_iff _ _).2 ⟨not_or.2 ⟨hdone, hcancelling⟩, Bool.eq_false_iff.1 hopen, hfill⟩
  unfold State.DataGoesTo
  by_cases hfirst : hasBit (byteAt body 2) 0 = true
  · rw [if_pos hfirst] at hpage ⊢
    obtain ⟨hempty, hattr, hfree, hmin⟩ := hpage
    exact ⟨hfit (by rw [hempty, hfirst]; decide), not_or.2 ⟨not_lt.2 hlen, fun h => absurd hattr (not_lt.2 h.2)⟩,
      lowestFreeRecord_eq hfree hmin⟩
  · rw [if_neg hfirst] at hpage ⊢
    exact ⟨hfit (by rw [hpage]; exact hfirst), not_or.2 ⟨not_lt.2 hlen, fun h => hfirst h.1⟩, hpage⟩

/-- A PAGE_DATA that passes every check of R53 is carried out (R54 to R57). -/
theorem judgePageData_passes (h : PageDataPasses s body j r) :
    judgePageData body s =
      ok (s.pageData j r (hasBit (byteAt body 2) 0) (hasBit (byteAt body 2) 1) (byteAt body 3) (body.drop 4))
        (pageDataReply ((dataRecord s body j r).length + (body.drop 4).length) (hasBit (byteAt body 2) 1)
          (s.jobs[j].pages.length + 1)
          (s.pageData j r (hasBit (byteAt body 2) 0) (hasBit (byteAt body 2) 1) (byteAt body 3) (body.drop 4))) := by
  obtain ⟨hfit, hrange, hrecord⟩ := passes_fit h
  obtain ⟨hn, -, -, -, -, -, hlimit, hroom⟩ := h
  obtain ⟨-, -, hjudge⟩ := judgePageData_fit hn hfit
  refine (hjudge hrange r hrecord).trans ?_
  unfold State.judgeData
  exact (if_neg (not_lt.2 hlimit)).trans (if_neg (not_lt.2 hroom))

/-- The record that the request names counts the bytes and blocks of `dataRecord`, unless FIRST finds none FREE. -/
theorem dataGoesTo_or_none (hr : ∀ k, s.jobs[j].filling = some k → k = r) (hfit : ¬PageDataUnfit s.jobs[j] body) :
    (∃ k, s.DataGoesTo body j k ∧ dataRecord s body j k = dataRecord s body j r) ∨
      (hasBit (byteAt body 2) 0 = true ∧ s.lowestFreeRecord = none) := by
  unfold State.DataGoesTo
  by_cases hfirst : hasBit (byteAt body 2) 0 = true
  · cases hlow : s.lowestFreeRecord with
    | none => exact .inr ⟨hfirst, rfl⟩
    | some k => exact .inl ⟨k, by rw [if_pos hfirst], by simp only [dataRecord, if_pos hfirst]⟩
  · cases hfill : s.jobs[j].filling with
    | none => exact absurd (.inr (.inr (.inr (by rw [hfill, Bool.eq_false_iff.2 hfirst]; rfl)))) hfit
    | some k => exact .inl ⟨k, by rw [if_neg hfirst], by rw [hr k hfill]⟩

/-- The refusals of R53 in their order. -/
theorem judgePageData_refused {code : Byte} (hn : Names s (byteAt body 0) (byteAt body 1) j)
    (hr : ∀ k, s.jobs[j].filling = some k → k = r)
    (h : if PageDataUnfit s.jobs[j] body then code = 0x07 else if PageDataOutOfRange body then code = 0x05
      else if (hasBit (byteAt body 2) 0 = true ∧ ∀ k : RecordId, s.pages[k].state ≠ .free) ∨
        16777216 < (dataRecord s body j r).length + (body.drop 4).length then code = 0x0C
      else code = 0x0B ∧ s.freePool.length < newBlocks s body j r) :
    ∃ c : ResultCode, judgePageData body s = .refused c ∧ c.code = code := by
  by_cases hfit : PageDataUnfit s.jobs[j] body
  · rw [if_pos hfit] at h
    exact ⟨.state, judgePageData_unfit hn hfit, h.symm⟩
  rw [if_neg hfit] at h
  obtain ⟨hout, hfull, hjudge⟩ := judgePageData_fit hn hfit
  by_cases hrange : PageDataOutOfRange body
  · rw [if_pos hrange] at h
    exact ⟨.range, hout hrange, h.symm⟩
  rw [if_neg hrange] at h
  rcases dataGoesTo_or_none hr hfit with ⟨k, hk, hsame⟩ | ⟨hfirst, hnone⟩
  · have hdata := hjudge hrange k hk
    rw [hsame] at hdata
    unfold State.judgeData at hdata
    by_cases hlimit : 16777216 < (dataRecord s body j r).length + (body.drop 4).length
    · rw [if_pos (.inr hlimit)] at h
      exact ⟨.pageLimit, hdata.trans (if_pos hlimit), h.symm⟩
    · have hfound : ¬(hasBit (byteAt body 2) 0 = true ∧ ∀ k : RecordId, s.pages[k].state ≠ .free) := fun ⟨hfirst, hno⟩ => by
        rw [State.DataGoesTo, if_pos hfirst, lowestFreeRecord_none hno] at hk
        cases hk
      rw [if_neg (not_or.2 ⟨hfound, hlimit⟩)] at h
      exact ⟨.storeFull, hdata.trans ((if_neg hlimit).trans (if_pos h.2)), h.1.symm⟩
  · have hno : ∀ k : RecordId, s.pages[k].state ≠ .free := fun k => by
      simpa using List.find?_eq_none.1 hnone k (List.mem_finRange k)
    rw [if_pos (.inl ⟨hfirst, hno⟩)] at h
    exact ⟨.pageLimit, hfull hrange hfirst hnone, h.symm⟩

theorem pageDataReply_unsealed (len place : Nat) (t : State) :
    pageDataReply len false place t = beBytes 4 len ++ [0, 0, 0] ++ beBytes 4 t.freePool.length := by
  simp [pageDataReply, yesNo, beBytes]

/-- Settles O15: the refusals in their order, and the record, the job and the pool with the data added. -/
theorem pageDataFillsTheRecord : Obligations.PageDataFillsTheRecord := by
  refine ⟨fun s tag code body j r ht hform hn hr h => ?_, fun s tag body j r ht hform hpasses hlast => ?_⟩
  · obtain ⟨c, hc, hcode⟩ := judgePageData_refused (s := s.popInbox) hn hr h
    exact exec_refused rfl ht (pageDataOk_of hform) hc hcode
  · have hpass := judgePageData_passes (s := s.popInbox) hpasses
    rw [pageData_eq, hlast, if_neg Bool.false_ne_true] at hpass
    refine completes_ok rfl ht (pageDataOk_of hform) hpass (withData_keeps _ body j r) fun hreplied hk =>
      ⟨?_, withData_pages_self (s := s.popInbox) hpasses, fun k hkr => withData_pages_ne s.popInbox body j hkr,
        withData_freePool (s := s.popInbox) hpasses, withData_jobs_self (s := s.popInbox) hpasses,
        fun k hkj => withData_jobs_ne s.popInbox body r hkj, hk⟩
    have hbody : pageDataReply ((dataRecord s body j r).length + (body.drop 4).length) false
        (s.jobs[j].pages.length + 1) (s.popInbox.withData body j r) =
        beBytes 4 ((dataRecord s body j r).length + (body.drop 4).length) ++ [0, 0, 0] ++
          beBytes 4 (s.freePool.length - newBlocks s body j r) := by
      rw [pageDataReply_unsealed, withData_freePool (s := s.popInbox) hpasses, List.length_drop (l := s.popInbox.freePool)]
      rfl
    rw [← hbody]
    exact hreplied

-- ## PAGE_DISCARD

theorem discardPage_freePool (s : State) (j : SlotId) (r : RecordId) :
    (s.discardPage j r).freePool = s.freePool ++ s.pages[r].chain := rfl

theorem discardPage_jobs_self (s : State) (j : SlotId) (r : RecordId) :
    (s.discardPage j r).jobs[j] = { s.jobs[j] with filling := none } := by
  rw [State.discardPage, State.updJob_jobs_self, State.freePage_jobs]

theorem discardPage_jobs_ne (s : State) (r : RecordId) {k : SlotId} (hk : k ≠ j) :
    (s.discardPage j r).jobs[k] = s.jobs[k] := by
  rw [State.discardPage, State.updJob_jobs_ne _ _ _ _ hk, State.freePage_jobs]

/-- Settles O18: the filling page is freed into the pool, and a job without one is refused. -/
theorem pageDiscardFreesTheFillingPage : Obligations.PageDiscardFreesTheFillingPage := by
  intro s tag body j ht hlen hn
  have hsize := (sized_iff (body := body) 2).2 hlen
  have hjudge : judgePageDiscard body s.popInbox = _ := withHandle_names (s := s.popInbox) hn _
  refine ⟨fun h => exec_refused (rc := .state) rfl ht hsize (hjudge.trans ?_), fun r hdone hcancelling hfill => ?_⟩
  · have hstate : s.popInbox.jobs[j] = s.jobs[j] := rfl
    split
    · rfl
    · rename_i hopen
      have hempty : s.jobs[j].filling = none := by
        rcases h with h | h | h
        · exact absurd (.inl h) hopen
        · exact absurd (.inr h) hopen
        · exact h
      simp only [hstate, hempty]
  · have hpass := hjudge.trans (if_neg (not_or.2 ⟨hdone, hcancelling⟩))
    have hfill' : s.popInbox.jobs[j].filling = some r := hfill
    simp only [hfill'] at hpass
    refine completes_ok rfl ht hsize hpass (State.discardPage_keeps _ j r) fun hreplied hk =>
      ⟨?_, freePage_pages_self s.popInbox r, fun k hkr => freePage_pages_ne (s := s.popInbox) hkr, rfl,
        discardPage_jobs_self s.popInbox j r, fun k hkj => discardPage_jobs_ne s.popInbox r hkj, hk⟩
    rw [← List.length_append]
    exact hreplied

end Sys2Proof.Machine
end

