-- ==== Sys2Proof/Proofs/PageBytes.lean ====
section
/-! SUPPORT. The bytes of a page (R50, R51, R61): where a chain puts them, what a write of a page's data leaves of this
page and of the others, and the bytes that a PAGE_DATA adds to its page (R55). -/

set_option Elab.async false

namespace Sys2Proof.Machine

open Sys2Proof.Safety

variable {s t : State} {body : List Byte} {j : SlotId} {r : RecordId} {chain : List Nat} {m : List Host.Cell} {i n : Nat}

-- ## Where a chain puts a page's bytes

/-- The block of the chain and the offset in it where byte `i` stands. -/
theorem byteAddress_of_lt (h : i < Config.blockBytes * chain.length) :
    ∃ hi : i / Config.blockBytes < chain.length,
      byteAddress chain i / Config.blockBytes = chain[i / Config.blockBytes] ∧
        byteAddress chain i % Config.blockBytes = i % Config.blockBytes := by
  have hi : i / Config.blockBytes < chain.length := Nat.div_lt_of_lt_mul h
  have hoffset : i % Config.blockBytes < Config.blockBytes := Nat.mod_lt _ (by decide)
  refine ⟨hi, ?_⟩
  rw [byteAddress, List.getD_eq_getElem _ _ hi, Nat.mul_comm]
  refine ⟨?_, ?_⟩
  · rw [Nat.mul_add_div (by decide), Nat.div_eq_of_lt hoffset, Nat.add_zero]
  · rw [Nat.mul_add_mod, Nat.mod_mod]

/-- Byte `i` stands in a block of the chain. -/
theorem byteAddress_div_mem (h : i < Config.blockBytes * chain.length) :
    byteAddress chain i / Config.blockBytes ∈ chain := by
  obtain ⟨hi, hblock, -⟩ := byteAddress_of_lt h
  rw [hblock]
  exact List.getElem_mem hi

/-- Two bytes of a page never share an address. -/
theorem byteAddress_inj (hnodup : chain.Nodup) (hi : i < Config.blockBytes * chain.length)
    (hn : n < Config.blockBytes * chain.length) (h : byteAddress chain i = byteAddress chain n) : i = n := by
  obtain ⟨hlt, hblock, hoffset⟩ := byteAddress_of_lt hi
  obtain ⟨hlt', hblock', hoffset'⟩ := byteAddress_of_lt hn
  have hsame : i / Config.blockBytes = n / Config.blockBytes :=
    hnodup.getElem_inj_iff.1 (hblock.symm.trans ((congrArg (· / Config.blockBytes) h).trans hblock'))
  rw [← Nat.div_add_mod i Config.blockBytes, ← Nat.div_add_mod n Config.blockBytes, hsame, ← hoffset, h, hoffset']

/-- Blocks chained behind a page's blocks leave its bytes where they are. -/
theorem byteAddress_append (h : i < Config.blockBytes * chain.length) (more : List Nat) :
    byteAddress (chain ++ more) i = byteAddress chain i := by
  rw [byteAddress, byteAddress, List.getD_append _ _ _ _ (Nat.div_lt_of_lt_mul h)]

theorem le_blocksFor (n : Nat) : n ≤ Config.blockBytes * blocksFor n := by
  rw [blocksFor, Config.blockBytes]
  omega

-- ## Pages read and written

theorem readPage_congr {other : List Nat} {m' : List Host.Cell}
    (h : ∀ i, i < n → dramRead m (byteAddress chain i) = dramRead m' (byteAddress other i)) :
    readPage chain n m = readPage other n m' :=
  List.map_congr_left fun i hi => h i (List.mem_range.1 hi)

theorem readPage_succ (chain : List Nat) (n : Nat) (m : List Host.Cell) :
    readPage chain (n + 1) m = readPage chain n m ++ [dramRead m (byteAddress chain n)] := by
  rw [readPage, List.range_succ, List.map_append]
  rfl

/-- Data written behind a page's bytes read back behind them. -/
theorem readPage_writePage (hnodup : chain.Nodup) (data : List Byte) (hm : dramWf m = true)
    (hroom : n + data.length ≤ Config.blockBytes * chain.length) :
    readPage chain (n + data.length) (writePage chain n data m) = readPage chain n m ++ data := by
  induction data generalizing n m with
  | nil => exact (List.append_nil _).symm
  | cons b rest ih =>
    rw [List.length_cons] at hroom
    have hbefore : readPage chain n (dramWrite m (byteAddress chain n) b) = readPage chain n m :=
      readPage_congr fun i hi => dramRead_dramWrite_other b
        (fun h => hi.ne (byteAddress_inj hnodup (by omega) (by omega) h)) hm
    calc readPage chain (n + (b :: rest).length) (writePage chain n (b :: rest) m)
      _ = readPage chain (n + 1 + rest.length) (writePage chain (n + 1) rest (dramWrite m (byteAddress chain n) b)) := by
        rw [List.length_cons, Nat.add_comm rest.length, Nat.add_assoc, writePage]
      _ = readPage chain (n + 1) (dramWrite m (byteAddress chain n) b) ++ rest :=
        ih (dramWrite_wf b hm) (by omega)
      _ = readPage chain n m ++ b :: rest := by
        rw [readPage_succ, hbefore, dramRead_dramWrite_same b hm, List.append_assoc]
        rfl

/-- Data written into one page leave a page without a block in common as it was. -/
theorem readPage_writePage_disjoint {other : List Nat} {k : Nat} (data : List Byte) (hm : dramWf m = true)
    (hapart : other.Disjoint chain) (hroom : n + data.length ≤ Config.blockBytes * chain.length)
    (hk : k ≤ Config.blockBytes * other.length) :
    readPage other k (writePage chain n data m) = readPage other k m :=
  readPage_congr fun i hi => dramRead_writePage_other chain n data hm fun x _ hx h =>
    hapart (byteAddress_div_mem (by omega)) (h ▸ byteAddress_div_mem (by omega))

-- ## The chains of a sound store

namespace State

theorem BlocksSound.allChains_nodup (h : s.BlocksSound) : (allChains s).Nodup :=
  (List.nodup_append.1 ((h.partition.nodup_iff).2 List.nodup_range)).2.1

theorem BlocksSound.chain_nodup (h : s.BlocksSound) (r : RecordId) : s.pages[r].chain.Nodup :=
  (List.nodup_flatMap.1 h.allChains_nodup).1 _ (by simp)

theorem BlocksSound.chain_disjoint (h : s.BlocksSound) {k : RecordId} (hk : k ≠ r) :
    s.pages[k].chain.Disjoint s.pages[r].chain := by
  have hpair := List.pairwise_iff_getElem.1 (List.nodup_flatMap.1 h.allChains_nodup).2
  rcases lt_or_gt_of_ne hk with hlt | hgt
  · exact hpair k.val r.val (by simp) (by simp) hlt
  · exact (hpair r.val k.val (by simp) (by simp) hgt).symm

theorem BlocksSound.length_le (h : s.BlocksSound) (r : RecordId) :
    s.pages[r].length ≤ Config.blockBytes * s.pages[r].chain.length := by
  rw [h.chains r]
  exact le_blocksFor _

end State

-- ## What reads a page's bytes

theorem readOut_of_store (h : t.store = s.store) (r : RecordId) : t.readOut r = s.readOut r := by
  rw [State.readOut, State.readOut, State.store_pages h, State.store_dram h]

theorem sealPage_readOut (s : State) (j : SlotId) (r k : RecordId) : (s.sealPage j r).readOut k = s.readOut k := by
  have hdram : (s.sealPage j r).dram = s.dram := (s.sealPage_keeps j r).part .dram
  rw [State.readOut, State.readOut, hdram]
  by_cases hk : k = r
  · rw [hk, sealPage_pages_self]
  · rw [sealPage_pages_ne hk]

theorem pageData_readOut (s : State) (body : List Byte) (j : SlotId) (r : RecordId) (last : Bool) (k : RecordId) :
    (s.pageData j r (hasBit (byteAt body 2) 0) last (byteAt body 3) (body.drop 4)).readOut k =
      (s.withData body j r).readOut k := by
  rw [pageData_eq]
  split
  · rw [readOut_of_store (State.afterSeal_store _ j), sealPage_readOut]
  · rfl

-- ## The bytes that a PAGE_DATA adds

theorem readied_sound (hs : s.Sound) (h : PageDataPasses s body j r) :
    (s.readied body j r).Sound ∧ (s.readied body j r).pages[r].state ≠ .free := by
  obtain ⟨-, -, -, -, -, hpage, -⟩ := h
  unfold State.readied
  by_cases hfirst : hasBit (byteAt body 2) 0 = true
  · rw [if_pos hfirst] at hpage ⊢
    obtain ⟨-, -, hfree, -⟩ := hpage
    exact ⟨hs.beginPage j hfree _, by rw [beginPage_pages_self]; exact nofun⟩
  · rw [if_neg hfirst] at hpage ⊢
    exact ⟨hs, by rw [(hs.2.filling j r hpage).1]; exact nofun⟩

theorem withData_sound (hs : s.Sound) (h : PageDataPasses s body j r) : (s.withData body j r).Sound := by
  obtain ⟨hsound, hstate⟩ := readied_sound hs h
  have hpool : (s.readied body j r).freePool = s.freePool := (readied_keeps s body j r).part .freePool
  refine hsound.appendData hstate _ ?_
  rw [readied_moreBlocks h, hpool]
  exact h.2.2.2.2.2.2.2

/-- The page reads its old bytes, and behind them the data. -/
theorem withData_readOut_self (hs : s.Sound) (h : PageDataPasses s body j r) : (s.withData body j r).readOut r =
    readPage (dataRecord s body j r).chain (dataRecord s body j r).length s.dram ++ body.drop 4 := by
  have hfilled := (withData_sound hs h).1
  have hnodup := hfilled.chain_nodup r
  have hroom := hfilled.length_le r
  have hold := (readied_sound hs h).1.1.length_le r
  rw [readied_pages_self h] at hold
  have hlen : (s.withData body j r).pages[r].length = (dataRecord s body j r).length + (body.drop 4).length := by
    rw [withData_pages_self h]
  rw [hlen] at hroom
  rw [State.readOut, withData_dram h, hlen, readPage_writePage hnodup _ hs.1.dram hroom, withData_pages_self h]
  exact congrArg (· ++ body.drop 4) (readPage_congr fun i hi => by rw [byteAddress_append (by omega)])

/-- Every other page reads as before. -/
theorem withData_readOut_ne (hs : s.Sound) (h : PageDataPasses s body j r) {k : RecordId} (hk : k ≠ r) :
    (s.withData body j r).readOut k = s.readOut k := by
  have hfilled := (withData_sound hs h).1
  have hapart := hfilled.chain_disjoint hk
  have hroom := hfilled.length_le r
  have hlen : (s.withData body j r).pages[r].length = (dataRecord s body j r).length + (body.drop 4).length := by
    rw [withData_pages_self h]
  rw [hlen] at hroom
  have hsame := withData_pages_ne s body j hk
  rw [hsame] at hapart
  rw [State.readOut, State.readOut, hsame, withData_dram h]
  exact readPage_writePage_disjoint _ hs.1.dram hapart hroom (hs.1.length_le k)

/-- Settles O16: the data read back behind the page's bytes, and the other pages have no block of it. -/
theorem pageBytesReadBack : Obligations.PageBytesReadBack := by
  intro s tag body j r hstore hdram ht hform hpasses
  have hs : s.popInbox.Sound := (State.sound_iff _).2 ⟨hstore, hdram⟩
  refine completes_ok rfl ht (pageDataOk_of hform) (judgePageData_passes (s := s.popInbox) hpasses)
    (State.pageData_keeps _ j r _ _ _ _) fun _ _ => ⟨?_, fun k hk _ => ?_⟩
  · rw [readOut_of_store (State.placeReply_store _ _), pageData_readOut, withData_readOut_self hs hpasses]
    by_cases hfirst : hasBit (byteAt body 2) 0 = true
    · rw [if_pos hfirst, dataRecord, if_pos hfirst]
      rfl
    · rw [if_neg hfirst, dataRecord_filling hfirst]
      rfl
  · rw [readOut_of_store (State.placeReply_store _ _), pageData_readOut, withData_readOut_ne hs hpasses hk]
    rfl

end Sys2Proof.Machine
end

