-- ==== Sys2Proof/Proofs/PageSealed.lean ====
section
/-! SUPPORT. A PAGE_DATA with LAST (R56 to R58): the page sealed into its job's list, and what its job does then by its
state. -/

set_option Elab.async false

namespace Sys2Proof.Machine

open Sys2Proof.Safety

variable {s t : State} {body : List Byte} {j : SlotId} {r : RecordId} {p : PortId}

-- ## The page in its job's list

/-- The state with the data in the record and the page sealed (steps 1 to 4 of R56). -/
def State.withSealed (s : State) (body : List Byte) (j : SlotId) (r : RecordId) : State :=
  (s.withData body j r).sealPage j r

/-- A job's record with the page of record `r` as its last place (R56, R58). -/
def Job.gains (x : Job) (r : RecordId) (page : PageRecord) : Job :=
  Job.foldNeeds page { x with pages := x.pages ++ [some r], filling := none }

theorem withSealed_pages_self (h : PageDataPasses s body j r) : (s.withSealed body j r).pages[r] =
    { dataRecord s body j r with
      state := .sealed, place := some (s.jobs[j].pages.length + 1)
      length := (dataRecord s body j r).length + (body.drop 4).length
      chain := (dataRecord s body j r).chain ++ s.freePool.take (newBlocks s body j r) } := by
  rw [State.withSealed, sealPage_pages_self, withData_pages_self h, withData_jobs_self h]

theorem withSealed_pages_ne (s : State) (body : List Byte) (j : SlotId) {k : RecordId} (hk : k ≠ r) :
    (s.withSealed body j r).pages[k] = s.pages[k] := (sealPage_pages_ne hk).trans (withData_pages_ne s body j hk)

theorem withSealed_freePool (h : PageDataPasses s body j r) :
    (s.withSealed body j r).freePool = s.freePool.drop (newBlocks s body j r) := withData_freePool h

theorem withSealed_jobs_self (h : PageDataPasses s body j r) :
    (s.withSealed body j r).jobs[j] = s.jobs[j].gains r (dataRecord s body j r) := by
  rw [State.withSealed, sealPage_jobs_self, withData_jobs_self h, withData_pages_self h]
  rfl

theorem withSealed_jobs_ne (s : State) (body : List Byte) (r : RecordId) {k : SlotId} (hk : k ≠ j) :
    (s.withSealed body j r).jobs[k] = s.jobs[k] :=
  (State.updJob_jobs_ne _ _ _ _ hk).trans (withData_jobs_ne s body r hk)

theorem withSealed_keeps (s : State) (body : List Byte) (j : SlotId) (r : RecordId) :
    KeepsAllBut [.jobs, .pages, .freePool, .dram] s (s.withSealed body j r) :=
  ((withData_keeps s body j r).trans (State.sealPage_keeps _ j r)).mono

/-- Two states of which every part reads the same are one state. -/
theorem eq_of_parts_same (h : ∀ x : Part, x.same s t) : t = s := by
  obtain ⟨⟩ := s
  obtain ⟨⟩ := t
  rw [State.mk.injEq]
  exact ⟨h .checker, h .inbox, h .replies, h .notices, h .onLink, h .startInterval, h .startFlag, h .partOwed,
    h .startCause, h .restarting, h .jobs, h .queues, h .markLine, h .pages, h .freePool, h .dram, h .rows, h .rings,
    h .proposals, h .passInProgress, h .passOwed, h .ports, h .pressLog, h .tariffs, h .accounts, h .alerts,
    h .openAlerts, h .clock, h .timers, h .freeCount, h .pending⟩

/-- A table that differs from another at one index only. -/
theorem eq_set_of_same_else {α : Type} {n : Nat} {v w : Vector α n} (i : Fin n) (h : ∀ k : Fin n, k ≠ i → v[k] = w[k]) :
    v = w.set i.val v[i] := by
  refine Vector.ext fun k hk => ?_
  by_cases hki : k = i.val
  · subst hki
    rw [Vector.getElem_set_self]
    rfl
  · rw [Vector.getElem_set_ne _ _ (Ne.symm hki)]
    exact h ⟨k, hk⟩ fun e => hki (congrArg Fin.val e)

-- ## What the job does then

theorem afterSeal_waiting (h : s.jobs[j].state = .waiting) : s.afterSeal j = s.askIfRun s.jobs[j].queue := by
  unfold State.afterSeal
  rw [h]

theorem afterSeal_rests (h : s.jobs[j].state = .error ∨ s.jobs[j].state = .handed) : s.afterSeal j = s := by
  unfold State.afterSeal
  rcases h with h | h <;> rw [h]

theorem afterSeal_active (h : s.jobs[j].state = .active) (hp : s.jobs[j].feedPort = some p) :
    s.afterSeal j = s.offerAttempt p := by
  unfold State.afterSeal
  rw [h, hp]

theorem afterSeal_starved (h : s.jobs[j].state = .starved) (hn : s.jobs[j].nextPage.isSome)
    (hp : s.jobs[j].feedPort = some p) : s.afterSeal j = (s.woken p j).offerAttempt p := by
  rw [← wake_fires h hn hp, State.afterSeal, h]

/-- A WAITING job asks for a pass if its queue is in RUN, an ERROR or HANDED job for none (step 5 of R56). -/
theorem afterSeal_asked {q : QueueId} (hq : s.jobs[j].queue = q)
    (h : s.jobs[j].state = .waiting ∨ s.jobs[j].state = .error ∨ s.jobs[j].state = .handed) :
    AskedIf (s.jobs[j].state = .waiting ∧ s.queues[q].mode = .run) s (s.afterSeal j) ∧
      KeepsAllBut [.passInProgress, .passOwed] s (s.afterSeal j) := by
  subst hq
  rcases h with h | h
  · rw [afterSeal_waiting h]
    have hasked := askIfRun_asked s s.jobs[j].queue
    exact ⟨⟨fun ⟨_, hrun⟩ => hasked.1 hrun, fun hno => hasked.2 fun hrun => hno ⟨h, hrun⟩⟩, State.askIfRun_keeps s _⟩
  · rw [afterSeal_rests h]
    refine ⟨⟨fun ⟨hw, _⟩ => ?_, fun _ => .refl s⟩, .refl _ s⟩
    rw [hw] at h
    exact absurd h (by decide)

/-- The job's record and the port's as the offer attempt after a seal finds them (R93, R103). -/
def State.feedWoken (s : State) (p : PortId) (j : SlotId) : State :=
  { s with
    jobs := s.jobs.set j.val { s.jobs[j] with
      state := .active, reason := if s.jobs[j].state = .starved then none else s.jobs[j].reason }
    ports := s.ports.set p.val { s.ports[p] with
      starveTimer := if s.jobs[j].state = .starved then none else s.ports[p].starveTimer } }

theorem feedWoken_active (h : s.jobs[j].state = .active) : s.feedWoken p j = s := by
  have hjob : { s.jobs[j] with
      state := .active, reason := if s.jobs[j].state = .starved then none else s.jobs[j].reason } = s.jobs[j] := by
    rw [if_neg (by rw [h]; decide), ← h]
  have hports : s.ports.set p.val s.ports[p] = s.ports := Vector.set_getElem_self ..
  have hjobs : s.jobs.set j.val s.jobs[j] = s.jobs := Vector.set_getElem_self ..
  rw [State.feedWoken, hjob, if_neg (by rw [h]; decide), hjobs]
  exact congrArg (fun v => { s with ports := v }) hports

theorem feedWoken_starved (h : s.jobs[j].state = .starved) : s.feedWoken p j = s.woken p j := by
  rw [State.feedWoken, if_pos h, if_pos h]
  rfl

/-- The port of an ACTIVE job, or of a STARVED job that has a page to send, makes an offer attempt. -/
theorem afterSeal_attempts (h : s.jobs[j].state = .active ∨ s.jobs[j].state = .starved ∧ s.jobs[j].nextPage.isSome)
    (hp : s.jobs[j].feedPort = some p) : s.afterSeal j = (s.feedWoken p j).offerAttempt p := by
  rcases h with hactive | ⟨hstarved, hnext⟩
  · rw [afterSeal_active hactive hp, feedWoken_active hactive]
  · rw [afterSeal_starved hstarved hnext hp, feedWoken_starved hstarved]

theorem feedWoken_feedOwner (s : State) (p : PortId) (j : SlotId) :
    (s.feedWoken p j).ports[p].feedOwner = s.ports[p].feedOwner := by
  simp [State.feedWoken]

theorem feedWoken_keeps (s : State) (p : PortId) (j : SlotId) : KeepsAllBut [.jobs, .ports] s (s.feedWoken p j) := by
  intro part hpart
  cases part <;> first | rfl | simp at hpart

-- ## The seal and what follows it

theorem gains_nextPage {x : Job} {page : PageRecord} (h : x.cursorPage = x.pages.length + 1) :
    (x.gains r page).nextPage = some r := by
  have hcursor : (x.gains r page).cursorPage = x.pages.length + 1 := h
  rw [Job.nextPage, hcursor, Job.pageAt, if_neg (Nat.succ_ne_zero _), Nat.add_sub_cancel]
  simp [Job.gains, Job.foldNeeds]

/-- The offer attempt after the seal starts from the sealed page, the job made ACTIVE and its port's timer stopped. -/
theorem withSealed_feedWoken (h : PageDataPasses s body j r) : (s.withSealed body j r).feedWoken p j =
    { s with
      pages := s.pages.set r.val (s.withSealed body j r).pages[r]
      freePool := (s.withSealed body j r).freePool, dram := (s.withSealed body j r).dram
      jobs := s.jobs.set j.val { s.jobs[j].gains r (dataRecord s body j r) with
        state := .active, reason := if s.jobs[j].state = .starved then none else s.jobs[j].reason }
      ports := s.ports.set p.val { s.ports[p] with
        starveTimer := if s.jobs[j].state = .starved then none else s.ports[p].starveTimer } } := by
  have hpages := eq_set_of_same_else r fun k hk => withSealed_pages_ne s body j (r := r) hk
  have hjobs := eq_set_of_same_else j fun k hk => withSealed_jobs_ne s body r (j := j) hk
  have hports : (s.withSealed body j r).ports = s.ports := (withSealed_keeps s body j r).part .ports
  have hstate : (s.withSealed body j r).jobs[j].state = s.jobs[j].state := by
    rw [withSealed_jobs_self h]
    rfl
  have hreason : (s.withSealed body j r).jobs[j].reason = s.jobs[j].reason := by
    rw [withSealed_jobs_self h]
    rfl
  have hkeeps : KeepsAllBut [.jobs, .ports, .pages, .freePool, .dram] s ((s.withSealed body j r).feedWoken p j) :=
    ((withSealed_keeps s body j r).trans (feedWoken_keeps _ p j)).mono
  refine eq_of_parts_same fun x => ?_
  have hkept := hkeeps x
  cases x
  case jobs =>
    show (s.withSealed body j r).jobs.set j.val _ = s.jobs.set j.val _
    rw [hstate, hreason, withSealed_jobs_self h, hjobs, Vector.set_set]
  case ports =>
    show (s.withSealed body j r).ports.set p.val _ = s.ports.set p.val _
    rw [hports, hstate]
  case pages => exact hpages
  case freePool => rfl
  case dram => rfl
  all_goals exact hkept (by decide)

/-- What every seal leaves of the record, the pool and the job's pages and Needs. -/
theorem sealed_job (h : PageDataPasses s body j r) (hst : t.store = (s.withSealed body j r).store) :
    t.jobs[j].pages = s.jobs[j].pages ++ [some r] ∧ t.jobs[j].filling = none ∧
      t.jobs[j].needsMedia = addBit s.jobs[j].needsMedia (dataRecord s body j r).media.val ∧
      t.jobs[j].needsColour = (s.jobs[j].needsColour || (dataRecord s body j r).colour != .mono) ∧
      t.jobs[j].needsDuplex = (s.jobs[j].needsDuplex || (dataRecord s body j r).sides == 2) := by
  have hholding := State.store_holding hst j
  rw [withSealed_jobs_self h] at hholding
  exact ⟨congrArg Holding.pages hholding, congrArg Holding.filling hholding, congrArg Holding.needsMedia hholding,
    congrArg Holding.needsColour hholding, congrArg Holding.needsDuplex hholding⟩

/-- A WAITING, ERROR or HANDED job gains the page; of the rest only a pass may have been asked. -/
theorem sealed_rests (h : PageDataPasses s body j r)
    (hstate : s.jobs[j].state = .waiting ∨ s.jobs[j].state = .error ∨ s.jobs[j].state = .handed) :
    let t := (s.withSealed body j r).afterSeal j
    t.jobs[j] = { s.jobs[j] with
      pages := t.jobs[j].pages, filling := none, needsMedia := t.jobs[j].needsMedia
      needsColour := t.jobs[j].needsColour, needsDuplex := t.jobs[j].needsDuplex } ∧ OtherJobsSame j s t ∧
    AskedIf (s.jobs[j].state = .waiting ∧ s.queues[s.jobs[j].queue].mode = .run) s t ∧
    KeepsAllBut [.jobs, .pages, .freePool, .dram, .passInProgress, .passOwed] s t := by
  intro t
  have hjob := withSealed_jobs_self h
  have hkeeps := withSealed_keeps s body j r
  have hmine : (s.withSealed body j r).jobs[j].state = s.jobs[j].state := by
    rw [hjob]
    rfl
  have hqueues : (s.withSealed body j r).queues = s.queues := hkeeps.part .queues
  obtain ⟨hasked, hquiet⟩ := afterSeal_asked (q := s.jobs[j].queue) (by rw [hjob]; rfl) (hmine.symm ▸ hstate)
  have hjobs : t.jobs = (s.withSealed body j r).jobs := hquiet.part .jobs
  rw [hmine, hqueues] at hasked
  refine ⟨?_, fun k hk => ?_, hasked.after (.of_keeps hkeeps), (hkeeps.trans hquiet).mono⟩
  · rw [hjobs, hjob]
    rfl
  · rw [hjobs]
    exact withSealed_jobs_ne s body r hk

/-- The port of an ACTIVE job, or of a STARVED one whose cursor stands on the new place, makes the offer attempt. -/
theorem sealed_attempts (h : PageDataPasses s body j r)
    (hstate : s.jobs[j].state = .active ∨
      s.jobs[j].state = .starved ∧ s.jobs[j].cursorPage = s.jobs[j].pages.length + 1)
    (hfeed : s.jobs[j].feedPort = some p) (howner : s.ports[p].feedOwner = some j) :
    let t := (s.withSealed body j r).afterSeal j
    Attempted { s with
      pages := s.pages.set r.val t.pages[r], freePool := t.freePool, dram := t.dram
      jobs := s.jobs.set j.val { s.jobs[j] with
        state := .active, reason := if s.jobs[j].state = .starved then none else s.jobs[j].reason
        pages := s.jobs[j].pages ++ [some r], filling := none, needsMedia := t.jobs[j].needsMedia
        needsColour := t.jobs[j].needsColour, needsDuplex := t.jobs[j].needsDuplex }
      ports := s.ports.set p.val { s.ports[p] with
        starveTimer := if s.jobs[j].state = .starved then none else s.ports[p].starveTimer } } t p j := by
  intro t
  have hst : t.store = (s.withSealed body j r).store := State.afterSeal_store _ j
  obtain ⟨-, -, hmedia, hcolour, hduplex⟩ := sealed_job h hst
  have hjob := withSealed_jobs_self h
  have hports : (s.withSealed body j r).ports = s.ports := (withSealed_keeps s body j r).part .ports
  have hready : (s.withSealed body j r).jobs[j].state = .active ∨
      (s.withSealed body j r).jobs[j].state = .starved ∧ (s.withSealed body j r).jobs[j].nextPage.isSome := by
    rw [hjob]
    exact hstate.imp id fun ⟨hstarved, hcursor⟩ => ⟨hstarved, by rw [gains_nextPage hcursor]; rfl⟩
  have hattempt : t = ((s.withSealed body j r).feedWoken p j).offerAttempt p :=
    afterSeal_attempts hready (by rw [hjob]; exact hfeed)
  rw [State.store_pages hst, State.store_freePool hst, State.store_dram hst, hmedia, hcolour, hduplex, hattempt]
  have hattempted := offerAttempt_attempted (s := (s.withSealed body j r).feedWoken p j) (p := p) (j := j)
    (by rw [feedWoken_feedOwner, hports]; exact howner)
  rw [withSealed_feedWoken h] at hattempted ⊢
  exact hattempted

/-- The inbox and the replies have no part in an offer attempt. -/
theorem attempted_of_request {inbox : List Request} {f : HostFrame}
    (h : Attempted { s with inbox := inbox } t p j) : Attempted s (t.placeReply f) p j := h

theorem pageDataReply_sealed (len place : Nat) (t : State) :
    pageDataReply len true place t = beBytes 4 len ++ [1] ++ beBytes 2 place ++ beBytes 4 t.freePool.length := rfl

/-- Settles O17: the page sealed into the list, and by the job's state the pass asked or the offer attempt. -/
theorem lastSealsThePage : Obligations.LastSealsThePage := by
  intro s tag body j r ht hform hpasses hlast
  have hpass := judgePageData_passes (s := s.popInbox) hpasses
  rw [pageData_eq, hlast, if_pos rfl] at hpass
  have hkept : KeepsAllBut [.jobs, .ports, .accounts, .pages, .freePool, .dram, .pressLog, .notices, .passInProgress,
      .passOwed] s.popInbox ((s.popInbox.withSealed body j r).afterSeal j) :=
    ((withSealed_keeps _ body j r).trans (State.afterSeal_keeps _ j)).mono
  refine completes_ok rfl ht (pageDataOk_of hform) hpass hkept fun hreplied hk => ?_
  have hst := State.afterSeal_store (s.popInbox.withSealed body j r) j
  obtain ⟨hpages, hfilling, hmedia, hcolour, hduplex⟩ := sealed_job (s := s.popInbox) hpasses hst
  have hkeptPages : ((s.popInbox.withSealed body j r).afterSeal j).pages = (s.popInbox.withSealed body j r).pages :=
    State.store_pages hst
  have hpool : ((s.popInbox.withSealed body j r).afterSeal j).freePool = s.freePool.drop (newBlocks s body j r) :=
    (State.store_freePool hst).trans (withSealed_freePool (s := s.popInbox) hpasses)
  refine ⟨?_, ?_, fun k hk => ?_, hpool, hpages, hfilling, hmedia, hcolour, hduplex, fun hstate => ?_,
    fun p hstate hfeed howner => ⟨?_, hk⟩⟩
  · have hbody : pageDataReply ((dataRecord s body j r).length + (body.drop 4).length) true
        (s.jobs[j].pages.length + 1) ((s.popInbox.withSealed body j r).afterSeal j) =
        beBytes 4 ((dataRecord s body j r).length + (body.drop 4).length) ++ [1] ++
          beBytes 2 (s.jobs[j].pages.length + 1) ++ beBytes 4 (s.freePool.length - newBlocks s body j r) := by
      rw [pageDataReply_sealed, hpool, List.length_drop (l := s.freePool)]
    rw [← hbody]
    exact hreplied
  · rw [State.placeReply_pages]
    exact (congrArg (fun v : Vector PageRecord 4096 => v[r]) hkeptPages).trans (withSealed_pages_self (s := s.popInbox) hpasses)
  · rw [State.placeReply_pages]
    exact (congrArg (fun v : Vector PageRecord 4096 => v[k]) hkeptPages).trans (withSealed_pages_ne s.popInbox body j hk)
  · obtain ⟨hjob, hothers, hasked, hquiet⟩ := sealed_rests (s := s.popInbox) hpasses hstate
    exact ⟨hjob, hothers, hasked, ((s.popInbox_keeps.trans hquiet).trans (State.placeReply_keeps _ _)).mono⟩
  · exact attempted_of_request (sealed_attempts (s := s.popInbox) hpasses hstate hfeed howner)

end Sys2Proof.Machine
end

