-- ==== Sys2Proof/Proofs/RouteRows.lean ====
section
/-! SUPPORT. The requests that write a row of the Route Table, ROW_WRITE, MEMBER_SET and MEMBER_CLEAR (R69, R70). -/

namespace Sys2Proof.Machine

open Sys2Proof.Safety

variable {s : State} {kind tag : Byte} {body : List Byte} {n : Fin 64} {c : Instr} {encoded : Bool}
  {judge : State → Judged}

-- ## Operands outside their ranges

theorem rowOf_none {b : Byte} (h : 63 < b.toNat) : rowOf b = none := dif_neg (by omega)

theorem portOf_none {b : Byte} (h : 15 < b.toNat) : portOf b = none := dif_neg (by omega)

-- ## One row written

/-- The answer to a request that makes row `n` the set `x`: the reply with the set, the row, the pass and the frame. -/
structure RowAnswered (s t : State) (kind tag : Byte) (n : Fin 64) (x : PortSet) : Prop where
  replied : Replied s t kind tag 0x00 (beBytes 2 x.toNat)
  row : t.rows[n] = x
  others : ∀ i : Fin 64, i ≠ n → t.rows[i] = s.rows[i]
  asked : Asked s t
  keeps : KeepsAllBut [.inbox, .replies, .rows, .passInProgress, .passOwed] s t

theorem writeRow_rows_self (s : State) (n : Fin 64) (f : PortSet → PortSet) :
    (s.writeRow n f).rows[n] = f s.rows[n] := by
  simp [State.writeRow]

theorem writeRow_rows_ne (s : State) {n i : Fin 64} (f : PortSet → PortSet) (h : i ≠ n) :
    (s.writeRow n f).rows[i] = s.rows[i] := by
  simp only [State.writeRow, State.ask_rows, Fin.getElem_fin]
  exact Vector.getElem_set_ne _ _ fun e => h (Fin.ext e.symm)

/-- The ask is made on the state with its row written, which has the pass in progress and the owed pass of `s`. -/
theorem writeRow_asked (s : State) (n : Fin 64) (f : PortSet → PortSet) : Asked s (s.writeRow n f) :=
  (ask_asked _).after ⟨rfl, rfl⟩

/-- A taken request that its checks let through to a write of row `n`. -/
theorem completes_writeRow {f : PortSet → PortSet} (hc : exec c s = .next (s.request kind tag body encoded judge))
    (h : Takes s kind tag body) (he : encoded = true)
    (hj : judge s.popInbox = ok (s.popInbox.writeRow n f) ((s.popInbox.writeRow n f).rowReply n)) :
    Completes c s fun t => RowAnswered s t kind tag n (f s.rows[n]) := by
  rw [State.rowReply, writeRow_rows_self] at hj
  exact completes_ok hc h he hj (State.writeRow_keeps _ n f) fun hreplied hkeeps =>
    ⟨hreplied, writeRow_rows_self s.popInbox n f, fun _ hi => writeRow_rows_ne s.popInbox f hi,
      writeRow_asked s.popInbox n f, hkeeps⟩

-- ## MEMBER_SET and MEMBER_CLEAR

theorem hasBit_dropBit {w : Nat} (x : BitVec w) (i k : Nat) :
    hasBit (dropBit x i) k = (hasBit x k && !decide (i = k)) := by
  simp only [hasBit, dropBit, BitVec.getLsbD_and, BitVec.getLsbD_not, BitVec.getLsbD_twoPow]
  by_cases hk : k < w
  · by_cases hik : i = k
    · simp [hik, hk]
    · simp [hik, hk]
  · simp [BitVec.getLsbD_of_ge x k (by omega)]

/-- The rule of MEMBER_SET and MEMBER_CLEAR: the named row becomes `f` of itself and the named port. -/
def judgeMember (f : PortSet → Nat → PortSet) (body : List Byte) (s : State) : Judged :=
  orRange (rowOf (byteAt body 0)) fun n => orRange (portOf (byteAt body 1)) fun p =>
    let t := s.writeRow n (fun x => f x p.val)
    ok t (t.rowReply n)

theorem judgeMemberSet_eq : judgeMemberSet = judgeMember addBit := rfl

theorem judgeMemberClear_eq : judgeMemberClear = judgeMember dropBit := rfl

theorem judgeMember_eq {p : PortId} (f : PortSet → Nat → PortSet) (hn : (byteAt body 0).toNat = n.val)
    (hp : (byteAt body 1).toNat = p.val) : judgeMember f body s =
      ok (s.writeRow n fun x => f x p.val) ((s.writeRow n fun x => f x p.val).rowReply n) := by
  rw [judgeMember, rowOf_eq hn, orRange_some, portOf_eq hp, orRange_some]

/-- Both requests follow `judgeMember`, by a function that makes the named port a member or none and no more (R70). -/
theorem memberRequest_rule
    (h : kind = 0x21 ∧ c = .memberSet tag body ∨ kind = 0x22 ∧ c = .memberClear tag body) :
    ∃ f : PortSet → Nat → PortSet,
      (∀ s, exec c s = .next (s.request kind tag body (sized 2 body) (judgeMember f body))) ∧
      ∀ (x : PortSet) (p k : PortId),
        hasBit (f x p.val) k.val = if k = p then decide (kind = 0x21) else hasBit x k.val := by
  rcases h with ⟨rfl, rfl⟩ | ⟨rfl, rfl⟩
  · refine ⟨addBit, fun _ => judgeMemberSet_eq ▸ rfl, fun x p k => ?_⟩
    rw [hasBit_addBit]
    by_cases hk : k = p
    · simp [hk]
    · simp [hk, Fin.val_inj, Ne.symm hk]
  · refine ⟨dropBit, fun _ => judgeMemberClear_eq ▸ rfl, fun x p k => ?_⟩
    rw [hasBit_dropBit]
    by_cases hk : k = p
    · simp [hk]
    · simp [hk, Fin.val_inj, Ne.symm hk]

/-- Settles O28: both requests by their one rule, `memberRequest_rule`. -/
theorem memberRequestsChangeOneMember : Obligations.MemberRequestsChangeOneMember := by
  intro s tag body kind c hkind htakes hsize
  obtain ⟨f, hc, hmember⟩ := memberRequest_rule hkind
  have hform : sized 2 body = true := (sized_iff 2).2 hsize
  refine ⟨fun hrange => exec_refused (hc s) htakes hform (orRange_refuses (hrange.imp rowOf_none portOf_none)),
    fun n p hn hp => ?_⟩
  obtain ⟨t, hexec, hreplied, hrow, hothers, hasked, hkeeps⟩ :=
    completes_writeRow (hc s) htakes hform (judgeMember_eq f hn hp)
  refine ⟨t, hexec, ?_, fun k => ?_, hothers, hasked, hkeeps⟩
  · rw [hrow]
    exact hreplied
  · rw [hrow]
    exact hmember s.rows[n] p k

-- ## ROW_WRITE

theorem word_toNat (body : List Byte) (i : Nat) : (BitVec.ofNat 16 (wordAt body i)).toNat =
    256 * (byteAt body i).toNat + (byteAt body (i + 1)).toNat := by
  have hhigh := (byteAt body i).isLt
  have hlow := (byteAt body (i + 1)).isLt
  rw [BitVec.toNat_ofNat, wordAt]
  omega

/-- Two bytes are the big-endian bytes of the number that they spell. -/
theorem beBytes_two (a b : Byte) : beBytes 2 (256 * a.toNat + b.toNat) = [a, b] := by
  have ha := a.isLt
  have hb := b.isLt
  have hhigh : BitVec.ofNat 8 ((256 * a.toNat + b.toNat) / 256) = a := by bv_omega
  have hlow : BitVec.ofNat 8 (256 * a.toNat + b.toNat) = b := by bv_omega
  simp only [beBytes, pow_one, pow_zero, Nat.div_one, hhigh, hlow]

/-- A taken ROW_WRITE refuses a row outside its range and writes the set of its two bytes (R69). -/
theorem rowWrite_writes (htakes : Takes s 0x20 tag body) (hsize : body.length = 3) :
    (63 < (byteAt body 0).toNat → Refuses (.rowWrite tag body) s 0x20 tag 0x05) ∧
    ∀ n : Fin 64, (byteAt body 0).toNat = n.val → Completes (.rowWrite tag body) s fun t =>
      RowAnswered s t 0x20 tag n (BitVec.ofNat 16 (wordAt body 1)) := by
  have hform : sized 3 body = true := (sized_iff 3).2 hsize
  refine ⟨fun hrange => exec_refused (rc := .range) rfl htakes hform ?_, fun n hn => ?_⟩
  · rw [judgeRowWrite, rowOf_none hrange]
    rfl
  · exact completes_writeRow rfl htakes hform (f := fun _ => BitVec.ofNat 16 (wordAt body 1))
      (by rw [judgeRowWrite, rowOf_eq hn]; rfl)

end Sys2Proof.Machine
end

