-- ==== Sys2Proof/Proofs/RouteRings.lean ====
section
/-! SUPPORT. The requests that write a ring of the Route Table, ROUTE_SET and ROUTE_STEP (R71 to R73, R81), and the
obligation on rows and rings. -/

namespace Sys2Proof.Machine

open Sys2Proof.Safety

variable {s : State} {kind tag : Byte} {body : List Byte} {q : QueueId} {c : Instr} {encoded : Bool}
  {judge : State → Judged}

-- ## One ring written

/-- The answer to a request that makes queue `q`'s ring `y`: the reply with the ring, the ring, a standing proposal
marked, the pass and the frame. -/
structure RingAnswered (s t : State) (kind tag : Byte) (q : QueueId) (y : Ring) : Prop where
  replied : Replied s t kind tag 0x00 y.bytes
  ring : t.rings[q] = y
  others : ∀ k : QueueId, k ≠ q → t.rings[k] = s.rings[k] ∧ t.proposals[k] = s.proposals[k]
  proposal : t.proposals[q] = s.proposals[q].map (fun x => { x with written := true })
  asked : Asked s t
  keeps : KeepsAllBut [.inbox, .replies, .rings, .proposals, .passInProgress, .passOwed] s t

theorem writeRing_rings_self (s : State) (q : QueueId) (y : Ring) : (s.writeRing q y).rings[q] = y := by
  simp [State.writeRing, State.markWritten]

theorem writeRing_proposals_self (s : State) (q : QueueId) (y : Ring) :
    (s.writeRing q y).proposals[q] = s.proposals[q].map (fun x => { x with written := true }) := by
  simp [State.writeRing, State.markWritten]

theorem writeRing_others (s : State) (y : Ring) {k : QueueId} (h : k ≠ q) :
    (s.writeRing q y).rings[k] = s.rings[k] ∧ (s.writeRing q y).proposals[k] = s.proposals[k] := by
  rw [State.writeRing, State.ask_rings, State.ask_proposals]
  exact ⟨s.updRing_rings_ne q (fun _ => y) k h, (s.updRing q fun _ => y).updProposal_proposals_ne q _ k h⟩

/-- The ask is made on the state with the ring written, which has the pass in progress and the owed pass of `s`. -/
theorem writeRing_asked (s : State) (q : QueueId) (y : Ring) : Asked s (s.writeRing q y) :=
  (ask_asked _).after ⟨rfl, rfl⟩

/-- A taken request that its checks let through to a write of queue `q`'s ring. -/
theorem completes_writeRing {y : Ring} (hc : exec c s = .next (s.request kind tag body encoded judge))
    (h : Takes s kind tag body) (he : encoded = true)
    (hj : judge s.popInbox = ok (s.popInbox.writeRing q y) y.bytes) :
    Completes c s fun t => RingAnswered s t kind tag q y :=
  completes_ok hc h he hj (State.writeRing_keeps _ q y) fun hreplied hkeeps =>
    ⟨hreplied, writeRing_rings_self s.popInbox q y, fun _ hk => writeRing_others s.popInbox y hk,
      writeRing_proposals_self s.popInbox q y, writeRing_asked s.popInbox q y, hkeeps⟩

-- ## The ring that a request asks for

theorem asked_none {first last current : Nat} {action : Byte} (r : Ring) (h : 2 < action.toNat) :
    r.asked first last current action = none := by
  unfold Ring.asked
  rw [if_neg (by bv_omega), if_neg (by bv_omega), if_neg (by bv_omega)]

/-- POINT and PIN write C, PIN pins and UNPIN unpins (R72). -/
theorem asked_eq {first last current : Nat} {action : Byte} (r : Ring) (h : action.toNat ≤ 2) :
    r.asked first last current action = some {
      first := first, last := last, current := if action = 2 then r.current else current
      pinned := if action = 0 then r.pinned else action == 1 } := by
  have hcases : action = 0 ∨ action = 1 ∨ action = 2 := by bv_omega
  rcases hcases with rfl | rfl | rfl <;> rfl

theorem stepped_none {direction : Byte} (r : Ring) (h : 1 < direction.toNat) : r.stepped direction = none := by
  unfold Ring.stepped
  rw [if_neg (by bv_omega), if_neg (by bv_omega)]

/-- NEXT and PREV, each with its wrap (R73). -/
theorem stepped_eq {direction : Byte} (r : Ring) (h : direction.toNat ≤ 1) : r.stepped direction = some { r with
    current := if direction = 0 then (if r.current = r.last then r.first else r.current + 1)
      else if r.current = r.first then r.last else r.current - 1 } := by
  have hcases : direction = 0 ∨ direction = 1 := by bv_omega
  rcases hcases with rfl | rfl <;> rfl

theorem ordered_iff (y : Ring) : y.ordered = true ↔ Ordered y := by
  refine ⟨ordered_of_written, fun ⟨hfirst, hcurrent, hlast⟩ => ?_⟩
  simp only [Ring.ordered, Bool.and_eq_true, decide_eq_true_eq]
  omega

-- ## The rules of ROUTE_SET and ROUTE_STEP

/-- A rule refuses RANGE when its first operand is outside its range, or its second is whatever the first is. -/
theorem orRange_refuses_either {α β : Type} {a : Option α} {b : α → Option β} {f : α → β → Judged}
    (h : a = none ∨ ∀ x, b x = none) : (orRange a fun x => orRange (b x) fun y => f x y) = .refused .range := by
  rcases h with rfl | hb
  · rfl
  · cases a with
    | none => rfl
    | some x => rw [orRange_some, hb x, orRange_none]

/-- A ROUTE_SET of a known queue and action is judged by the ring that it asks for (R71, R72). -/
theorem judgeRouteSet_eq {current : Nat} {y : Ring} (hq : (byteAt body 0).toNat = q.val)
    (haction : (byteAt body 4).toNat ≤ 2)
    (hcurrent : current = if byteAt body 4 = 2 then s.rings[q].current else (byteAt body 3).toNat)
    (hy : y = {
      first := (byteAt body 1).toNat, last := (byteAt body 2).toNat, current := current
      pinned := if byteAt body 4 = 0 then s.rings[q].pinned else byteAt body 4 == 1 }) :
    judgeRouteSet body s = if y.ordered then ok (s.writeRing q y) y.bytes else .refused .range := by
  rw [judgeRouteSet, queueOf_eq hq, orRange_some, asked_eq _ haction, orRange_some, ← hcurrent, hy]

/-- A taken ROUTE_SET refuses an operand outside its range and a ring that would not be ordered, and writes any other
ring (R71, R72). -/
theorem routeSet_writes (htakes : Takes s 0x23 tag body) (hsize : body.length = 5) :
    (7 < (byteAt body 0).toNat ∨ 2 < (byteAt body 4).toNat → Refuses (.routeSet tag body) s 0x23 tag 0x05) ∧
    ∀ (q : QueueId) (current : Nat) (y : Ring), (byteAt body 0).toNat = q.val → (byteAt body 4).toNat ≤ 2 →
      current = (if byteAt body 4 = 2 then s.rings[q].current else (byteAt body 3).toNat) →
      y = { first := (byteAt body 1).toNat, last := (byteAt body 2).toNat, current := current
            pinned := if byteAt body 4 = 0 then s.rings[q].pinned else byteAt body 4 == 1 } →
      (¬Ordered y → Refuses (.routeSet tag body) s 0x23 tag 0x05) ∧
      (Ordered y → Completes (.routeSet tag body) s fun t => RingAnswered s t 0x23 tag q y) := by
  have hform : sized 5 body = true := (sized_iff 5).2 hsize
  refine ⟨fun hrange => exec_refused rfl htakes hform (orRange_refuses_either
    (hrange.imp queueOf_none fun h _ => asked_none _ h)), fun q current y hq haction hcurrent hy => ?_⟩
  have hjudge := judgeRouteSet_eq (s := s.popInbox) hq haction hcurrent hy
  exact ⟨fun h => exec_refused rfl htakes hform (hjudge.trans (if_neg (mt (ordered_iff y).1 h))),
    fun h => completes_writeRing rfl htakes hform (hjudge.trans (if_pos ((ordered_iff y).2 h)))⟩

/-- A taken ROUTE_STEP refuses an operand outside its range and writes the ring stepped (R73). -/
theorem routeStep_writes (htakes : Takes s 0x24 tag body) (hsize : body.length = 2) :
    (7 < (byteAt body 0).toNat ∨ 1 < (byteAt body 1).toNat → Refuses (.routeStep tag body) s 0x24 tag 0x05) ∧
    ∀ (q : QueueId) (y : Ring), (byteAt body 0).toNat = q.val → s.rings[q].stepped (byteAt body 1) = some y →
      Completes (.routeStep tag body) s fun t => RingAnswered s t 0x24 tag q y := by
  have hform : sized 2 body = true := (sized_iff 2).2 hsize
  refine ⟨fun hrange => exec_refused rfl htakes hform (orRange_refuses_either
    (hrange.imp queueOf_none fun h _ => stepped_none _ h)), fun q y hq hy => ?_⟩
  have hjudge : judgeRouteStep body s.popInbox = ok (s.popInbox.writeRing q y) y.bytes := by
    rw [judgeRouteStep, queueOf_eq hq, orRange_some, State.popInbox_rings, hy, orRange_some]
  exact completes_writeRing rfl htakes hform hjudge

/-- Settles O29: each request by what it writes, `rowWrite_writes`, `routeSet_writes` and `routeStep_writes`. -/
theorem rowsAndRingsAreWritten : Obligations.RowsAndRingsAreWritten := by
  intro s tag body
  refine ⟨fun htakes hsize => ?_, fun e current htakes hsize he => ?_, fun htakes hsize => ?_⟩
  · obtain ⟨hrefused, hwritten⟩ := rowWrite_writes htakes hsize
    refine ⟨hrefused, fun n hn => ?_⟩
    obtain ⟨t, hexec, hreplied, hrow, hothers, hasked, hkeeps⟩ := hwritten n hn
    have hset := word_toNat body 1
    rw [hset, beBytes_two] at hreplied
    exact ⟨t, hexec, hreplied, by rw [hrow, hset], hothers, hasked, hkeeps⟩
  · subst he
    obtain ⟨hrefused, hjudged⟩ := routeSet_writes htakes hsize
    refine ⟨hrefused, fun q hq haction hcurrent => ?_⟩
    obtain ⟨hunordered, hwritten⟩ := hjudged q current _ hq haction hcurrent rfl
    refine ⟨fun hrange => hunordered ?_, fun hfirst hlast hbound => ?_⟩
    · rintro ⟨hfirst, hlast, hbound⟩
      dsimp only at hfirst hlast hbound
      omega
    · obtain ⟨t, hexec, hreplied, hring, hothers, hproposal, hasked, hkeeps⟩ := hwritten ⟨hfirst, hlast, hbound⟩
      refine ⟨t, hexec, ?_, hring, hothers, hproposal, hasked, hkeeps⟩
      rw [Ring.bytes, u8_toNat, u8_toNat] at hreplied
      rw [hring]
      exact hreplied
  · obtain ⟨hrefused, hwritten⟩ := routeStep_writes htakes hsize
    refine ⟨hrefused, fun q hq hdirection => ?_⟩
    obtain ⟨t, hexec, hreplied, hring, hothers, hproposal, hasked, hkeeps⟩ :=
      hwritten q _ hq (stepped_eq _ hdirection)
    refine ⟨t, hexec, ?_, ?_, ?_, hothers, hproposal, hasked, hkeeps⟩
    · rw [hring]
      exact hreplied
    · rw [hring]
    · rw [hring]

end Sys2Proof.Machine
end

