-- ==== Sys2Proof/Proofs/PortGauge.lean ====
section
/-! SUPPORT. What R83, R87, R91 and R107 say of one port, and what keeps it: a window within its depth with at most the
newest entry unsettled, empty while the link is not UP, and meters in balance with it. -/

set_option Elab.async false

namespace Sys2Proof.Machine

open Sys2Proof.Safety

variable {metered o : Prop} {es front : List SendEntry} {e : SendEntry}

-- ## What is read of a port

/-- The parts of a port that its window's soundness and its meters' balance speak of. -/
structure Gauge where
  link : LinkState
  depth : Nat
  ident : Option Ident
  window : List SendEntry
  lifetime : MeterSet
  period : MeterSet

/-- A port as a gauge. -/
def Port.gauge (x : Port) : Gauge where
  link := x.link
  depth := x.depth
  ident := x.ident
  window := x.window
  lifetime := x.lifetime
  period := x.period

/-- The faces of the TAKEN entries of a list (R107). -/
def takenFaces (es : List SendEntry) : Nat := facesOf es (fun e => e.state == .taken)

/-- Every meter of a set is below its modulus (R107). -/
structure MeterSet.Bounded (m : MeterSet) : Prop where
  taken : m.taken < 1000000000
  sheets : m.sheets < 1000000000
  mono : m.mono < 1000000000
  spot : m.spot < 1000000000
  full : m.full < 1000000000
  spoiled : m.spoiled < 1000000000

namespace Gauge

/-- Both meter sets are in range, and the lifetime set balances with the window (R107). -/
structure Balanced (g : Gauge) : Prop where
  lifetime : g.lifetime.Bounded
  period : g.period.Bounded
  taken : g.lifetime.taken = (g.lifetime.mono + g.lifetime.spot + g.lifetime.full + g.lifetime.spoiled +
    takenFaces g.window) % 1000000000

/-- The soundness of one port: of its window, and where `metered` holds of its meters. While `o` holds the port's window
need not be empty though its link is not UP: it stands open in the middle of an event that ends by settling it. -/
structure Sound (metered o : Prop) (g : Gauge) : Prop where
  length : g.window.length ≤ g.depth
  depth : g.depth ≤ 8
  declared : ∀ i, g.ident = some i → i.depth ≤ 8
  older : ∀ e ∈ g.window.dropLast, e.state = .taken
  faces : ∀ e ∈ g.window, e.faces ≤ 2
  shut : ¬o → g.link ≠ .up → g.window = []
  balanced : metered → g.Balanced

end Gauge

-- ## The faces of TAKEN entries

theorem takenFaces_nil : takenFaces [] = 0 := rfl

theorem takenFaces_cons (e : SendEntry) (es : List SendEntry) :
    takenFaces (e :: es) = (if e.state = .taken then e.faces else 0) + takenFaces es := by
  unfold takenFaces facesOf
  by_cases h : e.state = .taken <;> simp [h]

theorem takenFaces_append (es fs : List SendEntry) : takenFaces (es ++ fs) = takenFaces es + takenFaces fs := by
  simp [takenFaces, facesOf]

theorem takenFaces_erase (h : e ∈ es) :
    takenFaces es = (if e.state = .taken then e.faces else 0) + takenFaces (es.erase e) := by
  rw [← takenFaces_cons]
  have hperm : es.Perm (e :: es.erase e) := List.perm_cons_erase h
  exact ((hperm.filter _).map _).sum_eq

theorem takenFaces_map {f : SendEntry → SendEntry} (h : ∀ e ∈ es, (f e).state = .taken ↔ e.state = .taken)
    (hf : ∀ e, (f e).faces = e.faces) : takenFaces (es.map f) = takenFaces es := by
  induction es with
  | nil => rfl
  | cons e es ih =>
    rw [List.map_cons, takenFaces_cons, takenFaces_cons, ih fun x hx => h x (List.mem_cons_of_mem e hx), hf]
    simp only [h e List.mem_cons_self]

-- ## Meters

theorem meterAdd_lt (m k : Nat) : meterAdd m k < 1000000000 := Nat.mod_lt _ (by decide)

theorem MeterSet.Bounded.zero : MeterSet.zero.Bounded := by constructor <;> decide

theorem MeterSet.Bounded.countTaken {m : MeterSet} (h : m.Bounded) (n : Nat) : (m.countTaken n).Bounded :=
  { h with taken := meterAdd_lt _ _ }

theorem MeterSet.Bounded.countSpoiled {m : MeterSet} (h : m.Bounded) (n : Nat) : (m.countSpoiled n).Bounded :=
  { h with spoiled := meterAdd_lt _ _ }

theorem MeterSet.Bounded.countSheet {m : MeterSet} (h : m.Bounded) (c : Colour) (n : Nat) :
    (m.countSheet c n).Bounded := by
  cases c
  · exact { h with sheets := meterAdd_lt _ _, mono := meterAdd_lt _ _ }
  · exact { h with sheets := meterAdd_lt _ _, spot := meterAdd_lt _ _ }
  · exact { h with sheets := meterAdd_lt _ _, full := meterAdd_lt _ _ }

-- ## What keeps a port sound

namespace Gauge.Sound

variable {g : Gauge}

/-- A port that may stand open is sound when its window is empty. -/
theorem close {o' : Prop} (h : g.Sound metered o) (hw : g.window = []) : g.Sound metered o' :=
  { h with shut := fun _ _ => hw }

theorem opened (h : g.Sound metered False) (o : Prop) : g.Sound metered o :=
  { h with shut := fun _ => h.shut not_false }

/-- Entries that stay TAKEN or unsettled keep the port sound (R96, R93). -/
theorem mapWindow (h : g.Sound metered o) {f : SendEntry → SendEntry}
    (ht : ∀ e, (f e).state = .taken ↔ e.state = .taken) (hf : ∀ e, (f e).faces = e.faces) :
    ({ g with window := g.window.map f } : Gauge).Sound metered o where
  length := by simpa using h.length
  depth := h.depth
  declared := h.declared
  older e he := by
    rw [← List.map_dropLast] at he
    obtain ⟨x, hx, rfl⟩ := List.mem_map.1 he
    exact (ht x).2 (h.older x hx)
  faces e he := by
    obtain ⟨x, hx, rfl⟩ := List.mem_map.1 he
    rw [hf]
    exact h.faces x hx
  shut ho hl := by simp [h.shut ho hl]
  balanced hm :=
    have hb := h.balanced hm
    ⟨hb.lifetime, hb.period, by rw [takenFaces_map (fun e _ => ht e) hf]; exact hb.taken⟩

/-- An entry leaves the window, with the balance made good by what is counted (R95, R96, R97). -/
theorem erase (h : g.Sound metered o) (e : SendEntry) {l l' : MeterSet}
    (hb : metered → ({ g with window := g.window.erase e, lifetime := l, period := l' } : Gauge).Balanced) :
    ({ g with window := g.window.erase e, lifetime := l, period := l' } : Gauge).Sound metered o where
  length := (List.erase_sublist.length_le).trans h.length
  depth := h.depth
  declared := h.declared
  older x hx := h.older x (View.Agrees.dropLast_subset List.erase_sublist hx)
  faces x hx := h.faces x (List.erase_sublist.subset hx)
  shut ho hl := by simp [h.shut ho hl]
  balanced := hb

/-- An unsettled entry leaves the window (R96, R97). -/
theorem eraseUnsettled (h : g.Sound metered o) (he : e ∈ g.window) (hs : e.state ≠ .taken) :
    ({ g with window := g.window.erase e } : Gauge).Sound metered o :=
  h.erase e fun hm =>
    have hb := h.balanced hm
    ⟨hb.lifetime, hb.period, by
      have := takenFaces_erase he
      rw [if_neg hs, Nat.zero_add] at this
      rw [← this]
      exact hb.taken⟩

/-- A TAKEN entry leaves the window as a sheet (R95, R107). -/
theorem sheet (h : g.Sound metered o) (he : e ∈ g.window) (hs : e.state = .taken) :
    ({ g with
      window := g.window.erase e, lifetime := g.lifetime.countSheet e.colour e.faces
      period := g.period.countSheet e.colour e.faces } : Gauge).Sound metered o := by
  refine h.erase e fun hm => ?_
  have hb := h.balanced hm
  refine ⟨hb.lifetime.countSheet _ _, hb.period.countSheet _ _, ?_⟩
  have hsum := takenFaces_erase he
  rw [if_pos hs] at hsum
  have htaken := hb.taken
  cases e.colour <;> simp only [MeterSet.countSheet, meterAdd, Config.meterModulus] <;> omega

/-- The newest entry becomes TAKEN and is counted (R94, R107). -/
theorem take (h : g.Sound metered o) (he : e ∈ g.window) (hs : e.state ≠ .taken) :
    ({ g with
      window := g.window.map (fun y => if y.serial = e.serial then { y with state := .taken } else y)
      lifetime := g.lifetime.countTaken e.faces, period := g.period.countTaken e.faces } : Gauge).Sound metered o := by
  obtain ⟨front, hw⟩ : ∃ front, g.window = front ++ [e] := by
    rcases List.eq_nil_or_concat g.window with hnil | ⟨front, x, hx⟩
    · rw [hnil] at he
      exact absurd he List.not_mem_nil
    · rw [List.concat_eq_append] at hx
      refine ⟨front, ?_⟩
      rw [hx, List.mem_append, List.mem_singleton] at he
      rcases he with he | rfl
      · have := h.older e (by rw [hx, List.dropLast_concat]; exact he)
        exact absurd this hs
      · exact hx
  have holder : ∀ x ∈ front, x.state = .taken := fun x hx => h.older x (by rw [hw, List.dropLast_concat]; exact hx)
  have hfront : front.map (fun y => if y.serial = e.serial then { y with state := .taken } else y) = front := by
    refine (List.map_congr_left fun y hy => ?_).trans (List.map_id front)
    split
    · have := holder y hy
      cases y
      simp_all
    · rfl
  have hmap : g.window.map (fun y => if y.serial = e.serial then { y with state := .taken } else y) =
      front ++ [{ e with state := .taken }] := by
    rw [hw, List.map_append, hfront]
    simp
  rw [hmap]
  refine ⟨?_, h.depth, h.declared, ?_, ?_, ?_, fun hm => ?_⟩
  · have := h.length
    rw [hw] at this
    simpa using this
  · rw [List.dropLast_concat]
    exact holder
  · intro x hx
    rw [List.mem_append, List.mem_singleton] at hx
    rcases hx with hx | rfl
    · exact h.faces x (by rw [hw]; exact List.mem_append_left _ hx)
    · exact h.faces e he
  · intro ho hl
    have := h.shut ho hl
    rw [this] at he
    exact absurd he List.not_mem_nil
  · have hb := h.balanced hm
    refine ⟨hb.lifetime.countTaken _, hb.period.countTaken _, ?_⟩
    have htaken := hb.taken
    rw [hw, takenFaces_append, takenFaces_cons, if_neg hs, takenFaces_nil] at htaken
    simp only [takenFaces_append, takenFaces_cons, if_true, takenFaces_nil, MeterSet.countTaken, meterAdd,
      Config.meterModulus]
    omega

/-- A new STREAMING entry joins the tail (R92, R93). -/
theorem offer (h : g.Sound metered o) (hup : g.link = .up) (hd : g.window.length < g.depth)
    (ht : ∀ x ∈ g.window, x.state = .taken) (hs : e.state = .streaming) (hf : e.faces ≤ 2) :
    ({ g with window := g.window ++ [e] } : Gauge).Sound metered o where
  length := by simpa using hd
  depth := h.depth
  declared := h.declared
  older x hx := ht x (by rwa [List.dropLast_concat] at hx)
  faces x hx := by
    rw [List.mem_append, List.mem_singleton] at hx
    rcases hx with hx | rfl
    · exact h.faces x hx
    · exact hf
  shut _ hl := absurd hup hl
  balanced hm := by
    have hb := h.balanced hm
    refine ⟨hb.lifetime, hb.period, ?_⟩
    rw [takenFaces_append, takenFaces_cons, hs]
    exact hb.taken

/-- A link changes while the window is empty, or stands open, or comes UP. -/
theorem setLink (h : g.Sound metered o) (l : LinkState) (hw : o ∨ g.window = [] ∨ l = .up) :
    ({ g with link := l } : Gauge).Sound metered o :=
  { h with shut := fun ho hl => (hw.resolve_left ho).resolve_right hl
           balanced := fun hm => { h.balanced hm with } }

/-- A link comes UP with another depth (R87). -/
theorem comeUp (h : g.Sound metered o) {d : Nat} (hd : d ≤ 8) (hw : g.window = []) :
    ({ g with link := .up, depth := d } : Gauge).Sound metered o :=
  { h with length := by simp [hw], depth := hd, shut := fun _ _ => hw, balanced := fun hm => { h.balanced hm with } }

theorem setIdent (h : g.Sound metered o) {i : Ident} (hi : i.depth ≤ 8) :
    ({ g with ident := some i } : Gauge).Sound metered o :=
  { h with declared := fun _ hx => Option.some.inj hx ▸ hi, balanced := fun hm => { h.balanced hm with } }

/-- The period set is closed (R108). -/
theorem closePeriod (h : g.Sound metered o) : ({ g with period := .zero } : Gauge).Sound metered o :=
  { h with balanced := fun hm => { h.balanced hm with period := .zero } }

end Gauge.Sound

end Sys2Proof.Machine
end

