-- ==== Sys2Proof/Proofs/GaugedState.lean ====
section
/-! SUPPORT. Every port of a state is sound, and no page has more than two faces: what the operations on pages, feeds,
windows and jobs keep of it (R87, R91 to R96, R107). -/

set_option Elab.async false

namespace Sys2Proof.Machine

open Sys2Proof.Safety

variable {metered : Prop} {s t : State} {o : Option PortId} {j : SlotId} {p q : PortId} {r : RecordId} {e : SendEntry}

/-- Every port is sound, and no page has more than two faces. Port `o`, if it is one, may stand open. -/
structure State.Gauged (metered : Prop) (o : Option PortId) (s : State) : Prop where
  port : ∀ p : PortId, s.ports[p].gauge.Sound metered (o = some p)
  sides : ∀ r : RecordId, s.pages[r].sides ≤ 2

/-- The windows alone, or the windows and the meters. -/
theorem State.gauged_iff (s : State) :
    s.Gauged metered none ↔ WindowsSound s ∧ (metered → MetersBalanced s) := by
  constructor
  · intro h
    refine ⟨⟨fun p => ?_, h.sides⟩, fun hm p => ?_⟩
    · have hp := h.port p
      exact ⟨hp.length, hp.depth, hp.declared, hp.older, hp.faces, hp.shut (by simp)⟩
    · have hb := (h.port p).balanced hm
      refine ⟨fun m hset => ?_, hb.taken⟩
      obtain ⟨h1, h2, h3, h4, h5, h6⟩ : m.Bounded := by
        rcases hset with rfl | rfl
        · exact hb.lifetime
        · exact hb.period
      exact ⟨h1, h2, h3, h4, h5, h6⟩
  · rintro ⟨⟨hp, hr⟩, hm⟩
    refine ⟨fun p => ?_, hr⟩
    obtain ⟨h1, h2, h3, h4, h5, h6⟩ := hp p
    refine ⟨h1, h2, h3, h4, h5, fun _ => h6, fun h => ?_⟩
    obtain ⟨hset, hb⟩ := hm h p
    have hbounded : ∀ m : MeterSet, m = s.ports[p].lifetime ∨ m = s.ports[p].period → m.Bounded := fun m hm => by
      obtain ⟨h1, h2, h3, h4, h5, h6⟩ := hset m hm
      exact ⟨h1, h2, h3, h4, h5, h6⟩
    exact ⟨hbounded _ (.inl rfl), hbounded _ (.inr rfl), hb⟩

namespace State

-- ## One update

theorem Gauged.of_same (h : s.Gauged metered o) (hp : t.ports = s.ports) (hg : t.pages = s.pages) :
    t.Gauged metered o :=
  ⟨fun p => hp ▸ h.port p, fun r => hg ▸ h.sides r⟩

theorem Gauged.of_keeps {parts : List Part} (h : s.Gauged metered o) (hk : KeepsAllBut parts s t)
    (hp : Part.ports ∉ parts := by decide) (hg : Part.pages ∉ parts := by decide) : t.Gauged metered o :=
  h.of_same (hk.part .ports hp) (hk.part .pages hg)

theorem Gauged.opened (h : s.Gauged metered none) (o : Option PortId) : s.Gauged metered o :=
  ⟨fun p => Gauge.Sound.opened (by simpa using h.port p) _, h.sides⟩

/-- A port whose window is empty need not stand open. -/
theorem Gauged.close (h : s.Gauged metered (some p)) (hw : s.ports[p].window = []) : s.Gauged metered none := by
  refine ⟨fun q => ?_, h.sides⟩
  by_cases hq : q = p
  · subst hq
    exact (h.port q).close hw
  · have := h.port q
    rw [show (some p = some q) = (none = some q) by simp [Ne.symm hq]] at this
    exact this

theorem Gauged.updPort (h : s.Gauged metered o) {f : Port → Port}
    (hf : (f s.ports[p]).gauge.Sound metered (o = some p)) : (s.updPort p f).Gauged metered o := by
  refine ⟨fun q => ?_, h.sides⟩
  by_cases hq : q = p
  · subst hq
    rw [updPort_ports_self]
    exact hf
  · rw [updPort_ports_ne _ _ _ _ hq]
    exact h.port q

theorem Gauged.updPortSame (h : s.Gauged metered o) {f : Port → Port} (hf : (f s.ports[p]).gauge = s.ports[p].gauge) :
    (s.updPort p f).Gauged metered o := h.updPort (hf ▸ h.port p)

theorem Gauged.updPage (h : s.Gauged metered o) {f : PageRecord → PageRecord} (hf : (f s.pages[r]).sides ≤ 2) :
    (s.updPage r f).Gauged metered o := by
  refine ⟨h.port, fun k => ?_⟩
  by_cases hk : k = r
  · subst hk
    rw [updPage_pages_self]
    exact hf
  · rw [updPage_pages_ne _ _ _ _ hk]
    exact h.sides k

theorem Gauged.updJob (h : s.Gauged metered o) (j : SlotId) (f : Job → Job) : (s.updJob j f).Gauged metered o :=
  h.of_same rfl rfl

theorem Gauged.foldl {α : Type} {f : State → α → State} (h : s.Gauged metered o)
    (hf : ∀ t x, t.Gauged metered o → (f t x).Gauged metered o) (xs : List α) : (xs.foldl f s).Gauged metered o :=
  foldl_meets (inv := State.Gauged metered o) hf xs h

theorem Gauged.pressAll (h : s.Gauged metered o) (p : PortId) (ms : List PressMessage) :
    (s.pressAll p ms).Gauged metered o := h.of_same rfl rfl

theorem Gauged.press (h : s.Gauged metered o) (p : PortId) (m : PressMessage) : (s.press p m).Gauged metered o :=
  h.of_same rfl rfl

theorem Gauged.flagJob (h : s.Gauged metered o) (j : SlotId) (f : JobFlag) : (s.flagJob j f).Gauged metered o :=
  h.of_keeps (s.flagJob_keeps j f)

-- ## Pages

theorem Gauged.freePage (h : s.Gauged metered o) (r : RecordId) : (s.freePage r).Gauged metered o :=
  (h.updPage (r := r) (f := fun _ => .freeRecord) (by decide)).of_same rfl rfl

theorem Gauged.freePlace (h : s.Gauged metered o) (j : SlotId) (place : Nat) :
    (s.freePlace j place).Gauged metered o := by
  unfold State.freePlace
  split
  · exact h
  · exact (h.freePage _).updJob _ _

theorem Gauged.freeSheeted (h : s.Gauged metered o) (j : SlotId) : (s.freeSheeted j).Gauged metered o :=
  h.foldl (fun t i ht => by
    split
    · exact ht.freePlace j _
    · exact ht) _

theorem Gauged.freeJobPages (h : s.Gauged metered o) (j : SlotId) : (s.freeJobPages j).Gauged metered o :=
  h.foldl (fun _ r ht => ht.freePage r) _

theorem Gauged.countPage (h : s.Gauged metered o) (e : SendEntry) : (s.countPage e).Gauged metered o := by
  have hcount : ∀ r, (s.updPage r (fun x => { x with sheeted := x.sheeted + 1 })).Gauged metered o := fun r =>
    h.updPage (h.sides r)
  unfold State.countPage
  dsimp only
  split
  · exact h
  · split
    · exact h
    · split
      · exact (hcount _).freePlace _ _
      · exact hcount _

theorem Gauged.beginPage (h : s.Gauged metered o) (j : SlotId) (r : RecordId) (attr : Byte) :
    (s.beginPage j r attr).Gauged metered o :=
  (h.updPage (r := r) (f := fun _ => { PageRecord.freeRecord with
      state := .filling, owner := some j, media := attrMedia attr, sides := attrSides attr, colour := attrColour attr })
    (attrSides_le attr)).updJob _ _

theorem Gauged.appendData (h : s.Gauged metered o) (r : RecordId) (data : List Byte) :
    (s.appendData r data).Gauged metered o := by
  unfold State.appendData
  dsimp only
  generalize s.pages[r].chain ++ _ = chain
  exact (h.updPage (r := r) (f := fun x => { x with length := x.length + data.length, chain := chain })
    (h.sides r)).of_same rfl rfl

theorem Gauged.sealPage (h : s.Gauged metered o) (j : SlotId) (r : RecordId) : (s.sealPage j r).Gauged metered o :=
  (h.updPage (r := r) (f := fun x => { x with state := .sealed, place := some (s.jobs[j].pages.length + 1) })
    (h.sides r)).updJob _ _

-- ## Links and feeds

theorem Gauged.flagPort (h : s.Gauged metered o) (p : PortId) (f : PortFlag) : (s.flagPort p f).Gauged metered o := by
  have h1 : (s.updPort p (fun r => { r with flags := addBit r.flags f.bit, noticeOwed := true })).Gauged metered o :=
    h.updPortSame rfl
  unfold State.flagPort
  dsimp only
  split
  · exact h1
  · exact h1.of_same rfl rfl

theorem Gauged.goDown (h : s.Gauged metered o) (c : DownCause) (hw : o = some p ∨ s.ports[p].window = []) :
    (s.goDown p c).Gauged metered o := by
  have h1 : (s.updPort p (fun x =>
      { x with link := .down, downCause := some c, rateWindow := none, sending := none })).Gauged metered o :=
    h.updPort ((h.port p).setLink .down (hw.imp id .inl))
  unfold State.goDown
  dsimp only
  split
  · exact h1.flagPort p _
  · exact h1

theorem Gauged.holdTest (h : s.Gauged metered o) (p : PortId) : (s.holdTest p).Gauged metered o := by
  unfold State.holdTest
  split
  · rename_i hd
    refine h.goDown _ (.inr ?_)
    simp only [Port.holdsDown, Bool.and_eq_true, List.isEmpty_iff] at hd
    exact hd.1.2
  · exact h

theorem Gauged.askIfBecame (h : s.Gauged metered o) (p : PortId) (before : State) :
    (s.askIfBecame p before).Gauged metered o := h.of_keeps (s.askIfBecame_keeps p before)

theorem Gauged.feedReleased (h : s.Gauged metered o) (p : PortId) : (s.feedReleased p).Gauged metered o :=
  Gauged.holdTest (h.of_keeps (s.askIfClaimable_keeps p)) p

theorem Gauged.releaseFeed (h : s.Gauged metered o) (p : PortId) (j : SlotId) : (s.releaseFeed p j).Gauged metered o :=
  Gauged.updJob (h.updPortSame (f := Port.dropFeed) rfl) _ _

theorem Gauged.releaseWaiting (h : s.Gauged metered o) (p : PortId) (j : SlotId) (w : WaitReason) :
    ((s.releaseFeed p j).makeWaiting j w).Gauged metered o :=
      (h.releaseFeed p j).of_keeps (State.makeWaiting_keeps _ j w)

-- ## Windows

theorem Gauged.stopSend (h : s.Gauged metered o) (p : PortId) : (s.stopSend p).Gauged metered o :=
  (h.pressAll p _).updPortSame (f := Port.stopSend) rfl

theorem Gauged.stopSendOf (h : s.Gauged metered o) (p : PortId) (e : SendEntry) :
    (s.stopSendOf p e).Gauged metered o := by
  unfold State.stopSendOf
  split
  · exact h.stopSend p
  · exact h

theorem stopSendOf_gauge (s : State) (p : PortId) (e : SendEntry) (q : PortId) :
    (s.stopSendOf p e).ports[q].gauge = s.ports[q].gauge := by
  by_cases hq : q = p
  · subst hq
    rw [stopSendOf_ports_self]
    rfl
  · rw [stopSendOf_ports_ne hq]

/-- An unsettled entry leaves the window, or one that is not there (R96, R97). -/
theorem Gauged.dropEntry (h : s.Gauged metered o) (p : PortId) (he : e ∈ s.ports[p].window) (hs : e.state ≠ .taken) :
    (s.dropEntry p e).Gauged metered o := by
  have h1 := h.stopSendOf p e
  have hg := stopSendOf_gauge s p e p
  refine h1.updPort ((h1.port p).eraseUnsettled ?_ hs)
  rw [hg]
  exact he

theorem Gauged.abortStreaming (h : s.Gauged metered o) (p : PortId) : (s.abortStreaming p).Gauged metered o := by
  unfold State.abortStreaming
  split
  · exact h
  · rename_i e _
    have h1 : (if e.ended = true then s else s.stopSend p).Gauged metered o := by
      split
      · exact h
      · exact h.stopSend p
    refine Gauged.of_same (h1.updPort (p := p) (f := fun x => { x with
      window := x.window.map (fun y => if y.state = .streaming then { y with state := .aborting } else y) })
      ((h1.port p).mapWindow (fun y => ?_) fun y => ?_)) rfl rfl
    · split
      · rename_i hy
        simp [hy]
      · exact Iff.rfl
    · split <;> rfl

theorem Gauged.cancelJob (h : s.Gauged metered o) (j : SlotId) : (s.cancelJob j).Gauged metered o := by
  have hdone : ∀ u : State, u.Gauged metered o →
      (if u.hasEntries j then u else u.flagJob j .cancelled).Gauged metered o :=
    fun u hu => by
      split
      · exact hu
      · exact hu.flagJob j _
  have h1 := h.updJob j (Job.enter .cancelling)
  refine hdone _ ?_
  split
  · exact h1
  · exact ((h1.releaseFeed _ j).abortStreaming _).feedReleased _

theorem Gauged.haltJob (h : s.Gauged metered o) (j : SlotId) : (s.haltJob j).Gauged metered o := by
  have h1 := h.updJob j (fun x => { x with state := .waiting, reason := some .halt })
  unfold State.haltJob
  dsimp only
  split
  · split
    · exact h1
    · exact ((h1.releaseFeed _ j).abortStreaming _).feedReleased _
  · exact h

/-- What the test of R9 does once the job is HANDED: the flag and, without entries, its completion. -/
theorem Gauged.afterHanded (h : s.Gauged metered o) (j : SlotId) (double : Bool) :
    (if (if double then s.flagJob j .handed else s).hasEntries j then (if double then s.flagJob j .handed else s)
      else (if double then s.flagJob j .handed else s).completeJob j).Gauged metered o := by
  have h1 : (if double then s.flagJob j .handed else s).Gauged metered o := by
    split
    · exact h.flagJob j _
    · exact h
  generalize (if double then s.flagJob j .handed else s) = u at h1 ⊢
  split
  · exact h1
  · exact h1.of_keeps (u.completeJob_keeps j)

theorem Gauged.handedTest (h : s.Gauged metered o) (j : SlotId) : (s.handedTest j).Gauged metered o := by
  have h1 := h.updJob j (Job.enter .handed)
  unfold State.handedTest
  dsimp only
  split
  · refine Gauged.afterHanded ?_ j _
    split
    · exact h1
    · exact (h1.releaseFeed _ j).feedReleased _
  · exact h

-- ## Offers

theorem Gauged.offer (h : s.Gauged metered o) (hm : s.mayOffer p = true)
    (hd : s.ports[p].window.length < s.ports[p].depth) (j : SlotId) (r : RecordId) :
    (s.offer p j r).Gauged metered o := by
  obtain ⟨hup, -, -, htaken, -⟩ := mayOffer_iff.1 hm
  unfold State.offer
  dsimp only
  refine Gauged.press (Gauged.updJob (h.updPort ?_) _ _) _ _
  exact (h.port p).offer hup hd htaken rfl (h.sides r)

theorem Gauged.offerPage (h : s.Gauged metered o) (hm : s.mayOffer p = true) (j : SlotId) (r : RecordId) :
    (s.offerPage p j r).Gauged metered o := by
  unfold State.offerPage
  dsimp only
  split
  · exact h
  · rename_i hd
    split
    · exact (h.releaseWaiting p j .route).feedReleased p
    · split
      · exact Gauged.press (h.updPortSame rfl) _ _
      · split
        · have h1 : (s.updAccount s.jobs[j].account (Account.reserve s.pages[r].sides)).Gauged metered o :=
            h.of_same rfl rfl
          exact h1.offer hm (by simpa using hd) j r
        · exact ((h.releaseWaiting p j .allowance).flagJob j _).feedReleased p

theorem Gauged.offerAttempt (h : s.Gauged metered o) (p : PortId) : (s.offerAttempt p).Gauged metered o := by
  unfold State.offerAttempt
  split
  · exact h
  · split
    · rename_i hm
      split
      · split
        · exact Gauged.updPortSame (h.updJob _ _) rfl
        · exact h.offerPage hm _ _
      · exact h
    · exact h

theorem Gauged.wake (h : s.Gauged metered o) (j : SlotId) : (s.wake j).Gauged metered o := by
  unfold State.wake
  split
  · split
    · exact h
    · exact Gauged.offerAttempt (Gauged.updPortSame (h.updJob _ _) rfl) _
  · exact h

-- ## Dispatch

theorem Gauged.grant (h : s.Gauged metered o) (q : QueueId) (x : Proposal) : (s.grant q x).Gauged metered o := by
  unfold State.grant
  dsimp only
  have h1 : (s.updPort x.port (fun r => { r with feedOwner := some x.slot })).Gauged metered o := h.updPortSame rfl
  exact Gauged.offerAttempt (h1.of_same (by simp) (by simp)) _

theorem Gauged.decide (h : s.Gauged metered o) (p : PortId) : (s.decide p).Gauged metered o := by
  unfold State.decide
  split
  · exact h
  · exact h.grant _ _

theorem Gauged.round (h : s.Gauged metered o) : s.round.Gauged metered o := by
  unfold State.round
  dsimp only
  have h1 : ({ s with freeCount := s.freeCount + 1 } : State).Gauged metered o := h.of_same rfl rfl
  have h2 := h1.foldl (fun _ p ht => ht.decide p) s.decisionOrder
  have h3 := h2.foldl (f := fun t q => t.updProposal q (fun _ => none))
      (fun t q ht => ht.of_keeps (t.updProposal_keeps q _))
    s.proposers
  exact h3.foldl (fun t q ht => ht.of_keeps (t.examineAgain_keeps q)) _

theorem Gauged.rounds (h : s.Gauged metered o) (n : Nat) : (State.rounds n s).Gauged metered o := by
  induction n generalizing s with
  | zero => exact h
  | succ n ih =>
    unfold State.rounds
    split
    · exact h
    · exact ih h.round

theorem Gauged.pass (h : s.Gauged metered o) : s.pass.Gauged metered o :=
  Gauged.rounds (h.foldl (fun t q ht => ht.of_keeps (t.examine_keeps q)) _) _

end State
end Sys2Proof.Machine
end

