-- ==== Sys2Proof/Proofs/WindowSettlement.lean ====
section
/-! SUPPORT. The settlement of a window without a sheet (R106, R107, R137, R150): the faces of its TAKEN entries are
spoiled on both meter sets, every entry's reservation is released, and the window is empty. -/

set_option Elab.async false

namespace Sys2Proof.Machine

open Sys2Proof.Safety

variable {s t : State} {p q : PortId} {a : AccountId} {e : SendEntry} {es : List SendEntry} {m : MeterSet}

-- ## Spoiled faces

/-- A meter set counts one entry that is settled without a sheet: a TAKEN one's faces are spoiled (R107). -/
def MeterSet.spoil (m : MeterSet) (e : SendEntry) : MeterSet :=
  if e.state = .taken then m.countSpoiled e.faces else m

/-- A meter set counts the TAKEN entries of a list as spoiled. -/
def MeterSet.spoilAll (es : List SendEntry) (m : MeterSet) : MeterSet := es.foldl MeterSet.spoil m

theorem MeterSet.spoil_others (m : MeterSet) (e : SendEntry) :
    m.spoil e = { m with spoiled := (m.spoil e).spoiled } := by
  unfold MeterSet.spoil
  split <;> rfl

theorem MeterSet.spoil_spoiled (h : m.spoiled < 1000000000) (e : SendEntry) : (m.spoil e).spoiled =
    (m.spoiled + if e.state = .taken then e.faces else 0) % 1000000000 := by
  unfold MeterSet.spoil
  split
  · rfl
  · exact (Nat.mod_eq_of_lt h).symm

theorem MeterSet.spoilAll_others (es : List SendEntry) (m : MeterSet) :
    m.spoilAll es = { m with spoiled := (m.spoilAll es).spoiled } := by
  induction es generalizing m with
  | nil => rfl
  | cons e es ih =>
    show (m.spoil e).spoilAll es = { m with spoiled := ((m.spoil e).spoilAll es).spoiled }
    rw [ih (m.spoil e), m.spoil_others e]

theorem MeterSet.spoilAll_spoiled (h : m.spoiled < 1000000000) (es : List SendEntry) :
    (m.spoilAll es).spoiled = (m.spoiled + takenFaces es) % 1000000000 := by
  induction es generalizing m with
  | nil => exact (Nat.mod_eq_of_lt h).symm
  | cons e es ih =>
    have hspoil := MeterSet.spoil_spoiled h e
    have hlt : (m.spoil e).spoiled < 1000000000 := hspoil ▸ Nat.mod_lt _ (by decide)
    show ((m.spoil e).spoilAll es).spoiled = _
    rw [ih hlt, hspoil, Nat.mod_add_mod, takenFaces_cons, Nat.add_assoc]

theorem MeterSet.Bounded.spoilAll (h : m.Bounded) (es : List SendEntry) : (m.spoilAll es).Bounded := by
  have hlt : (m.spoilAll es).spoiled < 1000000000 := by
    rw [MeterSet.spoilAll_spoiled h.spoiled]
    exact Nat.mod_lt _ (by decide)
  rw [m.spoilAll_others es]
  exact { h with spoiled := hlt }

/-- Both meter sets of a port count the TAKEN entries of a list as spoiled. -/
theorem Port.count_spoil (e : SendEntry) (x : Port) : x.count (fun m => m.spoil e) =
    if e.state = .taken then x.count (MeterSet.countSpoiled e.faces) else x := by
  unfold MeterSet.spoil Port.count
  split <;> rfl

theorem facesOf_cons (e : SendEntry) (es : List SendEntry) (f : SendEntry → Bool) :
    facesOf (e :: es) f = (if f e then e.faces else 0) + facesOf es f := by
  unfold facesOf
  by_cases h : f e <;> simp [h]

-- ## The entries, one after the other

namespace State

theorem settleEntry_ports_self (s : State) (p : PortId) (e : SendEntry) :
    (s.settleEntry p e).ports[p] = s.ports[p].count (fun m => m.spoil e) := by
  unfold State.settleEntry
  rw [(releaseFaces_keeps _ e).part .ports, Port.count_spoil]
  split
  · exact updPort_ports_self _ _ _
  · rfl

theorem settleEntry_ports_ne (h : q ≠ p) : (s.settleEntry p e).ports[q] = s.ports[q] := by
  unfold State.settleEntry
  rw [(releaseFaces_keeps _ e).part .ports]
  split
  · exact updPort_ports_ne _ _ _ _ h
  · rfl

theorem settleEntry_accounts (s : State) (p : PortId) (e : SendEntry) (a : AccountId) :
    (s.settleEntry p e).accounts[a] = { s.accounts[a] with
      reserved := s.accounts[a].reserved - if s.jobs[e.job].account = a then e.faces else 0 } := by
  have hu : ∀ u : State, u.jobs = s.jobs → u.accounts = s.accounts →
      (u.releaseFaces e).accounts[a] = { s.accounts[a] with
      reserved := s.accounts[a].reserved - if s.jobs[e.job].account = a then e.faces else 0 } := by
    intro u hj ha
    unfold State.releaseFaces
    rw [askIfAnyRun_accounts, hj]
    by_cases h : a = s.jobs[e.job].account
    · subst h
      rw [updAccount_accounts_self, ha, if_pos rfl]
      rfl
    · rw [updAccount_accounts_ne _ _ _ _ h, ha, if_neg (Ne.symm h)]
      rfl
  unfold State.settleEntry
  split
  · exact hu _ rfl rfl
  · exact hu _ rfl rfl

/-- The entries of a list are settled without a sheet, oldest first. -/
def settleAll (p : PortId) (es : List SendEntry) (s : State) : State := es.foldl (fun t e => t.settleEntry p e) s

theorem settleAll_keeps (s : State) (p : PortId) (es : List SendEntry) :
    KeepsAllBut [.ports, .accounts, .passInProgress, .passOwed] s (s.settleAll p es) :=
  .foldl (fun t e => t.settleEntry_keeps p e) es s

theorem settleAll_ports_self (s : State) (p : PortId) (es : List SendEntry) :
    (s.settleAll p es).ports[p] = s.ports[p].count (MeterSet.spoilAll es) := by
  induction es generalizing s with
  | nil => rfl
  | cons e es ih =>
    show ((s.settleEntry p e).settleAll p es).ports[p] = _
    rw [ih, settleEntry_ports_self]
    rfl

theorem settleAll_ports_ne (h : q ≠ p) (s : State) (es : List SendEntry) :
    (s.settleAll p es).ports[q] = s.ports[q] := by
  induction es generalizing s with
  | nil => rfl
  | cons e es ih => exact (ih _).trans (settleEntry_ports_ne h)

theorem settleAll_accounts (s : State) (p : PortId) (es : List SendEntry) (a : AccountId) :
    (s.settleAll p es).accounts[a] = { s.accounts[a] with
      reserved := s.accounts[a].reserved - facesOf es (fun e => s.jobs[e.job].account == a) } := by
  induction es generalizing s with
  | nil => rfl
  | cons e es ih =>
    show ((s.settleEntry p e).settleAll p es).accounts[a] = _
    have hj : (s.settleEntry p e).jobs = s.jobs := (s.settleEntry_keeps p e).part .jobs
    rw [ih, settleEntry_accounts, hj, facesOf_cons]
    simp only [Nat.sub_sub, beq_iff_eq]

-- ## The window

theorem settleWindow_eq (s : State) (p : PortId) : s.settleWindow p =
    (s.settleAll p s.ports[p].window).updPort p (fun x => { x with window := [], sending := none }) := rfl

theorem settleWindow_ports_self (s : State) (p : PortId) : (s.settleWindow p).ports[p] = { s.ports[p] with
    window := [], sending := none
    lifetime := s.ports[p].lifetime.spoilAll s.ports[p].window
    period := s.ports[p].period.spoilAll s.ports[p].window } := by
  rw [settleWindow_eq, updPort_ports_self, settleAll_ports_self]
  rfl

theorem settleWindow_ports_ne (h : q ≠ p) : (s.settleWindow p).ports[q] = s.ports[q] := by
  rw [settleWindow_eq, updPort_ports_ne _ _ _ _ h, settleAll_ports_ne h]

theorem settleWindow_accounts (s : State) (p : PortId) (a : AccountId) :
    (s.settleWindow p).accounts[a] = { s.accounts[a] with
      reserved := s.accounts[a].reserved - facesOf s.ports[p].window (fun e => s.jobs[e.job].account == a) } := by
  rw [settleWindow_eq, updPort_accounts, settleAll_accounts]

end State

-- ## The gauge of a settled port

/-- A settled window leaves the meters in balance: what was taken and not sheeted is spoiled (R107). -/
theorem Gauge.Sound.settle {metered o o' : Prop} {g : Gauge} (h : g.Sound metered o) :
    ({ g with window := [], lifetime := g.lifetime.spoilAll g.window
              period := g.period.spoilAll g.window } : Gauge).Sound metered o' where
  length := Nat.zero_le _
  depth := h.depth
  declared := h.declared
  older e he := absurd he List.not_mem_nil
  faces e he := absurd he List.not_mem_nil
  shut _ _ := rfl
  balanced hm := by
    have hb := h.balanced hm
    refine ⟨hb.lifetime.spoilAll _, hb.period.spoilAll _, ?_⟩
    have hspoiled := MeterSet.spoilAll_spoiled hb.lifetime.spoiled g.window
    have hothers := g.lifetime.spoilAll_others g.window
    have htaken := hb.taken
    rw [hothers]
    simp only [takenFaces_nil]
    omega

end Sys2Proof.Machine
end

