-- ==== Sys2Proof/Proofs/GaugedEvents.lean ====
section
/-! SUPPORT. Sheet events, stop alerts, links and the printers' messages keep every port sound (R84 to R107,
R149, R150). -/

set_option Elab.async false

namespace Sys2Proof.Machine

open Sys2Proof.Safety

variable {metered : Prop} {s t : State} {o : Option PortId} {j : SlotId} {p q : PortId} {r : RecordId} {e : SendEntry}

namespace State

-- ## Sheet events

/-- The windows alone. -/
theorem Gauged.unmetered (h : s.Gauged metered o) : s.Gauged False o :=
  ⟨fun p => { h.port p with balanced := False.elim }, h.sides⟩

theorem Gauged.sheetCharged (h : s.Gauged False o) (p : PortId) (e : SendEntry) :
    (s.sheetCharged p e).Gauged False o := by
  have hmetered : (s.sheetMetered p e).Gauged False o :=
    Gauged.updJob ((h.stopSendOf p e).updPort { (h.stopSendOf p e).port p with balanced := False.elim }) _ _
  exact ((hmetered.countPage e).updJob _ _).of_keeps (updAccount_keeps _ _ _)

theorem Gauged.sheetEvent (h : s.Gauged metered o) (he : e ∈ s.ports[p].window) (hs : e.state = .taken) :
    (s.sheetEvent p e).Gauged metered o := by
  refine ⟨fun q => ?_, ?_⟩
  · rw [sheetEvent_ports]
    by_cases hq : q = p
    · subst hq
      rw [sheetCounted_ports_self]
      exact (h.port q).sheet he hs
    · rw [sheetCounted_ports_ne hq]
      exact h.port q
  · rw [(sheetEvent_store s p e).2.1]
    exact (h.unmetered.sheetCharged p e).sides

theorem sheetEvent_window (s : State) (p : PortId) (e : SendEntry) :
    (s.sheetEvent p e).ports[p].window = s.ports[p].window.erase e := by
  rw [sheetEvent_ports, sheetCounted_ports_self]

/-- The oldest entries of a window are carried out as sheet events, while they are TAKEN (R149). -/
theorem Gauged.confirm (h : s.Gauged metered o) {es rest : List SendEntry} (hw : s.ports[p].window = es ++ rest)
    (ht : ∀ e ∈ es, e.state = .taken) : (s.confirm p es).Gauged metered o := by
  induction es generalizing s with
  | nil => exact h
  | cons e es ih =>
    have hmem : e ∈ s.ports[p].window := hw ▸ List.mem_cons_self
    refine ih (h.sheetEvent hmem (ht e List.mem_cons_self)) ?_ fun x hx => ht x (List.mem_cons_of_mem e hx)
    rw [sheetEvent_window, hw, List.cons_append, List.erase_cons_head]

end State

/-- The entries that a JAM confirms stand in front of the others (R149). -/
theorem confirmedEntries_append (w : List SendEntry) (n : Option Serial) :
    ∃ rest, w = confirmedEntries w n ++ rest := by
  unfold confirmedEntries
  split
  · exact ⟨w, rfl⟩
  · split
    · exact ⟨w, rfl⟩
    · exact ⟨_, (List.take_append_drop _ w).symm⟩

/-- The entries that a JAM confirms are TAKEN: the one that it names, and the older ones (R91, R149). -/
theorem confirmedEntries_taken {w : List SendEntry} (hold : ∀ e ∈ w.dropLast, e.state = .taken) (n : Option Serial) :
    ∀ e ∈ confirmedEntries w n, e.state = .taken := by
  unfold confirmedEntries
  split
  · simp
  · split
    · simp
    · rename_i i hi
      obtain ⟨hlt, hnamed, -⟩ := List.findIdx?_eq_some_iff_getElem.1 hi
      intro e he
      rw [← List.take_concat_get' w i hlt, List.mem_append, List.mem_singleton] at he
      rcases he with he | rfl
      · refine hold e ?_
        rw [List.dropLast_eq_take]
        exact (List.take_prefix_take_left (by omega)).subset he
      · simp only [Bool.and_eq_true, beq_iff_eq] at hnamed
        exact hnamed.2

namespace State

-- ## The stopped jobs

theorem Gauged.settleWindow (h : s.Gauged metered (some p)) : (s.settleWindow p).Gauged metered none := by
  have h1 : (s.settleWindow p).Gauged metered (some p) := by
    refine ⟨fun q => ?_, ?_⟩
    · by_cases hq : q = p
      · subst hq
        rw [settleWindow_ports_self]
        exact (h.port q).settle
      · rw [settleWindow_ports_ne hq]
        exact h.port q
    · rw [(s.settleWindow_keeps p).part .pages]
      exact h.sides
  refine h1.close ?_
  rw [settleWindow_ports_self]

theorem Gauged.stopJob (h : s.Gauged metered o) (p : PortId) (es : List SendEntry) (j : SlotId) :
    (s.stopJob p es j).Gauged metered o := by
  have h1 : (s.releaseIfOwner p j).Gauged metered o := by
    unfold State.releaseIfOwner
    split
    · exact h.releaseFeed p j
    · exact h
  have h2 := (h1.of_keeps (rewindTo_keeps _ j es)).of_keeps (stopState_keeps _ j)
  exact ((h2.of_keeps (excludeJob_keeps _ p j)).of_keeps (flagReroute_keeps _ j)).of_keeps (listAffected_keeps _ p j)

theorem Gauged.settleStop (h : s.Gauged metered (some p)) : (s.settleStop p).Gauged metered none :=
  h.settleWindow.foldl (fun _ j ht => ht.stopJob p _ j) _

theorem Gauged.stopCondition (h : s.Gauged metered (some p)) (k : AlertKind) (l : Byte) (n : Option Serial) :
    (s.stopCondition p k l n).Gauged metered none := by
  obtain ⟨rest, hrest⟩ := confirmedEntries_append s.ports[p].window n
  have hports : (s.raiseStop p k l).ports = s.ports := (s.raiseStop_keeps p k l).part .ports
  refine Gauged.settleStop (Gauged.confirm (h.of_keeps (s.raiseStop_keeps p k l)) (rest := rest) ?_
    (confirmedEntries_taken (h.port p).older n))
  rw [hports]
  exact hrest

-- ## Links

theorem Gauged.waitEvent (h : s.Gauged metered o) (p : PortId) (a r : KindSet) : (s.waitEvent p a r).Gauged metered o :=
  h.of_keeps (s.waitEvent_keeps p a r)

theorem Gauged.endSetup (h : s.Gauged metered o) (p : PortId) : (s.endSetup p).Gauged metered o := by
  unfold State.endSetup
  split
  · exact Gauged.waitEvent (h.updPortSame rfl) p _ _
  · exact h

theorem Gauged.enterProbing (h : s.Gauged metered o) (hw : o = some p ∨ s.ports[p].window = []) :
    (s.enterProbing p).Gauged metered o := by
  unfold State.enterProbing
  dsimp only
  have h1 : ((s.updPort p (fun x => { x with
      link := .probing, downCause := none, rateWindow := none
      receiver := if x.link = .down then .hunt else x.receiver
      probeDue := s.clock + Config.probeTicks })).press p .probe).Gauged metered o :=
    Gauged.press (h.updPort ((h.port p).setLink .probing (hw.imp id .inl))) p _
  split
  · exact h1.flagPort p _
  · exact h1

theorem Gauged.linkLoss (h : s.Gauged metered none) (p : PortId) : (s.linkLoss p).Gauged metered none :=
  ((((h.opened (some p)).stopSend p).endSetup p).enterProbing (.inl rfl)).stopCondition _ _ _

theorem Gauged.orderFault (h : s.Gauged metered none) (p : PortId) : (s.orderFault p).Gauged metered none :=
  ((((h.opened (some p)).stopSend p).endSetup p).goDown _ (.inl rfl)).stopCondition _ _ _

theorem Gauged.comeUp (h : s.Gauged metered o) (rate : Rate) {d : Nat} (hd : d ≤ 8) (hw : s.ports[p].window = []) :
    (s.comeUp p rate d).Gauged metered o := by
  unfold State.comeUp
  exact (Gauged.flagPort (h.updPort ((h.port p).comeUp hd hw)) p _).of_keeps (askIfClaimable_keeps _ p)

theorem Gauged.confirmAttendant (h : s.Gauged metered o) (p : PortId) : (s.confirmAttendant p).Gauged metered o :=
  h.of_keeps (s.confirmAttendant_keeps p)

theorem Gauged.bringUp (h : s.Gauged metered o) {i : Ident} (hi : i.depth ≤ 8) (m : Media) (c : Bool)
    (hw : s.ports[p].window = []) : (s.bringUp p i m c).Gauged metered o := by
  have hset : (s.updPort p (fun x => { x with ident := some i, loaded := m, rateWindow := none })).Gauged metered o :=
    h.updPort ((h.port p).setIdent hi)
  have hempty : (s.updPort p (fun x =>
      { x with ident := some i, loaded := m, rateWindow := none })).ports[p].window = [] := by
    rw [updPort_ports_self]
    exact hw
  unfold State.bringUp
  dsimp only
  generalize s.updPort p (fun x => { x with ident := some i, loaded := m, rateWindow := none }) = u at hset hempty ⊢
  have hgiven : (if (c && u.alerts[stopSlot p].isOpen) = true then u.confirmAttendant p else u).Gauged metered o ∧
      (if (c && u.alerts[stopSlot p].isOpen) = true then u.confirmAttendant p else u).ports[p].window = [] := by
    split
    · exact ⟨hset.confirmAttendant p, (window_of_view (u.confirmAttendant_view p) p).trans hempty⟩
    · exact ⟨hset, hempty⟩
  generalize (if (c && u.alerts[stopSlot p].isOpen) = true then u.confirmAttendant p else u) = v at hgiven ⊢
  obtain ⟨hv, hvw⟩ := hgiven
  split
  · exact Gauged.press (hv.updPort ((hv.port p).setLink .rating (.inr (.inl hvw)))) p _
  · refine hv.comeUp .base ?_ hvw
    unfold baseDepth
    omega

-- ## Printer messages

theorem Gauged.hear (h : s.Gauged metered o) (p : PortId) : (s.hear p).Gauged metered o := h.updPortSame rfl

theorem Gauged.pressMessage (h : s.Gauged metered none) (p : PortId) (fieldsOk : Bool) (taken : LinkState → Bool)
    {act : State → State}
    (ha : ∀ u : State, u.Gauged metered none → taken u.ports[p].link = true → (act u).Gauged metered none) :
    (s.pressMessage p fieldsOk taken act).Gauged metered none := by
  unfold State.pressMessage
  split
  · exact h
  · split
    · rename_i hc
      refine ha _ (h.hear p) ?_
      rw [State.hear, updPort_ports_self]
      exact ((Bool.and_eq_true _ _).mp hc).2
    · exact h.hear p

/-- A link that is not UP has an empty window. -/
theorem Gauged.window_nil (h : s.Gauged metered none) (hl : s.ports[p].link ≠ .up) : s.ports[p].window = [] :=
  (h.port p).shut (by simp) hl

theorem Gauged.identTaken (h : s.Gauged metered none) (p : PortId) {i : Ident} (hi : i.depth ≤ 8) (m : Media)
    (c : Bool) :
    (s.identTaken p i m c).Gauged metered none := by
  unfold State.identTaken
  split
  · exact ((h.linkLoss p).bringUp hi m c linkLoss_window).holdTest p
  · rename_i hl
    exact (h.bringUp hi m c (h.window_nil hl)).holdTest p

theorem Gauged.declaredDepth (h : s.Gauged metered o) (p : PortId) : s.ports[p].declaredDepth ≤ 8 := by
  unfold Port.declaredDepth
  cases hi : s.ports[p].ident with
  | none => simp
  | some i => exact (h.port p).declared i hi

theorem Gauged.echoTaken (h : s.Gauged metered none) (hl : s.ports[p].link = .rating) :
    (s.echoTaken p).Gauged metered none := by
  have hw := h.window_nil (p := p) (by rw [hl]; decide)
  unfold State.echoTaken
  split
  · exact h
  · split
    · exact h.updPortSame rfl
    · exact (h.comeUp .fast (h.declaredDepth p) hw).holdTest p

theorem Gauged.statusTaken (h : s.Gauged metered o) (p : PortId) (r : ReasonSet) :
    (s.statusTaken p r).Gauged metered o := by
  have h1 : ((s.updPort p (fun x => { x with status := r })).waitEvent p (reasonKinds (minusBits r s.ports[p].status))
      (reasonKinds (minusBits s.ports[p].status r))).Gauged metered o := Gauged.waitEvent (h.updPortSame rfl) p _ _
  unfold State.statusTaken
  dsimp only
  split
  · exact h
  · split
    · exact (h1.offerAttempt p).askIfBecame p s
    · exact h1

theorem Gauged.report (h : s.Gauged metered none) (p : PortId) {entry : Option SendEntry}
    {act : SendEntry → State → State}
    (ha : ∀ e, entry = some e → (act e s).Gauged metered none) : (s.report p entry act).Gauged metered none := by
  unfold State.report
  split
  · exact h
  · split
    · exact (h.orderFault p).holdTest p
    · exact ha _ rfl

theorem Gauged.serviceRelease (h : s.Gauged metered o) (p : PortId) (j : SlotId) :
    (s.serviceRelease p j).Gauged metered o := (h.releaseWaiting p j .route).feedReleased p

theorem Gauged.takenPassed (h : s.Gauged metered o) (he : e ∈ s.ports[p].window) (hs : e.state ≠ .taken) :
    (s.takenPassed p e).Gauged metered o := by
  have h1 : (s.updPort p (Port.takeEntry e)).Gauged metered o := h.updPort ((h.port p).take he hs)
  have h2 : (((s.updPort p (Port.takeEntry e)).handedTest e.job).owedRelease p e.job).Gauged metered o := by
    unfold State.owedRelease
    split
    · exact (h1.handedTest e.job).serviceRelease p _
    · exact h1.handedTest e.job
  exact (h2.offerAttempt p).holdTest p

theorem Gauged.sheetPassed (h : s.Gauged metered o) {n : Serial} (he : s.ports[p].sheetEntry n = some e) :
    (s.sheetPassed p e).Gauged metered o := by
  have hnamed : e ∈ s.ports[p].window ∧ e.state = .taken := by
    unfold Port.sheetEntry at he
    split at he
    · simp at he
    · rename_i x rest hw
      split at he
      · rename_i hx
        obtain rfl := Option.some.inj he
        exact ⟨hw ▸ List.mem_cons_self, hx.2⟩
      · simp at he
  exact ((h.sheetEvent hnamed.1 hnamed.2).offerAttempt p).holdTest p

theorem Gauged.removed (h : s.Gauged metered o) (he : e ∈ s.ports[p].window) (hs : e.state ≠ .taken) :
    (((s.releaseFaces e).dropEntry p e).updJob e.job (Job.rewind e.copy e.place)).Gauged metered o := by
  have h1 := h.of_keeps (s.releaseFaces_keeps e)
  refine Gauged.updJob (h1.dropEntry p ?_ hs) _ _
  rw [(s.releaseFaces_keeps e).part .ports]
  exact he

theorem Gauged.abortedPassed (h : s.Gauged metered o) (he : e ∈ s.ports[p].window) (hs : e.state ≠ .taken) :
    (s.abortedPassed p e).Gauged metered o :=
  (Gauged.offerAttempt ((h.removed he hs).of_keeps (afterRemoval_keeps _ e.job)) p).holdTest p

theorem Gauged.refusePassed (h : s.Gauged metered o) (reason : Byte) (he : e ∈ s.ports[p].window)
    (hs : e.state ≠ .taken) : (s.refusePassed p reason e).Gauged metered o := by
  have h1 : ((((s.releaseFaces e).dropEntry p e).updJob e.job (Job.rewind e.copy e.place)).releaseIfOwner p
      e.job).Gauged metered o := by
    unfold State.releaseIfOwner
    split
    · exact (h.removed he hs).releaseFeed p _
    · exact h.removed he hs
  exact (((((h1.updJob e.job (Job.refuse reason)).flagJob e.job .error)).feedReleased p).offerAttempt p).holdTest p

theorem Gauged.jamTaken (h : s.Gauged metered none) (p : PortId) (l : Byte) (n : Option Serial) :
    (s.jamTaken p l n).Gauged metered none := (((h.opened (some p)).stopSend p).stopCondition _ _ _).holdTest p

theorem Gauged.cancelTaken (h : s.Gauged metered o) (p : PortId) : (s.cancelTaken p).Gauged metered o := by
  unfold State.cancelTaken
  split
  · exact h
  · split
    case h_1 | h_2 => exact h
    case h_3 => exact h.flagJob _ _
    all_goals exact (h.cancelJob _).flagJob _ _

theorem Gauged.reportStall (h : s.Gauged metered o) (p : PortId) : (s.reportStall p).Gauged metered o :=
  Gauged.waitEvent (h.updPortSame rfl) p _ _

theorem Gauged.setupTaken (h : s.Gauged metered o) (p : PortId) (m : Media) : (s.setupTaken p m).Gauged metered o := by
  have h1 : (s.updPort p (fun x => { x with loaded := m })).Gauged metered o := h.updPortSame rfl
  unfold State.setupTaken
  dsimp only
  split
  · exact h1
  · split
    · exact (((h1.endSetup p).offerAttempt p).askIfBecame p _).holdTest p
    · unfold State.wrongMedia
      split
      · exact h1.updPortSame rfl
      · exact h1.reportStall p

end State
end Sys2Proof.Machine
end

