-- ==== Sys2Proof/Proofs/GaugedSteps.lean ====
section
/-! SUPPORT. Requests, timers, frame boundaries and resets keep every port sound, and so does every step (R87, R91,
R107). -/

set_option Elab.async false

namespace Sys2Proof.Machine

open Sys2Proof.Safety

variable {metered : Prop} {s t : State} {o : Option PortId} {j : SlotId} {p q : PortId} {r : RecordId} {e : SendEntry}
  {body : List Byte}

namespace State

-- ## Requests

theorem Gauged.request {kind tag : Byte} {encoded : Bool} {judge : State → Judged} (h : s.Gauged metered none)
    (hj : ∀ u : State, u.Gauged metered none → Judged.Meets (State.Gauged metered none) (judge u)) :
    (s.request kind tag body encoded judge).Gauged metered none := by
  have hpop : s.popInbox.Gauged metered none := h.of_keeps s.popInbox_keeps
  have hput : ∀ (u : State) (f : HostFrame), u.Gauged metered none → (u.placeReply f).Gauged metered none :=
    fun u f hu => hu.of_keeps (u.placeReply_keeps f)
  unfold State.request
  split
  · split
    · split
      · exact hput _ _ hpop
      · rename_i hd
        have hdone := hj _ hpop
        rw [hd] at hdone
        exact hput _ _ hdone
    · exact hput _ _ hpop
  · exact h

theorem Gauged.afterSeal (h : s.Gauged metered o) (j : SlotId) : (s.afterSeal j).Gauged metered o := by
  unfold State.afterSeal
  split
  · exact h.wake j
  · split
    · exact h
    · exact h.offerAttempt _
  · exact h.of_keeps (s.askIfRun_keeps _)
  · exact h

theorem Gauged.pageData (h : s.Gauged metered o) (j : SlotId) (r : RecordId) (first last : Bool) (attr : Byte)
    (data : List Byte) : (s.pageData j r first last attr data).Gauged metered o := by
  have h1 : (if first = true then s.beginPage j r attr else s).Gauged metered o := by
    split
    · exact h.beginPage j r attr
    · exact h
  unfold State.pageData
  dsimp only
  split
  · exact ((h1.appendData r data).sealPage j r).afterSeal j
  · exact h1.appendData r data

theorem Gauged.judgeData (h : s.Gauged metered none) (j : SlotId) (r : RecordId) (first last : Bool) (attr : Byte)
    (data : List Byte) (old chained : Nat) :
    Judged.Meets (State.Gauged metered none) (s.judgeData j r first last attr data old chained) := by
  unfold State.judgeData
  split
  · trivial
  · split
    · trivial
    · exact h.pageData j r first last attr data

theorem Gauged.judgePageData (h : s.Gauged metered none) :
    Judged.Meets (State.Gauged metered none) (judgePageData body s) := by
  refine withHandle_meets fun j => ?_
  dsimp only
  split
  · trivial
  · split
    · trivial
    · split
      · trivial
      · split
        · trivial
        · split
          · exact h.judgeData ..
          · split
            · trivial
            · exact h.judgeData ..

theorem Gauged.judgePageDiscard (h : s.Gauged metered none) :
    Judged.Meets (State.Gauged metered none) (judgePageDiscard body s) := by
  refine withHandle_meets fun j => ?_
  split
  · trivial
  · split
    · trivial
    · exact (h.freePage _).updJob _ _

theorem Gauged.judgeCloseJob (h : s.Gauged metered none) :
    Judged.Meets (State.Gauged metered none) (judgeCloseJob body s) := by
  refine withHandle_meets fun j => ?_
  split
  · trivial
  · have h1 := (((h.updJob j Job.close).wake j).freeSheeted j).handedTest j
    show (s.closeJob j).Gauged metered none
    unfold State.closeJob
    dsimp only
    split
    · exact h1.of_keeps (askIfRun_keeps _ _)
    · exact h1

theorem Gauged.judgeCancelJob (h : s.Gauged metered none) :
    Judged.Meets (State.Gauged metered none) (judgeCancelJob body s) := by
  refine withHandle_meets fun j => ?_
  split
  · trivial
  · exact h.cancelJob j

theorem Gauged.enterHalt (h : s.Gauged metered o) (q : QueueId) : (s.enterHalt q).Gauged metered o :=
  Gauged.foldl (h.of_keeps (s.updQueue_keeps q _)) (fun _ j ht => ht.haltJob j) _

theorem Gauged.judgeQueueMode (h : s.Gauged metered none) :
    Judged.Meets (State.Gauged metered none) (judgeQueueMode body s) := by
  refine orRange_meets fun q _ => orRange_meets fun m _ => ?_
  have hclosed : (s.enterClosed q m).Gauged metered none := h.of_keeps (s.updQueue_keeps q _)
  have hrun : (s.enterRun q).Gauged metered none := (h.of_keeps (s.updQueue_keeps q _)).of_keeps (ask_keeps _)
  have hdrained : Judged.Meets (State.Gauged metered none)
      (if s.drained q then ok (s.enterClosed q m) [] else .refused .state) := by
    split
    · exact hclosed
    · trivial
  unfold State.changeMode
  cases s.queues[q].mode <;> cases m
  case disabled.load | load.disabled => exact hclosed
  case disabled.run | load.run | halt.run => exact hrun
  case run.halt => exact h.enterHalt q
  case halt.disabled | halt.load => exact hdrained
  case disabled.disabled | load.load | run.run | halt.halt => exact h
  all_goals trivial

theorem Gauged.serviceOut (h : s.Gauged metered o) (p : PortId) (hold : Bool) :
    (s.serviceOut p hold).Gauged metered o := by
  have h1 : (s.updPort p (fun x => { x with inService := false, holdAsked := hold })).Gauged metered o :=
      h.updPortSame rfl
  unfold State.serviceOut
  dsimp only
  refine Gauged.holdTest ?_ p
  split
  · exact h1
  · split
    · exact h1.updPortSame rfl
    · exact h1.serviceRelease p _

theorem Gauged.serviceIn (h : s.Gauged metered none) (p : PortId) : (s.serviceIn p).Gauged metered none := by
  have h1 : (s.updPort p (fun x => { x with inService := true, holdAsked := false, releaseOwed := false })).Gauged
      metered none := h.updPortSame rfl
  unfold State.serviceIn
  split
  · exact h
  · dsimp only
    refine Gauged.askIfBecame (Gauged.offerAttempt ?_ p) p s
    split
    · rename_i hd
      refine h1.enterProbing (.inr ?_)
      rw [updPort_ports_self]
      exact h.window_nil (by rw [hd.1]; decide)
    · exact h1

theorem Gauged.judgePortService (h : s.Gauged metered none) :
    Judged.Meets (State.Gauged metered none) (judgePortService body s) := by
  refine orRange_meets fun p _ => ?_
  split
  · exact h.serviceOut p _
  · split
    · exact h.serviceIn p
    · trivial

theorem resetWindow_window (s : State) (p : PortId) : (s.resetWindow p).ports[p].window = [] := by
  unfold State.resetWindow
  dsimp only
  generalize (s.stopSend p).endSetup p = u
  have hports := (KeepsAllBut.foldl (fun t j => t.rewindTo_keeps j u.ports[p].window) (entryJobs u.ports[p].window)
    (u.settleWindow p)).part .ports
  exact (congrArg (fun w : Vector Port 16 => w[p].window) hports).trans (by rw [settleWindow_ports_self])

theorem Gauged.resetWindow (h : s.Gauged metered none) (p : PortId) : (s.resetWindow p).Gauged metered none :=
  Gauged.foldl (((h.stopSend p).endSetup p).opened (some p)).settleWindow
    (fun t j ht => ht.of_keeps (t.rewindTo_keeps j _)) _

theorem resetJobs_window (s : State) (p : PortId) (es : List SendEntry) (owner : Option SlotId) :
    (s.resetJobs p es owner).ports[p].window = s.ports[p].window := by
  have hports : ∀ (js : List SlotId) (u : State), (js.foldl (fun t j => t.resetJob j) u).ports = u.ports := fun js u =>
    (KeepsAllBut.foldl (fun t j => t.resetJob_keeps j) js u).part .ports
  unfold State.resetJobs
  cases owner with
  | none => exact congrArg (fun w : Vector Port 16 => w[p].window) (hports _ _)
  | some j =>
    exact (congrArg (fun w : Vector Port 16 => w[p].window) (hports _ _)).trans (serviceRelease_window p)

theorem Gauged.resetJobs (h : s.Gauged metered o) (p : PortId) (es : List SendEntry) (owner : Option SlotId) :
    (s.resetJobs p es owner).Gauged metered o := by
  unfold State.resetJobs
  cases owner with
  | none => exact h.foldl (fun t j ht => ht.of_keeps (t.resetJob_keeps j)) _
  | some j => exact (h.serviceRelease p j).foldl (fun t j ht => ht.of_keeps (t.resetJob_keeps j)) _

theorem Gauged.portReset (h : s.Gauged metered none) (p : PortId) : (s.portReset p).Gauged metered none := by
  have h1 := (h.resetWindow p).resetJobs p s.ports[p].window s.ports[p].feedOwner
  have hw : ((s.resetWindow p).resetJobs p s.ports[p].window s.ports[p].feedOwner).ports[p].window = [] := by
    rw [resetJobs_window, resetWindow_window]
  unfold State.portReset
  dsimp only
  refine Gauged.enterProbing (h1.updPortSame rfl) (.inr ?_)
  rw [updPort_ports_self]
  exact hw

theorem Gauged.judgePortMeters (h : s.Gauged metered none) :
    Judged.Meets (State.Gauged metered none) (judgePortMeters body s) := by
  refine orRange_meets fun p _ => ?_
  show (s.closeMeters p _).Gauged metered none
  unfold State.closeMeters
  split
  · exact h.updPort (h.port p).closePeriod
  · exact h

-- ## Timers, frame boundaries and resets

theorem Gauged.starveExpiry (h : s.Gauged metered o) (p : PortId) : (s.starveExpiry p).Gauged metered o := by
  unfold State.starveExpiry
  split
  · exact h
  · exact ((h.releaseWaiting p _ .starved).flagJob _ _).feedReleased p

theorem Gauged.rateWindowClose (h : s.Gauged metered none) (hl : s.ports[p].link = .rating) :
    (s.rateWindowClose p).Gauged metered none := by
  have hw := h.window_nil (p := p) (by rw [hl]; decide)
  have hd : baseDepth s.ports[p].declaredDepth ≤ 8 := by
    unfold baseDepth
    omega
  exact ((h.comeUp .base hd hw).flagPort p _).holdTest p

theorem Gauged.sendEnd (h : s.Gauged metered o) (p : PortId) (e : SendEntry) : (s.sendEnd p e).Gauged metered o := by
  have h1 := h.pressAll p (s.sentMessages e)
  unfold State.sendEnd
  refine Gauged.offerAttempt (h1.updPort ((h1.port p).mapWindow (fun y => ?_) fun y => ?_)) p
  · split <;> exact Iff.rfl
  · split <;> rfl

theorem Gauged.retire (h : s.Gauged metered o) (j : SlotId) : (s.retire j).Gauged metered o := by
  unfold State.retire
  exact ((h.freeJobPages j).of_keeps (updQueue_keeps _ _ _)).updJob _ _

theorem Gauged.reported (h : s.Gauged metered o) (src : Source) : (s.reported src).Gauged metered o := by
  cases src with
  | job j =>
    unfold State.reported
    dsimp only
    split
    · exact (h.updJob j _).retire j
    · exact h.updJob j _
  | alert a => exact h.of_keeps (s.updAlert_keeps a _)
  | port p => exact h.updPortSame (f := fun x => { x with flags := 0, noticeOwed := false }) rfl
  | part => exact h.of_same rfl rfl

theorem Gauged.boundary (h : s.Gauged metered o) : s.boundary.Gauged metered o := by
  unfold State.boundary
  split
  · exact h.of_same rfl rfl
  · split
    · exact h.of_same rfl rfl
    · split
      · exact h.of_same rfl rfl
      · refine Gauged.reported ?_ _
        exact h.of_same rfl rfl

end State

/-- A port with an empty window and its meters at what they counted is sound (R83, R107). -/
theorem Port.initial_sound (metered o : Prop) : Port.initial.gauge.Sound metered o := by
  constructor <;> simp [Port.gauge, Port.initial]
  intro _
  exact ⟨.zero, .zero, rfl⟩

/-- The reset of a RESTART counts a port's window as a settlement does (R110, R150). -/
theorem Port.spoilWindow_eq (x : Port) : x.spoilWindow = x.count (MeterSet.spoilAll x.window) := by
  have hfold : ∀ (es : List SendEntry) (y : Port), (es.filter (fun e => e.state == .taken)).foldl
      (fun z e => z.count (MeterSet.countSpoiled e.faces)) y = y.count (MeterSet.spoilAll es) := by
    intro es
    induction es with
    | nil => exact fun y => rfl
    | cons e es ih =>
      intro y
      have hcount : y.count (MeterSet.spoilAll (e :: es)) =
          (y.count (fun m => m.spoil e)).count (MeterSet.spoilAll es) := rfl
      rw [hcount, Port.count_spoil, ← ih]
      by_cases he : e.state = .taken <;> simp [he]
  exact hfold _ _

theorem Gauge.Sound.restart {metered o : Prop} {x : Port} (h : x.gauge.Sound metered o) (clock : Tick) :
    (x.restart clock).gauge.Sound metered o := by
  have hsettled : (Gauge.mk .probing 1 none [] (x.lifetime.spoilAll x.window) (x.period.spoilAll x.window)).Sound
      metered o :=
    { length := Nat.zero_le _, depth := Nat.le_add_left 1 7, declared := by simp, older := by simp, faces := by simp
      shut := fun _ _ => rfl
      balanced := fun hm => { (h.settle (o' := o)).balanced hm with } }
  unfold Port.restart
  rw [Port.spoilWindow_eq]
  exact hsettled

namespace State

theorem Gauged.coldStart (metered : Prop) (c : StartCause) (s : State) : (s.coldStart c).Gauged metered none := by
  refine ⟨fun p => ?_, fun r => ?_⟩
  · have hp : (s.coldStart c).ports[p] = Port.initial := by simp [State.coldStart, State.reset]
    rw [hp]
    exact Port.initial_sound _ _
  · simp [State.coldStart, State.reset, PageRecord.freeRecord]

theorem Gauged.restartReset (h : s.Gauged metered none) : s.restartReset.Gauged metered none := by
  refine ⟨fun p => ?_, fun r => ?_⟩
  · have hp : s.restartReset.ports[p] = s.ports[p].restart s.clock := by simp [State.restartReset]
    rw [hp]
    exact (h.port p).restart s.clock
  · simp [State.restartReset, PageRecord.freeRecord]

-- ## Every step

/-- Every command keeps every port sound: those that change no port and no page, and the others one by one. -/
theorem Gauged.exec {i : Instr} (h : s.Gauged metered none) (he : Machine.exec i s = .next t) :
    t.Gauged metered none := by
  cases i <;> obtain rfl := Host.Outcome.next.inj he
  case pageData => exact h.request fun _ hu => hu.judgePageData
  case pageDiscard => exact h.request fun _ hu => hu.judgePageDiscard
  case closeJob => exact h.request fun _ hu => hu.judgeCloseJob
  case cancelJob => exact h.request fun _ hu => hu.judgeCancelJob
  case queueMode => exact h.request fun _ hu => hu.judgeQueueMode
  case portService => exact h.request fun _ hu => hu.judgePortService
  case portReset =>
    exact h.request fun _ hu => orRange_meets fun p _ => hu.portReset p
  case portMeters => exact h.request fun _ hu => hu.judgePortMeters
  case frameBoundary =>
    split
    · exact h
    · exact h.boundary
  case restartReset =>
    split
    · exact h.restartReset
    · exact h
  case powerOn | resetPin => exact Gauged.coldStart metered _ s
  case starveTimerExpiry port =>
    split
    · exact h.starveExpiry port
    · exact h
  case setupTimerExpiry port =>
    split
    · exact h.reportStall port
    · exact h
  case probeDue port =>
    split
    · exact Gauged.press (h.updPortSame rfl) port _
    · exact h
  case pressSilence port =>
    split
    · exact (h.linkLoss port).holdTest port
    · exact h
  case rateWindowClose port =>
    split
    · rename_i hc
      exact h.rateWindowClose hc.1
    · exact h
  case sendEnd port =>
    split
    · exact h
    · exact h.sendEnd port _
  case dispatchPass =>
    split
    · exact h.pass.of_keeps s.pass.endPass_keeps
    · exact h
  case ident port cc caps ms loaded depth =>
    split
    · exact h.pressMessage port _ _ fun _ hu _ => hu
    · exact h.pressMessage port _ _ fun _ hu _ => hu.identTaken port (identOf_depth ..) _ _
  case rateEcho port =>
    exact h.pressMessage port _ _ fun _ hu hl => hu.echoTaken (by simpa [takenEcho] using hl)
  case status port reasons =>
    exact h.pressMessage port _ _ fun _ hu _ => hu.statusTaken port _
  case taken port serial =>
    refine h.pressMessage port _ _ fun u hu _ => hu.report port fun e he => ?_
    obtain ⟨hmem, hun⟩ := mem_of_entryWith he
    exact hu.takenPassed hmem (by simpa [SendEntry.unsettled] using hun)
  case sheet port serial =>
    exact h.pressMessage port _ _ fun u hu _ => hu.report port fun e he => hu.sheetPassed he
  case aborted port serial =>
    refine h.pressMessage port _ _ fun u hu _ => hu.report port fun e he => ?_
    obtain ⟨hmem, hab⟩ := mem_of_entryWith he
    have hs : e.state = .aborting := by simpa [SendEntry.isAborting] using hab
    exact hu.abortedPassed hmem (by rw [hs]; decide)
  case refuse port serial reason =>
    refine h.pressMessage port _ _ fun u hu _ => hu.report port fun e he => ?_
    obtain ⟨hmem, hun⟩ := mem_of_entryWith he
    have hs : e.state ≠ .taken := by simpa [SendEntry.unsettled] using hun
    split
    · exact hu.abortedPassed hmem hs
    · exact hu.refusePassed reason hmem hs
  case jam port location present serial =>
    exact h.pressMessage port _ _ fun _ hu _ => hu.jamTaken port _ _
  case cleared port =>
    exact h.pressMessage port _ _ fun u hu _ => hu.of_keeps (u.clearedTaken_keeps port)
  case pressCancel port =>
    exact h.pressMessage port _ _ fun _ hu _ => hu.cancelTaken port
  case setupDone port media =>
    split
    · exact h.pressMessage port _ _ fun _ hu _ => hu
    · exact h.pressMessage port _ _ fun _ hu _ => hu.setupTaken port _
  case pressFrameDiscarded port bytes =>
    split
    · exact h
    · exact h.updPortSame rfl
  all_goals exact h.of_keeps (exec_keeps he) (by simp [Instr.changes]) (by simp [Instr.changes])

theorem Gauged.step (h : s.Gauged metered none) (hs : Machine.step s = .next t) : t.Gauged metered none := by
  unfold Machine.step at hs
  split at hs
  · obtain rfl := Host.Outcome.next.inj hs
    exact h
  · exact Gauged.exec (h.of_keeps (s.withPending_keeps _)) hs

end State

/-- Settles O56: the soundness of every port, with or without its meters, is kept by each operation, and so by every
command. -/
theorem everyStepKeepsTheWindowsSound : Obligations.EveryStepKeepsTheWindowsSound := by
  refine ⟨fun s t hinv hstep => ?_, fun s t hinv hstep => ?_⟩
  · have h : s.Gauged False none := s.gauged_iff.2 ⟨hinv, False.elim⟩
    exact (t.gauged_iff.1 (h.step hstep)).1
  · have h : s.Gauged True none := s.gauged_iff.2 ⟨hinv.1, fun _ => hinv.2⟩
    obtain ⟨hw, hm⟩ := t.gauged_iff.1 (h.step hstep)
    exact ⟨hw, hm trivial⟩

end Sys2Proof.Machine
end

