-- ==== Sys2Proof/Proofs/CheckerReading.lean ====
section
/-! SUPPORT. What a checker finds in the bytes that it reads (R84, R166), for either kind of link: a whole frame, a
frame with a wrong check, an impossible length, or nothing. -/

set_option Elab.async false

namespace Sys2Proof.Machine

open Sys2Proof.Safety

variable {shape : LinkShape} {c c' : Checker} {b l1 l2 : Byte} {got rest : List Byte} {ev : CheckerEvent}

namespace Checker

-- ## Byte after byte

theorem readAll_nil : Checker.readAll shape c [] = (c, []) := rfl

theorem readAll_quiet (h : c.read shape b = (c', none)) :
    Checker.readAll shape c (b :: rest) = Checker.readAll shape c' rest := by
  rw [Checker.readAll, h]
  rfl

theorem readAll_event (h : c.read shape b = (c', some ev)) : Checker.readAll shape c [b] = (c', [ev]) := by
  rw [Checker.readAll, h]
  rfl

theorem readAll_append (xs ys : List Byte) (h : Checker.readAll shape c xs = (c', [])) :
    Checker.readAll shape c (xs ++ ys) = Checker.readAll shape c' ys := by
  induction xs generalizing c with
  | nil =>
    obtain rfl := congrArg Prod.fst h
    rfl
  | cons x xs ih =>
    rw [Checker.readAll] at h
    have hfst := congrArg Prod.fst h
    obtain ⟨hnone, hmore⟩ := List.append_eq_nil_iff.1 (congrArg Prod.snd h)
    have hquiet : c.read shape x = ((c.read shape x).1, none) := by
      cases hx : (c.read shape x).2 with
      | none => rw [← hx]
      | some e => simp [hx] at hnone
    rw [List.cons_append, readAll_quiet hquiet]
    exact ih (Prod.ext hfst hmore)

/-- While hunting, bytes other than the start byte change nothing (R166). -/
theorem readAll_junk {junk : List Byte} (hc : c.phase = .hunting) (hj : shape.start ∉ junk) :
    Checker.readAll shape c junk = (c, []) := by
  induction junk with
  | nil => rfl
  | cons b rest ih =>
    rw [List.mem_cons, not_or] at hj
    have hskip : c.read shape b = (c, none) := by
      simp only [Checker.read, hc]
      rw [if_neg (Ne.symm hj.1)]
    rw [readAll_quiet hskip, ih hj.2]

-- ## A frame

theorem read_startByte : Checker.hunt.read shape shape.start = ({ phase := .length, got := [] }, none) := if_pos rfl

theorem read_firstLength (b : Byte) :
    Checker.read shape { phase := .length, got := [] } b = ({ phase := .length, got := [b] }, none) := rfl

theorem read_possibleLength (hmin : shape.minLength ≤ beValue [l1, l2]) (hmax : beValue [l1, l2] ≤ shape.maxLength) :
    Checker.read shape { phase := .length, got := [l1] } l2 = ({ phase := .body, got := [l1, l2] }, none) := by
  have hfits : (decide (beValue [l1, l2] < shape.minLength) ||
      decide (shape.maxLength < beValue [l1, l2])) = false := by
    simp only [Bool.or_eq_false_iff, decide_eq_false_iff_not]
    omega
  exact if_neg (c := (decide (beValue [l1, l2] < shape.minLength) ||
    decide (shape.maxLength < beValue [l1, l2])) = true)
    (by rw [hfits]; decide)

theorem read_impossibleLength (h : beValue [l1, l2] < shape.minLength ∨ shape.maxLength < beValue [l1, l2]) :
    Checker.read shape { phase := .length, got := [l1] } l2 = (.hunt, some .impossibleLength) := by
  have hbad : (decide (beValue [l1, l2] < shape.minLength) || decide (shape.maxLength < beValue [l1, l2])) = true := by
    simpa only [Bool.or_eq_true, decide_eq_true_eq] using h
  exact if_pos (c := (decide (beValue [l1, l2] < shape.minLength) ||
    decide (shape.maxLength < beValue [l1, l2])) = true)
    hbad

/-- An impossible length ends the frame at once (R166). -/
theorem readAll_impossible (h : beValue [l1, l2] < shape.minLength ∨ shape.maxLength < beValue [l1, l2]) :
    Checker.readAll shape .hunt [shape.start, l1, l2] = (.hunt, [.impossibleLength]) := by
  rw [readAll_quiet read_startByte, readAll_quiet (read_firstLength l1), readAll_event (read_impossibleLength h)]

/-- The bytes of a body and its check but the last one are kept (R166). -/
theorem readAll_body (hgot : 2 ≤ got.length) (hlen : got.length + rest.length < 2 + beValue (got.take 2) + 2) :
    Checker.readAll shape { phase := .body, got := got } rest = ({ phase := .body, got := got ++ rest }, []) := by
  induction rest generalizing got with
  | nil => rw [readAll_nil, List.append_nil]
  | cons b rest ih =>
    have htake : (got ++ [b]).take 2 = got.take 2 := List.take_append_of_le_length hgot
    have hlen' : got.length + (rest.length + 1) < 2 + beValue (got.take 2) + 2 := hlen
    have hkeep : Checker.read shape { phase := .body, got := got } b =
        ({ phase := .body, got := got ++ [b] }, none) := by
      simp only [Checker.read, htake]
      rw [if_pos (by rw [List.length_append, List.length_singleton]; omega)]
    rw [readAll_quiet hkeep, ih (by rw [List.length_append]; omega)
      (by rw [htake, List.length_append, List.length_singleton]; omega), List.append_assoc]
    rfl

/-- What a frame with these length bytes and this rest is found to be: arrived when its check agrees (R166). -/
def frameEvent (l1 l2 : Byte) (rest : List Byte) : CheckerEvent :=
  if crc16 (l1 :: l2 :: rest.take (beValue [l1, l2])) = BitVec.ofNat 16 (beValue (rest.drop (beValue [l1, l2]))) then
    .arrived (rest.take (beValue [l1, l2]))
  else .badCheck

theorem read_last (hlen : rest.length + 1 = beValue [l1, l2] + 2) :
    Checker.read shape { phase := .body, got := l1 :: l2 :: rest } b =
      (.hunt, some (frameEvent l1 l2 (rest ++ [b]))) := by
  have htake : (rest ++ [b]).take (beValue [l1, l2]) = rest.take (beValue [l1, l2]) :=
    List.take_append_of_le_length (by omega)
  have hcovered : 2 + beValue [l1, l2] = beValue [l1, l2] + 1 + 1 := by omega
  simp only [Checker.read, List.cons_append, List.take_succ_cons, List.take_zero, hcovered, List.drop_succ_cons,
    List.drop_zero, List.length_cons, List.length_append, List.length_nil, frameEvent]
  rw [if_neg (by omega)]
  split <;> rfl

/-- A whole frame of a possible length, read by a hunting checker (R166). -/
theorem readAll_frame (hmin : shape.minLength ≤ beValue [l1, l2]) (hmax : beValue [l1, l2] ≤ shape.maxLength)
    (hlen : rest.length = beValue [l1, l2] + 2) :
    Checker.readAll shape .hunt (shape.start :: l1 :: l2 :: rest) = (.hunt, [frameEvent l1 l2 rest]) := by
  obtain ⟨front, b, rfl⟩ : ∃ front b, rest = front ++ [b] :=
    ⟨rest.dropLast, rest.getLast (by rintro rfl; simp at hlen), (List.dropLast_concat_getLast _).symm⟩
  rw [List.length_append, List.length_singleton] at hlen
  have hbody := readAll_body (shape := shape) (got := [l1, l2]) (rest := front) (Nat.le_refl 2)
    (show 2 + front.length < 2 + beValue [l1, l2] + 2 by omega)
  rw [readAll_quiet read_startByte, readAll_quiet (read_firstLength l1), readAll_quiet (read_possibleLength hmin hmax),
    readAll_append front [b] hbody]
  exact readAll_event (read_last hlen)

end Checker

-- ## The bytes of a frame

theorem beValue_two (a b : Byte) : beValue [a, b] = 256 * a.toNat + b.toNat := by
  simp [beValue, Nat.mul_comm]

theorem beValue_lt_of_length_two {bs : List Byte} (h : bs.length = 2) : beValue bs < 65536 := by
  obtain ⟨a, b, rfl⟩ := List.length_eq_two.1 h
  have ha := a.isLt
  have hb := b.isLt
  rw [beValue_two]
  omega

/-- A frame as its sender writes it is found to have arrived (11.1, 11.6). -/
theorem readAll_frameBytes {content : List Byte} (hmin : shape.minLength ≤ content.length)
    (hmax : content.length ≤ shape.maxLength) (hsize : content.length < 65536) :
    Checker.readAll shape .hunt (frameBytes shape.start content) = (.hunt, [.arrived content]) := by
  obtain ⟨l1, l2, hl⟩ := List.length_eq_two.1 (beBytes_length 2 content.length)
  have hvalue : beValue [l1, l2] = content.length := by
    rw [← hl, beValue_beBytes]
    exact Nat.mod_eq_of_lt hsize
  have hcheck : (beBytes 2 (crc16 (l1 :: l2 :: content)).toNat).length = 2 := beBytes_length _ _
  have hbytes : frameBytes shape.start content =
      shape.start :: l1 :: l2 :: (content ++ beBytes 2 (crc16 (l1 :: l2 :: content)).toNat) := by
    simp [frameBytes, hl]
  have hevent : Checker.frameEvent l1 l2 (content ++ beBytes 2 (crc16 (l1 :: l2 :: content)).toNat) =
      .arrived content := by
    rw [Checker.frameEvent, hvalue, List.take_left, List.drop_left, beValue_beBytes, if_pos]
    have hcrc := (crc16 (l1 :: l2 :: content)).isLt
    rw [Nat.mod_eq_of_lt (by simpa using hcrc), BitVec.ofNat_toNat, BitVec.setWidth_eq]
  rw [hbytes, Checker.readAll_frame (hvalue ▸ hmin) (hvalue ▸ hmax)
    (by rw [List.length_append, hcheck, hvalue]), hevent]

end Sys2Proof.Machine
end

