-- ==== Sys2Proof/Proofs/DiscardedFrames.lean ====
section
/-! SUPPORT. The frames that a press port discards (R84), and the reply and the close of PORT_METERS (R108). -/

set_option Elab.async false

namespace Sys2Proof.Machine

open Sys2Proof.Safety

variable {s : State} {p : PortId} {bytes fields content : List Byte} {kind : Byte} {n : Nat}

theorem updPort_unchanged {f : Port → Port} (h : f s.ports[p] = s.ports[p]) : s.updPort p f = s := by
  have hports : s.ports.set p.val (f s.ports[p]) = s.ports := by
    rw [h]
    exact Vector.set_getElem_self ..
  exact congrArg (fun v => { s with ports := v }) hports

theorem hear_eq_heardOnly (s : State) (p : PortId) : s.hear p = heardOnly s p := rfl

-- ## What the receiver's findings do

/-- Bytes that complete no heard frame, and after which the receiver stands as before, change nothing. -/
theorem exec_discarded_silent {evs : List CheckerEvent}
    (hread : s.ports[p].receiver.readAll pressShape bytes = (s.ports[p].receiver, evs))
    (hnone : evs.filterMap heardFrame = []) : exec (.pressFrameDiscarded p bytes) s = .next s := by
  have hstays : Port.discard s.clock bytes s.ports[p] = s.ports[p] := by
    simp only [Port.discard, hread, hnone]
    rfl
  refine congrArg Host.Outcome.next ?_
  split
  · rfl
  · exact updPort_unchanged hstays

/-- A heard frame that the link does not take is heard and no more. -/
theorem exec_discarded_heard {evs : List CheckerEvent} (hl : s.ports[p].link ≠ .down)
    (hread : s.ports[p].receiver.readAll pressShape bytes = (.hunt, evs))
    (hone : evs.filterMap heardFrame = [content]) (hnot : s.ports[p].link.takesFrame content = false) :
    exec (.pressFrameDiscarded p bytes) s = .next (heardOnly s p) := by
  have hall : s.ports[p].discardsAll bytes = true := by
    simp only [Port.discardsAll, hread, hone, List.all_cons, List.all_nil, hnot]
    rfl
  have hport : Port.discard s.clock bytes s.ports[p] = heardPort s p := by
    simp only [Port.discard, hread, hone, heardPort, List.isEmpty_cons, Bool.or_eq_true, beq_iff_eq, beq_self_eq_true,
      Bool.true_and]
  refine congrArg Host.Outcome.next ?_
  rw [if_neg (not_or.2 ⟨hl, by rw [hall]; decide⟩), State.updPort, hport]
  rfl

/-- What any discarded bytes can change: the receiver, and Last heard in RATING and UP. -/
theorem discard_port (clock : Tick) (bytes : List Byte) (x : Port) : ∃ (c : Checker) (l : Tick),
    x.discard clock bytes = { x with receiver := c, lastHeard := l } ∧ (l = x.lastHeard ∨ l = clock) ∧
      (x.link = .probing → l = x.lastHeard) := by
  refine ⟨_, _, rfl, ?_, fun hl => ?_⟩
  · split
    · exact .inr rfl
    · exact .inl rfl
  · rw [if_neg]
    simp [hl]

-- ## Kinds and sizes

/-- The sizes of the fields of the printers' messages (11.6). -/
def printerSizes : List (Byte × Nat) :=
  [(0x81, 5), (0x82, 0), (0x83, 1), (0x84, 2), (0x85, 2), (0x86, 2), (0x87, 3), (0x88, 4), (0x89, 0),
    (0x8A, 0), (0x8B, 1)]

theorem pressPayloadFits_of_mem (h : (kind, n) ∈ printerSizes) (m : Nat) : pressPayloadFits kind m = (m == n) := by
  simp only [printerSizes, List.mem_cons, Prod.mk.injEq, List.not_mem_nil, or_false] at h
  rcases h with ⟨rfl, rfl⟩ | ⟨rfl, rfl⟩ | ⟨rfl, rfl⟩ | ⟨rfl, rfl⟩ | ⟨rfl, rfl⟩ | ⟨rfl, rfl⟩ | ⟨rfl, rfl⟩ | ⟨rfl, rfl⟩ |
    ⟨rfl, rfl⟩ | ⟨rfl, rfl⟩ | ⟨rfl, rfl⟩ <;> rfl

/-- 11.6 lists no such kind, of a port's messages or a printer's. -/
def unlistedKind (kind : Byte) : Prop := kind.toNat = 0 ∨ 8 ≤ kind.toNat ∧ kind.toNat < 0x81 ∨ 0x8C ≤ kind.toNat

theorem pressPayloadFits_unlisted (h : unlistedKind kind) (m : Nat) : pressPayloadFits kind m = true := by
  unfold unlistedKind at h
  have hne : ∀ k : Byte, (1 ≤ k.toNat ∧ k.toNat < 8 ∨ 0x81 ≤ k.toNat ∧ k.toNat < 0x8C) → kind ≠ k := by
    rintro k hk rfl
    omega
  simp [pressPayloadFits, hne]

theorem takesKind_unlisted (h : unlistedKind kind) (l : LinkState) : l.takesKind kind = false := by
  unfold unlistedKind at h
  have h1 : kind ≠ 0x81 := by rintro rfl; simp at h
  have h2 : kind ≠ 0x82 := by rintro rfl; simp at h
  cases l with
  | down => rfl
  | probing => exact beq_eq_false_iff_ne.2 h1
  | rating => exact Bool.or_eq_false_iff.2 ⟨beq_eq_false_iff_ne.2 h1, beq_eq_false_iff_ne.2 h2⟩
  | up =>
    simp only [LinkState.takesKind, Bool.and_eq_false_iff, decide_eq_false_iff_not]
    omega

/-- A kind that the link state does not take (R84). -/
theorem takesKind_refused {l : LinkState} (h : (l = .probing ∧ kind ≠ 0x81) ∨
    (l = .rating ∧ kind ≠ 0x81 ∧ kind ≠ 0x82) ∨
    (l = .up ∧ kind = 0x82)) : l.takesKind kind = false := by
  rcases h with ⟨rfl, h1⟩ | ⟨rfl, h1, h2⟩ | ⟨rfl, rfl⟩
  · exact beq_eq_false_iff_ne.2 h1
  · exact Bool.or_eq_false_iff.2 ⟨beq_eq_false_iff_ne.2 h1, beq_eq_false_iff_ne.2 h2⟩
  · rfl

theorem mediaOf_none {b : Byte} (h : 8 ≤ b.toNat) : mediaOf b = none := dif_neg (by omega)

/-- A field is outside its values (R183). -/
theorem fieldsWithin_refused (h : (kind = 0x81 ∧ (16 ≤ (byteAt fields 1).toNat ∨ 8 ≤ (byteAt fields 3).toNat)) ∨
    (kind = 0x83 ∧ 8 ≤ (byteAt fields 0).toNat) ∨ (kind = 0x88 ∧ 2 ≤ (byteAt fields 1).toNat) ∨
    (kind = 0x8B ∧ 8 ≤ (byteAt fields 0).toNat)) : fieldsWithin (kind :: fields) = false := by
  have hzero : ∀ (k : Nat) (b : Byte), 2 ^ k ≤ b.toNat → zeroFrom k b = false := fun k b hb => by
    rw [Bool.eq_false_iff, Ne, zeroFrom_iff]
    omega
  have hmedia : ∀ b : Byte, 8 ≤ b.toNat → (mediaOf b).isSome = false := fun b hb => by rw [mediaOf_none hb]; rfl
  rcases h with ⟨rfl, h | h⟩ | ⟨rfl, h⟩ | ⟨rfl, h⟩ | ⟨rfl, h⟩
  · exact Bool.and_eq_false_iff.2 (.inl (hzero 4 _ h))
  · exact Bool.and_eq_false_iff.2 (.inr (hmedia _ h))
  · exact hzero 3 _ h
  · refine Bool.eq_false_iff.2 fun hyes => ?_
    have hlt := (isYesNo_iff (byteAt fields 1)).1 hyes
    omega
  · exact hmedia _ h

-- ## Frames

theorem readAll_pressFrame (hlen : fields.length ≤ 1026) : Checker.readAll pressShape .hunt
    (frameBytes 0xC3 (kind :: fields)) = (.hunt, [.arrived (kind :: fields)]) :=
  readAll_frameBytes (shape := pressShape) (Nat.le_add_left 1 _) (Nat.succ_le_succ hlen)
    (by rw [List.length_cons]; omega)

theorem heardFrame_arrived (kind : Byte) (fields : List Byte) : heardFrame (.arrived (kind :: fields)) =
    if pressPayloadFits kind fields.length then some (kind :: fields) else none := rfl

/-- A whole frame of a fitting size that the link does not take is heard (R84). -/
theorem exec_discarded_frame (hhunt : s.ports[p].receiver = .hunt) (hl : s.ports[p].link ≠ .down)
    (hlen : fields.length ≤ 1026) (hfits : pressPayloadFits kind fields.length = true)
    (hnot : fieldsWithin (kind :: fields) = false ∨ s.ports[p].link.takesKind kind = false) :
    exec (.pressFrameDiscarded p (frameBytes 0xC3 (kind :: fields))) s = .next (heardOnly s p) := by
  refine exec_discarded_heard (content := kind :: fields) hl (by rw [hhunt]; exact readAll_pressFrame hlen) ?_ ?_
  · simp [heardFrame_arrived, hfits]
  · have hhead : byteAt (kind :: fields) 0 = kind := rfl
    rw [LinkState.takesFrame, hhead, Bool.and_eq_false_iff]
    exact hnot

theorem exec_discarded_wrongSize (hhunt : s.ports[p].receiver = .hunt) (hlen : fields.length ≤ 1026)
    (hfits : pressPayloadFits kind fields.length = false) :
    exec (.pressFrameDiscarded p (frameBytes 0xC3 (kind :: fields))) s = .next s := by
  refine exec_discarded_silent (evs := [.arrived (kind :: fields)]) ?_ ?_
  · rw [hhunt]
    exact readAll_pressFrame hlen
  · simp [heardFrame_arrived, hfits]

/-- Settles O47: a receiver's finding is a heard frame, an unheard one, or nothing, and each of the statement's
frames is one of these by the check, the size of its kind and the fields. -/
theorem discardedFramesOnlyKeepTheLinkHeard : Obligations.DiscardedFramesOnlyKeepTheLinkHeard := by
  intro s p bytes
  refine ⟨fun hdown => ?_, ?_, fun hhunt hjunk => ?_, fun hhunt hup => ?_,
    fun sizes kind fields hhunt hl hlen hsizes => ?_,
    fun l1 l2 rest hhunt => ⟨fun hbad => ?_, fun hmin hmax hlen hcheck => ?_⟩⟩
  · exact congrArg Host.Outcome.next (if_pos (.inl hdown))
  · refine ⟨_, rfl, ?_⟩
    split
    · exact ⟨rfl, .inl rfl, fun _ => rfl, fun _ _ => rfl, .refl _ s⟩
    · obtain ⟨c, l, hport, hheard, hprobing⟩ := discard_port s.clock bytes s.ports[p]
      have hself : (s.updPort p (Port.discard s.clock bytes)).ports[p] =
          { s.ports[p] with receiver := c, lastHeard := l } := (State.updPort_ports_self s p _).trans hport
      rw [hself]
      exact ⟨rfl, hheard, hprobing, fun k hk => State.updPort_ports_ne _ _ _ _ hk, s.updPort_keeps p _⟩
  · refine exec_discarded_silent (evs := []) ?_ rfl
    rw [hhunt]
    exact Checker.readAll_junk rfl hjunk
  · exact exec_discarded_frame hhunt (by rw [hup]; decide) (Nat.zero_le _) rfl (.inr (by rw [hup]; rfl))
  · have hsizes' : sizes = printerSizes := hsizes
    subst hsizes'
    refine ⟨fun hmem hnot => ?_, fun hunlisted => ?_, ?_⟩
    · refine exec_discarded_frame hhunt hl hlen (by rw [pressPayloadFits_of_mem hmem, beq_self_eq_true]) ?_
      rcases hnot with h | h | h | h
      · exact .inr (takesKind_refused (.inl h))
      · exact .inr (takesKind_refused (.inr (.inl h)))
      · exact .inr (takesKind_refused (.inr (.inr h)))
      · exact .inl (fieldsWithin_refused h)
    · exact exec_discarded_frame hhunt hl hlen (pressPayloadFits_unlisted hunlisted _)
        (.inr (takesKind_unlisted hunlisted _))
    · rintro ⟨n, hmem, hne⟩
      exact exec_discarded_wrongSize hhunt hlen (by rw [pressPayloadFits_of_mem hmem, beq_eq_false_iff_ne]; exact hne)
  · refine exec_discarded_silent (evs := [.impossibleLength]) ?_ rfl
    rw [hhunt]
    exact Checker.readAll_impossible (shape := pressShape) hbad
  · have hbroken : Checker.frameEvent l1 l2 rest = .badCheck := by
      refine if_neg fun hcrc => hcheck ?_
      have htwo : (rest.drop (beValue [l1, l2])).length = 2 := by
        rw [List.length_drop]
        omega
      rw [hcrc, BitVec.toNat_ofNat]
      exact Nat.mod_eq_of_lt (beValue_lt_of_length_two htwo)
    refine exec_discarded_silent (evs := [.badCheck]) ?_ rfl
    rw [hhunt, ← hbroken]
    exact Checker.readAll_frame (shape := pressShape) hmin hmax hlen

-- ## PORT_METERS

theorem closeMeters_ports_self (s : State) (p : PortId) (close : Bool) : (s.closeMeters p close).ports[p] =
    { s.ports[p] with period := if close then .zero else s.ports[p].period } := by
  unfold State.closeMeters
  cases close with
  | false => rfl
  | true => exact State.updPort_ports_self s p fun x => { x with period := .zero }

theorem closeMeters_ports_ne {q : PortId} (h : q ≠ p) (close : Bool) :
    (s.closeMeters p close).ports[q] = s.ports[q] := by
  unfold State.closeMeters
  split
  · exact State.updPort_ports_ne _ _ _ _ h
  · rfl

/-- Settles O48: the reply lists both sets as they stood, and only the close writes the period set. -/
theorem portMetersReportAndClose : Obligations.PortMetersReportAndClose := by
  intro s tag body htakes hsize hclose
  have hform : portMetersOk body = true := by
    rw [portMetersOk, Bool.and_eq_true]
    exact ⟨(sized_iff 2).2 hsize, (isYesNo_iff _).2 (by omega)⟩
  refine ⟨fun hrange => exec_refused (rc := .range) rfl htakes hform ?_, fun p hp => ?_⟩
  · rw [judgePortMeters, portOf_none hrange]
    rfl
  · refine completes_ok rfl htakes hform (by rw [judgePortMeters, portOf_eq hp]; rfl)
      (State.closeMeters_keeps _ p _) fun hreplied hkeeps => ⟨?_, ?_, fun k hk => closeMeters_ports_ne hk _, hkeeps⟩
    · simpa [MeterSet.bytes, meterBytes] using hreplied
    · refine (closeMeters_ports_self s.popInbox p _).trans ?_
      by_cases h1 : byteAt body 1 = 1 <;> simp [h1, MeterSet.zero]

end Sys2Proof.Machine
end

