-- ==== Sys2Proof/Proofs/RateTest.lean ====
section
/-! SUPPORT. A printer's message that is taken (R84), the port's record when its link comes UP (R87), and the rate test
(R86). -/

set_option Elab.async false

namespace Sys2Proof.Machine

open Sys2Proof.Safety

variable {s t : State} {p q : PortId} {ok : Bool} {taken : LinkState → Bool} {act : State → State}

-- ## A message and its link

theorem pressMessage_down (h : s.ports[p].link = .down) : s.pressMessage p ok taken act = s := if_pos h

theorem pressMessage_taken (hl : s.ports[p].link ≠ .down) (hok : ok = true) (ht : taken s.ports[p].link = true) :
    s.pressMessage p ok taken act = act (s.hear p) := by
  unfold State.pressMessage
  rw [if_neg hl, if_pos (by rw [hok, ht]; rfl)]

theorem pressMessage_heard (hl : s.ports[p].link ≠ .down) (h : ok = false ∨ taken s.ports[p].link = false) :
    s.pressMessage p ok taken act = heardOnly s p := by
  unfold State.pressMessage
  rw [if_neg hl, if_neg, hear_eq_heardOnly]
  rcases h with h | h <;> rw [h] <;> simp

/-- A message of an UP link is taken there. -/
theorem pressMessage_up (hup : s.ports[p].link = .up) (hok : ok = true) :
    s.pressMessage p ok takenUp act = act (s.hear p) :=
  pressMessage_taken (by rw [hup]; decide) hok (by rw [hup]; rfl)

theorem not_down_of_up (hup : s.ports[p].link = .up) : s.ports[p].link ≠ .down := by
  rw [hup]
  decide

/-- What an UP or RATING link has heard, field by field. -/
theorem heardPort_of_link (h : s.ports[p].link = .rating ∨ s.ports[p].link = .up) :
    heardPort s p = { s.ports[p] with lastHeard := s.clock, receiver := .hunt } := by
  unfold heardPort
  rw [if_pos h]

theorem heard_of_up (hup : s.ports[p].link = .up) :
    (s.hear p).ports[p] = { s.ports[p] with lastHeard := s.clock, receiver := .hunt } :=
  (hear_ports_self s p).trans (heardPort_of_link (.inr hup))

-- ## The service state

/-- The service state reads the stop alert and four fields of the port (R90). -/
theorem service_congr (ha : t.alerts[stopSlot p].isOpen = s.alerts[stopSlot p].isOpen)
    (hst : t.ports[p].status = s.ports[p].status) (hse : t.ports[p].setup = s.ports[p].setup)
    (hf : t.ports[p].feedOwner = s.ports[p].feedOwner) (hi : t.ports[p].inService = s.ports[p].inService) :
    t.service p = s.service p := by
  unfold State.service
  rw [ha, hst, hse, hf, hi]

theorem askIfClaimable_service (s : State) (p : PortId) : (s.askIfClaimable p).service p = s.service p := by
  simp only [State.service, State.askIfClaimable_alerts, State.askIfClaimable_ports]

theorem askedIf_congr {b c : Prop} (hb : b ↔ c) (h : AskedIf b s t) : AskedIf c s t := propext hb ▸ h

-- ## A link that comes UP

/-- The port's record when its link has come UP (R87). -/
theorem comeUp_ports_self (s : State) (p : PortId) (r : Rate) (d : Nat) : (s.comeUp p r d).ports[p] = { s.ports[p] with
    link := .up, downCause := none, rate := r, depth := d, lastHeard := s.clock, rateWindow := none
    flags := addBit s.ports[p].flags 0, noticeOwed := true } := by
  simp [State.comeUp, PortFlag.bit]

theorem comeUp_ports_ne (r : Rate) (d : Nat) (h : q ≠ p) : (s.comeUp p r d).ports[q] = s.ports[q] := by
  unfold State.comeUp
  rw [State.askIfClaimable_ports, State.flagPort_ports_ne _ _ _ _ h, State.updPort_ports_ne _ _ _ _ h]

/-- A port that is READY when its link has come UP asks for a pass, and no other does (R74). -/
theorem comeUp_asked (s : State) (p : PortId) (r : Rate) (d : Nat) :
    AskedIf ((s.comeUp p r d).service p = .ready) s (s.comeUp p r d) := by
  have hasked := (askIfClaimable_asked ((s.updPort p (fun x => { x with
    link := .up, downCause := none, rate := r, depth := d, lastHeard := s.clock, rateWindow := none })).flagPort p
    .attached) p).after (.of_keeps ((State.updPort_keeps s p _).trans (State.flagPort_keeps _ p .attached)))
  refine askedIf_congr ?_ hasked
  rw [claimable_iff, State.comeUp, askIfClaimable_service]
  exact and_iff_right (by simp)

-- ## The rate test

theorem holdTest_unheld (h : s.ports[p].holdAsked = false) : s.holdTest p = s := holdTest_stays (holdsDown_unheld h)

theorem declaredDepth_of_ident {x : Port} {i : Ident} (h : x.ident = some i) : x.declaredDepth = i.depth := by
  unfold Port.declaredDepth
  rw [h]
  rfl

/-- A RATE_ECHO in RATING, the port having heard it. -/
theorem exec_rateEcho (h : s.ports[p].link = .rating) : exec (.rateEcho p) s = .next ((s.hear p).echoTaken p) :=
  congrArg Host.Outcome.next (pressMessage_taken (by rw [h]; decide) rfl (by rw [h]; rfl))

theorem echoTaken_counts {n : Nat} (hw : s.ports[p].rateWindow = some n) (hn : n < 2) :
    s.echoTaken p = s.updPort p (fun x => { x with rateWindow := some (n + 1) }) := by
  unfold State.echoTaken
  rw [hw]
  exact if_pos (by omega)

theorem echoTaken_third (hw : s.ports[p].rateWindow = some 2) (hh : s.ports[p].holdAsked = false) :
    s.echoTaken p = s.comeUp p .fast s.ports[p].declaredDepth := by
  unfold State.echoTaken
  rw [hw]
  refine (if_neg (by decide)).trans (holdTest_unheld ?_)
  rw [comeUp_ports_self]
  exact hh

theorem exec_rateWindowClose {n : Nat} (hl : s.ports[p].link = .rating) (hw : s.ports[p].rateWindow = some n)
    (hh : s.ports[p].holdAsked = false) : exec (.rateWindowClose p) s =
      .next ((s.comeUp p .base (min s.ports[p].declaredDepth 2)).flagPort p .rate) := by
  refine congrArg Host.Outcome.next ((if_pos ⟨hl, by rw [hw]; rfl⟩).trans (holdTest_unheld ?_))
  have h := State.flagPort_ports_val (s.comeUp p .base (min s.ports[p].declaredDepth 2)) p .rate
  refine (congrArg Port.holdAsked h).trans ?_
  exact (congrArg Port.holdAsked (comeUp_ports_self s p .base _)).trans hh

/-- Settles O36: `echoTaken` counts an echo or brings the link UP, and the window's close brings it UP at BASE. -/
theorem rateTestSettlesTheRate : Obligations.RateTestSettlesTheRate := by
  intro s p
  refine ⟨fun hl => ?_, fun hl => ?_, fun n i hl hw hi hh => ⟨fun hn => ?_, fun hn => ?_, ?_⟩⟩
  · refine congrArg Host.Outcome.next (pressMessage_heard ?_ (.inr ?_)) <;>
    · rcases hl with hl | hl <;> rw [hl] <;> decide
  · refine congrArg Host.Outcome.next (if_neg fun ⟨h1, h2⟩ => ?_)
    rcases hl with hl | hl
    · exact hl h1
    · rw [hl] at h2
      exact absurd h2 (by decide)
  · have hport : (s.hear p).ports[p] = { s.ports[p] with lastHeard := s.clock, receiver := .hunt } :=
      (hear_ports_self s p).trans (heardPort_of_link (.inl hl))
    refine ⟨_, exec_rateEcho hl, ?_, fun k hk => ?_, ?_⟩
    all_goals rw [echoTaken_counts (n := n) (by rw [hport]; exact hw) hn]
    · rw [State.updPort_ports_self, hport]
    · rw [State.updPort_ports_ne _ _ _ _ hk, hear_ports_ne hk]
    · exact ((State.hear_keeps s p).trans (State.updPort_keeps _ p _)).mono
  · subst hn
    have hport : (s.hear p).ports[p] = { s.ports[p] with lastHeard := s.clock, receiver := .hunt } :=
      (hear_ports_self s p).trans (heardPort_of_link (.inl hl))
    have hdepth : (s.hear p).ports[p].declaredDepth = i.depth := declaredDepth_of_ident (by rw [hport]; exact hi)
    have hecho := echoTaken_third (s := s.hear p) (p := p) (by rw [hport]; exact hw) (by rw [hport]; exact hh)
    rw [hdepth] at hecho
    refine ⟨_, exec_rateEcho hl, ?_, fun k hk => ?_, ?_, ?_⟩ <;> rw [hecho]
    · rw [comeUp_ports_self, hport]
      rfl
    · rw [comeUp_ports_ne _ _ hk, hear_ports_ne hk]
    · exact (comeUp_asked _ p _ _).after (.of_keeps (State.hear_keeps s p))
    · exact ((State.hear_keeps s p).trans (State.comeUp_keeps _ p _ _)).mono
  · have hport : ((s.comeUp p .base (min s.ports[p].declaredDepth 2)).flagPort p .rate).ports[p] = _ :=
      State.flagPort_ports_val _ p .rate
    refine ⟨_, exec_rateWindowClose hl hw hh, hport.trans ?_, fun k hk => ?_, ?_, ?_⟩
    · have hup := comeUp_ports_self s p .base (min s.ports[p].declaredDepth 2)
      rw [declaredDepth_of_ident hi] at hup ⊢
      rw [Fin.getElem_fin] at hup
      rw [hup]
      rfl
    · rw [State.flagPort_ports_ne _ _ _ _ hk, comeUp_ports_ne _ _ hk]
    · refine askedIf_congr ?_ ((comeUp_asked s p .base _).before (.of_keeps (State.flagPort_keeps _ p .rate)))
      rw [service_congr (t := (s.comeUp p .base (min s.ports[p].declaredDepth 2)).flagPort p .rate)] <;>
        simp
    · exact ((State.comeUp_keeps s p _ _).trans (State.flagPort_keeps _ p _)).mono

end Sys2Proof.Machine
end

