-- ==== Sys2Proof/Proofs/SendEnd.lean ====
section
/-! SUPPORT. The end of a send (R93, R183): the page's bytes in runs of 1,024 bytes, and the entry that has ended. -/

set_option Elab.async false

namespace Sys2Proof.Machine

open Sys2Proof.Safety

variable {s t : State} {p q : PortId} {e : SendEntry} {front : List SendEntry} {r : RecordId}

-- ## A list in runs of one length

/-- The runs of 1,024 bytes of a page, the last one holding what remains (R183). -/
def pageRuns (bytes : List Byte) : List (List Byte) :=
  (List.range (blocksFor bytes.length)).map (fun i => (bytes.drop (i * 1024)).take 1024)

theorem flatten_runs {α : Type} (k : Nat) (l : List α) (n : Nat) :
    ((List.range n).map (fun i => (l.drop (i * k)).take k)).flatten = l.take (n * k) := by
  induction n with
  | zero => rw [Nat.zero_mul]; rfl
  | succ n ih =>
    rw [List.range_succ, List.map_append, List.flatten_append, ih, Nat.succ_mul, List.take_add, List.map_singleton,
      List.flatten_singleton]

theorem pageRuns_flatten (bytes : List Byte) : (pageRuns bytes).flatten = bytes := by
  rw [pageRuns, flatten_runs]
  refine List.take_of_length_le ?_
  simp only [blocksFor, Config.blockBytes]
  omega

theorem pageRuns_length {bytes b : List Byte} (h : b ∈ pageRuns bytes) : 1 ≤ b.length ∧ b.length ≤ 1024 := by
  obtain ⟨i, hi, rfl⟩ := List.mem_map.1 h
  rw [List.mem_range] at hi
  simp only [blocksFor, Config.blockBytes] at hi
  rw [List.length_take, List.length_drop]
  omega

theorem pageDataMessages_eq (n : Serial) (bytes : List Byte) :
    pageDataMessages n bytes = (pageRuns bytes).map (fun b => PressMessage.pageData n b) := by
  rw [pageRuns, List.map_map]
  rfl

-- ## SEND_END

/-- The state in which the page of entry `e` is on the link and the entry has ended, before the offer attempt. -/
def State.sendEnded (s : State) (p : PortId) (e : SendEntry) : State :=
  (s.pressAll p (s.sentMessages e)).updPort p (fun x => { x with
    window := x.window.map (fun y => if y.serial = e.serial then { y with ended := true } else y)
    sending := none })

theorem sendEnd_eq (s : State) (p : PortId) (e : SendEntry) : s.sendEnd p e = (s.sendEnded p e).offerAttempt p := rfl

theorem sendEnded_keeps (s : State) (p : PortId) (e : SendEntry) :
    KeepsAllBut [.ports, .pressLog] s (s.sendEnded p e) :=
  ((State.pressAll_keeps s p _).trans (State.updPort_keeps _ p _)).mono

theorem sendEnded_pressLog (h : s.jobs[e.job].pageAt e.place = some r) : (s.sendEnded p e).pressLog =
    s.pressLog ++ (pageRuns (s.readOut r)).map (fun b => (p, PressMessage.pageData e.serial b)) ++
      [(p, .pageEnd e.serial)] := by
  have hdata : s.entryData e = (pageRuns (s.readOut r)).map (fun b => PressMessage.pageData e.serial b) := by
    unfold State.entryData State.entryRecord
    rw [h]
    exact pageDataMessages_eq _ _
  change s.pressLog ++ (s.entryData e ++ [PressMessage.pageEnd e.serial]).map (fun m => (p, m)) = _
  rw [hdata, List.map_append, List.map_map, List.append_assoc]
  rfl

/-- The last entry of a window is the one with its serial. -/
theorem map_last_of_serial (f : SendEntry → SendEntry) (h : ∀ x ∈ front, x.serial ≠ e.serial) :
    (front ++ [e]).map (fun y => if y.serial = e.serial then f y else y) = front ++ [f e] := by
  rw [List.map_append, List.map_singleton, if_pos rfl]
  congr 1
  exact (List.map_congr_left fun x hx => if_neg (h x hx)).trans (List.map_id _)

theorem find_last_of_serial (h : ∀ x ∈ front, x.serial ≠ e.serial) :
    (front ++ [e]).find? (fun x => x.serial == e.serial) = some e := by
  rw [List.find?_append, List.find?_eq_none.2 fun x hx => by simpa using h x hx]
  simp

theorem sendEnded_ports_self (hw : s.ports[p].window = front ++ [e]) (h : ∀ x ∈ front, x.serial ≠ e.serial) :
    (s.sendEnded p e).ports[p] =
      { s.ports[p] with window := front ++ [{ e with ended := true }], sending := none } := by
  unfold State.sendEnded
  rw [State.updPort_ports_self, ← map_last_of_serial (fun y => { y with ended := true }) h, ← hw]
  rfl

theorem sendEnded_ports_ne (h : q ≠ p) : (s.sendEnded p e).ports[q] = s.ports[q] := State.updPort_ports_ne _ _ _ _ h

/-- Without a feed owner, and with an entry that is not TAKEN, there is no attempt. -/
theorem offerAttempt_stays (h : (∃ e ∈ s.ports[p].window, e.state ≠ .taken) ∨ s.ports[p].feedOwner = none) :
    s.offerAttempt p = s := by
  rcases hf : s.ports[p].feedOwner with _ | j
  · exact offerAttempt_unowned hf
  · refine offerAttempt_idle hf ?_
    rcases h with h | h
    · exact .inr (.inr (.inr (.inl h)))
    · exact absurd (hf.symm.trans h) (by simp)

/-- Settles O39: `sendEnded` is the state between the send's end and the attempt. -/
theorem sendEndPutsThePageOnTheLink : Obligations.SendEndPutsThePageOnTheLink := by
  intro s p
  refine ⟨fun hn => ?_, fun e front r hs hw hser h0 hpage => ?_⟩
  · change Host.Outcome.next (match s.ports[p].sendingEntry with | none => s | some e => s.sendEnd p e) = _
    unfold Port.sendingEntry
    rw [hn]
  · have hexec : exec (.sendEnd p) s = .next ((s.sendEnded p e).offerAttempt p) := by
      change Host.Outcome.next (match s.ports[p].sendingEntry with | none => s | some e => s.sendEnd p e) = _
      unfold Port.sendingEntry
      rw [hs, hw]
      dsimp only
      rw [find_last_of_serial hser]
      rfl
    have hport := sendEnded_ports_self hw hser
    refine ⟨_, hexec, s.sendEnded p e, ⟨pageRuns (s.readOut r), sendEnded_pressLog (pageAt_of_place h0 hpage),
      fun b hb => pageRuns_length hb, pageRuns_flatten _⟩, hport, fun q hq => sendEnded_ports_ne hq,
        sendEnded_keeps s p e,
      fun h => offerAttempt_stays ?_, fun j hj => offerAttempt_attempted ?_, State.offerAttempt_keeps _ p⟩
    · rw [hport]
      exact h.imp_left fun ht => ⟨_, List.mem_append_right front (List.mem_singleton_self _), ht⟩
    · rw [hport]
      exact hj

end Sys2Proof.Machine
end

