-- ==== Sys2Proof/Proofs/AttemptAccount.lean ====
section
/-! SUPPORT. What an offer attempt's account reads of the states before and after it, so that what else an event does
around the attempt leaves the account as it is (R92). -/

set_option Elab.async false

namespace Sys2Proof.Machine

open Sys2Proof.Safety

variable {s s' t t' : State} {p : PortId} {j : SlotId} {why : WaitReason} {flag : Option Nat} {r : RecordId}

/-- The later state stands as the earlier one in all that an attempt writes; it may have more notices and asks. -/
structure StandsAs (t t' : State) : Prop where
  jobs : t'.jobs = t.jobs
  ports : t'.ports = t.ports
  accounts : t'.accounts = t.accounts
  pressLog : t'.pressLog = t.pressLog
  notices : NoticesStay t t'
  pass : t.passInProgress = true → t'.passInProgress = true

/-- The two states read the same for an attempt of port `p`. -/
structure ReadsAs (p : PortId) (s s' : State) : Prop where
  jobs : s'.jobs = s.jobs
  ports : s'.ports = s.ports
  accounts : s'.accounts = s.accounts
  pages : s'.pages = s.pages
  queues : s'.queues = s.queues
  pressLog : s'.pressLog = s.pressLog
  clock : s'.clock = s.clock
  timers : s'.timers = s.timers
  service : s'.service p = s.service p

theorem attemptReleases_stands (h : AttemptReleases s t p j why flag) (hs : StandsAs t t') :
    AttemptReleases s t' p j why flag := by
  obtain ⟨hport, hjob, hnotice, hpass, haccounts, hsent⟩ := h
  exact ⟨by rw [hs.ports, hport], by rw [hs.jobs, hjob], fun hf ho => hs.notices _ (hnotice hf ho),
    fun hm => hs.pass (hpass hm), by rw [hs.accounts, haccounts], hs.pressLog.trans hsent⟩

theorem attemptIdle_stands (h : AttemptIdle s t p j) (hs : StandsAs t t') : AttemptIdle s t' p j := by
  unfold AttemptIdle Sent at h ⊢
  rwa [hs.ports, hs.jobs, hs.accounts, hs.pressLog]

theorem attemptOffers_stands (h : AttemptOffers s t p j r) (hs : StandsAs t t') : AttemptOffers s t' p j r := by
  unfold AttemptOffers OtherAccountsSame Sent at h ⊢
  rwa [hs.ports, hs.jobs, hs.accounts, hs.pressLog]

/-- What comes after an attempt leaves its account. -/
theorem attempted_stands (h : Attempted s t p j) (hs : StandsAs t t') : Attempted s t' p j := by
  obtain ⟨hjobs, hports, hidle, hactive⟩ := h
  refine ⟨fun k hk => by rw [hs.jobs]; exact hjobs k hk, fun q hq => by rw [hs.ports]; exact hports q hq,
    fun hno => attemptIdle_stands (hidle hno) hs, fun hno => ⟨fun hn => ?_, fun r covered fits hr hc hf => ?_⟩⟩
  · have hstarve := (hactive hno).1 hn
    unfold Sent at hstarve ⊢
    rwa [hs.ports, hs.jobs, hs.accounts, hs.pressLog]
  · have hpage := (hactive hno).2 r covered fits hr hc hf
    split at hpage
    next hfull => rw [if_pos hfull]; exact attemptIdle_stands hpage hs
    next hfull =>
      rw [if_neg hfull]
      split at hpage
      next hcov => rw [if_pos hcov]; exact attemptReleases_stands hpage hs
      next hcov =>
        rw [if_neg hcov]
        split at hpage
        next hmedia =>
          rw [if_pos hmedia]
          unfold Sent at hpage ⊢
          rwa [hs.ports, hs.jobs, hs.accounts, hs.pressLog]
        next hmedia =>
          rw [if_neg hmedia]
          split at hpage
          next hfits => rw [if_pos hfits]; exact attemptOffers_stands hpage hs
          next hfits => rw [if_neg hfits]; exact attemptReleases_stands hpage hs

/-- What comes before an attempt, and is not read by it, leaves its account. -/
theorem attempted_reads (h : Attempted s t p j) (hs : ReadsAs p s s') : Attempted s' t p j := by
  obtain ⟨hjobs, hports, haccounts, hpages, hqueues, hlog, hclock, htimers, hservice⟩ := hs
  cases s
  cases s'
  dsimp only at hjobs hports haccounts hpages hqueues hlog hclock htimers
  subst hjobs hports haccounts hpages hqueues hlog hclock htimers
  unfold Attempted NoAttempt at h ⊢
  rw [hservice]
  exact h

-- ## Operations that leave the account

theorem standsAs_of_keeps (h : KeepsAllBut [.passInProgress, .passOwed, .inbox, .replies] t t')
    (hp : t.passInProgress = true → t'.passInProgress = true) : StandsAs t t' where
  jobs := h.part .jobs
  ports := h.part .ports
  accounts := h.part .accounts
  pressLog := h.part .pressLog
  notices := .of_eq (h.part .notices)
  pass := hp

theorem ask_passInProgress (t : State) : t.ask.passInProgress = true := by
  unfold State.ask
  split
  next h => exact h
  next => rfl

theorem askIfClaimable_passInProgress (t : State) (p : PortId) (h : t.passInProgress = true) :
    (t.askIfClaimable p).passInProgress = true := by
  unfold State.askIfClaimable
  split
  · exact ask_passInProgress t
  · exact h

theorem askIfBecame_standsAs (t : State) (p : PortId) (before : State) : StandsAs t (t.askIfBecame p before) :=
  standsAs_of_keeps (State.askIfBecame_keeps t p before).mono fun h => by
    unfold State.askIfBecame
    split
    · exact h
    · exact askIfClaimable_passInProgress t p h

end Sys2Proof.Machine
end

