-- ==== Sys2Proof/Proofs/PortServiceOut.lean ====
section
/-! SUPPORT. A link that goes to PROBING (R84, R85, R88), and PORT_SERVICE (R105). -/

set_option Elab.async false

namespace Sys2Proof.Machine

open Sys2Proof.Safety

variable {s t : State} {p q : PortId} {j k : SlotId} {tag : Byte} {body : List Byte} {hold : Bool}

-- ## PROBING

theorem flagPort_ports_self (s : State) (p : PortId) (f : PortFlag) : (s.flagPort p f).ports[p] =
    { s.ports[p] with flags := addBit s.ports[p].flags f.bit, noticeOwed := true } := State.flagPort_ports_val s p f

theorem updPort_press_self (s : State) (p : PortId) (f : Port → Port) (m : PressMessage) :
    ((s.updPort p f).press p m).ports[p] = f s.ports[p] := State.updPort_ports_self s p f

theorem updPort_press_ne (h : q ≠ p) (f : Port → Port) (m : PressMessage) :
    ((s.updPort p f).press p m).ports[q] = s.ports[q] := State.updPort_ports_ne s p f q h

/-- The port's record when its link has gone to PROBING (R85, R88). -/
theorem enterProbing_ports_self (s : State) (p : PortId) : (s.enterProbing p).ports[p] = { s.ports[p] with
    link := .probing, downCause := none, rateWindow := none
    receiver := if s.ports[p].link = .down then .hunt else s.ports[p].receiver
    probeDue := s.clock + 10
    flags := if s.ports[p].link = .up then addBit s.ports[p].flags 1 else s.ports[p].flags
    noticeOwed := s.ports[p].noticeOwed || s.ports[p].link == .up } := by
  unfold State.enterProbing
  dsimp only
  by_cases hup : s.ports[p].link = .up
  · rw [if_pos hup, flagPort_ports_self, updPort_press_self, if_pos hup, hup, beq_self_eq_true, Bool.or_true]
    rfl
  · rw [if_neg hup, updPort_press_self, if_neg hup, beq_eq_false_iff_ne.2 hup, Bool.or_false]
    rfl

theorem enterProbing_ports_ne (h : q ≠ p) : (s.enterProbing p).ports[q] = s.ports[q] := by
  unfold State.enterProbing
  dsimp only
  split
  · rw [State.flagPort_ports_ne _ _ _ _ h, updPort_press_ne h]
  · exact updPort_press_ne h _ _

theorem enterProbing_sent (s : State) (p : PortId) : Sent s (s.enterProbing p) p [.probe] := by
  unfold State.enterProbing Sent
  dsimp only
  split
  · rw [State.flagPort_pressLog]
    rfl
  · rfl

-- ## PORT_SERVICE out

/-- The port is out of service, with the hold flag (R105). -/
def Port.outOfService (hold : Bool) (x : Port) : Port := { x with inService := false, holdAsked := hold }

theorem serviceOut_unowned (h : s.ports[p].feedOwner = none) :
    s.serviceOut p hold = (s.updPort p (Port.outOfService hold)).holdTest p := by
  unfold State.serviceOut
  rw [h]
  rfl

/-- With a STREAMING entry the release is owed. -/
theorem serviceOut_owed (h : s.ports[p].feedOwner = some j) (hs : ∃ e ∈ s.ports[p].window, e.state = .streaming) :
    s.serviceOut p hold =
      (s.updPort p (Port.outOfService hold)).updPort p (fun x => { x with releaseOwed := true }) := by
  have hany : s.ports[p].window.any (fun e => e.state == EntryState.streaming) = true := by
    simpa using hs
  unfold State.serviceOut
  rw [h]
  dsimp only
  rw [if_pos hany]
  refine holdTest_stays (holdsDown_feeding (j := j) ?_)
  rw [State.updPort_ports_self, State.updPort_ports_self]
  exact h

theorem serviceOut_released (h : s.ports[p].feedOwner = some j) (hs : ∀ e ∈ s.ports[p].window, e.state ≠ .streaming) :
    s.serviceOut p hold = ((s.updPort p (Port.outOfService hold)).serviceRelease p j).holdTest p := by
  have hany : ¬s.ports[p].window.any (fun e => e.state == EntryState.streaming) = true := by
    simpa using hs
  unfold State.serviceOut
  rw [h]
  dsimp only
  rw [if_neg hany]
  rfl

theorem serviceRelease_ports_ne (h : q ≠ p) : (s.serviceRelease p j).ports[q] = s.ports[q] := by
  unfold State.serviceRelease
  rw [State.feedReleased_ports_ne _ _ _ h, releaseWaiting_ports, State.releaseFeed_ports_ne _ _ _ _ h]

theorem serviceRelease_jobs_ne (h : k ≠ j) : (s.serviceRelease p j).jobs[k] = s.jobs[k] := by
  unfold State.serviceRelease
  rw [State.feedReleased_jobs_getElem, releaseWaiting_jobs_ne h]

theorem serviceRelease_jobs_self (s : State) (p : PortId) (j : SlotId) : (s.serviceRelease p j).jobs[j] =
    { s.jobs[j] with state := .waiting, reason := some .route, feedPort := none } := by
  unfold State.serviceRelease
  rw [State.feedReleased_jobs_getElem, releaseWaiting_jobs_self]

/-- The port whose feed is released, but for what the hold test of R89 writes. -/
theorem serviceRelease_ports_self (s : State) (p : PortId) (j : SlotId) : ∃ (l : LinkState) (c : Option DownCause)
    (w : Option Nat) (x : Option Serial) (f : BitVec 3) (n : Bool), (s.serviceRelease p j).ports[p] =
      { s.ports[p].dropFeed with
        link := l, downCause := c, rateWindow := w, sending := x, flags := f, noticeOwed := n } := by
  obtain ⟨l, c, w, x, f, n, h⟩ := ((s.releaseFeed p j).makeWaiting j .route).feedReleased_ports_val p
  refine ⟨l, c, w, x, f, n, h.trans ?_⟩
  rw [releaseWaiting_ports, State.releaseFeed_ports_val]
  rfl

theorem serviceRelease_keeps (s : State) (p : PortId) (j : SlotId) :
    KeepsAllBut [.jobs, .ports, .notices, .passInProgress, .passOwed] s (s.serviceRelease p j) :=
  (((State.releaseFeed_keeps s p j).trans (State.makeWaiting_keeps _ j .route)).trans
    (State.feedReleased_keeps _ p)).mono

/-- A port out of service is not READY. -/
theorem not_claimable_out (h : s.ports[p].inService = false) : ¬s.claimable p = true := by
  rw [claimable_iff]
  rintro ⟨-, hready⟩
  unfold State.service at hready
  rw [h] at hready
  iterate 4
    split at hready
    · cases hready
  split at hready
  next => cases hready
  next hopen => exact hopen rfl

theorem serviceRelease_asked (s : State) (p : PortId) (j : SlotId) (h : s.ports[p].inService = false) :
    AskedIf (s.queues[s.jobs[j].queue].mode = .run) s (s.serviceRelease p j) := by
  have hwait := (State.makeWaiting_asked (s.releaseFeed p j) j .route).after
    (.of_keeps (State.releaseFeed_keeps s p j))
  have hqueue : (s.releaseFeed p j).jobs[j].queue = s.jobs[j].queue := by
    rw [Fin.getElem_fin, State.releaseFeed_jobs_val]
    rfl
  have hmode : (s.releaseFeed p j).queues[(s.releaseFeed p j).jobs[j].queue].mode = s.queues[s.jobs[j].queue].mode := by
    simp only [hqueue, State.releaseFeed_queues]
  rw [hmode] at hwait
  refine hwait.before (NotAsked.trans ((askIfClaimable_asked _ p).2 (not_claimable_out ?_))
    (.of_keeps (State.holdTest_keeps _ p)))
  rw [releaseWaiting_ports, Fin.getElem_fin, State.releaseFeed_ports_val]
  exact h

theorem serviceOut_ports_ne (h : q ≠ p) : (s.serviceOut p hold).ports[q] = s.ports[q] := by
  unfold State.serviceOut
  dsimp only
  rw [State.holdTest_ports_ne _ _ _ h]
  split
  · exact State.updPort_ports_ne _ _ _ _ h
  · split
    · rw [State.updPort_ports_ne _ _ _ _ h, State.updPort_ports_ne _ _ _ _ h]
    · rw [serviceRelease_ports_ne h, State.updPort_ports_ne _ _ _ _ h]

/-- The hold test leaves these fields of the port. -/
theorem holdTest_ports_self (s : State) (p : PortId) :
    (s.holdTest p).ports[p].inService = s.ports[p].inService ∧
      (s.holdTest p).ports[p].holdAsked = s.ports[p].holdAsked ∧
      (s.holdTest p).ports[p].window = s.ports[p].window ∧ (s.holdTest p).ports[p].setup = s.ports[p].setup ∧
      (s.holdTest p).ports[p].feedOwner = s.ports[p].feedOwner ∧
      (s.holdTest p).ports[p].starveTimer = s.ports[p].starveTimer ∧
      (s.holdTest p).ports[p].releaseOwed = s.ports[p].releaseOwed := by
  obtain ⟨_, _, _, _, _, _, h⟩ := s.holdTest_ports_val p
  rw [Fin.getElem_fin, h]
  exact ⟨rfl, rfl, rfl, rfl, rfl, rfl, rfl⟩

/-- What the port is after a feed released by PORT_SERVICE out. -/
theorem serviceOut_released_port (h : s.ports[p].feedOwner = some j)
    (hs : ∀ e ∈ s.ports[p].window, e.state ≠ .streaming) : (s.serviceOut p hold).ports[p].inService = false ∧
      (s.serviceOut p hold).ports[p].holdAsked = hold ∧ (s.serviceOut p hold).ports[p].window = s.ports[p].window ∧
      (s.serviceOut p hold).ports[p].setup = s.ports[p].setup ∧ (s.serviceOut p hold).ports[p].feedOwner = none ∧
      (s.serviceOut p hold).ports[p].starveTimer = none ∧ (s.serviceOut p hold).ports[p].releaseOwed = false := by
  obtain ⟨hin, hheld, hwindow, hsetup, howner, hstarve, howed⟩ :=
    holdTest_ports_self ((s.updPort p (Port.outOfService hold)).serviceRelease p j) p
  obtain ⟨_, _, _, _, _, _, hport⟩ := serviceRelease_ports_self (s.updPort p (Port.outOfService hold)) p j
  rw [State.updPort_ports_self] at hport
  rw [serviceOut_released h hs, hin, hheld, hwindow, hsetup, howner, hstarve, howed, hport]
  exact ⟨rfl, rfl, rfl, rfl, rfl, rfl, rfl⟩

/-- What PORT_SERVICE out writes of the port whatever its feed. -/
theorem serviceOut_ports_self (s : State) (p : PortId) (hold : Bool) :
    (s.serviceOut p hold).ports[p].inService = false ∧ (s.serviceOut p hold).ports[p].holdAsked = hold ∧
      (s.serviceOut p hold).ports[p].window = s.ports[p].window ∧
      (s.serviceOut p hold).ports[p].setup = s.ports[p].setup := by
  rcases h : s.ports[p].feedOwner with _ | j
  · obtain ⟨hin, hheld, hwindow, hsetup, -⟩ := holdTest_ports_self (s.updPort p (Port.outOfService hold)) p
    rw [serviceOut_unowned h, hin, hheld, hwindow, hsetup, State.updPort_ports_self]
    exact ⟨rfl, rfl, rfl, rfl⟩
  · by_cases hs : ∃ e ∈ s.ports[p].window, e.state = .streaming
    · rw [serviceOut_owed h hs, State.updPort_ports_self, State.updPort_ports_self]
      exact ⟨rfl, rfl, rfl, rfl⟩
    · obtain ⟨hin, hheld, hwindow, hsetup, -⟩ :=
        serviceOut_released_port (hold := hold) h fun e he ht => hs ⟨e, he, ht⟩
      exact ⟨hin, hheld, hwindow, hsetup⟩

theorem serviceOut_released_jobs (h : s.ports[p].feedOwner = some j)
    (hs : ∀ e ∈ s.ports[p].window, e.state ≠ .streaming) : (s.serviceOut p hold).jobs[j] =
      { s.jobs[j] with state := .waiting, reason := some .route, feedPort := none } ∧
      OtherJobsSame j s (s.serviceOut p hold) := by
  have hjobs : (s.serviceOut p hold).jobs = ((s.updPort p (Port.outOfService hold)).serviceRelease p j).jobs := by
    rw [serviceOut_released h hs]
    exact (State.holdTest_keeps _ p).part .jobs
  refine ⟨?_, fun k hk => ?_⟩
  · rw [hjobs, serviceRelease_jobs_self]
    rfl
  · rw [hjobs, serviceRelease_jobs_ne hk]
    rfl

theorem serviceOut_released_asked (h : s.ports[p].feedOwner = some j)
    (hs : ∀ e ∈ s.ports[p].window, e.state ≠ .streaming) :
    AskedIf (s.queues[s.jobs[j].queue].mode = .run) s (s.serviceOut p hold) := by
  have hasked := serviceRelease_asked (s.updPort p (Port.outOfService hold)) p j
    (by rw [State.updPort_ports_self]; rfl)
  rw [serviceOut_released h hs]
  exact (hasked.after (.of_keeps (State.updPort_keeps s p _))).before (.of_keeps (State.holdTest_keeps _ p))

theorem serviceOut_released_keeps (h : s.ports[p].feedOwner = some j)
    (hs : ∀ e ∈ s.ports[p].window, e.state ≠ .streaming) :
    KeepsAllBut [.ports, .jobs, .notices, .passInProgress, .passOwed] s (s.serviceOut p hold) := by
  rw [serviceOut_released h hs]
  exact (((State.updPort_keeps s p _).trans (serviceRelease_keeps _ p j)).trans (State.holdTest_keeps _ p)).mono

/-- An empty port whose hold is asked goes DOWN; any other stays on its link (R89). -/
theorem serviceOut_unowned_port (h : s.ports[p].feedOwner = none) :
    (hold = true ∧ s.ports[p].setup = none ∧ s.ports[p].window = [] ∧ s.ports[p].link ≠ .down →
      (s.serviceOut p hold).ports[p].link = .down ∧ (s.serviceOut p hold).ports[p].downCause = some .hold ∧
        (s.ports[p].link = .up → hasBit (s.serviceOut p hold).ports[p].flags 1 = true ∧
          (s.serviceOut p hold).ports[p].noticeOwed = true)) ∧
    (hold = false ∨ s.ports[p].setup ≠ none ∨ s.ports[p].window ≠ [] ∨ s.ports[p].link = .down →
      (s.serviceOut p hold).ports[p] = { s.ports[p] with inService := false, holdAsked := hold }) := by
  have hout : (s.updPort p (Port.outOfService hold)).ports[p] =
      { s.ports[p] with inService := false, holdAsked := hold } := State.updPort_ports_self s p _
  have hdown : (s.updPort p (Port.outOfService hold)).ports[p].holdsDown = true ↔
      hold = true ∧ s.ports[p].setup = none ∧ s.ports[p].window = [] ∧ s.ports[p].link ≠ .down := by
    rw [hout]
    simp only [Port.holdsDown, h, Bool.and_eq_true, Option.isNone_iff_eq_none, List.isEmpty_iff, bne_iff_ne,
      Option.isNone_none, Bool.not_false, and_true, and_assoc]
  rw [serviceOut_unowned h]
  refine ⟨fun hc => ?_, fun hc => ?_⟩
  · rw [State.holdTest, if_pos (hdown.2 hc)]
    obtain ⟨f, n, hport⟩ := State.goDown_ports_val (s.updPort p (Port.outOfService hold)) p .hold
    rw [← Fin.getElem_fin] at hport
    refine ⟨by rw [hport], by rw [hport], fun hup => ?_⟩
    rw [goDown_ports_up (by rw [hout]; exact hup), hout]
    exact ⟨by simp [PortFlag.bit], rfl⟩
  · rw [holdTest_stays, hout]
    rw [Bool.eq_false_iff]
    intro hd
    obtain ⟨h1, h2, h3, h4⟩ := hdown.1 hd
    rcases hc with hc | hc | hc | hc
    · exact absurd h1 (by rw [hc]; decide)
    · exact hc h2
    · exact hc h3
    · exact h4 hc

end Sys2Proof.Machine
end

