-- ==== Sys2Proof/Proofs/PortServiceIn.lean ====
section
/-! SUPPORT. PORT_SERVICE in, and the statement on PORT_SERVICE (R105). -/

set_option Elab.async false

namespace Sys2Proof.Machine

open Sys2Proof.Safety

variable {s t : State} {p q : PortId} {j k : SlotId} {tag : Byte} {body : List Byte} {parts : List Part}

-- ## PORT_SERVICE in

/-- The port is back in service (R105). -/
def Port.backInService (x : Port) : Port := { x with inService := true, holdAsked := false, releaseOwed := false }

/-- The state in which the port is back and, if it was held down, probing; the attempt comes next. -/
def State.serviceBack (s : State) (p : PortId) : State :=
  if s.ports[p].link = .down ∧ s.ports[p].downCause = some .hold then (s.updPort p Port.backInService).enterProbing p
  else s.updPort p Port.backInService

theorem serviceIn_inService (h : s.ports[p].inService = true) : s.serviceIn p = s := if_pos h

/-- A port out of service was not claimable, so that its ask follows its new state alone (R74). -/
theorem serviceIn_out (h : s.ports[p].inService = false) :
    s.serviceIn p = ((s.serviceBack p).offerAttempt p).askIfClaimable p := by
  unfold State.serviceIn
  rw [if_neg (by rw [h]; decide)]
  exact if_neg (not_claimable_out h)

theorem serviceBack_held (h : s.ports[p].link = .down ∧ s.ports[p].downCause = some .hold) :
    s.serviceBack p = (s.updPort p Port.backInService).enterProbing p := if_pos h

theorem serviceBack_free (h : s.ports[p].link ≠ .down ∨ s.ports[p].downCause ≠ some .hold) :
    s.serviceBack p = s.updPort p Port.backInService := if_neg fun hc => h.elim (· hc.1) (· hc.2)

theorem serviceBack_keeps (s : State) (p : PortId) : KeepsAllBut [.ports, .pressLog, .notices] s (s.serviceBack p) := by
  have hback := State.updPort_keeps s p Port.backInService
  unfold State.serviceBack
  exact .ite (hback.trans (State.enterProbing_keeps _ p)).mono hback.mono

theorem serviceBack_ports_ne (h : q ≠ p) : (s.serviceBack p).ports[q] = s.ports[q] := by
  unfold State.serviceBack
  split
  · rw [enterProbing_ports_ne h, State.updPort_ports_ne _ _ _ _ h]
  · exact State.updPort_ports_ne _ _ _ _ h

/-- What PORT_SERVICE in writes of the port whatever its link. -/
theorem serviceBack_ports_self (s : State) (p : PortId) : (s.serviceBack p).ports[p].inService = true ∧
    (s.serviceBack p).ports[p].holdAsked = false ∧ (s.serviceBack p).ports[p].releaseOwed = false ∧
    (s.serviceBack p).ports[p].window = s.ports[p].window ∧
    (s.serviceBack p).ports[p].feedOwner = s.ports[p].feedOwner := by
  unfold State.serviceBack
  split
  · rw [enterProbing_ports_self, State.updPort_ports_self]
    exact ⟨rfl, rfl, rfl, rfl, rfl⟩
  · rw [State.updPort_ports_self]
    exact ⟨rfl, rfl, rfl, rfl, rfl⟩

/-- A held-down link goes to PROBING (R85, R89). -/
theorem serviceBack_probes (h : s.ports[p].link = .down ∧ s.ports[p].downCause = some .hold) :
    (s.serviceBack p).ports[p].link = .probing ∧ (s.serviceBack p).ports[p].downCause = none ∧
      (s.serviceBack p).ports[p].probeDue = s.clock + 10 ∧
      (s.serviceBack p).pressLog = s.pressLog ++ [(p, .probe)] ∧
      (s.serviceBack p).notices = s.notices := by
  have hlink : (s.updPort p Port.backInService).ports[p].link = .down := by
    rw [State.updPort_ports_self]
    exact h.1
  rw [serviceBack_held h, enterProbing_ports_self]
  refine ⟨rfl, rfl, rfl, enterProbing_sent _ p, ?_⟩
  unfold State.enterProbing
  rw [if_neg (by rw [hlink]; decide)]
  rfl

theorem serviceBack_notices (s : State) (p : PortId) : (s.serviceBack p).notices = s.notices := by
  by_cases h : s.ports[p].link = .down ∧ s.ports[p].downCause = some .hold
  · exact (serviceBack_probes h).2.2.2.2
  · unfold State.serviceBack
    rw [if_neg h]
    rfl

theorem serviceIn_unowned (h : s.ports[p].inService = false) (hf : s.ports[p].feedOwner = none) :
    s.serviceIn p = (s.serviceBack p).askIfClaimable p := by
  rw [serviceIn_out h, offerAttempt_unowned ((serviceBack_ports_self s p).2.2.2.2.trans hf)]

-- ## The request

theorem replied_keeps {f : HostFrame} (h : KeepsAllBut parts s.popInbox t) :
    KeepsAllBut (.inbox :: .replies :: parts) s (t.placeReply f) := by
  refine ((s.popInbox_keeps.trans h).trans (State.placeReply_keeps t f)).mono ?_
  intro x hx
  simp only [List.mem_append, List.mem_singleton] at hx
  simp only [List.mem_cons]
  tauto

theorem judgePortService_out (hp : (byteAt body 0).toNat = p.val) (hd : byteAt body 1 = 0) : judgePortService body s =
    ok (s.serviceOut p (byteAt body 2 == 1)) ((s.serviceOut p (byteAt body 2 == 1)).serviceReply p) := by
  unfold judgePortService
  rw [portOf_eq hp]
  exact if_pos hd

theorem judgePortService_in (hp : (byteAt body 0).toNat = p.val) (hd : byteAt body 1 = 1) :
    judgePortService body s = ok (s.serviceIn p) ((s.serviceIn p).serviceReply p) := by
  unfold judgePortService
  rw [portOf_eq hp]
  exact (if_neg (by rw [hd]; decide)).trans (if_pos hd)

theorem judgePortService_refused (h : 15 < (byteAt body 0).toNat ∨ 1 < (byteAt body 1).toNat) :
    judgePortService body s = .refused .range := by
  unfold judgePortService
  rcases hp : portOf (byteAt body 0) with _ | p
  · rfl
  · have hlow : ¬15 < (byteAt body 0).toNat := fun hc => by rw [portOf_none hc] at hp; cases hp
    have hdir : 1 < (byteAt body 1).toNat := h.resolve_left hlow
    refine (if_neg fun hc => ?_).trans (if_neg fun hc => ?_) <;>
    · rw [hc] at hdir
      exact absurd hdir (by decide)

theorem serviceIn_keeps (s : State) (p : PortId) : KeepsAllBut
    [.jobs, .ports, .accounts, .pressLog, .notices, .passInProgress, .passOwed] s (s.serviceIn p) := by
  by_cases h : s.ports[p].inService = true
  · rw [serviceIn_inService h]
    exact .refl _ s
  · rw [serviceIn_out (Bool.eq_false_iff.2 h)]
    exact (((serviceBack_keeps s p).trans (State.offerAttempt_keeps _ p)).trans (State.askIfClaimable_keeps _ p)).mono

theorem serviceOut_keeps (s : State) (p : PortId) (hold : Bool) : KeepsAllBut
    [.jobs, .ports, .accounts, .pressLog, .notices, .passInProgress, .passOwed] s (s.serviceOut p hold) := by
  rcases h : s.ports[p].feedOwner with _ | j
  · rw [serviceOut_unowned h]
    exact ((State.updPort_keeps s p _).trans (State.holdTest_keeps _ p)).mono
  · by_cases hs : ∃ e ∈ s.ports[p].window, e.state = .streaming
    · rw [serviceOut_owed h hs]
      exact ((State.updPort_keeps s p _).trans (State.updPort_keeps _ p _)).mono
    · exact (serviceOut_released_keeps h fun e he ht => hs ⟨e, he, ht⟩).mono

theorem direction_cases {b : Byte} (h : b.toNat ≤ 1) : b = 0 ∨ b = 1 := by
  have hb : b.toNat = 0 ∨ b.toNat = 1 := by omega
  exact hb.imp BitVec.eq_of_toNat_eq BitVec.eq_of_toNat_eq

theorem offerAttempt_ports_ne (h : q ≠ p) : (s.offerAttempt p).ports[q] = s.ports[q] := by
  rcases hf : s.ports[p].feedOwner with _ | j
  · rw [offerAttempt_unowned hf]
  · exact (offerAttempt_attempted hf).2.1 q h

theorem serviceIn_ports_ne (h : q ≠ p) : (s.serviceIn p).ports[q] = s.ports[q] := by
  by_cases hi : s.ports[p].inService = true
  · rw [serviceIn_inService hi]
  · rw [serviceIn_out (Bool.eq_false_iff.2 hi), State.askIfClaimable_ports, offerAttempt_ports_ne h,
      serviceBack_ports_ne h]

/-- The cases of PORT_SERVICE out, on the state with the request taken off. -/
theorem serviceOut_cases (s : State) (p : PortId) (hold : Bool) :
    (∀ j, s.ports[p].feedOwner = some j → (∃ e ∈ s.ports[p].window, e.state = .streaming) →
      (s.serviceOut p hold).ports[p] = { s.ports[p] with inService := false, holdAsked := hold, releaseOwed := true } ∧
        KeepsAllBut [.ports] s (s.serviceOut p hold)) ∧
    (∀ j, s.ports[p].feedOwner = some j → (∀ e ∈ s.ports[p].window, e.state ≠ .streaming) →
      (s.serviceOut p hold).ports[p].feedOwner = none ∧ (s.serviceOut p hold).ports[p].starveTimer = none ∧
        (s.serviceOut p hold).ports[p].releaseOwed = false ∧
        (s.serviceOut p hold).jobs[j] = { s.jobs[j] with state := .waiting, reason := some .route, feedPort := none } ∧
        OtherJobsSame j s (s.serviceOut p hold) ∧
        AskedIf (s.queues[s.jobs[j].queue].mode = .run) s (s.serviceOut p hold) ∧
        KeepsAllBut [.ports, .jobs, .notices, .passInProgress, .passOwed] s (s.serviceOut p hold)) := by
  refine ⟨fun j hj hs => ?_, fun j hj hs => ?_⟩
  · rw [serviceOut_owed hj hs, State.updPort_ports_self, State.updPort_ports_self]
    exact ⟨rfl, ((State.updPort_keeps s p _).trans (State.updPort_keeps _ p _)).mono⟩
  · obtain ⟨-, -, -, -, howner, hstarve, howed⟩ := serviceOut_released_port (hold := hold) hj hs
    obtain ⟨hjob, hothers⟩ := serviceOut_released_jobs (hold := hold) hj hs
    exact ⟨howner, hstarve, howed, hjob, hothers, serviceOut_released_asked hj hs, serviceOut_released_keeps hj hs⟩

theorem serviceOut_unowned_keeps (h : s.ports[p].feedOwner = none) (hold : Bool) :
    KeepsAllBut [.ports, .notices] s (s.serviceOut p hold) := by
  rw [serviceOut_unowned h]
  exact ((State.updPort_keeps s p _).trans (State.holdTest_keeps _ p)).mono

/-- A pass is asked for exactly when the port that is back is READY with its link UP (R74). -/
theorem serviceIn_asked (h : s.ports[p].inService = false) (hf : s.ports[p].feedOwner = none) :
    AskedIf ((s.serviceIn p).ports[p].link = .up ∧ (s.serviceIn p).service p = .ready) s (s.serviceIn p) := by
  have hasked := (askIfClaimable_asked (s.serviceBack p) p).after (.of_keeps (serviceBack_keeps s p))
  rw [serviceIn_unowned h hf]
  refine askedIf_congr ?_ hasked
  rw [claimable_iff, askIfClaimable_service, State.askIfClaimable_ports]

theorem serviceIn_unowned_keeps (h : s.ports[p].inService = false) (hf : s.ports[p].feedOwner = none) :
    KeepsAllBut [.ports, .pressLog, .passInProgress, .passOwed] s (s.serviceIn p) := by
  have hback : KeepsAllBut [.ports, .pressLog] s (s.serviceBack p) := fun x hx => by
    by_cases hn : x = .notices
    · subst hn
      exact serviceBack_notices s p
    · exact serviceBack_keeps s p x (by simp only [List.mem_cons] at hx ⊢; tauto)
  rw [serviceIn_unowned h hf]
  exact hback.trans (State.askIfClaimable_keeps _ p)

/-- The port with a feed that comes back makes an offer attempt (R92). -/
theorem serviceIn_attempted (h : s.ports[p].inService = false) (hf : s.ports[p].feedOwner = some j)
    (hl : s.ports[p].link ≠ .down ∨ s.ports[p].downCause ≠ some .hold) :
    Attempted (s.updPort p Port.backInService) (s.serviceIn p) p j := by
  have howner : (s.updPort p Port.backInService).ports[p].feedOwner = some j := by
    rw [State.updPort_ports_self]
    exact hf
  have hask : s.serviceIn p = ((s.updPort p Port.backInService).offerAttempt p).askIfClaimable p := by
    rw [serviceIn_out h, serviceBack_free hl]
  rw [hask]
  exact attempted_stands (offerAttempt_attempted howner) (standsAs_of_keeps (State.askIfClaimable_keeps _ p).mono
    (askIfClaimable_passInProgress _ p))

/-- What PORT_SERVICE in leaves a port without a feed. -/
theorem serviceIn_unowned_port (h : s.ports[p].inService = false) (hf : s.ports[p].feedOwner = none) :
    (s.serviceIn p).ports[p] = (s.serviceBack p).ports[p] ∧ (s.serviceIn p).pressLog = (s.serviceBack p).pressLog := by
  rw [serviceIn_unowned h hf, State.askIfClaimable_ports, State.askIfClaimable_pressLog]
  exact ⟨rfl, rfl⟩

/-- Settles O33: the direction chooses `serviceOut` or `serviceIn`, and the feed the case of either. -/
theorem portServiceTakesAPortOutAndIn : Obligations.PortServiceTakesAPortOutAndIn := by
  intro s tag body ht hlen hflag
  have hsize : portServiceOk body = true := by
    rw [portServiceOk, Bool.and_eq_true, sized_iff, isYesNo_iff]
    exact ⟨hlen, by omega⟩
  refine ⟨fun h => exec_refused rfl ht hsize (judgePortService_refused h), fun p hp hdir => ?_⟩
  rcases direction_cases hdir with hd | hd
  · have hnotin : ¬byteAt body 1 = 1 := by rw [hd]; decide
    obtain ⟨hin, hheld, hwindow, hsetup⟩ := serviceOut_ports_self s.popInbox p (byteAt body 2 == 1)
    obtain ⟨howed, hreleased⟩ := serviceOut_cases s.popInbox p (byteAt body 2 == 1)
    refine completes_ok rfl ht hsize (judgePortService_out hp hd) (serviceOut_keeps _ p _) fun hr _ =>
      ⟨hr, fun q hq => serviceOut_ports_ne hq, fun _ hold hh => ?_, fun h => absurd h hnotin, fun h => absurd h hnotin,
        fun _ h => absurd h hnotin⟩
    subst hh
    refine ⟨hin, hheld, hwindow, hsetup, fun j hj hs => ?_, fun j hj hs => ?_, fun hj => ?_⟩
    · exact ⟨(howed j hj hs).1, (replied_keeps (howed j hj hs).2).mono⟩
    · obtain ⟨h1, h2, h3, h4, h5, h6, h7⟩ := hreleased j hj hs
      exact ⟨h1, h2, h3, h4, h5, h6, (replied_keeps h7).mono⟩
    · obtain ⟨hdown, hstays⟩ := serviceOut_unowned_port (hold := byteAt body 2 == 1) (s := s.popInbox) hj
      exact ⟨hdown, hstays, (replied_keeps (serviceOut_unowned_keeps (s := s.popInbox) hj _)).mono⟩
  · have hnotout : ¬byteAt body 1 = 0 := by rw [hd]; decide
    refine completes_ok rfl ht hsize (judgePortService_in hp hd) (serviceIn_keeps _ p) fun hr hk =>
      ⟨hr, fun q hq => serviceIn_ports_ne hq, fun h => absurd h hnotout, fun _ hi => ?_, fun _ hi hf => ?_,
        fun j _ hi hf hl => ?_⟩
    · rw [serviceIn_inService (s := s.popInbox) hi]
      exact replied_keeps (.refl [] _)
    · obtain ⟨hport, hlog⟩ := serviceIn_unowned_port (s := s.popInbox) hi hf
      obtain ⟨hin, hheld, howed, hwindow, -⟩ := serviceBack_ports_self s.popInbox p
      refine ⟨?_, ?_, ?_, ?_, fun hl => ?_, fun hl => ?_, serviceIn_asked (s := s.popInbox) hi hf,
        (replied_keeps (serviceIn_unowned_keeps (s := s.popInbox) hi hf)).mono⟩
      · exact (congrArg Port.inService hport).trans hin
      · exact (congrArg Port.holdAsked hport).trans hheld
      · exact (congrArg Port.releaseOwed hport).trans howed
      · exact (congrArg Port.window hport).trans hwindow
      · obtain ⟨hlink, hcause, hdue, hsent, -⟩ := serviceBack_probes (s := s.popInbox) hl
        exact ⟨(congrArg Port.link hport).trans hlink, (congrArg Port.downCause hport).trans hcause,
          (congrArg Port.probeDue hport).trans hdue, hlog.trans hsent⟩
      · rw [serviceBack_free (s := s.popInbox) hl] at hport hlog
        exact ⟨hport.trans (State.updPort_ports_self _ p _), hlog⟩
    · exact ⟨serviceIn_attempted (s := s.popInbox) hi hf hl, hk.mono⟩

end Sys2Proof.Machine
end

