-- ==== Sys2Proof/Proofs/AlertRecords.lean ====
section
/-! SUPPORT. The record of an alert slot that opens, merges, repeats or closes (R145 to R147, R156 to R158), and
the sides of a stop alert (R153, R154). -/

set_option Elab.async false

namespace Sys2Proof.Machine

open Sys2Proof.Safety

variable {s s' t u : State} {p q : PortId} {a b : AlertId} {k : AlertKind} {l : Byte} {x y : KindSet}

-- ## Sets of bits

theorem hasBit_minusBits {n : Nat} (x y : BitVec n) (i : Nat) :
    hasBit (minusBits x y) i = (hasBit x i && !hasBit y i) := by
  by_cases hi : i < n
  · simp [hasBit, minusBits, hi]
  · have hx : hasBit x i = false := BitVec.getLsbD_of_ge x i (by omega)
    have hm : hasBit (minusBits x y) i = false := BitVec.getLsbD_of_ge _ i (by omega)
    rw [hx, hm, Bool.false_and]

theorem hasBit_or {n : Nat} (x y : BitVec n) (i : Nat) : hasBit (x ||| y) i = (hasBit x i || hasBit y i) :=
  BitVec.getLsbD_or

theorem bitVec_ext {n : Nat} {x y : BitVec n} (h : ∀ i, hasBit x i = hasBit y i) : x = y :=
  BitVec.eq_of_getLsbD_eq fun i _ => h i

theorem minusBits_zero {n : Nat} (x : BitVec n) : minusBits x 0 = x :=
  bitVec_ext fun i => by rw [hasBit_minusBits, hasBit_zero, Bool.not_false, Bool.and_true]

theorem zero_minusBits {n : Nat} (x : BitVec n) : minusBits 0 x = 0 :=
  bitVec_ext fun i => by rw [hasBit_minusBits, hasBit_zero, Bool.false_and]

theorem or_zero_bits {n : Nat} (x : BitVec n) : x ||| 0 = x :=
  bitVec_ext fun i => by rw [hasBit_or, hasBit_zero, Bool.or_false]

theorem eq_zero_iff_hasBit {n : Nat} (x : BitVec n) : x = 0 ↔ ∀ i, hasBit x i = false :=
  ⟨fun h i => h ▸ hasBit_zero n i, fun h => bitVec_ext fun i => (h i).trans (hasBit_zero n i).symm⟩

-- ## Flags, opening and closing

theorem flagAlert_alerts_self (s : State) (a : AlertId) (f : AlertFlag) : (s.flagAlert a f).alerts[a] =
    { s.alerts[a] with flags := addBit s.alerts[a].flags f.bit, noticeOwed := true } := State.flagAlert_alerts_val s a f

theorem relist_alerts_self (s : State) (a : AlertId) (f : AlertSlot → AlertSlot) (as : List AlertId) :
    ({ s.updAlert a f with openAlerts := as } : State).alerts[a] = f s.alerts[a] := s.updAlert_alerts_self a f

theorem relist_alerts_ne (h : b ≠ a) (f : AlertSlot → AlertSlot) (as : List AlertId) :
    ({ s.updAlert a f with openAlerts := as } : State).alerts[b] = s.alerts[b] := s.updAlert_alerts_ne a f b h

theorem openSlot_alerts_self (s : State) (a : AlertId) (k : AlertKind) (x y : KindSet) (l : Byte) :
    (s.openSlot a k x y l).alerts[a] = { s.alerts[a] with
      isOpen := true, primary := some k, additional := x, standing := y, location := l, raised := s.clock, level := 1
      acknowledged := false, attendant := false, hostReleased := false, repeats := 0, affected := []
      timer := some (s.clock + BitVec.ofNat 32 (10 * s.timers.escalation1)), flags := addBit s.alerts[a].flags 0
      noticeOwed := true } := by
  unfold State.openSlot
  rw [flagAlert_alerts_self, relist_alerts_self]
  rfl

theorem openSlot_alerts_ne (h : b ≠ a) : (s.openSlot a k x y l).alerts[b] = s.alerts[b] := by
  unfold State.openSlot
  rw [State.flagAlert_alerts_ne _ _ _ _ h, relist_alerts_ne h]

theorem openSlot_openAlerts (s : State) (a : AlertId) (k : AlertKind) (x y : KindSet) (l : Byte) :
    (s.openSlot a k x y l).openAlerts = s.openAlerts ++ [a] := by
  unfold State.openSlot
  rw [State.flagAlert_openAlerts]

theorem closeSlot_alerts_self (s : State) (a : AlertId) : (s.closeSlot a).alerts[a] = { s.alerts[a] with
    isOpen := false, timer := none, flags := addBit s.alerts[a].flags 2, noticeOwed := true } := by
  unfold State.closeSlot
  rw [flagAlert_alerts_self, relist_alerts_self]
  rfl

theorem closeSlot_alerts_ne (h : b ≠ a) : (s.closeSlot a).alerts[b] = s.alerts[b] := by
  unfold State.closeSlot
  rw [State.flagAlert_alerts_ne _ _ _ _ h, relist_alerts_ne h]

theorem closeSlot_openAlerts (s : State) (a : AlertId) :
    (s.closeSlot a).openAlerts = s.openAlerts.filter (fun b => b != a) := by
  unfold State.closeSlot
  rw [State.flagAlert_openAlerts]

/-- A slot that owed no notice owes one when it closes, and stands in the notice queue (R163, R172). -/
theorem closeSlot_notices (h : s.alerts[a].noticeOwed = false) : Source.alert a ∈ (s.closeSlot a).notices := by
  unfold State.closeSlot
  rw [State.flagAlert_notices, relist_alerts_self]
  dsimp only
  rw [h]
  exact List.mem_append_right _ (List.mem_singleton_self _)

theorem stopSlot_ne_waitSlot (p q : PortId) : stopSlot p ≠ waitSlot q := fun h => by
  have hval := congrArg Fin.val h
  simp only [stopSlot, waitSlot] at hval
  omega

-- ## A stop condition reaches its slot

theorem raiseStop_open (h : s.alerts[stopSlot p].isOpen = true) : (s.raiseStop p k l).alerts[stopSlot p] =
    { AlertSlot.merge k l s.alerts[stopSlot p] with
      flags := addBit s.alerts[stopSlot p].flags 0, noticeOwed := true } := by
  unfold State.raiseStop
  rw [if_pos h, flagAlert_alerts_self, State.updAlert_alerts_self]
  rfl

theorem raiseStop_clear (h : s.alerts[stopSlot p].isOpen = false) :
    s.raiseStop p k l = s.openSlot (stopSlot p) k 0 0 (if k = .jam then l else 0) := by
  unfold State.raiseStop
  rw [if_neg (by rw [h]; decide)]

theorem raiseStop_alerts_ne (h : b ≠ stopSlot p) : (s.raiseStop p k l).alerts[b] = s.alerts[b] := by
  unfold State.raiseStop
  split
  · rw [State.flagAlert_alerts_ne _ _ _ _ h, State.updAlert_alerts_ne _ _ _ _ h]
  · exact openSlot_alerts_ne h

/-- The stop slot takes the condition by R146 or R147. -/
theorem raiseStop_raised (s : State) (p : PortId) (k : AlertKind) (l : Byte) :
    StopRaised s (s.raiseStop p k l) p k l := by
  unfold StopRaised
  by_cases h : s.alerts[stopSlot p].isOpen = true
  · rw [raiseStop_open h]
    exact ⟨h, by simp, rfl, rfl, fun hc => absurd hc (by rw [h]; decide),
      fun _ => ⟨rfl, rfl, rfl, rfl, rfl, rfl, rfl, rfl, rfl⟩⟩
  · rw [Bool.not_eq_true] at h
    rw [raiseStop_clear h, openSlot_alerts_self, openSlot_openAlerts]
    refine ⟨rfl, by simp, rfl, rfl, fun _ => ⟨rfl, rfl, rfl, rfl, rfl, rfl, rfl, rfl, rfl, rfl, ?_⟩,
      fun hc => absurd hc (by rw [h]; decide)⟩
    rw [List.getLast?_append, List.getLast?_singleton]
    rfl

-- ## One event of a wait slot

/-- The standing conditions of port `p`'s wait slot after one event (R157, R158). -/
def State.standAfter (s : State) (p : PortId) (added removed : KindSet) : KindSet :=
  minusBits s.alerts[waitSlot p].standing removed ||| added

/-- The wait slot when it has taken an event's conditions, before it may close. -/
def State.waitTaken (s : State) (p : PortId) (added removed : KindSet) : State :=
  (s.updAlert (waitSlot p) (AlertSlot.stand added removed)).repeatWait (waitSlot p)
    (minusBits added s.alerts[waitSlot p].standing)

theorem waitEvent_open (h : s.alerts[waitSlot p].isOpen = true) :
    s.waitEvent p x y = (s.waitTaken p x y).closeIfClear (waitSlot p) := if_pos h

theorem waitEvent_opens (h : s.alerts[waitSlot p].isOpen = false) (hx : x ≠ 0) : s.waitEvent p x y =
    s.openSlot (waitSlot p) (firstWaitKind x) (dropBit x (firstWaitKind x).bit) x 0 := by
  unfold State.waitEvent
  rw [if_neg (by rw [h]; decide), if_neg hx]

theorem waitEvent_nothing (h : s.alerts[waitSlot p].isOpen = false) : s.waitEvent p 0 y = s := by
  unfold State.waitEvent
  rw [if_neg (by rw [h]; decide), if_pos rfl]

/-- Without a fresh condition the slot's standing set alone is written. -/
theorem waitTaken_old (h : minusBits x s.alerts[waitSlot p].standing = 0) : (s.waitTaken p x y).alerts[waitSlot p] =
    { s.alerts[waitSlot p] with standing := s.standAfter p x y } := by
  unfold State.waitTaken State.repeatWait
  rw [if_pos h, State.updAlert_alerts_self]
  rfl

/-- A fresh condition counts one repeat and flags RAISED (R157). -/
theorem waitTaken_fresh (h : minusBits x s.alerts[waitSlot p].standing ≠ 0) : ∃ ks : KindSet,
    (s.waitTaken p x y).alerts[waitSlot p] = { s.alerts[waitSlot p] with
      standing := s.standAfter p x y, additional := ks, repeats := min (s.alerts[waitSlot p].repeats + 1) 255
      flags := addBit s.alerts[waitSlot p].flags 0, noticeOwed := true } := by
  refine ⟨(AlertSlot.repeatWith (minusBits x s.alerts[waitSlot p].standing)
    (AlertSlot.stand x y s.alerts[waitSlot p])).additional, ?_⟩
  unfold State.waitTaken State.repeatWait
  rw [if_neg h, flagAlert_alerts_self, State.updAlert_alerts_self, State.updAlert_alerts_self]
  rfl

theorem waitTaken_standing (s : State) (p : PortId) (x y : KindSet) :
    (s.waitTaken p x y).alerts[waitSlot p].standing = s.standAfter p x y := by
  by_cases h : minusBits x s.alerts[waitSlot p].standing = 0
  · rw [waitTaken_old h]
  · obtain ⟨ks, hslot⟩ := waitTaken_fresh (y := y) h
    rw [hslot]

theorem waitTaken_openAlerts (s : State) (p : PortId) (x y : KindSet) :
    (s.waitTaken p x y).openAlerts = s.openAlerts :=
  (State.repeatWait_keeps _ _ _).part .openAlerts

theorem repeatWait_alerts_ne (h : b ≠ a) : (s.repeatWait a x).alerts[b] = s.alerts[b] := by
  unfold State.repeatWait
  split
  · rfl
  · rw [State.flagAlert_alerts_ne _ _ _ _ h, State.updAlert_alerts_ne _ _ _ _ h]

theorem waitEvent_alerts_ne (h : b ≠ waitSlot p) : (s.waitEvent p x y).alerts[b] = s.alerts[b] := by
  unfold State.waitEvent
  split
  · unfold State.closeIfClear
    split
    · rw [closeSlot_alerts_ne h, repeatWait_alerts_ne h, State.updAlert_alerts_ne _ _ _ _ h]
    · rw [repeatWait_alerts_ne h, State.updAlert_alerts_ne _ _ _ _ h]
  · split
    · rfl
    · exact openSlot_alerts_ne h

/-- An open wait slot with conditions left stands as it took the event. -/
theorem waitEvent_stays (h : s.alerts[waitSlot p].isOpen = true) (hs : s.standAfter p x y ≠ 0) :
    s.waitEvent p x y = s.waitTaken p x y := by
  rw [waitEvent_open h, State.closeIfClear, if_neg]
  rwa [waitTaken_standing]

/-- An open wait slot without conditions left closes (R158). -/
theorem waitEvent_closes (h : s.alerts[waitSlot p].isOpen = true) (hs : s.standAfter p x y = 0) :
    s.waitEvent p x y = (s.waitTaken p x y).closeSlot (waitSlot p) := by
  rw [waitEvent_open h, State.closeIfClear, if_pos]
  rwa [waitTaken_standing]

/-- The wait event leaves the service state: a stop alert and the port's own fields make that (R90). -/
theorem waitEvent_service (s : State) (p : PortId) (x y : KindSet) : (s.waitEvent p x y).service p = s.service p := by
  have hports := (State.waitEvent_keeps s p x y).part .ports
  change (s.waitEvent p x y).ports = s.ports at hports
  unfold State.service
  rw [waitEvent_alerts_ne (stopSlot_ne_waitSlot p p), hports]

/-- A withdrawn SETUP_STALL leaves the wait slot as R158 says. -/
theorem withdrawStall_withdrawn (s : State) (p : PortId) : StallWithdrawn s (s.withdrawStall p) p := by
  have hstall : ∀ i : Nat, hasBit stallKind i = decide (i = 6) := fun i => by
    unfold stallKind
    rw [hasBit_addBit, hasBit_zero, Bool.false_or, AlertKind.bit]
    by_cases hi : i = 6
    · subst hi; rfl
    · rw [decide_eq_false hi, decide_eq_false (p := 6 = i) fun hc => hi hc.symm, Bool.and_false]
  have hafter : ∀ i : Nat, hasBit (s.standAfter p 0 stallKind) i =
      (hasBit s.alerts[waitSlot p].standing i && i != 6) := fun i => by
    unfold State.standAfter
    rw [or_zero_bits, hasBit_minusBits, hstall]
    rfl
  have hold : minusBits 0 s.alerts[waitSlot p].standing = 0 := zero_minusBits _
  refine ⟨fun b hb => waitEvent_alerts_ne hb, fun hc => ?_, fun ho => ?_⟩
  · unfold State.withdrawStall
    rw [waitEvent_nothing hc]
    exact ⟨rfl, rfl⟩
  · have hcases : ∀ hs : s.standAfter p 0 stallKind ≠ 0, s.withdrawStall p = s.waitTaken p 0 stallKind :=
      fun hs => waitEvent_stays ho hs
    by_cases hs : s.standAfter p 0 stallKind = 0
    · have hclose : s.withdrawStall p = (s.waitTaken p 0 stallKind).closeSlot (waitSlot p) := waitEvent_closes ho hs
      have hgone : ∀ i, (hasBit s.alerts[waitSlot p].standing i && i != 6) = false := fun i => by
        rw [← hafter, hs, hasBit_zero]
      rw [hclose, closeSlot_alerts_self, closeSlot_openAlerts, waitTaken_old hold, waitTaken_openAlerts]
      refine ⟨fun i => hafter i, fun ⟨i, hi, hbit⟩ => ?_, fun _ => ⟨?_, rfl⟩⟩
      · exact absurd (hgone i) (by rw [hbit, Bool.true_and, Bool.not_eq_false]; exact bne_iff_ne.2 hi)
      · rw [hs]
    · rw [hcases hs, waitTaken_old hold, waitTaken_openAlerts]
      refine ⟨fun i => hafter i, fun _ => ⟨rfl, rfl⟩, fun hnone => absurd ((eq_zero_iff_hasBit _).2 fun i => ?_) hs⟩
      rw [hafter]
      by_cases hi : i = 6
      · simp [hi]
      · rw [hnone i hi, Bool.false_and]

-- ## The sides of a stop alert

theorem dropExclusions_jobs (s : State) (p : PortId) (j : SlotId) : (s.dropExclusions p).jobs[j] =
    if s.jobs[j].exclusion.map (fun x => x.port) = some p then { s.jobs[j] with exclusion := none } else s.jobs[j] := by
  by_cases hany : (List.finRange 256).any (fun j => s.jobs[j].exclusion.map (·.port) == some p) = true
  · have hdrop : s.dropExclusions p =
      ({ s with jobs := mapTable (Job.dropExclusion p) s.jobs } : State).ask := if_pos hany
    rw [hdrop, State.ask_jobs]
    exact mapTable_getElem _ _ _ _
  · have hdrop : s.dropExclusions p = s := if_neg hany
    rw [hdrop, if_neg]
    simp only [List.any_eq_true, List.mem_finRange, true_and, beq_iff_eq, not_exists] at hany
    exact hany j

theorem dropExclusions_asks (h : ∃ j : SlotId, s.jobs[j].exclusion.map (fun x => x.port) = some p) :
    (s.dropExclusions p).passInProgress = true := by
  unfold State.dropExclusions
  rw [if_pos]
  · exact ask_passInProgress _
  · obtain ⟨j, hj⟩ := h
    exact List.any_eq_true.2 ⟨j, List.mem_finRange j, beq_iff_eq.2 hj⟩

/-- The attendant side of a stop alert is given, with the host side as it stands (R153, R154, R156). -/
theorem confirmAttendant_sides (s : State) (p : PortId) :
    SidesGiven s (s.confirmAttendant p) p true s.alerts[stopSlot p].hostReleased := by
  have hself := s.updAlert_alerts_self (stopSlot p) (fun x => { x with attendant := true })
  rcases hh : s.alerts[stopSlot p].hostReleased with _ | _
  · have hgiven : s.confirmAttendant p = s.updAlert (stopSlot p) (fun x => { x with attendant := true }) := by
      unfold State.confirmAttendant
      rw [if_neg (by rw [hh]; decide)]
    rw [hgiven]
    refine ⟨fun b hb => State.updAlert_alerts_ne _ _ _ _ hb, fun _ => ⟨hself.trans ?_, rfl, rfl⟩,
      fun hc => absurd hc (by decide)⟩
    rw [← hh]
  · have hclosed : s.confirmAttendant p =
        (s.updAlert (stopSlot p) (fun x => { x with attendant := true })).closeStop p := by
      unfold State.confirmAttendant
      rw [if_pos hh]
    have halerts : (s.confirmAttendant p).alerts =
        ((s.updAlert (stopSlot p) (fun x => { x with attendant := true })).closeSlot (stopSlot p)).alerts := by
      rw [hclosed]
      exact ((State.askIfClaimable_keeps _ p).part .alerts).trans ((State.dropExclusions_keeps _ p).part .alerts)
    refine ⟨fun b hb => ?_, fun hc => absurd hc (by decide),
      fun _ => ⟨?_, fun ho => ?_, ?_, fun j => ?_, fun hex => ?_⟩⟩
    · rw [halerts, closeSlot_alerts_ne hb, State.updAlert_alerts_ne _ _ _ _ hb]
    · rw [halerts, closeSlot_alerts_self, hself, ← hh]
    · rw [hclosed]
      have hnotices := closeSlot_notices (a := stopSlot p)
        (s := s.updAlert (stopSlot p) (fun x => { x with attendant := true })) (by rw [hself]; exact ho)
      unfold State.closeStop
      rw [State.askIfClaimable_notices, (State.dropExclusions_keeps _ p).part .notices]
      exact hnotices
    · rw [hclosed]
      unfold State.closeStop
      rw [State.askIfClaimable_openAlerts, (State.dropExclusions_keeps _ p).part .openAlerts, closeSlot_openAlerts]
      rfl
    · rw [hclosed]
      unfold State.closeStop
      rw [State.askIfClaimable_jobs, dropExclusions_jobs, (State.closeSlot_keeps _ _).part .jobs]
      rfl
    · rw [hclosed]
      refine askIfClaimable_passInProgress _ p (dropExclusions_asks ?_)
      rw [(State.closeSlot_keeps _ _).part .jobs]
      exact hex

/-- What comes after the sides are given, and leaves alerts and jobs, leaves their account. -/
theorem sidesGiven_stands {d h : Bool} (hs : SidesGiven s t p d h) (ha : u.alerts = t.alerts)
    (ho : u.openAlerts = t.openAlerts) (hj : u.jobs = t.jobs) (hn : NoticesStay t u)
    (hp : t.passInProgress = true → u.passInProgress = true) : SidesGiven s u p d h := by
  obtain ⟨hothers, hone, hboth⟩ := hs
  refine ⟨fun b hb => by rw [ha]; exact hothers b hb, fun hc => ?_, fun hc => ?_⟩
  · rw [ha, ho, hj]
    exact hone hc
  · obtain ⟨hslot, hnotice, hlist, hjobs, hpass⟩ := hboth hc
    rw [ha, ho, hj]
    exact ⟨hslot, fun hx => hn _ (hnotice hx), hlist, hjobs, fun hx => hp (hpass hx)⟩

/-- What comes before, and leaves alerts, jobs and the open-alert list, leaves the account too. -/
theorem sidesGiven_reads {d h : Bool} (hs : SidesGiven s t p d h) (ha : s'.alerts = s.alerts)
    (ho : s'.openAlerts = s.openAlerts) (hj : s'.jobs = s.jobs) : SidesGiven s' t p d h := by
  unfold SidesGiven OtherAlertsSame at hs ⊢
  rw [ha, ho]
  obtain ⟨hothers, hone, hboth⟩ := hs
  refine ⟨hothers, fun hc => ?_, fun hc => ?_⟩
  · obtain ⟨h1, h2, h3⟩ := hone hc
    exact ⟨h1, h2, h3.trans hj.symm⟩
  · obtain ⟨h1, h2, h3, h4, h5⟩ := hboth hc
    refine ⟨h1, h2, h3, fun j => ?_, fun ⟨j, hex⟩ => h5 ⟨j, ?_⟩⟩
    · rw [hj]
      exact h4 j
    · rwa [hj] at hex

end Sys2Proof.Machine
end

