-- ==== Sys2Proof/Proofs/PrinterIdent.lean ====
section
/-! SUPPORT. An IDENT in PROBING or RATING (R84 to R89, R154). -/

set_option Elab.async false

namespace Sys2Proof.Machine

open Sys2Proof.Safety

variable {s t u : State} {p q : PortId} {i : Ident} {m : Media} {c : Bool} {cc caps ms ld w : Byte}

-- ## The message

theorem exec_ident (hm : mediaOf ld = some m) : exec (.ident p cc caps ms ld w) s =
    .next (s.pressMessage p (zeroFrom 4 caps) takenIdent
      (State.identTaken p (identOf cc caps ms w) m (caps.getLsbD 3))) := by
  change Host.Outcome.next (match mediaOf ld with
    | none => s.pressMessage p false takenIdent id
    | some m => s.pressMessage p (zeroFrom 4 caps) takenIdent
        (State.identTaken p (identOf cc caps ms w) m (caps.getLsbD 3))) = _
  rw [hm]

theorem exec_ident_none (hm : mediaOf ld = none) :
    exec (.ident p cc caps ms ld w) s = .next (s.pressMessage p false takenIdent id) := by
  change Host.Outcome.next (match mediaOf ld with
    | none => s.pressMessage p false takenIdent id
    | some m => s.pressMessage p (zeroFrom 4 caps) takenIdent
        (State.identTaken p (identOf cc caps ms w) m (caps.getLsbD 3))) = _
  rw [hm]

theorem exec_ident_down (h : s.ports[p].link = .down) : exec (.ident p cc caps ms ld w) s = .next s := by
  rcases hm : mediaOf ld with _ | m
  · rw [exec_ident_none hm, pressMessage_down h]
  · rw [exec_ident hm, pressMessage_down h]

/-- A field outside its values: the frame is heard and discarded (R84, R183). -/
theorem exec_ident_bad (hl : s.ports[p].link ≠ .down) (h : 16 ≤ caps.toNat ∨ 8 ≤ ld.toNat) :
    exec (.ident p cc caps ms ld w) s = .next (heardOnly s p) := by
  rcases hm : mediaOf ld with _ | m
  · rw [exec_ident_none hm, pressMessage_heard hl (.inl rfl)]
  · have hld : ¬8 ≤ ld.toNat := fun hc => by rw [mediaOf_none hc] at hm; cases hm
    have hcaps : zeroFrom 4 caps = false := by
      rw [Bool.eq_false_iff]
      intro hz
      rw [zeroFrom_iff] at hz
      have := h.resolve_right hld
      omega
    rw [exec_ident hm, pressMessage_heard hl (.inl hcaps)]

theorem exec_ident_good (hl : s.ports[p].link = .probing ∨ s.ports[p].link = .rating) (hcaps : caps.toNat < 16)
    (hm : ld.toNat = m.val) : exec (.ident p cc caps ms ld w) s =
      .next (((s.hear p).bringUp p (identOf cc caps ms w) m (caps.getLsbD 3)).holdTest p) := by
  have hnot : s.ports[p].link ≠ .down := by rcases hl with hl | hl <;> rw [hl] <;> decide
  have hlink : (s.hear p).ports[p].link = s.ports[p].link := by rw [hear_ports_self]; rfl
  have hup : ¬(s.hear p).ports[p].link = .up := by rw [hlink]; rcases hl with hl | hl <;> rw [hl] <;> decide
  rw [exec_ident (mediaOf_eq hm), pressMessage_taken hnot ((zeroFrom_iff 4 caps).2 hcaps) (taken := takenIdent)
    (bne_iff_ne.2 hnot)]
  unfold State.identTaken
  rw [if_neg hup]

-- ## Bring-up

/-- The state in which the Ident and the path-clear value have been taken (R85, R154). -/
def State.identKnown (s : State) (p : PortId) (i : Ident) (m : Media) (c : Bool) : State :=
  if c && s.alerts[stopSlot p].isOpen then
    (s.updPort p (fun x => { x with ident := some i, loaded := m, rateWindow := none })).confirmAttendant p
  else s.updPort p (fun x => { x with ident := some i, loaded := m, rateWindow := none })

theorem bringUp_fast (h : i.fastCapable = true) : s.bringUp p i m c = ((s.identKnown p i m c).updPort p (fun x =>
    { x with link := .rating, lastHeard := s.clock, rateWindow := some 0 })).press p .rateOffer :=
  if_pos h

theorem bringUp_base (h : i.fastCapable = false) :
    s.bringUp p i m c = (s.identKnown p i m c).comeUp p .base (min i.depth 2) := if_neg (by rw [h]; decide)

theorem identKnown_ports (s : State) (p : PortId) (i : Ident) (m : Media) (c : Bool) : (s.identKnown p i m c).ports =
    (s.updPort p (fun x => { x with ident := some i, loaded := m, rateWindow := none })).ports := by
  unfold State.identKnown
  split
  · exact (State.confirmAttendant_keeps _ p).part .ports
  · rfl

theorem identKnown_ports_self (s : State) (p : PortId) (i : Ident) (m : Media) (c : Bool) :
    (s.identKnown p i m c).ports[p] = { s.ports[p] with ident := some i, loaded := m, rateWindow := none } := by
  rw [identKnown_ports, State.updPort_ports_self]

theorem identKnown_ports_ne (h : q ≠ p) : (s.identKnown p i m c).ports[q] = s.ports[q] := by
  rw [identKnown_ports, State.updPort_ports_ne _ _ _ _ h]

theorem identKnown_keeps (s : State) (p : PortId) (i : Ident) (m : Media) (c : Bool) : KeepsAllBut
    [.jobs, .ports, .alerts, .openAlerts, .notices, .passInProgress, .passOwed] s (s.identKnown p i m c) := by
  unfold State.identKnown
  exact .ite ((State.updPort_keeps s p _).trans (State.confirmAttendant_keeps _ p)).mono
    (State.updPort_keeps s p _).mono

/-- Without a path to confirm only the port is written. -/
theorem identKnown_plain (h : c = false ∨ s.alerts[stopSlot p].isOpen = false) :
    KeepsAllBut [.ports] s (s.identKnown p i m c) := by
  unfold State.identKnown
  rw [if_neg (by rcases h with h | h <;> simp only [Bool.and_eq_true] <;> rw [h] <;> simp)]
  exact State.updPort_keeps s p _

/-- A clear path gives the attendant side of an open stop alert (R154). -/
theorem identKnown_sides (hc : c = true) (ho : s.alerts[stopSlot p].isOpen = true) :
    SidesGiven s (s.identKnown p i m c) p true s.alerts[stopSlot p].hostReleased := by
  unfold State.identKnown
  rw [if_pos (by rw [hc]; exact ho)]
  exact sidesGiven_reads (confirmAttendant_sides
    (s.updPort p (fun x => { x with ident := some i, loaded := m, rateWindow := none })) p) rfl rfl rfl

/-- The FAST-capable printer's port goes to RATING (R85). -/
theorem bringUp_fast_port (h : i.fastCapable = true) : (s.bringUp p i m c).ports[p] = { s.ports[p] with
    ident := some i, loaded := m, link := .rating, lastHeard := s.clock, rateWindow := some 0 } := by
  rw [bringUp_fast h, updPort_press_self, identKnown_ports_self]

/-- Any other printer's port comes UP at BASE (R85, R87). -/
theorem bringUp_base_port (h : i.fastCapable = false) : (s.bringUp p i m c).ports[p] = { s.ports[p] with
    ident := some i, loaded := m, link := .up, downCause := none, rate := .base, depth := min i.depth 2
    lastHeard := s.clock, rateWindow := none, flags := addBit s.ports[p].flags 0, noticeOwed := true } := by
  have hclock : (s.identKnown p i m c).clock = s.clock := (identKnown_keeps s p i m c).part .clock
  rw [bringUp_base h, comeUp_ports_self, identKnown_ports_self, hclock]

theorem bringUp_ports_ne (h : q ≠ p) : (s.bringUp p i m c).ports[q] = s.ports[q] := by
  rcases hf : i.fastCapable with _ | _
  · rw [bringUp_base hf, comeUp_ports_ne _ _ h, identKnown_ports_ne h]
  · rw [bringUp_fast hf]
    exact (updPort_press_ne h _ _).trans (identKnown_ports_ne h)

/-- What bring-up does behind the taking of the Ident. -/
theorem bringUp_keeps_known (s : State) (p : PortId) (i : Ident) (m : Media) (c : Bool) :
    KeepsAllBut [.ports, .pressLog, .notices, .passInProgress, .passOwed] (s.identKnown p i m c)
      (s.bringUp p i m c) := by
  rcases hf : i.fastCapable with _ | _
  · rw [bringUp_base hf]
    exact (State.comeUp_keeps _ p _ _).mono
  · rw [bringUp_fast hf]
    exact ((State.updPort_keeps _ p _).trans (State.press_keeps _ p _)).mono

theorem flagPort_noticesStay (s : State) (p : PortId) (f : PortFlag) : NoticesStay s (s.flagPort p f) := fun x hx => by
  rw [State.flagPort_notices]
  exact List.mem_append_left _ hx

theorem bringUp_noticesStay (s : State) (p : PortId) (i : Ident) (m : Media) (c : Bool) :
    NoticesStay (s.identKnown p i m c) (s.bringUp p i m c) := by
  rcases hf : i.fastCapable with _ | _
  · rw [bringUp_base hf]
    intro x hx
    unfold State.comeUp
    rw [State.askIfClaimable_notices]
    exact flagPort_noticesStay _ p .attached x hx
  · rw [bringUp_fast hf]
    exact .refl _

theorem bringUp_passStays (s : State) (p : PortId) (i : Ident) (m : Media) (c : Bool)
    (h : (s.identKnown p i m c).passInProgress = true) : (s.bringUp p i m c).passInProgress = true := by
  rcases hf : i.fastCapable with _ | _
  · rw [bringUp_base hf]
    unfold State.comeUp
    refine askIfClaimable_passInProgress _ p ?_
    rw [State.flagPort_passInProgress]
    exact h
  · rw [bringUp_fast hf]
    exact h

/-- A link that is not UP goes DOWN without a flag (R89). -/
theorem goDown_ports_quiet (hl : s.ports[p].link ≠ .up) (d : DownCause) : (s.goDown p d).ports[p] = { s.ports[p] with
    link := .down, downCause := some d, rateWindow := none, sending := none } := by
  unfold State.goDown
  dsimp only
  rw [if_neg hl, State.updPort_ports_self]

/-- The press log holds a RATE_OFFER for a FAST-capable printer (R85, R86). -/
theorem bringUp_pressLog (s : State) (p : PortId) (i : Ident) (m : Media) (c : Bool) : (s.bringUp p i m c).pressLog =
    s.pressLog ++ (if i.fastCapable then [(p, .rateOffer)] else []) := by
  have hknown : (s.identKnown p i m c).pressLog = s.pressLog := (identKnown_keeps s p i m c).part .pressLog
  rcases hf : i.fastCapable with _ | _
  · rw [bringUp_base hf, if_neg (by decide), List.append_nil, ← hknown]
    exact (State.comeUp_keeps _ p _ _).part .pressLog
  · rw [bringUp_fast hf, if_pos rfl, ← hknown]
    rfl

/-- The port that is up and READY has asked for a pass (R74, R87). -/
theorem bringUp_asks (h : i.fastCapable = false) (hs : (s.bringUp p i m c).service p = .ready) :
    (s.bringUp p i m c).passInProgress = true := by
  rw [bringUp_base h] at hs ⊢
  exact ((comeUp_asked _ p _ _).1 hs).1

-- ## The statement's clauses

/-- What a good IDENT leaves of the ports, the alerts and the jobs (R154). -/
theorem identified_frame (s : State) (p : PortId) (i : Ident) (m : Media) (c : Bool) {v : State}
    (hv : v = ((s.hear p).bringUp p i m c).holdTest p) : OtherPortsSame p s v ∧
    v.pressLog = s.pressLog ++ (if i.fastCapable then [(p, .rateOffer)] else []) ∧
    (c = true → s.alerts[stopSlot p].isOpen = true → SidesGiven s v p true s.alerts[stopSlot p].hostReleased) ∧
    (c = false ∨ s.alerts[stopSlot p].isOpen = false →
      KeepsAllBut [.ports, .pressLog, .notices, .passInProgress, .passOwed] s v) ∧
    KeepsAllBut [.jobs, .ports, .alerts, .openAlerts, .pressLog, .notices, .passInProgress, .passOwed] s v := by
  subst hv
  have hhear := State.hear_keeps s p
  have hknown := bringUp_keeps_known (s.hear p) p i m c
  have hheld := State.holdTest_keeps ((s.hear p).bringUp p i m c) p
  have hbehind := (hknown.trans hheld).mono (b := [.ports, .pressLog, .notices, .passInProgress, .passOwed])
  refine ⟨fun q hq => ?_, ?_, fun hc ho => ?_, fun h => ?_, ?_⟩
  · rw [State.holdTest_ports_ne _ _ _ hq, bringUp_ports_ne hq, hear_ports_ne hq]
  · exact (hheld.part .pressLog).trans (bringUp_pressLog (s.hear p) p i m c)
  · have hsides := identKnown_sides (s := s.hear p) (p := p) (i := i) (m := m) hc ho
    refine sidesGiven_stands (sidesGiven_reads hsides rfl rfl rfl) (hbehind.part .alerts) (hbehind.part .openAlerts)
      (hbehind.part .jobs) ((bringUp_noticesStay _ p i m c).trans (holdTest_noticesStay _ p)) fun hpass => ?_
    exact (hheld.part .passInProgress).trans (bringUp_passStays _ p i m c hpass)
  · exact ((hhear.trans (identKnown_plain (s := s.hear p) (i := i) (m := m) h)).trans hbehind).mono
  · exact ((hhear.trans (identKnown_keeps (s.hear p) p i m c)).trans hbehind).mono

/-- The port behind a good IDENT, before the hold test. -/
theorem bringUp_heard_port (s : State) (p : PortId) (i : Ident) (m : Media) (c : Bool) :
    (i.fastCapable = true → ((s.hear p).bringUp p i m c).ports[p] = { s.ports[p] with
      ident := some i, loaded := m, link := .rating, lastHeard := s.clock, rateWindow := some 0, receiver := .hunt }) ∧
    (i.fastCapable = false → ((s.hear p).bringUp p i m c).ports[p] = { s.ports[p] with
      ident := some i, loaded := m, link := .up, downCause := none, rate := .base, depth := min i.depth 2
      lastHeard := s.clock, rateWindow := none, flags := addBit s.ports[p].flags 0, noticeOwed := true
      receiver := .hunt }) := by
  refine ⟨fun h => ?_, fun h => ?_⟩
  · rw [bringUp_fast_port h, hear_ports_self]
    rfl
  · rw [bringUp_base_port h, hear_ports_self]
    rfl

/-- The four conditions of a held-down port, read off the port before the IDENT (R89). -/
theorem bringUp_holdsDown (s : State) (p : PortId) (i : Ident) (m : Media) (c : Bool) :
    ((s.hear p).bringUp p i m c).ports[p].holdsDown = (s.ports[p].holdAsked && !s.ports[p].inService &&
      s.ports[p].feedOwner.isNone && s.ports[p].setup.isNone && s.ports[p].window.isEmpty) := by
  obtain ⟨hfast, hbase⟩ := bringUp_heard_port s p i m c
  rcases hf : i.fastCapable with _ | _
  · rw [hbase hf]
    exact Bool.and_true _
  · rw [hfast hf]
    exact Bool.and_true _

/-- The declared depth W, clamped to 1 to 8 (R85). -/
theorem identOf_eq {depth : Nat} (h : depth = (if w.toNat = 0 then 1 else if 8 < w.toNat then 8 else w.toNat)) :
    identOf cc caps ms w = { classCode := cc, colour := hasBit caps 0, duplex := hasBit caps 1, media := ms
                             depth := depth, fastCapable := hasBit caps 2 } := by
  have hclamp : max 1 (min w.toNat 8) = depth := by
    rw [h]
    split
    · omega
    · split <;> omega
  rw [identOf, hclamp]
  rfl

/-- Settles O35: bring-up behind the IDENT, with the attendant side given before it and the hold test after it. -/
theorem identBringsALinkUp : Obligations.IdentBringsALinkUp := by
  intro s p cc caps ms ld w
  refine ⟨exec_ident_down, exec_ident_bad, fun m depth held hl hcaps hm hdepth hheld => ?_⟩
  have hident := identOf_eq (cc := cc) (caps := caps) (ms := ms) hdepth
  obtain ⟨hothers, hlog, hsides, hplain, hkeeps⟩ :=
    identified_frame s p (identOf cc caps ms w) m (caps.getLsbD 3) rfl
  obtain ⟨hfast, hbase⟩ := bringUp_heard_port s p (identOf cc caps ms w) m (caps.getLsbD 3)
  have hdown := bringUp_holdsDown s p (identOf cc caps ms w) m (caps.getLsbD 3)
  rw [← hheld] at hdown
  have hasks := bringUp_asks (s := s.hear p) (p := p) (i := identOf cc caps ms w) (m := m) (c := caps.getLsbD 3)
  refine ⟨_, exec_ident_good hl hcaps hm, ?_⟩
  generalize ((s.hear p).bringUp p (identOf cc caps ms w) m (caps.getLsbD 3)) = v at *
  rw [hident] at hfast hbase hlog hasks
  dsimp only at hfast hbase hlog hasks
  rcases held with _ | _
  · rw [holdTest_stays hdown] at hothers hlog hsides hplain hkeeps ⊢
    rcases hc : hasBit caps 2 with _ | _
    · rw [hc, if_neg (by decide), List.append_nil] at hlog
      rw [hbase hc]
      exact ⟨hc ▸ rfl, rfl, rfl, rfl, rfl, rfl, rfl, rfl, hothers, fun h => absurd h (by decide),
        fun _ => ⟨rfl, rfl, by simp, rfl, hlog, fun _ => ⟨rfl, hasks hc⟩, fun h => absurd h (by decide)⟩,
        fun h => absurd h (by decide), hsides, hplain, hkeeps⟩
    · rw [hc, if_pos rfl] at hlog
      rw [hfast hc]
      exact ⟨hc ▸ rfl, rfl, rfl, rfl, rfl, rfl, rfl, rfl, hothers, fun _ => ⟨rfl, hlog, fun _ => ⟨rfl, rfl⟩⟩,
        fun h => absurd h (by decide), fun h => absurd h (by decide), hsides, hplain, hkeeps⟩
  · have hheldDown : v.holdTest p = v.goDown p .hold := if_pos hdown
    rw [hheldDown] at hothers hlog hsides hplain hkeeps ⊢
    rcases hc : hasBit caps 2 with _ | _
    · rw [hc, if_neg (by decide), List.append_nil] at hlog
      rw [goDown_ports_up (by rw [hbase hc]), hbase hc]
      exact ⟨hc ▸ rfl, rfl, rfl, rfl, rfl, rfl, rfl, rfl, hothers, fun h => absurd h (by decide),
        fun _ => ⟨rfl, rfl, by simp, rfl, hlog, fun h => absurd h (by decide), fun _ => by simp [PortFlag.bit]⟩,
        fun _ => ⟨rfl, rfl⟩, hsides, hplain, hkeeps⟩
    · rw [hc, if_pos rfl] at hlog
      rw [goDown_ports_quiet (by rw [hfast hc]; exact nofun), hfast hc]
      exact ⟨hc ▸ rfl, rfl, rfl, rfl, rfl, rfl, rfl, rfl, hothers,
        fun _ => ⟨rfl, hlog, fun h => absurd h (by decide)⟩, fun h => absurd h (by decide), fun _ => ⟨rfl, rfl⟩,
        hsides, hplain, hkeeps⟩

end Sys2Proof.Machine
end

