-- ==== Sys2Proof/Proofs/StatusEvents.lean ====
section
/-! SUPPORT. A STATUS with another reason set (R99, R157, R158). -/

set_option Elab.async false

namespace Sys2Proof.Machine

open Sys2Proof.Safety

variable {s t u : State} {p q : PortId} {j : SlotId} {r : ReasonSet} {b : Byte}

-- ## Reasons and wait kinds

theorem reasonKinds_eq_zero (r : ReasonSet) : reasonKinds r = 0 ↔ r = 0 := by
  revert r
  decide

theorem firstWaitKind_reasons (r : ReasonSet) (h : r ≠ 0) : firstWaitKind (reasonKinds r) =
    if hasBit r 0 then .mediaOut else if hasBit r 1 then .coverOpen else .supplyOut := by
  revert r
  decide

theorem AlertKind.bit_lt (k : AlertKind) : k.bit < 7 := by
  cases k <;> decide

theorem AlertKind.bit_inj {k l : AlertKind} (h : k.bit = l.bit) : k = l := by
  cases k <;> cases l <;> first | rfl | exact absurd h (by decide)

/-- The additional kinds of a wait alert that opens are the others (R157). -/
theorem additional_of_open (x : KindSet) (k l : AlertKind) :
    hasBit (dropBit x k.bit) l.bit = (hasBit x l.bit && some k != some l) := by
  rw [hasBit_dropBit]
  by_cases h : k = l
  · subst h
    simp
  · rw [decide_eq_false fun hb => h (AlertKind.bit_inj hb), bne_iff_ne.2 fun hc => h (Option.some.inj hc),
    Bool.not_false]

-- ## The wait slot's event

/-- What is new among the standing conditions after an event is what it adds and did not stand (R157). -/
theorem standAfter_fresh (s : State) (p : PortId) (x y : KindSet) :
    minusBits (s.standAfter p x y) s.alerts[waitSlot p].standing = minusBits x s.alerts[waitSlot p].standing :=
  bitVec_ext fun i => by
    unfold State.standAfter
    rw [hasBit_minusBits, hasBit_or, hasBit_minusBits, hasBit_minusBits]
    cases hasBit s.alerts[waitSlot p].standing i <;> simp

theorem waitTaken_primary (s : State) (p : PortId) (x y : KindSet) :
    (s.waitTaken p x y).alerts[waitSlot p].primary = s.alerts[waitSlot p].primary ∧
      (s.waitTaken p x y).alerts[waitSlot p].level = s.alerts[waitSlot p].level ∧
      (s.waitTaken p x y).alerts[waitSlot p].isOpen = s.alerts[waitSlot p].isOpen := by
  by_cases h : minusBits x s.alerts[waitSlot p].standing = 0
  · rw [waitTaken_old h]
    exact ⟨rfl, rfl, rfl⟩
  · obtain ⟨ks, hslot⟩ := waitTaken_fresh (y := y) h
    rw [hslot]
    exact ⟨rfl, rfl, rfl⟩

/-- An open wait slot behind an event (R157, R158). -/
theorem waitEvent_of_open (h : s.alerts[waitSlot p].isOpen = true) {x y : KindSet} {stand : KindSet}
    (hstand : stand = s.standAfter p x y) (ht : t.alerts = (s.waitEvent p x y).alerts)
    (hl : t.openAlerts = (s.waitEvent p x y).openAlerts) :
    t.alerts[waitSlot p].standing = stand ∧ t.alerts[waitSlot p].primary = s.alerts[waitSlot p].primary ∧
      t.alerts[waitSlot p].level = s.alerts[waitSlot p].level ∧
      (minusBits stand s.alerts[waitSlot p].standing ≠ 0 →
        t.alerts[waitSlot p].repeats = min (s.alerts[waitSlot p].repeats + 1) 255 ∧
          hasBit t.alerts[waitSlot p].flags 0 = true) ∧
      (minusBits stand s.alerts[waitSlot p].standing = 0 →
        t.alerts[waitSlot p].repeats = s.alerts[waitSlot p].repeats ∧
          t.alerts[waitSlot p].additional = s.alerts[waitSlot p].additional) ∧
      (stand ≠ 0 → t.alerts[waitSlot p].isOpen = true ∧ t.openAlerts = s.openAlerts) ∧
      (stand = 0 → t.alerts[waitSlot p].isOpen = false ∧ t.alerts[waitSlot p].timer = none ∧
        hasBit t.alerts[waitSlot p].flags 2 = true ∧
        t.openAlerts = s.openAlerts.filter (fun a => a != waitSlot p)) := by
  subst hstand
  rw [ht, hl, standAfter_fresh]
  obtain ⟨hprimary, hlevel, hopen⟩ := waitTaken_primary s p x y
  have hstanding := waitTaken_standing s p x y
  by_cases hs : s.standAfter p x y = 0
  · have hnone : minusBits x s.alerts[waitSlot p].standing = 0 := by rw [← standAfter_fresh, hs, zero_minusBits]
    rw [waitEvent_closes h hs, closeSlot_alerts_self, closeSlot_openAlerts, waitTaken_openAlerts]
    refine ⟨hstanding, hprimary, hlevel, fun hc => absurd hnone hc, fun _ => ?_, fun hc => absurd hs hc,
      fun _ => ⟨rfl, rfl, by simp, rfl⟩⟩
    rw [waitTaken_old hnone]
    exact ⟨rfl, rfl⟩
  · rw [waitEvent_stays h hs, waitTaken_openAlerts]
    refine ⟨hstanding, hprimary, hlevel, fun hf => ?_, fun hf => ?_, fun _ => ⟨hopen.trans h, rfl⟩,
      fun hc => absurd hc hs⟩
    · obtain ⟨ks, hslot⟩ := waitTaken_fresh (y := y) hf
      rw [hslot]
      exact ⟨rfl, by simp⟩
    · rw [waitTaken_old hf]
      exact ⟨rfl, rfl⟩

-- ## The message

/-- The state in which the new reasons are taken and the wait slot has had its event (R99). -/
def State.statusKnown (s : State) (p : PortId) (r : ReasonSet) : State :=
  (s.updPort p (fun x => { x with status := r })).waitEvent p (reasonKinds (minusBits r s.ports[p].status))
    (reasonKinds (minusBits s.ports[p].status r))

theorem statusTaken_same (h : r = s.ports[p].status) : s.statusTaken p r = s := if_pos h

theorem statusTaken_reasons (h : r ≠ s.ports[p].status) (hr : r ≠ 0) : s.statusTaken p r = s.statusKnown p r :=
  (if_neg h).trans (if_neg hr)

/-- A return to ONLINE: the port was not claimable before (R74, R99). -/
theorem statusTaken_online (h : (0 : ReasonSet) ≠ s.ports[p].status) :
    s.statusTaken p 0 = ((s.statusKnown p 0).offerAttempt p).askIfClaimable p := by
  have hnot : ¬s.claimable p = true := by
    rw [claimable_iff]
    rintro ⟨-, hready⟩
    unfold State.service at hready
    rw [if_pos h.symm] at hready
    split at hready <;> cases hready
  exact ((if_neg h).trans (if_pos rfl)).trans (if_neg hnot)

theorem statusKnown_keeps (s : State) (p : PortId) (r : ReasonSet) :
    KeepsAllBut [.ports, .alerts, .openAlerts, .notices] s (s.statusKnown p r) :=
  ((State.updPort_keeps s p _).trans (State.waitEvent_keeps _ p _ _)).mono

theorem statusKnown_ports (s : State) (p : PortId) (r : ReasonSet) :
    (s.statusKnown p r).ports = (s.updPort p (fun x => { x with status := r })).ports :=
  (State.waitEvent_keeps _ p _ _).part .ports

theorem statusKnown_heard (hup : s.ports[p].link = .up) : ((s.hear p).statusKnown p r).ports[p] =
    { s.ports[p] with status := r, lastHeard := s.clock, receiver := .hunt } := by
  rw [statusKnown_ports, State.updPort_ports_self, heard_of_up hup]

-- ## What an attempt leaves of its port

/-- What the printer has reported of itself, and when it was heard last. -/
def Port.reported (x : Port) : ReasonSet × Media × Tick := (x.status, x.loaded, x.lastHeard)

theorem attempted_reported (h : Attempted s t p j) : t.ports[p].reported = s.ports[p].reported := by
  obtain ⟨-, -, hidle, hactive⟩ := h
  by_cases hno : NoAttempt s p j
  · rw [(hidle hno).1]
  · obtain ⟨hstarve, hpage⟩ := hactive hno
    rcases hn : s.jobs[j].nextPage with _ | r
    · rw [(hstarve hn).1]
      rfl
    · obtain ⟨covered, hcovered⟩ : ∃ c : Bool, c = (match s.ports[p].ident with
        | none => false
        | some i => i.covers s.pages[r]) := ⟨_, rfl⟩
      obtain ⟨fits, hfits⟩ : ∃ c : Bool, c = (s.accounts[s.jobs[j].account].unmetered ||
        decide (s.accounts[s.jobs[j].account].reserved + s.pages[r].sides ≤
          s.accounts[s.jobs[j].account].allowance)) := ⟨_, rfl⟩
      have hcases := hpage r covered fits hn hcovered hfits
      repeat' split at hcases
      all_goals exact (congrArg Port.reported hcases.1).trans rfl

theorem offerAttempt_reported (s : State) (p : PortId) :
    (s.offerAttempt p).ports[p].reported = s.ports[p].reported := by
  rcases hf : s.ports[p].feedOwner with _ | j
  · rw [offerAttempt_unowned hf]
  · exact attempted_reported (offerAttempt_attempted hf)

-- ## The statement

theorem hear_updPort_ports (hup : s.ports[p].link = .up) (f : Port → Port) : ((s.hear p).updPort p f).ports =
    s.ports.set p.val (f { s.ports[p] with lastHeard := s.clock, receiver := .hunt }) := by
  have hport := heard_of_up hup
  unfold State.updPort
  rw [hport]
  exact Vector.set_set ..

theorem service_of_ports (ha : t.alerts[stopSlot p] = s.alerts[stopSlot p]) (hp : t.ports = s.ports) :
    t.service p = s.service p := by
  unfold State.service
  rw [ha, hp]

theorem exec_status_bad (hl : s.ports[p].link ≠ .down) (h : 8 ≤ b.toNat) :
    exec (.status p b) s = .next (heardOnly s p) := by
  refine congrArg Host.Outcome.next (pressMessage_heard hl (.inl ?_))
  rw [Bool.eq_false_iff]
  intro hz
  rw [zeroFrom_iff] at hz
  omega

theorem exec_status (hup : s.ports[p].link = .up) (h : b.toNat < 8) :
    exec (.status p b) s = .next ((s.hear p).statusTaken p (b.setWidth 3)) :=
  congrArg Host.Outcome.next (pressMessage_up hup ((zeroFrom_iff 3 b).2 h))

/-- What a STATUS leaves of the ports and the alerts, whether or not an attempt follows. -/
structure StatusFrame (s v t : State) (p : PortId) : Prop where
  alerts : t.alerts = v.alerts
  openAlerts : t.openAlerts = v.openAlerts
  others : OtherPortsSame p s t
  reported : t.ports[p].reported = v.ports[p].reported
  keeps : KeepsAllBut [.jobs, .ports, .accounts, .alerts, .openAlerts, .pressLog, .notices, .passInProgress,
    .passOwed] s t

theorem statusTaken_frame (s : State) (p : PortId) (r : ReasonSet) (h : r ≠ s.ports[p].status) :
    StatusFrame s ((s.hear p).statusKnown p r) ((s.hear p).statusTaken p r) p := by
  have hstatus : r ≠ (s.hear p).ports[p].status := by
    rw [hear_ports_self]
    exact h
  have hknown := (State.hear_keeps s p).trans (statusKnown_keeps (s.hear p) p r)
  have hothers : ∀ q : PortId, q ≠ p → ((s.hear p).statusKnown p r).ports[q] = s.ports[q] := fun q hq => by
    rw [statusKnown_ports, State.updPort_ports_ne _ _ _ _ hq, hear_ports_ne hq]
  by_cases hr : r = 0
  · subst hr
    have htail := (State.offerAttempt_keeps ((s.hear p).statusKnown p 0) p).trans (State.askIfClaimable_keeps _ p)
    rw [statusTaken_online hstatus]
    refine ⟨htail.part .alerts, htail.part .openAlerts, fun q hq => ?_, ?_, (hknown.trans htail).mono⟩
    · rw [State.askIfClaimable_ports, offerAttempt_ports_ne hq, hothers q hq]
    · rw [State.askIfClaimable_ports, offerAttempt_reported]
  · rw [statusTaken_reasons hstatus hr]
    exact ⟨rfl, rfl, hothers, rfl, hknown.mono⟩

/-- A wait slot that a STATUS opens (R157). -/
theorem statusKnown_opens (h : s.alerts[waitSlot p].isOpen = false) (hn : minusBits r s.ports[p].status ≠ 0) :
    (s.statusKnown p r).alerts[waitSlot p] = { s.alerts[waitSlot p] with
      isOpen := true, primary := some (firstWaitKind (reasonKinds (minusBits r s.ports[p].status)))
      additional := dropBit (reasonKinds (minusBits r s.ports[p].status))
        (firstWaitKind (reasonKinds (minusBits r s.ports[p].status))).bit
      standing := reasonKinds (minusBits r s.ports[p].status), location := 0, raised := s.clock, level := 1
      acknowledged := false, attendant := false, hostReleased := false, repeats := 0, affected := []
      timer := some (s.clock + BitVec.ofNat 32 (10 * s.timers.escalation1))
      flags := addBit s.alerts[waitSlot p].flags 0, noticeOwed := true } ∧
    (s.statusKnown p r).openAlerts = s.openAlerts ++ [waitSlot p] := by
  have hopens : s.statusKnown p r = _ :=
    waitEvent_opens (s := s.updPort p (fun x => { x with status := r })) h fun hc => hn ((reasonKinds_eq_zero _).1 hc)
  rw [hopens, openSlot_alerts_self, openSlot_openAlerts]
  exact ⟨rfl, rfl⟩

theorem statusKnown_quiet (h : s.alerts[waitSlot p].isOpen = false) (hn : minusBits r s.ports[p].status = 0) :
    (s.statusKnown p r).alerts = s.alerts ∧ (s.statusKnown p r).openAlerts = s.openAlerts := by
  unfold State.statusKnown
  rw [hn, (reasonKinds_eq_zero 0).2 rfl,
    waitEvent_nothing (s := s.updPort p (fun x => { x with status := r })) h]
  exact ⟨rfl, rfl⟩

theorem statusKnown_alerts_ne {a : AlertId} (h : a ≠ waitSlot p) :
    (s.statusKnown p r).alerts[a] = s.alerts[a] := waitEvent_alerts_ne h

/-- Settles O46: the wait slot's event, and at a return to ONLINE the attempt behind it. -/
theorem statusIsOneEventOfTheWaitSlot : Obligations.StatusIsOneEventOfTheWaitSlot := by
  intro s p b r w hup hw hr
  subst hw
  refine ⟨fun h => ?_, fun hb hne stand hstand => ?_⟩
  · by_cases hb : b.toNat < 8
    · have hsame : r = (s.hear p).ports[p].status := by
        rw [hear_ports_self]
        exact h.resolve_left (by omega)
      rw [exec_status hup hb, ← hr, statusTaken_same hsame, hear_eq_heardOnly]
    · exact exec_status_bad (not_down_of_up hup) (by omega)
  · have hstatus : (s.hear p).ports[p].status = s.ports[p].status := by
      rw [hear_ports_self]
      rfl
    have hneq : r ≠ (s.hear p).ports[p].status := by rwa [hstatus]
    have hframe := statusTaken_frame s p r hne
    have hport := statusKnown_heard (r := r) hup
    refine ⟨_, (exec_status hup hb).trans (by rw [← hr]), ?_, ?_, hframe.others, fun a ha => ?_, fun ho hn => ?_,
      fun ho hn => ?_, fun ho => ?_, fun hr0 => ?_, fun hr0 hf => ?_, fun j hr0 hf => ?_, hframe.keeps⟩
    · exact (congrArg Prod.fst hframe.reported).trans (by rw [hport]; rfl)
    · exact (congrArg (fun x => x.2.2) hframe.reported).trans (by rw [hport])
    · rw [hframe.alerts]
      exact statusKnown_alerts_ne ha
    · obtain ⟨hslot, hlist⟩ := statusKnown_opens (s := s.hear p) (r := r) ho (by rwa [hstatus])
      rw [hstatus] at hslot
      rw [hframe.alerts, hframe.openAlerts, hslot, hlist]
      refine ⟨rfl, rfl, ?_, additional_of_open _ _, rfl, rfl, rfl, rfl, by simp, rfl⟩
      dsimp only
      rw [firstWaitKind_reasons _ hn]
      split
      · rfl
      · split <;> rfl
    · obtain ⟨halerts, hlist⟩ := statusKnown_quiet (s := s.hear p) (r := r) ho (by rwa [hstatus])
      exact ⟨hframe.alerts.trans halerts, hframe.openAlerts.trans hlist⟩
    · refine waitEvent_of_open (s := (s.hear p).updPort p (fun x => { x with status := r })) ho ?_ hframe.alerts
        hframe.openAlerts
      rw [hstand, hstatus]
      rfl
    · have hknown := statusTaken_reasons hneq hr0
      rw [hknown, hport]
      exact ⟨((State.hear_keeps s p).trans (statusKnown_keeps _ p r)).mono, rfl⟩
    · subst hr0
      have hunowned : ((s.hear p).statusKnown p 0).ports[p].feedOwner = none := by
        rw [hport]
        exact hf
      rw [statusTaken_online hneq, offerAttempt_unowned hunowned, State.askIfClaimable_ports, hport,
        askIfClaimable_service]
      refine ⟨rfl, fun hready => ((askIfClaimable_asked _ p).1 ?_).1,
        (((State.hear_keeps s p).trans (statusKnown_keeps _ p 0)).trans (State.askIfClaimable_keeps _ p)).mono⟩
      rw [claimable_iff, hport]
      exact ⟨hup, hready⟩
    · subst hr0
      have howner : ((s.hear p).statusKnown p 0).ports[p].feedOwner = some j := by
        rw [hport]
        exact hf
      rw [statusTaken_online hneq]
      refine attempted_stands (attempted_reads (offerAttempt_attempted howner) ?_)
        (standsAs_of_keeps (State.askIfClaimable_keeps _ p).mono (askIfClaimable_passInProgress _ p))
      have hkeeps := (State.hear_keeps s p).trans (statusKnown_keeps (s.hear p) p 0)
      have hports := (statusKnown_ports (s.hear p) p 0).trans (hear_updPort_ports hup _)
      have halert : ((s.hear p).statusKnown p 0).alerts[stopSlot p] = s.alerts[stopSlot p] :=
        statusKnown_alerts_ne (s := s.hear p) (stopSlot_ne_waitSlot p p)
      exact {
        jobs := (hkeeps.part .jobs).symm, ports := hports.symm, accounts := (hkeeps.part .accounts).symm
        pages := (hkeeps.part .pages).symm, queues := (hkeeps.part .queues).symm
        pressLog := (hkeeps.part .pressLog).symm, clock := (hkeeps.part .clock).symm
        timers := (hkeeps.part .timers).symm
        service := service_of_ports halert.symm hports.symm }

end Sys2Proof.Machine
end

