-- ==== Sys2Proof/Proofs/SetupHold.lean ====
section
/-! SUPPORT. SETUP_DONE and the end of a setup hold (R101, R102, R158). -/

set_option Elab.async false

namespace Sys2Proof.Machine

open Sys2Proof.Safety

variable {s t u : State} {p q : PortId} {j : SlotId} {m awaited : Media} {b : Byte}

-- ## The stall condition

theorem hasBit_stallKind (i : Nat) : hasBit stallKind i = decide (i = 6) := by
  unfold stallKind
  rw [hasBit_addBit, hasBit_zero, Bool.false_or, AlertKind.bit]
  by_cases hi : i = 6
  · subst hi
    rfl
  · rw [decide_eq_false hi, decide_eq_false (p := 6 = i) fun hc => hi hc.symm, Bool.and_false]

theorem stallWithdrawn_stands (h : StallWithdrawn s t p) (ha : u.alerts = t.alerts) (ho : u.openAlerts = t.openAlerts) :
    StallWithdrawn s u p := by
  unfold StallWithdrawn OtherAlertsSame at h ⊢
  rwa [ha, ho]

/-- A SETUP_STALL handed to the wait slot (R101, R157). -/
theorem stall_raised (s : State) (p : PortId) : (s.waitEvent p stallKind 0).alerts[waitSlot p].isOpen = true ∧
    hasBit (s.waitEvent p stallKind 0).alerts[waitSlot p].standing 6 = true ∧
    (s.alerts[waitSlot p].isOpen = true → hasBit s.alerts[waitSlot p].standing 6 = false →
      (s.waitEvent p stallKind 0).alerts[waitSlot p].repeats = min (s.alerts[waitSlot p].repeats + 1) 255) ∧
    (s.alerts[waitSlot p].isOpen = false ∨ hasBit s.alerts[waitSlot p].standing 6 = false →
      hasBit (s.waitEvent p stallKind 0).alerts[waitSlot p].flags 0 = true ∧
        (s.waitEvent p stallKind 0).alerts[waitSlot p].noticeOwed = true) := by
  have hstall : stallKind ≠ 0 := by decide
  rcases ho : s.alerts[waitSlot p].isOpen with _ | _
  · rw [waitEvent_opens ho hstall, openSlot_alerts_self]
    exact ⟨rfl, hasBit_stallKind 6, fun hc => absurd hc (by decide), fun _ => ⟨by simp, rfl⟩⟩
  · have hbit : hasBit (s.standAfter p stallKind 0) 6 = true := by
      unfold State.standAfter
      rw [hasBit_or, hasBit_stallKind, decide_eq_true rfl, Bool.or_true]
    have hleft : s.standAfter p stallKind 0 ≠ 0 := fun hc => by
      rw [hc, hasBit_zero] at hbit
      exact absurd hbit (by decide)
    obtain ⟨-, -, hopen⟩ := waitTaken_primary s p stallKind 0
    rw [waitEvent_stays ho hleft, waitTaken_standing]
    have hfresh : hasBit s.alerts[waitSlot p].standing 6 = false →
        minusBits stallKind s.alerts[waitSlot p].standing ≠ 0 :=
      fun hclear hc => by
        have h6 := (eq_zero_iff_hasBit _).1 hc 6
        rw [hasBit_minusBits, hasBit_stallKind, hclear] at h6
        exact absurd h6 (by decide)
    refine ⟨hopen.trans ho, hbit, fun _ hclear => ?_, fun hclear => ?_⟩
    · obtain ⟨ks, hslot⟩ := waitTaken_fresh (y := 0) (hfresh hclear)
      rw [hslot]
    · obtain ⟨ks, hslot⟩ := waitTaken_fresh (y := 0) (hfresh (hclear.resolve_left (by decide)))
      rw [hslot]
      exact ⟨by simp, rfl⟩

-- ## The end of a setup hold

/-- The port without its setup hold (R83, R88, R102). -/
def Port.setupEnded (x : Port) : Port := { x with setup := none, setupTimer := none, stallReported := false }

theorem endSetup_held (h : s.ports[p].setup ≠ none) : s.endSetup p = (s.updPort p Port.setupEnded).withdrawStall p :=
  if_pos (Option.isSome_iff_ne_none.2 h)

theorem endSetup_unheld (h : s.ports[p].setup = none) : s.endSetup p = s := by
  unfold State.endSetup
  rw [if_neg]
  rw [h]
  decide

theorem endSetup_ports_self (h : s.ports[p].setup ≠ none) : (s.endSetup p).ports[p] = s.ports[p].setupEnded := by
  rw [endSetup_held h]
  have hports := (State.waitEvent_keeps (s.updPort p Port.setupEnded) p 0 stallKind).part .ports
  change ((s.updPort p Port.setupEnded).withdrawStall p).ports = _ at hports
  rw [hports, State.updPort_ports_self]

theorem endSetup_ports (h : s.ports[p].setup ≠ none) : (s.endSetup p).ports = (s.updPort p Port.setupEnded).ports := by
  rw [endSetup_held h]
  exact (State.waitEvent_keeps (s.updPort p Port.setupEnded) p 0 stallKind).part .ports

theorem endSetup_ports_ne (h : q ≠ p) : (s.endSetup p).ports[q] = s.ports[q] := by
  by_cases hs : s.ports[p].setup = none
  · rw [endSetup_unheld hs]
  · rw [endSetup_ports hs, State.updPort_ports_ne _ _ _ _ h]

theorem endSetup_withdrawn (h : s.ports[p].setup ≠ none) : StallWithdrawn s (s.endSetup p) p := by
  rw [endSetup_held h]
  exact withdrawStall_withdrawn (s.updPort p Port.setupEnded) p

theorem endSetup_alerts_ne {a : AlertId} (h : a ≠ waitSlot p) : (s.endSetup p).alerts[a] = s.alerts[a] := by
  unfold State.endSetup
  split
  · exact waitEvent_alerts_ne h
  · rfl

-- ## The message

theorem exec_setupDone_bad (hl : s.ports[p].link ≠ .down) (h : 7 < b.toNat) :
    exec (.setupDone p b) s = .next (heardOnly s p) := by
  have hnone : mediaOf b = none := mediaOf_none h
  change Host.Outcome.next (match mediaOf b with
    | none => s.pressMessage p false takenUp id
    | some m => s.pressMessage p true takenUp (State.setupTaken p m)) = _
  rw [hnone]
  exact congrArg Host.Outcome.next (pressMessage_heard hl (.inl rfl))

theorem exec_setupDone (hup : s.ports[p].link = .up) (h : b.toNat = m.val) :
    exec (.setupDone p b) s = .next ((s.hear p).setupTaken p m) := by
  change Host.Outcome.next (match mediaOf b with
    | none => s.pressMessage p false takenUp id
    | some m => s.pressMessage p true takenUp (State.setupTaken p m)) = _
  rw [mediaOf_eq h]
  exact congrArg Host.Outcome.next (pressMessage_up hup rfl)

/-- The state in which the class loaded is known (R102). -/
def State.classKnown (s : State) (p : PortId) (m : Media) : State :=
  (s.hear p).updPort p (fun x => { x with loaded := m })

theorem classKnown_port (hup : s.ports[p].link = .up) : (s.classKnown p m).ports[p] =
    { s.ports[p] with loaded := m, lastHeard := s.clock, receiver := .hunt } := by
  unfold State.classKnown
  rw [State.updPort_ports_self, heard_of_up hup]

theorem classKnown_ports_ne (h : q ≠ p) : (s.classKnown p m).ports[q] = s.ports[q] := by
  unfold State.classKnown
  rw [State.updPort_ports_ne _ _ _ _ h, hear_ports_ne h]

theorem classKnown_keeps (s : State) (p : PortId) (m : Media) : KeepsAllBut [.ports] s (s.classKnown p m) :=
  (State.hear_keeps s p).next (State.updPort_keeps _ p _)

theorem hear_setup (s : State) (p : PortId) : (s.hear p).ports[p].setup = s.ports[p].setup ∧
    (s.hear p).ports[p].feedOwner = s.ports[p].feedOwner := by
  rw [hear_ports_self]
  exact ⟨rfl, rfl⟩

theorem setupTaken_unheld (h : s.ports[p].setup = none) : (s.hear p).setupTaken p m = s.classKnown p m := by
  unfold State.setupTaken
  dsimp only
  rw [(hear_setup s p).1, h]
  rfl

theorem setupTaken_ends (h : s.ports[p].setup = some awaited) (hends : s.ports[p].feedOwner = none ∨ m = awaited) :
    (s.hear p).setupTaken p m = (s.classKnown p m).setupEnds p := by
  unfold State.setupTaken
  dsimp only
  rw [(hear_setup s p).1, (hear_setup s p).2, h]
  exact if_pos (hends.imp_left Option.isNone_iff_eq_none.2)

theorem setupTaken_wrong (h : s.ports[p].setup = some awaited) (hf : s.ports[p].feedOwner ≠ none) (hm : m ≠ awaited) :
    (s.hear p).setupTaken p m = (s.classKnown p m).wrongMedia p := by
  unfold State.setupTaken
  dsimp only
  rw [(hear_setup s p).1, (hear_setup s p).2, h]
  exact if_neg fun hc => hc.elim (fun hn => hf (Option.isNone_iff_eq_none.1 hn)) hm

/-- A port with a setup hold is not READY, so that what it asks when the hold ends follows its new state alone (R74). -/
theorem setupEnds_eq (h : s.ports[p].setup ≠ none) (hh : s.ports[p].holdAsked = false) :
    s.setupEnds p = ((s.endSetup p).offerAttempt p).askIfClaimable p := by
  have hnot : ¬s.claimable p = true := by
    rw [claimable_iff]
    rintro ⟨-, hready⟩
    unfold State.service at hready
    rw [if_pos (c := s.ports[p].setup.isSome = true) (Option.isSome_iff_ne_none.2 h)] at hready
    split at hready
    · cases hready
    · split at hready <;> cases hready
  have hask : s.setupEnds p = (((s.endSetup p).offerAttempt p).askIfClaimable p).holdTest p :=
    congrArg (State.holdTest p) (if_neg hnot)
  rw [hask]
  refine holdTest_stays ?_
  rw [State.askIfClaimable_ports]
  rcases hf : (s.endSetup p).ports[p].feedOwner with _ | j
  · rw [offerAttempt_unowned hf, endSetup_ports_self h]
    exact holdsDown_unheld hh
  · exact offerAttempt_holdsDown hf

/-- Another class than the awaited one: the stall is reported, unless it was (R102). -/
theorem wrongMedia_reported (h : s.ports[p].stallReported = true) :
    s.wrongMedia p = s.updPort p (fun x => { x with setupTimer := none }) := if_pos h

theorem wrongMedia_unreported (h : s.ports[p].stallReported = false) : s.wrongMedia p =
    (s.updPort p (fun x => { x with stallReported := true, setupTimer := none })).waitEvent p stallKind 0 :=
  if_neg (by rw [h]; decide)

theorem wrongMedia_port (s : State) (p : PortId) :
    (s.wrongMedia p).ports[p] = { s.ports[p] with stallReported := true, setupTimer := none } := by
  rcases h : s.ports[p].stallReported with _ | _
  · have hports := (State.waitEvent_keeps
      (s.updPort p (fun x => { x with stallReported := true, setupTimer := none })) p stallKind 0).part .ports
    rw [wrongMedia_unreported h]
    exact (congrArg (fun v : Vector Port 16 => v[p]) hports).trans (State.updPort_ports_self s p _)
  · rw [wrongMedia_reported h, State.updPort_ports_self, ← h]

end Sys2Proof.Machine
end

