-- ==== Sys2Proof/Proofs/SetupDone.lean ====
section
/-! SUPPORT. The statement on SETUP_DONE (R102). -/

set_option Elab.async false

namespace Sys2Proof.Machine

open Sys2Proof.Safety

variable {s t u : State} {p q : PortId} {j : SlotId} {m awaited : Media} {b : Byte}

theorem wrongMedia_keeps (s : State) (p : PortId) :
    KeepsAllBut [.ports, .alerts, .openAlerts, .notices] s (s.wrongMedia p) := by
  unfold State.wrongMedia
  exact .ite (State.updPort_keeps s p _).mono (State.reportStall_keeps s p).mono

theorem wrongMedia_ports_ne (h : q ≠ p) : (s.wrongMedia p).ports[q] = s.ports[q] := by
  rcases hr : s.ports[p].stallReported with _ | _
  · have hports := (State.waitEvent_keeps
      (s.updPort p (fun x => { x with stallReported := true, setupTimer := none })) p stallKind 0).part .ports
    rw [wrongMedia_unreported hr]
    exact (congrArg (fun v : Vector Port 16 => v[q]) hports).trans (State.updPort_ports_ne s p _ q h)
  · rw [wrongMedia_reported hr, State.updPort_ports_ne _ _ _ _ h]

theorem wrongMedia_alerts_ne {a : AlertId} (h : a ≠ waitSlot p) : (s.wrongMedia p).alerts[a] = s.alerts[a] := by
  unfold State.wrongMedia
  split
  · rfl
  · exact waitEvent_alerts_ne h

/-- The ends of a hold, by what holds the port's feed (R102). -/
theorem setupEnds_cases (h : s.ports[p].setup ≠ none) (hh : s.ports[p].holdAsked = false) :
    StallWithdrawn s (s.setupEnds p) p ∧ OtherPortsSame p s (s.setupEnds p) ∧
    (s.setupEnds p).ports[p].reported = s.ports[p].reported ∧
    KeepsAllBut [.jobs, .ports, .accounts, .alerts, .openAlerts, .pressLog, .notices, .passInProgress, .passOwed] s
      (s.setupEnds p) ∧
    (s.ports[p].feedOwner = none → (s.setupEnds p).ports[p] = s.ports[p].setupEnded ∧
      (s.ports[p].link = .up → (s.setupEnds p).service p = .ready → (s.setupEnds p).passInProgress = true) ∧
      KeepsAllBut [.ports, .alerts, .openAlerts, .notices, .passInProgress, .passOwed] s (s.setupEnds p)) ∧
    (∀ j, s.ports[p].feedOwner = some j → Attempted (s.endSetup p) (s.setupEnds p) p j) := by
  have hport := endSetup_ports_self h
  have hend := State.endSetup_keeps s p
  have htail := (State.offerAttempt_keeps (s.endSetup p) p).trans (State.askIfClaimable_keeps _ p)
  rw [setupEnds_eq h hh]
  refine ⟨stallWithdrawn_stands (endSetup_withdrawn h) (htail.part .alerts) (htail.part .openAlerts),
    fun q hq => ?_, ?_,
    (hend.trans htail).mono, fun hf => ?_, fun j hf => ?_⟩
  · rw [State.askIfClaimable_ports, offerAttempt_ports_ne hq, endSetup_ports_ne hq]
  · rw [State.askIfClaimable_ports, offerAttempt_reported, hport]
    rfl
  · have hunowned : (s.endSetup p).ports[p].feedOwner = none := by
      rw [hport]
      exact hf
    rw [offerAttempt_unowned hunowned, State.askIfClaimable_ports, askIfClaimable_service]
    refine ⟨hport, fun hup hready => ((askIfClaimable_asked _ p).1 ?_).1,
      (hend.trans (State.askIfClaimable_keeps _ p)).mono⟩
    rw [claimable_iff, hport]
    exact ⟨hup, hready⟩
  · have howner : (s.endSetup p).ports[p].feedOwner = some j := by
      rw [hport]
      exact hf
    exact attempted_stands (offerAttempt_attempted howner)
      (standsAs_of_keeps (State.askIfClaimable_keeps _ p).mono (askIfClaimable_passInProgress _ p))

/-- Before the attempt only the port, the wait slot and the notices have changed. -/
theorem endSetup_readsAs (hup : s.ports[p].link = .up) (h : s.ports[p].setup ≠ none) :
    ReadsAs p ((s.classKnown p m).endSetup p) { s with ports := s.ports.set p.val { s.ports[p] with
      loaded := m, lastHeard := s.clock, receiver := .hunt, setup := none, setupTimer := none
      stallReported := false } } := by
  have hheld : (s.classKnown p m).ports[p].setup ≠ none := by
    rw [classKnown_port hup]
    exact h
  have hkeeps := (classKnown_keeps s p m).trans (State.endSetup_keeps (s.classKnown p m) p)
  have hports : ((s.classKnown p m).endSetup p).ports = s.ports.set p.val { s.ports[p] with
      loaded := m, lastHeard := s.clock, receiver := .hunt, setup := none, setupTimer := none
      stallReported := false } := by
    rw [endSetup_ports hheld]
    unfold State.updPort
    rw [classKnown_port hup]
    change (((s.hear p).updPort p _).ports).set p.val _ = _
    rw [hear_updPort_ports hup]
    exact Vector.set_set ..
  have halert : ((s.classKnown p m).endSetup p).alerts[stopSlot p] = s.alerts[stopSlot p] :=
    endSetup_alerts_ne (s := s.classKnown p m) (stopSlot_ne_waitSlot p p)
  exact {
    jobs := (hkeeps.part .jobs).symm, ports := hports.symm, accounts := (hkeeps.part .accounts).symm
    pages := (hkeeps.part .pages).symm, queues := (hkeeps.part .queues).symm
    pressLog := (hkeeps.part .pressLog).symm, clock := (hkeeps.part .clock).symm
    timers := (hkeeps.part .timers).symm, service := service_of_ports halert.symm hports.symm }

/-- Settles O45: by the table of R102, over whether there is a hold, who holds the feed and which class came. -/
theorem setupDoneFollowsItsTable : Obligations.SetupDoneFollowsItsTable := by
  intro s p b hup hh
  refine ⟨exec_setupDone_bad (not_down_of_up hup), fun m hb => ⟨_, exec_setupDone hup hb, ?_⟩⟩
  have hport := classKnown_port (m := m) hup
  have hothers : OtherPortsSame p s (s.classKnown p m) := fun q hq => classKnown_ports_ne hq
  have hknown := classKnown_keeps s p m
  rcases hs : s.ports[p].setup with _ | awaited
  · rw [setupTaken_unheld hs]
    beta_reduce
    rw [hport]
    exact ⟨rfl, rfl, hothers, fun _ => ⟨rfl, hknown⟩, fun a ha => by cases ha⟩
  · have hset : s.ports[p].setup ≠ none := by rw [hs]; exact nofun
    by_cases hends : s.ports[p].feedOwner = none ∨ m = awaited
    · have hheld : (s.classKnown p m).ports[p].setup ≠ none := by rw [hport]; exact hset
      obtain ⟨hstall, hsame, hreported, hkeeps, hunowned, howned⟩ :=
        setupEnds_cases hheld (by rw [hport]; exact hh)
      rw [setupTaken_ends hs hends]
      rw [hport] at hreported hunowned howned
      refine ⟨congrArg (fun x => x.2.1) hreported, congrArg (fun x => x.2.2) hreported,
        fun q hq => (hsame q hq).trans (hothers q hq), (fun h => by cases h), fun a ha => ?_⟩
      cases ha
      refine ⟨fun hf hm => absurd hends (not_or.2 ⟨hf, hm⟩), fun hf => ?_, fun j hj _ => ?_⟩
      · obtain ⟨hrecord, hpass, hframe⟩ := hunowned hf
        exact ⟨hrecord, hstall, hpass hup, (hknown.trans hframe).mono⟩
      · exact ⟨hstall, attempted_reads (howned j hj) (endSetup_readsAs hup hset), (hknown.trans hkeeps).mono⟩
    · obtain ⟨hf, hm⟩ := not_or.1 hends
      have hrecord := wrongMedia_port (s.classKnown p m) p
      have hframe := (hknown.trans (wrongMedia_keeps (s.classKnown p m) p)).mono
        (b := [.ports, .alerts, .openAlerts, .notices])
      rw [setupTaken_wrong hs hf hm]
      rw [hport] at hrecord
      beta_reduce
      rw [hrecord]
      refine ⟨rfl, rfl, fun q hq => (wrongMedia_ports_ne hq).trans (hothers q hq), (fun h => by cases h),
        fun a ha => ?_⟩
      cases ha
      refine ⟨fun _ _ => ⟨rfl, fun hr => ?_, fun hr => ?_, fun a ha => wrongMedia_alerts_ne ha, hframe⟩,
        fun hn => absurd hn hf, fun j _ ha => absurd ha hm⟩
      · rw [wrongMedia_reported (by rw [hport]; exact hr)]
        exact hknown.next (State.updPort_keeps _ p _)
      · rw [wrongMedia_unreported (by rw [hport]; exact hr)]
        exact stall_raised _ p

end Sys2Proof.Machine
end

