-- ==== Sys2Proof/Proofs/TakenMessage.lean ====
section
/-! SUPPORT. A TAKEN message (R94): the entry settled, the test of R9, the owed release and the attempt behind them. -/

set_option Elab.async false

namespace Sys2Proof.Machine

open Sys2Proof.Safety

variable {s t u : State} {p q : PortId} {j k : SlotId} {e : SendEntry} {front : List SendEntry} {x : Port} {y : Job}

-- ## Tables that differ at one place

theorem jobs_eq_set (h : t.jobs[j] = y) (ho : OtherJobsSame j s t) : t.jobs = s.jobs.set j.val y := by
  refine Vector.ext fun i hi => ?_
  by_cases hij : j.val = i
  · subst hij
    rw [Vector.getElem_set_self]
    exact h
  · rw [Vector.getElem_set_ne _ _ hij]
    exact ho ⟨i, hi⟩ fun hc => hij (congrArg Fin.val hc).symm

theorem ports_eq_set (h : t.ports[p] = x) (ho : OtherPortsSame p s t) : t.ports = s.ports.set p.val x := by
  refine Vector.ext fun i hi => ?_
  by_cases hip : p.val = i
  · subst hip
    rw [Vector.getElem_set_self]
    exact h
  · rw [Vector.getElem_set_ne _ _ hip]
    exact ho ⟨i, hi⟩ fun hc => hip (congrArg Fin.val hc).symm

-- ## A message about an entry

theorem entryWith_last (hw : s.ports[p].window = front ++ [e]) (f : SendEntry → Bool) (hf : f e = true)
    (hfront : ∀ y ∈ front, y.serial ≠ e.serial ∨ f y = false) : (s.hear p).ports[p].entryWith e.serial f = some e := by
  have hwindow : (s.hear p).ports[p].window = front ++ [e] := by
    rw [hear_ports_self]
    exact hw
  have hnone : front.find? (fun y => y.serial == e.serial && f y) = none :=
    List.find?_eq_none.2 fun y hy => by
      rcases hfront y hy with h | h
      · simp [h]
      · simp [h]
  unfold Port.entryWith
  rw [hwindow, List.find?_append, hnone, Option.none_or, List.find?_cons_of_pos]
  rw [hf, beq_self_eq_true, Bool.and_self]

/-- A report on a STOPPED port is heard and discarded (R98). -/
theorem report_stopped {entry : Option SendEntry} {act : SendEntry → State → State} (h : s.service p = .stopped) :
    s.report p entry act = s := if_pos h

theorem report_entry {act : SendEntry → State → State} (h : s.service p ≠ .stopped) :
    s.report p (some e) act = act e s := if_neg h

theorem report_none {act : SendEntry → State → State} (h : s.service p ≠ .stopped) :
    s.report p none act = (s.orderFault p).holdTest p := if_neg h

theorem exec_taken_stopped (hup : s.ports[p].link = .up) (h : s.service p = .stopped) (n : Serial) :
    exec (.taken p n) s = .next (heardOnly s p) := by
  refine (congrArg Host.Outcome.next (pressMessage_up hup rfl)).trans ?_
  rw [report_stopped ((hear_service s p).trans h), hear_eq_heardOnly]

theorem unsettled_iff (e : SendEntry) : e.unsettled = true ↔ e.state ≠ .taken := bne_iff_ne

-- ## The entry settled

/-- The state in which the entry is TAKEN and counted (R94, R107). -/
def State.entryTaken (s : State) (p : PortId) (e : SendEntry) : State := (s.hear p).updPort p (Port.takeEntry e)

theorem exec_taken (hup : s.ports[p].link = .up) (h : s.service p ≠ .stopped) (hw : s.ports[p].window = front ++ [e])
    (he : e.state ≠ .taken) (hfront : ∀ f ∈ front, f.serial ≠ e.serial) :
    exec (.taken p e.serial) s =
      .next (((((s.entryTaken p e).handedTest e.job).owedRelease p e.job).offerAttempt p).holdTest p) := by
  refine (congrArg Host.Outcome.next (pressMessage_up hup rfl)).trans ?_
  rw [entryWith_last hw SendEntry.unsettled ((unsettled_iff e).2 he) fun y hy => .inl (hfront y hy),
    report_entry (by rw [hear_service]; exact h)]
  rfl

theorem entryTaken_keeps (s : State) (p : PortId) (e : SendEntry) : KeepsAllBut [.ports] s (s.entryTaken p e) :=
  (State.hear_keeps s p).next (State.updPort_keeps _ p _)

theorem entryTaken_ports_ne (h : q ≠ p) : (s.entryTaken p e).ports[q] = s.ports[q] := by
  unfold State.entryTaken
  rw [State.updPort_ports_ne _ _ _ _ h, hear_ports_ne h]

theorem entryTaken_port (hup : s.ports[p].link = .up) (hw : s.ports[p].window = front ++ [e])
    (hfront : ∀ f ∈ front, f.serial ≠ e.serial) (hx : x = { s.ports[p] with
      lastHeard := s.clock, receiver := .hunt, window := front ++ [{ e with state := .taken }]
      lifetime := { s.ports[p].lifetime with taken := (s.ports[p].lifetime.taken + e.faces) % 1000000000 }
      period := { s.ports[p].period with taken := (s.ports[p].period.taken + e.faces) % 1000000000 } }) :
    (s.entryTaken p e).ports[p] = x := by
  unfold State.entryTaken
  rw [State.updPort_ports_self, heard_of_up hup, Port.takeEntry]
  dsimp only
  rw [hw, map_last_of_serial (fun y => { y with state := .taken }) hfront, hx]
  rfl

/-- Every entry of the port's window is TAKEN then, and a job's entries stand at one port (R9). -/
theorem entryTaken_settled (hw : (s.entryTaken p e).ports[p].window = front ++ [{ e with state := .taken }])
    (hfront : ∀ f ∈ front, f.state = .taken) (hhome : ∀ k : PortId, ∀ f ∈ s.ports[k].window, f.job = e.job → k = p) :
    (s.entryTaken p e).hasUnsettled e.job = false := by
  rw [Bool.eq_false_iff]
  intro hc
  obtain ⟨k, -, hk⟩ := List.any_eq_true.1 hc
  obtain ⟨f, hf, hfe⟩ := List.any_eq_true.1 hk
  rw [Bool.and_eq_true, beq_iff_eq, unsettled_iff] at hfe
  by_cases hkp : k = p
  · subst hkp
    rw [hw] at hf
    rcases List.mem_append.1 hf with hf | hf
    · exact hfe.2 (hfront f hf)
    · rw [List.mem_singleton.1 hf] at hfe
      exact hfe.2 rfl
  · rw [entryTaken_ports_ne hkp] at hf
    exact hkp (hhome k f hf hfe.1)

theorem hasEntries_of_last (hw : s.ports[p].window = front ++ [{ e with state := .taken }]) :
    s.hasEntries e.job = true :=
  hasEntries_of_mem (s := s) (p := p) (e := { e with state := .taken }) (by rw [hw]; simp)

-- ## The test of R9 where the window keeps an entry

theorem holdsDown_window {x : Port} (h : x.window ≠ []) : x.holdsDown = false := by
  unfold Port.holdsDown
  rw [List.isEmpty_eq_false_iff.2 h]
  simp

theorem handedFeed_stay (h : s.jobs[j].feedPort = some p) (hw : s.ports[p].window ≠ []) : s.handedFeed j =
    ((s.updJob j (Job.enter .handed)).releaseFeed p j).askIfClaimable p := by
  rw [handedFeed_some h, feedReleased_stay]
  refine holdsDown_window ?_
  rw [Fin.getElem_fin, State.releaseFeed_ports_val]
  exact hw

theorem handedFeed_keeps (s : State) (j : SlotId) :
    KeepsAllBut [.jobs, .ports, .notices, .passInProgress, .passOwed] s (s.handedFeed j) := by
  rcases h : s.jobs[j].feedPort with _ | p
  · rw [handedFeed_none h]
    exact (State.updJob_keeps s j _).mono
  · rw [handedFeed_some h]
    exact (((State.updJob_keeps s j _).trans (State.releaseFeed_keeps _ p j)).trans (State.feedReleased_keeps _ p)).mono

theorem handedOver_keeps (s : State) (j : SlotId) :
    KeepsAllBut [.jobs, .ports, .notices, .passInProgress, .passOwed] s (s.handedOver j) := by
  unfold State.handedOver
  exact .ite ((handedFeed_keeps s j).trans (State.flagJob_keeps _ j .handed)).mono (handedFeed_keeps s j)

theorem handedFeed_jobs_ne (h : k ≠ j) : (s.handedFeed j).jobs[k] = s.jobs[k] := by
  rcases hf : s.jobs[j].feedPort with _ | p
  · rw [handedFeed_none hf, State.updJob_jobs_ne _ _ _ _ h]
  · rw [handedFeed_some hf, State.feedReleased_jobs_getElem, State.releaseFeed_jobs_ne _ _ _ _ h,
      State.updJob_jobs_ne _ _ _ _ h]

theorem handedOver_jobs_ne (h : k ≠ j) : (s.handedOver j).jobs[k] = s.jobs[k] := by
  unfold State.handedOver
  split
  · rw [State.flagJob_jobs_ne _ _ _ _ h, handedFeed_jobs_ne h]
  · exact handedFeed_jobs_ne h

theorem handedOver_ports_none (h : s.jobs[j].feedPort = none) : (s.handedOver j).ports = s.ports := by
  rw [handedOver_ports, handedFeed_none h]
  rfl

theorem handedOver_ports_some (h : s.jobs[j].feedPort = some p) (hw : s.ports[p].window ≠ []) :
    (s.handedOver j).ports[p] = s.ports[p].dropFeed ∧ OtherPortsSame p s (s.handedOver j) := by
  rw [handedOver_ports, handedFeed_stay h hw, State.askIfClaimable_ports]
  refine ⟨?_, fun q hq => ?_⟩
  · rw [Fin.getElem_fin, State.releaseFeed_ports_val]
    rfl
  · rw [handedOver_ports, handedFeed_stay h hw, State.askIfClaimable_ports, State.releaseFeed_ports_ne _ _ _ _ hq]
    rfl

/-- A DOUBLE job that owed no notice owes one (R22). -/
theorem handedOver_notices (hd : s.jobs[j].double = true) (hn : s.jobs[j].noticeOwed = false) :
    Source.job j ∈ (s.handedOver j).notices := by
  have howed : (s.handedFeed j).jobs[j].noticeOwed = false := by
    rw [handedFeed_jobs_self]
    exact hn
  unfold State.handedOver
  rw [if_pos hd, State.flagJob_notices, howed]
  exact List.mem_append_right _ (List.mem_singleton_self _)

/-- The port that is READY without the feed has asked for a pass (R74, R104). -/
theorem handedOver_asks (h : s.jobs[j].feedPort = some p) (hw : s.ports[p].window ≠ []) (hup : s.ports[p].link = .up)
    (hs : (s.handedOver j).service p = .ready) : (s.handedOver j).passInProgress = true := by
  have hfeed : (s.handedFeed j).service p = .ready := by
    rw [← hs]
    refine service_of_ports ?_ (handedOver_ports s j).symm
    rw [(handedOver_keeps s j).part .alerts, (handedFeed_keeps s j).part .alerts]
  have hpass : (s.handedFeed j).passInProgress = true := by
    rw [handedFeed_stay h hw, askIfClaimable_service] at hfeed
    rw [handedFeed_stay h hw]
    refine ((askIfClaimable_asked _ p).1 ((claimable_iff _ p).2 ⟨?_, hfeed⟩)).1
    rw [Fin.getElem_fin, State.releaseFeed_ports_val]
    exact hup
  unfold State.handedOver
  split
  · rw [State.flagJob_passInProgress]
    exact hpass
  · exact hpass

end Sys2Proof.Machine
end

