-- ==== Sys2Proof/Proofs/TakenStatement.lean ====
section
/-! SUPPORT. What follows a TAKEN entry (R9, R94, R105), and the statement on TAKEN. -/

set_option Elab.async false

namespace Sys2Proof.Machine

open Sys2Proof.Safety

variable {s t u : State} {p q : PortId} {j k : SlotId} {e : SendEntry} {front : List SendEntry} {x : Port} {y : Job}
  {handed : Bool}

/-- The test of R9 for a job whose entries are all settled and which keeps one. -/
theorem handedTest_of_entries (hsettled : s.hasUnsettled j = false) (hentries : s.hasEntries j = true)
    (hh : handed = (s.jobs[j].sentOut && (s.jobs[j].state == .active || s.jobs[j].state == .starved ||
      s.jobs[j].state == .waiting))) : s.handedTest j = if handed then s.handedOver j else s := by
  rcases handed with _ | _
  · have hnot : ¬((s.jobs[j].state = .active ∨ s.jobs[j].state = .starved ∨ s.jobs[j].state = .waiting) ∧
        s.jobs[j].sentOut = true ∧ s.hasUnsettled j = false) := fun ⟨hstate, hout, _⟩ => by
      rw [hout, Bool.true_and] at hh
      rcases hstate with h | h | h <;> · rw [h] at hh; cases hh
    rw [if_neg (by decide)]
    unfold State.handedTest
    exact if_neg hnot
  · obtain ⟨hout, hstate⟩ := Bool.and_eq_true_iff.1 hh.symm
    rw [Bool.or_eq_true, Bool.or_eq_true, beq_iff_eq, beq_iff_eq, beq_iff_eq, or_assoc] at hstate
    rw [handedTest_fires hstate hout hsettled, if_pos hentries, if_pos rfl]

/-- The state behind the test of R9: what of it the rest of R94 reads. -/
structure HandedOn (s m : State) (p : PortId) (e : SendEntry) (handed : Bool) (x : Port) (y : Job) : Prop where
  job : m.jobs[e.job] = y
  otherJobs : OtherJobsSame e.job s m
  otherPorts : OtherPortsSame p s m
  kept : s.ports[p].feedOwner ≠ some e.job ∨ handed = false → m.ports[p] = x
  released : s.ports[p].feedOwner = some e.job → handed = true →
    m.ports[p] = x.dropFeed ∧ (m.service p = .ready → m.passInProgress = true)
  notice : handed = true → s.jobs[e.job].double = true → s.jobs[e.job].noticeOwed = false →
    Source.job e.job ∈ m.notices
  keeps : KeepsAllBut [.jobs, .ports, .notices, .passInProgress, .passOwed] s m

theorem handedOn_of_entryTaken (hf : FeedsAgree s) (hup : s.ports[p].link = .up) (hw : s.ports[p].window = front ++ [e])
    (hport : (s.entryTaken p e).ports[p] = x) (hwx : x.window = front ++ [{ e with state := .taken }])
    (hlx : x.link = s.ports[p].link) (hfront : ∀ f ∈ front, f.state = .taken)
    (hh : handed = (s.jobs[e.job].sentOut && (s.jobs[e.job].state == .active || s.jobs[e.job].state == .starved ||
      s.jobs[e.job].state == .waiting)))
    (hy : y = (if handed then { s.jobs[e.job] with
        state := .handed, reason := none, feedPort := none
        flags := if s.jobs[e.job].double then addBit s.jobs[e.job].flags 0 else s.jobs[e.job].flags
        noticeOwed := s.jobs[e.job].noticeOwed || s.jobs[e.job].double }
      else s.jobs[e.job])) : HandedOn s ((s.entryTaken p e).handedTest e.job) p e handed x y := by
  obtain ⟨howner, -, hhome, hentryFeed, -⟩ := hf
  have hmem : e ∈ s.ports[p].window := by rw [hw]; simp
  have hjobs : (s.entryTaken p e).jobs = s.jobs := (entryTaken_keeps s p e).part .jobs
  have hwindow : (s.entryTaken p e).ports[p].window = front ++ [{ e with state := .taken }] := by rw [hport, hwx]
  have hopen : (s.entryTaken p e).ports[p].window ≠ [] := by rw [hwindow]; simp
  have hothers : OtherPortsSame p s (s.entryTaken p e) := fun q hq => entryTaken_ports_ne hq
  rw [handedTest_of_entries (entryTaken_settled hwindow hfront fun k f hf hj => (hhome k p f e hf hmem hj))
    (hasEntries_of_last hwindow) hh]
  rcases handed with _ | _
  · exact ⟨hy.symm, fun _ _ => rfl, hothers, fun _ => hport, fun _ h => absurd h (by decide),
      fun h => absurd h (by decide), (entryTaken_keeps s p e).mono⟩
  · have hkeeps := ((entryTaken_keeps s p e).trans (handedOver_keeps (s.entryTaken p e) e.job)).mono
      (b := [.jobs, .ports, .notices, .passInProgress, .passOwed])
    refine ⟨?_, fun k hk => handedOver_jobs_ne hk, ?_, fun h => ?_, fun h _ => ?_,
      fun _ hd hn => handedOver_notices hd hn,
      hkeeps⟩
    · rw [if_pos rfl, handedOver_jobs_self, hy]
      rfl
    · rw [if_pos rfl]
      rcases hfp : s.jobs[e.job].feedPort with _ | q
      · rw [OtherPortsSame, handedOver_ports_none (s := s.entryTaken p e) hfp]
        exact hothers
      · have hqp : p = q := hentryFeed p q e hmem hfp
        subst hqp
        exact fun k hk => ((handedOver_ports_some (s := s.entryTaken p e) hfp hopen).2 k hk).trans (hothers k hk)
    · have hfp : s.jobs[e.job].feedPort = none := by
        rcases hfp : s.jobs[e.job].feedPort with _ | q
        · rfl
        · have hqp : p = q := hentryFeed p q e hmem hfp
          subst hqp
          exact absurd ((howner p e.job).2 hfp) (h.resolve_right (by decide))
      rw [if_pos rfl, handedOver_ports_none (s := s.entryTaken p e) hfp]
      exact hport
    · have hfp : s.jobs[e.job].feedPort = some p := (howner p e.job).1 h
      rw [if_pos rfl, (handedOver_ports_some (s := s.entryTaken p e) hfp hopen).1, hport]
      refine ⟨rfl, fun hready => handedOver_asks (s := s.entryTaken p e) hfp hopen ?_ hready⟩
      rw [hport, hlx]
      exact hup

-- ## The owed release

theorem owedRelease_stays (h : s.ports[p].feedOwner ≠ some j ∨ s.ports[p].releaseOwed = false) :
    s.owedRelease p j = s := by
  refine if_neg fun hc => h.elim (fun hn => hn hc.2) fun hn => ?_
  rw [hn] at hc
  exact absurd hc.1 (by decide)

theorem owedRelease_fires (h : s.ports[p].feedOwner = some j) (ho : s.ports[p].releaseOwed = true) :
    s.owedRelease p j = s.serviceRelease p j := if_pos ⟨ho, h⟩

/-- A release where the window keeps an entry (R8, R104, R105). -/
theorem serviceRelease_open (hw : s.ports[p].window ≠ []) : (s.serviceRelease p j).ports[p] = s.ports[p].dropFeed ∧
    (s.queues[s.jobs[j].queue].mode = .run → (s.serviceRelease p j).passInProgress = true) ∧
    NoticesStay s (s.serviceRelease p j) := by
  have hwait : ((s.releaseFeed p j).makeWaiting j .route).ports[p] = s.ports[p].dropFeed := by
    rw [releaseWaiting_ports, Fin.getElem_fin, State.releaseFeed_ports_val]
    rfl
  refine ⟨?_, fun hm => feedReleased_asks (releaseWaiting_asks s p j .route hm) p, ?_⟩
  · unfold State.serviceRelease
    rw [feedReleased_ports_stay, hwait]
    rw [hwait]
    exact holdsDown_window hw
  · refine .trans (.of_eq ?_) (feedReleased_noticesStay _ p)
    exact ((State.releaseFeed_keeps s p j).trans (State.makeWaiting_keeps _ j .route)).part .notices

theorem owedRelease_keeps (s : State) (p : PortId) (j : SlotId) :
    KeepsAllBut [.jobs, .ports, .notices, .passInProgress, .passOwed] s (s.owedRelease p j) := by
  unfold State.owedRelease
  exact .ite (serviceRelease_keeps s p j) (.refl _ s)

theorem owedRelease_noticesStay (s : State) (p : PortId) (j : SlotId) (hw : s.ports[p].window ≠ []) :
    NoticesStay s (s.owedRelease p j) := by
  unfold State.owedRelease
  split
  · exact (serviceRelease_open hw).2.2
  · exact .refl s

theorem owedRelease_ports_ne (h : q ≠ p) : (s.owedRelease p j).ports[q] = s.ports[q] := by
  unfold State.owedRelease
  split
  · exact serviceRelease_ports_ne h
  · rfl

/-- Behind a TAKEN entry without an owner nothing more happens. -/
theorem behind_unowned (h : s.ports[p].feedOwner = none) (hw : s.ports[p].window ≠ []) :
    (s.offerAttempt p).holdTest p = s := by
  rw [offerAttempt_unowned h, holdTest_stays (holdsDown_window hw)]

/-- Settles O40: `handedOn_of_entryTaken`, and by who holds the feed then the owed release or the attempt. -/
theorem takenSettlesTheEntry : Obligations.TakenSettlesTheEntry := by
  intro s p e front out handed y x b hf hup hw he hfront hout hh hy hx hb
  subst hout
  refine ⟨fun h => exec_taken_stopped hup h e.serial,
    fun h => ⟨_, exec_taken hup h hw he fun f hm => (hfront f hm).1, ?_⟩⟩
  have hport := entryTaken_port hup hw (fun f hm => (hfront f hm).1) hx
  have hwx : x.window = front ++ [{ e with state := .taken }] := by rw [hx]
  have hfx : x.feedOwner = s.ports[p].feedOwner := by rw [hx]
  have hox : x.releaseOwed = s.ports[p].releaseOwed := by rw [hx]
  have hne : x.window ≠ [] := by rw [hwx]; simp
  have hm := handedOn_of_entryTaken hf hup hw hport hwx (by rw [hx]) (fun f hm => (hfront f hm).2) hh hy
  generalize (s.entryTaken p e).handedTest e.job = m at hm ⊢
  have hmw : m.ports[p].window ≠ [] := by
    by_cases hc : s.ports[p].feedOwner = some e.job ∧ handed = true
    · rw [(hm.released hc.1 hc.2).1]
      exact hne
    · rw [hm.kept (not_and_or.1 hc |>.imp_right Bool.eq_false_iff.2)]
      exact hne
  have hlater := ((owedRelease_keeps m p e.job).trans (State.offerAttempt_keeps _ p)).trans (State.holdTest_keeps _ p)
  have hjobs : m.jobs = b.jobs := by
    rw [hb]
    exact jobs_eq_set hm.job hm.otherJobs
  have hothers : OtherPortsSame p s (((m.owedRelease p e.job).offerAttempt p).holdTest p) := fun q hq => by
    rw [State.holdTest_ports_ne _ _ _ hq, offerAttempt_ports_ne hq, owedRelease_ports_ne hq, hm.otherPorts q hq]
  have hnotices : NoticesStay m (((m.owedRelease p e.job).offerAttempt p).holdTest p) :=
    ((owedRelease_noticesStay m p e.job hmw).trans (offerAttempt_noticesStay _ p)).trans (holdTest_noticesStay _ p)
  have haccounts : m.accounts = s.accounts := hm.keeps.part .accounts
  have hlog : Sent s m p [] := (hm.keeps.part .pressLog).trans (List.append_nil _).symm
  refine ⟨hothers, fun h1 h2 h3 => hnotices _ (hm.notice h1 h2 h3), fun hn => ?_, fun ho hhanded => ?_,
    fun ho hhanded howed => ?_, fun j ho hj => ?_, (hm.keeps.trans hlater).mono⟩
  · have hrecord : m.ports[p] = x := hm.kept (.inl (by rw [hn]; exact nofun))
    have hnone : m.ports[p].feedOwner = none := by rw [hrecord, hfx, hn]
    rw [owedRelease_stays (.inl (by rw [hnone]; exact nofun)), behind_unowned hnone hmw]
    exact ⟨hrecord, hjobs, haccounts, hlog⟩
  · obtain ⟨hrecord, hpass⟩ := hm.released ho hhanded
    have hnone : m.ports[p].feedOwner = none := by rw [hrecord]; rfl
    rw [owedRelease_stays (.inl (by rw [hnone]; exact nofun)), behind_unowned hnone hmw]
    exact ⟨hrecord, hjobs, haccounts, hlog, hpass⟩
  · have hrecord := hm.kept (.inr hhanded)
    have howner : m.ports[p].feedOwner = some e.job := by rw [hrecord, hfx, ho]
    have hjob : m.jobs[e.job] = s.jobs[e.job] := by rw [hm.job, hy, hhanded, if_neg (by decide)]
    obtain ⟨hdropped, hasks, -⟩ := serviceRelease_open (j := e.job) hmw
    have hfree : (m.serviceRelease p e.job).ports[p].feedOwner = none := by rw [hdropped]; rfl
    have hkept : (m.serviceRelease p e.job).ports[p].window ≠ [] := by rw [hdropped]; exact hmw
    have hrel := serviceRelease_keeps m p e.job
    rw [owedRelease_fires howner (by rw [hrecord, hox, howed]), behind_unowned hfree hkept, hdropped, hrecord,
      serviceRelease_jobs_self, hjob]
    refine ⟨rfl, rfl, fun k hk => (serviceRelease_jobs_ne hk).trans (hm.otherJobs k hk),
      (hrel.part .accounts).trans haccounts, (hrel.part .pressLog).trans hlog, fun hrun => hasks ?_⟩
    have hqueues : m.queues = s.queues := hm.keeps.part .queues
    simp only [hjob, hqueues]
    exact hrun
  · have hrecord : m.ports[p] = x := hm.kept (or_iff_not_imp_left.2 fun hc => (hj (by
      have := not_not.1 hc
      rw [ho] at this
      exact Option.some.inj this)).1)
    have howner : m.ports[p].feedOwner = some j := by rw [hrecord, hfx, ho]
    have hstay : m.owedRelease p e.job = m := owedRelease_stays (by
      by_cases hje : j = e.job
      · exact .inr (by rw [hrecord, hox, (hj hje).2])
      · exact .inl (by rw [howner]; exact fun hc => hje (Option.some.inj hc)))
    have hports : m.ports = b.ports := by
      rw [hb]
      exact ports_eq_set hrecord hm.otherPorts
    rw [hstay, offerAttempt_holdTest howner]
    refine attempted_reads (offerAttempt_attempted howner) ?_
    subst hb
    exact {
      jobs := hjobs.symm, ports := hports.symm, accounts := haccounts.symm, pages := (hm.keeps.part .pages).symm
      queues := (hm.keeps.part .queues).symm, pressLog := (hm.keeps.part .pressLog).symm
      clock := (hm.keeps.part .clock).symm, timers := (hm.keeps.part .timers).symm
      service := service_of_ports (by rw [hm.keeps.part .alerts]) hports.symm }

end Sys2Proof.Machine
end

