-- ==== Sys2Proof/Proofs/EntryRemoval.lean ====
section
/-! SUPPORT. An entry that leaves its window without a sheet, by ABORTED or REFUSE (R13, R16, R18, R96, R97, R137). -/

set_option Elab.async false

namespace Sys2Proof.Machine

open Sys2Proof.Safety

variable {s t u : State} {p q : PortId} {j k : SlotId} {e : SendEntry} {front : List SendEntry} {a : AccountId}
  {reason : Byte}

-- ## The messages

theorem isAborting_iff (e : SendEntry) : e.isAborting = true ↔ e.state = .aborting := beq_iff_eq

theorem unsettled_of_taken (h : e.state = .taken) : e.unsettled = false := by
  unfold SendEntry.unsettled
  rw [h]
  rfl

theorem isAborting_of_taken (h : e.state = .taken) : e.isAborting = false := by
  unfold SendEntry.isAborting
  rw [h]
  rfl

theorem exec_aborted (hup : s.ports[p].link = .up) (h : s.service p ≠ .stopped) (hw : s.ports[p].window = front ++ [e])
    (hfront : ∀ f ∈ front, f.state = .taken) (he : e.state = .aborting) :
    exec (.aborted p e.serial) s = .next ((s.hear p).abortedPassed p e) := by
  refine (congrArg Host.Outcome.next (pressMessage_up hup rfl)).trans ?_
  rw [entryWith_last hw SendEntry.isAborting ((isAborting_iff e).2 he)
      fun y hy => .inr (isAborting_of_taken (hfront y hy)),
    report_entry (by rw [hear_service]; exact h)]

theorem exec_refuse (hup : s.ports[p].link = .up) (h : s.service p ≠ .stopped) (hw : s.ports[p].window = front ++ [e])
    (hfront : ∀ f ∈ front, f.state = .taken) (he : e.state ≠ .taken) : exec (.refuse p e.serial reason) s = .next
      (if e.isAborting then (s.hear p).abortedPassed p e else (s.hear p).refusePassed p reason e) := by
  refine (congrArg Host.Outcome.next (pressMessage_up hup rfl)).trans ?_
  rw [entryWith_last hw SendEntry.unsettled ((unsettled_iff e).2 he)
      fun y hy => .inr (unsettled_of_taken (hfront y hy)),
    report_entry (by rw [hear_service]; exact h)]

-- ## The entry gone and the job rewound

/-- The state in which the entry has left, its faces are released and its job is rewound (R13, R96, R97, R137). -/
def State.entryRemoved (s : State) (p : PortId) (e : SendEntry) : State :=
  (((s.hear p).releaseFaces e).dropEntry p e).updJob e.job (Job.rewind e.copy e.place)

theorem heardReleased_keeps (s : State) (p : PortId) (e : SendEntry) :
    KeepsAllBut [.ports, .accounts, .passInProgress, .passOwed] s ((s.hear p).releaseFaces e) :=
  ((State.hear_keeps s p).trans (State.releaseFaces_keeps _ e)).mono

theorem heardReleased_ports (s : State) (p : PortId) (e : SendEntry) :
    ((s.hear p).releaseFaces e).ports = (s.hear p).ports := (State.releaseFaces_keeps (s.hear p) e).part .ports

theorem entryRemoved_keeps (s : State) (p : PortId) (e : SendEntry) :
    KeepsAllBut [.jobs, .ports, .accounts, .pressLog, .passInProgress, .passOwed] s (s.entryRemoved p e) :=
  (((heardReleased_keeps s p e).trans (State.dropEntry_keeps _ p e)).trans (State.updJob_keeps _ e.job _)).mono

theorem dropEntry_ports_self (s : State) (p : PortId) (e : SendEntry) : (s.dropEntry p e).ports[p] = { s.ports[p] with
    window := s.ports[p].window.erase e,
    sending := if s.ports[p].sending = some e.serial then none else s.ports[p].sending } :=
  State.dropEntry_ports_val s p e

theorem entryRemoved_port (hw : s.ports[p].window = front ++ [e]) (hn : e ∉ front) :
    (s.entryRemoved p e).ports[p] = { heardPort s p with
      window := front, sending := if s.ports[p].sending = some e.serial then none else s.ports[p].sending } := by
  have hdrop := dropEntry_ports_self ((s.hear p).releaseFaces e) p e
  have hport : ((s.hear p).releaseFaces e).ports[p] = heardPort s p := by rw [heardReleased_ports, hear_ports_self]
  have herase : (heardPort s p).window.erase e = front := by
    change s.ports[p].window.erase e = front
    rw [hw, List.erase_append_right _ hn, List.erase_cons_head, List.append_nil]
  rw [hport, herase] at hdrop
  exact hdrop

theorem entryRemoved_ports_ne (h : q ≠ p) : (s.entryRemoved p e).ports[q] = s.ports[q] := by
  have hdrop := State.dropEntry_ports_ne ((s.hear p).releaseFaces e) p e q h
  rw [heardReleased_ports, hear_ports_ne h] at hdrop
  exact hdrop

theorem releaseFaces_accounts_self (s : State) (e : SendEntry) : (s.releaseFaces e).accounts[s.jobs[e.job].account] =
    { s.accounts[s.jobs[e.job].account] with reserved := s.accounts[s.jobs[e.job].account].reserved - e.faces } := by
  unfold State.releaseFaces
  rw [State.askIfAnyRun_accounts, State.updAccount_accounts_self]
  rfl

theorem releaseFaces_accounts_ne (h : a ≠ s.jobs[e.job].account) : (s.releaseFaces e).accounts[a] = s.accounts[a] := by
  unfold State.releaseFaces
  rw [State.askIfAnyRun_accounts, State.updAccount_accounts_ne _ _ _ _ h]

theorem entryRemoved_accounts (s : State) (p : PortId) (e : SendEntry) :
    (s.entryRemoved p e).accounts = ((s.hear p).releaseFaces e).accounts :=
  ((State.dropEntry_keeps _ p e).trans (State.updJob_keeps _ e.job _)).part .accounts

theorem entryRemoved_jobs_self (s : State) (p : PortId) (e : SendEntry) :
    (s.entryRemoved p e).jobs[e.job] = s.jobs[e.job].rewind e.copy e.place := by
  have hjobs := (State.dropEntry_keeps ((s.hear p).releaseFaces e) p e).part .jobs
  change (((s.hear p).releaseFaces e).dropEntry p e).jobs = _ at hjobs
  unfold State.entryRemoved
  rw [State.updJob_jobs_self, hjobs, (heardReleased_keeps s p e).part .jobs]

theorem entryRemoved_jobs_ne (h : k ≠ e.job) : (s.entryRemoved p e).jobs[k] = s.jobs[k] := by
  have hjobs := (State.dropEntry_keeps ((s.hear p).releaseFaces e) p e).part .jobs
  change (((s.hear p).releaseFaces e).dropEntry p e).jobs = _ at hjobs
  unfold State.entryRemoved
  rw [State.updJob_jobs_ne _ _ _ _ h, hjobs, (heardReleased_keeps s p e).part .jobs]

/-- The page data of a stopped send of the entry has gone out (R183). -/
theorem entryRemoved_sent (s : State) (p : PortId) (e : SendEntry) : ∃ cut, CutShort s p cut ∧
    (s.ports[p].sending ≠ some e.serial → cut = []) ∧ Sent s (s.entryRemoved p e) p cut := by
  obtain ⟨cut, hcut, hnone, hsent⟩ := stopSendOf_sent ((s.hear p).releaseFaces e) p e
  have hkeeps := heardReleased_keeps s p e
  have hport : ((s.hear p).releaseFaces e).ports[p] = heardPort s p := by rw [heardReleased_ports, hear_ports_self]
  refine ⟨cut, ?_, fun h => hnone ?_, ?_⟩
  · refine CutShort.of_same hcut ?_ (fun j => ?_) (hkeeps.part .pages) (hkeeps.part .dram)
    · rw [hport]
      rfl
    · rw [hkeeps.part .jobs]
  · rw [hport]
    exact h
  · have hlog : (s.entryRemoved p e).pressLog = (((s.hear p).releaseFaces e).stopSendOf p e).pressLog :=
      ((State.updPort_keeps _ p _).trans (State.updJob_keeps _ e.job _)).part .pressLog
    unfold Sent at hsent ⊢
    rw [hlog, hsent, hkeeps.part .pressLog]

-- ## What follows a removal

theorem afterRemoval_jobs_stay (h : s.hasEntries j = true ∨ s.jobs[j].state ≠ .cancelling) :
    (s.afterRemoval j).jobs = s.jobs := by
  unfold State.afterRemoval
  split
  · rfl
  · rename_i hentries
    have hstate := h.resolve_left hentries
    split
    · rename_i hc
      exact absurd hc hstate
    · exact State.askIfRun_jobs _ _
    · rfl

theorem afterRemoval_cancelling (h : s.hasEntries j = false) (hs : s.jobs[j].state = .cancelling) :
    s.afterRemoval j = s.flagJob j .cancelled := by
  unfold State.afterRemoval
  rw [if_neg (by rw [h]; decide), hs]

theorem afterRemoval_jobs_ne (h : k ≠ j) : (s.afterRemoval j).jobs[k] = s.jobs[k] := by
  by_cases hs : s.hasEntries j = true ∨ s.jobs[j].state ≠ .cancelling
  · rw [afterRemoval_jobs_stay hs]
  · obtain ⟨hentries, hstate⟩ := not_or.1 hs
    rw [afterRemoval_cancelling (Bool.eq_false_iff.2 hentries) (not_not.1 hstate), State.flagJob_jobs_ne _ _ _ _ h]

theorem afterRemoval_ports (s : State) (j : SlotId) : (s.afterRemoval j).ports = s.ports :=
  (State.afterRemoval_keeps s j).part .ports

/-- The cursor behind a rewind (R13). -/
theorem rewind_eq {x : Job} {cursor : Nat × Nat} (copy place : Nat)
    (hc : cursor = (if x.state ≠ .cancelling ∧ (copy < x.cursorCopy ∨ (copy = x.cursorCopy ∧ place < x.cursorPage)) then
      (copy, place) else (x.cursorCopy, x.cursorPage))) :
    x.rewind copy place = { x with cursorCopy := cursor.1, cursorPage := cursor.2 } := by
  subst hc
  unfold Job.rewind
  by_cases hs : x.state = .cancelling
  · rw [if_pos hs, if_neg fun h => h.1 hs]
  · rw [if_neg hs]
    by_cases hlt : copy < x.cursorCopy ∨ (copy = x.cursorCopy ∧ place < x.cursorPage)
    · rw [if_pos hlt, if_pos ⟨hs, hlt⟩]
    · rw [if_neg hlt, if_neg fun h => hlt h.2]

theorem rewind_state (copy place : Nat) (x : Job) : (x.rewind copy place).state = x.state := by
  unfold Job.rewind
  split
  · rfl
  · split <;> rfl

end Sys2Proof.Machine
end

