-- ==== Sys2Proof/Proofs/RefusedPages.lean ====
section
/-! SUPPORT. The refused job (R18, R97), and the statement on ABORTED and REFUSE. -/

set_option Elab.async false

namespace Sys2Proof.Machine

open Sys2Proof.Safety

variable {s t u : State} {p q : PortId} {j k : SlotId} {e : SendEntry} {front : List SendEntry} {x : Job}
  {cursor : Nat × Nat} {reason : Byte}

-- ## The hold test and a send

theorem holdTest_sending (h : s.ports[p].sending = none) : (s.holdTest p).ports[p].sending = none := by
  unfold State.holdTest
  split
  · obtain ⟨_, _, hport⟩ := s.goDown_ports_val p .hold
    exact (congrArg Port.sending hport).trans rfl
  · exact h

theorem feedReleased_sending (h : s.ports[p].sending = none) : (s.feedReleased p).ports[p].sending = none :=
  holdTest_sending (by rw [State.askIfClaimable_ports, h])

-- ## The account of a removed entry

theorem entryRemoved_account (s : State) (p : PortId) (e : SendEntry) :
    (s.entryRemoved p e).accounts[s.jobs[e.job].account] = { s.accounts[s.jobs[e.job].account] with
      reserved := s.accounts[s.jobs[e.job].account].reserved - e.faces } := by
  rw [entryRemoved_accounts]
  exact releaseFaces_accounts_self (s.hear p) e

theorem entryRemoved_accounts_ne (s : State) (p : PortId) (e : SendEntry) :
    OtherAccountsSame s.jobs[e.job].account s (s.entryRemoved p e) := fun a ha => by
  rw [entryRemoved_accounts]
  exact releaseFaces_accounts_ne (s := s.hear p) ha

-- ## The refused job

/-- The state in which the refused job is in ERROR, without the feed (R18, R97). -/
def State.jobRefused (s : State) (p : PortId) (reason : Byte) (e : SendEntry) : State :=
  (((s.entryRemoved p e).releaseFeed p e.job).updJob e.job (Job.refuse reason)).flagJob e.job .error

theorem jobRefused_keeps (s : State) (p : PortId) (reason : Byte) (e : SendEntry) :
    KeepsAllBut [.jobs, .ports, .accounts, .pressLog, .notices, .passInProgress, .passOwed] s
      (s.jobRefused p reason e) :=
  ((((entryRemoved_keeps s p e).trans (State.releaseFeed_keeps _ p e.job)).trans (State.updJob_keeps _ e.job _)).trans
    (State.flagJob_keeps _ e.job .error)).mono

/-- What the refusal changes behind the removal of the entry. -/
theorem jobRefused_keeps_removed (s : State) (p : PortId) (reason : Byte) (e : SendEntry) :
    KeepsAllBut [.jobs, .ports, .notices] (s.entryRemoved p e) (s.jobRefused p reason e) :=
  (((State.releaseFeed_keeps (s.entryRemoved p e) p e.job).trans (State.updJob_keeps _ e.job _)).trans
    (State.flagJob_keeps _ e.job .error)).mono

theorem jobRefused_ports (s : State) (p : PortId) (reason : Byte) (e : SendEntry) :
    (s.jobRefused p reason e).ports = ((s.entryRemoved p e).releaseFeed p e.job).ports :=
  ((State.updJob_keeps ((s.entryRemoved p e).releaseFeed p e.job) e.job _).trans
    (State.flagJob_keeps _ e.job .error)).part
    .ports

theorem jobRefused_port (hw : s.ports[p].window = front ++ [e]) (hn : e ∉ front) :
    (s.jobRefused p reason e).ports[p] = Port.dropFeed { heardPort s p with
      window := front, sending := if s.ports[p].sending = some e.serial then none else s.ports[p].sending } := by
  rw [jobRefused_ports, Fin.getElem_fin, State.releaseFeed_ports_val, ← Fin.getElem_fin, entryRemoved_port hw hn]

theorem jobRefused_ports_ne (h : q ≠ p) : (s.jobRefused p reason e).ports[q] = s.ports[q] := by
  rw [jobRefused_ports, State.releaseFeed_ports_ne _ _ _ _ h, entryRemoved_ports_ne h]

theorem jobRefused_jobs_ne (h : k ≠ e.job) : (s.jobRefused p reason e).jobs[k] = s.jobs[k] := by
  unfold State.jobRefused
  rw [State.flagJob_jobs_ne _ _ _ _ h, State.updJob_jobs_ne _ _ _ _ h, State.releaseFeed_jobs_ne _ _ _ _ h,
    entryRemoved_jobs_ne h]

/-- The record of the job before it is flagged. -/
theorem refused_jobs_self (hx : s.jobs[e.job].rewind e.copy e.place = x) :
    (((s.entryRemoved p e).releaseFeed p e.job).updJob e.job (Job.refuse reason)).jobs[e.job] =
      { x with state := .error, reason := none, feedPort := none, refuseReason := reason } := by
  have hfeed : ((s.entryRemoved p e).releaseFeed p e.job).jobs[e.job] = { x with feedPort := none } := by
    unfold State.releaseFeed
    rw [State.updJob_jobs_self, State.updPort_jobs, entryRemoved_jobs_self, hx]
  rw [State.updJob_jobs_self, hfeed]
  rfl

theorem jobRefused_jobs_self (hx : s.jobs[e.job].rewind e.copy e.place = x) : (s.jobRefused p reason e).jobs[e.job] =
    { x with state := .error, reason := none, feedPort := none, refuseReason := reason, flags := addBit x.flags 4
             noticeOwed := true } := by
  unfold State.jobRefused
  rw [flagJob_jobs_self, refused_jobs_self hx]
  rfl

theorem jobRefused_notices (hx : s.jobs[e.job].rewind e.copy e.place = x) (h : x.noticeOwed = false) :
    Source.job e.job ∈ (s.jobRefused p reason e).notices := by
  unfold State.jobRefused
  rw [State.flagJob_notices, refused_jobs_self hx]
  simp [h]

theorem refusePassed_owner (h : s.ports[p].feedOwner = some e.job) (hw : s.ports[p].window = front ++ [e])
    (hn : e ∉ front) :
    (s.hear p).refusePassed p reason e = ((s.jobRefused p reason e).feedReleased p).holdTest p := by
  have howner : (s.entryRemoved p e).ports[p].feedOwner = some e.job := by rw [entryRemoved_port hw hn]; exact h
  have hrelease : (s.entryRemoved p e).releaseIfOwner p e.job = (s.entryRemoved p e).releaseFeed p e.job :=
      if_pos howner
  have hfree : ((s.jobRefused p reason e).feedReleased p).ports[p].feedOwner = none := by
    obtain ⟨_, _, _, _, _, _, hport⟩ := (s.jobRefused p reason e).feedReleased_ports_val p
    refine (congrArg Port.feedOwner hport).trans ?_
    exact (congrArg Port.feedOwner (jobRefused_port hw hn)).trans rfl
  rw [← offerAttempt_unowned hfree]
  unfold State.refusePassed State.jobRefused
  rw [← hrelease]
  rfl

/-- The state behind a refused job, and the hold tests that follow. -/
theorem refused_after (s : State) (p : PortId) :
    KeepsAllBut [.ports, .notices, .passInProgress, .passOwed] s ((s.feedReleased p).holdTest p) ∧
      OtherPortsSame p s ((s.feedReleased p).holdTest p) ∧ NoticesStay s ((s.feedReleased p).holdTest p) ∧
      ((s.feedReleased p).holdTest p).ports[p].window = s.ports[p].window ∧
      ((s.feedReleased p).holdTest p).ports[p].feedOwner = s.ports[p].feedOwner ∧
      (s.ports[p].sending = none → ((s.feedReleased p).holdTest p).ports[p].sending = none) ∧
      (s.ports[p].holdAsked = false →
        ((s.feedReleased p).holdTest p).ports[p].sending = s.ports[p].sending) := by
  obtain ⟨-, -, hwindow, -, howner, -⟩ := holdTest_ports_self (s.feedReleased p) p
  obtain ⟨_, _, _, _, _, _, hport⟩ := s.feedReleased_ports_val p
  refine ⟨((s.feedReleased_keeps p).trans (State.holdTest_keeps _ p)).mono, fun q hq => ?_,
    (feedReleased_noticesStay s p).trans (holdTest_noticesStay _ p), ?_, ?_,
    fun h => holdTest_sending (feedReleased_sending h), fun h => ?_⟩
  · rw [State.holdTest_ports_ne _ _ _ hq, State.feedReleased_ports_ne _ _ _ hq]
  · rw [hwindow]
    exact (congrArg Port.window hport).trans rfl
  · rw [howner]
    exact (congrArg Port.feedOwner hport).trans rfl
  · have hstay := feedReleased_ports_stay (holdsDown_unheld h)
    rw [holdTest_stays (by rw [hstay]; exact holdsDown_unheld h), hstay]

-- ## The statement

theorem not_mem_of_taken (hfront : ∀ f ∈ front, f.state = .taken) (he : e.state ≠ .taken) : e ∉ front :=
  fun h => he (hfront e h)

theorem hasEntries_of_front (hport : u.ports[p].window = front) (h : ∃ f ∈ front, f.job = j) :
    u.hasEntries j = true := by
  obtain ⟨f, hf, hj⟩ := h
  exact (hasEntries_iff_exists u j).2 ⟨p, f, by rw [hport]; exact hf, hj⟩

theorem no_entries_of_windows (hport : u.ports[p].window = front) (hothers : OtherPortsSame p s u)
    (hfront : ∀ f ∈ front, f.job ≠ j) (h : ∀ k : PortId, k ≠ p → ∀ f ∈ s.ports[k].window, f.job ≠ j) :
    u.hasEntries j = false := by
  refine Bool.eq_false_iff.2 fun hc => ?_
  obtain ⟨q, f, hf, hj⟩ := (hasEntries_iff_exists u j).1 hc
  by_cases hq : q = p
  · subst hq
    rw [hport] at hf
    exact hfront f hf hj
  · rw [hothers q hq] at hf
    exact h q hq f hf hj

/-- The state behind the removal of an ABORTING entry, before the attempt (R96). -/
def State.abortedRemoved (s : State) (p : PortId) (e : SendEntry) : State := (s.entryRemoved p e).afterRemoval e.job

theorem abortedRemoved_keeps (s : State) (p : PortId) (e : SendEntry) :
    KeepsAllBut [.jobs, .ports, .accounts, .pressLog, .notices, .passInProgress, .passOwed] s (s.abortedRemoved p e) :=
  ((entryRemoved_keeps s p e).trans (State.afterRemoval_keeps _ e.job)).mono

theorem abortedPassed_eq (s : State) (p : PortId) (e : SendEntry) :
    (s.hear p).abortedPassed p e = ((s.abortedRemoved p e).offerAttempt p).holdTest p := rfl

theorem abortedRemoved_sent {cut : List PressMessage} (h : Sent s (s.entryRemoved p e) p cut) :
    Sent s (s.abortedRemoved p e) p cut :=
  ((State.afterRemoval_keeps (s.entryRemoved p e) e.job).part .pressLog).trans h

/-- Settles O43: `exec_aborted` and `exec_refuse` reach the removal of the entry (`entryRemoved_port`), behind which the
feed owner attempts, or the refused job drops the feed (`refused_after`). -/
theorem abortedAndRefusedPagesGoBack : Obligations.AbortedAndRefusedPagesGoBack := by
  intro s p e front x cursor reason hup hserve hw hfront hx hcursor
  subst hx
  have hrewind := rewind_eq e.copy e.place hcursor
  refine ⟨fun he => ?_, fun he => ⟨_, exec_aborted hup hserve hw hfront he, s.abortedRemoved p e, ?_⟩,
    fun he howner hactive => ⟨_, exec_refuse hup hserve hw hfront (by rw [he]; exact nofun), ?_⟩⟩
  · rw [exec_refuse hup hserve hw hfront (by rw [he]; exact nofun), exec_aborted hup hserve hw hfront he,
      if_pos ((isAborting_iff e).2 he)]
  · have hn : e ∉ front := not_mem_of_taken hfront (by rw [he]; exact nofun)
    have hports : (s.abortedRemoved p e).ports = (s.entryRemoved p e).ports := afterRemoval_ports _ _
    have hport := entryRemoved_port hw hn
    have hwindow : (s.entryRemoved p e).ports[p].window = front := by rw [hport]
    have hothers : OtherPortsSame p s (s.entryRemoved p e) := fun q hq => entryRemoved_ports_ne hq
    have hafter := State.afterRemoval_keeps (s.entryRemoved p e) e.job
    have haccounts : (s.abortedRemoved p e).accounts = (s.entryRemoved p e).accounts := hafter.part .accounts
    have hself := entryRemoved_jobs_self s p e
    have hstate : (s.entryRemoved p e).jobs[e.job].state = s.jobs[e.job].state := by rw [hself, rewind_state]
    obtain ⟨cut, hcut, hnone, hsent⟩ := entryRemoved_sent s p e
    rw [abortedPassed_eq]
    refine ⟨by rw [hports, hport], fun q hq => by rw [hports]; exact hothers q hq,
      by rw [haccounts, entryRemoved_account], fun a ha => by rw [haccounts, entryRemoved_accounts_ne s p e a ha],
      fun k hk => (afterRemoval_jobs_ne hk).trans (entryRemoved_jobs_ne hk), fun h => ?_, fun h1 h2 h3 => ?_,
      ⟨cut, hcut, hnone, abortedRemoved_sent hsent⟩, abortedRemoved_keeps s p e, fun hfeed => ?_, fun j hfeed => ?_,
      ((State.offerAttempt_keeps _ p).trans (State.holdTest_keeps _ p)).mono⟩
    · unfold State.abortedRemoved
      rw [afterRemoval_jobs_stay (h.imp (hasEntries_of_front hwindow) fun h => by rwa [hstate]), hself, hrewind]
    · have hempty := no_entries_of_windows hwindow hothers h1 h2
      have hstay : s.jobs[e.job].rewind e.copy e.place = s.jobs[e.job] := if_pos h3
      unfold State.abortedRemoved
      rw [afterRemoval_cancelling hempty (hstate.trans h3), flagJob_jobs_self, hself, hstay]
      rfl
    · have hnoOwner : (s.abortedRemoved p e).ports[p].feedOwner = none := by rw [hports, hport]; exact hfeed
      rw [offerAttempt_unowned hnoOwner]
      obtain ⟨hunheld, hrest, hkept, -, -, hkeeps⟩ := holdTest_frame (s.abortedRemoved p e) p
      refine ⟨fun h => hunheld (by rw [hports, hport]; exact h), hrest, by rw [hkept, hports, hwindow],
        fun h => ?_, hkeeps⟩
      refine holdTest_sending ?_
      rw [hports, hport, h]
      exact if_pos rfl
    · have howner : (s.abortedRemoved p e).ports[p].feedOwner = some j := by rw [hports, hport]; exact hfeed
      rw [offerAttempt_holdTest howner]
      exact offerAttempt_attempted howner
  · have hn : e ∉ front := not_mem_of_taken hfront (by rw [he]; exact nofun)
    have hport := jobRefused_port (reason := reason) hw hn
    rw [if_neg (by rw [isAborting_iff, he]; exact nofun), refusePassed_owner howner hw hn]
    obtain ⟨hkeeps, hothers, hnotices, hwindow, hfree, hgone, hgoes⟩ := refused_after (s.jobRefused p reason e) p
    generalize ((s.jobRefused p reason e).feedReleased p).holdTest p = t at *
    have hjobs : t.jobs = (s.jobRefused p reason e).jobs := hkeeps.part .jobs
    have haccounts : t.accounts = (s.entryRemoved p e).accounts :=
      (hkeeps.part .accounts).trans ((jobRefused_keeps_removed s p reason e).part .accounts)
    obtain ⟨cut, hcut, hnone, hsent⟩ := entryRemoved_sent s p e
    refine ⟨by rw [hwindow, hport]; rfl, by rw [hfree, hport]; rfl,
      fun q hq => (hothers q hq).trans (jobRefused_ports_ne hq), fun h => hgone ?_, fun h hhold => ?_,
      by rw [haccounts, entryRemoved_account], fun a ha => by rw [haccounts, entryRemoved_accounts_ne s p e a ha],
      by rw [hjobs, jobRefused_jobs_self hrewind], fun k hk => by rw [hjobs, jobRefused_jobs_ne hk],
      fun h => hnotices _ (jobRefused_notices hrewind h), ⟨cut, hcut, hnone, ?_⟩,
      ((jobRefused_keeps s p reason e).trans hkeeps).mono⟩
    · rw [hport, h]
      exact if_pos rfl
    · rw [hgoes (by rw [hport]; exact hhold), hport]
      exact if_neg h
    · exact ((hkeeps.part .pressLog).trans ((jobRefused_keeps_removed s p reason e).part .pressLog)).trans hsent

end Sys2Proof.Machine
end

