-- ==== Sys2Proof/Proofs/WindowJobs.lean ====
section
/-! SUPPORT. The jobs of a settled window, one after the other (R13, R106, R151), and the port behind the settlement. -/

set_option Elab.async false

namespace Sys2Proof.Machine

open Sys2Proof.Safety

variable {s t u : State} {p q : PortId} {i j k : SlotId} {e : SendEntry} {es : List SendEntry} {js : List SlotId}
  {x y : Job} {f : State → SlotId → State}

-- ## The list of jobs

theorem entryJobs_fold_nodup (ks js : List SlotId) (h : js.Nodup) :
    (ks.foldl (fun js j => if js.contains j then js else js ++ [j]) js).Nodup := by
  induction ks generalizing js with
  | nil => exact h
  | cons k ks ih =>
    refine ih _ ?_
    beta_reduce
    split
    next => exact h
    next hk =>
      have hmem : k ∉ js := fun hc => hk (List.contains_iff_mem.2 hc)
      exact h.append (List.nodup_singleton k) (List.disjoint_singleton.2 hmem)

theorem entryJobs_nodup (es : List SendEntry) : (entryJobs es).Nodup := entryJobs_fold_nodup _ [] List.nodup_nil

theorem stoppedJobs_nodup (es : List SendEntry) (owner : Option SlotId) : (stoppedJobs es owner).Nodup := by
  unfold stoppedJobs
  split
  · exact entryJobs_nodup es
  · split
    next => exact entryJobs_nodup es
    next k hk =>
      have hmem : k ∉ entryJobs es := fun hc => hk (List.contains_iff_mem.2 hc)
      exact (entryJobs_nodup es).append (List.nodup_singleton k) (List.disjoint_singleton.2 hmem)

-- ## A fold over jobs, each of which is changed by its own step alone

theorem foldl_jobs_ne (hf : ∀ t i k, k ≠ i → (f t i).jobs[k] = t.jobs[k]) (hj : j ∉ js) :
    (js.foldl f s).jobs[j] = s.jobs[j] := by
  induction js generalizing s with
  | nil => rfl
  | cons i js ih =>
    rw [List.foldl_cons, ih fun hc => hj (List.mem_cons_of_mem i hc)]
    exact hf s i j fun hc => hj (hc ▸ List.mem_cons_self)

/-- A job's record behind the fold is the one that its own step leaves. -/
theorem foldl_jobs_once (hf : ∀ t i k, k ≠ i → (f t i).jobs[k] = t.jobs[k]) (hn : js.Nodup) (hj : j ∈ js) :
    ∃ front : List SlotId, j ∉ front ∧ (js.foldl f s).jobs[j] = (f (front.foldl f s) j).jobs[j] := by
  obtain ⟨front, back, rfl⟩ := List.append_of_mem hj
  rw [List.nodup_middle, List.nodup_cons, List.mem_append, not_or] at hn
  refine ⟨front, hn.1.1, ?_⟩
  rw [List.foldl_append, List.foldl_cons, foldl_jobs_ne hf hn.1.2]

-- ## The rewind to the oldest entry

/-- The job rewound to its oldest entry among those removed (R13). -/
def Job.rewound (es : List SendEntry) (j : SlotId) (x : Job) : Job :=
  match es.find? (fun e => e.job == j) with
  | none => x
  | some e => x.rewind e.copy e.place

theorem rewindTo_jobs_self (s : State) (j : SlotId) (es : List SendEntry) :
    (s.rewindTo j es).jobs[j] = s.jobs[j].rewound es j := by
  unfold State.rewindTo Job.rewound
  rcases h : es.find? (fun e => e.job == j) with _ | e
  · simp only [h]
  · simp only [h]
    exact State.updJob_jobs_self _ _ _

/-- A rewind writes the cursor alone. -/
theorem rewound_others (es : List SendEntry) (j : SlotId) (x : Job) : x.rewound es j =
    { x with cursorCopy := (x.rewound es j).cursorCopy, cursorPage := (x.rewound es j).cursorPage } := by
  unfold Job.rewound
  split
  · rfl
  · rw [rewind_eq _ _ rfl]

theorem rewound_cursor (s : State) (p : PortId) (j : SlotId) (h : es = s.ports[p].window)
    (hstate : x.state = s.jobs[j].state) (hcopy : x.cursorCopy = s.jobs[j].cursorCopy)
    (hpage : x.cursorPage = s.jobs[j].cursorPage) :
    ((x.rewound es j).cursorCopy, (x.rewound es j).cursorPage) = cursorAfter s p j := by
  subst h
  unfold Job.rewound cursorAfter
  rcases h : s.ports[p].window.find? (fun e => e.job == j) with _ | e
  · simp only [h]
    exact Prod.ext hcopy hpage
  · simp only [h]
    rw [rewind_eq _ _ rfl, hstate, hcopy, hpage]

-- ## The settled port

/-- The port's record `y` is that of `x` with the window settled, no entry confirmed, and the feed released. -/
structure Port.Settled (x y : Port) : Prop where
  window : y.window = []
  sending : y.sending = none
  owner : y.feedOwner = none
  starve : y.starveTimer = none
  owed : x.feedOwner ≠ none → y.releaseOwed = false
  serial : y.nextSerial = x.nextSerial
  lifetime : y.lifetime = x.lifetime.spoilAll x.window
  period : y.period = x.period.spoilAll x.window

theorem spoilAll_windowFaces (s : State) (p : PortId) (m : MeterSet) :
    m.spoilAll s.ports[p].window = { m with spoiled := (m.spoilAll s.ports[p].window).spoiled } ∧
      (m.spoiled < 1000000000 → (m.spoilAll s.ports[p].window).spoiled =
        (m.spoiled + windowFaces s p (fun e => e.state == .taken)) % 1000000000) :=
  ⟨m.spoilAll_others _, fun h => MeterSet.spoilAll_spoiled h _⟩

theorem windowSettled_of_port (hport : s.ports[p].Settled t.ports[p])
    (haccounts : ∀ a : AccountId, t.accounts[a] = { s.accounts[a] with
      reserved := s.accounts[a].reserved - windowFaces s p (fun e => s.jobs[e.job].account == a) }) :
    WindowSettled s t p := by
  obtain ⟨hlife, hlifeFaces⟩ := spoilAll_windowFaces s p s.ports[p].lifetime
  obtain ⟨hperiod, hperiodFaces⟩ := spoilAll_windowFaces s p s.ports[p].period
  refine ⟨hport.window, hport.sending, hport.owner, hport.starve, hport.owed, hport.serial, ?_, ?_, ?_, ?_, haccounts⟩
  · rw [hport.lifetime]
    exact hlife
  · rw [hport.period]
    exact hperiod
  · rw [hport.lifetime]
    exact hlifeFaces
  · rw [hport.period]
    exact hperiodFaces

/-- No starve timer runs at a port without a feed owner. -/
theorem starveTimer_none_of_unowned (h : FeedsAgree s) (ho : s.ports[p].feedOwner = none) :
    s.ports[p].starveTimer = none := by
  obtain ⟨-, -, -, -, -, hstarve, -⟩ := h
  by_contra hc
  obtain ⟨j, hj, -⟩ := hstarve p hc
  rw [ho] at hj
  cases hj

-- ## The jobs at the port

/-- The feed, if any, of a job at the port is the port's own. -/
theorem atPort_feed (h : FeedsAgree s) (hj : AtPort s p j) (hq : s.jobs[j].feedPort = some q) : q = p := by
  obtain ⟨howner, -, -, hentry, -⟩ := h
  rcases hj with ho | ⟨e, he, rfl⟩
  · rw [(howner p j).1 ho] at hq
    exact (Option.some.inj hq).symm
  · exact (hentry p q e he hq).symm

theorem atPort_unfed (h : FeedsAgree s) (hj : AtPort s p j) (ho : s.ports[p].feedOwner ≠ some j) :
    s.jobs[j].feedPort = none := by
  rcases hf : s.jobs[j].feedPort with _ | q
  · rfl
  · obtain rfl := atPort_feed h hj hf
    exact absurd ((h.1 q j).2 hf) ho

/-- A job without a feed is neither ACTIVE nor STARVED. -/
theorem unfed_state (h : FeedsAgree s) (hf : s.jobs[j].feedPort = none) :
    s.jobs[j].state ≠ .active ∧ s.jobs[j].state ≠ .starved :=
  ⟨fun hs => (h.2.1 j).2 (.inl hs) hf, fun hs => (h.2.1 j).2 (.inr hs) hf⟩

theorem owner_state (h : FeedsAgree s) (ho : s.ports[p].feedOwner = some j) :
    s.jobs[j].state = .active ∨ s.jobs[j].state = .starved :=
  (h.2.1 j).1 (by rw [(h.1 p j).1 ho]; exact nofun)

/-- The entries of a job at the port stand there. -/
theorem atPort_home (h : FeedsAgree s) (hj : AtPort s p j) (hq : q ≠ p) : ∀ e ∈ s.ports[q].window, e.job ≠ j := by
  obtain ⟨howner, -, hhome, hentry, -⟩ := h
  rintro f hf rfl
  rcases hj with ho | ⟨e, he, hej⟩
  · exact hq (hentry q p f hf ((howner p f.job).1 ho))
  · exact hq (hhome q p f e hf he hej.symm)

end Sys2Proof.Machine
end

