-- ==== Sys2Proof/Proofs/PortResetSteps.lean ====
section
/-! SUPPORT. A port whose send and setup hold end (R88, R98, R106, R183), and PORT_RESET (R106). -/

set_option Elab.async false

namespace Sys2Proof.Machine

open Sys2Proof.Safety

variable {s t u : State} {p q : PortId} {j k : SlotId} {es : List SendEntry} {x y : Job} {tag : Byte} {body : List Byte}

-- ## The send and the setup hold end

/-- The state in which the port's send has stopped and its setup hold has ended. -/
def State.quieted (s : State) (p : PortId) : State := (s.stopSend p).endSetup p

theorem stopSend_ports_self (s : State) (p : PortId) : (s.stopSend p).ports[p] = { s.ports[p] with sending := none } :=
  s.stopSend_ports_val p

theorem quieted_keeps (s : State) (p : PortId) :
    KeepsAllBut [.ports, .alerts, .openAlerts, .notices, .pressLog] s (s.quieted p) :=
  ((State.stopSend_keeps (s := s) p).trans (State.endSetup_keeps _ p)).mono

theorem quieted_port (s : State) (p : PortId) : ∃ (timer : Option Tick) (stall : Bool), (s.quieted p).ports[p] =
    { s.ports[p] with sending := none, setup := none, setupTimer := timer, stallReported := stall } := by
  have hstop := stopSend_ports_self s p
  unfold State.quieted
  by_cases h : (s.stopSend p).ports[p].setup = none
  · refine ⟨s.ports[p].setupTimer, s.ports[p].stallReported, ?_⟩
    rw [hstop] at h
    rw [endSetup_unheld (by rw [hstop]; exact h), hstop, ← h]
  · refine ⟨none, false, ?_⟩
    rw [endSetup_ports_self h, hstop]
    rfl

theorem quieted_ports_ne (h : q ≠ p) : (s.quieted p).ports[q] = s.ports[q] := by
  unfold State.quieted
  rw [endSetup_ports_ne h, State.stopSend_ports_ne _ _ _ h]

theorem quieted_alerts {a : AlertId} (h : a ≠ waitSlot p ∨ s.ports[p].setup = none) :
    (s.quieted p).alerts[a] = s.alerts[a] := by
  have hstop : (s.stopSend p).alerts = s.alerts := (State.stopSend_keeps (s := s) p).part .alerts
  unfold State.quieted
  rcases h with h | h
  · rw [endSetup_alerts_ne h, hstop]
  · rw [endSetup_unheld (by rw [stopSend_ports_self]; exact h), hstop]

theorem quieted_sent (s : State) (p : PortId) : ∃ cut, CutShort s p cut ∧ Sent s (s.quieted p) p cut :=
  ⟨s.stoppedData p, s.stoppedData_cutShort p, (State.endSetup_keeps (s.stopSend p) p).part .pressLog⟩

/-- The settlement of a quieted port. -/
theorem quieted_settled (s : State) (p : PortId) : ∃ (timer : Option Tick) (stall : Bool),
    ((s.quieted p).settleWindow p).ports[p] = { s.ports[p] with
      sending := none, setup := none, setupTimer := timer, stallReported := stall, window := []
      lifetime := s.ports[p].lifetime.spoilAll s.ports[p].window
      period := s.ports[p].period.spoilAll s.ports[p].window } := by
  obtain ⟨timer, stall, hport⟩ := quieted_port s p
  refine ⟨timer, stall, ?_⟩
  rw [State.settleWindow_ports_self, hport]

theorem quieted_accounts (s : State) (p : PortId) (a : AccountId) :
    ((s.quieted p).settleWindow p).accounts[a] = { s.accounts[a] with
      reserved := s.accounts[a].reserved - windowFaces s p (fun e => s.jobs[e.job].account == a) } := by
  obtain ⟨timer, stall, hport⟩ := quieted_port s p
  have hkeeps := quieted_keeps s p
  have hwindow : (s.quieted p).ports[p].window = s.ports[p].window := by rw [hport]
  have haccounts : (s.quieted p).accounts = s.accounts := hkeeps.part .accounts
  have hjobs : (s.quieted p).jobs = s.jobs := hkeeps.part .jobs
  rw [State.settleWindow_accounts, hwindow, haccounts, hjobs]
  rfl

-- ## A port's link

theorem holdTest_detached (h : s.ports[p].link = .up) : (s.holdTest p).ports[p].link = .up ∨
    hasBit (s.holdTest p).ports[p].flags 1 = true ∧ (s.holdTest p).ports[p].noticeOwed = true := by
  unfold State.holdTest
  split
  · rw [goDown_ports_up h]
    exact .inr ⟨by simp [PortFlag.bit], rfl⟩
  · exact .inl h

theorem serviceRelease_detached (h : s.ports[p].link = .up) : (s.serviceRelease p j).ports[p].link = .up ∨
    hasBit (s.serviceRelease p j).ports[p].flags 1 = true ∧ (s.serviceRelease p j).ports[p].noticeOwed = true := by
  refine holdTest_detached ?_
  rw [State.askIfClaimable_ports, releaseWaiting_ports, Fin.getElem_fin, State.releaseFeed_ports_val]
  exact h

theorem serviceRelease_sending (h : s.ports[p].sending = none) : (s.serviceRelease p j).ports[p].sending = none := by
  refine feedReleased_sending ?_
  rw [releaseWaiting_ports, Fin.getElem_fin, State.releaseFeed_ports_val]
  exact h

/-- A link that was UP when the reset began is flagged DETACHED when it probes (R89). -/
theorem enterProbing_detached
    (h : s.ports[p].link = .up ∨ hasBit s.ports[p].flags 1 = true ∧ s.ports[p].noticeOwed = true) :
    hasBit (s.enterProbing p).ports[p].flags 1 = true ∧ (s.enterProbing p).ports[p].noticeOwed = true := by
  rw [enterProbing_ports_self]
  dsimp only
  by_cases hup : s.ports[p].link = .up
  · rw [if_pos hup, hup]
    exact ⟨by simp, Bool.or_true _⟩
  · obtain ⟨hbit, howed⟩ := h.resolve_left hup
    rw [if_neg hup, howed]
    exact ⟨hbit, rfl⟩

-- ## The reset of the window

theorem resetWindow_eq (s : State) (p : PortId) : s.resetWindow p =
    (entryJobs s.ports[p].window).foldl (fun t j => t.rewindTo j s.ports[p].window) ((s.quieted p).settleWindow p) := by
  obtain ⟨timer, stall, hport⟩ := quieted_port s p
  have hwindow : (s.quieted p).ports[p].window = s.ports[p].window := by rw [hport]
  rw [← hwindow]
  rfl

/-- The rewinds write jobs alone. -/
theorem resetWindow_rest (s : State) (p : PortId) :
    KeepsAllBut [.jobs] ((s.quieted p).settleWindow p) (s.resetWindow p) := by
  rw [resetWindow_eq]
  exact .foldl (fun t j => t.rewindTo_keeps j _) _ _

theorem resetWindow_ports (s : State) (p : PortId) : (s.resetWindow p).ports = ((s.quieted p).settleWindow p).ports :=
  (resetWindow_rest s p).part .ports

theorem settled_jobs (s : State) (p : PortId) : ((s.quieted p).settleWindow p).jobs = s.jobs :=
  ((State.settleWindow_keeps (s.quieted p) p).part .jobs).trans ((quieted_keeps s p).part .jobs)

theorem resetWindow_jobs (s : State) (p : PortId) (j : SlotId) :
    (s.resetWindow p).jobs[j] = s.jobs[j].rewound s.ports[p].window j := by
  have hone : ∀ (t : State) (i k : SlotId), k ≠ i → (t.rewindTo i s.ports[p].window).jobs[k] = t.jobs[k] :=
    fun t i k h => State.rewindTo_jobs_ne _ k h
  rw [resetWindow_eq]
  by_cases hj : j ∈ entryJobs s.ports[p].window
  · obtain ⟨front, hn, hjob⟩ := foldl_jobs_once (s := (s.quieted p).settleWindow p) hone (entryJobs_nodup _) hj
    rw [hjob, rewindTo_jobs_self, foldl_jobs_ne hone hn, settled_jobs]
  · have hnone : s.ports[p].window.find? (fun e => e.job == j) = none := by
      rw [List.find?_eq_none]
      exact fun e he hej => hj ((State.mem_entryJobs _ _).2 ⟨e, he, beq_iff_eq.1 hej⟩)
    have hstay : s.jobs[j].rewound s.ports[p].window j = s.jobs[j] := by
      unfold Job.rewound
      simp only [hnone]
    rw [foldl_jobs_ne hone hj, settled_jobs, hstay]

-- ## The reset of the jobs

theorem resetJob_jobs_ne (h : k ≠ j) : (s.resetJob j).jobs[k] = s.jobs[k] := by
  unfold State.resetJob
  split
  · exact s.makeWaiting_jobs_ne _ _ _ h
  · exact s.makeWaiting_jobs_ne _ _ _ h
  · split
    · rfl
    · exact s.flagJob_jobs_ne _ _ _ h
  · rfl

theorem makeWaiting_jobs_self (s : State) (j : SlotId) (r : WaitReason) :
    (s.makeWaiting j r).jobs[j] = { s.jobs[j] with state := .waiting, reason := some r } :=
  (s.makeWaiting_jobs_val j r).trans rfl

/-- Step 3 of R106 on the record of a job that has no entry left. -/
theorem resetJob_jobs_self (h : s.hasEntries j = false) :
    (s.jobs[j].state = .waiting ∨ s.jobs[j].state = .handed →
      (s.resetJob j).jobs[j] = { s.jobs[j] with state := .waiting, reason := some .route }) ∧
    (s.jobs[j].state = .cancelling →
      (s.resetJob j).jobs[j] = { s.jobs[j] with flags := addBit s.jobs[j].flags 2, noticeOwed := true }) ∧
    (s.jobs[j].state ≠ .waiting → s.jobs[j].state ≠ .handed → s.jobs[j].state ≠ .cancelling →
      (s.resetJob j).jobs[j] = s.jobs[j]) := by
  unfold State.resetJob
  refine ⟨fun hs => ?_, fun hs => ?_, fun h1 h2 h3 => ?_⟩
  · rcases hs with hs | hs
    · rw [hs]
      exact makeWaiting_jobs_self s j .route
    · rw [hs]
      exact makeWaiting_jobs_self s j .route
  · rw [hs]
    dsimp only
    rw [if_neg (by rw [h]; decide), flagJob_jobs_self]
    rfl
  · split
    next hs => exact absurd hs h1
    next hs => exact absurd hs h2
    next hs => exact absurd hs h3
    next => rfl

/-- The state in which the feed of the reset port is released, before the other jobs change. -/
def State.resetFeed (s : State) (p : PortId) (owner : Option SlotId) : State :=
  match owner with
  | none => s
  | some j => s.serviceRelease p j

theorem resetJobs_eq (s : State) (p : PortId) (es : List SendEntry) (owner : Option SlotId) :
    s.resetJobs p es owner =
      ((entryJobs es).filter (fun j => owner != some j)).foldl (fun t j => t.resetJob j) (s.resetFeed p owner) := by
  unfold State.resetJobs State.resetFeed
  rcases owner with _ | j <;> rfl

theorem resetJobs_ports (s : State) (p : PortId) (es : List SendEntry) (owner : Option SlotId) :
    (s.resetJobs p es owner).ports = (s.resetFeed p owner).ports := by
  rw [resetJobs_eq]
  exact (KeepsAllBut.foldl (fun t j => t.resetJob_keeps j) _ _).part .ports

theorem resetFeed_ports_ne (owner : Option SlotId) (h : q ≠ p) : (s.resetFeed p owner).ports[q] = s.ports[q] := by
  unfold State.resetFeed
  split
  · rfl
  · exact serviceRelease_ports_ne h

theorem mem_resetJobs (es : List SendEntry) (owner : Option SlotId) (j : SlotId) :
    j ∈ (entryJobs es).filter (fun j => owner != some j) ↔ (∃ e ∈ es, e.job = j) ∧ owner ≠ some j := by
  rw [List.mem_filter, State.mem_entryJobs, bne_iff_ne]

theorem resetJobs_nodup (es : List SendEntry) (owner : Option SlotId) :
    ((entryJobs es).filter (fun j => owner != some j)).Nodup := (entryJobs_nodup es).filter _

/-- The job that held the feed waits for a route. -/
theorem resetJobs_owner (s : State) (p : PortId) (es : List SendEntry) (j : SlotId) :
    (s.resetJobs p es (some j)).jobs[j] =
      { s.jobs[j] with state := .waiting, reason := some .route, feedPort := none } := by
  rw [resetJobs_eq, foldl_jobs_ne (fun t i k h => resetJob_jobs_ne h) fun hc => ((mem_resetJobs _ _ _).1 hc).2 rfl]
  exact serviceRelease_jobs_self s p j

theorem resetFeed_jobs_ne {owner : Option SlotId} (h : owner ≠ some j) : (s.resetFeed p owner).jobs[j] = s.jobs[j] := by
  unfold State.resetFeed
  split
  · rfl
  · exact serviceRelease_jobs_ne fun hc => h (congrArg some hc.symm)

/-- A job that is not at the port stays. -/
theorem resetJobs_others {owner : Option SlotId} (h : owner ≠ some j) (hes : ∀ e ∈ es, e.job ≠ j) :
    (s.resetJobs p es owner).jobs[j] = s.jobs[j] := by
  rw [resetJobs_eq, foldl_jobs_ne (fun t i k h => resetJob_jobs_ne h), resetFeed_jobs_ne h]
  intro hc
  obtain ⟨⟨e, he, hej⟩, -⟩ := (mem_resetJobs _ _ _).1 hc
  exact hes e he hej

/-- A job with entries and without the feed takes its own step, of a state in which its record is as it was. -/
theorem resetJobs_entries {owner : Option SlotId} (h : owner ≠ some j) (hes : ∃ e ∈ es, e.job = j) : ∃ u : State,
    (s.resetJobs p es owner).jobs[j] = (u.resetJob j).jobs[j] ∧ u.jobs[j] = s.jobs[j] ∧
      u.ports = (s.resetFeed p owner).ports := by
  obtain ⟨front, hn, hjob⟩ := foldl_jobs_once (s := s.resetFeed p owner) (fun t i k h => resetJob_jobs_ne h)
    (resetJobs_nodup es owner) ((mem_resetJobs es owner j).2 ⟨hes, h⟩)
  refine ⟨_, by rw [resetJobs_eq, hjob], ?_, (KeepsAllBut.foldl (fun t j => t.resetJob_keeps j) front _).part .ports⟩
  rw [foldl_jobs_ne (fun t i k h => resetJob_jobs_ne h) hn, resetFeed_jobs_ne h]

end Sys2Proof.Machine
end

