-- ==== Sys2Proof/Proofs/PortResetStatement.lean ====
section
/-! SUPPORT. The statement on PORT_RESET (R106). -/

set_option Elab.async false

namespace Sys2Proof.Machine

open Sys2Proof.Safety

variable {s t u : State} {p q : PortId} {j k : SlotId} {tag : Byte} {body : List Byte}

/-- The state in which the window is reset and its jobs have changed, before the link probes (R106). -/
def State.resetSettled (s : State) (p : PortId) : State :=
  (s.resetWindow p).resetJobs p s.ports[p].window s.ports[p].feedOwner

/-- The port that the reset leaves to its link. -/
def Port.cleared (x : Port) : Port := { x with holdAsked := false, downCause := none, receiver := .hunt }

theorem portReset_eq (s : State) (p : PortId) :
    s.portReset p = ((s.resetSettled p).updPort p Port.cleared).enterProbing p := rfl

-- ## The port

/-- The port's record behind the reset of its window and jobs. -/
theorem resetSettled_port (hf : FeedsAgree s) (p : PortId) : s.ports[p].Settled (s.resetSettled p).ports[p] ∧
    (s.resetSettled p).ports[p].setup = none ∧ (s.resetSettled p).ports[p].inService = s.ports[p].inService ∧
    (s.resetSettled p).ports[p].ident = s.ports[p].ident ∧ (s.resetSettled p).ports[p].loaded = s.ports[p].loaded ∧
    (s.resetSettled p).ports[p].status = s.ports[p].status := by
  obtain ⟨timer, stall, hport⟩ := quieted_settled s p
  rw [← resetWindow_ports] at hport
  unfold State.resetSettled
  rw [resetJobs_ports]
  rcases ho : s.ports[p].feedOwner with _ | j
  · change s.ports[p].Settled (s.resetWindow p).ports[p] ∧ (s.resetWindow p).ports[p].setup = none ∧ _
    rw [State.resetFeed, hport]
    exact ⟨⟨rfl, rfl, ho, starveTimer_none_of_unowned hf ho, fun hn => absurd ho hn, rfl, rfl, rfl⟩, rfl, rfl,
      rfl, rfl, rfl⟩
  · obtain ⟨_, _, _, _, _, _, hfree⟩ := serviceRelease_ports_self (s.resetWindow p) p j
    have hsend := serviceRelease_sending (s := s.resetWindow p) (p := p) (j := j) (by rw [hport])
    rw [hport] at hfree
    rw [hfree] at hsend
    rw [State.resetFeed, hfree]
    exact ⟨⟨rfl, hsend, rfl, rfl, fun _ => rfl, rfl, rfl, rfl⟩, rfl, rfl, rfl, rfl, rfl⟩

theorem resetSettled_detached (h : s.ports[p].link = .up) : (s.resetSettled p).ports[p].link = .up ∨
    hasBit (s.resetSettled p).ports[p].flags 1 = true ∧ (s.resetSettled p).ports[p].noticeOwed = true := by
  obtain ⟨timer, stall, hport⟩ := quieted_settled s p
  rw [← resetWindow_ports] at hport
  have hup : (s.resetWindow p).ports[p].link = .up := by rw [hport]; exact h
  unfold State.resetSettled
  rw [resetJobs_ports]
  rcases s.ports[p].feedOwner with _ | j
  · exact .inl hup
  · exact serviceRelease_detached hup

theorem resetSettled_ports_ne (h : q ≠ p) : (s.resetSettled p).ports[q] = s.ports[q] := by
  unfold State.resetSettled
  rw [resetJobs_ports, resetFeed_ports_ne _ h, resetWindow_ports, State.settleWindow_ports_ne h, quieted_ports_ne h]

-- ## The jobs

/-- The job behind the reset of the port at which it stood (R13, R106). -/
structure ResetJob (s t : State) (p : PortId) (j : SlotId) : Prop where
  feed : t.jobs[j].feedPort = none
  exclusion : t.jobs[j].exclusion = s.jobs[j].exclusion
  cursor : (t.jobs[j].cursorCopy, t.jobs[j].cursorPage) = cursorAfter s p j
  goes : goesBack s.jobs[j] → t.jobs[j].state = .waiting ∧ t.jobs[j].reason = some .route ∧
    t.jobs[j].flags = s.jobs[j].flags
  error : s.jobs[j].state = .error → t.jobs[j].state = .error ∧ t.jobs[j].flags = s.jobs[j].flags
  cancelling : s.jobs[j].state = .cancelling → t.jobs[j].state = .cancelling ∧ hasBit t.jobs[j].flags 2 = true

theorem resetSettled_owner (hf : FeedsAgree s) (ho : s.ports[p].feedOwner = some j) :
    ResetJob s (s.resetSettled p) p j := by
  have hstate := owner_state hf ho
  have hjob : (s.resetSettled p).jobs[j] = { s.jobs[j].rewound s.ports[p].window j with
      state := .waiting, reason := some .route, feedPort := none } := by
    unfold State.resetSettled
    rw [ho, resetJobs_owner, resetWindow_jobs]
  have hothers := rewound_others s.ports[p].window j s.jobs[j]
  have hcursor := rewound_cursor s p j rfl (x := s.jobs[j]) rfl rfl rfl
  refine ⟨by rw [hjob], ?_, by rw [hjob, ← hcursor], fun _ => ⟨by rw [hjob], by rw [hjob], ?_⟩, fun he => ?_,
    fun he => ?_⟩
  · rw [hjob, hothers]
  · rw [hjob, hothers]
  · rw [he] at hstate
    exact absurd hstate (by decide)
  · rw [he] at hstate
    exact absurd hstate (by decide)

theorem resetSettled_entry (hf : FeedsAgree s) (ho : s.ports[p].feedOwner ≠ some j)
    (hes : ∃ e ∈ s.ports[p].window, e.job = j) : ResetJob s (s.resetSettled p) p j := by
  obtain ⟨u, hjob, hu, hports⟩ := resetJobs_entries (s := s.resetWindow p) (p := p) ho hes
  change (s.resetSettled p).jobs[j] = _ at hjob
  have hothers := rewound_others s.ports[p].window j s.jobs[j]
  have hcursor := rewound_cursor s p j rfl (x := s.jobs[j]) rfl rfl rfl
  rw [resetWindow_jobs] at hu
  generalize s.jobs[j].rewound s.ports[p].window j = x at hu hothers hcursor
  have hstate : u.jobs[j].state = s.jobs[j].state := by rw [hu, hothers]
  have hfeed : u.jobs[j].feedPort = none := by
    rw [hu, hothers]
    exact atPort_unfed hf (.inr hes) ho
  have hwindow : u.ports[p].window = [] := by
    have hsettled := (resetSettled_port hf p).1.window
    unfold State.resetSettled at hsettled
    rwa [hports, ← resetJobs_ports (es := s.ports[p].window)]
  have hempty : u.hasEntries j = false :=
    no_entries_of_windows (s := s) (p := p) hwindow (fun q hq => by
      rw [hports, resetFeed_ports_ne _ hq, resetWindow_ports, State.settleWindow_ports_ne hq, quieted_ports_ne hq])
      (fun f hfm => absurd hfm List.not_mem_nil) fun q hq => atPort_home hf (.inr hes) hq
  obtain ⟨hwaits, hcancels, hstays⟩ := resetJob_jobs_self hempty
  obtain ⟨hactive, hstarved⟩ := unfed_state hf (atPort_unfed hf (.inr hes) ho)
  rw [hstate] at hwaits hcancels hstays
  rw [hu] at hwaits hcancels hstays hfeed
  by_cases hw : s.jobs[j].state = .waiting ∨ s.jobs[j].state = .handed
  · have hrecord := hjob.trans (hwaits hw)
    refine ⟨by rw [hrecord, ← hfeed], by rw [hrecord, hothers], by rw [hrecord, ← hcursor],
      fun _ => ⟨by rw [hrecord], by rw [hrecord], by rw [hrecord, hothers]⟩, fun he => ?_, fun he => ?_⟩
    · rw [he] at hw
      exact absurd hw (by decide)
    · rw [he] at hw
      exact absurd hw (by decide)
  · obtain ⟨hnw, hnh⟩ := not_or.1 hw
    have hback : ¬goesBack s.jobs[j] := fun hg => by
      rcases hg with h | h | h | h
      · exact hactive h
      · exact hstarved h
      · exact hnw h
      · exact hnh h
    by_cases hc : s.jobs[j].state = .cancelling
    · have hrecord := hjob.trans (hcancels hc)
      refine ⟨by rw [hrecord, ← hfeed], by rw [hrecord, hothers], by rw [hrecord, ← hcursor],
        fun hg => absurd hg hback, fun he => ?_,
        fun _ => ⟨by rw [hrecord, hothers, ← hc], by rw [hrecord]; simp⟩⟩
      rw [he] at hc
      cases hc
    · have hrecord := hjob.trans (hstays hnw hnh hc)
      exact ⟨by rw [hrecord, ← hfeed], by rw [hrecord, hothers], by rw [hrecord, ← hcursor], fun hg => absurd hg hback,
        fun he => ⟨by rw [hrecord, hothers, he], by rw [hrecord, hothers]⟩, fun h => absurd h hc⟩

/-- A job at the port is reset by the step that its hold on the port gives it. -/
theorem resetSettled_atPort (hf : FeedsAgree s) (hj : AtPort s p j) : ResetJob s (s.resetSettled p) p j := by
  by_cases ho : s.ports[p].feedOwner = some j
  · exact resetSettled_owner hf ho
  · exact resetSettled_entry hf ho (hj.resolve_left ho)

theorem resetSettled_away (hj : ¬AtPort s p j) : (s.resetSettled p).jobs[j] = s.jobs[j] := by
  obtain ⟨ho, hes⟩ := not_or.1 hj
  have hnone : s.ports[p].window.find? (fun e => e.job == j) = none := by
    rw [List.find?_eq_none]
    exact fun e he hej => hes ⟨e, he, beq_iff_eq.1 hej⟩
  unfold State.resetSettled
  rw [resetJobs_others ho fun e he hej => hes ⟨e, he, hej⟩, resetWindow_jobs]
  unfold Job.rewound
  simp only [hnone]

-- ## The rest

theorem resetJobs_rest (s : State) (p : PortId) :
    KeepsAllBut [.jobs, .ports, .notices, .passInProgress, .passOwed] ((s.quieted p).settleWindow p)
      (s.resetSettled p) :=
  ((resetWindow_rest s p).trans (State.resetJobs_keeps _ p _ _)).mono

theorem resetSettled_accounts (s : State) (p : PortId) (a : AccountId) : (s.resetSettled p).accounts[a] =
    { s.accounts[a] with
      reserved := s.accounts[a].reserved - windowFaces s p (fun e => s.jobs[e.job].account == a) } := by
  have haccounts : (s.resetSettled p).accounts = ((s.quieted p).settleWindow p).accounts :=
    (resetJobs_rest s p).part .accounts
  rw [haccounts, quieted_accounts]

/-- What the reset writes behind the settlement. -/
theorem portReset_probes (s : State) (p : PortId) : KeepsAllBut [.ports, .pressLog, .notices] (s.resetSettled p)
    (s.portReset p) := by
  rw [portReset_eq]
  exact ((State.updPort_keeps _ p _).trans (State.enterProbing_keeps _ p)).mono

theorem portReset_sent (s : State) (p : PortId) :
    ∃ cut, CutShort s p cut ∧ Sent s (s.portReset p) p (cut ++ [.probe]) := by
  obtain ⟨cut, hcut, hsent⟩ := quieted_sent s p
  refine ⟨cut, hcut, ?_⟩
  have hrest : (s.resetSettled p).pressLog = (s.quieted p).pressLog :=
    ((resetJobs_rest s p).part .pressLog).trans ((State.settleWindow_keeps (s.quieted p) p).part .pressLog)
  have hprobe := enterProbing_sent ((s.resetSettled p).updPort p Port.cleared) p
  unfold Sent at hsent hprobe ⊢
  rw [portReset_eq, hprobe, State.updPort_pressLog, hrest, hsent, List.map_append, List.append_assoc]

theorem portReset_port (s : State) (p : PortId) : ∃ (flags : BitVec 3) (owed : Bool),
    (s.portReset p).ports[p] = { (s.resetSettled p).ports[p] with
      holdAsked := false, receiver := .hunt, link := .probing, downCause := none, rateWindow := none
      probeDue := s.clock + 10, flags := flags, noticeOwed := owed } := by
  have hhunt : (if (s.resetSettled p).ports[p].cleared.link = .down then Checker.hunt
      else (s.resetSettled p).ports[p].cleared.receiver) = .hunt := ite_self _
  have hclock : ((s.resetSettled p).updPort p Port.cleared).clock = s.clock :=
    ((resetJobs_rest s p).part .clock).trans (((State.settleWindow_keeps (s.quieted p) p).part .clock).trans
      ((quieted_keeps s p).part .clock))
  rw [portReset_eq, enterProbing_ports_self, hclock, State.updPort_ports_self]
  exact ⟨_, _, by rw [hhunt]; rfl⟩

theorem portReset_detached (h : s.ports[p].link = .up) : hasBit (s.portReset p).ports[p].flags 1 = true ∧
    (s.portReset p).ports[p].noticeOwed = true := by
  rw [portReset_eq]
  refine enterProbing_detached ?_
  rw [State.updPort_ports_self]
  exact resetSettled_detached h

theorem portReset_ports_ne (h : q ≠ p) : (s.portReset p).ports[q] = s.ports[q] := by
  rw [portReset_eq, enterProbing_ports_ne h, State.updPort_ports_ne _ _ _ _ h, resetSettled_ports_ne h]

theorem portReset_alerts {a : AlertId} (h : a ≠ waitSlot p ∨ s.ports[p].setup = none) :
    (s.portReset p).alerts[a] = s.alerts[a] := by
  have halerts : (s.portReset p).alerts = (s.quieted p).alerts :=
    ((portReset_probes s p).part .alerts).trans (((resetJobs_rest s p).part .alerts).trans
      ((State.settleWindow_keeps (s.quieted p) p).part .alerts))
  rw [halerts, quieted_alerts h]

theorem judgePortReset_eq (h : (byteAt body 0).toNat = p.val) : judgePortReset body s = ok (s.portReset p) [] := by
  unfold judgePortReset
  rw [portOf_eq h]
  rfl

theorem judgePortReset_refused (h : 15 < (byteAt body 0).toNat) : judgePortReset body s = .refused .range := by
  unfold judgePortReset
  rw [portOf_none h]
  rfl

theorem portReset_settled (hf : FeedsAgree s) (p : PortId) : WindowSettled s (s.portReset p) p := by
  obtain ⟨flags, owed, hport⟩ := portReset_port s p
  have hsettled := (resetSettled_port hf p).1
  have haccounts : (s.portReset p).accounts = (s.resetSettled p).accounts := (portReset_probes s p).part .accounts
  refine windowSettled_of_port ?_ fun a => by rw [haccounts, resetSettled_accounts]
  rw [hport]
  exact ⟨hsettled.window, hsettled.sending, hsettled.owner, hsettled.starve, hsettled.owed, hsettled.serial,
    hsettled.lifetime, hsettled.period⟩

/-- What the reset leaves of the port besides its window. -/
theorem portReset_fields (hf : FeedsAgree s) (p : PortId) : (s.portReset p).ports[p].setup = none ∧
    (s.portReset p).ports[p].holdAsked = false ∧ (s.portReset p).ports[p].link = .probing ∧
    (s.portReset p).ports[p].downCause = none ∧ (s.portReset p).ports[p].probeDue = s.clock + 10 ∧
    (s.ports[p].link = .up → hasBit (s.portReset p).ports[p].flags 1 = true ∧
      (s.portReset p).ports[p].noticeOwed = true) ∧
    (s.portReset p).ports[p].inService = s.ports[p].inService ∧ (s.portReset p).ports[p].ident = s.ports[p].ident ∧
    (s.portReset p).ports[p].loaded = s.ports[p].loaded ∧ (s.portReset p).ports[p].status = s.ports[p].status ∧
    (s.portReset p).ports[p].receiver = .hunt := by
  have hdetached := portReset_detached (s := s) (p := p)
  obtain ⟨flags, owed, hport⟩ := portReset_port s p
  obtain ⟨-, hsetup, hin, hident, hloaded, hstatus⟩ := resetSettled_port hf p
  rw [hport] at hdetached ⊢
  exact ⟨hsetup, rfl, rfl, rfl, rfl, hdetached, hin, hident, hloaded, hstatus, rfl⟩

theorem portReset_jobs (s : State) (p : PortId) : (s.portReset p).jobs = (s.resetSettled p).jobs :=
  (portReset_probes s p).part .jobs

theorem portReset_away (hj : ¬AtPort s p j) : (s.portReset p).jobs[j] = s.jobs[j] := by
  rw [portReset_jobs, resetSettled_away hj]

theorem portReset_atPort (hf : FeedsAgree s) (hj : AtPort s p j) : ResetJob s (s.portReset p) p j := by
  obtain ⟨h1, h2, h3, h4, h5, h6⟩ := resetSettled_atPort hf hj
  rw [← portReset_jobs] at h1 h2 h3 h4 h5 h6
  exact ⟨h1, h2, h3, h4, h5, h6⟩

/-- Settles O34: `portReset_settled` and `portReset_atPort` for the settled window and its jobs, `portReset_fields` for
the link that probes. -/
theorem portResetSettlesItsPort : Obligations.PortResetSettlesItsPort := by
  intro s tag body ht hlen
  have hsize : sized 1 body = true := (sized_iff 1).2 hlen
  refine ⟨fun h => exec_refused rfl ht hsize (judgePortReset_refused h), fun p hp hf => ?_⟩
  have hfeeds : FeedsAgree s.popInbox := hf
  have hjudged := judgePortReset_eq (s := s.popInbox) hp
  have hkeeps := s.popInbox.portReset_keeps p
  have hfields := portReset_fields hfeeds p
  have hsettled := portReset_settled hfeeds p
  have hsent := portReset_sent s.popInbox p
  have hothers := fun q => portReset_ports_ne (s := s.popInbox) (p := p) (q := q)
  have haway := fun j => portReset_away (s := s.popInbox) (p := p) (j := j)
  have halerts := fun a => portReset_alerts (s := s.popInbox) (p := p) (a := a)
  have hjobs := fun j => portReset_atPort (j := j) hfeeds (p := p)
  generalize s.popInbox.portReset p = u at *
  obtain ⟨hsetup, hheld, hlink, hcause, hdue, hdetached, hin, hident, hloaded, hstatus, hhunt⟩ := hfields
  refine completes_ok rfl ht hsize hjudged hkeeps fun hr hk => ?_
  refine ⟨hr, hsettled, hsetup, hheld, hlink, hcause, hdue, hdetached, hin, hident, hloaded, hstatus, hhunt,
    hsent, hothers,
    fun j hj => ?_, haway, halerts, hk.mono⟩
  obtain ⟨hfeed, hexclusion, hcursor, hgoes, herror, hcancelling⟩ := hjobs j hj
  exact ⟨hfeed, hexclusion, hcursor, hgoes, herror, hcancelling⟩

end Sys2Proof.Machine
end

