-- ==== Sys2Proof/Proofs/StoppedJobs.lean ====
section
/-! SUPPORT. The jobs stopped by an alert (R151, R152), and the port whose window the alert settles (R150). -/

set_option Elab.async false

namespace Sys2Proof.Machine

open Sys2Proof.Safety

variable {s t u : State} {p q : PortId} {i j k : SlotId} {es : List SendEntry} {js front back : List SlotId}
  {x y : Job} {tick : Tick} {b : Bool}

-- ## One stopped job's record

/-- Step 3 of R151 on the record of a job without entries. -/
def Job.stopAt (x : Job) : Job :=
  match x.state with
  | .active | .starved | .waiting | .handed => { x with state := .waiting, reason := some .jam }
  | .cancelling => { x with flags := addBit x.flags 2, noticeOwed := true }
  | .error | .free | .done => x

/-- Step 5 of R151 on a job's record. -/
def Job.rerouted (b : Bool) (x : Job) : Job := if b then { x with flags := addBit x.flags 6, noticeOwed := true } else x

/-- Steps 1 to 5 of R151 on the record of a job whose entries `es` have left. -/
def Job.stopped (p : PortId) (es : List SendEntry) (j : SlotId) (tick : Tick) (b : Bool) (x : Job) : Job :=
  Job.rerouted b { (Job.rewound es j { x with feedPort := none }).stopAt with
    exclusion := some { port := p, tick := tick } }

theorem stopAt_waits (h : goesBack x) : x.stopAt = { x with state := .waiting, reason := some .jam } := by
  unfold Job.stopAt
  rcases h with h | h | h | h <;> rw [h]

theorem stopAt_cancels (h : x.state = .cancelling) :
    x.stopAt = { x with flags := addBit x.flags 2, noticeOwed := true } := by
  unfold Job.stopAt
  rw [h]

theorem stopAt_stays (h : ¬goesBack x) (hc : x.state ≠ .cancelling) : x.stopAt = x := by
  unfold goesBack at h
  unfold Job.stopAt
  rcases hs : x.state with _ | _ | _ | _ | _ | _ | _ | _ <;> rw [hs] at h hc <;> simp_all

/-- The stop leaves these fields of the record. -/
theorem stopAt_others (x : Job) : x.stopAt.feedPort = x.feedPort ∧ x.stopAt.cursorCopy = x.cursorCopy ∧
    x.stopAt.cursorPage = x.cursorPage ∧ x.stopAt.started = x.started ∧ x.stopAt.proofRun = x.proofRun ∧
    x.stopAt.charge = x.charge ∧ x.stopAt.generation = x.generation ∧ x.stopAt.queue = x.queue ∧
    x.stopAt.sheets = x.sheets ∧ x.stopAt.faces = x.faces := by
  unfold Job.stopAt
  split <;> exact ⟨rfl, rfl, rfl, rfl, rfl, rfl, rfl, rfl, rfl, rfl⟩

theorem stopAt_flags (x : Job) : hasBit x.stopAt.flags 2 = (hasBit x.flags 2 || x.state == .cancelling) ∧
    hasBit x.stopAt.flags 6 = hasBit x.flags 6 := by
  by_cases hc : x.state = .cancelling
  · rw [stopAt_cancels hc, hc]
    simp
  · have hflags : x.stopAt.flags = x.flags := by
      by_cases hg : goesBack x
      · rw [stopAt_waits hg]
      · rw [stopAt_stays hg hc]
    rw [hflags, beq_eq_false_iff_ne.2 hc, Bool.or_false]
    exact ⟨rfl, rfl⟩

/-- Flagging REROUTED leaves every field but the flags and the notice. -/
theorem rerouted_others (b : Bool) (x : Job) :
    x.rerouted b = { x with flags := (x.rerouted b).flags, noticeOwed := (x.rerouted b).noticeOwed } := by
  rcases b with _ | _ <;> rfl

theorem rerouted_flags (b : Bool) (x : Job) : hasBit (x.rerouted b).flags 2 = hasBit x.flags 2 ∧
    hasBit (x.rerouted b).flags 6 = (hasBit x.flags 6 || b) := by
  rcases b with _ | _
  · exact ⟨rfl, (Bool.or_false _).symm⟩
  · unfold Job.rerouted
    simp

theorem stopped_generation (p : PortId) (es : List SendEntry) (j : SlotId) (tick : Tick) (b : Bool) (x : Job) :
    (x.stopped p es j tick b).generation = x.generation := by
  unfold Job.stopped
  rw [rerouted_others]
  obtain ⟨-, -, -, -, -, -, hgeneration, -⟩ := stopAt_others (Job.rewound es j { x with feedPort := none })
  refine hgeneration.trans ?_
  rw [rewound_others]

-- ## One stopped job

theorem releaseIfOwner_jobs_self (h : s.ports[p].feedOwner = some j ∨ s.jobs[j].feedPort = none) :
    (s.releaseIfOwner p j).jobs[j] = { s.jobs[j] with feedPort := none } := by
  unfold State.releaseIfOwner
  split
  next => exact s.releaseFeed_jobs_val p j
  next hn => rw [← h.resolve_left hn]

theorem stopState_jobs_self (h : s.hasEntries j = false) : (s.stopState j).jobs[j] = s.jobs[j].stopAt := by
  by_cases hg : goesBack s.jobs[j]
  · rw [State.stopState_waits hg, makeWaiting_jobs_self, stopAt_waits hg]
  by_cases hc : s.jobs[j].state = .cancelling
  · unfold State.stopState
    rw [stopAt_cancels hc, hc]
    dsimp only
    rw [if_neg (by rw [h]; decide), flagJob_jobs_self]
    rw [← hc]
    rfl
  · rw [stopAt_stays hg hc]
    unfold State.stopState
    split
    next hs => exact absurd (.inl hs) hg
    next hs => exact absurd (.inr (.inl hs)) hg
    next hs => exact absurd (.inr (.inr (.inl hs))) hg
    next hs => exact absurd (.inr (.inr (.inr hs))) hg
    next hs => exact absurd hs hc
    all_goals rfl

theorem flagReroute_jobs_self (s : State) (j : SlotId) :
    (s.flagReroute j).jobs[j] = s.jobs[j].rerouted s.queues[s.jobs[j].queue].reroute := by
  unfold State.flagReroute Job.rerouted
  split
  next => rw [flagJob_jobs_self]; rfl
  next => rfl

theorem stopJob_jobs (s : State) (p : PortId) (es : List SendEntry) (j : SlotId) : (s.stopJob p es j).jobs =
    (((((s.releaseIfOwner p j).rewindTo j es).stopState j).excludeJob p j).flagReroute j).jobs :=
  (State.listAffected_keeps _ p j).part .jobs

/-- The record of a stopped job, steps 1 to 5 of R151. -/
theorem stopJob_jobs_self (hfeed : s.ports[p].feedOwner = some j ∨ s.jobs[j].feedPort = none)
    (hempty : s.hasEntries j = false) : (s.stopJob p es j).jobs[j] =
      s.jobs[j].stopped p es j s.rerouteAt s.queues[s.jobs[j].queue].reroute := by
  have hentries : ((s.releaseIfOwner p j).rewindTo j es).hasEntries j = false := by
    rw [← hempty]
    refine hasEntries_congr (fun q => ?_) j
    rw [(State.rewindTo_keeps _ j es).part .ports, State.releaseIfOwner_window]
  have hstopped : ((((s.releaseIfOwner p j).rewindTo j es).stopState j).excludeJob p j).jobs[j] =
      { (Job.rewound es j { s.jobs[j] with feedPort := none }).stopAt with
        exclusion := some { port := p, tick := (((s.releaseIfOwner p j).rewindTo j es).stopState j).rerouteAt } } := by
    unfold State.excludeJob
    rw [State.updJob_jobs_self, stopState_jobs_self hentries, rewindTo_jobs_self, releaseIfOwner_jobs_self hfeed]
  have hkeeps := ((State.releaseIfOwner_keeps (s := s) p j).trans (State.rewindTo_keeps _ j es)).trans
    (State.stopState_keeps _ j)
  have htick : (((s.releaseIfOwner p j).rewindTo j es).stopState j).rerouteAt = s.rerouteAt := by
    unfold State.rerouteAt
    rw [hkeeps.part .clock, hkeeps.part .timers]
  have hqueues : ((((s.releaseIfOwner p j).rewindTo j es).stopState j).excludeJob p j).queues = s.queues :=
    (hkeeps.trans (State.excludeJob_keeps _ p j)).part .queues
  have hqueue : ((((s.releaseIfOwner p j).rewindTo j es).stopState j).excludeJob p j).jobs[j].queue =
      s.jobs[j].queue := by
    obtain ⟨-, -, -, -, -, -, -, hq, -⟩ := stopAt_others (Job.rewound es j { s.jobs[j] with feedPort := none })
    rw [hstopped]
    refine hq.trans ?_
    rw [rewound_others]
  rw [stopJob_jobs, flagReroute_jobs_self, Job.stopped, ← htick, ← hstopped]
  simp only [hqueues, hqueue]

/-- What the claims on a stopped job say of its record (R13, R151). -/
structure StoppedJob (s : State) (p : PortId) (j : SlotId) (cursor : Nat × Nat) (y : Job) : Prop where
  feed : y.feedPort = none
  cursor : (y.cursorCopy, y.cursorPage) = cursor
  exclusion : y.exclusion = some { port := p, tick := s.clock + BitVec.ofNat 32 (10 * s.timers.reroute) }
  goes : goesBack s.jobs[j] → y.state = .waiting ∧ y.reason = some .jam
  stays : s.jobs[j].state = .error ∨ s.jobs[j].state = .cancelling → y.state = s.jobs[j].state
  cancelled : hasBit y.flags 2 = (hasBit s.jobs[j].flags 2 || s.jobs[j].state == .cancelling)
  rerouted : hasBit y.flags 6 = (hasBit s.jobs[j].flags 6 || s.queues[s.jobs[j].queue].reroute)
  started : y.started = s.jobs[j].started
  proof : y.proofRun = s.jobs[j].proofRun
  charge : y.charge = s.jobs[j].charge

theorem stoppedJob_of_record (s : State) (p : PortId) (j : SlotId) (h : es = s.ports[p].window) :
    StoppedJob s p j (cursorAfter s p j)
      (s.jobs[j].stopped p es j s.rerouteAt s.queues[s.jobs[j].queue].reroute) := by
  have hcursor := rewound_cursor s p j h (x := { s.jobs[j] with feedPort := none }) rfl rfl rfl
  have hothers := rewound_others es j { s.jobs[j] with feedPort := none }
  unfold Job.stopped
  generalize Job.rewound es j { s.jobs[j] with feedPort := none } = x at hcursor hothers ⊢
  have hstate : x.state = s.jobs[j].state := by rw [hothers]
  have hflags : x.flags = s.jobs[j].flags := by rw [hothers]
  obtain ⟨hfeed, hcopy, hpage, hstarted, hproof, hcharge, -⟩ := stopAt_others x
  obtain ⟨hcancelled, hkept⟩ := stopAt_flags x
  obtain ⟨h2, h6⟩ := rerouted_flags s.queues[s.jobs[j].queue].reroute { x.stopAt with
    exclusion := some { port := p, tick := s.rerouteAt } }
  have hrest := rerouted_others s.queues[s.jobs[j].queue].reroute { x.stopAt with
    exclusion := some { port := p, tick := s.rerouteAt } }
  generalize Job.rerouted s.queues[s.jobs[j].queue].reroute _ = y at h2 h6 hrest ⊢
  refine ⟨?_, ?_, ?_, fun hg => ?_, fun he => ?_, ?_, ?_, ?_, ?_, ?_⟩
  · rw [hrest]
    refine hfeed.trans ?_
    rw [hothers]
  · rw [hrest, ← hcursor]
    exact Prod.ext hcopy hpage
  · rw [hrest]
    rfl
  · have hback : goesBack x := by
      unfold goesBack
      rwa [hstate]
    rw [hrest, stopAt_waits hback]
    exact ⟨rfl, rfl⟩
  · rw [hrest, ← hstate]
    rw [← hstate] at he
    by_cases hc : x.state = .cancelling
    · rw [stopAt_cancels hc]
    · have hback : ¬goesBack x := by
        unfold goesBack
        rw [he.resolve_right hc]
        decide
      rw [stopAt_stays hback hc]
  · rw [h2, ← hflags, ← hstate]
    exact hcancelled
  · rw [h6, ← hflags]
    exact congrArg (· || _) hkept
  · rw [hrest]
    refine hstarted.trans ?_
    rw [hothers]
  · rw [hrest]
    refine hproof.trans ?_
    rw [hothers]
  · rw [hrest]
    refine hcharge.trans ?_
    rw [hothers]

end Sys2Proof.Machine
end

