-- ==== Sys2Proof/Proofs/StopSettlement.lean ====
section
/-! SUPPORT. The settlement that a stop condition makes (R150, R151), in a state where feeds and windows agree. -/

set_option Elab.async false

namespace Sys2Proof.Machine

open Sys2Proof.Safety

variable {s t u : State} {p q : PortId} {i j k : SlotId} {es : List SendEntry} {js front back : List SlotId}
  {a : AlertId} {h : Handle}

-- ## The fold over the stopped jobs

/-- The jobs of a list are stopped, one after the other. -/
def State.stopJobs (s : State) (p : PortId) (es : List SendEntry) (js : List SlotId) : State :=
  js.foldl (fun t j => t.stopJob p es j) s

theorem settleStop_eq (s : State) (p : PortId) : s.settleStop p = (s.settleWindow p).stopJobs p s.ports[p].window
    (stoppedJobs s.ports[p].window s.ports[p].feedOwner) := rfl

theorem stopJobs_keeps (s : State) (p : PortId) (es : List SendEntry) (js : List SlotId) :
    KeepsAllBut [.jobs, .ports, .alerts, .notices, .passInProgress, .passOwed] s (s.stopJobs p es js) :=
  .foldl (fun t j => t.stopJob_keeps p es j) js s

theorem stopJobs_append (s : State) (p : PortId) (es : List SendEntry) (front back : List SlotId) (j : SlotId) :
    s.stopJobs p es (front ++ j :: back) = ((s.stopJobs p es front).stopJob p es j).stopJobs p es back :=
  List.foldl_append

theorem stopJobs_jobs_ne (hj : j ∉ js) : (s.stopJobs p es js).jobs[j] = s.jobs[j] :=
  foldl_jobs_ne (fun _ _ k hk => State.stopJob_jobs_ne es k hk) hj

theorem stopJob_ports (s : State) (p : PortId) (es : List SendEntry) (j : SlotId) :
    (s.stopJob p es j).ports = (s.releaseIfOwner p j).ports := by
  unfold State.stopJob
  rw [(State.listAffected_keeps _ p j).part .ports, (State.flagReroute_keeps _ j).part .ports,
    (State.excludeJob_keeps _ p j).part .ports, (State.stopState_keeps _ j).part .ports,
    (State.rewindTo_keeps _ j es).part .ports]

/-- Where none of the jobs holds the feed, the ports stay. -/
theorem stopJobs_ports_stay (hn : ∀ j ∈ js, s.ports[p].feedOwner ≠ some j) : (s.stopJobs p es js).ports = s.ports := by
  induction js generalizing s with
  | nil => rfl
  | cons i js ih =>
    have hstay : (s.stopJob p es i).ports = s.ports := by
      rw [stopJob_ports, State.releaseIfOwner, if_neg (hn i List.mem_cons_self)]
    refine (ih fun j hj => ?_).trans hstay
    rw [hstay]
    exact hn j (List.mem_cons_of_mem i hj)

/-- The feed owner among the jobs loses the feed. -/
theorem stopJobs_ports_owner (ho : s.ports[p].feedOwner = some j) (hn : js.Nodup) (hj : j ∈ js) :
    (s.stopJobs p es js).ports = (s.releaseFeed p j).ports := by
  obtain ⟨front, back, rfl⟩ := List.append_of_mem hj
  rw [List.nodup_middle, List.nodup_cons, List.mem_append, not_or] at hn
  have hfront : (s.stopJobs p es front).ports = s.ports := stopJobs_ports_stay fun k hk hc =>
    hn.1.1 (Option.some.inj (ho.symm.trans hc) ▸ hk)
  have hjob : ((s.stopJobs p es front).stopJob p es j).ports = (s.releaseFeed p j).ports := by
    rw [stopJob_ports, State.releaseIfOwner, if_pos (by rw [hfront, ho])]
    unfold State.releaseFeed
    rw [State.updJob_ports, State.updJob_ports]
    unfold State.updPort
    rw [hfront]
  have hfree : ((s.stopJobs p es front).stopJob p es j).ports[p].feedOwner = none := by
    rw [hjob, Fin.getElem_fin, State.releaseFeed_ports_val]
    rfl
  rw [stopJobs_append, ← hjob]
  exact stopJobs_ports_stay fun k _ => by rw [hfree]; exact nofun

/-- A listed handle stays listed. -/
theorem mem_list (x : AlertSlot) (h g : Handle) (hg : g ∈ x.affected ∨ g = h) : g ∈ (x.list h).affected := by
  unfold AlertSlot.list
  dsimp only
  split
  next hc => exact hg.elim id fun he => he ▸ List.contains_iff_mem.1 hc
  next => exact hg.elim (List.mem_append_left _) fun he => he ▸ List.mem_append_right _ List.mem_cons_self

theorem stopJob_alerts (s : State) (p : PortId) (es : List SendEntry) (j : SlotId) :
    (s.stopJob p es j).alerts[stopSlot p] = s.alerts[stopSlot p].list ⟨j, (s.stopJob p es j).jobs[j].generation⟩ := by
  have hkeeps := ((((State.releaseIfOwner_keeps (s := s) p j).trans (State.rewindTo_keeps _ j es)).trans
    (State.stopState_keeps _ j)).trans (State.excludeJob_keeps _ p j)).trans (State.flagReroute_keeps _ j)
  have halerts := hkeeps.part .alerts
  rw [stopJob_jobs]
  unfold State.stopJob
  generalize ((((s.releaseIfOwner p j).rewindTo j es).stopState j).excludeJob p j).flagReroute j = u at halerts ⊢
  unfold State.listAffected
  rw [State.updAlert_alerts_self]
  exact congrArg (fun v : Vector AlertSlot 32 => v[stopSlot p].list _) halerts

theorem stopJob_alerts_ne (ha : a ≠ stopSlot p) : (s.stopJob p es j).alerts[a] = s.alerts[a] := by
  have hkeeps := ((((State.releaseIfOwner_keeps (s := s) p j).trans (State.rewindTo_keeps _ j es)).trans
    (State.stopState_keeps _ j)).trans (State.excludeJob_keeps _ p j)).trans (State.flagReroute_keeps _ j)
  have halerts := hkeeps.part .alerts
  unfold State.stopJob State.listAffected
  rw [State.updAlert_alerts_ne _ _ _ _ ha, halerts]

/-- The stops write nothing of the stop slot but its affected-job list. -/
theorem stopJobs_alerts (s : State) (p : PortId) (es : List SendEntry) (js : List SlotId) : ∃ l,
    (s.stopJobs p es js).alerts[stopSlot p] = { s.alerts[stopSlot p] with affected := l } ∧
      ∀ g ∈ s.alerts[stopSlot p].affected, g ∈ l := by
  induction js generalizing s with
  | nil => exact ⟨_, rfl, fun _ hg => hg⟩
  | cons j js ih =>
    obtain ⟨l, hl, hmem⟩ := ih (s.stopJob p es j)
    refine ⟨l, hl.trans ?_, fun g hg => hmem g ?_⟩
    · rw [stopJob_alerts]
      rfl
    · rw [stopJob_alerts]
      exact mem_list _ _ g (.inl hg)

theorem stopJobs_alerts_ne (ha : a ≠ stopSlot p) : (s.stopJobs p es js).alerts[a] = s.alerts[a] := by
  induction js generalizing s with
  | nil => rfl
  | cons j js ih => exact ih.trans (stopJob_alerts_ne ha)

/-- A job of the list is stopped in a state in which its own record, the queues and the clock are as they were. -/
theorem stopJobs_job (hn : js.Nodup) (hj : j ∈ js) (hfeed : s.ports[p].feedOwner = some j ∨ s.jobs[j].feedPort = none)
    (hempty : s.hasEntries j = false) : (s.stopJobs p es js).jobs[j] =
        s.jobs[j].stopped p es j s.rerouteAt s.queues[s.jobs[j].queue].reroute ∧
      (⟨j, s.jobs[j].generation⟩ : Handle) ∈ (s.stopJobs p es js).alerts[stopSlot p].affected := by
  obtain ⟨front, back, rfl⟩ := List.append_of_mem hj
  rw [List.nodup_middle, List.nodup_cons, List.mem_append, not_or] at hn
  have hkeeps := stopJobs_keeps s p es front
  have hself : (s.stopJobs p es front).jobs[j] = s.jobs[j] := stopJobs_jobs_ne hn.1.1
  have hqueues : (s.stopJobs p es front).queues = s.queues := hkeeps.part .queues
  have htick : (s.stopJobs p es front).rerouteAt = s.rerouteAt := by
    unfold State.rerouteAt
    rw [hkeeps.part .clock, hkeeps.part .timers]
  have hwindows : ∀ (js : List SlotId) (u : State) (q : PortId),
      (u.stopJobs p es js).ports[q].window = u.ports[q].window := by
    intro js
    induction js with
    | nil => exact fun _ _ => rfl
    | cons i js ih => exact fun u q => (ih _ q).trans (State.stopJob_window es q)
  have hentries : (s.stopJobs p es front).hasEntries j = false := by
    rw [← hempty]
    exact hasEntries_congr (fun q => by rw [hwindows]) j
  have hfed : (s.stopJobs p es front).ports[p].feedOwner = some j ∨
      (s.stopJobs p es front).jobs[j].feedPort = none := by
    refine hfeed.imp (fun ho => ?_) fun hf => by rw [hself, hf]
    rw [stopJobs_ports_stay fun k hk hc => hn.1.1 (Option.some.inj (ho.symm.trans hc) ▸ hk), ho]
  have hrecord := stopJob_jobs_self (es := es) hfed hentries
  simp only [hself, hqueues, htick] at hrecord
  rw [stopJobs_append]
  refine ⟨(stopJobs_jobs_ne hn.1.2).trans hrecord, ?_⟩
  obtain ⟨l, hl, hmem⟩ := stopJobs_alerts ((s.stopJobs p es front).stopJob p es j) p es back
  rw [hl]
  refine hmem _ ?_
  rw [stopJob_alerts, hrecord, stopped_generation]
  exact mem_list _ _ _ (.inr rfl)

-- ## The settlement

theorem settleWindow_owner (s : State) (p : PortId) : (s.settleWindow p).ports[p].feedOwner = s.ports[p].feedOwner := by
  rw [State.settleWindow_ports_self]

/-- The port behind the stop: its window is settled, and its feed is released (R104, R150, R151). -/
theorem settleStop_ports_self (hf : s.ports[p].feedOwner = none → s.ports[p].starveTimer = none) :
    (s.settleStop p).ports[p] = { s.ports[p] with
    window := [], sending := none, feedOwner := none, starveTimer := none
    releaseOwed := if s.ports[p].feedOwner = none then s.ports[p].releaseOwed else false
    lifetime := s.ports[p].lifetime.spoilAll s.ports[p].window
    period := s.ports[p].period.spoilAll s.ports[p].window } := by
  have howner := settleWindow_owner s p
  rw [settleStop_eq]
  rcases ho : s.ports[p].feedOwner with _ | j
  · rw [ho] at howner
    rw [stopJobs_ports_stay fun k _ => by rw [howner]; exact nofun, State.settleWindow_ports_self, if_pos rfl, ← ho,
      ← hf ho]
  · rw [ho] at howner
    rw [stopJobs_ports_owner howner (stoppedJobs_nodup _ _) ((State.mem_stoppedJobs _ _ _).2 (.inr rfl)),
      Fin.getElem_fin,
      State.releaseFeed_ports_val, ← Fin.getElem_fin, State.settleWindow_ports_self, if_neg (by exact nofun)]
    rfl

theorem settleStop_ports_ne (hq : q ≠ p) : (s.settleStop p).ports[q] = s.ports[q] := by
  have howner := settleWindow_owner s p
  rw [settleStop_eq]
  rcases ho : s.ports[p].feedOwner with _ | j
  · rw [ho] at howner
    rw [stopJobs_ports_stay fun k _ => by rw [howner]; exact nofun, State.settleWindow_ports_ne hq]
  · rw [ho] at howner
    rw [stopJobs_ports_owner howner (stoppedJobs_nodup _ _) ((State.mem_stoppedJobs _ _ _).2 (.inr rfl)),
      State.releaseFeed_ports_ne _ _ _ _ hq, State.settleWindow_ports_ne hq]

theorem settleStop_accounts (s : State) (p : PortId) (a : AccountId) :
    (s.settleStop p).accounts[a] = { s.accounts[a] with
    reserved := s.accounts[a].reserved - windowFaces s p (fun e => s.jobs[e.job].account == a) } := by
  have haccounts : (s.settleStop p).accounts = (s.settleWindow p).accounts := (stopJobs_keeps _ p _ _).part .accounts
  rw [haccounts, State.settleWindow_accounts]
  rfl

theorem settleStop_jobs_ne (hj : ¬AtPort s p j) : (s.settleStop p).jobs[j] = s.jobs[j] := by
  have hjobs : (s.settleWindow p).jobs = s.jobs := (State.settleWindow_keeps s p).part .jobs
  rw [settleStop_eq, stopJobs_jobs_ne fun hc => hj ((State.mem_stoppedJobs _ _ _).1 hc).symm, hjobs]

/-- A job at the port is stopped, and listed in the alert. -/
theorem settleStop_job (hj : AtPort s p j) (hfed : s.ports[p].feedOwner = some j ∨ s.jobs[j].feedPort = none)
    (hhome : ∀ q, q ≠ p → ∀ e ∈ s.ports[q].window, e.job ≠ j) : (s.settleStop p).jobs[j] =
      s.jobs[j].stopped p s.ports[p].window j s.rerouteAt s.queues[s.jobs[j].queue].reroute ∧
    (⟨j, s.jobs[j].generation⟩ : Handle) ∈ (s.settleStop p).alerts[stopSlot p].affected := by
  have hkeeps := State.settleWindow_keeps s p
  have hjobs : (s.settleWindow p).jobs = s.jobs := hkeeps.part .jobs
  have hqueues : (s.settleWindow p).queues = s.queues := hkeeps.part .queues
  have htick : (s.settleWindow p).rerouteAt = s.rerouteAt := by
    unfold State.rerouteAt
    rw [hkeeps.part .clock, hkeeps.part .timers]
  have hempty : (s.settleWindow p).hasEntries j = false :=
    no_entries_of_windows (s := s) (p := p) (by rw [State.settleWindow_ports_self])
      (fun q hq => State.settleWindow_ports_ne hq) (fun f hfm => absurd hfm List.not_mem_nil)
      hhome
  have hfeed : (s.settleWindow p).ports[p].feedOwner = some j ∨ (s.settleWindow p).jobs[j].feedPort = none := by
    rw [settleWindow_owner, hjobs]
    exact hfed
  have hstopped := stopJobs_job (es := s.ports[p].window) (stoppedJobs_nodup s.ports[p].window s.ports[p].feedOwner)
    ((State.mem_stoppedJobs _ _ _).2 hj.symm) hfeed hempty
  simp only [hjobs, hqueues, htick] at hstopped
  exact hstopped

theorem settleStop_alerts (s : State) (p : PortId) : ∃ l,
    (s.settleStop p).alerts[stopSlot p] = { s.alerts[stopSlot p] with affected := l } := by
  have halerts : (s.settleWindow p).alerts = s.alerts := (State.settleWindow_keeps s p).part .alerts
  obtain ⟨l, hl, -⟩ := stopJobs_alerts (s.settleWindow p) p s.ports[p].window
    (stoppedJobs s.ports[p].window s.ports[p].feedOwner)
  exact ⟨l, by rw [settleStop_eq, hl, halerts]⟩

/-- The jobs at the port are stopped (R151), whichever later state keeps them and the alert. -/
theorem settleStop_jobsStopped (hf : FeedsAgree s) (p : PortId) : JobsStopped s (s.settleStop p) p := by
  refine ⟨fun j hj => ?_, fun j hj => settleStop_jobs_ne hj⟩
  obtain ⟨hjob, hlisted⟩ := settleStop_job hj (or_iff_not_imp_left.2 fun ho => atPort_unfed hf hj ho)
    fun q hq => atPort_home hf hj hq
  obtain ⟨hfeed, hcursor, hexclusion, hgoes, hstays, hcancelled, hrerouted, hstarted, hproof, hcharge⟩ :=
    stoppedJob_of_record s p j rfl
  rw [hjob]
  exact ⟨hfeed, hcursor, hexclusion, hgoes, hstays, hcancelled, hrerouted, hstarted, hproof, hcharge, hlisted⟩

end Sys2Proof.Machine
end

