-- ==== Sys2Proof/Proofs/StopConditions.lean ====
section
/-! SUPPORT. A stop condition without a last-delivered serial (8.3): the slot opens or merges, the window is
settled, and the jobs at the port are stopped. -/

set_option Elab.async false

namespace Sys2Proof.Machine

open Sys2Proof.Safety

variable {s t u b : State} {p q : PortId} {i j k : SlotId} {kind : AlertKind} {l : Byte}

-- ## What the claims on a stop read of the states

theorem feedsAgree_congr (h : FeedsAgree s) (hjobs : t.jobs = s.jobs)
    (howner : ∀ q : PortId, t.ports[q].feedOwner = s.ports[q].feedOwner)
    (hwindow : ∀ q : PortId, t.ports[q].window = s.ports[q].window)
    (hstarve : ∀ q : PortId, t.ports[q].starveTimer = s.ports[q].starveTimer) : FeedsAgree t := by
  unfold FeedsAgree at h ⊢
  simp only [hjobs, howner, hwindow, hstarve]
  exact h

theorem jobsStopped_reads (h : JobsStopped b t p) (hjobs : s.jobs = b.jobs)
    (howner : s.ports[p].feedOwner = b.ports[p].feedOwner) (hwindow : s.ports[p].window = b.ports[p].window)
    (hqueues : s.queues = b.queues) (hclock : s.clock = b.clock) (htimers : s.timers = b.timers) :
    JobsStopped s t p := by
  unfold JobsStopped AtPort cursorAfter at h ⊢
  simp only [howner, hwindow, hjobs, hqueues, hclock, htimers]
  exact h

theorem jobsStopped_stands (h : JobsStopped s t p) (hjobs : u.jobs = t.jobs)
    (halert : u.alerts[stopSlot p] = t.alerts[stopSlot p]) : JobsStopped s u p := by
  unfold JobsStopped at h ⊢
  rw [hjobs, halert]
  exact h

/-- The affected-job list is no part of what a raised stop condition shows. -/
theorem stopRaised_stands {affected : List Handle} (h : StopRaised s t p kind l)
    (halert : u.alerts[stopSlot p] = { t.alerts[stopSlot p] with affected := affected })
    (hopen : u.openAlerts = t.openAlerts) : StopRaised s u p kind l := by
  unfold StopRaised at h ⊢
  rw [halert, hopen]
  exact h

theorem stopRaised_reads (h : StopRaised b t p kind l) (halert : s.alerts[stopSlot p] = b.alerts[stopSlot p])
    (hclock : s.clock = b.clock) (htimers : s.timers = b.timers) : StopRaised s t p kind l := by
  unfold StopRaised at h ⊢
  rw [halert, hclock, htimers]
  exact h

-- ## The stop

/-- Port `p`'s stop condition where no entry is confirmed (8.3). -/
def State.stopped (s : State) (p : PortId) (kind : AlertKind) (l : Byte) : State := (s.raiseStop p kind l).settleStop p

theorem stopCondition_none (s : State) (p : PortId) (kind : AlertKind) (l : Byte) :
    s.stopCondition p kind l none = s.stopped p kind l := rfl

/-- What the events before a stop condition leave as it was. -/
structure BeforeStop (s b : State) (p : PortId) : Prop where
  window : b.ports[p].window = s.ports[p].window
  owner : b.ports[p].feedOwner = s.ports[p].feedOwner
  starve : b.ports[p].starveTimer = s.ports[p].starveTimer
  serial : b.ports[p].nextSerial = s.ports[p].nextSerial
  lifetime : b.ports[p].lifetime = s.ports[p].lifetime
  period : b.ports[p].period = s.ports[p].period
  others : OtherPortsSame p s b
  alert : b.alerts[stopSlot p] = s.alerts[stopSlot p]
  keeps : KeepsAllBut [.ports, .alerts, .openAlerts, .notices, .pressLog] s b

theorem BeforeStop.eq_port {α : Type} (f : Port → α) (h : BeforeStop s b p) (hp : f b.ports[p] = f s.ports[p])
    (q : PortId) : f b.ports[q] = f s.ports[q] := by
  by_cases hq : q = p
  · rw [hq, hp]
  · rw [h.others q hq]

/-- The raised alert leaves the ports, jobs and queues. -/
theorem BeforeStop.raised (h : BeforeStop s b p) (kind : AlertKind) (l : Byte) :
    KeepsAllBut [.ports, .alerts, .openAlerts, .notices, .pressLog] s (b.raiseStop p kind l) ∧
      (b.raiseStop p kind l).ports = b.ports :=
  ⟨(h.keeps.trans (State.raiseStop_keeps (s := b) p kind l)).mono,
    (State.raiseStop_keeps (s := b) p kind l).part .ports⟩

theorem BeforeStop.feedsAgree (h : BeforeStop s b p) (hf : FeedsAgree s) (kind : AlertKind) (l : Byte) :
    FeedsAgree (b.raiseStop p kind l) := by
  obtain ⟨hkeeps, hports⟩ := h.raised kind l
  refine feedsAgree_congr hf (hkeeps.part .jobs) (fun q => ?_) (fun q => ?_) fun q => ?_
  · rw [hports, h.eq_port Port.feedOwner h.owner]
  · rw [hports, h.eq_port Port.window h.window]
  · rw [hports, h.eq_port Port.starveTimer h.starve]

theorem BeforeStop.stopped_port (h : BeforeStop s b p) (hf : FeedsAgree s) (kind : AlertKind) (l : Byte) :
    (b.stopped p kind l).ports[p] = { b.ports[p] with
      window := [], sending := none, feedOwner := none, starveTimer := none
      releaseOwed := if s.ports[p].feedOwner = none then b.ports[p].releaseOwed else false
      lifetime := s.ports[p].lifetime.spoilAll s.ports[p].window
      period := s.ports[p].period.spoilAll s.ports[p].window } := by
  have hports := (h.raised kind l).2
  unfold State.stopped
  rw [settleStop_ports_self (starveTimer_none_of_unowned (h.feedsAgree hf kind l)), hports, h.window,
    h.lifetime, h.period, h.owner]

theorem BeforeStop.stopped_others (h : BeforeStop s b p) (kind : AlertKind) (l : Byte) :
    OtherPortsSame p s (b.stopped p kind l) := fun q hq => by
  unfold State.stopped
  rw [settleStop_ports_ne hq, (h.raised kind l).2, h.others q hq]

theorem BeforeStop.stopped_settled (h : BeforeStop s b p) (hf : FeedsAgree s) (kind : AlertKind) (l : Byte) :
    s.ports[p].Settled (b.stopped p kind l).ports[p] := by
  rw [h.stopped_port hf kind l]
  exact ⟨rfl, rfl, rfl, rfl, fun hn => if_neg hn, h.serial, rfl, rfl⟩

theorem BeforeStop.stopped_accounts (h : BeforeStop s b p) (kind : AlertKind) (l : Byte) (a : AccountId) :
    (b.stopped p kind l).accounts[a] = { s.accounts[a] with
      reserved := s.accounts[a].reserved - windowFaces s p (fun e => s.jobs[e.job].account == a) } := by
  obtain ⟨hkeeps, hports⟩ := h.raised kind l
  have haccounts : (b.raiseStop p kind l).accounts = s.accounts := hkeeps.part .accounts
  have hjobs : (b.raiseStop p kind l).jobs = s.jobs := hkeeps.part .jobs
  unfold State.stopped
  rw [settleStop_accounts, haccounts, hjobs]
  unfold windowFaces
  rw [hports, h.window]

theorem BeforeStop.stopped_jobs (h : BeforeStop s b p) (hf : FeedsAgree s) (kind : AlertKind) (l : Byte) :
    JobsStopped s (b.stopped p kind l) p := by
  obtain ⟨hkeeps, hports⟩ := h.raised kind l
  refine jobsStopped_reads (settleStop_jobsStopped (h.feedsAgree hf kind l) p) (hkeeps.part .jobs).symm ?_ ?_
    (hkeeps.part .queues).symm (hkeeps.part .clock).symm (hkeeps.part .timers).symm
  · rw [hports, h.owner]
  · rw [hports, h.window]

theorem BeforeStop.stopped_raised (h : BeforeStop s b p) (kind : AlertKind) (l : Byte) :
    StopRaised s (b.stopped p kind l) p kind l := by
  obtain ⟨affected, halert⟩ := settleStop_alerts (b.raiseStop p kind l) p
  exact stopRaised_reads (stopRaised_stands (raiseStop_raised b p kind l) halert
    ((State.settleStop_keeps (s := b.raiseStop p kind l) p).part .openAlerts)) h.alert.symm (h.keeps.part .clock).symm
    (h.keeps.part .timers).symm

theorem BeforeStop.stopped_keeps (h : BeforeStop s b p) (kind : AlertKind) (l : Byte) : KeepsAllBut
    [.jobs, .ports, .accounts, .alerts, .openAlerts, .notices, .pressLog, .passInProgress, .passOwed] s
    (b.stopped p kind l) :=
  ((h.raised kind l).1.trans (State.settleStop_keeps _ p)).mono

theorem stopped_pressLog (b : State) (p : PortId) (kind : AlertKind) (l : Byte) :
    (b.stopped p kind l).pressLog = b.pressLog :=
  ((State.settleStop_keeps (s := b.raiseStop p kind l) p).part .pressLog).trans
    ((State.raiseStop_keeps (s := b) p kind l).part .pressLog)

-- ## The states before a stop

theorem heard_beforeStop (s : State) (p : PortId) : BeforeStop s (s.hear p) p where
  window := by rw [hear_ports_self]; rfl
  owner := by rw [hear_ports_self]; rfl
  starve := by rw [hear_ports_self]; rfl
  serial := by rw [hear_ports_self]; rfl
  lifetime := by rw [hear_ports_self]; rfl
  period := by rw [hear_ports_self]; rfl
  others _ hq := hear_ports_ne hq
  alert := by rw [(State.hear_keeps s p).part .alerts]
  keeps := (State.hear_keeps s p).mono

theorem BeforeStop.trans (h : BeforeStop s t p) (h' : BeforeStop t u p) : BeforeStop s u p where
  window := h'.window.trans h.window
  owner := h'.owner.trans h.owner
  starve := h'.starve.trans h.starve
  serial := h'.serial.trans h.serial
  lifetime := h'.lifetime.trans h.lifetime
  period := h'.period.trans h.period
  others q hq := (h'.others q hq).trans (h.others q hq)
  alert := h'.alert.trans h.alert
  keeps := h.keeps.next h'.keeps

theorem quieted_beforeStop (s : State) (p : PortId) : BeforeStop s (s.quieted p) p := by
  obtain ⟨timer, stall, hport⟩ := quieted_port s p
  exact {
    window := by rw [hport], owner := by rw [hport], starve := by rw [hport], serial := by rw [hport]
    lifetime := by rw [hport], period := by rw [hport], others := fun q hq => quieted_ports_ne hq
    alert := quieted_alerts (.inl (stopSlot_ne_waitSlot p p)), keeps := quieted_keeps s p }

theorem probing_beforeStop (s : State) (p : PortId) : BeforeStop s (s.enterProbing p) p where
  window := by rw [enterProbing_ports_self]
  owner := by rw [enterProbing_ports_self]
  starve := by rw [enterProbing_ports_self]
  serial := by rw [enterProbing_ports_self]
  lifetime := by rw [enterProbing_ports_self]
  period := by rw [enterProbing_ports_self]
  others _ hq := enterProbing_ports_ne hq
  alert := by rw [(s.enterProbing_keeps p).part .alerts]
  keeps := (s.enterProbing_keeps p).mono

theorem goDown_beforeStop (s : State) (p : PortId) (c : DownCause) : BeforeStop s (s.goDown p c) p := by
  obtain ⟨_, _, hport⟩ := s.goDown_ports_val p c
  rw [← Fin.getElem_fin, ← Fin.getElem_fin] at hport
  exact {
    window := by rw [hport], owner := by rw [hport], starve := by rw [hport], serial := by rw [hport]
    lifetime := by rw [hport], period := by rw [hport], others := fun q hq => State.goDown_ports_ne _ _ _ _ hq
    alert := by rw [(State.goDown_keeps s p c).part .alerts], keeps := (State.goDown_keeps s p c).mono }

end Sys2Proof.Machine
end

