-- ==== Sys2Proof/Proofs/LinkLosses.lean ====
section
/-! SUPPORT. The losses of a link (R84, R88, R98), and the statement on them. -/

set_option Elab.async false

namespace Sys2Proof.Machine

open Sys2Proof.Safety

variable {s t u b : State} {p q : PortId} {i : Ident} {m : Media} {kind : AlertKind} {l : LinkState} {n : Serial}
  {cc caps ms ld w : Byte} {c : Instr}

-- ## The three stops

theorem linkLoss_eq (s : State) (p : PortId) :
    s.linkLoss p = ((s.quieted p).enterProbing p).stopped p .linkLost 0 := rfl

theorem orderFault_eq (s : State) (p : PortId) :
    s.orderFault p = ((s.quieted p).goDown p .fault).stopped p .orderFault 0 := rfl

theorem linkLoss_before (s : State) (p : PortId) : BeforeStop s ((s.quieted p).enterProbing p) p :=
  (quieted_beforeStop s p).trans (probing_beforeStop _ p)

theorem orderFault_before (s : State) (p : PortId) : BeforeStop s ((s.quieted p).goDown p .fault) p :=
  (quieted_beforeStop s p).trans (goDown_beforeStop _ p .fault)

/-- What a lost link sends behind the page data, by the link state that it comes to (R85, R86, R88). -/
def lossMessages : LinkState → List PressMessage
  | .down => []
  | .probing | .up => [.probe]
  | .rating => [.probe, .rateOffer]

/-- What a lost link leaves, whichever way it was lost. -/
structure LinkLost (s t : State) (p : PortId) (kind : AlertKind) (l : LinkState) : Prop where
  raised : StopRaised s t p kind 0
  settled : WindowSettled s t p
  jobs : JobsStopped s t p
  setup : t.ports[p].setup = none
  link : t.ports[p].link = l
  cause : l = .down → t.ports[p].downCause = some .fault
  sent : ∃ cut, CutShort s p cut ∧ Sent s t p (cut ++ lossMessages l)
  detached : s.ports[p].link = .up → hasBit t.ports[p].flags 1 = true ∧ t.ports[p].noticeOwed = true
  others : OtherPortsSame p s t
  keeps : KeepsAllBut [.jobs, .ports, .accounts, .alerts, .openAlerts, .notices, .pressLog, .passInProgress,
    .passOwed] s t

/-- A stop by way of `b` settles the window and stops its jobs. -/
theorem linkLost_of_before (h : BeforeStop s b p) (hf : FeedsAgree s) (hsetup : b.ports[p].setup = none)
    (hlink : b.ports[p].link = l) (hcause : l = .down → b.ports[p].downCause = some .fault)
    (hsent : ∃ cut, CutShort s p cut ∧ Sent s b p (cut ++ lossMessages l))
    (hdetached : s.ports[p].link = .up → hasBit b.ports[p].flags 1 = true ∧ b.ports[p].noticeOwed = true) :
    LinkLost s (b.stopped p kind 0) p kind l := by
  have hport := h.stopped_port hf kind 0
  obtain ⟨cut, hcut, hlog⟩ := hsent
  exact {
    raised := h.stopped_raised kind 0
    settled := windowSettled_of_port (h.stopped_settled hf kind 0) (h.stopped_accounts kind 0)
    jobs := h.stopped_jobs hf kind 0
    setup := by rw [hport]; exact hsetup
    link := by rw [hport]; exact hlink
    cause := fun hl => by rw [hport]; exact hcause hl
    sent := ⟨cut, hcut, (stopped_pressLog b p kind 0).trans hlog⟩
    detached := fun hup => by rw [hport]; exact hdetached hup
    others := h.stopped_others kind 0
    keeps := h.stopped_keeps kind 0 }

theorem probing_sent (s : State) (p : PortId) :
    ∃ cut, CutShort s p cut ∧ Sent s ((s.quieted p).enterProbing p) p (cut ++ [.probe]) := by
  obtain ⟨cut, hcut, hsent⟩ := quieted_sent s p
  have hprobe := enterProbing_sent (s.quieted p) p
  refine ⟨cut, hcut, ?_⟩
  unfold Sent at hsent hprobe ⊢
  rw [hprobe, hsent, List.map_append, List.append_assoc]

theorem quieted_link (s : State) (p : PortId) : (s.quieted p).ports[p].link = s.ports[p].link ∧
    (s.quieted p).ports[p].setup = none ∧ (s.quieted p).ports[p].receiver = s.ports[p].receiver := by
  obtain ⟨timer, stall, hport⟩ := quieted_port s p
  rw [hport]
  exact ⟨rfl, rfl, rfl⟩

/-- A link loss takes the link to PROBING (R88). -/
theorem linkLoss_lost (hf : FeedsAgree s) (p : PortId) : LinkLost s (s.linkLoss p) p .linkLost .probing := by
  obtain ⟨hlink, hsetup, -⟩ := quieted_link s p
  have hprobing := enterProbing_ports_self (s.quieted p) p
  rw [linkLoss_eq]
  refine linkLost_of_before (linkLoss_before s p) hf ?_ ?_ (fun h => absurd h (by decide))
    (probing_sent s p) fun hup => ?_
  · rw [hprobing]
    exact hsetup
  · rw [hprobing]
  · exact enterProbing_detached (.inl (hlink.trans hup))

/-- An order fault takes the link DOWN (R98). -/
theorem orderFault_lost (hf : FeedsAgree s) (hup : s.ports[p].link = .up) :
    LinkLost s (s.orderFault p) p .orderFault .down := by
  obtain ⟨hlink, hsetup, -⟩ := quieted_link s p
  have hdown := goDown_ports_up (hlink.trans hup) .fault
  obtain ⟨cut, hcut, hsent⟩ := quieted_sent s p
  have hlog : ((s.quieted p).goDown p .fault).pressLog = (s.quieted p).pressLog :=
    (State.goDown_keeps (s := s.quieted p) p .fault).part .pressLog
  rw [orderFault_eq]
  refine linkLost_of_before (orderFault_before s p) hf ?_ ?_ (fun _ => ?_) ⟨cut, hcut, ?_⟩ fun _ => ?_
  · rw [hdown]
    exact hsetup
  · rw [hdown]
  · rw [hdown]
  · exact hlog.trans (hsent.trans (by rw [lossMessages, List.append_nil]))
  · rw [hdown]
    exact ⟨by simp [PortFlag.bit], rfl⟩

/-- A link loss leaves the receiver of a link that is not DOWN where it stood. -/
theorem linkLoss_receiver (hf : FeedsAgree s) (hl : s.ports[p].link ≠ .down) :
    (s.linkLoss p).ports[p].receiver = s.ports[p].receiver := by
  obtain ⟨hlink, -, hreceiver⟩ := quieted_link s p
  rw [linkLoss_eq, (linkLoss_before s p).stopped_port hf, enterProbing_ports_self]
  dsimp only
  rw [if_neg (by rw [hlink]; exact hl), hreceiver]

theorem linkLoss_holdAsked (hf : FeedsAgree s) (p : PortId) :
    (s.linkLoss p).ports[p].holdAsked = s.ports[p].holdAsked := by
  obtain ⟨timer, stall, hport⟩ := quieted_port s p
  rw [linkLoss_eq, (linkLoss_before s p).stopped_port hf, enterProbing_ports_self, hport]

theorem orderFault_holdAsked (hf : FeedsAgree s) (p : PortId) :
    (s.orderFault p).ports[p].holdAsked = s.ports[p].holdAsked := by
  obtain ⟨timer, stall, hport⟩ := quieted_port s p
  obtain ⟨_, _, hdown⟩ := (s.quieted p).goDown_ports_val p .fault
  rw [← Fin.getElem_fin, ← Fin.getElem_fin, hport] at hdown
  rw [orderFault_eq, (orderFault_before s p).stopped_port hf, hdown]

-- ## The states that the losses start from

theorem BeforeStop.feedsAgree_of (h : BeforeStop s b p) (hf : FeedsAgree s) : FeedsAgree b :=
  feedsAgree_congr hf (h.keeps.part .jobs) (h.eq_port Port.feedOwner h.owner) (h.eq_port Port.window h.window)
    (h.eq_port Port.starveTimer h.starve)

theorem hear_feedsAgree (hf : FeedsAgree s) (p : PortId) :
    FeedsAgree (s.hear p) :=
  (heard_beforeStop s p).feedsAgree_of hf

/-- A loss behind a heard frame is a loss of the state before the frame. -/
theorem linkLost_of_hear (h : LinkLost (s.hear p) t p kind l) : LinkLost s t p kind l := by
  obtain ⟨hraised, hsettled, hjobs, hsetup, hlink, hcause, ⟨cut, hcut, hsent⟩, hdetached, hothers, hkeeps⟩ := h
  have hhear := State.hear_keeps s p
  have hport := hear_ports_self s p
  have hsame := heard_beforeStop s p
  refine ⟨stopRaised_reads hraised hsame.alert.symm (hhear.part .clock).symm (hhear.part .timers).symm, ?_,
    jobsStopped_reads hjobs (hhear.part .jobs).symm hsame.owner.symm hsame.window.symm (hhear.part .queues).symm
      (hhear.part .clock).symm (hhear.part .timers).symm, hsetup, hlink, hcause,
    ⟨cut, cutShort_of_hear hcut, (hsent.trans (congrArg (· ++ _) (hhear.part .pressLog)) :)⟩, fun hup => hdetached ?_,
    fun q hq => (hothers q hq).trans (hear_ports_ne hq), (hhear.trans hkeeps).mono⟩
  · unfold WindowSettled windowFaces at hsettled ⊢
    rw [hport] at hsettled
    exact hsettled
  · rw [hport]
    exact hup

/-- Bring-up behind a loss leaves the loss (R85 to R87). -/
theorem linkLost_bringUp (h : LinkLost s t p kind .probing) (hl : l = if i.fastCapable then .rating else .up) :
    LinkLost s (t.bringUp p i m false) p kind l := by
  obtain ⟨hraised, hsettled, hjobs, hsetup, -, -, ⟨cut, hcut, hsent⟩, hdetached, hothers, hkeeps⟩ := h
  have hbehind := ((identKnown_plain (s := t) (p := p) (i := i) (m := m) (.inl rfl)).trans
    (bringUp_keeps_known t p i m false)).mono (b := [.ports, .pressLog, .notices, .passInProgress, .passOwed])
  have halerts := hbehind.part .alerts
  have hraised' : StopRaised s (t.bringUp p i m false) p kind 0 := stopRaised_stands hraised
    (affected := t.alerts[stopSlot p].affected) (congrArg (fun v : Vector AlertSlot 32 => v[stopSlot p]) halerts)
    (hbehind.part .openAlerts)
  have hjobs' : JobsStopped s (t.bringUp p i m false) p := jobsStopped_stands hjobs (hbehind.part .jobs)
    (congrArg (fun v : Vector AlertSlot 32 => v[stopSlot p]) halerts)
  have hlog := bringUp_pressLog t p i m false
  have hothers' : OtherPortsSame p s (t.bringUp p i m false) := fun q hq => (bringUp_ports_ne hq).trans (hothers q hq)
  have hkeeps' := (hkeeps.trans hbehind).mono
    (b := [.jobs, .ports, .accounts, .alerts, .openAlerts, .notices, .pressLog, .passInProgress, .passOwed])
  have hsettled' : WindowSettled s (t.bringUp p i m false) p := by
    unfold WindowSettled at hsettled ⊢
    rw [hbehind.part .accounts]
    rcases hfast : i.fastCapable with _ | _
    · rw [bringUp_base_port hfast]
      exact hsettled
    · rw [bringUp_fast_port hfast]
      exact hsettled
  unfold Sent at hsent
  rcases hfast : i.fastCapable with _ | _
  · rw [hfast, if_neg (by decide)] at hl hlog
    subst hl
    have hport := bringUp_base_port (s := t) (p := p) (m := m) (c := false) hfast
    refine ⟨hraised', hsettled', hjobs', by rw [hport]; exact hsetup, by rw [hport], fun hd => absurd hd (by decide),
      ⟨cut, hcut, hlog.trans ((List.append_nil _).trans hsent)⟩, fun hup => ?_, hothers', hkeeps'⟩
    rw [hport]
    exact ⟨by rw [hasBit_addBit, (hdetached hup).1]; rfl, rfl⟩
  · rw [hfast, if_pos rfl] at hl hlog
    subst hl
    have hport := bringUp_fast_port (s := t) (p := p) (m := m) (c := false) hfast
    refine ⟨hraised', hsettled', hjobs', by rw [hport]; exact hsetup, by rw [hport], fun hd => absurd hd (by decide),
      ⟨cut, hcut, ?_⟩, fun hup => ?_, hothers', hkeeps'⟩
    · unfold Sent
      rw [hlog, hsent, List.append_assoc]
      simp [lossMessages]
    · rw [hport]
      exact hdetached hup

end Sys2Proof.Machine
end

