-- ==== Sys2Proof/Proofs/LostLinks.lean ====
section
/-! SUPPORT. The messages and the expiry by which a link is lost (R84, R88, R98), and the statement on them. -/

set_option Elab.async false

namespace Sys2Proof.Machine

open Sys2Proof.Safety

variable {s t u b : State} {p q : PortId} {i : Ident} {m : Media} {kind : AlertKind} {l : LinkState} {n : Serial}
  {cc caps ms ld w reason : Byte} {c : Instr}

-- ## PRESS_SILENCE

theorem exec_silence_quiet (h : s.ports[p].link = .probing ∨ s.ports[p].link = .down ∨
    s.clock ≠ s.ports[p].lastHeard + 30) : exec (.pressSilence p) s = .next s := by
  have hnot : ¬s.ports[p].silent s.clock = true := by
    unfold Port.silent
    rw [Bool.and_eq_true, Bool.or_eq_true, beq_iff_eq, beq_iff_eq, beq_iff_eq]
    rintro ⟨hl, hclock⟩
    rcases h with h | h | h
    · rw [h] at hl
      exact absurd hl (by decide)
    · rw [h] at hl
      exact absurd hl (by decide)
    · exact h hclock
  exact congrArg Host.Outcome.next (if_neg hnot)

theorem exec_silence_due (hl : s.ports[p].link = .rating ∨ s.ports[p].link = .up)
    (hclock : s.clock = s.ports[p].lastHeard + 30) :
    exec (.pressSilence p) s = .next ((s.linkLoss p).holdTest p) := by
  have hsilent : s.ports[p].silent s.clock = true := by
    unfold Port.silent
    rw [Bool.and_eq_true, Bool.or_eq_true, beq_iff_eq, beq_iff_eq, beq_iff_eq]
    exact ⟨hl, hclock⟩
  exact congrArg Host.Outcome.next (if_pos hsilent)

-- ## IDENT on an UP link

/-- An IDENT with path-clear no on an UP link is first a link loss (R88). -/
theorem exec_ident_up (hup : s.ports[p].link = .up) (hcaps : caps.toNat < 8) (hm : ld.toNat = m.val) :
    exec (.ident p cc caps ms ld w) s =
      .next ((((s.hear p).linkLoss p).bringUp p (identOf cc caps ms w) m false).holdTest p) := by
  have hclear : caps.getLsbD 3 = false := by
    rw [BitVec.getLsbD, Nat.testBit_lt_two_pow (by omega)]
  have hlink : (s.hear p).ports[p].link = .up := by rw [hear_ports_self]; exact hup
  rw [exec_ident (mediaOf_eq hm), pressMessage_taken (not_down_of_up hup) ((zeroFrom_iff 4 caps).2 (by omega))
    (taken := takenIdent) (by rw [hup]; rfl), hclear]
  unfold State.identTaken
  rw [if_pos hlink]

-- ## A report that names no entry

theorem report_fault {act : SendEntry → State → State} (h : s.service p ≠ .stopped) :
    (s.hear p).report p none act = ((s.hear p).orderFault p).holdTest p := report_none (by rwa [hear_service])

theorem heard_window (s : State) (p : PortId) : (s.hear p).ports[p].window = s.ports[p].window := by
  rw [hear_ports_self]
  rfl

theorem entryWith_none {inState : SendEntry → Bool}
    (h : ∀ e ∈ s.ports[p].window, e.serial = n → inState e = false) :
    (s.hear p).ports[p].entryWith n inState = none := by
  unfold Port.entryWith
  rw [heard_window, List.find?_eq_none]
  intro e he hc
  obtain ⟨hserial, hstate⟩ := Bool.and_eq_true_iff.1 hc
  rw [h e he (beq_iff_eq.1 hserial)] at hstate
  cases hstate

theorem sheetEntry_none (h : ∀ e, s.ports[p].window.head? = some e → e.serial = n → e.state ≠ .taken) :
    (s.hear p).ports[p].sheetEntry n = none := by
  unfold Port.sheetEntry
  rw [heard_window]
  rcases hw : s.ports[p].window with _ | ⟨e, es⟩
  · rfl
  · exact if_neg fun hc => h e (by rw [hw]; rfl) hc.1 hc.2

/-- A page report that names no entry of the state it needs is an order fault (R98). -/
theorem exec_fault (hup : s.ports[p].link = .up) (hserve : s.service p ≠ .stopped)
    (h : ((c = .taken p n ∨ ∃ r, c = .refuse p n r) ∧ ∀ e ∈ s.ports[p].window, e.serial = n → e.state = .taken) ∨
      (c = .aborted p n ∧ ∀ e ∈ s.ports[p].window, e.serial = n → e.state ≠ .aborting) ∨
      (c = .sheet p n ∧ ∀ e, s.ports[p].window.head? = some e → e.serial = n → e.state ≠ .taken)) :
    exec c s = .next (((s.hear p).orderFault p).holdTest p) := by
  have hmessage : ∀ act, s.pressMessage p true takenUp act = act (s.hear p) := fun act => pressMessage_up hup rfl
  rcases h with ⟨hc, hnone⟩ | ⟨rfl, hnone⟩ | ⟨rfl, hnone⟩
  · have hentry := entryWith_none (inState := SendEntry.unsettled) fun e he hn => unsettled_of_taken (hnone e he hn)
    rcases hc with rfl | ⟨r, rfl⟩
    · refine (congrArg Host.Outcome.next (hmessage _)).trans ?_
      rw [hentry, report_fault hserve]
    · refine (congrArg Host.Outcome.next (hmessage _)).trans ?_
      rw [hentry, report_fault hserve]
  · refine (congrArg Host.Outcome.next (hmessage _)).trans ?_
    rw [entryWith_none fun e he hn => Bool.eq_false_iff.2 fun hc => hnone e he hn ((isAborting_iff e).1 hc),
      report_fault hserve]
  · refine (congrArg Host.Outcome.next (hmessage _)).trans ?_
    rw [sheetEntry_none hnone, report_fault hserve]

-- ## The statement

/-- A silent link is lost. -/
theorem silence_lost (hf : FeedsAgree s) (hheld : s.ports[p].holdAsked = false)
    (hl : s.ports[p].link = .rating ∨ s.ports[p].link = .up) (hclock : s.clock = s.ports[p].lastHeard + 30) :
    ∃ t, exec (.pressSilence p) s = .next t ∧ LinkLost s t p .linkLost .probing ∧
      t.ports[p].receiver = s.ports[p].receiver := by
  have hnot : s.ports[p].link ≠ .down := by
    rcases hl with hl | hl <;> rw [hl] <;> decide
  refine ⟨s.linkLoss p, ?_, linkLoss_lost hf p, linkLoss_receiver hf hnot⟩
  rw [exec_silence_due hl hclock, holdTest_unheld (by rw [linkLoss_holdAsked hf, hheld])]

/-- An IDENT on an UP link loses it and brings it up again. -/
theorem ident_lost (hf : FeedsAgree s) (hheld : s.ports[p].holdAsked = false) (hup : s.ports[p].link = .up)
    (hcaps : caps.toNat < 8) (hld : ld.toNat < 8) : ∃ t, exec (.ident p cc caps ms ld w) s = .next t ∧
      LinkLost s t p .linkLost (if hasBit caps 2 then .rating else .up) := by
  have hlost := linkLost_of_hear (linkLoss_lost (hear_feedsAgree hf p) p)
  refine ⟨_, ?_, linkLost_bringUp (i := identOf cc caps ms w) (m := ⟨ld.toNat, hld⟩) hlost rfl⟩
  rw [exec_ident_up hup hcaps (m := ⟨ld.toNat, hld⟩) rfl, holdTest_unheld]
  have hasked : ((s.hear p).linkLoss p).ports[p].holdAsked = false := by
    rw [linkLoss_holdAsked (hear_feedsAgree hf p), hear_ports_self]
    exact hheld
  rcases hfast : (identOf cc caps ms w).fastCapable with _ | _
  · rw [bringUp_base_port hfast, ← hasked]
  · rw [bringUp_fast_port hfast, ← hasked]

/-- An order fault takes its link DOWN. -/
theorem fault_lost (hf : FeedsAgree s) (hheld : s.ports[p].holdAsked = false) (hup : s.ports[p].link = .up)
    (hexec : exec c s = .next (((s.hear p).orderFault p).holdTest p)) :
    ∃ t, exec c s = .next t ∧ LinkLost s t p .orderFault .down := by
  have hlink : (s.hear p).ports[p].link = .up := by rw [hear_ports_self]; exact hup
  have hasked : ((s.hear p).orderFault p).ports[p].holdAsked = false := by
    rw [orderFault_holdAsked (hear_feedsAgree hf p), hear_ports_self]
    exact hheld
  refine ⟨(s.hear p).orderFault p, ?_, linkLost_of_hear (orderFault_lost (hear_feedsAgree hf p) hlink)⟩
  rw [hexec, holdTest_unheld hasked]

/-- Settles O37: `silence_lost`, `ident_lost` and `fault_lost`, each by the settlement that its stop condition makes. -/
theorem lostLinksStopTheirPort : Obligations.LostLinksStopTheirPort := by
  intro s p
  refine ⟨exec_silence_quiet, fun hf hheld c k l hc => ?_⟩
  have hlost : ∃ t, exec c s = .next t ∧ LinkLost s t p k l ∧
      (l = .probing → t.ports[p].receiver = s.ports[p].receiver) := by
    rcases hc with ⟨rfl, rfl, rfl, hl, hclock⟩ | ⟨⟨cc, caps, ms, ld, w, rfl, hcaps, hld, rfl⟩, rfl, hup⟩ |
      ⟨rfl, rfl, hup, hserve, n, hn⟩
    · obtain ⟨t, hexec, hlost, hreceiver⟩ := silence_lost hf hheld hl hclock
      exact ⟨t, hexec, hlost, fun _ => hreceiver⟩
    · obtain ⟨t, hexec, hlost⟩ := ident_lost (cc := cc) (ms := ms) (w := w) hf hheld hup hcaps hld
      exact ⟨t, hexec, hlost, fun h => by split at h <;> cases h⟩
    · obtain ⟨t, hexec, hlost⟩ := fault_lost hf hheld hup (exec_fault hup hserve hn)
      exact ⟨t, hexec, hlost, nofun⟩
  obtain ⟨t, hexec, ⟨hraised, hsettled, hjobs, hsetup, hlink, hcause, hsent, hdetached, hothers, hkeeps⟩,
    hreceiver⟩ := hlost
  refine ⟨t, hexec, hraised, hsettled, hjobs, hsetup, hlink, hcause, hreceiver, ?_, hdetached, hothers, hkeeps⟩
  rcases l with _ | _ | _ | _ <;> exact hsent

end Sys2Proof.Machine
end

