-- ==== Sys2Proof/Proofs/SheetRuns.lean ====
section
/-! SUPPORT. Sheet events one after the other, as a JAM confirms them (R10, R127, R149): the port's meters and the
frame of the jobs. -/

set_option Elab.async false

namespace Sys2Proof.Machine

open Sys2Proof.Safety

variable {s t u : State} {p q : PortId} {j k : SlotId} {r : RecordId} {e f : SendEntry} {es rest : List SendEntry}
  {m : MeterSet} {x y z : Job}

-- ## Sums that stop at a top

/-- A count takes amounts one after the other, and stops at its top (R121, R122). -/
def capped (top x : Nat) (ns : List Nat) : Nat := ns.foldl (fun x n => min (x + n) top) x

theorem capped_eq (top x : Nat) {ns : List Nat} (h : ns ≠ []) : capped top x ns = min (x + ns.sum) top := by
  induction ns generalizing x with
  | nil => exact absurd rfl h
  | cons n ns ih =>
    change capped top (min (x + n) top) ns = _
    rw [List.sum_cons]
    by_cases hns : ns = []
    · subst hns
      rfl
    · rw [ih _ hns]
      omega

-- ## Meters

/-- A meter set counts the sheets of a list of entries (R107). -/
def MeterSet.sheetAll (es : List SendEntry) (m : MeterSet) : MeterSet :=
  es.foldl (fun m e => m.countSheet e.colour e.faces) m

theorem MeterSet.sheetAll_cons (e : SendEntry) (es : List SendEntry) (m : MeterSet) :
    m.sheetAll (e :: es) = (m.countSheet e.colour e.faces).sheetAll es := rfl

theorem MeterSet.sheetAll_rest (es : List SendEntry) (m : MeterSet) :
    (m.sheetAll es).taken = m.taken ∧ (m.sheetAll es).spoiled = m.spoiled := by
  induction es generalizing m with
  | nil => exact ⟨rfl, rfl⟩
  | cons e es ih =>
    obtain ⟨htaken, hspoiled⟩ := ih (m.countSheet e.colour e.faces)
    rw [MeterSet.sheetAll_cons, htaken, hspoiled, MeterSet.countSheet_eq]
    exact ⟨rfl, rfl⟩

theorem MeterSet.sheetAll_sheets (h : es ≠ []) (m : MeterSet) :
    (m.sheetAll es).sheets = (m.sheets + es.length) % 1000000000 := by
  induction es generalizing m with
  | nil => exact absurd rfl h
  | cons e es ih =>
    have hone : (m.countSheet e.colour e.faces).sheets = (m.sheets + 1) % 1000000000 := by rw [MeterSet.countSheet_eq]
    by_cases hes : es = []
    · subst hes
      exact hone
    · rw [MeterSet.sheetAll_cons, ih hes, hone, List.length_cons]
      omega

/-- A meter of a set that counts the faces of one colour (R107). -/
theorem MeterSet.sheetAll_meter {c : Colour} {g : MeterSet → Nat}
    (hg : ∀ (m : MeterSet) (d : Colour) (n : Nat), g (m.countSheet d n) = if d = c then (g m + n) % 1000000000 else g m)
    (h : g m < 1000000000) (es : List SendEntry) :
    g (m.sheetAll es) = (g m + facesOf es (fun f => f.colour == c)) % 1000000000 := by
  induction es generalizing m with
  | nil => exact (Nat.mod_eq_of_lt h).symm
  | cons e es ih =>
    have hstep := hg m e.colour e.faces
    rw [MeterSet.sheetAll_cons, facesOf_cons]
    by_cases hc : e.colour = c
    · rw [if_pos hc] at hstep
      rw [ih (by rw [hstep]; exact Nat.mod_lt _ (by decide)), hstep, if_pos (beq_iff_eq.2 hc)]
      omega
    · rw [if_neg hc] at hstep
      rw [ih (by rw [hstep]; exact h), hstep, if_neg (by rwa [beq_iff_eq]), Nat.zero_add]

theorem MeterSet.sheetAll_colours (m : MeterSet) (es : List SendEntry) :
    (m.mono < 1000000000 →
      (m.sheetAll es).mono = (m.mono + facesOf es (fun f => f.colour == .mono)) % 1000000000) ∧
    (m.spot < 1000000000 →
      (m.sheetAll es).spot = (m.spot + facesOf es (fun f => f.colour == .spot)) % 1000000000) ∧
    (m.full < 1000000000 →
      (m.sheetAll es).full = (m.full + facesOf es (fun f => f.colour == .full)) % 1000000000) :=
  ⟨fun h => MeterSet.sheetAll_meter (g := MeterSet.mono) (fun m d n => by rw [MeterSet.countSheet_eq]) h es,
    fun h => MeterSet.sheetAll_meter (g := MeterSet.spot) (fun m d n => by rw [MeterSet.countSheet_eq]) h es,
    fun h => MeterSet.sheetAll_meter (g := MeterSet.full) (fun m d n => by rw [MeterSet.countSheet_eq]) h es⟩

-- ## The port

theorem confirm_cons (s : State) (p : PortId) (e : SendEntry) (es : List SendEntry) :
    s.confirm p (e :: es) = (s.sheetEvent p e).confirm p es := rfl

theorem confirm_append (s : State) (p : PortId) (es rest : List SendEntry) :
    s.confirm p (es ++ rest) = (s.confirm p es).confirm p rest := List.foldl_append

/-- A sheet event for the oldest entry of a port at which no send is in progress. -/
theorem sheetEvent_ports_head (hw : s.ports[p].window = e :: rest) (hn : s.ports[p].sending = none) :
    (s.sheetEvent p e).ports[p] = { s.ports[p] with
      window := rest, lifetime := s.ports[p].lifetime.countSheet e.colour e.faces
      period := s.ports[p].period.countSheet e.colour e.faces } := by
  rw [sheetEvent_ports, sheetCounted_ports_self, hw, List.erase_cons_head, hn]
  rw [← hn]
  simp

theorem event_ports_ne (h : q ≠ p) : (s.sheetEvent p e).ports[q] = s.ports[q] := by
  rw [sheetEvent_ports, sheetCounted_ports_ne h]

/-- The confirmed entries have left their window, and both meter sets count them. -/
theorem confirm_ports_self (hw : s.ports[p].window = es ++ rest) (hn : s.ports[p].sending = none) :
    (s.confirm p es).ports[p] = { s.ports[p] with
      window := rest, lifetime := s.ports[p].lifetime.sheetAll es, period := s.ports[p].period.sheetAll es } := by
  induction es generalizing s with
  | nil =>
    rw [List.nil_append] at hw
    rw [← hw]
    rfl
  | cons e es ih =>
    rw [List.cons_append] at hw
    have hport := sheetEvent_ports_head hw hn
    rw [confirm_cons, ih (by rw [hport]) (by rw [hport]; exact hn), hport]
    rfl

theorem confirm_ports_ne (h : q ≠ p) : (s.confirm p es).ports[q] = s.ports[q] := by
  induction es generalizing s with
  | nil => rfl
  | cons e es ih => exact ih.trans (event_ports_ne h)

theorem confirm_unsent (h : s.ports[p].sending = none) (es : List SendEntry) : (s.confirm p es).pressLog = s.pressLog :=
  s.confirm_pressLog p es h

-- ## The jobs

/-- The record differs in what a sheet counts and charges alone (R10). -/
def Job.CountedFrom (x y : Job) : Prop := y = { x with
  sheets := y.sheets, faces := y.faces, proofFaces := y.proofFaces, copiesDone := y.copiesDone, charge := y.charge
  saturated := y.saturated, pages := y.pages }

theorem Job.CountedFrom.refl (x : Job) : x.CountedFrom x := rfl

theorem Job.CountedFrom.trans (h : x.CountedFrom y) (h' : y.CountedFrom z) : x.CountedFrom z := by
  unfold Job.CountedFrom at *
  rw [h'.trans (by rw [h])]

theorem sheetCounted_from (s : State) (p : PortId) (e : SendEntry) (j : SlotId) :
    s.jobs[j].CountedFrom (s.sheetCounted p e).jobs[j] := by
  by_cases hj : j = e.job
  · subst hj
    exact sheetCounted_frame s p e
  · rw [sheetCounted_jobs_ne hj]
    exact .refl _

theorem event_jobs_ne (h : k ≠ e.job) : (s.sheetEvent p e).jobs[k] = s.jobs[k] := by
  rw [sheetEvent_eq, afterSheet_jobs_ne h, sheetCounted_jobs_ne h]

theorem confirm_jobs_ne (h : ∀ f ∈ es, f.job ≠ j) : (s.confirm p es).jobs[j] = s.jobs[j] := by
  induction es generalizing s with
  | nil => rfl
  | cons e es ih =>
    rw [confirm_cons, ih fun f hf => h f (List.mem_cons_of_mem e hf),
      event_jobs_ne fun hc => h e List.mem_cons_self hc.symm]

/-- A sheet of a job that has more entries, or is neither HANDED nor CANCELLING, leaves it where it was. -/
theorem sheetEvent_from (hw : s.ports[p].window = e :: rest)
    (h : (s.jobs[j].state ≠ .handed ∧ s.jobs[j].state ≠ .cancelling) ∨ ∃ f ∈ rest, f.job = j) :
    s.jobs[j].CountedFrom (s.sheetEvent p e).jobs[j] := by
  by_cases hj : j = e.job
  · subst hj
    have hcounted := sheetCounted_from s p e e.job
    have hstay : (s.sheetEvent p e).jobs = (s.sheetCounted p e).jobs := by
      rw [sheetEvent_eq]
      refine afterSheet_jobs_stay (h.imp (fun hs => ?_) fun hf => ?_)
      · rw [hcounted]
        exact hs
      · refine hasEntries_of_front (p := p) (front := rest) ?_ hf
        rw [sheetCounted_ports_self, hw, List.erase_cons_head]
    rw [hstay]
    exact hcounted
  · rw [event_jobs_ne hj]
    exact .refl _

theorem confirm_from (hw : s.ports[p].window = es ++ rest)
    (h : (s.jobs[j].state ≠ .handed ∧ s.jobs[j].state ≠ .cancelling) ∨ ∃ f ∈ rest, f.job = j) :
    s.jobs[j].CountedFrom (s.confirm p es).jobs[j] := by
  induction es generalizing s with
  | nil => exact .refl _
  | cons e es ih =>
    have hfrom := sheetEvent_from (j := j) hw (h.imp_right fun ⟨f, hf, hj⟩ => ⟨f, List.mem_append_right _ hf, hj⟩)
    have hwindow : (s.sheetEvent p e).ports[p].window = es ++ rest := by
      rw [sheetEvent_ports, sheetCounted_ports_self, hw]
      exact List.erase_cons_head ..
    refine hfrom.trans (ih hwindow (h.imp_left fun hs => ?_))
    rw [hfrom]
    exact hs

end Sys2Proof.Machine
end

