-- ==== Sys2Proof/Proofs/SheetCounts.lean ====
section
/-! SUPPORT. What the confirmed sheets count and charge, on jobs and accounts (R10, R119 to R123, R136). -/

set_option Elab.async false

namespace Sys2Proof.Machine

open Sys2Proof.Safety

variable {s t u : State} {p q : PortId} {j k : SlotId} {r r' : RecordId} {e f : SendEntry} {es rest : List SendEntry}
  {a : AccountId}

-- ## One sheet

/-- What a sheet event counts and charges on its job, whether or not the page is still held (R10). -/
theorem sheetEvent_counts (s : State) (p : PortId) (e : SendEntry) :
    (s.sheetEvent p e).jobs[e.job].sheets = min (s.jobs[e.job].sheets + 1) 16777215 ∧
    (s.sheetEvent p e).jobs[e.job].faces = min (s.jobs[e.job].faces + e.faces) 16777215 ∧
    (s.sheetEvent p e).jobs[e.job].charge = min (s.jobs[e.job].charge + s.sheetNet e) 999999999999 := by
  obtain ⟨-, l, hl⟩ := countPage_frame (s.sheetMetered p e) e
  obtain ⟨st, re, pr, cc, cp, pd, fl, no, hafter⟩ := afterSheet_counts (s.sheetCounted p e) e.job
  rw [sheetEvent_eq, hafter, sheetCounted_jobs_self, hl, sheetMetered_jobs_self]
  exact ⟨rfl, rfl, rfl⟩

/-- What a sheet event leaves of every job's record. -/
theorem sheetEvent_fixed (s : State) (p : PortId) (e : SendEntry) (k : SlotId) :
    (s.sheetEvent p e).jobs[k].account = s.jobs[k].account ∧ (s.sheetEvent p e).jobs[k].closed = s.jobs[k].closed ∧
      (s.sheetEvent p e).jobs[k].finishing = s.jobs[k].finishing ∧
      (s.sheetEvent p e).jobs[k].pages = (s.sheetCounted p e).jobs[k].pages := by
  by_cases hk : k = e.job
  · subst hk
    have hcounted := sheetCounted_frame s p e
    obtain ⟨st, re, pr, cc, cp, pd, fl, no, hafter⟩ := afterSheet_counts (s.sheetCounted p e) e.job
    rw [sheetEvent_eq, hafter]
    refine ⟨?_, ?_, ?_, rfl⟩
    · exact (congrArg Job.account hcounted).trans rfl
    · exact (congrArg Job.closed hcounted).trans rfl
    · exact (congrArg Job.finishing hcounted).trans rfl
  · rw [event_jobs_ne hk, sheetCounted_jobs_ne hk]
    exact ⟨rfl, rfl, rfl, rfl⟩

/-- What a sheet event leaves of every account. -/
theorem sheetEvent_account (s : State) (p : PortId) (e : SendEntry) (a : AccountId) :
    (s.sheetEvent p e).accounts[a] = if s.jobs[e.job].account = a then { s.accounts[a] with
        periodFaces := min (s.accounts[a].periodFaces + e.faces) 16777215
        periodCharge := min (s.accounts[a].periodCharge + s.sheetNet e) 999999999999
        saturated := s.accounts[a].saturated || decide (999999999999 ≤ s.accounts[a].periodCharge + s.sheetNet e)
        allowance := if s.accounts[a].unmetered then s.accounts[a].allowance else s.accounts[a].allowance - e.faces
        reserved := s.accounts[a].reserved - e.faces }
      else s.accounts[a] := by
  rw [(sheetEvent_store s p e).1]
  split
  next h =>
    subst h
    rw [sheetCounted_accounts_self, convert_addSheet]
  next h => rw [sheetCounted_accounts_ne fun hc => h hc.symm]

theorem sheetEvent_tariffs (s : State) (p : PortId) (e : SendEntry) : (s.sheetEvent p e).tariffs = s.tariffs :=
  (State.sheetEvent_keeps s p e).part .tariffs

-- ## The net of a later sheet

/-- A sheet frees its own place of the page list at most (R62). -/
theorem sheetEvent_pages (hr : s.jobs[e.job].pageAt e.place = some r) (p : PortId) (k : SlotId) :
    (s.sheetEvent p e).jobs[k].pages = s.jobs[k].pages ∨
      k = e.job ∧ (s.sheetEvent p e).jobs[k].pages = s.jobs[k].pages.set (e.place - 1) none := by
  by_cases hk : k = e.job
  · subst hk
    obtain ⟨hfreed, hstays, hproof, -⟩ := sheetCounted_pages (p := p) hr
    rw [(sheetEvent_fixed s p e e.job).2.2.2]
    rcases hp : s.jobs[e.job].proofRun with _ | _
    · by_cases hc : s.jobs[e.job].closed = true ∧ s.pages[r].sheeted + 1 = s.jobs[e.job].copies
      · exact .inr ⟨rfl, (hfreed hp hc.1 hc.2).2.2⟩
      · exact .inl (hstays hp (not_and_or.1 hc |>.imp_left Bool.eq_false_iff.2)).2.2
    · exact .inl (hproof hp).2.2
  · rw [event_jobs_ne hk]
    exact .inl rfl

theorem pageAt_ne_zero {x : Job} {n : Nat} (h : x.pageAt n = some r) : n ≠ 0 := by
  rintro rfl
  cases h

theorem pageAt_congr {x y : Job} {n : Nat} (h : y.pages[n - 1]? = x.pages[n - 1]?) : y.pageAt n = x.pageAt n := by
  unfold Job.pageAt
  rw [h]

theorem sheetEvent_pageAt {n : Nat} (hr : s.jobs[e.job].pageAt e.place = some r) (hk : s.jobs[k].pageAt n = some r')
    (hne : r ≠ r') : (s.sheetEvent p e).jobs[k].pageAt n = some r' := by
  rw [← hk]
  refine pageAt_congr ?_
  rcases sheetEvent_pages hr p k with hpages | ⟨rfl, hpages⟩
  · rw [hpages]
  · have hplace : n ≠ e.place := by
      rintro rfl
      exact hne (Option.some.inj (hr.symm.trans hk))
    have he0 := pageAt_ne_zero hr
    have hn0 := pageAt_ne_zero hk
    rw [hpages, List.getElem?_set_ne (by omega)]

/-- The entries' pages are held, and no two are the same. -/
def Held (s : State) (es : List SendEntry) : Prop :=
  (∀ f ∈ es, ∃ r, s.jobs[f.job].pageAt f.place = some r) ∧ (es.map (fun f => s.jobs[f.job].pageAt f.place)).Nodup

theorem Held.head_ne (h : Held s (e :: es)) (hf : f ∈ es) (hr : s.jobs[e.job].pageAt e.place = some r)
    (hr' : s.jobs[f.job].pageAt f.place = some r') : r ≠ r' := by
  rintro rfl
  obtain ⟨-, hnodup⟩ := h
  rw [List.map_cons, List.nodup_cons] at hnodup
  exact hnodup.1 (List.mem_map.2 ⟨f, hf, hr'.trans hr.symm⟩)

theorem Held.pageAt_event (h : Held s (e :: es)) (hf : f ∈ es) :
    (s.sheetEvent p e).jobs[f.job].pageAt f.place = s.jobs[f.job].pageAt f.place := by
  obtain ⟨r, hr⟩ := h.1 e List.mem_cons_self
  obtain ⟨r', hr'⟩ := h.1 f (List.mem_cons_of_mem e hf)
  rw [sheetEvent_pageAt hr hr' (h.head_ne hf hr hr'), hr']

theorem Held.event (h : Held s (e :: es)) (p : PortId) : Held (s.sheetEvent p e) es := by
  refine ⟨fun f hf => ?_, ?_⟩
  · rw [h.pageAt_event hf]
    exact h.1 f (List.mem_cons_of_mem e hf)
  · rw [List.map_congr_left fun f hf => h.pageAt_event hf]
    obtain ⟨-, hnodup⟩ := h
    rw [List.map_cons, List.nodup_cons] at hnodup
    exact hnodup.2

/-- A sheet leaves the net of a later one whose page is another (R114 to R120). -/
theorem Held.sheetNet_event (h : Held s (e :: es)) (hf : f ∈ es) : (s.sheetEvent p e).sheetNet f = s.sheetNet f := by
  obtain ⟨r, hr⟩ := h.1 e List.mem_cons_self
  obtain ⟨r', hr'⟩ := h.1 f (List.mem_cons_of_mem e hf)
  have hne := h.head_ne hf hr hr'
  have hlater := sheetEvent_pageAt (p := p) hr hr' hne
  have htariffs := sheetEvent_tariffs s p e
  have hrate : (s.sheetEvent p e).lookupRate = s.lookupRate := by
    unfold State.lookupRate
    rw [htariffs]
  have hsurcharge : (s.sheetEvent p e).surchargeOf = s.surchargeOf := by
    unfold State.surchargeOf State.lookupSurcharge
    rw [htariffs]
  obtain ⟨haccount, hclosed, hfinishing, -⟩ := sheetEvent_fixed s p e f.job
  have hmedia : (s.sheetEvent p e).pages[r'].media = s.pages[r'].media := by
    obtain ⟨-, -, -, hothers⟩ := sheetCounted_pages (p := p) hr
    rw [(sheetEvent_store s p e).2.1, hothers r' hne.symm]
  have hends : (s.sheetEvent p e).jobs[f.job].endsCopySet f.place = s.jobs[f.job].endsCopySet f.place := by
    have hlength : (s.sheetEvent p e).jobs[f.job].pages.length = s.jobs[f.job].pages.length := by
      rcases sheetEvent_pages hr p f.job with hpages | ⟨-, hpages⟩
      · rw [hpages]
      · rw [hpages, List.length_set]
    unfold Job.endsCopySet
    rw [hclosed, hlength]
  have hfixed : ∀ a : AccountId, (s.sheetEvent p e).accounts[a].group = s.accounts[a].group ∧
      (s.sheetEvent p e).accounts[a].discount = s.accounts[a].discount := fun a => by
    rw [sheetEvent_account]
    split <;> exact ⟨rfl, rfl⟩
  rw [sheetNet_eq hlater, sheetNet_eq hr', hrate, hsurcharge, hmedia, hends, hfinishing]
  simp only [haccount, (hfixed _).1, (hfixed _).2]

-- ## Sheet events one after the other

/-- A count of the state to which each sheet event of the entries that `keep` chooses adds its amount, up to a top. -/
theorem confirm_capped {g : State → Nat} {R : State → List SendEntry → Prop} {top : Nat} {keep : SendEntry → Bool}
    {amount : SendEntry → Nat} (hstep : ∀ u e es, R u (e :: es) → R (u.sheetEvent p e) es ∧
      g (u.sheetEvent p e) = if keep e then min (g u + amount e) top else g u) (h : R s es) :
    g (s.confirm p es) = capped top (g s) ((es.filter keep).map amount) := by
  induction es generalizing s with
  | nil => rfl
  | cons e es ih =>
    obtain ⟨hnext, hg⟩ := hstep s e es h
    rw [confirm_cons, ih hnext, hg]
    by_cases hk : keep e = true
    · rw [if_pos hk, List.filter_cons_of_pos hk]
      rfl
    · rw [if_neg hk, List.filter_cons_of_neg hk]

theorem confirm_sheets (s : State) (p : PortId) (es : List SendEntry) (j : SlotId) : (s.confirm p es).jobs[j].sheets =
    capped 16777215 s.jobs[j].sheets ((es.filter (fun f => f.job == j)).map (fun _ => 1)) := by
  refine confirm_capped (g := fun u => u.jobs[j].sheets) (R := fun _ _ => True) (fun u e es _ => ⟨trivial, ?_⟩) trivial
  split
  next h =>
    obtain rfl := beq_iff_eq.1 h
    exact (sheetEvent_counts u p e).1
  next h => rw [event_jobs_ne fun hc => h (beq_iff_eq.2 hc.symm)]

theorem confirm_faces (s : State) (p : PortId) (es : List SendEntry) (j : SlotId) : (s.confirm p es).jobs[j].faces =
    capped 16777215 s.jobs[j].faces ((es.filter (fun f => f.job == j)).map SendEntry.faces) := by
  refine confirm_capped (g := fun u => u.jobs[j].faces) (R := fun _ _ => True) (fun u e es _ => ⟨trivial, ?_⟩) trivial
  split
  next h =>
    obtain rfl := beq_iff_eq.1 h
    exact (sheetEvent_counts u p e).2.1
  next h => rw [event_jobs_ne fun hc => h (beq_iff_eq.2 hc.symm)]

/-- The charges to come are those that the state shows now. -/
structure NetsFrom (s u : State) (es : List SendEntry) : Prop where
  held : Held u es
  nets : ∀ f ∈ es, u.sheetNet f = s.sheetNet f
  accounts : ∀ k : SlotId, u.jobs[k].account = s.jobs[k].account

theorem NetsFrom.event (h : NetsFrom s u (e :: es)) (p : PortId) : NetsFrom s (u.sheetEvent p e) es where
  held := h.held.event p
  nets f hf := (h.held.sheetNet_event hf).trans (h.nets f (List.mem_cons_of_mem e hf))
  accounts k := (sheetEvent_fixed u p e k).1.trans (h.accounts k)

theorem confirm_charge (h : Held s es) (p : PortId) (j : SlotId) : (s.confirm p es).jobs[j].charge =
    capped 999999999999 s.jobs[j].charge ((es.filter (fun f => f.job == j)).map s.sheetNet) := by
  refine confirm_capped (g := fun u => u.jobs[j].charge) (R := NetsFrom s) (fun u e es hu => ⟨hu.event p, ?_⟩)
    ⟨h, fun _ _ => rfl, fun _ => rfl⟩
  rw [← hu.nets e List.mem_cons_self]
  split
  next h =>
    obtain rfl := beq_iff_eq.1 h
    exact (sheetEvent_counts u p e).2.2
  next h => rw [event_jobs_ne fun hc => h (beq_iff_eq.2 hc.symm)]

theorem confirm_periodCharge (h : Held s es) (p : PortId) (a : AccountId) : (s.confirm p es).accounts[a].periodCharge =
    capped 999999999999 s.accounts[a].periodCharge
      ((es.filter (fun f => s.jobs[f.job].account == a)).map s.sheetNet) := by
  refine confirm_capped (g := fun u => u.accounts[a].periodCharge) (R := NetsFrom s) (fun u e es hu => ⟨hu.event p, ?_⟩)
    ⟨h, fun _ _ => rfl, fun _ => rfl⟩
  rw [← hu.nets e List.mem_cons_self, ← hu.accounts e.job, sheetEvent_account]
  simp only [beq_iff_eq]
  split <;> rfl

/-- The jobs' accounts are those that the state shows now. -/
def AccountsFrom (s u : State) : Prop := ∀ k : SlotId, u.jobs[k].account = s.jobs[k].account

theorem AccountsFrom.event (h : AccountsFrom s u) (p : PortId) (e : SendEntry) : AccountsFrom s (u.sheetEvent p e) :=
  fun k => (sheetEvent_fixed u p e k).1.trans (h k)

theorem confirm_periodFaces (s : State) (p : PortId) (es : List SendEntry) (a : AccountId) :
    (s.confirm p es).accounts[a].periodFaces = capped 16777215 s.accounts[a].periodFaces
      ((es.filter (fun f => s.jobs[f.job].account == a)).map SendEntry.faces) := by
  refine confirm_capped (g := fun u => u.accounts[a].periodFaces) (R := fun u _ => AccountsFrom s u)
    (fun u e es hu => ⟨AccountsFrom.event hu p e, ?_⟩) fun _ => rfl
  rw [← hu e.job, sheetEvent_account]
  simp only [beq_iff_eq]
  split <;> rfl

/-- The reservation and the allowance behind the sheets (R136). -/
theorem confirm_reserved (hu : AccountsFrom s u) (p : PortId) (es : List SendEntry) (a : AccountId) :
    (u.confirm p es).accounts[a].reserved =
      u.accounts[a].reserved - facesOf es (fun f => s.jobs[f.job].account == a) ∧
    (u.confirm p es).accounts[a].allowance = (if u.accounts[a].unmetered then u.accounts[a].allowance
      else u.accounts[a].allowance - facesOf es (fun f => s.jobs[f.job].account == a)) := by
  induction es generalizing u with
  | nil => exact ⟨rfl, (ite_self _).symm⟩
  | cons e es ih =>
    obtain ⟨hreserved, hallowance⟩ := ih (AccountsFrom.event hu p e)
    rw [confirm_cons, hreserved, hallowance, sheetEvent_account, facesOf_cons, hu e.job]
    simp only [beq_iff_eq]
    split
    next => exact ⟨Nat.sub_sub _ _ _, by split <;> simp only [Nat.sub_sub]⟩
    next => exact ⟨by rw [Nat.zero_add], by simp only [Nat.zero_add]⟩

theorem confirm_accounts_other (hu : AccountsFrom s u) (p : PortId) (h : ∀ f ∈ es, s.jobs[f.job].account ≠ a) :
    (u.confirm p es).accounts[a] = u.accounts[a] := by
  induction es generalizing u with
  | nil => rfl
  | cons e es ih =>
    rw [confirm_cons, ih (AccountsFrom.event hu p e) fun f hf => h f (List.mem_cons_of_mem e hf), sheetEvent_account,
      if_neg (by rw [hu e.job]; exact h e List.mem_cons_self)]

theorem confirm_accountsFrom (s : State) (p : PortId) (es : List SendEntry) : AccountsFrom s (s.confirm p es) := by
  have hfrom : ∀ (es : List SendEntry) (u : State), AccountsFrom s u → AccountsFrom s (u.confirm p es) := by
    intro es
    induction es with
    | nil => exact fun _ h => h
    | cons e es ih => exact fun u h => ih _ (AccountsFrom.event h p e)
  exact hfrom es s fun _ => rfl

/-- The nets that the claims name are those of the sheet events (R114 to R120). -/
theorem netsOf_eq (h : Held s es) (keep : SendEntry → Bool) :
    netsOf s es keep = ((es.filter keep).map s.sheetNet).sum := by
  unfold netsOf
  congr 1
  refine List.map_congr_left fun f hf => ?_
  obtain ⟨r, hr⟩ := h.1 f (List.mem_filter.1 hf).1
  simp only [hr]
  exact net_of_formulas hr rfl rfl (surchargeOf_eq s _ _ _).symm rfl rfl

end Sys2Proof.Machine
end

