-- ==== Sys2Proof/Proofs/SheetedJobs.lean ====
section
/-! SUPPORT. What the confirmed sheets make of a job's state and of the queues (R10 to R12, R16, R44, R149). -/

set_option Elab.async false

namespace Sys2Proof.Machine

open Sys2Proof.Safety

variable {s t u : State} {p q : PortId} {j k : SlotId} {e f : SendEntry} {es rest front back w : List SendEntry}
  {x y z : Job} {n : Serial}

-- ## The queues' REROUTE options

theorem deliverGives_reroute (s : State) (j : SlotId) (k : QueueId) :
    (s.deliverGives j).queues[k].reroute = s.queues[k].reroute := by
  rw [deliverGives_queues]
  split
  next =>
    unfold Queue.given
    split <;> rfl
  next => rfl

theorem becomeDone_reroute (s : State) (j : SlotId) (k : QueueId) :
    (s.becomeDone j).queues[k].reroute = s.queues[k].reroute := by
  have hflag : (s.becomeDone j).queues = ((s.updJob j (Job.enter .done)).deliverGives j).queues :=
    State.flagJob_queues _ j .done
  have hgives := deliverGives_reroute (s.updJob j (Job.enter .done)) j k
  rw [← hflag] at hgives
  exact hgives

theorem completeProof_queues (s : State) (j : SlotId) : (s.completeProof j).queues = s.queues :=
  (((State.updJob_keeps s j _).trans (State.flagJob_keeps _ j .proofDone)).trans
    (State.makeWaiting_keeps _ j .hold)).part
    .queues

/-- What follows a sheet, by the job's state (R10 step 5, R16, R181). -/
theorem afterSheet_cases (s : State) (j : SlotId) : s.afterSheet j = s ∨ s.afterSheet j = s.completeProof j ∨
    s.afterSheet j = s.becomeDone j ∨ s.afterSheet j = s.flagJob j .cancelled ∨
    s.afterSheet j = s.askIfRun s.jobs[j].queue := by
  unfold State.afterSheet State.completeJob
  split
  next => exact .inl rfl
  next =>
    split
    next =>
      split
      next => exact .inr (.inl rfl)
      next => exact .inr (.inr (.inl rfl))
    next => exact .inr (.inr (.inr (.inl rfl)))
    next => exact .inr (.inr (.inr (.inr rfl)))
    next => exact .inl rfl

theorem afterSheet_reroute (s : State) (j : SlotId) (k : QueueId) :
    (s.afterSheet j).queues[k].reroute = s.queues[k].reroute := by
  rcases afterSheet_cases s j with h | h | h | h | h <;> rw [h]
  · rw [completeProof_queues]
  · exact becomeDone_reroute s j k
  · rw [State.flagJob_queues]
  · rw [State.askIfRun_queues]

theorem sheetEvent_reroute (s : State) (p : PortId) (e : SendEntry) (k : QueueId) :
    (s.sheetEvent p e).queues[k].reroute = s.queues[k].reroute := by
  rw [sheetEvent_eq, afterSheet_reroute, (sheetCounted_keeps s p e).part .queues]

theorem confirm_reroute (s : State) (p : PortId) (es : List SendEntry) (k : QueueId) :
    (s.confirm p es).queues[k].reroute = s.queues[k].reroute := by
  induction es generalizing s with
  | nil => rfl
  | cons e es ih => exact (ih _).trans (sheetEvent_reroute s p e k)

-- ## A job whose last entry is confirmed

/-- The record behind the last sheet of a job (R10 step 5, R11, R12, R16). -/
structure Job.SheetedOut (x y : Job) : Prop where
  exclusion : y.exclusion = x.exclusion
  feed : y.feedPort = x.feedPort
  done : x.state = .handed → x.proofRun = false → y.state = .done ∧ hasBit y.flags 1 = true
  proof : x.state = .handed → x.proofRun = true →
    y.state = .waiting ∧ y.reason = some .hold ∧ hasBit y.flags 7 = true
  stays : x.state ≠ .handed → y.state = x.state ∧ y.reason = x.reason ∧
    hasBit y.flags 2 = (hasBit x.flags 2 || x.state == .cancelling)

theorem Job.SheetedOut.of_counted (h : x.CountedFrom y) (h' : y.SheetedOut z) : x.SheetedOut z := by
  obtain ⟨hexclusion, hfeed, hdone, hproof, hstays⟩ := h'
  unfold Job.CountedFrom at h
  rw [h] at hexclusion hfeed hdone hproof hstays
  exact ⟨hexclusion, hfeed, hdone, hproof, hstays⟩

theorem afterSheet_sheetedOut (h : s.hasEntries j = false) : s.jobs[j].SheetedOut (s.afterSheet j).jobs[j] := by
  by_cases hh : s.jobs[j].state = .handed
  · rw [afterSheet_handed h hh]
    unfold State.completeJob
    split
    next hp =>
      rw [completeProof_jobs_self]
      exact ⟨rfl, rfl, fun _ hn => absurd (hp.symm.trans hn) (by decide), fun _ _ => ⟨rfl, rfl, by simp [JobFlag.bit]⟩,
        fun hn => absurd hh hn⟩
    next hp =>
      rw [becomeDone_jobs_self]
      exact ⟨rfl, rfl, fun _ _ => ⟨rfl, by simp⟩, fun _ hn => absurd hn hp, fun hn => absurd hh hn⟩
  by_cases hc : s.jobs[j].state = .cancelling
  · rw [afterSheet_cancelling h hc, flagJob_jobs_self]
    refine ⟨rfl, rfl, fun hn => absurd hn hh, fun hn => absurd hn hh, fun _ => ⟨rfl, rfl, ?_⟩⟩
    rw [hc, beq_self_eq_true, Bool.or_true]
    simp [JobFlag.bit]
  · rw [afterSheet_jobs_stay (.inl ⟨hh, hc⟩)]
    exact ⟨rfl, rfl, fun hn => absurd hn hh, fun hn => absurd hn hh,
      fun _ => ⟨rfl, rfl, by rw [beq_eq_false_iff_ne.2 hc, Bool.or_false]⟩⟩

theorem confirm_sheetedOut (hw : s.ports[p].window = es ++ rest) (hj : ∃ f ∈ es, f.job = j)
    (hrest : ∀ f ∈ rest, f.job ≠ j)
    (hhome : ∀ q, q ≠ p → ∀ f ∈ s.ports[q].window, f.job ≠ j) :
    s.jobs[j].SheetedOut (s.confirm p es).jobs[j] := by
  induction es generalizing s with
  | nil =>
    obtain ⟨f, hf, -⟩ := hj
    cases hf
  | cons e es ih =>
    rw [List.cons_append] at hw
    have hwindow : (s.sheetCounted p e).ports[p].window = es ++ rest := by
      rw [sheetCounted_ports_self, hw, List.erase_cons_head]
    rw [confirm_cons]
    by_cases hlater : ∃ f ∈ es, f.job = j
    · have hfrom := sheetEvent_from (j := j) hw
        (.inr (hlater.imp fun f ⟨hf, hfj⟩ => ⟨List.mem_append_left _ hf, hfj⟩))
      refine .of_counted hfrom (ih (by rw [sheetEvent_ports, hwindow]) hlater fun q hq => ?_)
      rw [event_ports_ne hq]
      exact hhome q hq
    · have hnone : ∀ f ∈ es, f.job ≠ j := fun f hf hfj => hlater ⟨f, hf, hfj⟩
      have hhead : e.job = j := by
        obtain ⟨f, hf, hfj⟩ := hj
        rcases List.mem_cons.1 hf with rfl | hf
        · exact hfj
        · exact absurd hfj (hnone f hf)
      subst hhead
      have hempty : (s.sheetCounted p e).hasEntries e.job = false :=
        no_entries_of_windows hwindow (fun q hq => sheetCounted_ports_ne hq)
          (fun f hf => (List.mem_append.1 hf).elim (hnone f) (hrest f)) hhome
      rw [confirm_jobs_ne hnone, sheetEvent_eq]
      exact .of_counted (sheetCounted_from s p e e.job) (afterSheet_sheetedOut hempty)

-- ## The confirmed entries

theorem confirmedEntries_none (h : ∀ e ∈ w, e.serial = n → e.state ≠ .taken) : confirmedEntries w (some n) = [] := by
  have hnone : w.findIdx? (fun e => e.serial == n && e.state == .taken) = none := by
    rw [List.findIdx?_eq_none_iff]
    intro e he
    rw [Bool.eq_false_iff]
    intro hc
    obtain ⟨hserial, hstate⟩ := Bool.and_eq_true_iff.1 hc
    exact h e he (beq_iff_eq.1 hserial) (beq_iff_eq.1 hstate)
  unfold confirmedEntries
  simp only [hnone]

/-- The entry that the serial names, and the older ones (R149). -/
theorem confirmedEntries_named (hn : e.serial = n) (ht : e.state = .taken)
    (hfront : ∀ f ∈ front, f.serial ≠ n ∧ f.state = .taken) :
    confirmedEntries (front ++ e :: back) (some n) = front ++ [e] := by
  have hfound : (front ++ e :: back).findIdx? (fun e => e.serial == n && e.state == .taken) = some front.length := by
    rw [List.findIdx?_append,
      List.findIdx?_eq_none_iff.2 fun f hf => by rw [beq_eq_false_iff_ne.2 (hfront f hf).1]; rfl,
      List.findIdx?_cons, hn, ht]
    simp
  unfold confirmedEntries
  simp only [hfound]
  rw [List.take_append, List.take_of_length_le (by omega), Nat.add_sub_cancel_left]
  rfl

end Sys2Proof.Machine
end

