-- ==== Sys2Proof/Proofs/JamStop.lean ====
section
/-! SUPPORT. A JAM of a port without a hold asked (R100, R149 to R151). -/

set_option Elab.async false

namespace Sys2Proof.Machine

open Sys2Proof.Safety

variable {s t u : State} {p q : PortId} {j k : SlotId} {e f : SendEntry} {es front back done w : List SendEntry}
  {loc present : Byte} {n : Serial} {serial : Option Serial} {a : AccountId}

-- ## The message

theorem exec_jam_bad (hup : s.ports[p].link = .up) (h : 1 < present.toNat) :
    exec (.jam p loc present n) s = .next (heardOnly s p) := by
  have hbad : isYesNo present = false := by
    rw [Bool.eq_false_iff]
    intro hc
    rw [isYesNo_iff] at hc
    omega
  exact congrArg Host.Outcome.next (pressMessage_heard (not_down_of_up hup) (.inl hbad))

theorem exec_jam (hup : s.ports[p].link = .up) (h : present = 0 ∨ present = 1) :
    exec (.jam p loc present n) s =
      .next ((s.hear p).jamTaken p loc (if present = 1 then some n else none)) := by
  have hgood : isYesNo present = true := by
    rw [isYesNo_iff]
    rcases h with rfl | rfl <;> decide
  refine (congrArg Host.Outcome.next (pressMessage_taken (not_down_of_up hup) hgood (taken := takenUp) ?_) :)
  rw [hup]
  rfl

-- ## The state that the stop condition starts from

/-- The state in which the JAM has been heard and the send has stopped. -/
def State.jammed (s : State) (p : PortId) : State := (s.hear p).stopSend p

theorem jammed_port (s : State) (p : PortId) : (s.jammed p).ports[p] = { heardPort s p with sending := none } := by
  unfold State.jammed
  rw [stopSend_ports_self, hear_ports_self]

theorem jammed_before (s : State) (p : PortId) : BeforeStop s (s.jammed p) p where
  window := by rw [jammed_port]; rfl
  owner := by rw [jammed_port]; rfl
  starve := by rw [jammed_port]; rfl
  serial := by rw [jammed_port]; rfl
  lifetime := by rw [jammed_port]; rfl
  period := by rw [jammed_port]; rfl
  others q hq := (State.stopSend_ports_ne _ _ _ hq).trans (hear_ports_ne hq)
  alert := by
    unfold State.jammed
    rw [(State.stopSend_keeps (s := s.hear p) p).part .alerts, (State.hear_keeps s p).part .alerts]
  keeps := ((State.hear_keeps s p).trans (State.stopSend_keeps _ p)).mono

theorem jammed_sent (s : State) (p : PortId) : ∃ cut, CutShort s p cut ∧ Sent s (s.jammed p) p cut :=
  ⟨(s.hear p).stoppedData p, cutShort_of_hear ((s.hear p).stoppedData_cutShort p), rfl⟩

/-- A JAM that confirms no entry is a stop condition of its own (R149, R150). -/
theorem jamTaken_none (h : confirmedEntries s.ports[p].window serial = []) :
    (s.hear p).jamTaken p loc serial = ((s.jammed p).stopped p .jam loc).holdTest p := by
  have hwindow : ((s.hear p).stopSend p).ports[p].window = s.ports[p].window := (jammed_before s p).window
  unfold State.jamTaken State.stopCondition
  rw [hwindow, h]
  rfl

theorem jam_unconfirmed (hup : s.ports[p].link = .up) (hheld : s.ports[p].holdAsked = false) (hf : FeedsAgree s)
    (h : present = 0 ∨ present = 1 ∧ ∀ e ∈ s.ports[p].window, e.serial = n → e.state ≠ .taken) :
    exec (.jam p loc present n) s = .next ((s.jammed p).stopped p .jam loc) := by
  have hnone : confirmedEntries s.ports[p].window (if present = 1 then some n else none) = [] := by
    rcases h with rfl | ⟨rfl, hn⟩
    · rfl
    · exact confirmedEntries_none hn
  rw [exec_jam hup (h.imp_right And.left), jamTaken_none hnone, holdTest_unheld]
  rw [(jammed_before s p).stopped_port hf, jammed_port]
  exact hheld

-- ## The confirmed entries

/-- The state in which the entries up to the last delivered one are sheets (R149). -/
def State.jamConfirmed (s : State) (p : PortId) (loc : Byte) (es : List SendEntry) : State :=
  ((s.jammed p).raiseStop p .jam loc).confirm p es

theorem jamTaken_confirmed (h : confirmedEntries s.ports[p].window serial = es) :
    (s.hear p).jamTaken p loc serial = ((s.jamConfirmed p loc es).settleStop p).holdTest p := by
  have hwindow : ((s.hear p).stopSend p).ports[p].window = s.ports[p].window := (jammed_before s p).window
  unfold State.jamTaken State.stopCondition
  rw [hwindow, h]
  rfl

theorem jamRaised_port (s : State) (p : PortId) (loc : Byte) :
    ((s.jammed p).raiseStop p .jam loc).ports[p] = { heardPort s p with sending := none } := by
  rw [((jammed_before s p).raised .jam loc).2, jammed_port]

theorem jamConfirmed_port (hw : s.ports[p].window = es ++ back) :
    (s.jamConfirmed p loc es).ports[p] = { heardPort s p with
    sending := none, window := back, lifetime := s.ports[p].lifetime.sheetAll es
    period := s.ports[p].period.sheetAll es } := by
  have hport := jamRaised_port s p loc
  unfold State.jamConfirmed
  rw [confirm_ports_self (rest := back) (by rw [hport]; exact hw) (by rw [hport]), hport]
  rfl

theorem jamConfirmed_ports_ne (hq : q ≠ p) : (s.jamConfirmed p loc es).ports[q] = s.ports[q] := by
  unfold State.jamConfirmed
  rw [confirm_ports_ne hq, ((jammed_before s p).raised .jam loc).2, (jammed_before s p).others q hq]

/-- The sheets are counted on the jobs and accounts as they stand. -/
theorem jamRaised_same (s : State) (p : PortId) (loc : Byte) :
    ((s.jammed p).raiseStop p .jam loc).jobs = s.jobs ∧ ((s.jammed p).raiseStop p .jam loc).accounts = s.accounts ∧
      ((s.jammed p).raiseStop p .jam loc).queues = s.queues ∧ ((s.jammed p).raiseStop p .jam loc).pages = s.pages ∧
      ((s.jammed p).raiseStop p .jam loc).tariffs = s.tariffs := by
  obtain ⟨hkeeps, -⟩ := (jammed_before s p).raised .jam loc
  exact ⟨hkeeps.part .jobs, hkeeps.part .accounts, hkeeps.part .queues, hkeeps.part .pages, hkeeps.part .tariffs⟩

theorem jamConfirmed_keeps (s : State) (p : PortId) (loc : Byte) (es : List SendEntry) : KeepsAllBut
    [.jobs, .queues, .markLine, .pages, .freePool, .ports, .accounts, .alerts, .openAlerts, .notices, .pressLog,
      .passInProgress, .passOwed] s (s.jamConfirmed p loc es) :=
  (((jammed_before s p).raised .jam loc).1.trans (State.confirm_keeps _ p es)).mono

theorem jamConfirmed_pressLog (s : State) (p : PortId) (loc : Byte) (es : List SendEntry) :
    (s.jamConfirmed p loc es).pressLog = (s.jammed p).pressLog := by
  have hport := jamRaised_port s p loc
  unfold State.jamConfirmed
  rw [confirm_unsent (by rw [hport])]
  exact (State.raiseStop_keeps (s := s.jammed p) p .jam loc).part .pressLog

theorem jamConfirmed_alerts (s : State) (p : PortId) (loc : Byte) (es : List SendEntry) :
    (s.jamConfirmed p loc es).alerts = ((s.jammed p).raiseStop p .jam loc).alerts ∧
      (s.jamConfirmed p loc es).openAlerts = ((s.jammed p).raiseStop p .jam loc).openAlerts := by
  have hkeeps := State.confirm_keeps (s := (s.jammed p).raiseStop p .jam loc) p es
  exact ⟨hkeeps.part .alerts, hkeeps.part .openAlerts⟩

/-- The raised alert stands behind the sheets and the settlement. -/
theorem jam_raised (s : State) (p : PortId) (loc : Byte) (es : List SendEntry) :
    StopRaised s ((s.jamConfirmed p loc es).settleStop p) p .jam loc := by
  obtain ⟨halerts, hopen⟩ := jamConfirmed_alerts s p loc es
  obtain ⟨affected, hslot⟩ := settleStop_alerts (s.jamConfirmed p loc es) p
  rw [halerts] at hslot
  have hbefore := jammed_before s p
  exact stopRaised_reads (stopRaised_stands (raiseStop_raised (s.jammed p) p .jam loc) hslot
    (((State.settleStop_keeps (s := s.jamConfirmed p loc es) p).part .openAlerts).trans hopen)) hbefore.alert.symm
    (hbefore.keeps.part .clock).symm (hbefore.keeps.part .timers).symm

-- ## The port and the accounts

theorem jam_port (hf : FeedsAgree s) (hw : s.ports[p].window = es ++ back) :
    ((s.jamConfirmed p loc es).settleStop p).ports[p] = { heardPort s p with
      window := [], sending := none, feedOwner := none, starveTimer := none
      releaseOwed := if s.ports[p].feedOwner = none then s.ports[p].releaseOwed else false
      lifetime := (s.ports[p].lifetime.sheetAll es).spoilAll back
      period := (s.ports[p].period.sheetAll es).spoilAll back } := by
  have hport := jamConfirmed_port (loc := loc) hw
  rw [settleStop_ports_self fun ho => by rw [hport] at ho ⊢; exact starveTimer_none_of_unowned hf ho, hport]
  rfl

theorem facesOf_append (es rest : List SendEntry) (keep : SendEntry → Bool) :
    facesOf (es ++ rest) keep = facesOf es keep + facesOf rest keep := by
  unfold facesOf
  rw [List.filter_append, List.map_append, List.sum_append]

theorem jamConfirmed_jobs (s : State) (p : PortId) (loc : Byte) (es : List SendEntry) :
    ∀ k : SlotId, (s.jamConfirmed p loc es).jobs[k].account = s.jobs[k].account := fun k => by
  have haccount := confirm_accountsFrom ((s.jammed p).raiseStop p .jam loc) p es k
  rw [(jamRaised_same s p loc).1] at haccount
  exact haccount

/-- The accounts behind the sheets and the settlement (R136, R137). -/
theorem jam_accounts (hw : s.ports[p].window = es ++ back) (a : AccountId) :
    ((s.jamConfirmed p loc es).settleStop p).accounts[a] = { (s.jamConfirmed p loc es).accounts[a] with
      reserved := s.accounts[a].reserved - windowFaces s p (fun f => s.jobs[f.job].account == a) } := by
  have hport := jamConfirmed_port (loc := loc) hw
  obtain ⟨hjobs, haccounts, -⟩ := jamRaised_same s p loc
  have hreserved := (confirm_reserved (s := s) (u := (s.jammed p).raiseStop p .jam loc)
      (fun k => by rw [hjobs]) p es a).1
  rw [haccounts] at hreserved
  have hback : windowFaces (s.jamConfirmed p loc es) p (fun f => (s.jamConfirmed p loc es).jobs[f.job].account == a) =
      facesOf back (fun f => s.jobs[f.job].account == a) := by
    unfold windowFaces
    simp only [jamConfirmed_jobs, hport]
    rfl
  have hall : windowFaces s p (fun f => s.jobs[f.job].account == a) =
      facesOf es (fun f => s.jobs[f.job].account == a) + facesOf back (fun f => s.jobs[f.job].account == a) := by
    rw [← facesOf_append, ← hw]
    rfl
  rw [settleStop_accounts, hback, hall, ← Nat.sub_sub, ← hreserved]
  rfl

end Sys2Proof.Machine
end

