-- ==== Sys2Proof/Proofs/JamJobs.lean ====
section
/-! SUPPORT. The jobs behind a JAM, and the statement on it (R10, R100, R149 to R151). -/

set_option Elab.async false

namespace Sys2Proof.Machine

open Sys2Proof.Safety

variable {s t u : State} {p q : PortId} {j k : SlotId} {e f : SendEntry} {es front back done w : List SendEntry}
  {loc present : Byte} {n : Serial} {a : AccountId} {x y : Job}

-- ## What a stop leaves of the counts

theorem stopped_counts (p : PortId) (es : List SendEntry) (j : SlotId) (tick : Tick) (b : Bool) (x : Job) :
    (x.stopped p es j tick b).sheets = x.sheets ∧ (x.stopped p es j tick b).faces = x.faces ∧
      (x.stopped p es j tick b).charge = x.charge := by
  unfold Job.stopped
  rw [rerouted_others]
  obtain ⟨-, -, -, -, -, hcharge, -, -, hsheets, hfaces⟩ := stopAt_others (Job.rewound es j { x with feedPort := none })
  refine ⟨hsheets.trans ?_, hfaces.trans ?_, hcharge.trans ?_⟩
  · rw [rewound_others]
  · rw [rewound_others]
  · rw [rewound_others]

theorem Job.CountedFrom.same (h : x.CountedFrom y) : y.state = x.state ∧ y.flags = x.flags ∧ y.feedPort = x.feedPort ∧
    y.cursorCopy = x.cursorCopy ∧ y.cursorPage = x.cursorPage ∧ y.generation = x.generation ∧ y.queue = x.queue := by
  unfold Job.CountedFrom at h
  rw [h]
  exact ⟨rfl, rfl, rfl, rfl, rfl, rfl, rfl⟩

-- ## The jobs at the port

/-- The jobs at the port when its sheets have been counted. -/
theorem jamConfirmed_atPort (hw : s.ports[p].window = es ++ back) : AtPort (s.jamConfirmed p loc es) p j ↔
    s.ports[p].feedOwner = some j ∨ ∃ f ∈ back, f.job = j := by
  unfold AtPort
  rw [jamConfirmed_port hw]
  rfl

theorem atPort_of_jam (hw : s.ports[p].window = es ++ back)
    (hj : s.ports[p].feedOwner = some j ∨ ∃ f ∈ back, f.job = j) :
    AtPort s p j :=
  hj.imp_right fun ⟨f, hf, hfj⟩ => ⟨f, by rw [hw]; exact List.mem_append_right _ hf, hfj⟩

theorem jamConfirmed_from (hf : FeedsAgree s) (hw : s.ports[p].window = es ++ back)
    (hj : s.ports[p].feedOwner = some j ∨ ∃ f ∈ back, f.job = j) :
    s.jobs[j].CountedFrom (s.jamConfirmed p loc es).jobs[j] := by
  have hport := jamRaised_port s p loc
  have hjobs := (jamRaised_same s p loc).1
  have hfrom := confirm_from (s := (s.jammed p).raiseStop p .jam loc) (p := p) (es := es) (rest := back) (j := j)
    (by rw [hport]; exact hw) (by
      rw [hjobs]
      refine hj.imp_left fun ho => ?_
      rcases owner_state hf ho with hs | hs <;> rw [hs] <;> decide)
  rw [hjobs] at hfrom
  exact hfrom

/-- What `settleStop_job` asks of the state that the sheets leave. -/
theorem jamConfirmed_stoppable (hf : FeedsAgree s) (hw : s.ports[p].window = es ++ back)
    (hj : s.ports[p].feedOwner = some j ∨ ∃ f ∈ back, f.job = j) :
    ((s.jamConfirmed p loc es).ports[p].feedOwner = some j ∨ (s.jamConfirmed p loc es).jobs[j].feedPort = none) ∧
      ∀ q, q ≠ p → ∀ f ∈ (s.jamConfirmed p loc es).ports[q].window, f.job ≠ j := by
  have hat := atPort_of_jam hw hj
  obtain ⟨-, -, hfeed, -⟩ := (jamConfirmed_from (loc := loc) hf hw hj).same
  refine ⟨?_, fun q hq => ?_⟩
  · rw [jamConfirmed_port hw, hfeed]
    exact or_iff_not_imp_left.2 fun ho => atPort_unfed hf hat ho
  · rw [jamConfirmed_ports_ne hq]
    exact atPort_home hf hat hq

/-- The jobs of the entries behind the last sheet, and the feed owner, are stopped (R149, R151). -/
theorem jam_stopped (hf : FeedsAgree s) (hw : s.ports[p].window = es ++ back)
    (hj : s.ports[p].feedOwner = some j ∨ ∃ f ∈ back, f.job = j) (ht : t = (s.jamConfirmed p loc es).settleStop p) :
    t.jobs[j].feedPort = none ∧
      t.jobs[j].exclusion = some { port := p, tick := s.clock + BitVec.ofNat 32 (10 * s.timers.reroute) } ∧
      (t.jobs[j].cursorCopy, t.jobs[j].cursorPage) =
        cursorAfter { s with ports := s.ports.set p.val { s.ports[p] with window := back } } p j ∧
      (goesBack s.jobs[j] → t.jobs[j].state = .waiting ∧ t.jobs[j].reason = some .jam) ∧
      (s.jobs[j].state = .error ∨ s.jobs[j].state = .cancelling → t.jobs[j].state = s.jobs[j].state) ∧
      hasBit t.jobs[j].flags 2 = (hasBit s.jobs[j].flags 2 || s.jobs[j].state == .cancelling) ∧
      hasBit t.jobs[j].flags 6 = (hasBit s.jobs[j].flags 6 || s.queues[s.jobs[j].queue].reroute) ∧
      ({ slot := j, generation := s.jobs[j].generation } : Handle) ∈ t.alerts[stopSlot p].affected := by
  subst ht
  obtain ⟨hfed, hhome⟩ := jamConfirmed_stoppable (loc := loc) hf hw hj
  obtain ⟨hjob, hlisted⟩ := settleStop_job ((jamConfirmed_atPort hw).2 hj) hfed hhome
  obtain ⟨hfeed, hcursor, hexclusion, hgoes, hstays, hcancelled, hrerouted, -⟩ :=
    stoppedJob_of_record (s.jamConfirmed p loc es) p j rfl
  obtain ⟨hstate, hflags, -, hcopy, hpage, hgeneration, hqueue⟩ := (jamConfirmed_from (loc := loc) hf hw hj).same
  have hkeeps := jamConfirmed_keeps s p loc es
  have hclock : (s.jamConfirmed p loc es).clock = s.clock := hkeeps.part .clock
  have htimers : (s.jamConfirmed p loc es).timers = s.timers := hkeeps.part .timers
  have hreroute : (s.jamConfirmed p loc es).queues[s.jobs[j].queue].reroute = s.queues[s.jobs[j].queue].reroute := by
    unfold State.jamConfirmed
    rw [confirm_reroute, (jamRaised_same s p loc).2.2.1]
  have hback : cursorAfter (s.jamConfirmed p loc es) p j =
      cursorAfter { s with ports := s.ports.set p.val { s.ports[p] with window := back } } p j := by
    have hset : ({ s with ports := s.ports.set p.val { s.ports[p] with window := back } } : State).ports[p] =
        { s.ports[p] with window := back } := Vector.getElem_set_self ..
    unfold cursorAfter
    rw [hset, jamConfirmed_port hw]
    simp only [hstate, hcopy, hpage]
  rw [hjob]
  generalize Job.stopped p _ j _ _ _ = y at hfeed hcursor hexclusion hgoes hstays hcancelled hrerouted ⊢
  unfold goesBack at hgoes
  rw [hstate] at hgoes hstays hcancelled
  rw [hclock, htimers] at hexclusion
  rw [hflags] at hcancelled hrerouted
  simp only [hqueue, hreroute] at hrerouted
  rw [hgeneration] at hlisted
  exact ⟨hfeed, hexclusion, hcursor.trans hback, hgoes, hstays, hcancelled, hrerouted, hlisted⟩

/-- The settlement leaves what the sheets counted (R151). -/
theorem jam_counts (hf : FeedsAgree s) (hw : s.ports[p].window = es ++ back) (loc : Byte) (j : SlotId) :
    ((s.jamConfirmed p loc es).settleStop p).jobs[j].sheets = (s.jamConfirmed p loc es).jobs[j].sheets ∧
    ((s.jamConfirmed p loc es).settleStop p).jobs[j].faces = (s.jamConfirmed p loc es).jobs[j].faces ∧
    ((s.jamConfirmed p loc es).settleStop p).jobs[j].charge = (s.jamConfirmed p loc es).jobs[j].charge := by
  by_cases hj : s.ports[p].feedOwner = some j ∨ ∃ f ∈ back, f.job = j
  · obtain ⟨hfed, hhome⟩ := jamConfirmed_stoppable (loc := loc) hf hw hj
    rw [(settleStop_job ((jamConfirmed_atPort hw).2 hj) hfed hhome).1]
    exact stopped_counts ..
  · rw [settleStop_jobs_ne fun hc => hj ((jamConfirmed_atPort hw).1 hc)]
    exact ⟨rfl, rfl, rfl⟩

/-- A job with confirmed entries alone is left where its last sheet leaves it. -/
theorem jam_sheetedOut (hf : FeedsAgree s) (hw : s.ports[p].window = es ++ back) (hj : ∃ f ∈ es, f.job = j)
    (hback : ∀ f ∈ back, f.job ≠ j) (ho : s.ports[p].feedOwner ≠ some j) (loc : Byte) :
    s.jobs[j].SheetedOut ((s.jamConfirmed p loc es).settleStop p).jobs[j] := by
  have haway : ¬AtPort (s.jamConfirmed p loc es) p j := fun hc =>
    ((jamConfirmed_atPort hw).1 hc).elim ho fun ⟨f, hf, hfj⟩ => hback f hf hfj
  have hat : AtPort s p j := .inr (hj.imp fun f ⟨hf, hfj⟩ => ⟨by rw [hw]; exact List.mem_append_left _ hf, hfj⟩)
  have hport := jamRaised_port s p loc
  have hbefore := jammed_before s p
  have hout := confirm_sheetedOut (s := (s.jammed p).raiseStop p .jam loc) (p := p) (es := es) (rest := back)
    (by rw [hport]; exact hw) hj hback fun q hq => by
      rw [(hbefore.raised .jam loc).2, hbefore.others q hq]
      exact atPort_home hf hat hq
  rw [(jamRaised_same s p loc).1] at hout
  rw [settleStop_jobs_ne haway]
  exact hout

theorem jam_away (hw : s.ports[p].window = es ++ back) (hj : ¬AtPort s p j) (loc : Byte) :
    ((s.jamConfirmed p loc es).settleStop p).jobs[j] = s.jobs[j] := by
  have haway : ¬AtPort (s.jamConfirmed p loc es) p j := fun hc => hj (atPort_of_jam hw ((jamConfirmed_atPort hw).1 hc))
  have hnone : ∀ f ∈ es, f.job ≠ j := fun f hf hfj => hj (.inr ⟨f, by rw [hw]; exact List.mem_append_left _ hf, hfj⟩)
  rw [settleStop_jobs_ne haway]
  unfold State.jamConfirmed
  rw [confirm_jobs_ne hnone, (jamRaised_same s p loc).1]

-- ## What the sheets count and charge

theorem held_congr (h : Held s es) (hjobs : t.jobs = s.jobs) : Held t es := by
  unfold Held at h ⊢
  rw [hjobs]
  exact h

theorem netsOf_congr (hjobs : t.jobs = s.jobs) (haccounts : t.accounts = s.accounts) (hpages : t.pages = s.pages)
    (htariffs : t.tariffs = s.tariffs) (keep : SendEntry → Bool) : netsOf t es keep = netsOf s es keep := by
  unfold netsOf netOf
  simp only [hjobs, haccounts, hpages, htariffs]

theorem chosen_ne_nil {α : Type} {keep : SendEntry → Bool} (h : ∃ f ∈ es, keep f = true) (g : SendEntry → α) :
    (es.filter keep).map g ≠ [] := by
  obtain ⟨f, hf, hk⟩ := h
  exact fun hc => List.not_mem_nil (hc ▸ List.mem_map_of_mem (List.mem_filter.2 ⟨hf, hk⟩))

/-- The counts and the charge of a job with confirmed entries (R10, R121, R122). -/
theorem jamConfirmed_job (hj : ∃ f ∈ es, f.job = j) (p : PortId) (loc : Byte) :
    (s.jamConfirmed p loc es).jobs[j].sheets =
      min (s.jobs[j].sheets + (es.filter (fun f => f.job == j)).length) 16777215 ∧
    (s.jamConfirmed p loc es).jobs[j].faces = min (s.jobs[j].faces + facesOf es (fun f => f.job == j)) 16777215 ∧
    (Held s es → (s.jamConfirmed p loc es).jobs[j].charge =
      min (s.jobs[j].charge + netsOf s es (fun f => f.job == j)) 999999999999) := by
  obtain ⟨hjobs, haccounts, -, hpages, htariffs⟩ := jamRaised_same s p loc
  have hchosen : ∃ f ∈ es, (f.job == j) = true := hj.imp fun f ⟨hf, hfj⟩ => ⟨hf, beq_iff_eq.2 hfj⟩
  unfold State.jamConfirmed
  refine ⟨?_, ?_, fun hheld => ?_⟩
  · rw [confirm_sheets, capped_eq _ _ (chosen_ne_nil hchosen _), hjobs]
    simp
  · rw [confirm_faces, capped_eq _ _ (chosen_ne_nil hchosen _), hjobs]
    rfl
  · have hheld' := held_congr hheld hjobs
    rw [confirm_charge hheld', capped_eq _ _ (chosen_ne_nil hchosen _), ← netsOf_eq hheld',
      netsOf_congr hjobs haccounts hpages htariffs, hjobs]

/-- The period and the allowance of an account behind the sheets (R123, R136). -/
theorem jamConfirmed_account (s : State) (p : PortId) (loc : Byte) (es : List SendEntry) (a : AccountId) :
    (s.jamConfirmed p loc es).accounts[a].allowance = (if s.accounts[a].unmetered then s.accounts[a].allowance
      else s.accounts[a].allowance - facesOf es (fun f => s.jobs[f.job].account == a)) ∧
    ((∃ f ∈ es, s.jobs[f.job].account = a) → (s.jamConfirmed p loc es).accounts[a].periodFaces =
      min (s.accounts[a].periodFaces + facesOf es (fun f => s.jobs[f.job].account == a)) 16777215) ∧
    ((∃ f ∈ es, s.jobs[f.job].account = a) → Held s es → (s.jamConfirmed p loc es).accounts[a].periodCharge =
      min (s.accounts[a].periodCharge + netsOf s es (fun f => s.jobs[f.job].account == a)) 999999999999) ∧
    ((∀ f ∈ es, s.jobs[f.job].account ≠ a) → (s.jamConfirmed p loc es).accounts[a] = s.accounts[a]) := by
  obtain ⟨hjobs, haccounts, -, hpages, htariffs⟩ := jamRaised_same s p loc
  have hfrom : AccountsFrom s ((s.jammed p).raiseStop p .jam loc) := fun k => by rw [hjobs]
  unfold State.jamConfirmed
  refine ⟨?_, fun hc => ?_, fun hc hheld => ?_, fun hn => ?_⟩
  · rw [(confirm_reserved hfrom p es a).2, haccounts]
  · have hchosen : ∃ f ∈ es, (s.jobs[f.job].account == a) = true := hc.imp fun f ⟨hf, hfa⟩ => ⟨hf, beq_iff_eq.2 hfa⟩
    rw [confirm_periodFaces, hjobs, haccounts, capped_eq _ _ (chosen_ne_nil hchosen _)]
    rfl
  · have hchosen : ∃ f ∈ es, (s.jobs[f.job].account == a) = true := hc.imp fun f ⟨hf, hfa⟩ => ⟨hf, beq_iff_eq.2 hfa⟩
    have hheld' := held_congr hheld hjobs
    rw [confirm_periodCharge hheld', hjobs, capped_eq _ _ (chosen_ne_nil hchosen _), ← netsOf_eq hheld',
      netsOf_congr hjobs haccounts hpages htariffs, haccounts]
  · rw [confirm_accounts_other hfrom p hn, haccounts]

end Sys2Proof.Machine
end

