-- ==== Sys2Proof/Proofs/JamStatement.lean ====
section
/-! SUPPORT. The statement on JAM (R100, R149 to R151). -/

set_option Elab.async false

namespace Sys2Proof.Machine

open Sys2Proof.Safety

variable {s t : State} {p : PortId} {e : SendEntry} {es front back : List SendEntry} {loc present : Byte} {n : Serial}

/-- A meter set behind the sheets and the settlement of a JAM (R107, R149, R150). -/
theorem MeterSet.jammed (m : MeterSet) (hes : es ≠ []) (back : List SendEntry) :
    ((m.sheetAll es).spoilAll back).taken = m.taken ∧
    ((m.sheetAll es).spoilAll back).sheets = (m.sheets + es.length) % 1000000000 ∧
    (m.mono < 1000000000 → ((m.sheetAll es).spoilAll back).mono =
      (m.mono + facesOf es (fun f => f.colour == .mono)) % 1000000000) ∧
    (m.spot < 1000000000 → ((m.sheetAll es).spoilAll back).spot =
      (m.spot + facesOf es (fun f => f.colour == .spot)) % 1000000000) ∧
    (m.full < 1000000000 → ((m.sheetAll es).spoilAll back).full =
      (m.full + facesOf es (fun f => f.colour == .full)) % 1000000000) ∧
    (m.spoiled < 1000000000 → ((m.sheetAll es).spoilAll back).spoiled =
      (m.spoiled + facesOf back (fun f => f.state == .taken)) % 1000000000) := by
  obtain ⟨htaken, hspoiled⟩ := MeterSet.sheetAll_rest es m
  have hsheets := MeterSet.sheetAll_sheets hes m
  obtain ⟨hmono, hspot, hfull⟩ := MeterSet.sheetAll_colours m es
  refine ⟨?_, ?_, fun h => ?_, fun h => ?_, fun h => ?_, fun h => ?_⟩
  · rw [MeterSet.spoilAll_others, htaken]
  · rw [MeterSet.spoilAll_others, hsheets]
  · rw [MeterSet.spoilAll_others, hmono h]
  · rw [MeterSet.spoilAll_others, hspot h]
  · rw [MeterSet.spoilAll_others, hfull h]
  · rw [MeterSet.spoilAll_spoiled (by rw [hspoiled]; exact h), hspoiled]
    rfl

/-- A JAM whose serial names a TAKEN entry of the window. -/
theorem jam_confirmed (hup : s.ports[p].link = .up) (hheld : s.ports[p].holdAsked = false) (hf : FeedsAgree s)
    (hw : s.ports[p].window = front ++ e :: back) (hn : e.serial = n) (ht : e.state = .taken)
    (hfront : ∀ f ∈ front, f.serial ≠ n ∧ f.state = .taken) : exec (.jam p loc 1 n) s =
      .next ((s.jamConfirmed p loc (front ++ [e])).settleStop p) := by
  have hsplit : s.ports[p].window = (front ++ [e]) ++ back := by
    rw [hw, List.append_assoc]
    rfl
  have hentries : confirmedEntries s.ports[p].window (if (1 : Byte) = 1 then some n else none) = front ++ [e] := by
    rw [if_pos rfl, hw]
    exact confirmedEntries_named hn ht hfront
  rw [exec_jam hup (.inr rfl), jamTaken_confirmed hentries, holdTest_unheld]
  rw [jam_port hf hsplit]
  exact hheld

theorem jam_keeps (s : State) (p : PortId) (loc : Byte) (es : List SendEntry) : KeepsAllBut
    [.jobs, .queues, .markLine, .pages, .freePool, .ports, .accounts, .alerts, .openAlerts, .notices, .pressLog,
      .passInProgress, .passOwed] s ((s.jamConfirmed p loc es).settleStop p) :=
  ((jamConfirmed_keeps s p loc es).trans (State.settleStop_keeps _ p)).mono

theorem jam_sent (s : State) (p : PortId) (loc : Byte) (es : List SendEntry) :
    ∃ cut, CutShort s p cut ∧ Sent s ((s.jamConfirmed p loc es).settleStop p) p cut := by
  obtain ⟨cut, hcut, hsent⟩ := jammed_sent s p
  exact ⟨cut, hcut, ((State.settleStop_keeps _ p).part .pressLog).trans
    ((jamConfirmed_pressLog s p loc es).trans hsent)⟩

/-- Settles O38: without a confirmed entry by the stop condition alone, and else by `jamConfirmed_job` and
`jamConfirmed_account` for the sheets and `jam_stopped` for the jobs behind them. -/
theorem jamConfirmsAndStops : Obligations.JamConfirmsAndStops := by
  intro s p loc present n hup hheld hf
  refine ⟨exec_jam_bad hup, fun h => ⟨_, jam_unconfirmed hup hheld hf h, ?_⟩,
    fun front back done e hpresent hw hn ht hfront hdone => ?_⟩
  · have hbefore := jammed_before s p
    have hport := hbefore.stopped_port hf .jam loc
    rw [jammed_port] at hport
    obtain ⟨cut, hcut, hsent⟩ := jammed_sent s p
    refine ⟨hbefore.stopped_raised .jam loc,
      windowSettled_of_port (hbefore.stopped_settled hf .jam loc) (hbefore.stopped_accounts .jam loc),
      hbefore.stopped_jobs hf .jam loc, by rw [hport]; rfl, by rw [hport]; exact hup, ?_,
      ⟨cut, hcut, (stopped_pressLog _ p .jam loc).trans hsent⟩, hbefore.stopped_others .jam loc,
      hbefore.stopped_keeps .jam loc⟩
    rw [hport]
    exact if_pos (.inr hup)
  · subst hpresent
    have hes : done ≠ [] := by
      rw [hdone]
      simp
    have hsplit : s.ports[p].window = done ++ back := by
      rw [hw, hdone, List.append_assoc]
      rfl
    have hexec := jam_confirmed (loc := loc) hup hheld hf hw hn ht hfront
    rw [← hdone] at hexec
    have hport := jam_port (loc := loc) hf hsplit
    have hheard : (heardPort s p).lastHeard = s.clock := if_pos (.inr hup)
    refine ⟨_, hexec, jam_raised s p loc done, by rw [hport], by rw [hport], by rw [hport], fun set set' hset => ?_,
      by rw [hport]; rfl, by rw [hport]; exact hup, by rw [hport]; exact hheard, by rw [hport]; rfl,
      jam_sent s p loc done, fun q hq => (settleStop_ports_ne hq).trans (jamConfirmed_ports_ne hq), fun j hj => ?_,
      fun a => ?_, fun j hj => jam_stopped hf hsplit hj.symm rfl, fun j hj hback ho => ?_,
      fun j hj => jam_away hsplit hj loc, jam_keeps s p loc done⟩
    · rw [hport] at hset
      rcases hset with ⟨rfl, rfl⟩ | ⟨rfl, rfl⟩
      · exact MeterSet.jammed _ hes back
      · exact MeterSet.jammed _ hes back
    · obtain ⟨hsheets, hfaces, hcharge⟩ := jam_counts hf hsplit loc j
      obtain ⟨hs, hfc, hc⟩ := jamConfirmed_job (s := s) hj p loc
      exact ⟨hsheets.trans hs, hfaces.trans hfc, fun h1 h2 => hcharge.trans (hc ⟨h1, h2⟩)⟩
    · obtain ⟨hallowance, hperiod, hcharge, hother⟩ := jamConfirmed_account s p loc done a
      have haccount := jam_accounts (loc := loc) hsplit a
      refine ⟨by rw [haccount], by rw [haccount, ← hallowance], fun hc => by rw [haccount, ← hperiod hc],
        fun hc h1 h2 => by rw [haccount, ← hcharge hc ⟨h1, h2⟩], fun hn => ?_⟩
      rw [haccount, hother hn]
    · obtain ⟨hexclusion, hfeed, hdoneState, hproof, hstays⟩ := jam_sheetedOut hf hsplit hj hback ho loc
      exact ⟨hexclusion, hfeed, hdoneState, hproof, hstays⟩

end Sys2Proof.Machine
end
